-- ==== Sys2Proof/Word.lean ====
section
/-!
DEFINITION. The word types of the Dziset module: the widths the spec gives its registers and its
instruction words (R3, R14, R57, R72, R316).
-/

namespace Sys2Proof

/-- A scalar or address register, a control register (R14, R26). -/
abbrev Word := BitVec 64

/-- One byte of memory (R31). -/
abbrev Byte := BitVec 8

/-- A vector register: 4,096 bits (R20); also one 512-byte slab and one row of an accumulator tile. -/
abbrev VReg := BitVec 4096

/-- A lane mask: one bit per 4-bit granule (R19). -/
abbrev QReg := BitVec 1024

/-- A tensor record: 32 bytes (R57). -/
abbrev TRec := BitVec 256

/-- A Waivavel syllable (R72). -/
abbrev Syllable := BitVec 128

/-- A Lystil word (R316). -/
abbrev LystilWord := BitVec 64

/-- A photonic flit: 40 bytes (R386). -/
abbrev Flit := BitVec 320

end Sys2Proof
end

