-- ==== Sys2Proof/Config.lean ====
section
/-!
DEFINITION. What an implementation fixes and the spec leaves open: constants of the module, and the free values, which
no definition constrains.
-/

namespace Sys2Proof

/-- Cores of the module and of one die (R2). -/
def coreCount : Nat := 512
def coresPerDie : Nat := 64

/-- The port that the fixed hash of R399 picks of the two of a direction, for a source, a destination and a class: false
the lower number. The spec names the hash and does not give it: a free value (log 60). -/
opaque portHash (src dst cls : Nat) : Bool

/-- The ADDR field of fault records that concern no address, the INFO field of those of kinds 4 and 5, and the CORE field of
records that no core, engine or Rambler asks for (R372): the table of R372 gives no value. Free values (log 58). -/
opaque reportAddr : Nat
opaque reportInfo : Nat
opaque reportCore : Nat

/-- The fields INFO, CTX, ADDR, CORE and UNIT of the record of kind 7 that a die at 105 °C posts (R408): the spec names the
record and no field. Free values (log 59). -/
opaque overtempField (k : Nat) : Nat

/-- The core cycles until the first syllable of a segment that is not resident arrives (R85, R251), by the core and the cycle of
its request: the spec gives bounds for some homes, and none beside other requests. A free value (log 11). -/
opaque fetchArrival (c n : Nat) : Nat

/-- The unit code that ELOG.ADDR shows of a mismatch in a copy or collective engine (R354, R383): R368 lists none. A free
value (log 121). -/
opaque engineUnit : Nat

/-- Whether an element that a vector instruction of a microcore leaves agnostic becomes all ones or keeps its value, by the
instruction and the element: R303 takes the choice from the extension it names, which leaves it open. A free value (log 102). -/
opaque agnosticOnes (n : Nat) : Bool

/-- The syndrome that ELOG.SYN shows of an uncorrectable word (R383): the spec gives no code of it. A free value (log 61). -/
opaque syndrome (a : Nat) : Nat

/-- The SHA-512 measurement of an image (R406, R407): a function of another standard, which the spec names and does not
give. A free value (log 62). -/
opaque measure (l : List Byte) : BitVec 512

/-- Whether the signature of an image verifies, by its measurement (R406): a function of another standard. A free value (log 62). -/
opaque imageVerifies (d : BitVec 512) : Bool

/-- The parameters that a training of the drawer memory finds, by the nanosecond at which it ends (R404): the spec gives none. Free
values (log 145). -/
opaque trainDrawer (ns : Nat) : Word

/-- The device serial number and the signature by the device identity key of an attestation report (R407): the spec names
them and gives no value. Free values (log 62). -/
opaque deviceSerial : List Byte
opaque signReport (l : List Byte) : List Byte

/-- The bytes of a save area that stand for what R375 names without a layout to the bit: its descriptors, parking map,
latches and plane records, by sequence number and offset. Free values (log 63). -/
opaque saveByte (seq off : Nat) : BitVec 8

/-- What a copy reads of a byte that it also writes and has written (R283, R326): whether the byte as it stood before; one
choice for each such read, by the number of the read. A free value (log 33). -/
opaque lapOld (n : Nat) : Bool

/-- Bytes of a core's scratchpad (R31). -/
def scratchBytes : Nat := 0x300000

/-- Slabs of a core's pool (R159) and rows of its accumulator store (R166). -/
def slabCount : Nat := 2048
def accRows : Nat := 4096

end Sys2Proof
end

