-- ==== Sys2Proof/Syntax.lean ====
section
/-!
DEFINITION. The syntax of the Dziset module: one constructor of `Instr` per row of the opcode table.
A Waivavel syllable carries the fields every syllable has (R72) as a `Hdr` and its operands as the numbers
its encoding holds; a Lystil word carries its fields (R317); an event carries the numbers that name the agent
it happens at, and the data that comes from outside the module.
-/

namespace Sys2Proof

/-- The fields that every syllable has beside its opcode and operands (R72). -/
structure Hdr where
  /-- SLOT: 0 S0, 1 S1, 2 V0, 3 V1, 4 V2, 5 X, 6 L, 7 K (R43). -/
  slot : Nat := 0
  /-- E: this syllable ends its bundle. -/
  e : Bool := false
  /-- AS: the address-stream mark (R44). -/
  asMark : Bool := false
  /-- STALL: 0 to 15. -/
  stall : Nat := 0
  /-- WAIT: bit k names SB(k + 1). -/
  wait : Nat := 0
  /-- SBSET: 0 none, 1 to 6. -/
  sbset : Nat := 0
  /-- REUSE: four hints (R42). -/
  reuse : Nat := 0
  /-- PNEG: takes effect when the predicate is false. -/
  pneg : Bool := false
  /-- PNUM: predicate register. -/
  pnum : Nat := 0
  deriving DecidableEq, Repr

/-- The operands of a segment header (R79). -/
structure SegHdr where
  /-- LEN: the number of bundles, the header included, minus 1. -/
  len : Nat := 0
  /-- NEXT: signed offset in syllables to the fall-through successor. -/
  next : BitVec 22 := 0
  /-- BRP: signed offset in syllables to the predicted successor. -/
  brp : BitVec 22 := 0
  /-- LIVE0 to LIVE5. -/
  live0 : Nat := 0
  live1 : Nat := 0
  live2 : Nat := 0
  live3 : Nat := 0
  live4 : Nat := 0
  live5 : Nat := 0
  /-- RDVG: rendezvous group, 0 none. -/
  rdvg : Nat := 0
  /-- EXT: the last bundle is an exit bundle. -/
  ext : Bool := false
  deriving DecidableEq, Repr

/-- The operand fields of the VEC format, its MOD field divided (R74, R122). -/
structure VecOps where
  dst : Nat := 0
  opa : Nat := 0
  opb : Nat := 0
  opc : Nat := 0
  qm : Nat := 0
  ew : Nat := 0
  rm : Nat := 0
  cl : Nat := 0
  tr : Nat := 0
  sh : Nat := 0
  zi : Bool := false
  rr : Bool := false
  part : Nat := 0
  dfmt : Nat := 0
  smode : Nat := 0
  i : Bool := false
  w : Bool := false
  sub : Nat := 0
  imm : BitVec 32 := 0
  deriving DecidableEq, Repr

/-- The kinds of packet that reach a collective engine from another module's engine
(R325, R334, R337 to R339, R344). -/
inductive PacketKind where
  /-- the whole chunk of one matched transfer -/
  | data
  /-- a member has posted a receive of `len` bytes -/
  | recvPosted
  /-- the acknowledgement of a delivered transfer; when its lengths differed `val` is 1 from its sender, 2 from its receiver -/
  | ack
  /-- the done marker of a SIG.ALL -/
  | done
  /-- the drain marker of a GFREE -/
  | drain
  /-- the failure marker of a thread that ended badly -/
  | failure
  /-- a remote add of `val` to event counter `seq` -/
  | radd
  /-- the bytes of a fired tile numbered `seq` -/
  | fire
  /-- the acknowledgement of a fired tile -/
  | fireAck
  deriving DecidableEq, Repr

/-- A packet of a group that arrives at a collective engine (R337). -/
structure Packet where
  kind : PacketKind
  /-- group identifier and incarnation -/
  gid : Nat
  inc : Nat
  /-- the sender: its module identifier and die -/
  srcMod : Nat
  srcDie : Nat
  /-- the number of the transfer between the two members, or the counter or tile it names -/
  seq : Nat
  len : Nat
  val : Nat
  bytes : List Byte
  deriving DecidableEq, Repr

/-- Every step of the opcode table: a syllable, a Lystil word or an event. -/
inductive Instr where
  /-- ADD: Writes the 64-bit sum of two scalar registers into the destination, wrapping. (R93) -/
  | add (h : Hdr) (d a b : Nat)
  /-- SUB: Writes the 64-bit difference of two scalar registers into the destination, wrapping. (R93) -/
  | sub (h : Hdr) (d a b : Nat)
  /-- ADDI: Adds the sign-extended 48-bit immediate to a scalar register. (R95) -/
  | addi (h : Hdr) (d a : Nat) (imm : BitVec 48)
  /-- MUL: Writes the low 64 bits of the signed product of two scalars after 3 cycles. (R93) -/
  | mul (h : Hdr) (d a b : Nat)
  /-- MULH: Writes the high 64 bits of the signed 128-bit product. (R93) -/
  | mulh (h : Hdr) (d a b : Nat)
  /-- MULHU: Writes the high 64 bits of the unsigned 128-bit product. (R93) -/
  | mulhu (h : Hdr) (d a b : Nat)
  /-- DIV: Signed division truncated toward zero on the shared divider, with defined results for zero and overflow. (R93) -/
  | div (h : Hdr) (d a b : Nat)
  /-- DIVU: Unsigned division on the shared divider, giving all ones for a zero divisor. (R93) -/
  | divu (h : Hdr) (d a b : Nat)
  /-- REM: Signed remainder with the sign of the dividend. (R93) -/
  | rem (h : Hdr) (d a b : Nat)
  /-- REMU: Unsigned remainder. (R93) -/
  | remu (h : Hdr) (d a b : Nat)
  /-- AND: Bitwise AND of two scalars. (R93) -/
  | and_ (h : Hdr) (d a b : Nat)
  /-- OR: Bitwise OR of two scalars. (R93) -/
  | or_ (h : Hdr) (d a b : Nat)
  /-- XOR: Bitwise XOR of two scalars. (R93) -/
  | xor_ (h : Hdr) (d a b : Nat)
  /-- ANDN: Bitwise AND of a with NOT b. (R93) -/
  | andn (h : Hdr) (d a b : Nat)
  /-- SHL: Shifts a scalar left by b[5:0]. (R93) -/
  | shl (h : Hdr) (d a b : Nat)
  /-- SHR: Shifts a scalar right logically by b[5:0]. (R93) -/
  | shr (h : Hdr) (d a b : Nat)
  /-- SRA: Shifts a scalar right arithmetically by b[5:0]. (R93) -/
  | sra (h : Hdr) (d a b : Nat)
  /-- ROTR: Rotates a scalar right by b[5:0]. (R93) -/
  | rotr (h : Hdr) (d a b : Nat)
  /-- CLZ: Counts leading zero bits at 64 or 32 bits. (R93) -/
  | clz (h : Hdr) (d a : Nat) (w : Bool)
  /-- CLS: Counts redundant leading sign bits at 64 or 32 bits. (R93) -/
  | cls (h : Hdr) (d a : Nat) (w : Bool)
  /-- CTZ: Counts trailing zero bits at 64 or 32 bits. (R93) -/
  | ctz (h : Hdr) (d a : Nat) (w : Bool)
  /-- POPC: Counts one bits at 64 or 32 bits. (R93) -/
  | popc (h : Hdr) (d a : Nat) (w : Bool)
  /-- MIN: Writes the signed minimum of two scalars. (R93) -/
  | min_ (h : Hdr) (d a b : Nat)
  /-- MAX: Writes the signed maximum of two scalars. (R93) -/
  | max_ (h : Hdr) (d a b : Nat)
  /-- MINU: Writes the unsigned minimum of two scalars. (R93) -/
  | minu (h : Hdr) (d a b : Nat)
  /-- MAXU: Writes the unsigned maximum of two scalars. (R93) -/
  | maxu (h : Hdr) (d a b : Nat)
  /-- SEL: Selects a or b according to a predicate register. (R93) -/
  | sel (h : Hdr) (d a b c : Nat)
  /-- CMP: Writes a predicate with the result of a signed or unsigned comparison. (R93) -/
  | cmp (h : Hdr) (d a b cc : Nat)
  /-- PAND: ANDs two predicates. (R93) -/
  | pand (h : Hdr) (d a b : Nat)
  /-- POR: ORs two predicates. (R93) -/
  | por (h : Hdr) (d a b : Nat)
  /-- PXOR: XORs two predicates. (R93) -/
  | pxor (h : Hdr) (d a b : Nat)
  /-- PNOT: Inverts a predicate. (R93) -/
  | pnot (h : Hdr) (d a : Nat)
  /-- MOVI: Writes a 64-bit immediate into a scalar register. (R95) -/
  | movi (h : Hdr) (d : Nat) (imm : BitVec 64)
  /-- BFX: Extracts a bit field, zero- or sign-extended. (R95) -/
  | bfx (h : Hdr) (d a pos lenm1 : Nat) (sx : Bool)
  /-- BFI: Inserts a bit field into the old destination value. (R96) -/
  | bfi (h : Hdr) (d a pos lenm1 : Nat)
  /-- SEXT: Sign-extends a scalar from bit k. (R95) -/
  | sext (h : Hdr) (d a k : Nat)
  /-- ZEXT: Zero-extends a scalar from bit k. (R95) -/
  | zext (h : Hdr) (d a k : Nat)
  /-- AMOV: Moves a value between A and S registers in the direction that MOD selects. (R100) -/
  | amov (h : Hdr) (d a dir : Nat)
  /-- AADD: Adds a scalar to an address register. (R100) -/
  | aadd (h : Hdr) (d a b : Nat)
  /-- AADDI: Adds a signed immediate to an address register. (R100) -/
  | aaddi (h : Hdr) (d a : Nat) (imm : BitVec 48)
  /-- AWRAP: Steps an address register and subtracts the bound once when it is reached. (R100) -/
  | awrap (h : Hdr) (d a step bound : Nat)
  /-- AIDX: Adds shifted work-identifier fields to an address register. (R100) -/
  | aidx (h : Hdr) (d a : Nat) (ents : BitVec 48)
  /-- WIDF: Writes one work-identifier field into a scalar register. (R100) -/
  | widf (h : Hdr) (d k : Nat)
  /-- SEGH: Segment header: marks segment entry, captures segment-entry state and starts the successor prefetch. (R101) -/
  | segh (h : Hdr) (o : SegHdr)
  /-- NOP: Does nothing except carry scheduling fields. (R115) -/
  | nop (h : Hdr)
  /-- BR: Unconditional transfer to a SEGH target. (R103) -/
  | br (h : Hdr) (off : BitVec 48)
  /-- BRC: Conditional transfer when two scalars satisfy the condition code. (R103) -/
  | brc (h : Hdr) (a b cc : Nat) (off : BitVec 48)
  /-- CALL: Transfers to a target and writes the fall-through successor into a link register. (R103) -/
  | call (h : Hdr) (d : Nat) (off : BitVec 48)
  /-- RET: Transfers to the address held in a scalar register. (R103) -/
  | ret (h : Hdr) (a : Nat)
  /-- LOOPN: Decrements a count register and transfers while it is nonzero. (R103) -/
  | loopn (h : Hdr) (d : Nat) (off : BitVec 48)
  /-- YIELD: Ends the segment at a suspension point, possibly writing a continuation record. (R107) -/
  | yield (h : Hdr)
  /-- END: Ends the task once its results, variable operations and external effects are done. (R108) -/
  | end_ (h : Hdr)
  /-- TRAP: Raises the software trap 0x40 after its own bundle takes effect. (R112) -/
  | trap (h : Hdr) (code : BitVec 32)
  /-- ERET: Returns from monitor mode to TRAP.PC and delivers the latches, or kills the task when KILL is set. (R367) -/
  | eret (h : Hdr)
  /-- RDV: Rendezvous slot of a gang: holds until every member arrives. (R110) -/
  | rdv (h : Hdr)
  /-- PHASE: Marks arrival at a phase of the given scope, released at commit, and holds until the phase completes. (R109) -/
  | phase (h : Hdr) (scope : Nat) (y : Bool)
  /-- GETC: Reads a control register named by an immediate index. (R116) -/
  | getc (h : Hdr) (d idx : Nat)
  /-- SETC: Writes a control register, taking effect from the next bundle. (R116) -/
  | setc (h : Hdr) (a idx : Nat)
  /-- GETCX: Reads a control register whose index is held in a scalar. (R116) -/
  | getcx (h : Hdr) (d a : Nat)
  /-- SLABQ: Reports free slabs, free accumulator rows or the parking map. (R117) -/
  | slabq (h : Hdr) (d sel : Nat)
  /-- MUINV: Removes translation-cache entries by page, context or all. (R118) -/
  | muinv (h : Hdr) (a mode : Nat)
  /-- SEED: Writes the SEED control register and DRAW. (R119) -/
  | seed (h : Hdr) (a : Nat) (imm : BitVec 32)
  /-- RAMPQ: Reports the ramp limiter's insertion count and remaining allowance. (R120) -/
  | rampq (h : Hdr) (d : Nat)
  /-- VADD: Adds vector lanes, optionally widening, clamped or saturated. (R129) -/
  | vadd (h : Hdr) (o : VecOps)
  /-- VSUB: Subtracts vector lanes. (R129) -/
  | vsub (h : Hdr) (o : VecOps)
  /-- VADDS: Adds vector lanes with saturation. (R129) -/
  | vadds (h : Hdr) (o : VecOps)
  /-- VSUBS: Subtracts vector lanes with saturation. (R129) -/
  | vsubs (h : Hdr) (o : VecOps)
  /-- VMUL: Multiplies vector lanes. (R129) -/
  | vmul (h : Hdr) (o : VecOps)
  /-- VMULH: Writes the high half of lane products. (R129) -/
  | vmulh (h : Hdr) (o : VecOps)
  /-- VMULS: Multiplies lanes and rounds the product down by a shift. (R129) -/
  | vmuls (h : Hdr) (o : VecOps)
  /-- VMAC: Accumulates lane products into the destination. (R130) -/
  | vmac (h : Hdr) (o : VecOps)
  /-- VDOT4: Accumulates four-element dot products into wide lanes. (R130) -/
  | vdot4 (h : Hdr) (o : VecOps)
  /-- VAND: Bitwise AND of vector lanes. (R129) -/
  | vand (h : Hdr) (o : VecOps)
  /-- VOR: Bitwise OR of vector lanes. (R129) -/
  | vor (h : Hdr) (o : VecOps)
  /-- VXOR: Bitwise XOR of vector lanes. (R129) -/
  | vxor (h : Hdr) (o : VecOps)
  /-- VANDN: Bitwise AND NOT of vector lanes. (R129) -/
  | vandn (h : Hdr) (o : VecOps)
  /-- VSHL: Shifts vector lanes left. (R129) -/
  | vshl (h : Hdr) (o : VecOps)
  /-- VSHR: Shifts vector lanes right logically. (R129) -/
  | vshr (h : Hdr) (o : VecOps)
  /-- VSRA: Shifts vector lanes right arithmetically. (R129) -/
  | vsra (h : Hdr) (o : VecOps)
  /-- VSHRD: Rounds source lanes down by an immediate or per-lane shift into a narrower destination part. (R132) -/
  | vshrd (h : Hdr) (o : VecOps)
  /-- VSHRD_CENSUS: Census shift-down of 32-bit lanes through a tensor record, updating its census, shift, scale and flag. (R133) -/
  | vshrdCensus (h : Hdr) (o : VecOps)
  /-- VMIN: Lane-wise minimum. (R129) -/
  | vmin (h : Hdr) (o : VecOps)
  /-- VMAX: Lane-wise maximum. (R129) -/
  | vmax (h : Hdr) (o : VecOps)
  /-- VABS: Lane-wise absolute value. (R129) -/
  | vabs (h : Hdr) (o : VecOps)
  /-- VNEG: Lane-wise negation. (R129) -/
  | vneg (h : Hdr) (o : VecOps)
  /-- VCMP: Compares lanes and writes the mask bits of a Q register. (R131) -/
  | vcmp (h : Hdr) (o : VecOps)
  /-- VSEL: Selects lanes from two vectors by a mask. (R131) -/
  | vsel (h : Hdr) (o : VecOps)
  /-- VCLZ: Counts leading zeros per lane. (R129) -/
  | vclz (h : Hdr) (o : VecOps)
  /-- VCLS: Counts redundant sign bits per lane. (R129) -/
  | vcls (h : Hdr) (o : VecOps)
  /-- VPOPC: Counts one bits per lane. (R129) -/
  | vpopc (h : Hdr) (o : VecOps)
  /-- VCNV: Changes lane width without shifting, narrowing with a limit or widening with extension. (R134) -/
  | vcnv (h : Hdr) (o : VecOps)
  /-- VPACK: Narrows two vectors into one at half width. (R134) -/
  | vpack (h : Hdr) (o : VecOps)
  /-- VUNPK: Widens half of a vector to double width. (R134) -/
  | vunpk (h : Hdr) (o : VecOps)
  /-- VPERM: Permutes lanes by per-lane indices. (R135) -/
  | vperm (h : Hdr) (o : VecOps)
  /-- VBCST: Broadcasts a scalar or immediate to every active lane. (R131) -/
  | vbcst (h : Hdr) (o : VecOps)
  /-- VSLIDE: Slides lanes across two vectors by k. (R135) -/
  | vslide (h : Hdr) (o : VecOps)
  /-- VREDADD: Sums participating lanes into every destination lane. (R136) -/
  | vredadd (h : Hdr) (o : VecOps)
  /-- VREDMAX: Writes the maximum of participating lanes to every lane. (R136) -/
  | vredmax (h : Hdr) (o : VecOps)
  /-- VREDMIN: Writes the minimum of participating lanes to every lane. (R136) -/
  | vredmin (h : Hdr) (o : VecOps)
  /-- VSCAN: Writes inclusive prefix sums of participating lanes. (R136) -/
  | vscan (h : Hdr) (o : VecOps)
  /-- VMOV: Copies vector lanes. (R131) -/
  | vmov (h : Hdr) (o : VecOps)
  /-- VINS: Inserts a scalar into one lane. (R131) -/
  | vins (h : Hdr) (o : VecOps)
  /-- VEXT: Extracts one lane into a scalar. (R131) -/
  | vext (h : Hdr) (o : VecOps)
  /-- VIOTA: Writes a base plus the lane index into every lane. (R131) -/
  | viota (h : Hdr) (o : VecOps)
  /-- QAND: ANDs two masks. (R137) -/
  | qand (h : Hdr) (o : VecOps)
  /-- QOR: ORs two masks. (R137) -/
  | qor (h : Hdr) (o : VecOps)
  /-- QXOR: XORs two masks. (R137) -/
  | qxor (h : Hdr) (o : VecOps)
  /-- QNOT: Inverts a mask. (R137) -/
  | qnot (h : Hdr) (o : VecOps)
  /-- QPOPC: Counts the active lanes of a mask at a width. (R137) -/
  | qpopc (h : Hdr) (o : VecOps)
  /-- QSET: Sets the mask bits of the first k lanes and clears the rest. (R137) -/
  | qset (h : Hdr) (o : VecOps)
  /-- XEXP2: Table-interpolated base-2 exponential into Q1.15. (R139) -/
  | xexp2 (h : Hdr) (o : VecOps)
  /-- XRCP: Correctly rounded reciprocal as exponent and mantissa. (R140) -/
  | xrcp (h : Hdr) (o : VecOps)
  /-- XRSQ: Correctly rounded reciprocal square root as exponent and mantissa. (R140) -/
  | xrsq (h : Hdr) (o : VecOps)
  /-- XLOG2: Table-interpolated base-2 logarithm into Q15.16. (R141) -/
  | xlog2 (h : Hdr) (o : VecOps)
  /-- XSIGM: Integer sigmoid into Q1.15. (R142) -/
  | xsigm (h : Hdr) (o : VecOps)
  /-- XTANH: Integer hyperbolic tangent into Q0.15. (R142) -/
  | xtanh (h : Hdr) (o : VecOps)
  /-- XLUT: Starts interpolation through the user table, completing at a variable cycle. (R144) -/
  | xlut (h : Hdr) (o : VecOps)
  /-- XLUTLD: Reads 512 bytes of scratchpad into the inactive copy of the user table. (R145) -/
  | xlutld (h : Hdr) (base : Nat) (disp : BitVec 48)
  /-- XOPTM: Momentum optimiser step writing new weights and state to a register pair. (R146) -/
  | xoptm (h : Hdr) (o : VecOps)
  /-- XOPTA: Adaptive optimiser step using a reciprocal square root of the state. (R146) -/
  | xopta (h : Hdr) (o : VecOps)
  /-- LDS: Loads 1-8 scratchpad bytes into a scalar. (R149) -/
  | lds (h : Hdr) (d base : Nat) (disp : BitVec 48) (size : Nat) (sx : Bool)
  /-- STS: Stores the low bytes of a scalar into scratchpad. (R149) -/
  | sts (h : Hdr) (r base : Nat) (disp : BitVec 48) (size : Nat)
  /-- LDV: Loads a vector register from scratchpad, contiguous, strided or masked. (R151) -/
  | ldv (h : Hdr) (d base : Nat) (disp : BitVec 48) (opb opc ew : Nat) (st m zi : Bool)
  /-- STV: Stores a vector register to scratchpad. (R151) -/
  | stv (h : Hdr) (r base : Nat) (disp : BitVec 48) (opb opc ew : Nat) (st m : Bool)
  /-- LDVG: Gathers vector lanes from indexed scratchpad addresses. (R152) -/
  | ldvg (h : Hdr) (d base : Nat) (disp : BitVec 48) (opb opc ew : Nat) (m zi sc : Bool)
  /-- STVS: Scatters vector lanes to indexed scratchpad addresses. (R152) -/
  | stvs (h : Hdr) (r base : Nat) (disp : BitVec 48) (opb opc ew : Nat) (m sc : Bool)
  /-- LDVP: Delivers the next vector of a decoder queue, holding while it is empty and streams remain. (R153) -/
  | ldvp (h : Hdr) (d port : Nat)
  /-- LDG: Enters a direct global load into the direct queue. (R154) -/
  | ldg (h : Hdr) (d base : Nat) (disp : BitVec 48) (size : Nat) (sx v : Bool)
  /-- STG: Direct global store, read at issue and entering the queue at commit. (R154) -/
  | stg (h : Hdr) (r base : Nat) (disp : BitVec 48) (size : Nat) (v : Bool)
  /-- AMO: Atomic read-modify-write released at commit. (R155) -/
  | amo (h : Hdr) (d base : Nat) (disp : BitVec 48) (opb opc op : Nat) (u w8 : Bool)
  /-- TLD: Loads and validates a tensor record from scratchpad or, with G, from global memory. (R158) -/
  | tld (h : Hdr) (d base : Nat) (disp : BitVec 48) (g : Bool)
  /-- TST: Stores a tensor record to scratchpad. (R158) -/
  | tst (h : Hdr) (r base : Nat) (disp : BitVec 48)
  /-- PARK: Moves a vector register to a free slab or accumulator row. (R157) -/
  | park (h : Hdr) (r : Nat) (acc : Bool)
  /-- UNPARK: Restores a parked vector register and frees its place. (R157) -/
  | unpark (h : Hdr) (r : Nat)
  /-- RMAP: Maps a scratchpad region onto a global virtual range. (R156) -/
  | rmap (h : Hdr) (n base : Nat) (disp : BitVec 48) (va len mode : Nat)
  /-- RUNMAP: Writes back a region's dirty sectors and removes its mapping. (R156) -/
  | runmap (h : Hdr) (n : Nat)
  /-- RFILL: Starts fills of a region subrange. (R156) -/
  | rfill (h : Hdr) (n base : Nat) (disp : BitVec 48) (len : Nat)
  /-- RFLUSH: Captures and writes back the dirty sectors of a region subrange. (R156) -/
  | rflush (h : Hdr) (n base : Nat) (disp : BitVec 48) (len : Nat)
  /-- RINV: Discards the copies of a region subrange. (R156) -/
  | rinv (h : Hdr) (n base : Nat) (disp : BitVec 48) (len : Nat)
  /-- PUSH: Offers a 64-byte command to an engine queue at commit, refused when the queue is full. (R193) -/
  | push (h : Hdr) (d a opd eng : Nat)
  /-- PUSHQ: Offers a command at commit and holds until the queue accepts it. (R194) -/
  | pushq (h : Hdr) (d a opd eng : Nat)
  /-- MLDW: Loads a matrix register into the shadow weight plane. (R176) -/
  | mldw (h : Hdr) (a : Nat)
  /-- MSWAP: Exchanges the active and shadow weight planes. (R177) -/
  | mswap (h : Hdr)
  /-- MMA: Streams scratchpad activation rows through the active plane into an accumulator tile. (R178) -/
  | mma (h : Hdr) (d idx tr : Nat) (acc ch : Bool) (base disp cnt : Nat)
  /-- MMAV: Streams activation rows from vector registers through the active plane. (R178) -/
  | mmav (h : Hdr) (d a idx tr : Nat) (acc ch : Bool) (cnt : Nat)
  /-- MZERO: Zeroes an accumulator tile. (R181) -/
  | mzero (h : Hdr) (d : Nat)
  /-- CSHD: Census shift-down of accumulator rows into scratchpad. (R182) -/
  | cshd (h : Hdr) (a b idx tr base disp cnt : Nat)
  /-- CADD: Adds two accumulator tiles with saturation. (R181) -/
  | cadd (h : Hdr) (d a b : Nat)
  /-- CRDV: Reads an accumulator row, column or diagonal into a vector. (R174) -/
  | crdv (h : Hdr) (d a dir idx : Nat)
  /-- CWRV: Writes or adds a vector into an accumulator row, column or diagonal. (R175) -/
  | cwrv (h : Hdr) (d a dir idx : Nat) (add : Bool)
  /-- MLD: Loads a dense tile from scratchpad into an M register. (R172) -/
  | mld (h : Hdr) (d b tr base disp : Nat)
  /-- MST: Stores a dense M register to scratchpad. (R172) -/
  | mst (h : Hdr) (a b base disp : Nat)
  /-- MLDF: Loads low-rank factor components into an M register. (R173) -/
  | mldf (h : Hdr) (d b tr : Nat) (dn : Bool) (base disp cnt : Nat)
  /-- MSTF: Stores low-rank factor components to scratchpad. (R173) -/
  | mstf (h : Hdr) (a base disp : Nat)
  /-- MLRU: Appends rank-1 components from vector registers to a low-rank tile. (R183) -/
  | mlru (h : Hdr) (d a b : Nat) (dn : Bool) (cnt eg eh : Nat)
  /-- MLRADD: Concatenates the components of two low-rank tiles. (R184) -/
  | mlradd (h : Hdr) (d a b : Nat) (dn : Bool)
  /-- MLRMUL: Multiplies a low-rank tile by the active plane, rewriting its H factor. (R185) -/
  | mlrmul (h : Hdr) (d a tr sh rm : Nat) (rr : Bool)
  /-- MRECOMP: Starts recompression of a low-rank tile to a truncated rank. (R188) -/
  | mrecomp (h : Hdr) (d a : Nat)
  /-- MDENSE: Writes an M register as a dense tile, densifying a low-rank one. (R187) -/
  | mdense (h : Hdr) (d a : Nat)
  /-- MQRY: Reads an M descriptor or a slab number into a scalar. (R190) -/
  | mqry (h : Hdr) (d a idx : Nat) (slab : Bool)
  /-- MFREE: Empties an M register or marks an accumulator tile's rows free. (R191) -/
  | mfree (h : Hdr) (d : Nat) (tile : Bool)
  /-- MGET: Reads a row, column or diagonal of an M register into a vector. (R174) -/
  | mget (h : Hdr) (d a dir idx tr sh rm : Nat) (rr : Bool)
  /-- MPUT: Writes a vector into a row, column or diagonal of an M register. (R175) -/
  | mput (h : Hdr) (d a dir idx : Nat)
  /-- SEND: Sends a chunk to a group member on its channel. (R325) -/
  | send (ka gs peer ctr : Nat) (cn : Bool)
  /-- RECV: Receives a matching transfer into a chunk. (R325) -/
  | recv (ka gs peer ctr : Nat) (cn : Bool)
  /-- RECVR: Receives a transfer and reduces it into a chunk. (R327) -/
  | recvr (ka gs peer ctr : Nat) (cn : Bool) (rop rfmt : Nat) (cb : Bool) (clamp : Nat)
  /-- LYSTIL_COPY: Copies one chunk into another within the engine. (R326) -/
  | lystilCopy (ka kb ctr : Nat) (cn : Bool)
  /-- RED: Reduces one chunk into another element by element. (R326) -/
  | red (ka kb ctr : Nat) (cn : Bool) (rop rfmt : Nat) (cb : Bool) (clamp : Nat)
  /-- LYSTIL_WAIT: Holds the thread until a counter reaches a threshold. (R329) -/
  | lystilWait (ctr thr : Nat)
  /-- SIG_ADD: Adds a value to a local counter after earlier operations complete. (R332) -/
  | sigAdd (ctr val : Nat)
  /-- SIG_RADD: Sends an addition to a counter of a group member. (R332) -/
  | sigRadd (gs peer ctr val : Nat)
  /-- SIG_SRC: Raises SRCFREE after earlier operations have read their sources. (R332) -/
  | sigSrc
  /-- SIG_LOC: Raises LOCAL after earlier operations complete. (R332) -/
  | sigLoc
  /-- SIG_ALL: Sends done markers and raises ALLDONE once every member's marker arrives. (R333) -/
  | sigAll (gs : Nat)
  /-- SIG_SET: Writes a value into a local counter. (R332) -/
  | sigSet (ctr val : Nat)
  /-- TWAIT: Holds the thread until a tile flag is nonzero. (R329) -/
  | twait (tile : Nat)
  /-- TFIRE: Fires a tile entry, sending its data to a member and clearing its flag. (R341) -/
  | tfire (tile : Nat)
  /-- SETK_ADDR: Sets a chunk's address from an immediate. (R321) -/
  | setkAddr (k : Nat) (imm : BitVec 48)
  /-- SETK_ADDR_ADD: Adds a signed immediate to a chunk's address. (R321) -/
  | setkAddrAdd (k : Nat) (imm : BitVec 48)
  /-- SETK_ADDR_ARG: Sets a chunk's address from an argument word, waiting for the read. (R321) -/
  | setkAddrArg (k : Nat) (imm : BitVec 48)
  /-- SETK_RLEN: Sets a chunk's row length. (R321) -/
  | setkRlen (k : Nat) (imm : BitVec 48)
  /-- SETK_NROW: Sets a chunk's row count. (R321) -/
  | setkNrow (k : Nat) (imm : BitVec 48)
  /-- SETK_RSTR: Sets a chunk's row stride. (R321) -/
  | setkRstr (k : Nat) (imm : BitVec 48)
  /-- LYSTIL_LOOP: Writes a loop count. (R334) -/
  | lystilLoop (ln count : Nat)
  /-- BNZ: Decrements a loop counter and branches while nonzero. (R334) -/
  | bnz (ln : Nat) (off : BitVec 24)
  /-- GJOIN: Binds a group slot to a group incarnation from a member table. (R336) -/
  | gjoin (gs k inc gid : Nat)
  /-- GFREE: Drains and releases a group slot, recording its incarnation. (R338) -/
  | gfree (gs : Nat)
  /-- LYSTIL_END: Ends the schedule once all its operations complete, writing its status. (R335) -/
  | lystilEnd
  /-- LYSTIL_BADOP: An illegal Lystil word ends the thread with BADOP. (R319) -/
  | lystilBadop (w : BitVec 64)
  /-- XLUT_COMPLETE: The user-table lookup completes, writes its lanes and clears its scoreboard entry. (R144) -/
  | xlutComplete (c b id : Nat)
  /-- XLUT_TABLE_ACTIVATE: The loaded user-table copy becomes active at a bundle boundary and the XLUTLD entry clears. (R145) -/
  | xlutTableActivate (c b : Nat)
  /-- LDG_COMPLETE: A direct load completes, writes its register and clears its scoreboard entry. (R154) -/
  | ldgComplete (c b id : Nat)
  /-- AMO_COMPLETE: The atomic is performed at its home, writes the old value and clears its entry. (R155) -/
  | amoComplete (c b id : Nat)
  /-- TLD_GLOBAL_ARRIVAL: A global tensor record arrives and is validated, written or trapped at the next boundary. (R158) -/
  | tldGlobalArrival (c b id : Nat)
  /-- MRECOMP_COMPLETE: Recompression completes, writes the new factors, returns excess slabs and clears its entry. (R189) -/
  | mrecompComplete (c b id : Nat)
  /-- RESULT_WRITE: A fixed-latency result is written at the end of its write cycle on the bank's schedule clock. (R37) -/
  | resultWrite (c b : Nat)
  /-- SEGMENT_COMMIT: A segment commits after its ending bundle, releasing queued stores, pushes, phase arrivals and END. (R355) -/
  | segmentCommit (c b : Nat)
  /-- SEGMENT_FETCH: The fetch unit expands a non-resident or prefetched segment into a loop-buffer half. (R85) -/
  | segmentFetch (c b addr : Nat)
  /-- ADDRESS_STREAM_RUN: The address stream executes AS-marked syllables ahead and may prefetch sectors. (R44) -/
  | addressStreamRun (c b : Nat)
  /-- TRAP_ENTRY: A trap is taken at a bundle boundary: latches filled, trap registers written, control to the vector. (R365) -/
  | trapEntry (c b : Nat)
  /-- LATCH_DELIVERY: A delivery latch writes its held result at its recorded offset after a return. (R367) -/
  | latchDelivery (c b : Nat)
  /-- SEGMENT_REWIND: A checker mismatch rewinds the uncommitted segment, restores entry state and restarts. (R358) -/
  | segmentRewind (c b unit : Nat)
  /-- LOCAL_REPLAY: A unit repeats a mismatched operation of a committed segment from its captured operands. (R354) -/
  | localReplay (c b unit : Nat)
  /-- BANK_SWITCH: A page or link-stall fault drains the bank, blocks it and lets the other bank issue. (R370) -/
  | bankSwitch (c b : Nat)
  /-- FLT_ANS_RETRY: A write of FLT.ANS with END 0 makes the requester retry its translation. (R372) -/
  | fltAnsRetry (die seq : Nat)
  /-- FLT_ANS_END: A write of FLT.ANS with END 1 ends the job, thread or task, or rejects the launch. (R372) -/
  | fltAnsEnd (die seq : Nat)
  /-- PREEMPTION: A higher-priority entry pre-empts the chosen victim at its next boundary. (R373) -/
  | preemption (c : Nat)
  /-- CONTEXT_RESUME: A saved task is restored into its bank and its latches delivered. (R377) -/
  | contextResume (c k : Nat)
  /-- LAZY_WRITEOUT: A saved task's slab, tile or plane is written out before the incoming task takes it. (R376) -/
  | lazyWriteout (c k kind n : Nat)
  /-- BLOCKED_BANK_SAVE: After both banks block 4,096 cycles with a queued entry, the longer-blocked bank is saved. (R217) -/
  | blockedBankSave (c : Nat)
  /-- TIME_SLICE_END: After 2,048 cycles without a segment end, the running bank is switched out for an equal-priority ready bank. (R211) -/
  | timeSliceEnd (c : Nat)
  /-- PRIORITY_AGING: A task waiting 2^20 cycles is raised one priority level up to PCAP. (R216) -/
  | priorityAging (c n : Nat)
  /-- WATCHDOG: The watchdog count reaches its limit and raises trap 0x41. (R369) -/
  | watchdog (c b : Nat)
  /-- RENDEZVOUS_TIMEOUT: A rendezvous hold passes 2^24 cycles and raises 0x32, withdrawing the arrival. (R110) -/
  | rendezvousTimeout (c b : Nat)
  /-- CHAIN_TIMEOUT: A chained matrix member waits 2^24 cycles for partners and raises 0x32. (R180) -/
  | chainTimeout (c b : Nat)
  /-- PHASE_COMPLETE: A phase completes once every member has arrived effectively or ended, releasing waiters. (R219) -/
  | phaseComplete (lid scope wid k : Nat)
  /-- RAMP_WINDOW: A 1 us ramp window ends and each core's allowance is recomputed. (R225) -/
  | rampWindow
  /-- TASK_ADMIT: A queued entry enters an empty bank, narrowing accumulator partitions. (R210) -/
  | taskAdmit (c : Nat)
  /-- RAMBLER_PLACE: The Rambler enumerates the next identifier or gang and places it in a run queue. (R209) -/
  | ramblerPlace (lid : Nat)
  /-- RAMBLER_LAUNCH_ACCEPT: The Rambler reads and validates a nest and starts or rejects the launch. (R204) -/
  | ramblerLaunchAccept (src : Nat)
  /-- LAUNCH_COMPLETE: A launch completes when its tasks and jobs have completed, signalling its event. (R222) -/
  | launchComplete (lid : Nat)
  /-- FE_LAUNCH: Front-end LAUNCH entry hands a nest to the Rambler in context CTX. (R222) -/
  | feLaunch (q : Nat)
  /-- FE_SCHED: Front-end SCHED entry starts a collective schedule from a start block. (R222) -/
  | feSched (q : Nat)
  /-- FE_WAITEV: Front-end WAITEV entry holds its queue until a counter reaches a threshold. (R222) -/
  | feWaitev (q : Nat)
  /-- FE_SIGEV: Front-end SIGEV entry adds to an event counter and completes. (R222) -/
  | feSigev (q : Nat)
  /-- HALTQ_DRAIN: HALTQ in drain mode cancels unstarted work and stops the queue. (R223) -/
  | haltqDrain (q : Nat)
  /-- HALTQ_KILL: HALTQ in kill mode also kills resident and saved tasks and schedule threads. (R223) -/
  | haltqKill (q : Nat)
  /-- FE_BAD_ENTRY: An entry of an unlisted TYPE halts its queue and posts an error event. (R222) -/
  | feBadEntry (q : Nat)
  /-- FILL_LANDS: A region fill lands, writing the sector and making it CLEAN or INV. (R243) -/
  | fillLands (c b r sec : Nat)
  /-- WRITEBACK_ACK: A region write-back is acknowledged by its home, releasing waiting PHASE or END. (R244) -/
  | writebackAck (c b id : Nat)
  /-- DIRECT_ACCESS_PERFORM: A direct-queue entry is translated and performed at its home. (R249) -/
  | directAccessPerform (c b : Nat)
  /-- CORE_WINDOW_ACCESS: Another agent reads or writes a core window at the end of a target core cycle. (R232) -/
  | coreWindowAccess (c off len : Nat) (wr : Option Nat)
  /-- SWEEP_STEP: Every 8 ns the sweeper examines the frame under its hand and may push it to the ready queue. (R254) -/
  | sweepStep
  /-- MIG_TAIL_WRITE: A write of MIG.TAIL makes new migration commands available. (R255) -/
  | migTailWrite (v : BitVec 64)
  /-- MIGRATION_MOVE_START: The migration engine starts a MOVE command: walk and claim. (R256) -/
  | migrationMoveStart
  /-- MIGRATION_BAD_COMMAND: A command with an unknown OP or bad fields ends with STATUS 0x04. (R255) -/
  | migrationBadCommand
  /-- MIGRATION_DRAIN_DONE: Every unit acknowledges the drain and the page copy begins. (R256) -/
  | migrationDrainDone (n : Nat)
  /-- MIGRATION_COMMIT: The copy completes; the new leaf is written and MIGRATING faults answered. (R256) -/
  | migrationCommit (n : Nat)
  /-- MIGRATION_LOST: The copy meets uncorrectable data; the leaf is marked LOST and the frame quarantined. (R256) -/
  | migrationLost (n : Nat)
  /-- MIGRATION_FAIL: A second copy error clears MG and reports failure. (R256) -/
  | migrationFail (n : Nat)
  /-- SCRUB_PASS: The patrol scrubber reads a frame, correcting or marking it LOST. (R381) -/
  | scrubPass (frame : Nat)
  /-- COPY_JOB: A COPY card starts and copies its shaped source to its destination. (R288) -/
  | copyJob (c e k : Nat)
  /-- CONVERT_JOB: A CONVERT card starts and narrows elements with rounding, limits and optional residue. (R292) -/
  | convertJob (c e k : Nat)
  /-- GATHER_JOB: A GATHER card starts and copies indexed source rows. (R290) -/
  | gatherJob (c e k : Nat)
  /-- SCATTER_JOB: A SCATTER card starts and copies rows to indexed destinations. (R290) -/
  | scatterJob (c e k : Nat)
  /-- FILL_JOB: A FILL card starts and writes a repeating 64-bit pattern. (R289) -/
  | fillJob (c e k : Nat)
  /-- DECODE_JOB: A DECODE stream starts decoding compressed groups into the decoder queue. (R296) -/
  | decodeJob (c e k : Nat)
  /-- DECODE_BLOCK_DELIVER: A decoded and checked block is delivered when the queue has room, or the stream ends. (R297) -/
  | decodeBlockDeliver (c e : Nat)
  /-- XFORM_JOB: An XFORM card starts a routine on the microcore. (R304) -/
  | xformJob (c e k : Nat)
  /-- XF_INEED_WRITE: A write of XF.INEED holds the microcore until input bytes have landed. (R305) -/
  | xfIneedWrite (c e : Nat) (v : BitVec 64)
  /-- XF_IFREE_WRITE: A write of XF.IFREE allows input bytes below it to be refilled. (R305) -/
  | xfIfreeWrite (c e : Nat) (v : BitVec 64)
  /-- XF_OMARK_WRITE: A write of XF.OMARK marks output complete, holding for drain. (R305) -/
  | xfOmarkWrite (c e : Nat) (v : BitVec 64)
  /-- XF_DONE_WRITE: A write of XF.DONE ends the routine with an exit code. (R306) -/
  | xfDoneWrite (c e : Nat) (v : BitVec 64)
  /-- XFORM_TIMEOUT: A routine reaches 2^32 microcore cycles and ends with code 0xFFFE. (R306) -/
  | xformTimeout (c e : Nat)
  /-- CHAIN_JOB: A CHAIN card starts running its entries in order. (R300) -/
  | chainJob (c e k : Nat)
  /-- CHAIN_COMMAND_ENTRY: A chain command entry runs with loop-adjusted addresses after the previous entry's writes. (R300) -/
  | chainCommandEntry (c e k : Nat)
  /-- CHAIN_LOOP: A chain LOOP entry jumps back or falls through. (R300) -/
  | chainLoop (c e k : Nat)
  /-- CHAIN_COND: A chain COND entry reads a word and may skip entries. (R300) -/
  | chainCond (c e k : Nat)
  /-- CHAIN_END: A chain END entry ends the chain. (R300) -/
  | chainEnd (c e k : Nat)
  /-- FOLLOW_ON_MLDW: After the job's writes, an MLDW follow-on issues when the array is free. (R302) -/
  | followOnMldw (c e k : Nat)
  /-- FOLLOW_ON_MMA: After the job's writes, an MMA follow-on issues when the array is free. (R302) -/
  | followOnMma (c e k : Nat)
  /-- JOB_COMPLETE: A job completes: the token status is written and the scoreboard entry cleared. (R284) -/
  | jobComplete (c e k : Nat)
  /-- JOB_PAGE_FAULT: A job meets a page fault, stops at the page and is reported to the monitor. (R286) -/
  | jobPageFault (c e k : Nat)
  /-- ROUTINE_LOAD_START: A SETC of CPEn.RLOAD with GO starts loading a routine image into the inactive copy. (R308) -/
  | routineLoadStart (c e : Nat) (v : BitVec 64)
  /-- ROUTINE_LOAD_COMPLETE: A routine load completes and later XFORMs use the new copy. (R307) -/
  | routineLoadComplete (c e : Nat)
  /-- SCHEDULE_START: An accepted start block begins a schedule on an idle thread. (R312) -/
  | scheduleStart (die t : Nat)
  /-- TRANSFER_MATCH: Once both ends of a transfer have issued, lengths are compared and data moves. (R325) -/
  | transferMatch (die op : Nat)
  /-- OPERATION_MILESTONE: An asynchronous operation reaches read-done or completion and makes its counter addition. (R328) -/
  | operationMilestone (die op : Nat)
  /-- COUNTER_STEP: A counter addition fires the armed WAITs it satisfies in threshold order. (R331) -/
  | counterStep (die ctr val : Nat)
  /-- PACKET_ARRIVAL: A group packet arrives and is accepted, buffered early or discarded as stale. (R337) -/
  | packetArrival (die : Nat) (p : Packet)
  /-- REMOTE_ADD_ARRIVAL: A remote counter addition arrives and is applied. (R332) -/
  | remoteAddArrival (die : Nat)
  /-- TILE_FIRE_LANDED: A fire's data is applied at the peer and RCTR is raised. (R341) -/
  | tileFireLanded (die : Nat)
  /-- FAILURE_MARKER_ARRIVAL: A member's failure marker ends waiting threads of the group with PEER. (R344) -/
  | failureMarkerArrival (die : Nat)
  /-- CLE_KILL: A write of CLE.KILL kills the selected schedule threads. (R345) -/
  | cleKill (die : Nat) (v : BitVec 64)
  /-- FLIT_RECEIVE: A flit arrives and is accepted, discarded as duplicate, or discarded with a NAK. (R388) -/
  | flitReceive (port : Nat) (f : BitVec 320)
  /-- GO_BACK: On a NAK the transmitter resends every flit from ACK + 1. (R388) -/
  | goBack (port : Nat)
  /-- REPLAY_TIMEOUT: No ACK advance for 1 us makes the transmitter resend from ACK + 1. (R388) -/
  | replayTimeout (port : Nat)
  /-- LOSS_OF_LIGHT: A laser unit goes dark and flits on its wavelengths fail. (R390) -/
  | lossOfLight (unit : Nat)
  /-- LOSS_DETECTED: The photodiode reports the loss and the port enters RESTRIPE. (R390) -/
  | lossDetected (port : Nat)
  /-- RESTRIPE_ACK: The RESTRIPE-ACK arrives, the port is UP on the new mask, replays and posts a record. (R390) -/
  | restripeAck (port : Nat) (ack : BitVec 16)
  /-- RETRAIN_START: A retraining starts on command, on loss of lock or after the CRC threshold delay. (R391) -/
  | retrainStart (port : Nat)
  /-- RETRAIN_END: A retraining ends UP or DOWN, replaying flits and posting a record. (R391) -/
  | retrainEnd (port : Nat) (lock : BitVec 16)
  /-- LINK_CTL_RETRAIN: A write of LINK.CTL with RETRAIN 1 starts a retraining of the selected port. (R397) -/
  | linkCtlRetrain (port : Nat) (v : BitVec 64)
  /-- SLOT_BASE_WRITE: A write of SLOT.BASE stages a new slot table for the selected drawer port. (R397) -/
  | slotBaseWrite (port : Nat) (v : BitVec 64)
  /-- SLOT_TABLE_LOAD: At the next frame start the staged slot table is checked and loaded or refused. (R396) -/
  | slotTableLoad (port : Nat)
  /-- MEMORY_SLOT: Each 8 ns slot carries pieces of its class and group, then others. (R395) -/
  | memorySlot (port : Nat)
  /-- REMOTE_WRITE_PACKET: A remote write packet's flits are accepted and its units performed at the drawer. (R409) -/
  | remoteWritePacket (port : Nat)
  /-- REMOTE_WRITE_ACK: The acknowledgement of a remote write packet reaches the source engine. (R409) -/
  | remoteWriteAck (c e k n : Nat)
  /-- CIRCUIT_CONNECT: A circuit connection opens and its send queue sends first in first out. (R400) -/
  | circuitConnect (port dest cap : Nat)
  /-- QUEUE_TAIL_WRITE: The host writes a launch queue's TAIL, making entries available. (R402) -/
  | queueTailWrite (q : Nat) (v : BitVec 32)
  /-- HOST_WINDOW_ACCESS: A host access through BAR2 reaches drawer memory. (R402) -/
  | hostWindowAccess (off len : Nat) (wr : Option Nat)
  /-- SETQ: Mailbox command setting a queue's ring base, size and priority. (R403) -/
  | setq (q base size prio : Nat)
  /-- STARTQ: Mailbox command starting a queue. (R403) -/
  | startq (q : Nat)
  /-- STOPQ: Mailbox command stopping a queue at an entry boundary. (R403) -/
  | stopq (q : Nat)
  /-- STATUS: Mailbox command returning start state, counts and telemetry. (R403) -/
  | status
  /-- ATTEST: Mailbox command returning a signed attestation report for a nonce. (R407) -/
  | attest (nonce : BitVec 512)
  /-- LOADFW: Mailbox command staging a firmware image for the next cold start. (R403) -/
  | loadfw (image : BitVec 512) (valid : Bool)
  /-- RESET_WARM: Mailbox command starting a warm start. (R404) -/
  | resetWarm
  /-- RESET_COLD: Mailbox command starting a cold start. (R404) -/
  | resetCold
  /-- MAILBOX_BAD_COMMAND: An unknown or failing mailbox command is answered with status 0xFF. (R403) -/
  | mailboxBadCommand (code : Nat)
  /-- COLD_START: A cold start runs self-test, calibration, training, scrub and firmware check. (R404) -/
  | coldStart (secs : Nat) (ok : Bool)
  /-- WARM_START: A warm start runs with power held, skipping steps. (R404) -/
  | warmStart (secs : Nat) (ok moved : Bool)
  /-- START_FAILURE: A start fails a check or passes 60 s, leading to retries or recovery mode. (R405) -/
  | startFailure (warm : Bool)
  /-- TELEMETRY_SAMPLE: Every 1 ms rails and temperatures are sampled. (R408) -/
  | telemetrySample (rails : List (Nat × Nat)) (temps : List Nat)
  /-- POWER_CAP_EXCEEDED: Power over the cap for 10 ms makes the controller lower RAMP.STEP. (R408) -/
  | powerCapExceeded (lower : BitVec 16)
  /-- DIE_OVERTEMP: A die at 105 °C stops issue on every core and holds the module. (R408) -/
  | dieOvertemp (die : Nat)
  /-- EINJ_ARM: A write of EINJ.CTL arms an error injection on an array or unit. (R384) -/
  | einjArm (c : Nat) (v : BitVec 64)
  /-- ELOG_CNT_CLEAR: A write of ELOG.CNT clears both counts of the selected array. (R383) -/
  | elogCntClear (c : Nat)
  /-- RAMP_STEP_WRITE: A write of RAMP.STEP takes effect at the next window. (R225) -/
  | rampStepWrite (v : BitVec 64)
  /-- CONTROL_REGISTER_WRITE: A write to any control register without a row of its own. (R116) -/
  | controlRegisterWrite (c idx : Nat) (v : BitVec 64)
  /-- HEARTBEAT: Every 100 ms the management controller sends a heartbeat, whose ten successive misses declare a module fault. (R401) -/
  | heartbeat (answered : Bool)
  /-- MICROCORE_EXCEPTION: A routine instruction makes an out-of-table or misaligned access, writes the routine store, executes ECALL, EBREAK or an illegal instruction, or sets an illegal vector configuration, which ends the routine with exit code 0xFFFF. (R303) -/
  | microcoreException (c e : Nat)
  deriving DecidableEq, Repr

end Sys2Proof
end

