-- ==== Sys2Proof/WellFormed.lean ====
section
/-!
DEFINITION. Which instructions are well formed: every number fits the field of its encoding and the syllable stands in
a slot of its class (R43, R72, R74, R89, R317), an event names agents that exist (R2). A register number that fits its
field and names no register is well formed: its meaning raises 0x24 (R3).
-/

namespace Sys2Proof

/-- The header's numbers fit their fields, the slot is one of the class's, SBSET names an entry (R72, R89). -/
def Hdr.okIn (h : Hdr) (slots : List Nat) : Bool :=
  slots.contains h.slot && decide (h.stall < 16) && decide (h.wait < 64) && decide (h.sbset < 7) &&
  decide (h.reuse < 16) && decide (h.pnum < 8)

/-- A segment header's numbers fit their fields (R79). -/
def SegHdr.fits (o : SegHdr) : Bool :=
  decide (o.len < 256) && decide (o.live0 < 64) && decide (o.live1 < 64) && decide (o.live2 < 64) &&
  decide (o.live3 < 64) && decide (o.live4 < 64) && decide (o.live5 < 64) && decide (o.rdvg < 8)

/-- The numbers of a VEC syllable fit their fields (R74, R122). -/
def VecOps.fits (o : VecOps) : Bool :=
  decide (o.dst < 64) && decide (o.opa < 64) && decide (o.opb < 64) && decide (o.opc < 64) && decide (o.qm < 8) &&
  decide (o.ew < 8) && decide (o.rm < 8) && decide (o.cl < 4) && decide (o.tr < 16) && decide (o.sh < 64) &&
  decide (o.part < 8) && decide (o.dfmt < 16) && decide (o.smode < 4) && decide (o.sub < 16)

/-- An instruction is well formed. -/
def WellFormed : Instr → Bool
  | .add h d a b => h.okIn [0, 1] && decide (d < 64) && decide (a < 64) && decide (b < 64)
  | .sub h d a b => h.okIn [0, 1] && decide (d < 64) && decide (a < 64) && decide (b < 64)
  | .addi h d a _ => h.okIn [0, 1] && decide (d < 64) && decide (a < 64)
  | .mul h d a b => h.okIn [0, 1] && decide (d < 64) && decide (a < 64) && decide (b < 64)
  | .mulh h d a b => h.okIn [0, 1] && decide (d < 64) && decide (a < 64) && decide (b < 64)
  | .mulhu h d a b => h.okIn [0, 1] && decide (d < 64) && decide (a < 64) && decide (b < 64)
  | .div h d a b => h.okIn [0, 1] && decide (d < 64) && decide (a < 64) && decide (b < 64)
  | .divu h d a b => h.okIn [0, 1] && decide (d < 64) && decide (a < 64) && decide (b < 64)
  | .rem h d a b => h.okIn [0, 1] && decide (d < 64) && decide (a < 64) && decide (b < 64)
  | .remu h d a b => h.okIn [0, 1] && decide (d < 64) && decide (a < 64) && decide (b < 64)
  | .and_ h d a b => h.okIn [0, 1] && decide (d < 64) && decide (a < 64) && decide (b < 64)
  | .or_ h d a b => h.okIn [0, 1] && decide (d < 64) && decide (a < 64) && decide (b < 64)
  | .xor_ h d a b => h.okIn [0, 1] && decide (d < 64) && decide (a < 64) && decide (b < 64)
  | .andn h d a b => h.okIn [0, 1] && decide (d < 64) && decide (a < 64) && decide (b < 64)
  | .shl h d a b => h.okIn [0, 1] && decide (d < 64) && decide (a < 64) && decide (b < 64)
  | .shr h d a b => h.okIn [0, 1] && decide (d < 64) && decide (a < 64) && decide (b < 64)
  | .sra h d a b => h.okIn [0, 1] && decide (d < 64) && decide (a < 64) && decide (b < 64)
  | .rotr h d a b => h.okIn [0, 1] && decide (d < 64) && decide (a < 64) && decide (b < 64)
  | .clz h d a _ => h.okIn [0, 1] && decide (d < 64) && decide (a < 64)
  | .cls h d a _ => h.okIn [0, 1] && decide (d < 64) && decide (a < 64)
  | .ctz h d a _ => h.okIn [0, 1] && decide (d < 64) && decide (a < 64)
  | .popc h d a _ => h.okIn [0, 1] && decide (d < 64) && decide (a < 64)
  | .min_ h d a b => h.okIn [0, 1] && decide (d < 64) && decide (a < 64) && decide (b < 64)
  | .max_ h d a b => h.okIn [0, 1] && decide (d < 64) && decide (a < 64) && decide (b < 64)
  | .minu h d a b => h.okIn [0, 1] && decide (d < 64) && decide (a < 64) && decide (b < 64)
  | .maxu h d a b => h.okIn [0, 1] && decide (d < 64) && decide (a < 64) && decide (b < 64)
  | .sel h d a b c => h.okIn [0, 1] && decide (d < 64) && decide (a < 64) && decide (b < 64) && decide (c < 64)
  | .cmp h d a b cc => h.okIn [0, 1] && decide (d < 64) && decide (a < 64) && decide (b < 64) && decide (cc < 16)
  | .pand h d a b => h.okIn [0, 1] && decide (d < 64) && decide (a < 64) && decide (b < 64)
  | .por h d a b => h.okIn [0, 1] && decide (d < 64) && decide (a < 64) && decide (b < 64)
  | .pxor h d a b => h.okIn [0, 1] && decide (d < 64) && decide (a < 64) && decide (b < 64)
  | .pnot h d a => h.okIn [0, 1] && decide (d < 64) && decide (a < 64)
  | .movi h d _ => h.okIn [0, 1] && decide (d < 64)
  | .bfx h d a pos lenm1 _ => h.okIn [0, 1] && decide (d < 64) && decide (a < 64) && decide (pos < 64) && decide (lenm1 < 64)
  | .bfi h d a pos lenm1 => h.okIn [0, 1] && decide (d < 64) && decide (a < 64) && decide (pos < 64) && decide (lenm1 < 64)
  | .sext h d a k => h.okIn [0, 1] && decide (d < 64) && decide (a < 64) && decide (k < 64)
  | .zext h d a k => h.okIn [0, 1] && decide (d < 64) && decide (a < 64) && decide (k < 64)
  | .amov h d a dir => h.okIn [0, 1] && decide (d < 64) && decide (a < 64) && decide (dir < 4)
  | .aadd h d a b => h.okIn [0, 1] && decide (d < 64) && decide (a < 64) && decide (b < 64)
  | .aaddi h d a _ => h.okIn [0, 1] && decide (d < 64) && decide (a < 64)
  | .awrap h d a step bound => h.okIn [0, 1] && decide (d < 64) && decide (a < 64) && decide (step < 16777216) && decide (bound < 16777216)
  | .aidx h d a _ => h.okIn [0, 1] && decide (d < 64) && decide (a < 64)
  | .widf h d k => h.okIn [0, 1] && decide (d < 64) && decide (k < 8)
  | .segh h o => h.okIn [0] && o.fits
  | .nop h  => h.okIn [0]
  | .br h _ => h.okIn [0]
  | .brc h a b cc _ => h.okIn [0] && decide (a < 64) && decide (b < 64) && decide (cc < 16)
  | .call h d _ => h.okIn [0] && decide (d < 64)
  | .ret h a => h.okIn [0] && decide (a < 64)
  | .loopn h d _ => h.okIn [0] && decide (d < 64)
  | .yield h  => h.okIn [0]
  | .end_ h  => h.okIn [0]
  | .trap h _ => h.okIn [0]
  | .eret h  => h.okIn [0]
  | .rdv h  => h.okIn [0]
  | .phase h scope _ => h.okIn [0] && decide (scope < 16)
  | .getc h d idx => h.okIn [0] && decide (d < 64) && decide (idx < 4096)
  | .setc h a idx => h.okIn [0] && decide (a < 64) && decide (idx < 4096)
  | .getcx h d a => h.okIn [0] && decide (d < 64) && decide (a < 64)
  | .slabq h d sel => h.okIn [0] && decide (d < 64) && decide (sel < 4)
  | .muinv h a mode => h.okIn [0] && decide (a < 64) && decide (mode < 4)
  | .seed h a _ => h.okIn [0] && decide (a < 64)
  | .rampq h d => h.okIn [0] && decide (d < 64)
  | .vadd h o => h.okIn [2, 3, 4] && o.fits
  | .vsub h o => h.okIn [2, 3, 4] && o.fits
  | .vadds h o => h.okIn [2, 3, 4] && o.fits
  | .vsubs h o => h.okIn [2, 3, 4] && o.fits
  | .vmul h o => h.okIn [2, 3, 4] && o.fits
  | .vmulh h o => h.okIn [2, 3, 4] && o.fits
  | .vmuls h o => h.okIn [2, 3, 4] && o.fits
  | .vmac h o => h.okIn [2, 3, 4] && o.fits
  | .vdot4 h o => h.okIn [2, 3, 4] && o.fits
  | .vand h o => h.okIn [2, 3, 4] && o.fits
  | .vor h o => h.okIn [2, 3, 4] && o.fits
  | .vxor h o => h.okIn [2, 3, 4] && o.fits
  | .vandn h o => h.okIn [2, 3, 4] && o.fits
  | .vshl h o => h.okIn [2, 3, 4] && o.fits
  | .vshr h o => h.okIn [2, 3, 4] && o.fits
  | .vsra h o => h.okIn [2, 3, 4] && o.fits
  | .vshrd h o => h.okIn [2, 3, 4] && o.fits
  | .vshrdCensus h o => h.okIn [2, 3, 4] && o.fits
  | .vmin h o => h.okIn [2, 3, 4] && o.fits
  | .vmax h o => h.okIn [2, 3, 4] && o.fits
  | .vabs h o => h.okIn [2, 3, 4] && o.fits
  | .vneg h o => h.okIn [2, 3, 4] && o.fits
  | .vcmp h o => h.okIn [2, 3, 4] && o.fits
  | .vsel h o => h.okIn [2, 3, 4] && o.fits
  | .vclz h o => h.okIn [2, 3, 4] && o.fits
  | .vcls h o => h.okIn [2, 3, 4] && o.fits
  | .vpopc h o => h.okIn [2, 3, 4] && o.fits
  | .vcnv h o => h.okIn [2, 3, 4] && o.fits
  | .vpack h o => h.okIn [2, 3, 4] && o.fits
  | .vunpk h o => h.okIn [2, 3, 4] && o.fits
  | .vperm h o => h.okIn [2, 3, 4] && o.fits
  | .vbcst h o => h.okIn [2, 3, 4] && o.fits
  | .vslide h o => h.okIn [2, 3, 4] && o.fits
  | .vredadd h o => h.okIn [2, 3, 4] && o.fits
  | .vredmax h o => h.okIn [2, 3, 4] && o.fits
  | .vredmin h o => h.okIn [2, 3, 4] && o.fits
  | .vscan h o => h.okIn [2, 3, 4] && o.fits
  | .vmov h o => h.okIn [2, 3, 4] && o.fits
  | .vins h o => h.okIn [2, 3, 4] && o.fits
  | .vext h o => h.okIn [2, 3, 4] && o.fits
  | .viota h o => h.okIn [2, 3, 4] && o.fits
  | .qand h o => h.okIn [2, 3, 4] && o.fits
  | .qor h o => h.okIn [2, 3, 4] && o.fits
  | .qxor h o => h.okIn [2, 3, 4] && o.fits
  | .qnot h o => h.okIn [2, 3, 4] && o.fits
  | .qpopc h o => h.okIn [2, 3, 4] && o.fits
  | .qset h o => h.okIn [2, 3, 4] && o.fits
  | .xexp2 h o => h.okIn [5] && o.fits
  | .xrcp h o => h.okIn [5] && o.fits
  | .xrsq h o => h.okIn [5] && o.fits
  | .xlog2 h o => h.okIn [5] && o.fits
  | .xsigm h o => h.okIn [5] && o.fits
  | .xtanh h o => h.okIn [5] && o.fits
  | .xlut h o => h.okIn [5] && o.fits
  | .xlutComplete c b _ => decide (c < coreCount) && decide (b < 2)
  | .xlutld h base _ => h.okIn [5] && decide (base < 16)
  | .xlutTableActivate c b => decide (c < coreCount) && decide (b < 2)
  | .xoptm h o => h.okIn [5] && o.fits
  | .xopta h o => h.okIn [5] && o.fits
  | .lds h d base _ size _ => h.okIn [6] && decide (d < 64) && decide (base < 16) && decide (size < 4)
  | .sts h r base _ size => h.okIn [6] && decide (r < 64) && decide (base < 16) && decide (size < 4)
  | .ldv h d base _ opb opc ew _ _ _ => h.okIn [6] && decide (d < 64) && decide (base < 16) && decide (opb < 64) && decide (opc < 64) && decide (ew < 8)
  | .stv h r base _ opb opc ew _ _ => h.okIn [6] && decide (r < 64) && decide (base < 16) && decide (opb < 64) && decide (opc < 64) && decide (ew < 8)
  | .ldvg h d base _ opb opc ew _ _ _ => h.okIn [6] && decide (d < 64) && decide (base < 16) && decide (opb < 64) && decide (opc < 64) && decide (ew < 8)
  | .stvs h r base _ opb opc ew _ _ => h.okIn [6] && decide (r < 64) && decide (base < 16) && decide (opb < 64) && decide (opc < 64) && decide (ew < 8)
  | .ldvp h d port => h.okIn [6] && decide (d < 64) && decide (port < 2)
  | .ldg h d base _ size _ _ => h.okIn [6] && decide (d < 64) && decide (base < 16) && decide (size < 4)
  | .ldgComplete c b _ => decide (c < coreCount) && decide (b < 2)
  | .stg h r base _ size _ => h.okIn [6] && decide (r < 64) && decide (base < 16) && decide (size < 4)
  | .amo h d base _ opb opc op _ _ => h.okIn [6] && decide (d < 64) && decide (base < 16) && decide (opb < 64) && decide (opc < 64) && decide (op < 16)
  | .amoComplete c b _ => decide (c < coreCount) && decide (b < 2)
  | .tld h d base _ _ => h.okIn [6] && decide (d < 64) && decide (base < 16)
  | .tldGlobalArrival c b _ => decide (c < coreCount) && decide (b < 2)
  | .tst h r base _ => h.okIn [6] && decide (r < 64) && decide (base < 16)
  | .park h r _ => h.okIn [6] && decide (r < 64)
  | .unpark h r => h.okIn [6] && decide (r < 64)
  | .rmap h n base _ va len mode => h.okIn [6] && decide (n < 64) && decide (base < 16) && decide (va < 64) && decide (len < 64) && decide (mode < 4)
  | .runmap h n => h.okIn [6] && decide (n < 64)
  | .rfill h n base _ len => h.okIn [6] && decide (n < 64) && decide (base < 16) && decide (len < 64)
  | .rflush h n base _ len => h.okIn [6] && decide (n < 64) && decide (base < 16) && decide (len < 64)
  | .rinv h n base _ len => h.okIn [6] && decide (n < 64) && decide (base < 16) && decide (len < 64)
  | .push h d a opd eng => h.okIn [7] && decide (d < 64) && decide (a < 64) && decide (opd < 64) && decide (eng < 16)
  | .pushq h d a opd eng => h.okIn [7] && decide (d < 64) && decide (a < 64) && decide (opd < 64) && decide (eng < 16)
  | .mldw h a => h.okIn [7] && decide (a < 64)
  | .mswap h  => h.okIn [7]
  | .mma h d idx tr _ _ base disp cnt => h.okIn [7] && decide (d < 64) && decide (idx < 128) && decide (tr < 16) && decide (base < 16) && decide (disp < 8388608) && decide (cnt < 256)
  | .mmav h d a idx tr _ _ cnt => h.okIn [7] && decide (d < 64) && decide (a < 64) && decide (idx < 128) && decide (tr < 16) && decide (cnt < 256)
  | .mzero h d => h.okIn [7] && decide (d < 64)
  | .cshd h a b idx tr base disp cnt => h.okIn [7] && decide (a < 64) && decide (b < 64) && decide (idx < 128) && decide (tr < 16) && decide (base < 16) && decide (disp < 8388608) && decide (cnt < 256)
  | .cadd h d a b => h.okIn [7] && decide (d < 64) && decide (a < 64) && decide (b < 64)
  | .crdv h d a dir idx => h.okIn [7] && decide (d < 64) && decide (a < 64) && decide (dir < 4) && decide (idx < 128)
  | .cwrv h d a dir idx _ => h.okIn [7] && decide (d < 64) && decide (a < 64) && decide (dir < 4) && decide (idx < 128)
  | .mld h d b tr base disp => h.okIn [7] && decide (d < 64) && decide (b < 64) && decide (tr < 16) && decide (base < 16) && decide (disp < 8388608)
  | .mst h a b base disp => h.okIn [7] && decide (a < 64) && decide (b < 64) && decide (base < 16) && decide (disp < 8388608)
  | .mldf h d b tr _ base disp cnt => h.okIn [7] && decide (d < 64) && decide (b < 64) && decide (tr < 16) && decide (base < 16) && decide (disp < 8388608) && decide (cnt < 256)
  | .mstf h a base disp => h.okIn [7] && decide (a < 64) && decide (base < 16) && decide (disp < 8388608)
  | .mlru h d a b _ cnt eg eh => h.okIn [7] && decide (d < 64) && decide (a < 64) && decide (b < 64) && decide (cnt < 256) && decide (eg < 256) && decide (eh < 256)
  | .mlradd h d a b _ => h.okIn [7] && decide (d < 64) && decide (a < 64) && decide (b < 64)
  | .mlrmul h d a tr sh rm _ => h.okIn [7] && decide (d < 64) && decide (a < 64) && decide (tr < 16) && decide (sh < 64) && decide (rm < 8)
  | .mrecomp h d a => h.okIn [7] && decide (d < 64) && decide (a < 64)
  | .mrecompComplete c b _ => decide (c < coreCount) && decide (b < 2)
  | .mdense h d a => h.okIn [7] && decide (d < 64) && decide (a < 64)
  | .mqry h d a idx _ => h.okIn [7] && decide (d < 64) && decide (a < 64) && decide (idx < 128)
  | .mfree h d _ => h.okIn [7] && decide (d < 64)
  | .mget h d a dir idx tr sh rm _ => h.okIn [7] && decide (d < 64) && decide (a < 64) && decide (dir < 4) && decide (idx < 128) && decide (tr < 16) && decide (sh < 64) && decide (rm < 8)
  | .mput h d a dir idx => h.okIn [7] && decide (d < 64) && decide (a < 64) && decide (dir < 4) && decide (idx < 128)
  | .resultWrite c b => decide (c < coreCount) && decide (b < 2)
  | .segmentCommit c b => decide (c < coreCount) && decide (b < 2)
  | .segmentFetch c b _ => decide (c < coreCount) && decide (b < 2)
  | .addressStreamRun c b => decide (c < coreCount) && decide (b < 2)
  | .trapEntry c b => decide (c < coreCount) && decide (b < 2)
  | .latchDelivery c b => decide (c < coreCount) && decide (b < 2)
  | .segmentRewind c b _ => decide (c < coreCount) && decide (b < 2)
  | .localReplay c b _ => decide (c < coreCount) && decide (b < 2)
  | .bankSwitch c b => decide (c < coreCount) && decide (b < 2)
  | .fltAnsRetry die _ => decide (die < 8)
  | .fltAnsEnd die _ => decide (die < 8)
  | .preemption c => decide (c < coreCount)
  | .contextResume c _ => decide (c < coreCount)
  | .lazyWriteout c _ _ _ => decide (c < coreCount)
  | .blockedBankSave c => decide (c < coreCount)
  | .timeSliceEnd c => decide (c < coreCount)
  | .priorityAging c b => decide (c < coreCount) && decide (b < 2)
  | .watchdog c b => decide (c < coreCount) && decide (b < 2)
  | .rendezvousTimeout c b => decide (c < coreCount) && decide (b < 2)
  | .chainTimeout c b => decide (c < coreCount) && decide (b < 2)
  | .phaseComplete _ _ _ _ => true
  | .rampWindow => true
  | .taskAdmit c => decide (c < coreCount)
  | .ramblerPlace _ => true
  | .ramblerLaunchAccept _ => true
  | .launchComplete _ => true
  | .feLaunch q => decide (q < 16)
  | .feSched q => decide (q < 16)
  | .feWaitev q => decide (q < 16)
  | .feSigev q => decide (q < 16)
  | .haltqDrain q => decide (q < 16)
  | .haltqKill q => decide (q < 16)
  | .feBadEntry q => decide (q < 16)
  | .fillLands c b _ _ => decide (c < coreCount) && decide (b < 2)
  | .writebackAck c b _ => decide (c < coreCount) && decide (b < 2)
  | .directAccessPerform c b => decide (c < coreCount) && decide (b < 2)
  | .coreWindowAccess c _ _ _ => decide (c < coreCount)
  | .sweepStep => true
  | .migTailWrite _ => true
  | .migrationMoveStart => true
  | .migrationBadCommand => true
  | .migrationDrainDone _ => true
  | .migrationCommit _ => true
  | .migrationLost _ => true
  | .migrationFail _ => true
  | .scrubPass _ => true
  | .copyJob c e _ => decide (c < coreCount) && decide (e < 2)
  | .convertJob c e _ => decide (c < coreCount) && decide (e < 2)
  | .gatherJob c e _ => decide (c < coreCount) && decide (e < 2)
  | .scatterJob c e _ => decide (c < coreCount) && decide (e < 2)
  | .fillJob c e _ => decide (c < coreCount) && decide (e < 2)
  | .decodeJob c e _ => decide (c < coreCount) && decide (e < 2)
  | .decodeBlockDeliver c e => decide (c < coreCount) && decide (e < 2)
  | .xformJob c e _ => decide (c < coreCount) && decide (e < 2)
  | .xfIneedWrite c e _ => decide (c < coreCount) && decide (e < 2)
  | .xfIfreeWrite c e _ => decide (c < coreCount) && decide (e < 2)
  | .xfOmarkWrite c e _ => decide (c < coreCount) && decide (e < 2)
  | .xfDoneWrite c e _ => decide (c < coreCount) && decide (e < 2)
  | .xformTimeout c e => decide (c < coreCount) && decide (e < 2)
  | .chainJob c e _ => decide (c < coreCount) && decide (e < 2)
  | .chainCommandEntry c e _ => decide (c < coreCount) && decide (e < 2)
  | .chainLoop c e _ => decide (c < coreCount) && decide (e < 2)
  | .chainCond c e _ => decide (c < coreCount) && decide (e < 2)
  | .chainEnd c e _ => decide (c < coreCount) && decide (e < 2)
  | .followOnMldw c e _ => decide (c < coreCount) && decide (e < 2)
  | .followOnMma c e _ => decide (c < coreCount) && decide (e < 2)
  | .jobComplete c e _ => decide (c < coreCount) && decide (e < 2)
  | .jobPageFault c e _ => decide (c < coreCount) && decide (e < 2)
  | .routineLoadStart c e _ => decide (c < coreCount) && decide (e < 2)
  | .routineLoadComplete c e => decide (c < coreCount) && decide (e < 2)
  | .scheduleStart die t => decide (die < 8) && decide (t < 8)
  | .send ka gs peer ctr _ => decide (ka < 16) && decide (gs < 64) && decide (peer < 256) && decide (ctr < 256)
  | .recv ka gs peer ctr _ => decide (ka < 16) && decide (gs < 64) && decide (peer < 256) && decide (ctr < 256)
  | .recvr ka gs peer ctr _ rop rfmt _ clamp => decide (ka < 16) && decide (gs < 64) && decide (peer < 256) && decide (ctr < 256) && decide (rop < 3) && decide (rfmt < 3) && decide (clamp < 65536)
  | .lystilCopy ka kb ctr _ => decide (ka < 16) && decide (kb < 16) && decide (ctr < 256)
  | .red ka kb ctr _ rop rfmt _ clamp => decide (ka < 16) && decide (kb < 16) && decide (ctr < 256) && decide (rop < 3) && decide (rfmt < 3) && decide (clamp < 65536)
  | .lystilWait ctr thr => decide (ctr < 256) && decide (thr < 4294967296)
  | .sigAdd ctr val => decide (ctr < 256) && decide (val < 4294967296)
  | .sigRadd gs peer ctr val => decide (gs < 64) && decide (peer < 256) && decide (ctr < 256) && decide (val < 4294967296)
  | .sigSrc => true
  | .sigLoc => true
  | .sigAll gs => decide (gs < 64)
  | .sigSet ctr val => decide (ctr < 256) && decide (val < 4294967296)
  | .twait tile => decide (tile < 4096)
  | .tfire tile => decide (tile < 4096)
  | .setkAddr k _ => decide (k < 16)
  | .setkAddrAdd k _ => decide (k < 16)
  | .setkAddrArg k _ => decide (k < 16)
  | .setkRlen k _ => decide (k < 16)
  | .setkNrow k _ => decide (k < 16)
  | .setkRstr k _ => decide (k < 16)
  | .lystilLoop ln count => decide (ln < 4) && decide (count < 4294967296)
  | .bnz ln _ => decide (ln < 4)
  | .gjoin gs k inc gid => decide (gs < 64) && decide (k < 16) && decide (inc < 256) && decide (gid < 65536)
  | .gfree gs => decide (gs < 64)
  | .lystilEnd => true
  | .lystilBadop _ => true
  | .transferMatch die _ => decide (die < 8)
  | .operationMilestone die _ => decide (die < 8)
  | .counterStep die _ _ => decide (die < 8)
  | .packetArrival die _ => decide (die < 8)
  | .remoteAddArrival die => decide (die < 8)
  | .tileFireLanded die => decide (die < 8)
  | .failureMarkerArrival die => decide (die < 8)
  | .cleKill die _ => decide (die < 8)
  | .flitReceive port _ => decide (port < 32)
  | .goBack port => decide (port < 32)
  | .replayTimeout port => decide (port < 32)
  | .lossOfLight unit => decide (unit < 16)
  | .lossDetected port => decide (port < 32)
  | .restripeAck port _ => decide (port < 32)
  | .retrainStart port => decide (port < 32)
  | .retrainEnd port _ => decide (port < 32)
  | .linkCtlRetrain port _ => decide (port < 32)
  | .slotBaseWrite port _ => decide (port < 32)
  | .slotTableLoad port => decide (port < 32)
  | .memorySlot port => decide (port < 32)
  | .remoteWritePacket port => decide (port < 32)
  | .remoteWriteAck c e _ _ => decide (c < coreCount) && decide (e < 3)
  | .circuitConnect port _ _ => decide (port < 32)
  | .queueTailWrite q _ => decide (q < 16)
  | .hostWindowAccess _ _ _ => true
  | .setq q _ _ _ => decide (q < 16)
  | .startq q => decide (q < 16)
  | .stopq q => decide (q < 16)
  | .status => true
  | .attest _ => true
  | .loadfw _ _ => true
  | .resetWarm => true
  | .resetCold => true
  | .mailboxBadCommand _ => true
  | .coldStart _ _ => true
  | .warmStart _ _ _ => true
  | .startFailure _ => true
  | .telemetrySample _ _ => true
  | .powerCapExceeded _ => true
  | .dieOvertemp die => decide (die < 9)
  | .einjArm c _ => decide (c < coreCount)
  | .elogCntClear c => decide (c < coreCount)
  | .rampStepWrite _ => true
  | .controlRegisterWrite c _ _ => decide (c < coreCount)
  | .heartbeat _ => true
  | .microcoreException c e => decide (c < coreCount) && decide (e < 2)

end Sys2Proof
end

