-- ==== Sys2Proof/Decode.lean ====
section
/-!
DEFINITION. The decoder and the encoder of Waivavel syllables (128 bits, R72 to R90) and Lystil words
(64 bits, R316 to R319), over one list of field widths per format. Decoding is total: a word without meaning
is rejected by the decode trap the spec names for it, 0x01 before 0x02 (R7, R89); an illegal Lystil word
decodes to `lystilBadop`, which ends its thread (R319).
-/

namespace Sys2Proof

/-! ### Fields -/

/-- The fields of `n`, least significant first, at the widths of the list. -/
def unpackFields : List Nat → Nat → List Nat
  | [], _ => []
  | w :: ws, n => n % 2 ^ w :: unpackFields ws (n / 2 ^ w)

/-- The number that holds the fields of the list, least significant first. -/
def packFields : List Nat → List Nat → Nat
  | w :: ws, f :: fs => f % 2 ^ w + 2 ^ w * packFields ws fs
  | _, _ => 0

/-- Every field fits its width, and there is one for each width. -/
def fieldsFit : List Nat → List Nat → Bool
  | [], [] => true
  | w :: ws, f :: fs => decide (f < 2 ^ w) && fieldsFit ws fs
  | _, _ => false

/-- The bit of a Bool field. -/
def bit (b : Bool) : Nat := if b then 1 else 0

/-- The eight operand formats of R74, and the segment header's layout (R79). -/
inductive Fmt where
  | rrr | rri | ri | mem | vec | mat | br | sys | segh
  deriving DecidableEq, Repr

/-- The widths of a format's fields, from bit 0 up; each list covers bits 0 to 93 (R74, R79, R122, R169). -/
def Fmt.widths : Fmt → List Nat
  | .rrr  => [48, 16, 6, 6, 6, 6, 6]
  | .rri  => [48, 16, 18, 6, 6]
  | .ri   => [64, 16, 8, 6]
  | .mem  => [48, 8, 16, 6, 6, 4, 6]
  | .vec  => [32, 4, 1, 1, 2, 4, 3, 1, 1, 6, 4, 2, 3, 3, 3, 6, 6, 6, 6]
  | .mat  => [23, 8, 4, 4, 6, 3, 1, 1, 1, 4, 7, 2, 2, 2, 2, 6, 6, 6, 6]
  | .br   => [48, 16, 8, 4, 6, 6, 6]
  | .sys  => [32, 22, 16, 12, 6, 6]
  | .segh => [2, 1, 3, 6, 6, 6, 6, 6, 6, 22, 22, 8]

/-- The widths of bits 94 to 127: OP, PNUM, PNEG, REUSE, SBSET, WAIT, STALL, AS, E, SLOT (R72). -/
def topWidths : List Nat := [8, 3, 1, 4, 3, 6, 4, 1, 1, 3]

/-- The values of bits 94 to 127. -/
def topFields (op : Nat) (h : Hdr) : List Nat :=
  [op, h.pnum, bit h.pneg, h.reuse, h.sbset, h.wait, h.stall, bit h.asMark, bit h.e, h.slot]

/-- The header of the values of bits 94 to 127. -/
def topHdr : List Nat → Hdr
  | [_, pn, pg, ru, sb, wt, st, am, e, sl] =>
    { slot := sl, e := e == 1, asMark := am == 1, stall := st, wait := wt, sbset := sb, reuse := ru,
      pneg := pg == 1, pnum := pn }
  | _ => {}

/-! ### The VEC format and its reserved fields (R122) -/

/-- What a vector or special-function entry uses of the VEC format; what it does not list is reserved. -/
inductive VecField where
  | dst | opa | opb | opc | qm | ew | zi
  /-- SUB[0], SUB[1], or the condition code in SUB -/
  | u | ub | cc
  /-- I, whose immediate replaces OPB, OPA or OPC -/
  | imm | immA | immC
  /-- IMM32 whatever I is, its low 16 or 21 bits only -/
  | immAlways | imm16 | imm21
  | w | part | partW | dfmt | cl | clNarrow | sh | rm
  deriving DecidableEq, Repr

/-- The 19 fields of the VEC format, from bit 0 up. -/
def vecFields (o : VecOps) : List Nat :=
  [o.imm.toNat, o.sub, bit o.w, bit o.i, o.smode, o.dfmt, o.part, bit o.rr, bit o.zi, o.sh, o.tr, o.cl, o.rm,
   o.ew, o.qm, o.opc, o.opb, o.opa, o.dst]

/-- The operands of the 19 fields. -/
def vecOps : List Nat → VecOps
  | [imm, sub, w, i, smode, dfmt, part, rr, zi, sh, tr, cl, rm, ew, qm, opc, opb, opa, dst] =>
    { dst := dst, opa := opa, opb := opb, opc := opc, qm := qm, ew := ew, rm := rm, cl := cl, tr := tr, sh := sh,
      zi := zi == 1, rr := rr == 1, part := part, dfmt := dfmt, smode := smode, i := i == 1, w := w == 1,
      sub := sub, imm := BitVec.ofNat 32 imm }
  | _ => {}

/-- The lane width that a DFMT code of VSHRD and VCNV names: codes 0x0 to 0x5 and 0x7 (R128, R132). -/
def dfmtBits : Nat → Option Nat
  | 0 => some 4 | 1 => some 4 | 2 => some 8 | 3 => some 8 | 4 => some 16 | 5 => some 16 | 7 => some 32
  | _ => none

/-- VCNV to a wider destination, where CL is reserved (R134). -/
def vcnvWidens (o : VecOps) : Bool :=
  match dfmtBits o.dfmt with
  | some wd => decide (4 * 2 ^ o.ew < wd)
  | none => false

/-- The reserved fields of a VEC syllable hold zero (R122, R75: RR = 1 needs RM = 0). -/
def vecReservedOk (uses : List VecField) (o : VecOps) : Bool :=
  let has (f : VecField) : Bool := uses.contains f
  let hasI := has .imm || has .immA || has .immC
  let usesTr := ((has .cl || has .clNarrow) && o.cl == 2) || (has .rm && o.rr)
  (has .dst || o.dst == 0) &&
  ((has .opa && !(has .immA && o.i)) || o.opa == 0) &&
  ((has .opb && !(has .imm && o.i)) || o.opb == 0) &&
  ((has .opc && !(has .immC && o.i)) || o.opc == 0) &&
  (has .qm || o.qm == 0) && (has .ew || o.ew == 0) && (has .zi || !o.zi) &&
  (if has .cc then true else if has .ub then decide (o.sub < 4) else if has .u then decide (o.sub < 2) else o.sub == 0) &&
  (hasI || !o.i) &&
  ((hasI && o.i) || has .immAlways || o.imm == 0) &&
  (!has .imm16 || has .imm21 || decide (o.imm.toNat < 2 ^ 16)) &&
  (!has .imm21 || decide (o.imm.toNat < 2 ^ 21)) &&
  (has .w || !o.w) &&
  (has .part || (has .partW && o.w) || o.part == 0) &&
  (has .dfmt || o.dfmt == 0) && (o.smode == 0) &&
  (has .cl || (has .clNarrow && !vcnvWidens o) || o.cl == 0) &&
  (has .sh || o.sh == 0) &&
  (has .rm || (o.rm == 0 && !o.rr)) && (!o.rr || o.rm == 0) &&
  (usesTr || o.tr == 0)

/-- The reserved fields of VSHRD in SMODE 0, 1 and 3 (R122, R132). -/
def vshrdReservedOk (o : VecOps) : Bool :=
  o.opc == 0 && decide (o.sub < 2) && !o.i && !o.w && o.imm == 0 &&
  (o.smode == 0 || o.sh == 0) && (o.smode == 1 || o.opb == 0) &&
  (!o.rr || o.rm == 0) && (o.cl == 2 || o.rr || o.tr == 0)

/-- The reserved fields of VSHRD in SMODE 2 (R133). -/
def vshrdCensusReservedOk (o : VecOps) : Bool :=
  o.opb == 0 && o.opc == 0 && o.sub == 0 && !o.i && !o.w && decide (o.imm.toNat < 256) &&
  o.dfmt == 0 && o.sh == 0 && o.rm == 0 && !o.rr && o.cl == 0

/-- What a vector opcode builds and what it uses of VEC. -/
abbrev VecRow := Nat × (Hdr → VecOps → Instr) × List VecField

def vecTable60 : List VecRow :=
  [(0x60, .vadd, [.dst, .opa, .qm, .ew, .zi, .opb, .u, .imm, .w, .partW, .cl]),
   (0x61, .vsub, [.dst, .opa, .qm, .ew, .zi, .opb, .u, .imm, .w, .partW, .cl]),
   (0x62, .vadds, [.dst, .opa, .qm, .ew, .zi, .opb, .u, .imm, .cl]),
   (0x63, .vsubs, [.dst, .opa, .qm, .ew, .zi, .opb, .u, .imm, .cl]),
   (0x64, .vmul, [.dst, .opa, .qm, .ew, .zi, .opb, .u, .imm, .w, .partW, .cl]),
   (0x65, .vmulh, [.dst, .opa, .qm, .ew, .zi, .opb, .u, .imm]),
   (0x66, .vmuls, [.dst, .opa, .qm, .ew, .zi, .opb, .u, .imm, .sh, .rm, .cl]),
   (0x67, .vmac, [.dst, .opa, .qm, .ew, .zi, .opb, .u, .imm, .w, .partW, .cl]),
   (0x68, .vdot4, [.dst, .opa, .qm, .ew, .zi, .opb, .u, .ub, .cl]),
   (0x69, .vand, [.dst, .opa, .qm, .ew, .zi, .opb, .imm]),
   (0x6a, .vor, [.dst, .opa, .qm, .ew, .zi, .opb, .imm]),
   (0x6b, .vxor, [.dst, .opa, .qm, .ew, .zi, .opb, .imm]),
   (0x6c, .vandn, [.dst, .opa, .qm, .ew, .zi, .opb, .imm]),
   (0x6d, .vshl, [.dst, .opa, .qm, .ew, .zi, .opb, .u, .imm, .cl]),
   (0x6e, .vshr, [.dst, .opa, .qm, .ew, .zi, .opb, .imm]),
   (0x6f, .vsra, [.dst, .opa, .qm, .ew, .zi, .opb, .imm])]

def vecTable70 : List VecRow :=
  [(0x71, .vmin, [.dst, .opa, .qm, .ew, .zi, .opb, .u, .imm]),
   (0x72, .vmax, [.dst, .opa, .qm, .ew, .zi, .opb, .u, .imm]),
   (0x73, .vabs, [.dst, .opa, .qm, .ew, .zi, .cl]),
   (0x74, .vneg, [.dst, .opa, .qm, .ew, .zi, .cl]),
   (0x75, .vcmp, [.dst, .opa, .qm, .ew, .zi, .opb, .cc, .imm]),
   (0x76, .vsel, [.dst, .opa, .qm, .ew, .zi, .opb, .opc]),
   (0x77, .vclz, [.dst, .opa, .qm, .ew, .zi]),
   (0x78, .vcls, [.dst, .opa, .qm, .ew, .zi]),
   (0x79, .vpopc, [.dst, .opa, .qm, .ew, .zi]),
   (0x7a, .vcnv, [.dst, .opa, .qm, .ew, .zi, .dfmt, .part, .u, .clNarrow]),
   (0x7b, .vpack, [.dst, .opa, .qm, .ew, .zi, .opb, .u, .cl]),
   (0x7c, .vunpk, [.dst, .opa, .qm, .ew, .zi, .part, .u]),
   (0x7d, .vperm, [.dst, .opa, .qm, .ew, .zi, .opb]),
   (0x7e, .vbcst, [.dst, .opa, .qm, .ew, .zi, .immA]),
   (0x7f, .vslide, [.dst, .opa, .qm, .ew, .zi, .opb, .opc, .immC])]

/-- OP 0x80 to 0x8F (R74). DEDUCED, log 105: VSCAN has the U bit (R136). -/
def vecTable80 : List VecRow :=
  [(0x80, .vredadd, [.dst, .opa, .qm, .ew, .u, .w, .cl]),
   (0x81, .vredmax, [.dst, .opa, .qm, .ew, .u, .w]),
   (0x82, .vredmin, [.dst, .opa, .qm, .ew, .u, .w]),
   (0x83, .vscan, [.dst, .opa, .qm, .ew, .zi, .u, .cl]),
   (0x84, .vmov, [.dst, .opa, .qm, .ew, .zi]),
   (0x85, .vins, [.dst, .opa, .opb, .ew, .imm]),
   (0x86, .vext, [.dst, .opa, .opb, .ew, .u, .imm]),
   (0x87, .viota, [.dst, .opa, .qm, .ew, .zi]),
   (0x88, .qand, [.dst, .opa, .opb]),
   (0x89, .qor, [.dst, .opa, .opb]),
   (0x8a, .qxor, [.dst, .opa, .opb]),
   (0x8b, .qnot, [.dst, .opa]),
   (0x8c, .qpopc, [.dst, .opa, .ew]),
   (0x8d, .qset, [.dst, .opa, .ew, .immA])]

def vecTableA0 : List VecRow :=
  [(0xa0, .xexp2, [.dst, .opa, .qm, .ew, .zi, .opb, .opc, .immC, .imm16]),
   (0xa1, .xrcp, [.dst, .opa, .qm, .ew, .zi]),
   (0xa2, .xrsq, [.dst, .opa, .qm, .ew, .zi]),
   (0xa3, .xlog2, [.dst, .opa, .qm, .ew, .zi]),
   (0xa4, .xsigm, [.dst, .opa, .qm, .ew, .zi, .opc, .immC, .imm16]),
   (0xa5, .xtanh, [.dst, .opa, .qm, .ew, .zi, .opc, .immC, .imm16]),
   (0xa6, .xlut, [.dst, .opa, .qm, .ew, .zi]),
   (0xa8, .xoptm, [.dst, .opa, .qm, .ew, .zi, .opb, .opc, .sh, .rm, .cl, .immAlways, .imm16]),
   (0xa9, .xopta, [.dst, .opa, .qm, .ew, .zi, .opb, .opc, .sh, .rm, .cl, .immAlways, .imm21])]

/-- Every opcode of the VEC format but VSHRD. -/
def vecTable : List VecRow := vecTable60 ++ vecTable70 ++ vecTable80 ++ vecTableA0

/-- A VEC syllable: VSHRD by its SMODE, every other opcode by its row. -/
def buildVec (op : Nat) (h : Hdr) (f : List Nat) : Option Instr :=
  let o := vecOps f
  if op = 0x70 then
    if o.smode = 2 then (if vshrdCensusReservedOk o then some (.vshrdCensus h o) else none)
    else if vshrdReservedOk o then some (.vshrd h o) else none
  else
    match vecTable.lookup op with
    | some (c, uses) => if vecReservedOk uses o then some (c h o) else none
    | none => none

/-! ### The other formats -/

/-- What builds an instruction from its header and its format's fields; `none` where a reserved field or bit
is not zero (R74). -/
abbrev Build := Hdr → List Nat → Option Instr

/-- DST, OPA, OPB of RRR. -/
def rrr3 (c : Hdr → Nat → Nat → Nat → Instr) : Build := fun h f =>
  match f with
  | [0, 0, 0, 0, b, a, d] => some (c h d a b)
  | _ => none

/-- DST, OPA of RRR with the .W bit MOD[0]. -/
def rrrW (c : Hdr → Nat → Nat → Bool → Instr) : Build := fun h f =>
  match f with
  | [0, m, 0, 0, 0, a, d] => if m < 2 then some (c h d a (m == 1)) else none
  | _ => none

/-- PUSH and PUSHQ: DST, OPA, OPD, and the engine in MOD[3:0] (R192). -/
def rrrPush (c : Hdr → Nat → Nat → Nat → Nat → Instr) : Build := fun h f =>
  match f with
  | [0, m, od, 0, 0, a, d] => if m < 16 then some (c h d a od m) else none
  | _ => none

/-- DST, OPA and a 6-bit index in IMM48 (SEXT, ZEXT). -/
def rriK (c : Hdr → Nat → Nat → Nat → Instr) : Build := fun h f =>
  match f with
  | [k, 0, 0, a, d] => if k < 64 then some (c h d a k) else none
  | _ => none

/-- DST, OPA and the whole IMM48. -/
def rriI (c : Hdr → Nat → Nat → BitVec 48 → Instr) : Build := fun h f =>
  match f with
  | [k, 0, 0, a, d] => some (c h d a (BitVec.ofNat 48 k))
  | _ => none

/-- The opcodes of RRR. -/
def rrrTable : List (Nat × Build) :=
  [(0x00, rrr3 .add), (0x01, rrr3 .sub), (0x03, rrr3 .mul), (0x04, rrr3 .mulh), (0x05, rrr3 .mulhu),
   (0x06, rrr3 .div), (0x07, rrr3 .divu), (0x08, rrr3 .rem), (0x09, rrr3 .remu), (0x0a, rrr3 .and_),
   (0x0b, rrr3 .or_), (0x0c, rrr3 .xor_), (0x0d, rrr3 .andn), (0x0e, rrr3 .shl), (0x0f, rrr3 .shr)] ++
  [(0x10, rrr3 .sra), (0x11, rrr3 .rotr), (0x12, rrrW .clz), (0x13, rrrW .cls), (0x14, rrrW .ctz),
   (0x15, rrrW .popc), (0x16, rrr3 .min_), (0x17, rrr3 .max_), (0x18, rrr3 .minu), (0x19, rrr3 .maxu),
   (0x1a, fun h f => match f with
      | [0, 0, 0, c, b, a, d] => some (.sel h d a b c)
      | _ => none),
   (0x1b, fun h f => match f with
      | [0, m, 0, 0, b, a, d] => if m < 16 then some (.cmp h d a b m) else none
      | _ => none)] ++
  [(0x1c, rrr3 .pand), (0x1d, rrr3 .por), (0x1e, rrr3 .pxor),
   (0x1f, fun h f => match f with
      | [0, 0, 0, 0, 0, a, d] => some (.pnot h d a)
      | _ => none),
   (0x28, fun h f => match f with
      | [0, m, 0, 0, 0, a, d] => if m < 4 then some (.amov h d a m) else none
      | _ => none),
   (0x29, rrr3 .aadd), (0xd0, rrrPush .push), (0xd1, rrrPush .pushq)]

/-- The widths of an IMM48 that holds pos in [5:0] and len - 1 in [13:8] (R95). -/
def posLenWidths : List Nat := [6, 2, 6, 34]

/-- The opcodes of RRI. -/
def rriTable : List (Nat × Build) :=
  [(0x02, rriI .addi),
   (0x21, fun h f => match f with
      | [k, m, 0, a, d] => match unpackFields posLenWidths k with
        | [pos, 0, ln, 0] => if m < 2 then some (.bfx h d a pos ln (m == 1)) else none
        | _ => none
      | _ => none),
   (0x22, fun h f => match f with
      | [k, 0, 0, a, d] => match unpackFields posLenWidths k with
        | [pos, 0, ln, 0] => some (.bfi h d a pos ln)
        | _ => none
      | _ => none),
   (0x23, rriK .sext), (0x24, rriK .zext), (0x2a, rriI .aaddi),
   (0x2b, fun h f => match f with
      | [k, 0, 0, a, d] => some (.awrap h d a (k / 2 ^ 24) (k % 2 ^ 24))
      | _ => none),
   (0x2c, fun h f => match f with
      | [k, 0, 0, a, d] =>
        if k &&& 0x404040404040 = 0 then some (.aidx h d a (BitVec.ofNat 48 k)) else none
      | _ => none),
   (0x2d, fun h f => match f with
      | [k, 0, 0, 0, d] => if k < 8 then some (.widf h d k) else none
      | _ => none)]

/-- The one opcode of RI. -/
def riTable : List (Nat × Build) :=
  [(0x20, fun h f => match f with
      | [k, 0, 0, d] => some (.movi h d (BitVec.ofNat 64 k))
      | _ => none)]

/-- The opcodes of BR (R102). -/
def brTable : List (Nat × Build) :=
  [(0x42, fun h f => match f with
      | [o, 0, 0, 0, 0, 0, 0] => some (.br h (BitVec.ofNat 48 o))
      | _ => none),
   (0x43, fun h f => match f with
      | [o, 0, 0, cc, 0, b, a] => some (.brc h a b cc (BitVec.ofNat 48 o))
      | _ => none),
   (0x44, fun h f => match f with
      | [o, 0, 0, 0, d, 0, 0] => some (.call h d (BitVec.ofNat 48 o))
      | _ => none),
   (0x45, fun h f => match f with
      | [0, 0, 0, 0, 0, 0, a] => some (.ret h a)
      | _ => none),
   (0x46, fun h f => match f with
      | [o, 0, 0, 0, d, 0, 0] => some (.loopn h d (BitVec.ofNat 48 o))
      | _ => none)]

/-- A SYS syllable without operands. -/
def sys0 (c : Hdr → Instr) : Build := fun h f =>
  match f with
  | [0, 0, 0, 0, 0, 0] => some (c h)
  | _ => none

/-- The opcodes of SYS but SEGH (R106, R111, R114). -/
def sysTable : List (Nat × Build) :=
  [(0x41, sys0 .nop), (0x47, sys0 .yield), (0x48, sys0 .end_),
   (0x49, fun h f => match f with
      | [k, 0, 0, 0, 0, 0] => some (.trap h (BitVec.ofNat 32 k))
      | _ => none),
   (0x4a, sys0 .eret), (0x4b, sys0 .rdv),
   (0x4c, fun h f => match f with
      | [0, 0, m, 0, 0, 0] => if m < 32 then some (.phase h (m % 16) (m / 16 == 1)) else none
      | _ => none),
   (0x50, fun h f => match f with
      | [0, 0, 0, x, 0, d] => some (.getc h d x)
      | _ => none),
   (0x51, fun h f => match f with
      | [0, 0, 0, x, a, 0] => some (.setc h a x)
      | _ => none),
   (0x52, fun h f => match f with
      | [0, 0, 0, 0, a, d] => some (.getcx h d a)
      | _ => none)] ++
  [(0x53, fun h f => match f with
      | [k, 0, 0, 0, 0, d] => if k < 4 then some (.slabq h d k) else none
      | _ => none),
   (0x54, fun h f => match f with
      | [0, 0, m, 0, a, 0] => if m < 4 then some (.muinv h a m) else none
      | _ => none),
   (0x55, fun h f => match f with
      | [k, 0, 0, 0, a, 0] => some (.seed h a (BitVec.ofNat 32 k))
      | _ => none),
   (0x56, fun h f => match f with
      | [0, 0, 0, 0, 0, d] => some (.rampq h d)
      | _ => none)]

/-- The LIVE fields that are not 0 name different registers (R80). -/
def liveDistinct (l : List Nat) : Bool := decide (l.filter (· ≠ 0)).Nodup

/-- A segment header: its scheduling fields and its predicate are 0, its LIVE fields differ (R80). -/
def buildSegh : Build := fun h f =>
  match f with
  | [0, ext, rdvg, l5, l4, l3, l2, l1, l0, brp, next, len] =>
    if h.asMark = false ∧ h.stall = 0 ∧ h.wait = 0 ∧ h.sbset = 0 ∧ h.reuse = 0 ∧ h.pneg = false ∧ h.pnum = 0 ∧
        liveDistinct [l0, l1, l2, l3, l4, l5] = true then
      some (.segh h { len := len, next := BitVec.ofNat 22 next, brp := BitVec.ofNat 22 brp, live0 := l0, live1 := l1,
                      live2 := l2, live3 := l3, live4 := l4, live5 := l5, rdvg := rdvg, ext := ext == 1 })
    else none
  | _ => none

/-- A MEM syllable with an address and no other register. -/
def memA (mw : List Nat) (k : Hdr → Nat → Nat → BitVec 48 → List Nat → Option Instr) : Build := fun h f =>
  match f with
  | [dp, 0, m, 0, 0, b, r] => k h r b (BitVec.ofNat 48 dp) (unpackFields mw m)
  | _ => none

/-- A MEM syllable with an address and the registers OPB and OPC. -/
def memBC (mw : List Nat) (k : Hdr → Nat → Nat → BitVec 48 → Nat → Nat → List Nat → Option Instr) : Build :=
  fun h f =>
  match f with
  | [dp, 0, m, oc, ob, b, r] => k h r b (BitVec.ofNat 48 dp) ob oc (unpackFields mw m)
  | _ => none

/-- A region command on a subrange: BASE, DISP and the length in OPC. -/
def memRegion (c : Hdr → Nat → Nat → BitVec 48 → Nat → Instr) : Build := fun h f =>
  match f with
  | [dp, 0, 0, oc, 0, b, r] => some (c h r b (BitVec.ofNat 48 dp) oc)
  | _ => none

/-- The opcodes of MEM (R145, R147, R154, R155). -/
def memTable : List (Nat × Build) :=
  [(0xa7, fun h f => match f with
      | [dp, 0, 0, 0, 0, b, 0] => some (.xlutld h b (BitVec.ofNat 48 dp))
      | _ => none),
   (0xb0, memA [2, 1, 13] fun h r b dp m => match m with
      | [sz, s, 0] => some (.lds h r b dp sz (s == 1))
      | _ => none),
   (0xb1, memA [2, 14] fun h r b dp m => match m with
      | [sz, 0] => some (.sts h r b dp sz)
      | _ => none),
   (0xb2, memBC [3, 1, 1, 1, 10] fun h r b dp ob oc m => match m with
      | [ew, st, mk, zi, 0] =>
        if (st = 1 ∨ ob = 0) ∧ (mk = 1 ∨ oc = 0) then some (.ldv h r b dp ob oc ew (st == 1) (mk == 1) (zi == 1))
        else none
      | _ => none),
   (0xb3, memBC [3, 1, 1, 11] fun h r b dp ob oc m => match m with
      | [ew, st, mk, 0] =>
        if (st = 1 ∨ ob = 0) ∧ (mk = 1 ∨ oc = 0) then some (.stv h r b dp ob oc ew (st == 1) (mk == 1)) else none
      | _ => none),
   (0xb4, memBC [3, 1, 1, 1, 1, 9] fun h r b dp ob oc m => match m with
      | [ew, 0, mk, zi, sc, 0] =>
        if mk = 1 ∨ oc = 0 then some (.ldvg h r b dp ob oc ew (mk == 1) (zi == 1) (sc == 1)) else none
      | _ => none),
   (0xb5, memBC [3, 1, 1, 1, 1, 9] fun h r b dp ob oc m => match m with
      | [ew, 0, mk, 0, sc, 0] =>
        if mk = 1 ∨ oc = 0 then some (.stvs h r b dp ob oc ew (mk == 1) (sc == 1)) else none
      | _ => none),
   (0xb6, fun h f => match f with
      | [0, 0, m, 0, 0, 0, r] => if m < 2 then some (.ldvp h r m) else none
      | _ => none)] ++
  [(0xb8, memA [2, 1, 1, 12] fun h r b dp m => match m with
      | [sz, s, v, 0] =>
        if v = 1 ∧ (sz ≠ 0 ∨ s ≠ 0) then none else some (.ldg h r b dp sz (s == 1) (v == 1))
      | _ => none),
   (0xb9, memA [2, 1, 1, 12] fun h r b dp m => match m with
      | [sz, 0, v, 0] => if v = 1 ∧ sz ≠ 0 then none else some (.stg h r b dp sz (v == 1))
      | _ => none),
   (0xba, memBC [4, 1, 1, 10] fun h r b dp ob oc m => match m with
      | [op, u, w8, 0] =>
        if u = 1 ∧ op ≠ 2 ∧ op ≠ 3 then none else some (.amo h r b dp ob oc op (u == 1) (w8 == 1))
      | _ => none),
   (0xbc, memA [1, 15] fun h r b dp m => match m with
      | [g, 0] => some (.tld h r b dp (g == 1))
      | _ => none),
   (0xbd, memA [16] fun h r b dp m => match m with
      | [0] => some (.tst h r b dp)
      | _ => none),
   (0xbe, fun h f => match f with
      | [0, 0, m, 0, 0, 0, r] => if m < 2 then some (.park h r (m == 1)) else none
      | _ => none),
   (0xbf, fun h f => match f with
      | [0, 0, 0, 0, 0, 0, r] => some (.unpark h r)
      | _ => none),
   (0xc0, memBC [2, 14] fun h r b dp ob oc m => match m with
      | [md, 0] => some (.rmap h r b dp ob oc md)
      | _ => none),
   (0xc1, fun h f => match f with
      | [0, 0, 0, 0, 0, 0, r] => some (.runmap h r)
      | _ => none),
   (0xc2, memRegion .rfill), (0xc3, memRegion .rflush), (0xc4, memRegion .rinv)]

/-- The fields of the MAT format: DISP, CNT, BASE, SUB, SH, RM, RR, CH, DN, TR, IDX, DIRC, DIRB, DIRA, DIRD, OPC,
OPB, OPA, DST. -/
abbrev MatRow := Nat × Build

/-- RR = 1 needs RM = 0, and TR is used only with RR (R75, R169, R170). -/
def rrOk (rr rm tr : Nat) : Bool := if rr = 1 then rm == 0 else tr == 0

/-- The opcodes of MAT (R170). -/
def matTable : List MatRow :=
  [(0xd2, fun h f => match f with
      | [0, 0, 0, 0, 0, 0, 0, 0, 0, 0, 0, 0, 0, 0, 0, 0, 0, a, 0] => some (.mldw h a)
      | _ => none),
   (0xd3, fun h f => match f with
      | [0, 0, 0, 0, 0, 0, 0, 0, 0, 0, 0, 0, 0, 0, 0, 0, 0, 0, 0] => some (.mswap h)
      | _ => none),
   (0xd4, fun h f => match f with
      | [dp, cnt, b, sb, 0, 0, 0, ch, 0, tr, ix, 0, 0, 0, 0, 0, 0, 0, d] =>
        if sb < 2 then some (.mma h d ix tr (sb == 1) (ch == 1) b dp cnt) else none
      | _ => none),
   (0xd5, fun h f => match f with
      | [0, cnt, 0, sb, 0, 0, 0, ch, 0, tr, ix, 0, 0, 0, 0, 0, 0, a, d] =>
        if sb < 2 then some (.mmav h d a ix tr (sb == 1) (ch == 1) cnt) else none
      | _ => none),
   (0xd6, fun h f => match f with
      | [0, 0, 0, 0, 0, 0, 0, 0, 0, 0, 0, 0, 0, 0, 0, 0, 0, 0, d] => some (.mzero h d)
      | _ => none),
   (0xd7, fun h f => match f with
      | [dp, cnt, bs, 0, 0, 0, 0, 0, 0, tr, ix, 0, 0, 0, 0, 0, b, a, 0] => some (.cshd h a b ix tr bs dp cnt)
      | _ => none),
   (0xd8, fun h f => match f with
      | [0, 0, 0, 0, 0, 0, 0, 0, 0, 0, 0, 0, 0, 0, 0, 0, b, a, d] => some (.cadd h d a b)
      | _ => none),
   (0xd9, fun h f => match f with
      | [0, 0, 0, 0, 0, 0, 0, 0, 0, 0, ix, 0, 0, da, 0, 0, 0, a, d] => some (.crdv h d a da ix)
      | _ => none),
   (0xda, fun h f => match f with
      | [0, 0, 0, sb, 0, 0, 0, 0, 0, 0, ix, 0, 0, 0, dd, 0, 0, a, d] =>
        if sb < 2 then some (.cwrv h d a dd ix (sb == 1)) else none
      | _ => none),
   (0xdb, fun h f => match f with
      | [dp, 0, bs, 0, 0, 0, 0, 0, 0, tr, 0, 0, 0, 0, 0, 0, b, 0, d] => some (.mld h d b tr bs dp)
      | _ => none),
   (0xdc, fun h f => match f with
      | [dp, 0, bs, 0, 0, 0, 0, 0, 0, 0, 0, 0, 0, 0, 0, 0, b, a, 0] => some (.mst h a b bs dp)
      | _ => none)] ++
  [(0xdd, fun h f => match f with
      | [dp, cnt, bs, 0, 0, 0, 0, 0, dn, tr, 0, 0, 0, 0, 0, 0, b, 0, d] => some (.mldf h d b tr (dn == 1) bs dp cnt)
      | _ => none),
   (0xde, fun h f => match f with
      | [dp, 0, bs, 0, 0, 0, 0, 0, 0, 0, 0, 0, 0, 0, 0, 0, 0, a, 0] => some (.mstf h a bs dp)
      | _ => none),
   (0xe0, fun h f => match f with
      | [dp, cnt, 0, 0, 0, 0, 0, 0, dn, 0, 0, 0, 0, 0, 0, 0, b, a, d] =>
        match unpackFields [8, 8, 7] dp with
        | [eg, eh, 0] => some (.mlru h d a b (dn == 1) cnt eg eh)
        | _ => none
      | _ => none),
   (0xe1, fun h f => match f with
      | [0, 0, 0, 0, 0, 0, 0, 0, dn, 0, 0, 0, 0, 0, 0, 0, b, a, d] => some (.mlradd h d a b (dn == 1))
      | _ => none),
   (0xe2, fun h f => match f with
      | [0, 0, 0, 0, sh, rm, rr, 0, 0, tr, 0, 0, 0, 0, 0, 0, 0, a, d] =>
        if rrOk rr rm tr then some (.mlrmul h d a tr sh rm (rr == 1)) else none
      | _ => none),
   (0xe3, fun h f => match f with
      | [0, 0, 0, 0, 0, 0, 0, 0, 0, 0, 0, 0, 0, 0, 0, 0, 0, a, d] => some (.mrecomp h d a)
      | _ => none),
   (0xe4, fun h f => match f with
      | [0, 0, 0, 0, 0, 0, 0, 0, 0, 0, 0, 0, 0, 0, 0, 0, 0, a, d] => some (.mdense h d a)
      | _ => none),
   (0xe5, fun h f => match f with
      | [0, 0, 0, sb, 0, 0, 0, 0, 0, 0, ix, 0, 0, 0, 0, 0, 0, a, d] =>
        if sb < 2 then some (.mqry h d a ix (sb == 1)) else none
      | _ => none),
   (0xe6, fun h f => match f with
      | [0, 0, 0, sb, 0, 0, 0, 0, 0, 0, 0, 0, 0, 0, 0, 0, 0, 0, d] =>
        if sb < 2 then some (.mfree h d (sb == 1)) else none
      | _ => none),
   (0xe7, fun h f => match f with
      | [0, 0, 0, 0, sh, rm, rr, 0, 0, tr, ix, 0, 0, da, 0, 0, 0, a, d] =>
        if rrOk rr rm tr then some (.mget h d a da ix tr sh rm (rr == 1)) else none
      | _ => none),
   (0xe8, fun h f => match f with
      | [0, 0, 0, 0, 0, 0, 0, 0, 0, 0, ix, 0, 0, 0, dd, 0, 0, a, d] => some (.mput h d a dd ix)
      | _ => none)]

/-! ### Decoding a syllable -/

/-- The decode traps a syllable can raise by itself (R78, R89). -/
inductive DecodeError where
  /-- 0x01: an opcode without meaning, a reserved field that is not zero, SBSET = 7 -/
  | illegalInstruction
  /-- 0x02: an opcode in a slot of another class -/
  | slotMismatch
  deriving DecidableEq, Repr

/-- The format of an opcode and what builds its instruction; `none` for an unassigned opcode (R89, R90). -/
def opInfo (op : Nat) : Option (Fmt × Build) :=
  if op = 0x40 then some (.segh, buildSegh)
  else if (vecTable.lookup op).isSome ∨ op = 0x70 then some (.vec, buildVec op)
  else match rrrTable.lookup op with
    | some b => some (.rrr, b)
    | none => match rriTable.lookup op with
      | some b => some (.rri, b)
      | none => match riTable.lookup op with
        | some b => some (.ri, b)
        | none => match brTable.lookup op with
          | some b => some (.br, b)
          | none => match sysTable.lookup op with
            | some b => some (.sys, b)
            | none => match memTable.lookup op with
              | some b => some (.mem, b)
              | none => match matTable.lookup op with
                | some b => some (.mat, b)
                | none => none

/-- The slots of an opcode's class (R43, R89). -/
def slotsOf (op : Nat) : List Nat :=
  if op < 0x40 then [0, 1] else if op < 0x60 then [0] else if op < 0xa0 then [2, 3, 4]
  else if op < 0xb0 then [5] else if op < 0xd0 then [6] else [7]

/-- Decodes the 128 bits of a syllable, as a number. -/
def decodeSyllableNat (n : Nat) : Except DecodeError Instr :=
  let top := unpackFields topWidths (n / 2 ^ 94)
  let op := top.headD 0
  let h := topHdr top
  match opInfo op with
  | none => .error .illegalInstruction
  | some (fmt, build) =>
    if h.sbset = 7 then .error .illegalInstruction
    else match build h (unpackFields fmt.widths (n % 2 ^ 94)) with
      | none => .error .illegalInstruction
      | some i => if (slotsOf op).contains h.slot then .ok i else .error .slotMismatch

/-- Decodes a syllable. -/
def decodeSyllable (w : Syllable) : Except DecodeError Instr := decodeSyllableNat w.toNat

/-! ### Lystil words (R316 to R319) -/

/-- The limit of CLAMP for an RFMT: none for INT32 (R317). -/
def lystilClampOk (rfmt cb clamp : Nat) : Bool :=
  if cb = 0 then clamp == 0
  else if rfmt = 0 then decide (clamp ≤ 128) else if rfmt = 1 then decide (clamp ≤ 32768) else true

/-- The widths of the transfer format, from bit 0 up. -/
def xferWidths : List Nat := [16, 7, 1, 2, 2, 1, 8, 8, 6, 4, 4, 5]

/-- The widths of every other word, by opcode. -/
def lystilWidths : Nat → List Nat
  | 0x06 => [32, 19, 8, 5]
  | 0x07 => [32, 2, 8, 8, 6, 3, 5]
  | 0x08 => [47, 12, 5]
  | 0x09 => [47, 12, 5]
  | 0x0a => [48, 4, 3, 4, 5]
  | 0x0b => [32, 25, 2, 5]
  | 0x0c => [24, 33, 2, 5]
  | 0x0d => [25, 16, 8, 4, 6, 5]
  | 0x0e => [53, 6, 5]
  | 0x0f => [59, 5]
  | _ => xferWidths

/-- The instruction of a legal Lystil word; `none` where R319 ends the thread with BADOP. -/
def decodeLystilLegal (n : Nat) : Option Instr :=
  let op := n / 2 ^ 59 % 32
  match op, unpackFields (lystilWidths op) n with
  | 0x01, [0, 0, 0, 0, 0, cn, ctr, peer, gs, 0, ka, _] => some (.send ka gs peer ctr (cn == 1))
  | 0x02, [0, 0, 0, 0, 0, cn, ctr, peer, gs, 0, ka, _] => some (.recv ka gs peer ctr (cn == 1))
  | 0x03, [cp, 0, cb, rf, ro, cn, ctr, peer, gs, 0, ka, _] =>
    if ro < 3 ∧ rf < 3 ∧ lystilClampOk rf cb cp = true then
      some (.recvr ka gs peer ctr (cn == 1) ro rf (cb == 1) cp) else none
  | 0x04, [0, 0, 0, 0, 0, cn, ctr, 0, 0, kb, ka, _] => some (.lystilCopy ka kb ctr (cn == 1))
  | 0x05, [cp, 0, cb, rf, ro, cn, ctr, 0, 0, kb, ka, _] =>
    if ro < 3 ∧ rf < 3 ∧ lystilClampOk rf cb cp = true then
      some (.red ka kb ctr (cn == 1) ro rf (cb == 1) cp) else none
  | 0x06, [thr, 0, ctr, _] => some (.lystilWait ctr thr)
  | 0x07, [v, 0, ctr, 0, 0, 0, _] => some (.sigAdd ctr v)
  | 0x07, [v, 0, ctr, peer, gs, 1, _] => some (.sigRadd gs peer ctr v)
  | 0x07, [0, 0, 0, 0, 0, 2, _] => some .sigSrc
  | 0x07, [0, 0, 0, 0, 0, 3, _] => some .sigLoc
  | 0x07, [0, 0, 0, 0, gs, 4, _] => some (.sigAll gs)
  | 0x07, [v, 0, ctr, 0, 0, 5, _] => some (.sigSet ctr v)
  | 0x08, [0, t, _] => some (.twait t)
  | 0x09, [0, t, _] => some (.tfire t)
  | 0x0a, [imm, 0, 0, k, _] => some (.setkAddr k (BitVec.ofNat 48 imm))
  | 0x0a, [imm, 0, 1, k, _] => some (.setkAddrAdd k (BitVec.ofNat 48 imm))
  | 0x0a, [imm, 0, 2, k, _] => some (.setkAddrArg k (BitVec.ofNat 48 imm))
  | 0x0a, [imm, 0, 3, k, _] => some (.setkRlen k (BitVec.ofNat 48 imm))
  | 0x0a, [imm, 0, 4, k, _] => some (.setkNrow k (BitVec.ofNat 48 imm))
  | 0x0a, [imm, 0, 5, k, _] => some (.setkRstr k (BitVec.ofNat 48 imm))
  | 0x0b, [c, 0, ln, _] => some (.lystilLoop ln c)
  | 0x0c, [o, 0, ln, _] => some (.bnz ln (BitVec.ofNat 24 o))
  | 0x0d, [0, gid, inc, k, gs, _] => some (.gjoin gs k inc gid)
  | 0x0e, [0, gs, _] => some (.gfree gs)
  | 0x0f, [0, _] => some .lystilEnd
  | _, _ => none

/-- Decodes a Lystil word: total, an illegal word is `lystilBadop` (R319). -/
def decodeLystil (w : LystilWord) : Instr := (decodeLystilLegal w.toNat).getD (.lystilBadop w)

/-! ### The encoder -/

/-- The parts of an encoding. -/
inductive Raw where
  /-- a syllable: opcode, format, header, operand fields -/
  | syllable (op : Nat) (fmt : Fmt) (h : Hdr) (f : List Nat)
  /-- a Lystil word: its widths and fields -/
  | lystil (w : List Nat) (f : List Nat)
  deriving DecidableEq, Repr

def rawRrr (op : Nat) (h : Hdr) (d a b c od m : Nat) : Option Raw := some (.syllable op .rrr h [0, m, od, c, b, a, d])

def rawRri (op : Nat) (h : Hdr) (d a m k : Nat) : Option Raw := some (.syllable op .rri h [k, m, 0, a, d])

def rawBr (op : Nat) (h : Hdr) (a b d cc off : Nat) : Option Raw := some (.syllable op .br h [off, 0, 0, cc, d, b, a])

def rawSys (op : Nat) (h : Hdr) (d a x m k : Nat) : Option Raw := some (.syllable op .sys h [k, 0, m, x, a, d])

def rawVec (op : Nat) (h : Hdr) (o : VecOps) : Option Raw := some (.syllable op .vec h (vecFields o))

def rawMem (op : Nat) (h : Hdr) (r b dp ob oc m : Nat) : Option Raw := some (.syllable op .mem h [dp, 0, m, oc, ob, b, r])

def rawMat (op : Nat) (h : Hdr) (d a b : Nat) (dd da ix tr : Nat) (dn ch rr rm sh sb : Nat) (bs cnt dp : Nat) :
    Option Raw :=
  some (.syllable op .mat h [dp, cnt, bs, sb, sh, rm, rr, ch, dn, tr, ix, 0, 0, da, dd, 0, b, a, d])

def rawXfer (op ka kb gs peer ctr : Nat) (cn : Bool) (rop rfmt cb clamp : Nat) : Option Raw :=
  some (.lystil xferWidths [clamp, 0, cb, rfmt, rop, bit cn, ctr, peer, gs, kb, ka, op])

def rawLystil (op : Nat) (f : List Nat) : Option Raw := some (.lystil (lystilWidths op) (f ++ [op]))

/-- The fields of an instruction's encoding; an event has none. -/
def rawOf : Instr → Option Raw
  | .add h d a b => rawRrr 0x00 h d a b 0 0 0
  | .sub h d a b => rawRrr 0x01 h d a b 0 0 0
  | .mul h d a b => rawRrr 0x03 h d a b 0 0 0
  | .mulh h d a b => rawRrr 0x04 h d a b 0 0 0
  | .mulhu h d a b => rawRrr 0x05 h d a b 0 0 0
  | .div h d a b => rawRrr 0x06 h d a b 0 0 0
  | .divu h d a b => rawRrr 0x07 h d a b 0 0 0
  | .rem h d a b => rawRrr 0x08 h d a b 0 0 0
  | .remu h d a b => rawRrr 0x09 h d a b 0 0 0
  | .and_ h d a b => rawRrr 0x0a h d a b 0 0 0
  | .or_ h d a b => rawRrr 0x0b h d a b 0 0 0
  | .xor_ h d a b => rawRrr 0x0c h d a b 0 0 0
  | .andn h d a b => rawRrr 0x0d h d a b 0 0 0
  | .shl h d a b => rawRrr 0x0e h d a b 0 0 0
  | .shr h d a b => rawRrr 0x0f h d a b 0 0 0
  | .sra h d a b => rawRrr 0x10 h d a b 0 0 0
  | .rotr h d a b => rawRrr 0x11 h d a b 0 0 0
  | .clz h d a w => rawRrr 0x12 h d a 0 0 0 (bit w)
  | .cls h d a w => rawRrr 0x13 h d a 0 0 0 (bit w)
  | .ctz h d a w => rawRrr 0x14 h d a 0 0 0 (bit w)
  | .popc h d a w => rawRrr 0x15 h d a 0 0 0 (bit w)
  | .min_ h d a b => rawRrr 0x16 h d a b 0 0 0
  | .max_ h d a b => rawRrr 0x17 h d a b 0 0 0
  | .minu h d a b => rawRrr 0x18 h d a b 0 0 0
  | .maxu h d a b => rawRrr 0x19 h d a b 0 0 0
  | .sel h d a b c => rawRrr 0x1a h d a b c 0 0
  | .cmp h d a b cc => rawRrr 0x1b h d a b 0 0 cc
  | .pand h d a b => rawRrr 0x1c h d a b 0 0 0
  | .por h d a b => rawRrr 0x1d h d a b 0 0 0
  | .pxor h d a b => rawRrr 0x1e h d a b 0 0 0
  | .pnot h d a => rawRrr 0x1f h d a 0 0 0 0
  | .amov h d a dir => rawRrr 0x28 h d a 0 0 0 dir
  | .aadd h d a b => rawRrr 0x29 h d a b 0 0 0
  | .push h d a opd eng => rawRrr 0xd0 h d a 0 0 opd eng
  | .pushq h d a opd eng => rawRrr 0xd1 h d a 0 0 opd eng
  | .movi h d imm => some (.syllable 0x20 .ri h [imm.toNat, 0, 0, d])
  | .addi h d a imm => rawRri 0x02 h d a 0 imm.toNat
  | .bfx h d a pos lenm1 sx => rawRri 0x21 h d a (bit sx) (packFields posLenWidths [pos, 0, lenm1, 0])
  | .bfi h d a pos lenm1 => rawRri 0x22 h d a 0 (packFields posLenWidths [pos, 0, lenm1, 0])
  | .sext h d a k => rawRri 0x23 h d a 0 k
  | .zext h d a k => rawRri 0x24 h d a 0 k
  | .aaddi h d a imm => rawRri 0x2a h d a 0 imm.toNat
  | .awrap h d a step bound => rawRri 0x2b h d a 0 (bound + 2 ^ 24 * step)
  | .aidx h d a ents => rawRri 0x2c h d a 0 ents.toNat
  | .widf h d k => rawRri 0x2d h d 0 0 k
  | .segh h o => some (.syllable 0x40 .segh h
      [0, bit o.ext, o.rdvg, o.live5, o.live4, o.live3, o.live2, o.live1, o.live0, o.brp.toNat, o.next.toNat, o.len])
  | .nop h => rawSys 0x41 h 0 0 0 0 0
  | .br h off => rawBr 0x42 h 0 0 0 0 off.toNat
  | .brc h a b cc off => rawBr 0x43 h a b 0 cc off.toNat
  | .call h d off => rawBr 0x44 h 0 0 d 0 off.toNat
  | .ret h a => rawBr 0x45 h a 0 0 0 0
  | .loopn h d off => rawBr 0x46 h 0 0 d 0 off.toNat
  | .yield h => rawSys 0x47 h 0 0 0 0 0
  | .end_ h => rawSys 0x48 h 0 0 0 0 0
  | .trap h code => rawSys 0x49 h 0 0 0 0 code.toNat
  | .eret h => rawSys 0x4a h 0 0 0 0 0
  | .rdv h => rawSys 0x4b h 0 0 0 0 0
  | .phase h scope y => rawSys 0x4c h 0 0 0 (scope + 16 * bit y) 0
  | .getc h d idx => rawSys 0x50 h d 0 idx 0 0
  | .setc h a idx => rawSys 0x51 h 0 a idx 0 0
  | .getcx h d a => rawSys 0x52 h d a 0 0 0
  | .slabq h d sel => rawSys 0x53 h d 0 0 0 sel
  | .muinv h a mode => rawSys 0x54 h 0 a 0 mode 0
  | .seed h a imm => rawSys 0x55 h 0 a 0 0 imm.toNat
  | .rampq h d => rawSys 0x56 h d 0 0 0 0
  | .vadd h o => rawVec 0x60 h o
  | .vsub h o => rawVec 0x61 h o
  | .vadds h o => rawVec 0x62 h o
  | .vsubs h o => rawVec 0x63 h o
  | .vmul h o => rawVec 0x64 h o
  | .vmulh h o => rawVec 0x65 h o
  | .vmuls h o => rawVec 0x66 h o
  | .vmac h o => rawVec 0x67 h o
  | .vdot4 h o => rawVec 0x68 h o
  | .vand h o => rawVec 0x69 h o
  | .vor h o => rawVec 0x6a h o
  | .vxor h o => rawVec 0x6b h o
  | .vandn h o => rawVec 0x6c h o
  | .vshl h o => rawVec 0x6d h o
  | .vshr h o => rawVec 0x6e h o
  | .vsra h o => rawVec 0x6f h o
  | .vmin h o => rawVec 0x71 h o
  | .vmax h o => rawVec 0x72 h o
  | .vabs h o => rawVec 0x73 h o
  | .vneg h o => rawVec 0x74 h o
  | .vcmp h o => rawVec 0x75 h o
  | .vsel h o => rawVec 0x76 h o
  | .vclz h o => rawVec 0x77 h o
  | .vcls h o => rawVec 0x78 h o
  | .vpopc h o => rawVec 0x79 h o
  | .vcnv h o => rawVec 0x7a h o
  | .vpack h o => rawVec 0x7b h o
  | .vunpk h o => rawVec 0x7c h o
  | .vperm h o => rawVec 0x7d h o
  | .vbcst h o => rawVec 0x7e h o
  | .vslide h o => rawVec 0x7f h o
  | .vredadd h o => rawVec 0x80 h o
  | .vredmax h o => rawVec 0x81 h o
  | .vredmin h o => rawVec 0x82 h o
  | .vscan h o => rawVec 0x83 h o
  | .vmov h o => rawVec 0x84 h o
  | .vins h o => rawVec 0x85 h o
  | .vext h o => rawVec 0x86 h o
  | .viota h o => rawVec 0x87 h o
  | .qand h o => rawVec 0x88 h o
  | .qor h o => rawVec 0x89 h o
  | .qxor h o => rawVec 0x8a h o
  | .qnot h o => rawVec 0x8b h o
  | .qpopc h o => rawVec 0x8c h o
  | .qset h o => rawVec 0x8d h o
  | .xexp2 h o => rawVec 0xa0 h o
  | .xrcp h o => rawVec 0xa1 h o
  | .xrsq h o => rawVec 0xa2 h o
  | .xlog2 h o => rawVec 0xa3 h o
  | .xsigm h o => rawVec 0xa4 h o
  | .xtanh h o => rawVec 0xa5 h o
  | .xlut h o => rawVec 0xa6 h o
  | .xoptm h o => rawVec 0xa8 h o
  | .xopta h o => rawVec 0xa9 h o
  | .vshrd h o => rawVec 0x70 h o
  | .vshrdCensus h o => rawVec 0x70 h o
  | .xlutld h base disp => rawMem 0xa7 h 0 base disp.toNat 0 0 0
  | .lds h d base disp size sx => rawMem 0xb0 h d base disp.toNat 0 0 (packFields [2, 1, 13] [size, bit sx, 0])
  | .sts h r base disp size => rawMem 0xb1 h r base disp.toNat 0 0 (packFields [2, 14] [size, 0])
  | .ldv h d base disp opb opc ew st m zi =>
    rawMem 0xb2 h d base disp.toNat opb opc (packFields [3, 1, 1, 1, 10] [ew, bit st, bit m, bit zi, 0])
  | .stv h r base disp opb opc ew st m =>
    rawMem 0xb3 h r base disp.toNat opb opc (packFields [3, 1, 1, 11] [ew, bit st, bit m, 0])
  | .ldvg h d base disp opb opc ew m zi sc =>
    rawMem 0xb4 h d base disp.toNat opb opc (packFields [3, 1, 1, 1, 1, 9] [ew, 0, bit m, bit zi, bit sc, 0])
  | .stvs h r base disp opb opc ew m sc =>
    rawMem 0xb5 h r base disp.toNat opb opc (packFields [3, 1, 1, 1, 1, 9] [ew, 0, bit m, 0, bit sc, 0])
  | .ldvp h d port => rawMem 0xb6 h d 0 0 0 0 port
  | .ldg h d base disp size sx v =>
    rawMem 0xb8 h d base disp.toNat 0 0 (packFields [2, 1, 1, 12] [size, bit sx, bit v, 0])
  | .stg h r base disp size v => rawMem 0xb9 h r base disp.toNat 0 0 (packFields [2, 1, 1, 12] [size, 0, bit v, 0])
  | .amo h d base disp opb opc op u w8 =>
    rawMem 0xba h d base disp.toNat opb opc (packFields [4, 1, 1, 10] [op, bit u, bit w8, 0])
  | .tld h d base disp g => rawMem 0xbc h d base disp.toNat 0 0 (packFields [1, 15] [bit g, 0])
  | .tst h r base disp => rawMem 0xbd h r base disp.toNat 0 0 0
  | .park h r acc => rawMem 0xbe h r 0 0 0 0 (bit acc)
  | .unpark h r => rawMem 0xbf h r 0 0 0 0 0
  | .rmap h n base disp va len mode => rawMem 0xc0 h n base disp.toNat va len (packFields [2, 14] [mode, 0])
  | .runmap h n => rawMem 0xc1 h n 0 0 0 0 0
  | .rfill h n base disp len => rawMem 0xc2 h n base disp.toNat 0 len 0
  | .rflush h n base disp len => rawMem 0xc3 h n base disp.toNat 0 len 0
  | .rinv h n base disp len => rawMem 0xc4 h n base disp.toNat 0 len 0
  | .mldw h a => rawMat 0xd2 h 0 a 0 0 0 0 0 0 0 0 0 0 0 0 0 0
  | .mswap h => rawMat 0xd3 h 0 0 0 0 0 0 0 0 0 0 0 0 0 0 0 0
  | .mma h d idx tr acc ch base disp cnt => rawMat 0xd4 h d 0 0 0 0 idx tr 0 (bit ch) 0 0 0 (bit acc) base cnt disp
  | .mmav h d a idx tr acc ch cnt => rawMat 0xd5 h d a 0 0 0 idx tr 0 (bit ch) 0 0 0 (bit acc) 0 cnt 0
  | .mzero h d => rawMat 0xd6 h d 0 0 0 0 0 0 0 0 0 0 0 0 0 0 0
  | .cshd h a b idx tr base disp cnt => rawMat 0xd7 h 0 a b 0 0 idx tr 0 0 0 0 0 0 base cnt disp
  | .cadd h d a b => rawMat 0xd8 h d a b 0 0 0 0 0 0 0 0 0 0 0 0 0
  | .crdv h d a dir idx => rawMat 0xd9 h d a 0 0 dir idx 0 0 0 0 0 0 0 0 0 0
  | .cwrv h d a dir idx add => rawMat 0xda h d a 0 dir 0 idx 0 0 0 0 0 0 (bit add) 0 0 0
  | .mld h d b tr base disp => rawMat 0xdb h d 0 b 0 0 0 tr 0 0 0 0 0 0 base 0 disp
  | .mst h a b base disp => rawMat 0xdc h 0 a b 0 0 0 0 0 0 0 0 0 0 base 0 disp
  | .mldf h d b tr dn base disp cnt => rawMat 0xdd h d 0 b 0 0 0 tr (bit dn) 0 0 0 0 0 base cnt disp
  | .mstf h a base disp => rawMat 0xde h 0 a 0 0 0 0 0 0 0 0 0 0 0 base 0 disp
  | .mlru h d a b dn cnt eg eh =>
    rawMat 0xe0 h d a b 0 0 0 0 (bit dn) 0 0 0 0 0 0 cnt (packFields [8, 8, 7] [eg, eh, 0])
  | .mlradd h d a b dn => rawMat 0xe1 h d a b 0 0 0 0 (bit dn) 0 0 0 0 0 0 0 0
  | .mlrmul h d a tr sh rm rr => rawMat 0xe2 h d a 0 0 0 0 tr 0 0 (bit rr) rm sh 0 0 0 0
  | .mrecomp h d a => rawMat 0xe3 h d a 0 0 0 0 0 0 0 0 0 0 0 0 0 0
  | .mdense h d a => rawMat 0xe4 h d a 0 0 0 0 0 0 0 0 0 0 0 0 0 0
  | .mqry h d a idx slab => rawMat 0xe5 h d a 0 0 0 idx 0 0 0 0 0 0 (bit slab) 0 0 0
  | .mfree h d tile => rawMat 0xe6 h d 0 0 0 0 0 0 0 0 0 0 0 (bit tile) 0 0 0
  | .mget h d a dir idx tr sh rm rr => rawMat 0xe7 h d a 0 0 dir idx tr 0 0 (bit rr) rm sh 0 0 0 0
  | .mput h d a dir idx => rawMat 0xe8 h d a 0 dir 0 idx 0 0 0 0 0 0 0 0 0 0
  | .send ka gs peer ctr cn => rawXfer 0x01 ka 0 gs peer ctr cn 0 0 0 0
  | .recv ka gs peer ctr cn => rawXfer 0x02 ka 0 gs peer ctr cn 0 0 0 0
  | .recvr ka gs peer ctr cn rop rfmt cb clamp => rawXfer 0x03 ka 0 gs peer ctr cn rop rfmt (bit cb) clamp
  | .lystilCopy ka kb ctr cn => rawXfer 0x04 ka kb 0 0 ctr cn 0 0 0 0
  | .red ka kb ctr cn rop rfmt cb clamp => rawXfer 0x05 ka kb 0 0 ctr cn rop rfmt (bit cb) clamp
  | .lystilWait ctr thr => rawLystil 0x06 [thr, 0, ctr]
  | .sigAdd ctr val => rawLystil 0x07 [val, 0, ctr, 0, 0, 0]
  | .sigRadd gs peer ctr val => rawLystil 0x07 [val, 0, ctr, peer, gs, 1]
  | .sigSrc => rawLystil 0x07 [0, 0, 0, 0, 0, 2]
  | .sigLoc => rawLystil 0x07 [0, 0, 0, 0, 0, 3]
  | .sigAll gs => rawLystil 0x07 [0, 0, 0, 0, gs, 4]
  | .sigSet ctr val => rawLystil 0x07 [val, 0, ctr, 0, 0, 5]
  | .twait tile => rawLystil 0x08 [0, tile]
  | .tfire tile => rawLystil 0x09 [0, tile]
  | .setkAddr k imm => rawLystil 0x0a [imm.toNat, 0, 0, k]
  | .setkAddrAdd k imm => rawLystil 0x0a [imm.toNat, 0, 1, k]
  | .setkAddrArg k imm => rawLystil 0x0a [imm.toNat, 0, 2, k]
  | .setkRlen k imm => rawLystil 0x0a [imm.toNat, 0, 3, k]
  | .setkNrow k imm => rawLystil 0x0a [imm.toNat, 0, 4, k]
  | .setkRstr k imm => rawLystil 0x0a [imm.toNat, 0, 5, k]
  | .lystilLoop ln count => rawLystil 0x0b [count, 0, ln]
  | .bnz ln off => rawLystil 0x0c [off.toNat, 0, ln]
  | .gjoin gs k inc gid => rawLystil 0x0d [0, gid, inc, k, gs]
  | .gfree gs => rawLystil 0x0e [0, gs]
  | .lystilEnd => rawLystil 0x0f [0]
  | .lystilBadop w => some (.lystil [64] [w.toNat])
  | .xlutComplete _ _ _ => none
  | .xlutTableActivate _ _ => none
  | .ldgComplete _ _ _ => none
  | .amoComplete _ _ _ => none
  | .tldGlobalArrival _ _ _ => none
  | .mrecompComplete _ _ _ => none
  | .resultWrite _ _ => none
  | .segmentCommit _ _ => none
  | .segmentFetch _ _ _ => none
  | .addressStreamRun _ _ => none
  | .trapEntry _ _ => none
  | .latchDelivery _ _ => none
  | .segmentRewind _ _ _ => none
  | .localReplay _ _ _ => none
  | .bankSwitch _ _ => none
  | .fltAnsRetry _ _ => none
  | .fltAnsEnd _ _ => none
  | .preemption _ => none
  | .contextResume _ _ => none
  | .lazyWriteout _ _ _ _ => none
  | .blockedBankSave _ => none
  | .timeSliceEnd _ => none
  | .priorityAging _ _ => none
  | .watchdog _ _ => none
  | .rendezvousTimeout _ _ => none
  | .chainTimeout _ _ => none
  | .phaseComplete _ _ _ _ => none
  | .rampWindow => none
  | .taskAdmit _ => none
  | .ramblerPlace _ => none
  | .ramblerLaunchAccept _ => none
  | .launchComplete _ => none
  | .feLaunch _ => none
  | .feSched _ => none
  | .feWaitev _ => none
  | .feSigev _ => none
  | .haltqDrain _ => none
  | .haltqKill _ => none
  | .feBadEntry _ => none
  | .fillLands _ _ _ _ => none
  | .writebackAck _ _ _ => none
  | .directAccessPerform _ _ => none
  | .coreWindowAccess _ _ _ _ => none
  | .sweepStep => none
  | .migTailWrite _ => none
  | .migrationMoveStart => none
  | .migrationBadCommand => none
  | .migrationDrainDone _ => none
  | .migrationCommit _ => none
  | .migrationLost _ => none
  | .migrationFail _ => none
  | .scrubPass _ => none
  | .copyJob _ _ _ => none
  | .convertJob _ _ _ => none
  | .gatherJob _ _ _ => none
  | .scatterJob _ _ _ => none
  | .fillJob _ _ _ => none
  | .decodeJob _ _ _ => none
  | .decodeBlockDeliver _ _ => none
  | .xformJob _ _ _ => none
  | .xfIneedWrite _ _ _ => none
  | .xfIfreeWrite _ _ _ => none
  | .xfOmarkWrite _ _ _ => none
  | .xfDoneWrite _ _ _ => none
  | .xformTimeout _ _ => none
  | .chainJob _ _ _ => none
  | .chainCommandEntry _ _ _ => none
  | .chainLoop _ _ _ => none
  | .chainCond _ _ _ => none
  | .chainEnd _ _ _ => none
  | .followOnMldw _ _ _ => none
  | .followOnMma _ _ _ => none
  | .jobComplete _ _ _ => none
  | .jobPageFault _ _ _ => none
  | .routineLoadStart _ _ _ => none
  | .routineLoadComplete _ _ => none
  | .scheduleStart _ _ => none
  | .transferMatch _ _ => none
  | .operationMilestone _ _ => none
  | .counterStep _ _ _ => none
  | .packetArrival _ _ => none
  | .remoteAddArrival _ => none
  | .tileFireLanded _ => none
  | .failureMarkerArrival _ => none
  | .cleKill _ _ => none
  | .flitReceive _ _ => none
  | .goBack _ => none
  | .replayTimeout _ => none
  | .lossOfLight _ => none
  | .lossDetected _ => none
  | .restripeAck _ _ => none
  | .retrainStart _ => none
  | .retrainEnd _ _ => none
  | .linkCtlRetrain _ _ => none
  | .slotBaseWrite _ _ => none
  | .slotTableLoad _ => none
  | .memorySlot _ => none
  | .remoteWritePacket _ => none
  | .remoteWriteAck _ _ _ _ => none
  | .circuitConnect _ _ _ => none
  | .queueTailWrite _ _ => none
  | .hostWindowAccess _ _ _ => none
  | .setq _ _ _ _ => none
  | .startq _ => none
  | .stopq _ => none
  | .status => none
  | .attest _ => none
  | .loadfw _ _ => none
  | .resetWarm => none
  | .resetCold => none
  | .mailboxBadCommand _ => none
  | .coldStart _ _ => none
  | .warmStart _ _ _ => none
  | .startFailure _ => none
  | .telemetrySample _ _ => none
  | .powerCapExceeded _ => none
  | .dieOvertemp _ => none
  | .einjArm _ _ => none
  | .elogCntClear _ => none
  | .rampStepWrite _ => none
  | .controlRegisterWrite _ _ _ => none
  | .heartbeat _ => none
  | .microcoreException _ _ => none

/-- The number of bits of an instruction's words and the words as one number, bit 0 of the first byte least. -/
def encodeNat (i : Instr) : Nat × Nat :=
  match rawOf i with
  | some (.syllable op fmt h f) => (128, packFields fmt.widths f + 2 ^ 94 * packFields topWidths (topFields op h))
  | some (.lystil w f) => (64, packFields w f)
  | none => (0, 0)

/-- The bytes of a number, the low byte first (R4). -/
def leBytes : Nat → Nat → List Byte
  | 0, _ => []
  | k + 1, n => BitVec.ofNat 8 n :: leBytes k (n / 256)

/-- The number of a list of bytes, the low byte first (R4). -/
def ofLeBytes : List Byte → Nat
  | [] => 0
  | b :: bs => b.toNat + 256 * ofLeBytes bs

/-- The bytes of an instruction as they stand in memory: 16 of a syllable, 8 of a Lystil word, none of an event. -/
def encode (i : Instr) : List Byte :=
  leBytes ((encodeNat i).1 / 8) (encodeNat i).2

/-- The reserved fields of a well-formed instruction hold zero where a rule ties one field to another: the header of a
SEGH (R80), the fields a vector entry uses under a condition (R122, R132 to R134), the stride and mask registers
(R147), the forms of LDG, STG and AMO (R154, R155), TR without RR (R75, R170), and the codes of a reduction (R317).
An event has no words. -/
def reservedOk (i : Instr) : Bool :=
  match i with
  | .segh h o =>
    !h.asMark && h.stall == 0 && h.wait == 0 && h.sbset == 0 && h.reuse == 0 && !h.pneg && h.pnum == 0 &&
    liveDistinct [o.live0, o.live1, o.live2, o.live3, o.live4, o.live5]
  | .aidx _ _ _ ents => ents.toNat &&& 0x404040404040 == 0
  | .vshrd _ o => o.smode != 2 && vshrdReservedOk o
  | .vshrdCensus _ o => o.smode == 2 && vshrdCensusReservedOk o
  | .ldv _ _ _ _ opb opc _ st m _ => (st || opb == 0) && (m || opc == 0)
  | .stv _ _ _ _ opb opc _ st m => (st || opb == 0) && (m || opc == 0)
  | .ldvg _ _ _ _ _ opc _ m _ _ => m || opc == 0
  | .stvs _ _ _ _ _ opc _ m _ => m || opc == 0
  | .ldg _ _ _ _ size sx v => !v || (size == 0 && !sx)
  | .stg _ _ _ _ size v => !v || size == 0
  | .amo _ _ _ _ _ _ op u _ => !u || op == 2 || op == 3
  | .mlrmul _ _ _ tr _ rm rr => rrOk (bit rr) rm tr
  | .mget _ _ _ _ _ tr _ rm rr => rrOk (bit rr) rm tr
  | .recvr _ _ _ _ _ _ rfmt cb clamp => lystilClampOk rfmt (bit cb) clamp
  | .red _ _ _ _ _ rfmt cb clamp => lystilClampOk rfmt (bit cb) clamp
  | .lystilBadop w => decodeLystilLegal w.toNat == none
  | i =>
    match rawOf i with
    | some (.syllable op .vec _ f) =>
      match vecTable.lookup op with
      | some (_, uses) => vecReservedOk uses (vecOps f)
      | none => false
    | some _ => true
    | none => false

/-- The instruction the decoder reads from the bytes of an opcode-table word: up to 64 bits are a Lystil word, up to 128 bits
a syllable; the bits above `nbits` are 0. -/
def decodeTableWord (nbits w : Nat) : Option Instr :=
  if nbits ≤ 64 then some (decodeLystil (BitVec.ofNat 64 (ofLeBytes (leBytes 8 w))))
  else if nbits ≤ 128 then (decodeSyllableNat (ofLeBytes (leBytes 16 w))).toOption
  else none

end Sys2Proof
end

