-- ==== Sys2Proof/Machine/State.lean ====
section
/-!
DEFINITION. The state of the Dziset module as plain data: the registers and the pipeline of each context bank, the
arrays of each core, memory, the launches and queues, the engines, the links and the management controller.
A family of registers or records is a `Tab`: a list of number and value pairs, the numbers rising and no value equal to
what an unlisted number holds.
-/

namespace Sys2Proof.Machine

open Sys2Proof

/-- A table from numbers to values; an unlisted number holds the family's default. -/
abbrev Tab (α : Type) := List (Nat × α)

/-- Why a step of the machine stops with a fault. -/
inductive Fault where
  /-- Raised by an instruction whose operand the spec calls absent from the machine and names no trap for: a core, die,
  port or queue number outside the module. Safe: the machine stops where no such agent exists. -/
  | noSuchAgent
  deriving DecidableEq, Repr

/-- Why a step of the machine refuses an instruction. -/
inductive Refusal where
  /-- The instruction has no meaning in this model yet, by its mnemonic. Raised by `exec` alone. Safe. -/
  | notModelled (mnemonic : String)
  deriving DecidableEq, Repr

/-! ### Registers -/

/-- The families of registers of R3 and R41. -/
inductive Fam where
  | s | a | p | v | q | m | c | t
  deriving DecidableEq, Repr

/-- A register: its family and number. -/
structure RegRef where
  fam : Fam
  idx : Nat
  deriving DecidableEq, Repr

/-- The descriptor of an M name (R159). -/
structure MDesc where
  /-- 0 empty, 1 dense, 2 low-rank -/
  kind : Nat := 0
  fmt : Nat := 0
  scale : Int := 0
  eg : Int := 0
  eh : Int := 0
  rank : Nat := 0
  zp : Nat := 0
  cg : Nat := 15
  ch : Nat := 15
  /-- the 512 group shifts of a BX tile -/
  shifts : Tab Int := []
  /-- the slab of each position -/
  slabs : List Nat := []
  deriving DecidableEq, Repr

/-- A weight plane (R176): its tile as 512-byte positions in the layout of R161. -/
structure Plane where
  fmt : Nat := 2
  scale : Int := 0
  zp : Nat := 0
  shifts : Tab Int := []
  img : Tab VReg := []
  deriving DecidableEq, Repr

/-- Where a parked vector register lies (R167). -/
inductive Place where
  | none
  | slab (k : Nat)
  | row (r : Nat)
  deriving DecidableEq, Repr

/-- The registers of a task (R14). -/
structure Regs where
  s : Tab Word := []
  a : Tab Word := []
  p : Tab Bool := []
  v : Tab VReg := []
  q : Tab QReg := []
  t : Tab TRec := []
  m : Tab MDesc := []
  /-- SB1 to SB6 -/
  sb : Tab Bool := []
  deriving DecidableEq, Repr

/-- The control registers of a task (R26, R97, R207, R234, R368). -/
structure TaskCregs where
  cctl : Word := 0x4004
  cstat : Word := 0
  tol : Word := 0
  seed : Word := 0
  draw : Word := 0
  ctxid : Word := 0
  workId : Word := 0
  workShape : Word := 0
  launchTrec : Word := 0
  taskPrio : Word := 0
  muFva : Word := 0
  muFinfo : Word := 0
  trapPc : Word := 0
  trapScr0 : Word := 0
  trapScr1 : Word := 0
  trapAct : Word := 0
  trapCause : Word := 0
  trapInfo : Word := 0
  trapLatch : Word := 0
  deriving DecidableEq, Repr

/-- The user table of a bank (R145): two copies and the generation that says which is active. -/
structure UserTab where
  copy0 : Tab (BitVec 16) := []
  copy1 : Tab (BitVec 16) := []
  gen : Bool := false
  deriving DecidableEq, Repr

/-- The state of a sector of a mapped region (R242). -/
inductive SecState where
  | inv | fill | clean | dirty
  deriving DecidableEq, Repr

/-- A fill in flight (R242, R243): its sector, the home, whether it lands as INV or not at all (R242, R246), the last operation
that began before it (R268), and the bytes that the home has given so far (R259). -/
structure Fill where
  sec : Nat
  home : Nat
  inv : Bool := false
  after : Nat := 0
  got : List Byte := []
  deriving DecidableEq, Repr

/-- A mapped region (R156). -/
structure Region where
  start : Nat
  len : Nat
  va : Nat
  /-- 0 read-write, 1 read-only, 2 write-only -/
  mode : Nat
  /-- the state of each 4 KiB sector -/
  sec : Tab SecState := []
  fills : List Fill := []
  deriving DecidableEq, Repr

/-! ### Results in flight -/

/-- One write that a result makes when it lands. -/
inductive Write where
  | s (i : Nat) (v : Word)
  | a (i : Nat) (v : Word)
  | p (i : Nat) (v : Bool)
  /-- the bits of `mask` become those of `val` -/
  | v (i : Nat) (mask val : VReg)
  | q (i : Nat) (mask val : QReg)
  | t (i : Nat) (mask val : TRec)
  | m (i : Nat) (d : MDesc)
  /-- CSTAT.SAT is set -/
  | csat
  /-- a SETC of this index with this value -/
  | creg (idx : Nat) (v : Word)
  | slab (k : Nat) (val : VReg)
  /-- slab `k` of name `d`: the bits of `mask` become those of `val` -/
  | slabBits (d k : Nat) (mask val : VReg)
  /-- slabs taken at issue hold the new contents from here on -/
  | slabsHeld (l : List Nat)
  /-- slabs return to the pool -/
  | slabsFree (l : List Nat)
  /-- the rows of a tile are marked free (R191) -/
  | freeTile (c : Nat)
  /-- Vk lies parked at its place, with its contents (R157) -/
  | park (k : Nat) (place : Place) (val : VReg)
  /-- accumulator row: the bits of `mask` become those of `val` -/
  | acc (row : Nat) (mask val : VReg)
  /-- accumulator row: every element of `mask` becomes sat(old + term), CSTAT.SAT when limited -/
  | accAdd (row : Nat) (mask : VReg) (terms : List Int)
  /-- the shadow plane -/
  | plane (pl : Plane)
  /-- the planes change places -/
  | swap
  /-- bytes of the core's own scratchpad, at their physical address -/
  | mem (addr : Nat) (bytes : List Byte)
  /-- bytes that a write-back performs at a home address -/
  | home (addr : Nat) (bytes : List Byte)
  /-- a byte of the core's own scratchpad: the bits of `mask` become those of `val` -/
  | memBits (addr : Nat) (mask val : Byte)
  /-- words that several writes of one store cover whole lose their error (R378) -/
  | clean (words : List Nat)
  /-- the inactive copy of the user table becomes active (R145) -/
  | activate
  /-- Vk is readable again and its place free (R157) -/
  | unpark (k : Nat) (place : Place)
  /-- region n is mapped or unmapped (R156) -/
  | region (n : Nat) (r : Option Region)
  /-- entries leave the translation cache (R118) -/
  | muinv (mode ctx va : Nat)
  /-- a scoreboard entry clears (R73) -/
  | sbClear (n : Nat)
  deriving DecidableEq, Repr

/-- A fixed-latency result in flight: it lands at the end of schedule cycle `due` (R37). -/
structure Pending where
  due : Nat
  slot : Nat
  /-- order of issue, which decides between writes of one cycle and slot (R40) -/
  seq : Nat
  /-- the number of the bundle that issued it (R41) -/
  bundle : Nat
  /-- the number of the segment instance that issued it (R358) -/
  segNo : Nat
  /-- a delivery or entry latch put back in flight (R357, R367) -/
  latch : Bool := false
  /-- the unit of a mismatch that its checker will find in it at its write cycle, and whether it is uncorrectable (R353, R384) -/
  check : Option (Nat × Bool) := none
  writes : List Write
  deriving DecidableEq, Repr

/-- The kinds of variable-latency operation (R38). -/
inductive VarKind where
  | xlut
  | xlutld
  | tldScratch
  | tldGlobal
  | ldg
  | amo
  | mrecomp
  /-- a write-back of a captured sector (R244) -/
  | writeback
  /-- a job, schedule or launch that an accepted push started; its token is `reg` -/
  | push
  /-- the follow-on of card `k` of engine `e` (R302) -/
  | follow (e k : Nat)
  deriving DecidableEq, Repr

/-- A variable-latency operation outstanding (R38, R41). -/
structure VarOp where
  id : Nat
  kind : VarKind
  /-- the syllable's address, for a trap reported at completion (R158, R189) -/
  pc : Nat
  slot : Nat
  bundle : Nat
  segNo : Nat
  /-- order of issue (R40) -/
  seq : Nat := 0
  /-- SBSET entry, 0 none -/
  sb : Nat
  /-- the core cycles from which it may complete and by which it must -/
  earliest : Nat
  latest : Option Nat
  /-- the register it will write -/
  reg : Option RegRef
  /-- what it writes at completion, once known -/
  writes : Option (List Write)
  /-- a trap it reports at the first boundary after completion: cause and TRAP.INFO -/
  late : Option (Nat × Word)
  /-- its register writes are dropped (R358) -/
  dropped : Bool := false
  /-- a write-back that a PHASE or END captured and its segment's commit has not released (R355); its region and sector -/
  kept : Bool := false
  sec : Option (Nat × Nat) := none
  deriving DecidableEq, Repr

/-- What a direct-queue entry does at the home (R248). -/
inductive DirectKind where
  | ldg | stg | amo | tld
  deriving DecidableEq, Repr

/-- The point of a task behind whose own earlier results a job, a flag store or what follows them is ordered (R271, R342, R348):
core, launch, identifier, and the number of the bundle. -/
structure Since where
  core : Nat
  launch : Nat
  wid : Nat
  bundle : Nat
  deriving DecidableEq, Repr

/-- An entry of a core's direct queue (R248). -/
structure Direct where
  bank : Nat
  /-- the bundle that issued it -/
  bundle : Nat := 0
  /-- the context and the mode it is translated in -/
  ctx : Nat
  task : Bool
  kind : DirectKind
  va : Nat
  len : Nat
  /-- bytes of an STG -/
  bytes : List Byte
  /-- AMO: operation, U, operand, expected value -/
  op : Nat
  uns : Bool
  operand : Word
  expected : Word
  sx : Bool
  /-- the register that receives the value -/
  reg : RegRef
  /-- the variable-latency operation it completes -/
  varId : Nat
  /-- a fault has stopped it and its bank's later entries -/
  faulted : Bool := false
  /-- the home ranges that its translation gave, once it has begun; how many of their 64-byte units have been performed, and
  the bytes that a load has read (R259) -/
  homes : List (Nat × Nat) := []
  done : Nat := 0
  got : List Byte := []
  /-- its task is gone, and the launch that it was of; what had committed is still performed (R382) -/
  orphan : Bool := false
  launch : Nat := 0
  deriving DecidableEq, Repr

/-- A trap: its cause, the reported syllable and operand, and TRAP.INFO (R368). -/
structure Trap where
  cause : Nat
  info : Word := 0
  slot : Nat := 0
  /-- TRAP.CAUSE.FAM and REG; 8 none -/
  fam : Nat := 8
  reg : Nat := 0
  short : Nat := 0
  /-- an entry of the context's tables held an uncorrectable error (R379) -/
  table : Bool := false
  /-- a link stall: the home address, the bytes and the class of the access that meets it (R392) -/
  need : Option (Nat × Nat × Nat) := none
  deriving DecidableEq, Repr

/-- Why a bank holds (R35, R109, R110, R153, R180, R193, R225, R243, R248, R370). -/
inductive Why where
  | wait
  | phase
  | rendezvous
  | chain
  | fill
  | decoder
  | directFull
  | pushFull
  | ramp
  | fault
  | linkStall
  /-- its segment is being expanded (R85) -/
  | fetch
  deriving DecidableEq, Repr

/-- What the last syllable issued in this step did (the model's own record). -/
inductive SylRes where
  | went
  | trapped (t : Trap)
  | stalled
  | held (w : Why)
  deriving DecidableEq, Repr

/-- A location of R361. -/
inductive Loc where
  | v (i : Nat)
  | slab (k : Nat)
  /-- 64-byte unit of scratchpad -/
  | unit (u : Nat)
  | accRow (r : Nat)
  | plane (p : Nat)
  deriving DecidableEq, Repr

/-- An offer of a command to an engine (R192 to R194, R276): the syllable's slot, token register, engine, command, the
predicate for queue-full, whether it is PUSHQ, the number of its pending write, SEED as it stands for the bundle; a PUSHQ
that has waited. -/
structure Offer where
  slot : Nat
  tok : Nat
  eng : Nat
  cmd : List Byte
  full : Nat
  q : Bool
  varId : Nat
  seed : Word
  /-- the bundle of the push -/
  bundle : Nat := 0
  waited : Bool := false
  deriving DecidableEq, Repr

/-- What the segment will release at commit (R355); a YIELD makes its end a suspension point (R107). -/
inductive Release where
  | direct (d : Direct)
  | push (o : Offer)
  | phase (scope : Nat) (y : Bool)
  | yield
  deriving DecidableEq, Repr

/-- The segment that executes (R79, R81). -/
structure Seg where
  /-- syllable address of its SEGH -/
  addr : Nat
  hdr : SegHdr
  /-- number of the next bundle -/
  idx : Nat
  deriving DecidableEq, Repr

/-- Where control goes after a bundle. -/
inductive Ctl where
  /-- a taken transfer to this syllable address -/
  | jump (target : Nat)
  /-- YIELD: the segment ends, control goes to NEXT -/
  | yield
  /-- END -/
  | finish
  /-- ERET -/
  | eret
  deriving DecidableEq, Repr

/-- What the syllables of the bundle being issued have done so far. -/
structure IssueCtx where
  /-- destinations of true-predicate syllables, with the slot (R41) -/
  dests : List (Nat × RegRef) := []
  /-- locations this bundle writes, with the slot (R361) -/
  locW : List (Nat × Loc) := []
  /-- stochastic counters taken (R67) -/
  draws : Nat := 0
  ctl : Option Ctl := none
  releases : List Release := []
  /-- TRAP: the code to report at the next boundary -/
  trapAfter : Option Trap := none
  /-- syllables of the bundle that come before the one that issues -/
  place : Nat := 0
  /-- divides of the bundle (R39) -/
  divs : Nat := 0
  /-- counted instructions of the bundle (R225) -/
  counted : Nat := 0
  res : SylRes := .went
  deriving DecidableEq, Repr

/-- The segment-entry state (R356) and what a rewind needs beside it (R357, R361, R363). -/
structure Entry where
  regs : Regs
  cctl : Word
  cstat : Word
  tol : Word
  seed : Word
  draw : Word
  parked : Tab Place
  regions : Tab (Option Region)
  gen : Bool
  activePlane : Bool
  accFree : Tab Bool
  /-- the rewind point and its segment -/
  pc : Nat
  seg : Option Seg
  /-- the schedule cycle of the rewind point, and those from which X, the divider, L and the array are free (R39, R151, R179) -/
  clk : Nat
  xFree : Nat := 0
  divFree : Nat := 0
  lFree : Nat := 0
  arrayBusy : Nat := 0
  /-- RDVs passed per group and chained instructions issued before it (R180, R221) -/
  rdvs : Tab Nat := []
  chains : Nat := 0
  /-- fixed-latency results that were in flight at the rewind point -/
  latches : List Pending
  /-- the number of the last variable-latency operation before the rewind point, and of the first bundle after it -/
  vars : Nat := 0
  bundle : Nat := 0
  deriving DecidableEq, Repr

/-- A write of the core cycle that has just passed: its slot and order of issue, the register, and what a vector register held
before the writes of that cycle (R40, R123). -/
structure Landing where
  slot : Nat
  seq : Nat
  reg : RegRef
  old : VReg := 0
  deriving DecidableEq, Repr

/-- The pipeline of a bank (R35 to R41, R361 to R364). -/
structure Pipe where
  /-- the schedule clock: the cycle in which the next bundle would issue -/
  clk : Nat := 0
  /-- the first schedule cycle in which it may -/
  nextIssue : Nat := 0
  /-- numbers of issue -/
  seq : Nat := 0
  bundle : Nat := 0
  segNo : Nat := 0
  pend : List Pending := []
  vars : List VarOp := []
  /-- the schedule cycles from which X, the divider and L are free (R39, R151) -/
  xFree : Nat := 0
  divFree : Nat := 0
  /-- the schedule cycle in which the divider took the first of two divides of the bundle that is next to issue (R39) -/
  divAt : Option Nat := none
  lFree : Nat := 0
  /-- delivery latches: results with their remaining counts (R365) -/
  latches : List Pending := []
  ctx : IssueCtx := {}
  /-- a segment that has ended and not committed: its number and what it releases -/
  commit : Option (Nat × List Release) := none
  /-- locations read at their entry value, and written, in the segment -/
  locR : List Loc := []
  locW : List Loc := []
  /-- the rewind journal: accumulator rows with their entry values -/
  journal : List (Nat × VReg) := []
  unrewindable : Bool := false
  /-- accumulator rows that a result of the entry latches has added to, as they stood at the rewind point (R357, R358) -/
  early : List (Nat × VReg) := []
  /-- rewinds in a row at one rewind point, and its address; the result that was replayed last and how often (R354, R360) -/
  rewinds : Nat := 0
  rewoundAt : Nat := 0
  replayed : Nat × Nat := (0, 0)
  entry : Option Entry := none
  /-- traps to take at the next boundary: the software trap, faults of direct accesses, what operations report at completion
  (R364) -/
  late : List Trap := []
  /-- the core cycle of the last schedule cycle; the register writes of one core cycle, and that cycle (R40) -/
  tick : Nat := 0
  landed : List Landing := []
  landedAt : Nat := 0
  /-- mismatches found and not yet answered: the unit, whether it is uncorrectable, and the result when its segment had
  committed (R354) -/
  mismatch : List (Nat × Bool × Option Nat) := []
  /-- cycles held by the bundle that is next to issue, and the scoreboard entries that it waits for -/
  held : Nat := 0
  waits : List Nat := []
  deriving DecidableEq, Repr

/-- What a member of a gang offers to a chain operation (R180): its format and count, and for the head the rows, their
zero point and their group shifts. -/
structure ChainInfo where
  fmt : Nat := 0
  cnt : Nat := 0
  zp : Nat := 0
  rows : List VReg := []
  shifts : List Int := []
  deriving DecidableEq, Repr

/-- The states of a task in a bank (R214). -/
inductive TState where
  | empty
  | ready
  | running
  | blocked (w : Why)
  deriving DecidableEq, Repr

/-- The task in a bank (R205 to R221). -/
structure Task where
  launch : Nat := 0
  wid : Nat := 0
  /-- the cores of the gang from the west, and the first of its identifiers -/
  gang : List Nat := []
  gid : Nat := 0
  /-- arrivals per phase scope, RDVs passed per group, chained instructions (R219, R221, R180) -/
  arrivals : Tab Nat := []
  rdvs : Tab Nat := []
  /-- group of the RDV at which it has arrived and holds (R110) -/
  rdvAt : Option Nat := none
  chains : Nat := 0
  /-- the chained instruction at which it has arrived and holds, and those that it has issued, by number (R180) -/
  chainAt : Option ChainInfo := none
  chainLog : List (Nat × ChainInfo) := []
  /-- phase waited for: scope and number -/
  waitPhase : Option (Nat × Nat) := none
  /-- cycles Queued or Ready without issue (R216) -/
  waited : Nat := 0
  /-- the watchdog count, and whether it has raised its trap since the last commit (R369) -/
  wdog : Nat := 0
  barked : Bool := false
  /-- cycles since it last became Blocked at a PHASE or an RDV (R217) -/
  blocked : Nat := 0
  /-- it is to be written out as a continuation record (R212) -/
  suspend : Bool := false
  /-- cycles since it last became Running (R211) -/
  slice : Nat := 0
  /-- END has issued; the task is complete when nothing is outstanding (R108) -/
  ending : Bool := false
  /-- it has issued a bundle (R223) -/
  issued : Bool := false
  /-- its save has begun: it issues nothing, and waits for its queue entries or for the answer to a fault (R247, R374) -/
  saving : Bool := false
  /-- a kill takes effect at the next boundary, with this cause (R382) -/
  kill : Option Nat := none
  deriving DecidableEq, Repr

/-- A context bank. -/
structure Bank where
  regs : Regs := {}
  cregs : TaskCregs := {}
  user : UserTab := {}
  parked : Tab Place := []
  regions : Tab (Option Region) := []
  /-- syllable address of the next bundle -/
  pc : Nat := 0
  seg : Option Seg := none
  /-- the segment a trap left, and the boundary it recorded, for the return (R367) -/
  trapSeg : Option Seg := none
  trapAt : Nat := 0
  monitor : Bool := false
  /-- TRAP.ACT.KILL was set by an uncorrectable error and cannot be cleared (R366) -/
  stuck : Bool := false
  pipe : Pipe := {}
  state : TState := .empty
  task : Task := {}
  deriving DecidableEq, Repr

/-! ### A core -/

/-- A leaf translation in a map unit's cache (R237). -/
structure TlbEntry where
  ctx : Nat
  large : Bool
  /-- VA[54:16], or VA[54:29] of a large page -/
  page : Nat
  /-- home address of the leaf entry, and the entry as loaded -/
  pte : Nat
  entry : Nat
  deriving DecidableEq, Repr

/-- A walk-cache entry: the table that level `lvl` of this address prefix leads to; level 3 is the context entry. -/
structure WalkEntry where
  ctx : Nat
  lvl : Nat
  index : Nat
  table : Nat
  deriving DecidableEq, Repr

/-- The error log of one array (R383). -/
structure Elog where
  uncorrectable : Nat := 0
  corrected : Nat := 0
  addr : Nat := 0
  syn : Nat := 0
  ctx : Nat := 0
  deriving DecidableEq, Repr

/-- The privileged registers of a core (R368, R383, R384, R397, R207, R308). -/
structure CoreCregs where
  tvb : Word := 0
  wdog : Word := 0
  csaBase : Word := 0
  elogSel : Word := 0
  einjCtl : Word := 0
  einjAddr : Word := 0
  linkSel : Word := 0
  accPart : Word := 0x400
  cpeDraw0 : Word := 0
  cpeDraw1 : Word := 0
  cpeRload0 : Word := 0
  cpeRload1 : Word := 0
  deriving DecidableEq, Repr

/-- An entry of a core's run queue (R209, R214). -/
inductive QEntry where
  /-- a new identifier, with its gang's cores and first identifier -/
  | fresh (launch wid : Nat) (gang : List Nat) (gid prio waited : Nat)
  /-- a continuation record -/
  | record (launch wid pc prio waited : Nat) (live : List Word)
  /-- a saved context whose cause has resolved: its save area -/
  | saved (k prio waited : Nat)
  deriving DecidableEq, Repr

/-- A saved context (R374 to R377): its save area, the task with what the area's layout does not give to the bit, and what
has been written out lazily. -/
structure Saved where
  /-- the area's number and physical address, the save's sequence number, the bank it was saved from -/
  area : Nat
  addr : Nat
  seq : Nat
  bankNo : Nat
  bank : Bank
  /-- slabs that have been written out -/
  slabsOut : List Nat := []
  /-- the accumulator tiles of its partition with their free marks, and those written out -/
  tiles : List Nat := []
  free : Tab Bool := []
  tilesOut : List Nat := []
  /-- the planes once they have been written out, and which was active -/
  planes : Option (Plane × Plane) := none
  active : Bool := false
  /-- the save waits for the task's cause: it is queued once this is none -/
  why : Option Why := none
  /-- entries of the direct queue that a fault had stopped -/
  entries : List Direct := []
  deriving DecidableEq, Repr

/-! ### Copy engines -/

/-- A LOOP entry that a chain has reached (R299, R300): its index and target, its count of iterations, and what each
iteration adds to SRC and DST. -/
structure ChainLoop where
  idx : Nat
  target : Nat
  count : Nat
  sadv : Int
  dadv : Int
  deriving DecidableEq, Repr

/-- A card of a copy engine (R275 to R287, R298 to R302): what it captured at its acceptance, and how far its job is. -/
structure Card where
  k : Nat := 0
  cmd : List Byte := []
  ctx : Nat := 0
  seed : Word := 0
  /-- the pushing task: its bank, launch and identifier; token register and variable-latency operation -/
  bank : Nat := 0
  launch : Nat := 0
  wid : Nat := 0
  tok : Nat := 0
  varId : Nat := 0
  /-- the bundle of the push (R271) -/
  bundle : Nat := 0
  /-- a 64-byte unit that its checker has repeated once (R354) -/
  repeated : Bool := false
  /-- earlier cards it depends on: engine and number -/
  deps : List (Nat × Nat) := []
  started : Bool := false
  /-- the engine's draw count at its start (R293) -/
  draw : Nat := 0
  /-- elements, rows or bytes moved; compressed bytes read -/
  pos : Nat := 0
  /-- COUNT and IDX of the token, and its SAT bit -/
  count : Nat := 0
  idx : Nat := 0
  sat : Bool := false
  /-- the status once every write of the job has been performed -/
  status : Option Nat := none
  /-- the follow-on has been issued or dropped (R302) -/
  followed : Bool := false
  /-- a page fault: virtual address, access code and fault code; it waits for an answer once it is posted -/
  fault : Option (Nat × Nat × Nat) := none
  posted : Bool := false
  /-- CHAIN: the entry reached, the LOOPs met, and whether the entry's command runs -/
  entry : Nat := 0
  loops : List ChainLoop := []
  /-- XFORM: the copy of the routine store it runs on -/
  copy : Bool := false
  /-- DECODE: its stream has not ended (R296) -/
  stream : Bool := false
  /-- the command that runs: the card's own, or the chain's entry as adjusted -/
  cur : List Byte := []
  moving : Bool := false
  /-- the core set of the pusher's launch (R278) -/
  cmask : Nat := 0
  dmask : Nat := 0
  /-- bytes read of a unit and not yet used; bytes converted and not yet written; the same of AUX, indices or residues (R259) -/
  rd : List Byte := []
  wr : List Byte := []
  aux : List Byte := []
  deriving DecidableEq, Repr

/-- A microcore (R303 to R306): its registers and memories, and the job it runs. -/
structure Micro where
  /-- the card of the running job -/
  job : Option Nat := none
  pc : Nat := 0
  x : Tab Word := []
  v : Tab (BitVec 512) := []
  vl : Word := 0
  vtype : Word := 0x8000000000000000
  vstart : Word := 0
  vcsr : Word := 0
  cycle : Nat := 0
  instret : Nat := 0
  in0 : Tab Byte := []
  in1 : Tab Byte := []
  obuf : Tab Byte := []
  localMem : Tab Byte := []
  /-- XF.INEED as written, the landed end, and whether a write of it holds the microcore -/
  ineed : Nat := 0
  landed : Nat := 0
  ifree : Nat := 0
  omark : Nat := 0
  odrain : Nat := 0
  /-- a write of XF.INEED or XF.OMARK that holds the microcore: the value awaited -/
  needHold : Option Nat := none
  markHold : Option Nat := none
  /-- IN1 is loaded and the routine runs -/
  live : Bool := false
  /-- the exit code once the routine has ended -/
  exit : Option Nat := none
  deriving DecidableEq, Repr

/-- A copy engine of a core (R275, R296, R307). -/
structure Engine where
  cards : List Card := []
  next : Nat := 0
  /-- the decoder queue, oldest first, and the two copies of the dictionary -/
  decq : List VReg := []
  dict0 : List Byte := []
  dict1 : List Byte := []
  dictGen : Bool := false
  /-- the routine store: two copies, the active generation, a load in progress, copies that hold an error -/
  store0 : Tab Byte := []
  store1 : Tab Byte := []
  gen : Bool := false
  loading : Bool := false
  /-- the address that the load in progress captured when it started -/
  loadFrom : Nat := 0
  bad0 : Bool := false
  bad1 : Bool := false
  micro : Micro := {}
  deriving DecidableEq, Repr

/-- A core (R2, R14). -/
structure Core where
  bank0 : Bank := {}
  bank1 : Bank := {}
  /-- the bank that issues, and whether it has ended a segment and not begun another (R211) -/
  cur : Nat := 0
  turn : Bool := false
  /-- CYCLE -/
  cycle : Nat := 0
  /-- accumulator rows c * 128 + i, and which are marked free -/
  acc : Tab VReg := []
  accFree : Tab Bool := []
  slabs : Tab VReg := []
  /-- 0 free, 1 taken, 2 taken by an operation in flight -/
  slabUse : Tab Nat := []
  plane0 : Plane := {}
  plane1 : Plane := {}
  /-- false: plane 0 is the active plane -/
  active : Bool := false
  /-- schedule cycles for which the array is still busy, and the bank whose instruction it is (R179) -/
  arrayBusy : Nat := 0
  arrayBank : Nat := 0
  cregs : CoreCregs := {}
  elog : Tab Elog := []
  direct : List Direct := []
  cpe0 : Engine := {}
  cpe1 : Engine := {}
  varNext : Nat := 0
  runQ : List QEntry := []
  saved : List Saved := []
  /-- save areas in use, and the next sequence number -/
  saveSeq : Nat := 0
  /-- cycles for which both banks have been blocked (R217) -/
  bothBlocked : Nat := 0
  /-- RAMPQ: bundles inserted, counted instructions of this window and of the last, the number of this window (R225) -/
  rampIns : Nat := 0
  rampCount : Nat := 0
  rampPrev : Nat := 0
  rampWin : Nat := 0
  /-- leaf translations cached by the map unit, oldest last (R237) -/
  tlb : List TlbEntry := []
  /-- walk-cache and context entries (R237) -/
  walk : List WalkEntry := []
  /-- the segments in the two halves of the loop buffer, by launch and address, with the core cycle from which each stands
  whole; and the half that executes (R85) -/
  loop0 : Option (Nat × Nat × Nat) := none
  loop1 : Option (Nat × Nat × Nat) := none
  loopAt : Nat := 0
  /-- the speculative address registers of the bank that issues, where they differ from the architectural ones, and the bundle
  they have reached (R44) -/
  spec : Tab (Option Word) := []
  specPc : Option Nat := none
  /-- write-backs of killed tasks that had committed and are still to be performed, with the launch of each (R382) -/
  orphans : List (Nat × VarOp) := []
  /-- errors in the loop buffer, the routine stores and, on the first core of a die, the tile table, that nothing has read yet: the
  array (R383), the byte offset, whether two bits are wrong -/
  upsets : List (Nat × Nat × Bool) := []
  deriving DecidableEq, Repr

/-! ### Launches -/

/-- A nest record as read at the launch's start (R203). -/
structure Nest where
  entry : Nat := 0
  /-- W0 to W5, and the bounds -/
  widths : List Nat := []
  bounds : List Nat := []
  order : List Nat := []
  gang : Nat := 1
  prio : Nat := 0
  pcap : Nat := 0
  plvl : Nat := 0
  crec : Bool := false
  mph : Bool := false
  accn : Nat := 0
  cmask : Nat := 0
  dmask : Nat := 0
  trec : Nat := 0
  spplan : Nat := 0
  arg : Nat := 0
  spbanks : Nat := 0
  spbase : Nat := 0
  deriving DecidableEq, Repr

/-- Who started a launch (R222, R224). -/
inductive Source where
  /-- an entry of a front-end queue -/
  | queue (q n : Nat)
  /-- a push: the core of the pushing task, its variable-latency operation and its token register -/
  | push (core varId tok : Nat)
  deriving DecidableEq, Repr

/-- A running launch (R205, R209, R219, R222). -/
structure Launch where
  nest : Nest := {}
  ctx : Nat := 0
  argo : Nat := 0
  source : Source := .queue 0 0
  /-- the launch whose task spawned it -/
  parent : Option Nat := none
  /-- priority of the front-end queue it descends from, and the order of its start -/
  qprio : Nat := 0
  order : Nat := 0
  /-- code memory and MU.CTXTAB as they stood at its start (R86) -/
  snap : List Host.Cell := []
  snapCtx : Word := 0
  /-- identifiers handed out; none further when cancelled -/
  next : Nat := 0
  cancelled : Bool := false
  /-- the die that takes the party being placed (R209) -/
  die : Option Nat := none
  /-- identifiers ended, killed or cancelled -/
  ended : List Nat := []
  /-- arrivals of each identifier at each scope: key wid * 8 + scope -/
  arrivals : Tab Nat := []
  /-- tasks that exist: queued, resident, recorded or saved; tasks started -/
  live : Nat := 0
  started : Nat := 0
  /-- engine jobs its tasks have pushed and that run -/
  jobs : Nat := 0
  killed : Nat := 0
  firstCause : Nat := 0
  deriving DecidableEq, Repr

/-- A command in the Rambler's task queue of a die (R224). -/
structure Spawn where
  core : Nat
  bank : Nat
  varId : Nat
  tok : Nat
  launch : Nat
  cmd : List Byte
  ctx : Nat
  pcap : Nat
  qprio : Nat
  deriving DecidableEq, Repr

/-- A continuation record in a die's store (R212): its place among the store's 64-byte slots, the task it continues, and
the phase it waits for; the 64 bytes themselves lie in memory. -/
structure Record where
  slot : Nat
  /-- the order in which records were written -/
  order : Nat
  launch : Nat
  wid : Nat
  prio : Nat
  wait : Option (Nat × Nat)
  deriving DecidableEq, Repr

/-- A started entry of a front-end queue (R222). -/
structure FeEntry where
  n : Nat
  typ : Nat
  dsig : Bool
  dev : Nat
  opnd : Nat
  addr : Nat
  argo : Nat
  ctx : Nat
  /-- LAUNCH: the launch that it started; 0 until the Rambler has accepted its nest -/
  ref : Nat
  deriving DecidableEq, Repr

/-- A launch queue of the front end (R222, R402). -/
structure FeQueue where
  base : Nat := 0
  size : Nat := 0
  prio : Nat := 0
  running : Bool := false
  head : Nat := 0
  tail : Nat := 0
  entries : List FeEntry := []
  deriving DecidableEq, Repr

/-! ### The module's registers -/

/-- The module-scope control registers (R207, R234). -/
structure ModCregs where
  rampStep : Word := 0x10106
  /-- the value RAMP.STEP takes after a window (R225) -/
  rampNext : Option (Word × Nat) := none
  muCtxtab : Word := 0
  sweepCtl : Word := 0
  sweepQbase : Word := 0
  sweepHead : Word := 0
  sweepTail : Word := 0
  migQbase : Word := 0
  migTail : Word := 0
  migHead : Word := 0
  deriving DecidableEq, Repr

/-- Who waits for the answer to a fault record (R372). -/
inductive Requester where
  | none
  /-- a bank's task: its launch and identifier -/
  | bank (c b launch wid : Nat)
  | card (c e k : Nat)
  /-- a schedule thread at its own fetch or read -/
  | thread (die t : Nat)
  /-- an operation of a collective engine -/
  | op (die id : Nat)
  /-- the Rambler, reading the nest of this queue entry or spawn -/
  | nest (src : Nat)
  deriving DecidableEq, Repr

/-- A fault record (R372). -/
structure FltRec where
  kind : Nat
  info : Nat
  ctx : Nat
  addr : Nat
  core : Nat
  unit : Nat
  deriving DecidableEq, Repr

/-- The fault ring of a die (R371, R372). -/
structure FltRing where
  base : Word := 0
  head : Nat := 0
  tail : Nat := 0
  /-- posted and not answered: SEQ, and who asked -/
  pending : List (Nat × Requester) := []
  /-- found the ring full, in order -/
  waiting : List (FltRec × Requester) := []
  deriving DecidableEq, Repr

/-! ### The collective engine (R310 to R347) -/

/-- A chunk register (R321). -/
structure Chunk where
  addr : Word := 0
  rlen : Nat := 0
  nrow : Nat := 0
  rstr : Nat := 0
  deriving DecidableEq, Repr

/-- The asynchronous operations of an engine (R314). -/
inductive LKind where
  | send | recv | recvr | copy | red | fire
  /-- the landing of a fire from a peer -/
  | land
  deriving DecidableEq, Repr

/-- A reduction or a plain write (R317, R339). -/
structure RedOp where
  rop : Nat := 3
  rfmt : Nat := 0
  clamp : Option Nat := none
  deriving DecidableEq, Repr

/-- An asynchronous operation in flight (R314, R328). -/
structure LOp where
  id : Nat
  /-- `none`: an automatic fire of a tile -/
  thread : Option Nat
  kind : LKind
  ctx : Nat
  /-- group slot, member number of the other end, number on its channel -/
  gs : Nat := 0
  peer : Nat := 0
  seq : Nat := 0
  dst : Chunk := {}
  src : Chunk := {}
  ctr : Nat := 0
  cn : Bool := false
  /-- the word index of its instruction -/
  idx : Nat := 0
  red : RedOp := {}
  tile : Nat := 0
  /-- stream bytes moved; the bytes of a transfer that has arrived -/
  pos : Nat := 0
  data : Option (List Byte) := none
  readDone : Bool := false
  /-- every byte has been performed -/
  moved : Bool := false
  /-- an unanswered page fault: virtual address, access, kind -/
  fault : Option (Nat × Nat × Nat) := none
  posted : Bool := false
  /-- what its reads are ordered behind (R271, R342, R348) -/
  since : List Since := []
  /-- a 64-byte unit that its checker has repeated once (R354) -/
  repeated : Bool := false
  /-- bytes read of a unit and not yet written or reduced (R259) -/
  ahead : List Byte := []
  deriving DecidableEq, Repr

/-- Who started a schedule (R311). -/
inductive LSource where
  /-- core, bank, launch, identifier, variable-latency operation, token register and bundle -/
  | push (core bank launch wid varId tok bundle : Nat)
  /-- an entry of a front-end queue -/
  | sched (q n : Nat)
  deriving DecidableEq, Repr

/-- An accepted start (R311, R312). -/
structure LStart where
  thread : Nat
  ctx : Nat
  block : List Byte
  src : LSource
  deriving DecidableEq, Repr

/-- What a thread does (R314, R329). -/
inductive LSt where
  | idle
  | ready
  /-- an armed WAIT: counter, threshold, order of arming -/
  | waitCtr (ctr thr order : Nat)
  | waitFlag (tile : Nat)
  /-- a page fault of its own fetch or read waits for an answer -/
  | faulted
  /-- it ends with this status once its operations are settled -/
  | ending (status : Nat)
  deriving DecidableEq, Repr

/-- A schedule thread (R310, R313). -/
structure LThread where
  st : LSt := .idle
  start : Option LStart := none
  /-- word index of the next instruction -/
  pos : Nat := 0
  /-- word index of the last instruction issued; it holds at the next one -/
  last : Nat := 0
  held : Bool := false
  count : Nat := 0
  sat : Bool := false
  chunks : Tab Chunk := []
  loops : Tab Nat := []
  /-- slots that the schedule has used -/
  used : List Nat := []
  /-- SIG.ALLs whose ALLDONE has not been raised: group slot and number -/
  alls : List (Nat × Nat) := []
  /-- GFREE has sent its drain markers -/
  draining : Bool := false
  /-- what its reads are ordered behind: its push, the stores that released its TWAITs (R271, R348) -/
  since : List Since := []
  /-- operations that have left the engine with remote writes to be acknowledged (R272) -/
  owed : List Nat := []
  /-- the word at which it holds, as it was read when the thread reached it (R313) -/
  kept : Option Word := none
  deriving DecidableEq, Repr

/-- A joined group (R336 to R338). -/
structure Group where
  gid : Nat
  inc : Nat
  ctx : Nat
  /-- module and die of each member -/
  members : List (Nat × Nat)
  self : Nat
  /-- transfers issued to and from each member -/
  sends : Tab Nat := []
  recvs : Tab Nat := []
  /-- SIG.ALLs issued here, done markers held of each member -/
  alls : Nat := 0
  dones : Tab Nat := []
  /-- members whose drain marker has arrived, members that have failed -/
  drains : List Nat := []
  failed : List Nat := []
  deriving DecidableEq, Repr

/-- The collective engine of a die (R310). -/
structure Cle where
  threads : Tab LThread := []
  startQ : List LStart := []
  counters : Tab Nat := []
  groups : Tab (Option Group) := []
  tiles : Tab (BitVec 256) := []
  /-- 8-byte words of the tile table that hold an uncorrectable error -/
  tileBad : Tab Bool := []
  flags : Tab Word := []
  /-- the task's store that a flag holds (R348) -/
  flagBy : Tab (Option Since) := []
  /-- the value that a pending fire's last store left, by tile: one more fire starts after the read-done (R341) -/
  again : Tab Word := []
  againBy : Tab (Option Since) := []
  ops : List LOp := []
  opNext : Nat := 0
  /-- the last freed incarnation of each identifier; 0xFF at reset -/
  incs : Tab Nat := []
  early : List Packet := []
  inbox : List Packet := []
  /-- additions on their way to a counter -/
  adds : List (Nat × Nat) := []
  stale : Nat := 0
  drops : Nat := 0
  dropSat : Bool := false
  dropTile : Nat := 0
  arb : Word := 0x0101010101010101
  armNext : Nat := 0
  /-- threads released together, in firing order; the last thread of the round -/
  fired : List Nat := []
  last : Nat := 7
  deriving DecidableEq, Repr

/-- A byte that a job or a collective operation has written and may also read (R283, R326): the job, by core, engine and card
(engine 2 and an operation for a collective engine), where the byte lies and what it held before. -/
structure LapByte where
  c : Nat
  e : Nat
  k : Nat
  at_ : Nat
  old : Byte
  deriving DecidableEq, Repr

/-! ### Links (R385 to R400) -/

/-- The states of a port (R389). -/
inductive PortSt where
  | up | restripe | retrain | down
  deriving DecidableEq, Repr

/-- A piece of a drawer transfer that waits for a slot (R393 to R395): its class, its group, whose it is (0 another
requester, 1 the collective engine, 2 a copy engine of the group's die), its bytes. -/
structure Piece where
  cls : Nat
  group : Nat
  family : Nat
  bytes : Nat
  deriving DecidableEq, Repr

/-- A remote write packet being received (R409): its header's fields and the bytes still to come. -/
structure RPacket where
  addr : Nat
  count : Nat
  src : Nat
  cls : Nat
  ctx : Nat
  got : List Byte := []
  /-- bytes that have been performed -/
  done : Nat := 0
  deriving DecidableEq, Repr

/-- A packet of a remote write on its way (R409): the engine's job that it belongs to (core, engine, card; engine 2 and an
operation for a collective engine), the module and address it goes to, its class, context and bytes; one without bytes is
an acknowledgement. -/
structure OutPacket where
  c : Nat := 0
  e : Nat := 0
  k : Nat := 0
  dst : Nat
  addr : Nat
  cls : Nat
  ctx : Nat
  bytes : List Byte
  /-- the engine family and die that it is data of (R347); 0 another requester -/
  family : Nat := 0
  group : Nat := 0
  /-- data of a packet between collective engines: its 64-byte units, and with the last of them the packet and the die that it
  goes to -/
  units : Nat := 0
  body : Option (Nat × Packet) := none
  /-- the virtual channel of its ring (R399) -/
  vc : Nat := 0
  deriving DecidableEq, Repr

/-- A photonic port (R385 to R397, R400). -/
structure Port where
  /-- the state of its transmit direction and of its receive direction -/
  st : PortSt := .up
  rx : PortSt := .up
  /-- active and permitted wavelengths of the transmit direction, those that the receiver is locked on, and those of the saved
  calibration (R404) -/
  mask : Nat := 0xFFFF
  permit : Nat := 0xFFFF
  rxMask : Nat := 0xFFFF
  cal : Nat := 0xFFFF
  /-- bytes put on the transmit stream, and flits of which a byte went on a dark wavelength (R387, R390) -/
  stream : Nat := 0
  darkFlits : Nat := 0
  /-- the mask of the last RESTRIPE flit, the RESTRIPE flits not yet acknowledged, and a loss of light since the port entered
  RESTRIPE, with its time and unit, that has not been detected -/
  asked : Nat := 0xFFFF
  asks : Nat := 0
  nextLoss : Option (Nat × Nat) := none
  /-- the receiver has lost lock -/
  unlocked : Bool := false
  /-- wavelengths that carry no light -/
  dark : Nat := 0
  /-- flits resent, and the last slot table refused -/
  resent : Nat := 0
  tbad : Bool := false
  /-- transmitter: the next SEQ, the last acknowledged SEQ and when it advanced, the flits kept, packets not yet sent, a NAK
  not yet answered, the last control flit -/
  txSeq : Nat := 0
  txAck : Nat := 0xFFFF
  ackNs : Nat := 0
  replay : List Flit := []
  txQ : List OutPacket := []
  nakIn : Bool := false
  ctl : Option Flit := none
  /-- class, TYPE and payload of flits of another port of its direction that are sent first (R391) -/
  taken : List (Nat × Nat × List Byte) := []
  /-- classes and virtual channels for which the receiver of this port's packets has given no credit (R399) -/
  noCredit : List (Nat × Nat) := []
  /-- receiver: the last accepted SEQ, a NAK sent and not yet answered, data flits counted, the numbers of those among the
  last 2^20 that failed, and when they passed the threshold -/
  rxSeq : Nat := 0xFFFF
  nak : Bool := false
  flits : Nat := 0
  failed : List Nat := []
  passed : Option Nat := none
  /-- the packet being assembled, and whole packets not yet performed -/
  part : Option RPacket := none
  packets : List RPacket := []
  /-- acknowledgements of this module's remote writes that have arrived (R409) -/
  acks : List RPacket := []
  /-- when the present outage began, the mask before it, the unit lost -/
  t0 : Nat := 0
  oldMask : Nat := 0xFFFF
  unit : Nat := 0xFF
  /-- SLOT.BASE, whether it is staged, the table, the slot reached, pieces waiting, responses by slot -/
  slotBase : Word := 0
  staged : Bool := false
  table : List Nat := (List.range 256).map fun n => 60 + [0, 1, 1, 1, 1, 2, 2, 3].getD (n % 8) 0
  slot : Nat := 0
  pieces : List Piece := []
  responses : Tab (List Piece) := []
  /-- what is left of each engine family's share, by group, class and family (R347) -/
  share : Tab Nat := []
  /-- circuit ports: what waits to enter the send queues, and what waits for each destination, first in first out -/
  entryQ : List OutPacket := []
  sendQ : List OutPacket := []
  /-- the present connection of a circuit port: its module, the payload bytes it still carries, when it ends -/
  conn : Option (Nat × Nat × Nat) := none
  deriving DecidableEq, Repr

/-- The link event registers (R397). -/
structure LinkRegs where
  levBase : Word := 0
  levHead : Nat := 0
  levEvt : Word := 0
  levTail : Nat := 0
  deriving DecidableEq, Repr

/-! ### Sweeper and migration (R253 to R257) -/

/-- A migration command in flight (R256). -/
structure MigCmd where
  n : Nat
  ctx : Nat
  va : Nat
  npte : Nat
  /-- home address of the leaf, and the leaf as claimed -/
  pte : Nat
  old : Nat
  /-- every unit has acknowledged: it copies -/
  copying : Bool := false
  deriving DecidableEq, Repr

/-! ### Host and management (R401 to R408) -/

/-- What the module does as a whole (R404, R405, R408). -/
inductive StartSt where
  | running
  | warm
  | cold
  | recovery
  /-- a die reached 105 °C -/
  | held
  /-- a spare that waits for a drawer (R401) -/
  | attach
  deriving DecidableEq, Repr

/-- The management controller and the host's interface. -/
structure Mgmt where
  start : StartSt := .running
  warmFails : Nat := 0
  coldFails : Nat := 0
  /-- the staged firmware image, by its digest, and whether its signature verifies; the digests of the management firmware and of the
  core monitor that a start loads, and whether the monitor's signature verifies; whether the monitor runs; measurements of the images
  loaded since the last start -/
  staged : Option (BitVec 512 × Bool) := none
  firmware : BitVec 512 := 0
  monitor : BitVec 512 := 0
  monitorOk : Bool := true
  monitorRuns : Bool := true
  loaded : List (BitVec 512) := [0, 0]
  /-- the configured cap of the package's power, and the power of the last ten samples -/
  cap : Option Nat := none
  powers : List Nat := []
  /-- the drawer's training parameters in use (R401, R404) -/
  training : Word := 0
  rails : List (Nat × Nat) := []
  temps : List Nat := []
  samples : Nat := 0
  /-- the mailbox message area; MBX.DOOR: a message whose reply does not stand there yet -/
  reply : List Byte := []
  door : Bool := false
  /-- the MSI-X table -/
  vectors : Tab Byte := []
  /-- pending interrupt vectors -/
  msix : List Nat := []
  /-- WIN.BASE -/
  winBase : Word := 0
  misses : Nat := 0
  fault : Bool := false
  /-- records and error events that have reached the controller -/
  notices : List (List Byte) := []
  deriving DecidableEq, Repr

/-- Who moves next. -/
inductive Focus where
  | core (c : Nat)
  | thread (die t : Nat)
  deriving DecidableEq, Repr

/-- One move of the order in which the module's agents act (the model's own). -/
inductive Move where
  | event (e : Instr)
  | core (c : Nat)
  | thread (die t : Nat)
  /-- this many nanoseconds pass -/
  | time (ns : Nat)
  /-- from here on an event of an engine moves at most this many pieces, or all -/
  | pace (n : Option Nat)
  /-- a checker of a copy engine (core, engine, card) or of a collective engine (die, 2, operation) finds a mismatch (R353) -/
  | mismatch (c e k : Nat)
  /-- bits of an array go wrong (R353, R383): the core, the array's code, the byte offset, whether two bits of one word -/
  | upset (c k off : Nat) (two : Bool)
  /-- two bits of a word of drawer memory at a home address go wrong -/
  | upsetDrawer (a : Nat)
  /-- a collective engine meets an uncorrectable error in its counters, tile flags, group slots or early-arrival buffer (R379) -/
  | collectiveError (die : Nat)
  /-- the receiver of a port loses lock (R391) -/
  | lockLost (port : Nat)
  /-- the next agent on a port takes back or gives credit for a class on a virtual channel (R399) -/
  | credit (port cls vc : Nat) (gives : Bool)
  /-- RESTRIPE-ACKs of several ports, by port and ACK, that arrive in one core cycle (R410) -/
  | returns (l : List (Nat × Nat))
  /-- the management controller takes the message of the mailbox (R403) -/
  | mailbox
  /-- the core monitor image that the next start loads, and whether its signature verifies (R406) -/
  | monitorImage (digest : BitVec 512) (valid : Bool)
  /-- the cap of the package's power is configured (R408) -/
  | powerCap (cap : Nat)
  /-- the module is a spare in attach state; a drawer's switch connects its drawer to it (R401) -/
  | attach
  | remap (cells : List Host.Cell) (training : Word)
  deriving DecidableEq, Repr

/-- The state of the module. -/
structure State where
  focus : Focus := .core 0
  moves : List Move := []
  /-- how many pieces of at most 64 bytes one event of an engine moves; none: all (R259, R283) -/
  pace : Option Nat := none
  cores : Tab Core := []
  /-- the number of this module -/
  modn : Nat := 0
  /-- memory by home address: this module's physical addresses; from 2^52 on host memory; from (n + 2) * 2^52 on the
  drawer of module n -/
  mem : List Host.Cell := []
  /-- 8-byte words that hold an uncorrectable error, by physical address -/
  bad : Tab Bool := []
  /-- words at which an armed injection of two bits waits for a read (R384): the core that armed it plus 1 -/
  inject : Tab Nat := []
  /-- the same for one bit, and words that hold a single-bit error -/
  injectOne : Tab Nat := []
  soft : Tab Bool := []
  mod : ModCregs := {}
  flt : Tab FltRing := []
  launches : Tab Launch := []
  launchNext : Nat := 1
  spawns : Tab (List Spawn) := []
  records : Tab (List Record) := []
  queues : Tab FeQueue := []
  events : Tab Nat := []
  cles : Tab Cle := []
  /-- packets on their way between collective engines: the module and die each goes to, and its class -/
  net : List (Nat × Nat × Nat × Packet) := []
  ports : Tab Port := []
  /-- bytes of remote writes not yet cut into packets, and packets sent and not acknowledged -/
  out : List OutPacket := []
  awaiting : List OutPacket := []
  links : LinkRegs := {}
  /-- the sweeper's hand, and whether it runs (R254) -/
  hand : Nat := 0
  sweeping : Bool := false
  migs : List MigCmd := []
  /-- the training parameters saved with the drawer (R401, R404) -/
  training : Word := 0
  mgmt : Mgmt := {}
  /-- what the last access from outside through a window read -/
  answer : List Byte := []
  /-- SETCs on their way to a register outside the task's own: core, bank, index, value -/
  ctlQ : List (Nat × Nat × Nat × Word) := []
  /-- contexts whose kill is on its way (R380) -/
  kills : List Nat := []
  ns : Nat := 0
  /-- bytes that copies have written where they also read, and the number of the next such read -/
  laps : List LapByte := []
  lapNext : Nat := 0
  recordNext : Nat := 0
  deriving DecidableEq, Repr

/-- The machine right after reset. -/
def State.reset : State := {}

end Sys2Proof.Machine
end

