-- ==== Sys2Proof/Machine/Operands.lean ====
section
/-!
DEFINITION. Operand forms: how the bits of a register are read as numbers and lanes (R19, R20, R124), the selectors EW
and CC (R75), address arithmetic (R76), and the numbers of the bit-count instructions.
-/

namespace Sys2Proof.Machine

open Sys2Proof

/-! ### Numbers -/

/-- The low `w` bits of `x` read as two's complement. -/
def sextN (w x : Nat) : Int :=
  let y := x % 2 ^ w
  if 2 * y < 2 ^ w then (y : Int) else (y : Int) - (2 ^ w : Nat)

/-- An integer reduced modulo 2^w. -/
def wrapN (w : Nat) (x : Int) : Nat := (x % (2 ^ w : Nat)).toNat

/-- Bits [lo + w - 1 : lo] of `n`. -/
def bitsN (n lo w : Nat) : Nat := n / 2 ^ lo % 2 ^ w

/-- `n` with bits [lo + w - 1 : lo] replaced by the low bits of `x`. -/
def setBitsN (n lo w x : Nat) : Nat :=
  n % 2 ^ lo + 2 ^ lo * (x % 2 ^ w) + 2 ^ (lo + w) * (n / 2 ^ (lo + w))

/-- The number of significant bits of `x`; 0 for 0. -/
def bitLen (x : Nat) : Nat := if x = 0 then 0 else Nat.log2 x + 1

/-- clz at width `w` (R13). -/
def clzN (w x : Nat) : Nat := w - bitLen (x % 2 ^ w)

/-- cls at width `w`: leading bits equal to the sign bit, minus one (R69). -/
def clsN (w x : Nat) : Nat :=
  let y := x % 2 ^ w
  if 2 * y < 2 ^ w then w - bitLen y - 1 else w - bitLen (2 ^ w - 1 - y) - 1

/-- The number of one bits among the low `w`. -/
def popcN : Nat → Nat → Nat
  | 0, _ => 0
  | w + 1, x => x % 2 + popcN w (x / 2)

/-- The number of trailing zero bits at width `w`. -/
def ctzN : Nat → Nat → Nat
  | 0, _ => 0
  | w + 1, x => if x % 2 = 1 then 0 else 1 + ctzN w (x / 2)

/-- floor(√n) for n < 4^k, one bit a step. -/
def isqrtFrom : Nat → Nat → Nat → Nat
  | 0, _, r => r
  | k + 1, n, r => if (r + 2 ^ k) * (r + 2 ^ k) ≤ n then isqrtFrom k n (r + 2 ^ k) else isqrtFrom k n r

/-- floor(√n). -/
def isqrt (n : Nat) : Nat := isqrtFrom (bitLen n / 2 + 1) n 0

/-- sign-extension of a 48-bit immediate or displacement to 64 bits (R76). -/
def sext48 (x : BitVec 48) : Word := x.signExtend 64

/-- sign-extension of a 22-bit segment offset (R79). -/
def sext22 (x : BitVec 22) : Int := x.toInt

/-! ### Lanes -/

/-- Lane `i` of width `w` of a register read as a number (R20). -/
def laneN (v w i : Nat) : Nat := v / 2 ^ (w * i) % 2 ^ w

/-- Lanes 0 to n - 1. -/
def lanesN (v w n : Nat) : List Nat := (List.range n).map (laneN v w)

/-- The register whose lanes of width `w` are those of the list, lane 0 lowest. -/
def packN (w : Nat) : List Nat → Nat
  | [] => 0
  | x :: xs => x % 2 ^ w + 2 ^ w * packN w xs

/-- A lane as a number: signed, or unsigned (R124). -/
def laneI (uns : Bool) (w x : Nat) : Int := if uns then (x : Int) else sextN w x

/-- The lane width an EW code names; 5 to 7 are illegal (R75). -/
def ewBits : Nat → Option Nat
  | 0 => some 4 | 1 => some 8 | 2 => some 16 | 3 => some 32 | 4 => some 64
  | _ => none

/-- The mask bit that governs element `i` of width `w`: bit w * i / 4 (R19). -/
def governs (q w i : Nat) : Bool := q.testBit (w * i / 4)

/-- The mask with ones over the lanes of width `w` where the list is true. -/
def laneMask (w : Nat) (l : List Bool) : Nat := packN w (l.map fun b => if b then 2 ^ w - 1 else 0)

/-- The 512 bytes of a vector register, byte k holding bits [8k + 7 : 8k] (R20). -/
def vecBytes (v : VReg) : List Byte := leBytes 512 v.toNat

/-- The vector register of 512 bytes. -/
def vecOfBytes (l : List Byte) : VReg := BitVec.ofNat 4096 (ofLeBytes l)

/-! ### Condition codes (R75) -/

/-- a cc b at width `w`; codes 10 to 15 are illegal. -/
def ccHolds (cc w a b : Nat) : Option Bool :=
  let sa := sextN w a
  let sb := sextN w b
  match cc with
  | 0 => some (a == b)
  | 1 => some (a != b)
  | 2 => some (decide (sa < sb))
  | 3 => some (decide (sb ≤ sa))
  | 4 => some (decide (a < b))
  | 5 => some (decide (b ≤ a))
  | 6 => some (decide (sa ≤ sb))
  | 7 => some (decide (sb < sa))
  | 8 => some (decide (a ≤ b))
  | 9 => some (decide (b < a))
  | _ => none

/-! ### Lists -/

/-- The sum of a list of integers. -/
def sumI : List Int → Int
  | [] => 0
  | x :: xs => x + sumI xs

/-- `f i x` over a list with its indices from `i`. -/
def mapFrom {α β : Type} (f : Nat → α → β) : Nat → List α → List β
  | _, [] => []
  | i, x :: xs => f i x :: mapFrom f (i + 1) xs

/-- The least number of a list, `d` for the empty list. -/
def minOf (d : Nat) : List Nat → Nat
  | [] => d
  | x :: xs => min x (minOf d xs)

/-- The elements of a list in groups of `k`; `fuel` bounds their number. -/
def chunksOf {α : Type} (k : Nat) : Nat → List α → List (List α)
  | 0, _ => []
  | _ + 1, [] => []
  | n + 1, l => l.take k :: chunksOf k n (l.drop k)

end Sys2Proof.Machine
end

