-- ==== Sys2Proof/Machine/Flags.lean ====
section
/-!
DEFINITION. Integer formats, rounding, clamping, the saturation flags, the stochastic generator and the census (chapter
02, R49 to R71), and the tables of the special functions (R139, R141). A limited value carries the flag its limiting
sets.
-/

namespace Sys2Proof.Machine

open Sys2Proof

/-! ### Format codes (R49) -/

/-- Bits of an element of a format. -/
def fmtBits : Nat → Nat
  | 0x0 => 4 | 0x1 => 4 | 0x2 => 8 | 0x3 => 8 | 0x4 => 16 | 0x5 => 16 | 0x6 => 2 | 0x7 => 32
  | 0x8 => 8 | 0x9 => 4 | 0xa => 8 | 0xb => 4 | 0xc => 8 | 0xd => 4
  | _ => 8

/-- The census width. -/
def censusWidth : Nat → Nat
  | 0x0 => 4 | 0x1 => 5 | 0x2 => 8 | 0x3 => 9 | 0x4 => 16 | 0x5 => 17 | 0x6 => 2 | 0x7 => 32
  | 0x8 => 8 | 0x9 => 7 | 0xa => 8 | 0xb => 4 | 0xc => 8 | 0xd => 4
  | _ => 0

/-- The largest clamp bound a record may hold; `none` for INT32, whose clamp field is ignored. -/
def clampLimit : Nat → Option Nat
  | 0x0 => some 8 | 0x1 => some 15 | 0x2 => some 128 | 0x3 => some 255 | 0x4 => some 32768 | 0x5 => some 65535
  | 0x6 => some 2 | 0x8 => some 128 | 0x9 => some 64 | 0xa => some 255 | 0xb => some 15 | 0xc => some 128
  | 0xd => some 8
  | _ => none

/-- The kinds of element encoding. -/
inductive FmtKind where
  | int | uint | ds | az | bx
  deriving DecidableEq, Repr

def fmtKind : Nat → FmtKind
  | 0x1 => .uint | 0x3 => .uint | 0x5 => .uint
  | 0x8 => .ds | 0x9 => .ds | 0xa => .az | 0xb => .az | 0xc => .bx | 0xd => .bx
  | _ => .int

/-- One term of a dual-shift element: sign, and code 0 absent or 1 to 7 for 2^0 to 2^6 (R52). -/
def dsTerm (c : Nat) : Int :=
  let k := c % 8
  if k = 0 then 0 else if c / 8 % 2 = 1 then -((2 ^ (k - 1) : Nat) : Int) else ((2 ^ (k - 1) : Nat) : Int)

/-- The decoded value of an element, without its group shift: R49, R52, R54. -/
def decodeElem (fmt zp code : Nat) : Int :=
  match fmtKind fmt with
  | .int => sextN (fmtBits fmt) code
  | .bx => sextN (fmtBits fmt) code
  | .uint => (code % 2 ^ fmtBits fmt : Nat)
  | .ds => if fmtBits fmt = 4 then dsTerm code else dsTerm (code / 16 % 16) + dsTerm (code % 16)
  | .az => ((code % 2 ^ fmtBits fmt : Nat) : Int) - (zp : Int)

/-! ### Rounding (R62) -/

/-- rnd(x, s, m) with the random word of a stochastic rounding; codes 6 and 7 are trapped before. -/
def rnd (x : Int) (s m rbits : Nat) : Int :=
  if s = 0 then x
  else
    let p : Int := ((2 ^ s : Nat) : Int)
    let q0 := x / p
    let f := x % p
    let h : Int := ((2 ^ (s - 1) : Nat) : Int)
    match m with
    | 0 => if h < f ∨ (f = h ∧ q0 % 2 = 1) then q0 + 1 else q0
    | 1 => if x < 0 ∧ f ≠ 0 then q0 + 1 else q0
    | 2 => q0
    | 3 => if f ≠ 0 ∧ q0 % 2 = 0 then q0 + 1 else q0
    | 4 => (x + ((rbits % 2 ^ s : Nat) : Int)) / p
    | _ => if h < f ∨ (f = h ∧ 0 ≤ x) then q0 + 1 else q0

/-- rnd_div(a, b): the integer nearest to a/b, ties to even (R142). -/
def rndDiv (a b : Nat) : Nat :=
  let q := a / b
  let r := a % b
  if b < 2 * r ∨ (2 * r = b ∧ q % 2 = 1) then q + 1 else q

/-! ### Limiting (R13, R63, R64) -/

/-- x limited to lo … hi, and whether it was limited. -/
def limitTo (lo hi x : Int) : Int × Bool :=
  if x < lo then (lo, true) else if hi < x then (hi, true) else (x, false)

/-- sat at `w` bits, signed or unsigned. -/
def satW (uns : Bool) (w : Nat) (x : Int) : Int × Bool :=
  if uns then limitTo 0 (((2 ^ w : Nat) : Int) - 1) x
  else limitTo (-((2 ^ (w - 1) : Nat) : Int)) (((2 ^ (w - 1) : Nat) : Int) - 1) x

/-- sat to INT32 (R56). -/
def sat32 (x : Int) : Int × Bool := satW false 32 x

/-- The range of a format's elements under a clamp bound (R63): on the code for AZ. -/
def clampRange (fmt b : Nat) : Int × Int :=
  let w := fmtBits fmt
  match fmtKind fmt with
  | .uint => (0, (b : Int))
  | .az => (0, ((min b (2 ^ w - 1) : Nat) : Int))
  | .ds => (-(b : Int), (b : Int))
  | _ =>
    if fmt = 0x7 then (-((2 ^ 31 : Nat) : Int), ((2 ^ 31 - 1 : Nat) : Int))
    else (-(b : Int), ((min b (2 ^ (w - 1) - 1) : Nat) : Int))

/-! ### Dual-shift destinations (R53) -/

/-- The magnitudes that DS8 represents, from 0 up. -/
def ds8Mags : List Nat :=
  [0, 1, 2, 3, 4, 5, 6, 7, 8, 9, 10, 12, 14, 15, 16, 17] ++
  [18, 20, 24, 28, 30, 31, 32, 33, 34, 36, 40, 48, 56, 60, 62, 63] ++
  [64, 65, 66, 68, 72, 80, 96, 128]

/-- The magnitudes that DS4 represents. -/
def ds4Mags : List Nat := [0, 1, 2, 4, 8, 16, 32, 64]

/-- The magnitude of the list nearest to ax / 2^s, the smaller on a tie; the list rises. -/
def nearestMag (ax s : Nat) : Nat → List Nat → Nat
  | best, [] => best
  | best, c :: cs =>
    let d (m : Nat) : Nat := ((m * 2 ^ s : Nat) - (ax : Int) : Int).natAbs
    if d c < d best then nearestMag ax s c cs else nearestMag ax s best cs

/-- The canonical DS8 encoding of a representable magnitude, positive sign (R53): one term in a; two terms of the value's
sign where there are such; else the larger power less the smaller; 128 as two equal powers. -/
def ds8Canon (m : Nat) : Nat :=
  if m = 0 then 0
  else if m = 128 then 0x77
  else
    let hi := Nat.log2 m
    let rest := m - 2 ^ hi
    if rest = 0 then 16 * (hi + 1)
    else if 2 ^ Nat.log2 rest = rest then 16 * (hi + 1) + (Nat.log2 rest + 1)
    else 16 * (hi + 2) + 8 + (Nat.log2 (2 ^ (hi + 1) - m) + 1)

/-- The sign bits of a canonical DS8 encoding turned over where a term is present. -/
def ds8Neg (c : Nat) : Nat :=
  let fl (t : Nat) : Nat := if t % 8 = 0 then t else if t / 8 = 1 then t - 8 else t + 8
  16 * fl (c / 16) + fl (c % 16)

/-- A dual-shift destination: the exact quotient x / 2^s, at most `b` in magnitude, to the nearest representable value of
magnitude at most `b` (R53, R63). -/
def dsNarrow (bits b : Nat) (x : Int) (s : Nat) : Nat × Bool :=
  let ax := x.natAbs
  let lim := b * 2 ^ s
  let mags := (if bits = 4 then ds4Mags else ds8Mags).filter (· ≤ b)
  let m := nearestMag (min ax lim) s 0 mags
  let pos := if bits = 4 then (if m = 0 then 0 else Nat.log2 m + 1) else ds8Canon m
  let code := if x < 0 ∧ m ≠ 0 then (if bits = 4 then pos + 8 else ds8Neg pos) else pos
  (code, decide (lim < ax))

/-- The clamped, rounded and encoded element of a destination format: x / 2^s by code m (R53, R54, R62, R63). -/
def narrowTo (fmt b zp : Nat) (x : Int) (s m rbits : Nat) : Nat × Bool :=
  match fmtKind fmt with
  | .ds => dsNarrow (fmtBits fmt) b x s
  | k =>
    let q := rnd x s m rbits + (if k = .az then (zp : Int) else 0)
    let r := clampRange fmt b
    let l := limitTo r.1 r.2 q
    (wrapN (fmtBits fmt) l.1, l.2)

/-! ### The tensor record (R57) -/

def trecFmt (t : TRec) : Nat := bitsN t.toNat 0 4
def trecRnd (t : TRec) : Nat := bitsN t.toNat 4 3
def trecClamp (t : TRec) : Nat := bitsN t.toNat 8 16
def trecScale (t : TRec) : Int := sextN 8 (bitsN t.toNat 24 8)
def trecCensus (t : TRec) : Nat := bitsN t.toNat 32 5
def trecHead (t : TRec) : Nat := bitsN t.toNat 40 4
def trecZp (t : TRec) : Nat := bitsN t.toNat 48 8
def trecCfrz (t : TRec) : Bool := t.toNat.testBit 59
def trecSeedv (t : TRec) : Bool := t.toNat.testBit 60
def trecSeed (t : TRec) : Nat := bitsN t.toNat 64 64
def trecSide (t : TRec) : Nat := bitsN t.toNat 128 64

/-- The bits of a record that are not reserved: a load and a store write the others as zero (R57, R60, R158). -/
def trecMask : Nat :=
  packFields [4, 3, 1, 16, 8, 5, 3, 4, 4, 8, 2, 1, 1, 1, 3, 64, 64, 8]
    [15, 7, 0, 65535, 255, 31, 0, 15, 0, 255, 0, 1, 1, 1, 0, 2 ^ 64 - 1, 2 ^ 64 - 1, 255]

/-- The record of 32 bytes, reserved bits zero. -/
def trecClean (n : Nat) : TRec := BitVec.ofNat 256 (n &&& trecMask)

/-- A record that TLD accepts (R60). -/
def trecOk (t : TRec) : Bool :=
  decide (trecFmt t < 14) &&
  (match clampLimit (trecFmt t) with
   | some l => decide (trecClamp t ≤ l)
   | none => true) &&
  (trecFmt t != 0xb || decide (trecZp t ≤ 15))

/-! ### The stochastic generator (R65) -/

def prngMix (z : Word) : Word :=
  let z1 := (z ^^^ (z >>> 30)) * 0xBF58476D1CE4E5B9#64
  let z2 := (z1 ^^^ (z1 >>> 27)) * 0x94D049BB133111EB#64
  z2 ^^^ (z2 >>> 31)

/-- prng(seed, core, lane, ctr). -/
def prng (seed : Word) (core lane : Nat) (ctr : Word) : Word :=
  let z := seed + ctr * 0x9E3779B97F4A7C15#64
  let z := z ^^^ BitVec.ofNat 64 (core % 512 * 2 ^ 40) ^^^ BitVec.ofNat 64 (lane % 65536)
  prngMix (prngMix z + 0xD1B54A32D192ED03#64)

/-! ### Census and shift-down (R69 to R71) -/

/-- s = max(0, 32 - CENSUS - w) + HEAD. -/
def shiftFor (census head fmt : Nat) : Nat := (32 - census - censusWidth fmt) + head

/-- The shift of one group of a BX destination, from its own census. -/
def bxShiftFor (census head fmt : Nat) : Nat := min 15 (shiftFor census head fmt)

/-- A scale exponent that a register or record can hold (R59, R162). -/
def scaleOk (e : Int) : Bool := decide (-128 ≤ e ∧ e ≤ 127)

/-! ### Special-function tables -/

/-- T[i] = RNE(2^(i/256) x 2^30), i = 0 to 256 (R139). -/
def exp2Table : List Nat :=
  [1073741824, 1076653033, 1079572136, 1082499153, 1085434106, 1088377016, 1091327906, 1094286796, 1097253708, 1100228665, 1103211687, 1106202798, 1109202018, 1112209370, 1115224875, 1118248556] ++
  [1121280436, 1124320536, 1127368878, 1130425485, 1133490379, 1136563583, 1139645120, 1142735011, 1145833280, 1148939949, 1152055042, 1155178580, 1158310587, 1161451085, 1164600099, 1167757650] ++
  [1170923762, 1174098458, 1177281762, 1180473697, 1183674286, 1186883552, 1190101520, 1193328213, 1196563654, 1199807867, 1203060876, 1206322705, 1209593378, 1212872918, 1216161350, 1219458698] ++
  [1222764986, 1226080238, 1229404479, 1232737732, 1236080024, 1239431376, 1242791816, 1246161366, 1249540052, 1252927899, 1256324931, 1259731174, 1263146652, 1266571390, 1270005413, 1273448747] ++
  [1276901417, 1280363448, 1283834865, 1287315695, 1290805962, 1294305692, 1297814910, 1301333643, 1304861917, 1308399756, 1311947188, 1315504238, 1319070932, 1322647296, 1326233356, 1329829140] ++
  [1333434672, 1337049980, 1340675091, 1344310030, 1347954824, 1351609500, 1355274085, 1358948606, 1362633090, 1366327563, 1370032052, 1373746586, 1377471191, 1381205894, 1384950723, 1388705706] ++
  [1392470869, 1396246240, 1400031848, 1403827719, 1407633882, 1411450365, 1415277195, 1419114401, 1422962010, 1426820052, 1430688553, 1434567544, 1438457051, 1442357104, 1446267730, 1450188960] ++
  [1454120821, 1458063343, 1462016553, 1465980482, 1469955159, 1473940611, 1477936870, 1481943963, 1485961921, 1489990772, 1494030547, 1498081275, 1502142985, 1506215708, 1510299473, 1514394310] ++
  [1518500250, 1522617322, 1526745556, 1530884983, 1535035634, 1539197537, 1543370725, 1547555228, 1551751076, 1555958300, 1560176931, 1564406999, 1568648537, 1572901575, 1577166143, 1581442275] ++
  [1585730000, 1590029350, 1594340357, 1598663052, 1602997467, 1607343634, 1611701585, 1616071351, 1620452965, 1624846459, 1629251865, 1633669214, 1638098541, 1642539877, 1646993254, 1651458706] ++
  [1655936265, 1660425963, 1664927835, 1669441912, 1673968228, 1678506817, 1683057710, 1687620943, 1692196547, 1696784557, 1701385007, 1705997930, 1710623359, 1715261330, 1719911875, 1724575029] ++
  [1729250827, 1733939301, 1738640488, 1743354420, 1748081133, 1752820662, 1757573041, 1762338305, 1767116489, 1771907628, 1776711757, 1781528911, 1786359126, 1791202437, 1796058879, 1800928489] ++
  [1805811301, 1810707353, 1815616678, 1820539314, 1825475297, 1830424663, 1835387448, 1840363688, 1845353420, 1850356681, 1855373507, 1860403934, 1865448001, 1870505744, 1875577199, 1880662405] ++
  [1885761398, 1890874216, 1896000896, 1901141476, 1906295993, 1911464486, 1916646992, 1921843549, 1927054196, 1932278970, 1937517909, 1942771053, 1948038440, 1953320108, 1958616096, 1963926443] ++
  [1969251188, 1974590370, 1979944027, 1985312200, 1990694927, 1996092249, 2001504204, 2006930832, 2012372174, 2017828268, 2023299156, 2028784876, 2034285470, 2039800978, 2045331439, 2050876895] ++
  [2056437387, 2062012954, 2067603638, 2073209480, 2078830522, 2084466803, 2090118366, 2095785251, 2101467502, 2107165158, 2112878262, 2118606857, 2124350982, 2130110682, 2135885998, 2141676973] ++
  [2147483648]

/-- LT[i] = RNE(log2(1 + i/256) x 2^24), i = 0 to 256 (R141). -/
def log2Table : List Nat :=
  [0, 94364, 188362, 281996, 375270, 468185, 560745, 652952, 744810, 836320, 927485, 1018309, 1108793, 1198939, 1288752, 1378232] ++
  [1467383, 1556207, 1644705, 1732882, 1820738, 1908277, 1995500, 2082410, 2169009, 2255299, 2341283, 2426963, 2512340, 2597417, 2682196, 2766679] ++
  [2850868, 2934766, 3018374, 3101694, 3184728, 3267478, 3349946, 3432134, 3514044, 3595678, 3677038, 3758124, 3838941, 3919488, 3999768, 4079782] ++
  [4159533, 4239023, 4318251, 4397222, 4475935, 4554394, 4632599, 4710552, 4788255, 4865709, 4942916, 5019878, 5096595, 5173071, 5249305, 5325300] ++
  [5401057, 5476578, 5551864, 5626916, 5701737, 5776327, 5850688, 5924821, 5998727, 6072409, 6145867, 6219103, 6292118, 6364913, 6437490, 6509850] ++
  [6581994, 6653924, 6725641, 6797146, 6868440, 6939525, 7010402, 7081072, 7151536, 7221795, 7291852, 7361706, 7431359, 7500812, 7570066, 7639123] ++
  [7707984, 7776649, 7845119, 7913397, 7981483, 8049377, 8117082, 8184598, 8251926, 8319067, 8386022, 8452793, 8519380, 8585785, 8652008, 8718050] ++
  [8783912, 8849596, 8915102, 8980431, 9045584, 9110562, 9175366, 9239998, 9304457, 9368745, 9432863, 9496811, 9560591, 9624203, 9687648, 9750928] ++
  [9814042, 9876993, 9939780, 10002404, 10064867, 10127170, 10189312, 10251295, 10313120, 10374787, 10436298, 10497652, 10558852, 10619897, 10680789, 10741528] ++
  [10802114, 10862550, 10922835, 10982970, 11042956, 11102794, 11162484, 11222028, 11281425, 11340677, 11399784, 11458748, 11517568, 11576245, 11634780, 11693175] ++
  [11751428, 11809542, 11867517, 11925353, 11983051, 12040612, 12098037, 12155325, 12212479, 12269497, 12326382, 12383133, 12439752, 12496238, 12552593, 12608817] ++
  [12664911, 12720875, 12776710, 12832416, 12887994, 12943445, 12998770, 13053968, 13109041, 13163988, 13218811, 13273511, 13328087, 13382540, 13436871, 13491080] ++
  [13545168, 13599135, 13652983, 13706711, 13760320, 13813810, 13867183, 13920438, 13973576, 14026597, 14079503, 14132294, 14184969, 14237530, 14289978, 14342312] ++
  [14394532, 14446641, 14498638, 14550523, 14602297, 14653961, 14705514, 14756958, 14808293, 14859519, 14910637, 14961648, 15012551, 15063347, 15114037, 15164621] ++
  [15215099, 15265473, 15315742, 15365906, 15415967, 15465925, 15515779, 15565531, 15615181, 15664730, 15714177, 15763523, 15812769, 15861915, 15910962, 15959909] ++
  [16008758, 16057508, 16106160, 16154714, 16203172, 16251532, 16299796, 16347964, 16396036, 16444013, 16491896, 16539683, 16587377, 16634976, 16682482, 16729896] ++
  [16777216]

/-- Entry `i` of a table. -/
def tableAt (t : List Nat) (i : Nat) : Nat := t.getD i 0

end Sys2Proof.Machine
end

