-- ==== Sys2Proof/Machine/Tables.lean ====
section
/-!
DEFINITION. Tables in one canonical form, memory by physical address (R230 to R232), the cores and banks of the state,
and the registers with what is hard-wired in them (R16, R18, R19).
-/

namespace Sys2Proof.Machine

open Sys2Proof

/-! ### Tables -/

/-- The value at `i`; an unlisted number holds `d i`. -/
def lookAt {α : Type} (d : Nat → α) : Tab α → Nat → α
  | [], i => d i
  | (k, x) :: t, i => if i < k then d i else if i = k then x else lookAt d t i

/-- The table with `x` at `i`. -/
def putAt {α : Type} [DecidableEq α] (d : Nat → α) (t : Tab α) (i : Nat) (x : α) : Tab α :=
  let low := t.takeWhile fun e => decide (e.1 < i)
  let rest := (t.drop low.length).dropWhile fun e => decide (e.1 ≤ i)
  if x = d i then low ++ rest else low ++ (i, x) :: rest

/-- The `n` values from `a` on, one walk along the table. -/
def lookFrom {α : Type} (d : Nat → α) : Nat → Tab α → Nat → List α
  | 0, _, _ => []
  | n + 1, [], a => d a :: lookFrom d n [] (a + 1)
  | n + 1, (k, x) :: t, a => if k = a then x :: lookFrom d n t (a + 1) else d a :: lookFrom d n ((k, x) :: t) (a + 1)

/-- The entries of a list of values from `a` on that are not the default. -/
def entriesFrom {α : Type} [DecidableEq α] (d : Nat → α) : Nat → List α → Tab α
  | _, [] => []
  | a, x :: xs => if x = d a then entriesFrom d (a + 1) xs else (a, x) :: entriesFrom d (a + 1) xs

/-- The values at `a`, `a + 1`, … -/
def lookRange {α : Type} (d : Nat → α) (t : Tab α) (a n : Nat) : List α :=
  lookFrom d n (t.dropWhile fun e => decide (e.1 < a)) a

/-- The table with the values of the list at `a`, `a + 1`, … -/
def putRange {α : Type} [DecidableEq α] (d : Nat → α) (t : Tab α) (a : Nat) (xs : List α) : Tab α :=
  let low := t.takeWhile fun e => decide (e.1 < a)
  let rest := (t.drop low.length).dropWhile fun e => decide (e.1 < a + xs.length)
  low ++ entriesFrom d a xs ++ rest

/-- Numbers strictly rise from `lo` on, and no entry equals the default. -/
def tabOkFrom {α : Type} [DecidableEq α] (d : Nat → α) : Nat → Tab α → Bool
  | _, [] => true
  | lo, (k, x) :: t => decide (lo ≤ k) && decide (x ≠ d k) && tabOkFrom d (k + 1) t

/-- The canonical form of a table. -/
def tabOk {α : Type} [DecidableEq α] (d : Nat → α) (t : Tab α) : Bool := tabOkFrom d 0 t

/-- A table whose default is one value. -/
def Tab.get {α : Type} (d : α) (t : Tab α) (i : Nat) : α := lookAt (fun _ => d) t i

def Tab.set {α : Type} [DecidableEq α] (d : α) (t : Tab α) (i : Nat) (x : α) : Tab α := putAt (fun _ => d) t i x

/-! ### Memory (R230 to R232, R252) -/

/-- The first byte of the frame table, and of the die windows. -/
def frameTable : Nat := 0x1FFE0000000
def dieWindow (die : Nat) : Nat := 0xF000000000000 + die * 0x100000000

/-- The window of core `c` of the module (R231). -/
def coreWindow (c : Nat) : Nat := dieWindow (c / 64) + c % 64 * 0x1000000

/-- The physical address of a scratchpad byte of core `c` (R232). -/
def scratchAddr (c off : Nat) : Nat := coreWindow c + off

/-- The home of an address: local drawer and on-chip windows by physical address, host memory (LOC 2), another module's
drawer (LOC 1; this module's own number gives the local drawer, R236). -/
def homeOf (self loc modn pa : Nat) : Nat :=
  if loc = 2 then 2 ^ 52 + pa
  else if loc = 1 ∧ modn ≠ self then (modn + 2) * 2 ^ 52 + pa
  else pa

/-- What a byte of memory that nothing has written reads as: at drawer start the frame table is zero, except that the
entries of its own frames have USED and PIN (R252); every other memory has no stated contents and reads 0. -/
def memDefault (a : Nat) : Byte :=
  if a < 2 ^ 52 ∧ frameTable + 16 * 0x1FFE000 ≤ a ∧ a < frameTable + 16 * 0x2000000 ∧ a % 16 = 10 then 5#8 else 0#8

/-- The memory is in its canonical form. -/
abbrev Memory.wf (m : List Host.Cell) : Bool := tabOk memDefault m

/-- One byte of memory. -/
def memByte (m : List Host.Cell) (a : Nat) : Byte := lookAt memDefault m a

/-- `n` bytes of memory from `a`. -/
def memRead (m : List Host.Cell) (a n : Nat) : List Byte := lookRange memDefault m a n

/-- Bytes written to memory from `a`. -/
def memWrite (m : List Host.Cell) (a : Nat) (l : List Byte) : List Host.Cell := putRange memDefault m a l

/-- A little-endian number of `n` bytes (R4). -/
def memNat (m : List Host.Cell) (a n : Nat) : Nat := ofLeBytes (memRead m a n)

/-- `n` bytes of a number written to memory (R4). -/
def memPut (m : List Host.Cell) (a n x : Nat) : List Host.Cell := memWrite m a (leBytes n x)

/-! ### Cores and banks -/

/-- Core `c`. -/
def State.core (s : State) (c : Nat) : Core := Tab.get {} s.cores c

def State.setCore (s : State) (c : Nat) (x : Core) : State := { s with cores := Tab.set {} s.cores c x }

/-- Bank `b` of a core. -/
def Core.bank (x : Core) (b : Nat) : Bank := if b = 0 then x.bank0 else x.bank1

def Core.setBank (x : Core) (b : Nat) (y : Bank) : Core := if b = 0 then { x with bank0 := y } else { x with bank1 := y }

/-- The core that a syllable issues on: the focus. -/
def State.cf (s : State) : Nat :=
  match s.focus with
  | .core c => c
  | .thread d _ => d * 64

/-- The bank that issues on the focus core. -/
def State.bf (s : State) : Nat := (s.core s.cf).cur

/-- The issuing bank of the focus core. -/
def State.bk (s : State) : Bank := (s.core s.cf).bank s.bf

/-- Bank `b` of core `c` changed. -/
def State.modBank (s : State) (c b : Nat) (f : Bank → Bank) : State :=
  let x := s.core c
  s.setCore c (x.setBank b (f (x.bank b)))

def State.modCore (s : State) (c : Nat) (f : Core → Core) : State := s.setCore c (f (s.core c))

/-- The issuing bank changed. -/
def State.modBk (s : State) (f : Bank → Bank) : State := s.modBank s.cf s.bf f

/-- Bank `b` of core `c`. -/
def State.bankAt (s : State) (c b : Nat) : Bank := (s.core c).bank b

/-! ### Registers -/

/-- S0 reads zero (R16). -/
def Regs.rs (r : Regs) (i : Nat) : Word := if i = 0 then 0 else Tab.get 0 r.s i

/-- A write to S0 is discarded (R16). -/
def Regs.ws (r : Regs) (i : Nat) (v : Word) : Regs := if i = 0 then r else { r with s := Tab.set 0 r.s i v }

def Regs.ra (r : Regs) (i : Nat) : Word := Tab.get 0 r.a i

def Regs.wa (r : Regs) (i : Nat) (v : Word) : Regs := { r with a := Tab.set 0 r.a i v }

/-- P0 reads true (R18). -/
def Regs.rp (r : Regs) (i : Nat) : Bool := if i = 0 then true else Tab.get false r.p i

/-- A write to P0 is discarded (R18). -/
def Regs.wp (r : Regs) (i : Nat) (v : Bool) : Regs := if i = 0 then r else { r with p := Tab.set false r.p i v }

def Regs.rv (r : Regs) (i : Nat) : VReg := Tab.get 0 r.v i

def Regs.wv (r : Regs) (i : Nat) (v : VReg) : Regs := { r with v := Tab.set 0 r.v i v }

/-- Q0 reads all ones (R19). -/
def Regs.rq (r : Regs) (i : Nat) : QReg := if i = 0 then BitVec.allOnes 1024 else Tab.get 0 r.q i

/-- A write to Q0 is discarded (R131, R137). -/
def Regs.wq (r : Regs) (i : Nat) (v : QReg) : Regs := if i = 0 then r else { r with q := Tab.set 0 r.q i v }

def Regs.rt (r : Regs) (i : Nat) : TRec := Tab.get 0 r.t i

def Regs.wt (r : Regs) (i : Nat) (v : TRec) : Regs := { r with t := Tab.set 0 r.t i v }

def Regs.rm (r : Regs) (i : Nat) : MDesc := Tab.get {} r.m i

def Regs.wm (r : Regs) (i : Nat) (v : MDesc) : Regs := { r with m := Tab.set {} r.m i v }

def Regs.rsb (r : Regs) (i : Nat) : Bool := Tab.get false r.sb i

def Regs.wsb (r : Regs) (i : Nat) (v : Bool) : Regs := { r with sb := Tab.set false r.sb i v }

/-- The bits of `mask` from `val`, the others from `old`. -/
def blend {w : Nat} (old mask val : BitVec w) : BitVec w := (old &&& ~~~mask) ||| (val &&& mask)

/-- The issuing bank's registers. -/
def State.rg (s : State) : Regs := s.bk.regs

/-- CCTL's fields (R27). -/
def cctlRmax (w : Word) : Nat := bitsN w.toNat 8 7
def cctlAse (w : Word) : Bool := w.toNat.testBit 2
def cctlLrovf (w : Word) : Bool := w.toNat.testBit 1
def cctlChk (w : Word) : Bool := w.toNat.testBit 0

/-- The checking scoreboard is on: CCTL.CHK = 1 outside monitor mode (R41, R362, R366). -/
def Bank.checks (b : Bank) : Bool := cctlChk b.cregs.cctl && !b.monitor

end Sys2Proof.Machine
end

