-- ==== Sys2Proof/Machine/Mmu.lean ====
section
/-!
DEFINITION. The page tables and the map unit (R233 to R240): the walk of R236 over any memory, the translation cache, the
A and D bits, and what an access at a home reads and writes (R230 to R232, R249).
-/

namespace Sys2Proof.Machine

open Sys2Proof

/-- The kinds of page fault (R240). -/
inductive FltKind where
  | notPresent | perm | malformed | migrating
  deriving DecidableEq, Repr

/-- The KIND code of MU.FINFO. -/
def FltKind.code : FltKind → Nat
  | .notPresent => 1 | .perm => 2 | .malformed => 3 | .migrating => 4

/-- The kinds of access of R236. -/
inductive AccKind where
  | read | write | atomic | fetch
  deriving DecidableEq, Repr

/-- Why a translation gives no address. -/
inductive TrErr where
  | fault (k : FltKind)
  /-- a leaf with LOST = 1 (R240): the home address that the leaf gives -/
  | lost (a : Nat)
  /-- an entry of the tables that holds an uncorrectable error (R379): its address -/
  | table (a : Nat)
  deriving DecidableEq, Repr

/-- A leaf entry found by a walk. -/
structure Leaf where
  large : Bool
  /-- home address of the entry -/
  pte : Nat
  entry : Nat
  deriving DecidableEq, Repr

/-! ### Fields of an entry (R235) -/

def pteV (e : Nat) : Bool := e.testBit 0
def pteLeaf (e : Nat) : Bool := e.testBit 1
def pteR (e : Nat) : Bool := e.testBit 2
def pteW (e : Nat) : Bool := e.testBit 3
def pteX (e : Nat) : Bool := e.testBit 4
def pteA (e : Nat) : Bool := e.testBit 5
def pteD (e : Nat) : Bool := e.testBit 6
def pteLost (e : Nat) : Bool := e.testBit 7
def pteMg (e : Nat) : Bool := e.testBit 8
def ptePfn (e : Nat) : Nat := bitsN e 9 36
def pteModn (e : Nat) : Nat := bitsN e 45 17
def pteLoc (e : Nat) : Nat := bitsN e 62 2

/-- The index of a level of the tree: VA[54:42], VA[41:29], VA[28:16] (R233). -/
def vaIndex (va lvl : Nat) : Nat := bitsN va (42 - 13 * lvl) 13

/-! ### Frames (R231, R232, R236) -/

/-- The frame `f` of `size` bytes lies wholly in an unassigned part of a die or core window. -/
def windowUnassigned (f size : Nat) : Bool :=
  let o := f % 0x100000000
  let w := o % 0x1000000
  decide (0x48000000 ≤ o ∧ o + size ≤ 0x50000000) || decide (0x60000000 ≤ o) ||
  (decide (o < 0x40000000) &&
   (decide (0x300000 ≤ w ∧ w + size ≤ 0x400000) || decide (0x720000 ≤ w ∧ w + size ≤ 0x1000000)))

/-- The frame is in an unassigned range for its LOC (R236). -/
def frameBad (loc f size : Nat) : Bool :=
  if loc = 2 then false
  else if loc = 3 then
    decide (f < 0xF000000000000) || decide (0xF0007FFFFFFFF < f) || windowUnassigned f size
  else decide (0x20000000000 < f + size)

/-- The frame `f` of `size` bytes reaches a monitor-only range (R231, R232, R236): the test applies to the frame as a whole. -/
def frameMonitorOnly (loc f size : Nat) : Bool :=
  if loc = 3 then
    let o := f % 0x100000000
    decide (0x47C00000 < o + size ∧ o < 0x48000000) || decide (0x50010000 < o + size ∧ o < 0x60000000) ||
    decide (o < 0x40000000 ∧ (0x10000 < size ∨ 0x400000 ≤ o % 0x1000000))
  else decide (loc ≠ 2 ∧ 0x1FFE0000000 < f + size)

/-- Whether a leaf permits an access (R236). -/
def allowedAcc (e : Nat) : AccKind → Bool
  | .read => pteR e
  | .write => pteW e
  | .atomic => pteR e && pteW e
  | .fetch => pteX e

/-! ### The walk (R236) -/

/-- The levels of the walk from a table on: fuel is the number of levels left. -/
def walkLevels (m : List Host.Cell) (va : Nat) : Nat → Nat → Nat → Except TrErr Leaf
  | 0, _, _ => .error (.fault .malformed)
  | n + 1, lvl, t =>
    let a := t + 8 * vaIndex va lvl
    let e := memNat m a 8
    if ¬ pteV e then .error (.fault .notPresent)
    else if lvl < 2 ∧ ¬ pteLeaf e then
      if pteLoc e ≠ 0 ∨ pteModn e ≠ 0 then .error (.fault .malformed)
      else walkLevels m va n (lvl + 1) (ptePfn e * 2 ^ 16)
    else if lvl = 0 ∨ (lvl = 1 ∧ ptePfn e % 2 ^ 13 ≠ 0) ∨ ¬ pteLeaf e then .error (.fault .malformed)
    else .ok { large := lvl == 1, pte := a, entry := e }

/-- The walk of a context's tables, from its context entry (R235). -/
def walkCtx (m : List Host.Cell) (ctxtab ctx va : Nat) : Except TrErr Leaf :=
  let ce := memNat m (ctxtab + 8 * ctx) 8
  if ¬ pteV ce then .error (.fault .notPresent)
  else walkLevels m va 3 0 (bitsN ce 16 36 * 2 ^ 16)

/-- The checks on a leaf, in the order of R236, and the home address. `task`: the access is made in task mode; `grant`:
core windows from slabs and vector registers on are open to it (R236, R323). -/
def leafAddr (self : Nat) (l : Leaf) (va : Nat) (acc : AccKind) (task grant : Bool) : Except TrErr Nat :=
  let e := l.entry
  let size := if l.large then 2 ^ 29 else 2 ^ 16
  let frame := ptePfn e * 2 ^ 16
  let pa := frame + va % size
  if frameBad (pteLoc e) frame size ∨ (pteLoc e ≠ 1 ∧ pteModn e ≠ 0) then .error (.fault .malformed)
  else if pteLost e then .error (.lost (homeOf self (pteLoc e) (pteModn e) pa))
  else if pteMg e then .error (.fault .migrating)
  else if ¬ allowedAcc e acc then .error (.fault .perm)
  else if task ∧ frameMonitorOnly (pteLoc e) frame size ∧
      ¬ (grant ∧ ¬ l.large ∧ pteLoc e = 3 ∧ pa % 0x100000000 < 0x40000000 ∧ pa % 0x1000000 < 0x710000) then .error (.fault .perm)
  else .ok (homeOf self (pteLoc e) (pteModn e) pa)

/-! ### What is stored at a home -/

/-- A byte of a 4,096-bit row. -/
def rowByte (v : VReg) (k : Nat) : Byte := BitVec.ofNat 8 (v.toNat / 2 ^ (8 * k))

/-- A row with one byte replaced. -/
def rowPut (v : VReg) (k : Nat) (b : Byte) : VReg := BitVec.ofNat 4096 (setBitsN v.toNat (8 * k) 8 b.toNat)

/-- The parts of a core window (R232). -/
inductive WinPart where
  | mem
  | acc (row k : Nat)
  | slab (n k : Nat)
  | vec (b n k : Nat)
  | ctl (off : Nat)
  | none
  deriving DecidableEq, Repr

/-- The part of a core window at an offset. -/
def winPart (w : Nat) : WinPart :=
  if w < 0x300000 then .mem
  else if w < 0x400000 then .none
  else if w < 0x600000 then .acc ((w - 0x400000) / 512) (w % 512)
  else if w < 0x700000 then .slab ((w - 0x600000) / 512) (w % 512)
  else if w < 0x708000 then .vec 0 ((w - 0x700000) / 512) (w % 512)
  else if w < 0x710000 then .vec 1 ((w - 0x708000) / 512) (w % 512)
  else if w < 0x718000 then .ctl (w - 0x710000)
  else .none

/-- The core whose window holds a home address. -/
def winCore (a : Nat) : Option (Nat × Nat) :=
  if 0xF000000000000 ≤ a ∧ a < 0xF000800000000 ∧ a % 0x100000000 < 0x40000000 then
    some ((a - 0xF000000000000) / 0x100000000 * 64 + a % 0x100000000 / 0x1000000, a % 0x1000000)
  else none

/-- A home address in a die window above its ring SRAM, where no storage lies: die control holds no register but the tile
flags, which have operations of their own, and the rest is unassigned (R230, R231). -/
def homeDead (a : Nat) : Bool :=
  decide (0xF000000000000 ≤ a ∧ a < 0xF000800000000 ∧ 0x48000000 ≤ a % 0x100000000)

/-- One byte of raw storage at a home; core control and the tile flags are read by their own operations. -/
def State.homeByte (s : State) (a : Nat) : Byte :=
  match winCore a with
  | none => if homeDead a then 0 else memByte s.mem a
  | some (c, w) =>
    match winPart w with
    | .mem => memByte s.mem a
    | .acc r k => rowByte (Tab.get 0 (s.core c).acc r) k
    | .slab n k => rowByte (Tab.get 0 (s.core c).slabs n) k
    | .vec b n k => rowByte (Tab.get 0 (s.bankAt c b).regs.v n) k
    | .ctl _ => 0
    | .none => 0

def Core.putAcc (x : Core) (r : Nat) (v : VReg) : Core := { x with acc := Tab.set 0 x.acc r v }

def Core.putSlab (x : Core) (k : Nat) (v : VReg) : Core := { x with slabs := Tab.set 0 x.slabs k v }

/-- The end of the frame table, and the bits of a byte of it that are not reserved (R252). -/
def frameTableEnd : Nat := 0x20000000000
def frameKeep (a : Nat) : Byte :=
  match a % 16 with
  | 0 => 0xF8
  | 6 => 0x0F
  | 10 => 0x3F
  | k => if k < 6 ∨ k = 8 ∨ k = 9 then 0xFF else 0

/-- Bytes as a home stores them: the reserved bits of frame-table entries are ignored and read as zero (R252). -/
def stored (a : Nat) (l : List Byte) : List Byte :=
  if a + l.length ≤ frameTable ∨ frameTableEnd ≤ a then l
  else mapFrom (fun k b => if frameTable ≤ a + k ∧ a + k < frameTableEnd then b &&& frameKeep (a + k) else b) 0 l

/-- One byte of raw storage written at a home. -/
def State.putHomeByte (s : State) (a : Nat) (b : Byte) : State :=
  match winCore a with
  | none => if homeDead a then s else { s with mem := memWrite s.mem a [b] }
  | some (c, w) =>
    match winPart w with
    | .mem => { s with mem := memWrite s.mem a [b] }
    | .acc r k => s.modCore c fun x => x.putAcc r (rowPut (Tab.get 0 x.acc r) k b)
    | .slab n k => s.modCore c fun x => x.putSlab n (rowPut (Tab.get 0 x.slabs n) k b)
    | .vec bn n k => s.modBank c bn fun y => { y with regs := { y.regs with
        v := Tab.set 0 y.regs.v n (rowPut (Tab.get 0 y.regs.v n) k b) } }
    | .ctl _ => s
    | .none => s

/-- A range of home addresses whose bytes are all memory cells: the memory of a drawer, or within one die window the ring
SRAM or the scratchpad of one core. -/
def isPlain (a n : Nat) : Bool :=
  let o := a % 0x100000000
  decide (a + n ≤ 0xF000000000000) || decide (0xF000800000000 ≤ a) ||
  (decide (0xF000000000000 ≤ a) &&
    (decide (0x40000000 ≤ o ∧ o + n ≤ 0x48000000) || decide (o < 0x40000000 ∧ a % 0x1000000 + n ≤ 0x300000)))

/-- `n` bytes of raw storage from a home address. -/
def State.homeBytes (s : State) (a n : Nat) : List Byte :=
  if isPlain a n then memRead s.mem a n
  else (List.range n).map fun k => s.homeByte (a + k)

/-- Bytes of raw storage written one by one. -/
def State.putHomeEach (s : State) : Nat → List Byte → State
  | _, [] => s
  | a, b :: l => (s.putHomeByte a b).putHomeEach (a + 1) l

/-- The frame-table entry of a local drawer frame: its byte 10, where the flags lie (R252). -/
def frameFlags (f : Nat) : Nat := frameTable + 16 * f + 10

/-- FA of every frame of the local drawer that the range reaches (R252). -/
def State.touchFrames (s : State) (a n : Nat) : State :=
  if n = 0 ∨ 0x20000000000 ≤ a then s
  else
    let f0 := a / 2 ^ 16
    let f1 := (a + n - 1) / 2 ^ 16
    (List.range (f1 - f0 + 1)).foldl (fun s k =>
      let fa := frameFlags (f0 + k)
      { s with mem := memWrite s.mem fa [memByte s.mem fa ||| 2#8] }) s

/-- The 8-byte words of a range. -/
def wordsOf (a n : Nat) : List Nat := (List.range ((a + n + 7) / 8 - a / 8)).map fun k => a / 8 + k

/-- A word reads as an uncorrectable error: it holds one, or an injection waits for its read (R378, R384). -/
def State.isBad (s : State) (w : Nat) : Bool := Tab.get false s.bad w || Tab.get 0 s.inject w != 0

/-- A word reads with one bit corrected: it holds a single-bit error, or an injection of one bit waits for its read (R353, R384). -/
def State.isSoft (s : State) (w : Nat) : Bool := Tab.get false s.soft w || Tab.get 0 s.injectOne w != 0

/-- No word of the module reads so. -/
def State.noSoft (s : State) : Bool := s.soft.isEmpty && s.injectOne.isEmpty

/-- The words of a range that read so. -/
def State.softIn (s : State) (a n : Nat) : List Nat :=
  if n = 0 ∨ s.noSoft then [] else (wordsOf a n).filter s.isSoft

/-- No word of the module reads as an error. -/
def State.noBad (s : State) : Bool := s.bad.isEmpty && s.inject.isEmpty

/-- The first word of a range that reads as an uncorrectable error (R378), as a physical address. -/
def State.badIn (s : State) (a n : Nat) : Option Nat :=
  if n = 0 ∨ s.noBad then none else ((wordsOf a n).find? s.isBad).map (· * 8)

/-- Bytes written at a home: a word covered whole loses its errors (R378). -/
def State.putHome (s : State) (a : Nat) (l : List Byte) : State :=
  let s1 := if isPlain a l.length then { s with mem := memWrite s.mem a (stored a l) } else s.putHomeEach a l
  let mend (e : Tab Bool) : Tab Bool := (wordsOf a l.length).foldl (fun t w =>
    if a ≤ 8 * w ∧ 8 * w + 8 ≤ a + l.length then Tab.set false t w false else t) e
  if s1.bad = [] ∧ s1.soft = [] then s1 else { s1 with bad := mend s1.bad, soft := mend s1.soft }

/-- A word of the range is bad and written only in part: the write is not performed (R378). -/
def State.badPart (s : State) (a n : Nat) : Option Nat :=
  if n = 0 ∨ s.noBad then none
  else ((wordsOf a n).find? fun w => s.isBad w && !decide (a ≤ 8 * w ∧ 8 * w + 8 ≤ a + n)).map (· * 8)

/-! ### The ports an access needs (R385, R392, R399) -/

/-- A port is UP. -/
def State.portUp (s : State) (p : Nat) : Bool :=
  let x : Port := Tab.get {} s.ports p
  x.st == .up && x.rx == .up

/-- The torus direction from coordinate `a` to `b` of a ring of 16: false positive; the shorter way, positive at
distance 8 (R399). -/
def ringNegative (a b : Nat) : Bool := decide (8 < (b + 16 - a) % 16)

/-- The port by which this module sends to module `dst` in a class: dimension order X, Y, Z in a pod, a circuit port to
another pod (R385, R399, R400). -/
def routePort (self dst cls : Nat) : Nat :=
  let h := if portHash self dst cls then 1 else 0
  let dim (lo base : Nat) : Nat := base + (if ringNegative (bitsN self lo 4) (bitsN dst lo 4) then 2 else 0) + h
  if bitsN self 12 5 ≠ bitsN dst 12 5 then 28
  else if bitsN self 0 4 ≠ bitsN dst 0 4 then dim 0 16
  else if bitsN self 4 4 ≠ bitsN dst 4 4 then dim 4 20
  else dim 8 24

/-- The virtual channel on which this module sends from a port: 1 when the hop crosses the dateline of its ring (R399). DESIGN CHOICE,
log 146: the dateline lies between the coordinates 15 and 0. -/
def portChannel (self p : Nat) : Nat :=
  let x := bitsN self ((p - 16) / 4 * 4) 4
  if 16 ≤ p ∧ p < 28 ∧ x = (if (p - 16) / 2 % 2 = 0 then 15 else 0) then 1 else 0

/-- The other port of a torus port's direction (R385). -/
def portTwin (p : Nat) : Nat := if p % 2 = 0 then p + 1 else p - 1

/-- The port that carries a packet: when the one of the hash is DOWN, the other of its direction (R391). -/
def State.route (s : State) (dst cls : Nat) : Nat :=
  let p := routePort s.modn dst cls
  if 16 ≤ p ∧ p < 28 ∧ (Tab.get {} s.ports p).st = .down then portTwin p else p

/-- The first home address of another module's drawer, and the module of one. -/
def remoteBase : Nat := 2 ^ 53
def remoteMod (a : Nat) : Nat := a / 2 ^ 52 - 2

/-- Every port that an access of `n` bytes at a home needs is UP. -/
def State.linkUp (s : State) (a n cls : Nat) : Bool :=
  if a < 0x20000000000 then
    (List.range (min 16 ((a % 256 + n + 255) / 256))).all fun k => s.portUp ((a / 256 + k) % 16)
  else if a < remoteBase then true
  else
    let dst := remoteMod a
    if bitsN s.modn 12 5 = bitsN dst 12 5 then s.portUp (s.route dst cls) else (List.range 4).any fun k => s.portUp (28 + k)

/-- A piece joins those that wait for a slot; it lengthens the last one when they are alike. -/
def Port.addPiece (p : Port) (q : Piece) : Port :=
  match p.pieces.getLast? with
  | some l =>
    if l.cls = q.cls ∧ l.group = q.group ∧ l.family = q.family then
      { p with pieces := p.pieces.dropLast ++ [{ l with bytes := l.bytes + q.bytes }] }
    else { p with pieces := p.pieces ++ [q] }
  | none => { p with pieces := [q] }

/-- An access of `n` bytes at a home takes its place on the drawer ports it needs, in whole 64-byte units (R385, R393). -/
def State.usePorts (s : State) (cls group family a n : Nat) : State :=
  if n = 0 ∨ 0x20000000000 ≤ a then s
  else (List.range ((a + n - 1) / 256 + 1 - a / 256)).foldl (fun u k =>
    let lo := max a ((a / 256 + k) * 256)
    let hi := min (a + n) ((a / 256 + k + 1) * 256)
    let p := (a / 256 + k) % 16
    let q : Piece := { cls := cls, group := group, family := family, bytes := ((hi + 63) / 64 - lo / 64) * 64 }
    { u with ports := Tab.set {} u.ports p ((Tab.get {} u.ports p).addPiece q) }) s

/-- An access to drawer memory by a requester to which R250 gives no class. DESIGN CHOICE, log 136: class 0 of the IO die's group. -/
def State.access (s : State) (a n : Nat) : State := (s.touchFrames a n).usePorts 0 8 0 a n

/-! ### The translation cache (R237, R238) -/

/-- An entry of the page tables with bits set by an atomic OR at its home (R238). -/
def State.orPte (s : State) (pte bits : Nat) : State :=
  { s with mem := memPut s.mem pte 8 (memNat s.mem pte 8 ||| bits) }

/-- Page-table entries are read or written by a requester of a die: their frames are accessed and they travel in class 0
(R250, R252). -/
def State.touchTables (s : State) (die : Nat) (l : List Nat) : State :=
  l.foldl (fun u a => (u.touchFrames a 8).usePorts 0 die 0 a 8) s

/-- A map unit or an engine of a die sets A or D (R238, R323). -/
def State.setPte (s : State) (die pte bits : Nat) : State := (s.orPte pte bits).touchTables die [pte]

/-- The cached leaf of a page. -/
def Core.tlbHit (x : Core) (ctx va : Nat) : Option TlbEntry :=
  x.tlb.find? fun t => t.ctx == ctx && t.page == (if t.large then va / 2 ^ 29 else va / 2 ^ 16)

/-- The walk with the walk cache of a core: a cached table is used in place of the entry that leads to it. -/
def Core.walkFrom (x : Core) (ctx va : Nat) : Option (Nat × Nat) :=
  match x.walk.find? fun w => w.ctx == ctx && w.lvl == 1 && w.index == va / 2 ^ 29 with
  | some w => some (2, w.table)
  | none =>
    match x.walk.find? fun w => w.ctx == ctx && w.lvl == 0 && w.index == va / 2 ^ 42 with
    | some w => some (1, w.table)
    | none =>
      match x.walk.find? fun w => w.ctx == ctx && w.lvl == 3 with
      | some w => some (0, w.table)
      | none => none

/-- The tables that the non-leaf entries of a walk lead to, from table `t` of level `lvl` on, for the walk cache. -/
def walkTables (m : List Host.Cell) (ctx va : Nat) : Nat → Nat → Nat → List WalkEntry
  | 0, _, _ => []
  | n + 1, lvl, t =>
    let e := memNat m (t + 8 * vaIndex va lvl) 8
    if pteV e ∧ ¬ pteLeaf e ∧ lvl < 2 then
      { ctx := ctx, lvl := lvl, index := va / 2 ^ (42 - 13 * lvl), table := ptePfn e * 2 ^ 16 } ::
        walkTables m ctx va n (lvl + 1) (ptePfn e * 2 ^ 16)
    else []

/-- The address of MU.CTXTAB. -/
def State.ctxtab (s : State) : Nat := bitsN s.mod.muCtxtab.toNat 16 36 * 2 ^ 16

/-- The entries that a walk reads from table `t` of level `lvl` on. -/
def walkReads (m : List Host.Cell) (va : Nat) : Nat → Nat → Nat → List Nat
  | 0, _, _ => []
  | n + 1, lvl, t =>
    let a := t + 8 * vaIndex va lvl
    let e := memNat m a 8
    a :: (if pteV e && !pteLeaf e && decide (lvl < 2) then walkReads m va n (lvl + 1) (ptePfn e * 2 ^ 16) else [])

/-- The first of a list of 8-byte entries that holds an uncorrectable error. -/
def State.badEntry (s : State) (l : List Nat) : Option Nat :=
  if s.noBad then none else l.find? fun a => s.isBad (a / 8)

/-- The entries that a walk of a context reads. -/
def State.ctxReads (s : State) (ctx va : Nat) : List Nat :=
  let a := s.ctxtab + 8 * ctx
  a :: walkReads s.mem va 3 0 (bitsN (memNat s.mem a 8) 16 36 * 2 ^ 16)

/-- The level-0 table of a context, as its entry names it. -/
def State.ctxTable (s : State) (ctx : Nat) : Nat := bitsN (memNat s.mem (s.ctxtab + 8 * ctx) 8) 16 36 * 2 ^ 16

/-- A walk that ends in a fault has read its entries as well (R250, R252). -/
def State.touchWalk (s : State) (die ctx va : Nat) : State := s.touchTables die (s.ctxReads ctx va)

/-- What a map unit's walk of an address gives, the entries it reads, and the tables it passes: from the lowest table that the
walk cache holds, else from the context's entry (R236, R237). -/
def State.cachedWalk (s : State) (c ctx va : Nat) : Except TrErr Leaf × List Nat × List WalkEntry :=
  match (s.core c).walkFrom ctx va with
  | some (lvl, t) =>
    (walkLevels s.mem va (3 - lvl) lvl t, walkReads s.mem va (3 - lvl) lvl t, walkTables s.mem ctx va (3 - lvl) lvl t)
  | none =>
    let t := s.ctxTable ctx
    (walkCtx s.mem s.ctxtab ctx va, s.ctxReads ctx va,
      { ctx := ctx, lvl := 3, index := 0, table := t } :: walkTables s.mem ctx va 3 0 t)

/-- A walk with its entries checked for uncorrectable errors (R379). -/
def State.checkedWalk (s : State) (w : Except TrErr Leaf) (reads : List Nat) : Except TrErr Leaf :=
  match s.badEntry reads with
  | some a => .error (.table a)
  | none => w

/-- A translation by core `c`'s map unit: the home address, with the caches and the A and D bits as it leaves them. -/
def State.translate (s : State) (c ctx va : Nat) (acc : AccKind) (task : Bool) : Except TrErr (Nat × State) :=
  let x := s.core c
  let needD (e : Nat) : Bool := (acc == .write || acc == .atomic) && !pteD e
  match x.tlbHit ctx va with
  | some t =>
    match leafAddr s.modn { large := t.large, pte := t.pte, entry := t.entry } va acc task false with
    | .error e => .error e
    | .ok a =>
      if needD t.entry then
        let t' := { t with entry := t.entry + 64 }
        .ok (a, (s.setPte (c / 64) t.pte 64).modCore c fun y => { y with tlb := y.tlb.map fun u => if u = t then t' else u })
      else .ok (a, s)
  | none =>
    let r := s.cachedWalk c ctx va
    match s.checkedWalk r.1 r.2.1 with
    | .error e => .error e
    | .ok l =>
      match leafAddr s.modn l va acc task false with
      | .error e => .error e
      | .ok a =>
        let bits := 32 + (if needD l.entry then 64 else 0)
        let e' := l.entry ||| bits
        let t : TlbEntry := { ctx := ctx, large := l.large, page := if l.large then va / 2 ^ 29 else va / 2 ^ 16,
                              pte := l.pte, entry := e' }
        let s0 := s.touchTables (c / 64) r.2.1
        let s1 := if l.entry = e' then s0 else s0.setPte (c / 64) l.pte bits
        .ok (a, s1.modCore c fun y => { y with tlb := (t :: y.tlb).take 1024, walk := (r.2.2 ++ y.walk).take 64 })

/-- A translation by an engine or the Rambler for a requester of a die: the walk, with A and D set (R323). -/
def State.translateFresh (s : State) (die ctx va : Nat) (acc : AccKind) (task grant : Bool) : Except TrErr (Nat × State) :=
  let reads := s.ctxReads ctx va
  match s.checkedWalk (walkCtx s.mem s.ctxtab ctx va) reads with
  | .error e => .error e
  | .ok l =>
    match leafAddr s.modn l va acc task grant with
    | .error e => .error e
    | .ok a =>
      let bits := 32 + (if acc = .write ∨ acc = .atomic then 64 else 0)
      let s1 := s.touchTables die reads
      .ok (a, if l.entry ||| bits = l.entry then s1 else s1.setPte die l.pte bits)

/-- MUINV (R118, R239): mode 0 the page of a virtual address, 1 a context, 2 everything. -/
def Core.muinv (x : Core) (mode ctx va : Nat) : Core :=
  if mode = 0 then
    { x with tlb := x.tlb.filter fun t => !(t.ctx == ctx && t.page == (if t.large then va / 2 ^ 29 else va / 2 ^ 16)) }
  else if mode = 1 then
    { x with tlb := x.tlb.filter (·.ctx != ctx), walk := x.walk.filter (·.ctx != ctx) }
  else { x with tlb := [], walk := [] }

/-! ### Packets (R409) -/

/-- An engine's job: core, engine and card, or the die's first core, 2 and the operation of a collective engine. -/
structure JobKey where
  c : Nat
  e : Nat
  k : Nat
  deriving DecidableEq, Repr

/-- The packet is the job's. -/
def OutPacket.of (q : OutPacket) (j : JobKey) : Bool := q.c == j.c && q.e == j.e && q.k == j.k

/-- The bytes end at a 256-byte boundary: nothing joins the packet any more (R409). -/
def OutPacket.full (q : OutPacket) : Bool := (q.addr + q.bytes.length) % 256 == 0

/-- Bytes that a job writes to another module's drawer join the packets to be sent, cut at 256-byte boundaries (R409). -/
def State.sendOut (s : State) (j : JobKey) (a cls ctx : Nat) (l : List Byte) : State :=
  let q : OutPacket := { c := j.c, e := j.e, k := j.k, dst := remoteMod a, addr := a % 2 ^ 52, cls := cls, ctx := ctx, bytes := l }
  match (s.out.filter fun p => p.of j).getLast? with
  | some p =>
    if p.dst = q.dst ∧ p.cls = cls ∧ p.ctx = ctx ∧ p.addr + p.bytes.length = q.addr ∧ ¬ p.full then
      { s with out := s.out.erase p ++ [{ p with bytes := p.bytes ++ l }] }
    else { s with out := s.out ++ [q] }
  | none => { s with out := s.out ++ [q] }

end Sys2Proof.Machine
end

