-- ==== Sys2Proof/Machine/Tasks.lean ====
section
/-!
DEFINITION. Tasks as the scheduler sees them: the start of a task (R206), the end and the kill of one (R108, R382), the
accumulator partition (R210), the fault ring (R371, R372).
-/

namespace Sys2Proof.Machine

open Sys2Proof

/-! ### The fault ring -/

def State.ring (s : State) (die : Nat) : FltRing := Tab.get {} s.flt die

def State.setRing (s : State) (die : Nat) (r : FltRing) : State := { s with flt := Tab.set {} s.flt die r }

/-- The 32 bytes of a fault record (R372). -/
def fltBytes (r : FltRec) (seq : Nat) : List Byte :=
  leBytes 1 r.kind ++ leBytes 1 r.info ++ leBytes 2 r.ctx ++ leBytes 4 seq ++ leBytes 8 r.addr ++
  leBytes 2 r.core ++ leBytes 1 r.unit ++ leBytes 13 0

/-- The physical address in FLT.BASE; 0 while the ring is not set up. -/
def fltBase (w : Word) : Nat := bitsN w.toNat 13 39 * 2 ^ 13

/-- An interrupt vector becomes pending (R402). -/
def State.interrupt (s : State) (v : Nat) : State :=
  if s.mgmt.msix.contains v then s else { s with mgmt := { s.mgmt with msix := s.mgmt.msix ++ [v] } }

/-- A record or error event reaches the management controller. -/
def State.notify (s : State) (l : List Byte) : State := { s with mgmt := { s.mgmt with notices := s.mgmt.notices ++ [l] } }

/-- A record is written and its requester waits for the answer; the management controller is interrupted. -/
def State.writeFlt (s : State) (die : Nat) (r : FltRec) (q : Requester) : State :=
  let g := s.ring die
  let seq := g.tail % 2 ^ 32
  let base := fltBase g.base
  let at_ := base + 32 * (g.tail % 256)
  let s1 := if base = 0 then s else { s with mem := memWrite s.mem at_ (fltBytes r seq) }.access at_ 32
  let s2 := s1.setRing die { g with tail := (g.tail + 1) % 2 ^ 32,
                                    pending := if q = .none then g.pending else g.pending ++ [(seq, q)] }
  (s2.notify (fltBytes r seq)).interrupt 2

/-- The ring is set up and full (R372). -/
def FltRing.full (g : FltRing) : Bool := fltBase g.base != 0 && (g.tail + 2 ^ 32 - g.head) % 2 ^ 32 == 256

/-- The frame of a failed read is quarantined (R381): local drawer frames have entries. -/
def State.quarantine (s : State) (a : Nat) : State :=
  if 0x20000000000 ≤ a then s
  else
    let f := frameFlags (a / 2 ^ 16)
    { s with mem := memWrite s.mem f [memByte s.mem f ||| 32#8] }

/-- The injection that waited at a word has acted: its core's EINJ.CTL.ARM clears (R384). -/
def State.disarm (s : State) (a : Nat) : State :=
  let k := Tab.get 0 s.inject (a / 8)
  if k = 0 then s
  else { s.modCore (k - 1) (fun x => { x with cregs := { x.cregs with einjCtl := x.cregs.einjCtl &&& 0xFFE } }) with
         inject := Tab.set 0 s.inject (a / 8) 0 }

/-- The core, the array (R383) and the offset in it that a physical address of an SRAM array is; a die's ring SRAM is
logged with the first core of the die. -/
def arrayOf (a : Nat) : Option (Nat × Nat × Nat) :=
  match winCore a with
  | some (c, w) =>
    if w < 0x300000 then some (c, 0, w)
    else if w < 0x400000 then none
    else if w < 0x600000 then some (c, 1, w - 0x400000)
    else if w < 0x700000 then some (c, 2, w - 0x600000)
    else if w < 0x708000 then some (c, 3, w - 0x700000)
    else if w < 0x710000 then some (c, 4, w - 0x708000)
    else none
  | none =>
    let o := a % 0x100000000
    if 0xF000000000000 ≤ a ∧ a < 0xF000800000000 ∧ 0x40000000 ≤ o ∧ o < 0x48000000 then
      some ((a - 0xF000000000000) / 0x100000000 * 64, 8, o - 0x40000000)
    else none

/-- An event enters a log: its count saturates; it is the one that the log keeps unless it was corrected and an uncorrectable one
is kept (R383). -/
def Elog.note (e : Elog) (two : Bool) (addr syn ctx : Nat) : Elog :=
  let up (n : Nat) : Nat := min (n + 1) (2 ^ 32 - 1)
  let f : Elog := if two then { e with uncorrectable := up e.uncorrectable } else { e with corrected := up e.corrected }
  if two ∨ ¬ e.syn.testBit 9 then { f with addr := addr, syn := 256 + (if two then 512 else 0) + syn % 256, ctx := ctx } else f

/-- An event at an offset of array `k` of a core. -/
def State.logArray (s : State) (c k off ctx : Nat) (two : Bool) (syn : Nat) : State :=
  s.modCore c fun x => { x with elog := Tab.set {} x.elog k ((Tab.get {} x.elog k).note two off syn ctx) }

/-- An uncorrectable event at a physical address enters its array's log. -/
def State.logBad (s : State) (a ctx : Nat) : State :=
  match arrayOf a with
  | none => s
  | some (c, k, o) => s.logArray c k o ctx true (syndrome a)

/-- Single-bit errors that a read of a range meets are corrected: each enters its array's log, an injection has acted (R353, R383,
R384). -/
def State.correct (s : State) (ctx a n : Nat) : State :=
  (s.softIn a n).foldl (fun u w =>
    let k := Tab.get 0 u.injectOne w
    let v := match arrayOf (8 * w) with
      | none => u
      | some (c, k, o) => u.logArray c k o ctx false (syndrome (8 * w))
    let v1 := if k = 0 then v else v.modCore (k - 1) fun x => { x with cregs := { x.cregs with einjCtl := x.cregs.einjCtl &&& 0xFFE } }
    { v1 with injectOne := Tab.set 0 v1.injectOne w 0, soft := Tab.set false v1.soft w false }) s

/-! ### Arrays that have no physical address: the loop buffer, the routine stores, the tile table (R383, R384) -/

/-- The word at an offset lies in a read of `n` bytes from `lo`. -/
def inRead (lo n off : Nat) : Bool := decide (lo < off + 8 ∧ off < lo + n)

/-- EINJ.CTL is armed for array `k`, at a word of the read. -/
def CoreCregs.armedAt (r : CoreCregs) (k lo n : Nat) : Bool :=
  r.einjCtl.toNat.testBit 0 && bitsN r.einjCtl.toNat 4 4 == k && bitsN r.einjCtl.toNat 2 2 != 0 && inRead lo n (r.einjAddr.toNat / 8 * 8)

/-- The error that a read of `n` bytes from `lo` of array `k` meets by this core's injection or in its list: its offset, and whether
two bits are wrong. -/
def Core.upset (x : Core) (k lo n : Nat) : Option (Nat × Bool) :=
  if x.cregs.armedAt k lo n then some (x.cregs.einjAddr.toNat / 8 * 8, bitsN x.cregs.einjCtl.toNat 2 2 == 2)
  else (x.upsets.find? fun e => e.1 == k && inRead lo n e.2.1).map (·.2)

/-- That error has been met. -/
def Core.dropUpset (x : Core) (k lo n : Nat) : Core :=
  if x.cregs.armedAt k lo n then { x with cregs := { x.cregs with einjCtl := x.cregs.einjCtl &&& 0xFFE } }
  else
    match x.upsets.find? fun e => e.1 == k && inRead lo n e.2.1 with
    | some e => { x with upsets := x.upsets.erase e }
    | none => x

/-- The cores whose injections reach array `k` of core `c`: for a die's tile table those of the die. -/
def State.injectors (s : State) (c k : Nat) : List Nat :=
  if k = 9 then (s.cores.map (·.1)).filter fun d => d / 64 == c / 64 else [c]

/-- A read of array `k` of core `c`: the error that it meets is logged, and its offset and number of bits are the answer. -/
def State.readArray (s : State) (c k lo n ctx : Nat) : State × Option (Nat × Bool) :=
  match (s.injectors c k).findSome? fun d => ((s.core d).upset k lo n).map fun e => (d, e) with
  | none => (s, none)
  | some (d, off, two) =>
    ((s.modCore d fun x => x.dropUpset k lo n).logArray (if k = 9 then c / 64 * 64 else c) k off ctx two (syndrome off), some (off, two))

/-- A record enters its die's ring, or waits until one is consumed. -/
def State.pushFlt (s : State) (die : Nat) (r : FltRec) (q : Requester) : State :=
  let g := s.ring die
  if g.full || !g.waiting.isEmpty then s.setRing die { g with waiting := g.waiting ++ [(r, q)] }
  else s.writeFlt die r q

/-- A record is posted; one of uncorrectable data at an address quarantines its frame. -/
def State.postFlt (s : State) (die : Nat) (r : FltRec) (q : Requester) : State :=
  (if r.kind = 4 then ((s.quarantine r.addr).disarm r.addr).logBad r.addr r.ctx else s).pushFlt die r q

/-- The records that waited are posted while there is room. -/
def State.drainFlt (s : State) (die : Nat) : Nat → State
  | 0 => s
  | n + 1 =>
    let g := s.ring die
    match g.waiting with
    | [] => s
    | (r, q) :: rest =>
      if g.full then s else ((s.setRing die { g with waiting := rest }).writeFlt die r q).drainFlt die n

/-! ### Partitions (R207, R210) -/

/-- ACC.PART from the two partitions. -/
def accPartWord (base0 cnt0 base1 cnt1 : Nat) : Word :=
  BitVec.ofNat 64 (base0 + cnt0 * 2 ^ 5 + base1 * 2 ^ 16 + cnt1 * 2 ^ 21)

/-- The first tile and the count of a bank's partition. -/
def accPartOf (w : Word) (b : Nat) : Nat × Nat :=
  if b = 0 then (bitsN w.toNat 0 5, bitsN w.toNat 5 6) else (bitsN w.toNat 16 5, bitsN w.toNat 21 6)

/-- The launch of a task. -/
def State.launch (s : State) (l : Nat) : Launch := Tab.get {} s.launches l

def State.setLaunch (s : State) (l : Nat) (x : Launch) : State := { s with launches := Tab.set {} s.launches l x }

def State.modLaunch (s : State) (l : Nat) (f : Launch → Launch) : State := s.setLaunch l (f (s.launch l))

/-- The partitions for the banks as they are occupied: a task alone holds C0 to C31; one of no tiles starts at C0. -/
def State.setPart (s : State) (c : Nat) : State :=
  let x := s.core c
  let w :=
    if x.bank0.state = .empty then
      (if x.bank1.state = .empty then accPartWord 0 32 0 0 else accPartWord 0 0 0 32)
    else if x.bank1.state = .empty then accPartWord 0 32 0 0
    else
      let n0 := (s.launch x.bank0.task.launch).nest.accn
      let n1 := (s.launch x.bank1.task.launch).nest.accn
      accPartWord 0 n0 ((32 - n1) % 32) n1
  s.setCore c { x with cregs := { x.cregs with accPart := w } }

/-! ### Release of what a task holds -/

/-- The slabs that the writes of a result have taken. -/
def takenBy (l : List Write) : List Nat :=
  (l.map fun w => match w with
    | .slabsHeld t => t
    | .park _ (.slab k) _ => [k]
    | _ => []).flatten

/-- The slabs a bank's names, parked registers and operations in flight hold. -/
def Bank.slabsHeld (b : Bank) : List Nat :=
  (b.regs.m.map fun e => e.2.slabs).flatten ++
  (b.parked.filterMap fun e => match e.2 with
    | .slab k => some k
    | _ => none) ++
  ((b.pipe.pend ++ b.pipe.latches).map fun p => takenBy p.writes).flatten ++
  ((b.pipe.vars.filter fun v => !v.dropped).map fun v => takenBy (v.writes.getD [])).flatten

/-- Slabs return to the pool. -/
def Core.freeSlabs (x : Core) (l : List Nat) : Core :=
  { x with slabUse := l.foldl (fun t k => Tab.set 0 t k 0) x.slabUse }

/-- The speculative address registers are discarded (R47). -/
def Core.noSpec (x : Core) : Core := { x with spec := [], specPc := none }
def State.noSpec (s : State) (c : Nat) : State := s.modCore c Core.noSpec

/-- The bank is empty: its slabs return, its partition goes to the other bank; what its task's address stream had computed is
discarded (R47). -/
def State.emptyBank (s : State) (c b : Nat) : State :=
  let y := s.bankAt c b
  (((if (s.core c).cur % 2 = b then s.noSpec c else s).modCore c fun x =>
    { (x.freeSlabs y.slabsHeld).setBank b { pipe := { clk := y.pipe.clk, nextIssue := y.pipe.clk } } with
      direct := x.direct.map fun d => if d.bank = b ∧ ¬ d.orphan then { d with varId := 0, orphan := true, launch := y.task.launch } else d
      orphans := x.orphans ++ (y.pipe.vars.filter fun v => v.kind == .writeback && !v.kept).map fun v => (y.task.launch, v) }).setPart c)

/-- A task has ended: its launch counts it (R108, R219, R222). -/
def State.taskEnded (s : State) (l wid : Nat) : State :=
  s.modLaunch l fun x => { x with live := x.live - 1, ended := x.ended ++ [wid] }

/-- What a killed task has not yet got started is discarded: its cards that have not started, its schedules whose start
waits, on every core and die on which it ran (R287, R345). -/
def State.dropWork (s : State) (l wid : Nat) : State :=
  let own (k : Card) : Bool := !k.started && k.status == none && k.launch == l && k.wid == wid
  let keep (g : Engine) : Engine := { g with cards := g.cards.filter fun k => !own k }
  let n := (s.cores.map fun e => ((e.2.cpe0.cards ++ e.2.cpe1.cards).filter own).length).foldl (· + ·) 0
  let mine (q : LStart) : Bool := match q.src with
    | .push _ _ la w _ _ _ => la == l && w == wid
    | .sched .. => false
  let m := (s.cles.map fun e => (e.2.startQ.filter mine).length).foldl (· + ·) 0
  let s1 := s.cores.foldl (fun u e => if (e.2.cpe0.cards ++ e.2.cpe1.cards).any own then
    u.modCore e.1 fun x => { x with cpe0 := keep x.cpe0, cpe1 := keep x.cpe1 } else u) s
  let s2 := { s1 with cles := s1.cles.map fun (e : Nat × Cle) => (e.1, { e.2 with startQ := e.2.startQ.filter fun q => !mine q }) }
  s2.modLaunch l fun y => { y with jobs := y.jobs - n - m }

/-- A task is killed (R382): what it had not committed is discarded, its slabs and tiles are freed, a record of kind 7
names the cause. -/
def State.killTask (s : State) (c b cause : Nat) : State :=
  let y := s.bankAt c b
  if y.state = .empty then s
  else
    let s1 := ((s.emptyBank c b).taskEnded y.task.launch y.task.wid).dropWork y.task.launch y.task.wid
    let s2 := s1.modLaunch y.task.launch fun x =>
      { x with killed := x.killed + 1, firstCause := if x.killed = 0 then cause else x.firstCause }
    s2.postFlt (c / 64) { kind := 7, info := cause, ctx := y.cregs.ctxid.toNat, addr := reportAddr, core := c, unit := b } .none

/-- A task of the launch is gone and counts as killed, with a record of kind 7 on a die's ring. -/
def State.killedAway (s : State) (lid wid cause ctx die core unit : Nat) : State :=
  (((s.taskEnded lid wid).dropWork lid wid).modLaunch lid fun x =>
    { x with killed := x.killed + 1, firstCause := if x.killed = 0 then cause else x.firstCause }).postFlt die
    { kind := 7, info := cause, ctx := ctx, addr := reportAddr, core := core, unit := unit } .none

/-- A saved context goes: its area and its queue entry are free, what it had committed is still performed (R382). -/
def State.dropSaved (s : State) (c : Nat) (v : Saved) : State :=
  let t := v.bank.task
  s.modCore c fun x =>
    { x with saved := x.saved.filter fun w => w.area != v.area
             runQ := x.runQ.filter fun q => match q with
               | .saved k _ _ => k != v.area
               | _ => true
             direct := x.direct ++ v.entries.map fun d => { d with faulted := false, varId := 0, orphan := true, launch := t.launch }
             orphans := x.orphans ++ (v.bank.pipe.vars.filter fun v => v.kind == .writeback && !v.kept).map fun o => (t.launch, o) }

/-- A saved context is killed (R382). -/
def State.killSaved (s : State) (c : Nat) (v : Saved) (cause : Nat) : State :=
  let t := v.bank.task
  (s.dropSaved c v).killedAway t.launch t.wid cause v.bank.cregs.ctxid.toNat (c / 64) c v.bankNo

/-! ### The start of a task (R98, R206) -/

/-- F_k of an identifier under the widths W0 … W5 (R98). -/
def fieldOf : List Nat → Nat → Nat → Nat
  | [], _, _ => 0
  | w :: _, 0, wid => wid % 2 ^ w
  | w :: ws, k + 1, wid => fieldOf ws k (wid / 2 ^ w)

/-- WORK.SHAPE of the widths (R97). -/
def shapeWord (ws : List Nat) : Word := BitVec.ofNat 64 (packFields [7, 7, 7, 7, 7, 7] ws)

/-- The bank at a task's first bundle: R14's initial values and the registers of R206. -/
def Bank.start (old : Bank) (n : Nest) (ctx argo wid core launch prio : Nat) (gang : List Nat) (gid : Nat) : Bank :=
  let f (k : Nat) : Word := BitVec.ofNat 64 (fieldOf n.widths k wid)
  let w : Word := BitVec.ofNat 64 wid
  let rs : List (Nat × Word) :=
    [(1, w), (2, f 0), (3, f 1), (4, f 2), (5, f 3), (6, f 4), (7, f 5),
     (8, BitVec.ofNat 64 (if argo = 0 then n.arg else argo)), (9, BitVec.ofNat 64 core)]
  let r : Regs := rs.foldl (fun r e => r.ws e.1 e.2) {}
  { regs := r.wa 1 (BitVec.ofNat 64 n.spbase),
    cregs := { ctxid := BitVec.ofNat 64 ctx, workId := w, workShape := shapeWord n.widths,
               launchTrec := BitVec.ofNat 64 n.trec, taskPrio := BitVec.ofNat 64 (prio + 16 * n.pcap) },
    pc := n.entry, state := .ready,
    pipe := { clk := old.pipe.clk, nextIssue := old.pipe.clk },
    task := { launch := launch, wid := wid, gang := gang, gid := gid } }

/-- The task has arrived at a rendezvous or a chained instruction and holds there. -/
def Task.atMeeting (t : Task) : Bool := t.rdvAt.isSome || t.chainAt.isSome

/-- The current level of a bank's task. -/
def Bank.level (b : Bank) : Nat := bitsN b.cregs.taskPrio.toNat 0 4

/-- PCAP of a bank's task. -/
def Bank.pcap (b : Bank) : Nat := bitsN b.cregs.taskPrio.toNat 4 4

end Sys2Proof.Machine
end

