-- ==== Sys2Proof/Machine/Regions.lean ====
section
/-!
DEFINITION. Regions (R242 to R247): which sectors an access touches and what the touch does, fills, captures of dirty
sectors, what a phase's completion leaves.
-/

namespace Sys2Proof.Machine

open Sys2Proof

/-- A range of scratchpad that an access reads or writes. -/
structure Touch where
  addr : Nat
  len : Nat
  write : Bool
  deriving DecidableEq, Repr

/-- The sectors of a region that a range reaches. -/
def Region.secsOf (r : Region) (a n : Nat) : List Nat :=
  let lo := max a r.start
  let hi := min (a + n) (r.start + r.len)
  if hi ≤ lo then [] else (List.range ((hi - 1 - r.start) / 4096 + 1 - (lo - r.start) / 4096)).map
    fun k => (lo - r.start) / 4096 + k

def Region.secState (r : Region) (k : Nat) : SecState := Tab.get .inv r.sec k

def Region.setSec (r : Region) (k : Nat) (st : SecState) : Region := { r with sec := Tab.set .inv r.sec k st }

/-- The number of sectors. -/
def Region.count (r : Region) : Nat := r.len / 4096

/-- The mapped regions of a bank, numbered. -/
def Bank.mapped (b : Bank) : List (Nat × Region) :=
  b.regions.filterMap fun e => e.2.map fun r => (e.1, r)

def Bank.region (b : Bank) (n : Nat) : Option Region := Tab.get none b.regions n

def Bank.setRegion (b : Bank) (n : Nat) (r : Option Region) : Bank :=
  { b with regions := Tab.set none b.regions n r }

/-- The region and sector pairs that a list of touches reaches, with whether it writes. -/
def Bank.touched (b : Bank) (ts : List Touch) : List (Nat × Region × Nat × Bool) :=
  if b.mapped = [] then []
  else (ts.map fun t => (b.mapped.map fun e => (e.2.secsOf t.addr t.len).map fun k => (e.1, e.2, k, t.write)).flatten).flatten

/-- A write touch of a mode 1 region raises region map (R242). -/
def Bank.touchTrap (b : Bank) (ts : List Touch) : Option Trap :=
  ((b.touched ts).find? fun e => e.2.2.2 && e.2.1.mode == 1).map fun e => { cause := 0x12, info := BitVec.ofNat 64 e.1 }

/-- The sectors that must be filled before the access: INV or FILL, unless the region is write-only (R242). -/
def Bank.touchWaits (b : Bank) (ts : List Touch) : List (Nat × Nat) :=
  (b.touched ts).filterMap fun e =>
    let st := e.2.1.secState e.2.2.1
    if e.2.1.mode ≠ 2 ∧ (st = .inv ∨ st = .fill) then some (e.1, e.2.2.1) else none

/-- The sectors that the access makes DIRTY. -/
def Bank.touchDirty (b : Bank) (ts : List Touch) : List (Nat × Nat) :=
  (b.touched ts).filterMap fun e => if e.2.2.2 && e.2.1.mode != 1 then some (e.1, e.2.2.1) else none

/-- The page fault a translation error is for an instruction: MU.FVA in `info`, KIND in `reg`, ACC in `short`; a lost
leaf is uncorrectable data (R240). -/
def trTrap (e : TrErr) (va acc : Nat) : Trap :=
  match e with
  | .fault k => { cause := 0x13, info := BitVec.ofNat 64 va, reg := k.code, short := acc }
  | .lost a => { cause := 0x15, info := BitVec.ofNat 64 a }
  | .table a => { cause := 0x15, info := BitVec.ofNat 64 a, table := true }

/-- A fill of a sector is started: translated afresh (R243). -/
def State.startFill (s : State) (c b n k : Nat) : Except Trap State :=
  let y := s.bankAt c b
  match y.region n with
  | none => .ok s
  | some r =>
    if r.secState k ≠ .inv then .ok s
    else
      let va := r.va + 4096 * k
      match s.translate c y.cregs.ctxid.toNat va .read (!y.monitor) with
      | .error e => .error (trTrap e va 0)
      | .ok (a, s1) =>
        if ¬ s1.linkUp a 4096 1 then .error { cause := 0x14, info := BitVec.ofNat 64 va, need := some (a, 4096, 1) }
        else .ok (s1.modBank c b fun z =>
          z.setRegion n (some { (r.setSec k .fill) with fills := r.fills ++ [{ sec := k, home := a, after := (s1.core c).varNext }] }))

/-- An operation on each of several sectors, in order. When it fails, nothing of it stands, and of all the traps that its
sectors meet the one with the lowest code is reported (R7). -/
def State.eachSec (f : State → Nat × Nat → Except Trap State) (s : State) : List (Nat × Nat) → Except Trap State
  | [] => .ok s
  | k :: l =>
    match f s k with
    | .ok u => u.eachSec f l
    | .error t =>
      match s.eachSec f l with
      | .ok _ => .error t
      | .error u => .error (if u.cause < t.cause then u else t)

/-- Fills of several sectors (R243). -/
def State.startFills (s : State) (c b : Nat) (l : List (Nat × Nat)) : Except Trap State :=
  s.eachSec (fun u k => u.startFill c b k.1 k.2) l

/-- A sector becomes DIRTY; an INV sector of a write-only region has its translation checked for W (R242). DESIGN CHOICE, log 129:
the check is reported as a data write and sets A and D. -/
def State.dirtySec (s : State) (c b n k : Nat) : Except Trap State :=
  let y := s.bankAt c b
  match y.region n with
  | none => .ok s
  | some r =>
    let mark (u : State) : State := u.modBank c b fun z => z.setRegion n (some (r.setSec k .dirty))
    if r.mode = 2 ∧ r.secState k = .inv then
      match s.translate c y.cregs.ctxid.toNat (r.va + 4096 * k) .write (!y.monitor) with
      | .error e => .error (trTrap e (r.va + 4096 * k) 1)
      | .ok (_, u) => .ok (mark u)
    else .ok (mark s)

/-- The sectors become DIRTY. -/
def State.makeDirty (s : State) (c b : Nat) (l : List (Nat × Nat)) : Except Trap State :=
  s.eachSec (fun u k => u.dirtySec c b k.1 k.2) l

/-- A write of the task's own scratchpad that lands makes its sectors DIRTY, also those captured since it issued (R261). -/
def Bank.redirty (b : Bank) (a n : Nat) : Bank :=
  if b.mapped = [] then b
  else b.mapped.foldl (fun y e =>
    if e.2.mode = 1 then y else y.setRegion e.1 (some ((e.2.secsOf a n).foldl (fun r k => r.setSec k .dirty) e.2))) b

/-- The write-backs begun after operation `n` wait for the commit of their segment (R355). -/
def Bank.keepBacks (b : Bank) (n : Nat) : Bank :=
  { b with pipe := { b.pipe with vars := b.pipe.vars.map fun v => if v.kind = .writeback ∧ n < v.id then { v with kept := true } else v } }

/-- The sectors whose write-backs a rewind has dropped are DIRTY again, so that the capture made again finds them (R358). -/
def Bank.uncapture (b : Bank) : Bank :=
  (b.pipe.vars.filterMap fun v => if v.kept then v.sec else none).foldl (fun y q =>
    match y.region q.1 with
    | some r => y.setRegion q.1 (some (r.setSec q.2 .dirty))
    | none => y) b

/-- A commit releases them. -/
def Bank.freeBacks (b : Bank) : Bank :=
  { b with pipe := { b.pipe with vars := b.pipe.vars.map fun v => if v.kept then { v with kept := false } else v } }

/-- The regions after a rewind (R356): those of the entry state, each with its sectors as they stand if it is still mapped
alike. -/
def Bank.regionsBack (b : Bank) (e : Tab (Option Region)) : Tab (Option Region) :=
  e.map fun q => (q.1, q.2.map fun r =>
    match Tab.get none b.regions q.1 with
    | some now => if now.start = r.start ∧ now.len = r.len ∧ now.va = r.va ∧ now.mode = r.mode then now
                  else { r with fills := [], sec := r.sec.filter fun x => x.2 != .fill }
    | none => { r with fills := [], sec := r.sec.filter fun x => x.2 != .fill })

/-- The physical address of the sector's bytes in scratchpad. -/
def secAddr (c : Nat) (r : Region) (k : Nat) : Nat := scratchAddr c (r.start + 4096 * k)

/-- One dirty sector is captured: its bytes as they stand, a write-back translated now (R244, R245). -/
def State.captureSec (s : State) (c b n k : Nat) : Except Trap State :=
  let y := s.bankAt c b
  match y.region n with
  | none => .ok s
  | some r =>
    if r.secState k ≠ .dirty then .ok s
    else
      let va := r.va + 4096 * k
      match s.badIn (secAddr c r k) 4096 with
      | some w => .error { cause := 0x15, info := BitVec.ofNat 64 w }
      | none =>
        match s.translate c y.cregs.ctxid.toNat va .write (!y.monitor) with
        | .error e => .error (trTrap e va 1)
        | .ok (a, s1) =>
          if ¬ s1.linkUp a 4096 2 then .error { cause := 0x14, info := BitVec.ofNat 64 va, need := some (a, 4096, 2) }
          else
            let bytes := memRead s1.mem (secAddr c r k) 4096
            let s1 := s1.correct y.cregs.ctxid.toNat (secAddr c r k) 4096
            let id := (s1.core c).varNext + 1
            let op : VarOp := {
              id := id, kind := .writeback, pc := y.pc, slot := 6, bundle := y.pipe.bundle, segNo := y.pipe.segNo, sb := 0, earliest := (s1.core c).cycle, latest := none, reg := none
              writes := some [.home a bytes], late := none, sec := some (n, k) }
            .ok ((s1.modCore c fun x => { x with varNext := id }).modBank c b fun z =>
              { z.setRegion n (some (r.setSec k .clean)) with pipe := { z.pipe with vars := z.pipe.vars ++ [op] } })

/-- Sectors captured in order; after a fault nothing of the capture stands (R245). -/
def State.captureSecs (s : State) (c b : Nat) (l : List (Nat × Nat)) : Except Trap State :=
  s.eachSec (fun u k => u.captureSec c b k.1 k.2) l

/-- Every dirty sector of a bank. -/
def Bank.dirtySecs (b : Bank) : List (Nat × Nat) :=
  (b.mapped.map fun e => (List.range e.2.count).filterMap fun k =>
    if e.2.secState k = .dirty then some (e.1, k) else none).flatten

/-- The capture of PHASE, END and eviction. -/
def State.captureAll (s : State) (c b : Nat) : Except Trap State := s.captureSecs c b (s.bankAt c b).dirtySecs

/-- A phase of the task has completed: CLEAN sectors of mode 0 and 1 become INV, fills in flight land as INV (R246). -/
def Bank.afterPhase (b : Bank) : Bank :=
  { b with regions := b.regions.map fun e => (e.1, e.2.map fun r =>
      if r.mode = 2 then r
      else { r with sec := (r.sec.filter fun x => x.2 != .clean), fills := r.fills.map fun f => { f with inv := true } }) }

/-- Every sector becomes INV (R247). -/
def Bank.invalidate (b : Bank) : Bank :=
  { b with regions := b.regions.map fun e => (e.1, e.2.map fun r => { r with sec := [], fills := [] }) }

/-- REGION.PEND (R234, R245): dirty sectors, and fills and write-backs in flight. -/
def Bank.regionPend (b : Bank) : Word :=
  let fills := (b.mapped.map fun e => e.2.fills.length).foldl (· + ·) 0
  let wbs := (b.pipe.vars.filter fun v => v.kind == .writeback).length
  BitVec.ofNat 64 ((fills + wbs) % 2 ^ 16 + 2 ^ 16 * (b.dirtySecs.length % 2 ^ 16))

end Sys2Proof.Machine
end

