-- ==== Sys2Proof/Machine/SaveArea.lean ====
section
/-!
DEFINITION. The context save areas (R375, R376): what a saved task's area holds of its registers, how that is read back,
and the writing out of its slabs, accumulator tiles and weight planes. Parts whose layout R375 does not give to the bit
hold free values; the model keeps what they stand for beside them.
-/

namespace Sys2Proof.Machine

open Sys2Proof

/-- The physical address of slab `k`, of accumulator row `r`, of vector register `i` of a bank (R232). -/
def slabAddr (c k : Nat) : Nat := coreWindow c + 0x600000 + 512 * k
def rowAddr (c r : Nat) : Nat := coreWindow c + 0x400000 + 512 * r
def vecAddr (c b i : Nat) : Nat := coreWindow c + 0x700000 + 0x8000 * b + 512 * i

/-- Save area `k` of a core (R375). -/
def Core.saveArea (x : Core) (k : Nat) : Nat := bitsN x.cregs.csaBase.toNat 25 27 * 2 ^ 25 + k * 0x400000

/-- The size of a save area. -/
def saveSize : Nat := 0x400000

/-! ### The image of the registers -/

/-- Zeros written over a range; outside the frame table that lists nothing. -/
def State.zeroHome (s : State) (a n : Nat) : State :=
  if a + n ≤ frameTable then
    { s with mem := s.mem.filter fun e => !decide (a ≤ e.1 ∧ e.1 < a + n)
             bad := s.bad.filter fun e => !decide (a ≤ 8 * e.1 ∧ 8 * e.1 < a + n)
             soft := s.soft.filter fun e => !decide (a ≤ 8 * e.1 ∧ 8 * e.1 < a + n) }
  else s.putHome a (List.replicate n 0)

/-- Bytes of several registers, 8 bytes each. -/
def wordBytes (l : List Word) : List Byte := (l.map fun w => leBytes 8 w.toNat).flatten

/-- A list of bits, bit 0 first. -/
def bitsNat (l : List Bool) : Nat := packN 1 (l.map bit)

/-- The bytes of a plane at its stored width. -/
def Plane.bytes (p : Plane) : List Byte :=
  let w := if p.fmt = 6 then 4 else fmtBits p.fmt
  ((List.range (4 * w)).map fun k => vecBytes (Tab.get 0 p.img k)).flatten

/-- Every element of the row under `mask` becomes sat(old + term); with the flag (R56, R175, R178). -/
def rowAdd (old mask : VReg) (terms : List Int) : VReg × Bool :=
  let l := (List.range 128).map fun j =>
    let o := laneN old.toNat 32 j
    if mask.toNat.testBit (32 * j) then
      let r := sat32 (sextN 32 o + terms.getD j 0)
      (wrapN 32 r.1, r.2)
    else (o, false)
  (BitVec.ofNat 4096 (packN 32 (l.map (·.1))), l.any (·.2))

/-- The value that a result's write gives a register, for its latch; none of an M descriptor, whose form R375 leaves open. -/
def Write.value : Write → Option VReg
  | .s _ x => some (x.setWidth 4096)
  | .a _ x => some (x.setWidth 4096)
  | .p _ x => some (BitVec.ofNat 4096 (bit x))
  | .v _ _ x => some x
  | .q _ _ x => some (x.setWidth 4096)
  | .t _ _ x => some (x.setWidth 4096)
  | _ => none

/-- The write with another value. -/
def Write.withValue (w : Write) (x : VReg) : Write :=
  match w with
  | .s i _ => .s i (x.setWidth 64)
  | .a i _ => .a i (x.setWidth 64)
  | .p i _ => .p i (x.getLsbD 0)
  | .v i k _ => .v i k x
  | .q i k _ => .q i k (x.setWidth 1024)
  | .t i k _ => .t i k (x.setWidth 256)
  | w => w

/-- The accumulator row that a write reaches. -/
def Write.row : Write → Option Nat
  | .acc r _ _ => some r
  | .accAdd r _ _ => some r
  | _ => none

/-- The writes of registers among a save's latches, in order; the rows of its tile latches; its plane latch. -/
def latchRegs (l : List Pending) : List Write := (l.flatMap (·.writes)).filter fun w => w.value.isSome
def latchRows (l : List Pending) : List Write := (l.flatMap (·.writes)).filter fun w => w.row.isSome
def latchPlane (l : List Pending) : Option Plane := (l.flatMap (·.writes)).findSome? fun w => match w with
  | .plane p => some p
  | _ => none

/-- The place of a row in the tile latches: those of the first tile, then those of the second. -/
def latchRowAt (l : List Pending) (r : Nat) : Nat :=
  let first := ((latchRows l).findSome? Write.row).getD 0 / 128
  0x20000 + 65536 * bit (r / 128 != first) + 512 * (r % 128)

/-- The rows of a save's tile latches as they would be written, from those of the store. -/
def rowImages (l : List Pending) (rows : Tab VReg) : Tab VReg :=
  (latchRows l).foldl (fun t w =>
    let at_ (r : Nat) : VReg := ((t.find? fun e => e.1 == r).map (·.2)).getD (Tab.get 0 rows r)
    let put (r : Nat) (x : VReg) : Tab VReg := (r, x) :: t.filter fun e => e.1 != r
    match w with
    | .acc r m x => put r (blend (at_ r) m x)
    | .accAdd r m terms => put r (rowAdd (at_ r) m terms).1
    | _ => t) []

/-- The parts of a save area that R375 gives to the bit, by offset: what the task's registers hold. -/
def Saved.image (v : Saved) : List (Nat × List Byte) :=
  let y := v.bank
  let r := y.regs
  let k := y.cregs
  let list (d : MDesc) : List Byte := ((List.range 64).map fun p => leBytes 2 (d.slabs.getD p 0)).flatten
  let shifts (d : MDesc) : List Byte :=
    (List.range 512).map fun j => if d.kind = 1 ∧ fmtKind d.fmt = .bx then BitVec.ofNat 8 (wrapN 5 (Tab.get 0 d.shifts j)) else 0
  let table (t : Tab (BitVec 16)) : List Byte := ((List.range 256).map fun j => leBytes 2 (Tab.get 0 t j).toNat).flatten
  [(0x000, leBytes 8 (packFields [8, 1, 1, 1, 1] [0x50, v.bankNo, 0, bit y.user.gen, bit v.active]) ++ leBytes 8 y.pc ++
      leBytes 2 k.ctxid.toNat ++ leBytes 2 0 ++ leBytes 4 y.task.wdog ++ leBytes 8 v.seq),
   (0x040, wordBytes [k.cctl, k.cstat, k.tol, k.seed, k.draw, k.workId, k.workShape, k.taskPrio, k.launchTrec, k.trapScr0,
      k.trapScr1, y.regionPend]),
   (0x0C0, leBytes 1 (bitsNat ((List.range 8).map r.rp)) ++ leBytes 1 (2 * bitsNat ((List.range 6).map fun j => r.rsb (j + 1)))),
   (0x0C8, leBytes 8 (match y.seg with
      | some g => g.addr
      | none => 0) ++ leBytes 2 (match y.seg with
      | some g => g.idx
      | none => 0)),
   (0x100, wordBytes ((List.range 16).map r.ra)),
   (0x180, ((List.range 16).map fun j => leBytes 32 (r.rt j).toNat).flatten),
   (0x380, ((List.range 8).map fun j => leBytes 128 (r.rq j).toNat).flatten),
   (0x800, wordBytes ((List.range 64).map r.rs)),
   (0x1200, ((List.range 64).map fun j => list (r.rm j)).flatten),
   (0x3200, table y.user.copy0 ++ table y.user.copy1),
   (0x10000, ((List.range 64).map fun j => vecBytes (r.rv j)).flatten),
   (0x340000, ((List.range 64).map fun j => shifts (r.rm j)).flatten)] ++
  (mapFrom (fun j w => (0x4040 + 576 * j, vecBytes (w.value.getD 0))) 0 ((latchRegs y.pipe.latches).take 48)) ++
  (match latchPlane y.pipe.latches with
   | some p => [(0x18000, p.bytes)]
   | none => [])

/-- The parts whose layout R375 leaves open: region and M descriptors, parking, the heads of the latches, a faulted queue entry. -/
def Saved.openParts (v : Saved) : List (Nat × Nat) :=
  (if v.entries = [] then [] else [(0xD8, 40)]) ++
  [(0xA00, 1024), (0xE00, 1024), (0x3600, 256), (0x358000, 1024)] ++ (List.range 48).map fun j => (0x4000 + 576 * j, 64)

/-- The register latches with the values that the area holds, from the `j`-th on. -/
def latchBack (get : Nat → VReg) : Nat → List Write → List Write
  | _, [] => []
  | j, w :: l => if w.value.isSome then (if j < 48 then w.withValue (get j) else w) :: latchBack get (j + 1) l else w :: latchBack get j l

/-- The latches as an area holds them: register values, rows that a result replaces, the plane. DESIGN CHOICE, log 63: a row to which
a result adds keeps the terms that it was saved with. -/
def latchesBack (get : Nat → VReg) (row : Nat → VReg) (plane : Plane → Plane) : Nat → List Pending → List Pending
  | _, [] => []
  | j, p :: l =>
    let ws := (latchBack get j p.writes).map fun w => match w with
      | .acc r m _ => .acc r m (row r)
      | .plane q => .plane (plane q)
      | w => w
    { p with writes := ws } :: latchesBack get row plane (j + (p.writes.filter fun w => w.value.isSome).length) l

/-- Bytes are written to the area. -/
def State.saveWrite (s : State) (v : Saved) (off : Nat) (l : List Byte) : State :=
  (s.putHome (v.addr + off) l).access (v.addr + off) l.length

/-- The registers are written to the area. -/
def State.storeImage (s : State) (v : Saved) : State := v.image.foldl (fun u e => u.saveWrite v e.1 e.2) s

/-- The fixed part of a save: unnamed bytes are zero, open parts free values (R375). -/
def State.storeArea (s : State) (c : Nat) (v : Saved) : State :=
  let z := [(0, 0x40000), (0x340000, 0x8000), (0x358C00, 0xA7400)].foldl (fun (u : State) e => u.zeroHome (v.addr + e.1) e.2) s
  let u := (v.openParts.foldl (fun u e => u.saveWrite v e.1 ((List.range e.2).map fun j => saveByte v.seq (e.1 + j))) z).storeImage v
  let l := v.bank.pipe.latches
  (rowImages l (s.core c).acc).foldl (fun u e => u.saveWrite v (latchRowAt l e.1) (vecBytes e.2)) u

/-- A number in the area. -/
def State.saveNat (s : State) (v : Saved) (off n : Nat) : Nat := ofLeBytes (s.homeBytes (v.addr + off) n)

/-- A plane read back from an area. -/
def State.planeBack (s : State) (v : Saved) (off : Nat) (p : Plane) : Plane :=
  let w := if p.fmt = 6 then 4 else fmtBits p.fmt
  let rows := (List.range (4 * w)).map fun k => vecOfBytes (s.homeBytes (v.addr + off + 512 * k) 512)
  { p with img := entriesFrom (fun _ => 0) 0 rows }

/-- The task's registers as its area holds them; bits that are reserved in a register are ignored (R6). -/
def State.readBack (s : State) (v : Saved) : Bank :=
  let y := v.bank
  let w (off : Nat) : Word := BitVec.ofNat 64 (s.saveNat v off 8)
  let fl := s.saveNat v 0xC0 2
  let rows (off n size : Nat) : List Nat := (List.range n).map fun j => s.saveNat v (off + size * j) size
  let table (off : Nat) : Tab (BitVec 16) := entriesFrom (fun _ => 0) 0 ((rows off 256 2).map (BitVec.ofNat 16))
  let sc : Tab Word := entriesFrom (fun _ => 0) 0 ((rows 0x800 64 8).map (BitVec.ofNat 64))
  let vec (off : Nat) : VReg := vecOfBytes (s.homeBytes (v.addr + off) 512)
  let was := y.pipe.latches
  let lat := latchesBack (fun j => vec (0x4040 + 576 * j)) (fun r => vec (latchRowAt was r)) (s.planeBack v 0x18000) 0 was
  { y with
    pipe := { y.pipe with latches := lat }
    pc := s.saveNat v 8 8 % 2 ^ 48
    seg := y.seg.map fun g => { g with addr := s.saveNat v 0xC8 8 % 2 ^ 48, idx := s.saveNat v 0xD0 2 }
    user := { copy0 := table 0x3200, copy1 := table 0x3400, gen := (s.saveNat v 0 8).testBit 10 }
    task := { y.task with wdog := s.saveNat v 20 4 }
    cregs := { y.cregs with
      ctxid := BitVec.ofNat 64 (s.saveNat v 16 2), cctl := w 0x40 &&& 0x7F07, cstat := w 0x48 &&& 1, tol := w 0x50, seed := w 0x58, draw := w 0x60
      workId := w 0x68, workShape := w 0x70 &&& 0x3FFFFFFFFFF, taskPrio := w 0x78 &&& 0xFF, launchTrec := w 0x80, trapScr0 := w 0x88, trapScr1 := w 0x90 }
    regs := { y.regs with
      p := entriesFrom (fun _ => false) 1 ((List.range 7).map fun j => fl.testBit (j + 1))
      sb := entriesFrom (fun _ => false) 1 ((List.range 6).map fun j => fl.testBit (9 + j))
      a := entriesFrom (fun _ => 0) 0 ((rows 0x100 16 8).map (BitVec.ofNat 64))
      t := entriesFrom (fun _ => 0) 0 ((rows 0x180 16 32).map trecClean)
      q := entriesFrom (fun _ => 0) 1 (((rows 0x380 8 128).drop 1).map (BitVec.ofNat 1024))
      s := Tab.set 0 sc 0 0
      v := entriesFrom (fun _ => 0) 0 ((rows 0x10000 64 512).map (BitVec.ofNat 4096)) } }

/-! ### Writing out (R376) -/

/-- The slabs that a saved context still holds in the pool. -/
def Saved.inPool (v : Saved) : List Nat := v.bank.slabsHeld.filter fun k => !v.slabsOut.contains k

/-- A saved context of a core, changed. -/
def State.modSaved (s : State) (c area : Nat) (f : Saved → Saved) : State :=
  s.modCore c fun x => { x with saved := x.saved.map fun w => if w.area = area then f w else w }

/-- A part of a saved task's storage reads as an uncorrectable error: the task is killed (R379). -/
def State.spillBad (s : State) (c : Nat) (v : Saved) (w : Nat) : State :=
  if (s.core c).saved.any fun u => u.area == v.area then
    (s.postFlt (c / 64) { kind := 4, info := reportInfo, ctx := v.bank.cregs.ctxid.toNat, addr := w, core := c, unit := v.bankNo } .none).killSaved
      c v 0x15
  else s

/-- Core cycles pass in which nothing issues. -/
def State.holdCycles (s : State) (c n : Nat) : State := s.modCore c fun x => { x with cycle := x.cycle + n }

/-- One slab of a saved context is written out, in 8 hold cycles. -/
def State.spillSlab (s : State) (c : Nat) (v : Saved) (k : Nat) : State :=
  match s.badIn (slabAddr c k) 512 with
  | some w => s.spillBad c v w
  | none =>
    (((s.correct 0 (slabAddr c k) 512).saveWrite v (0x40000 + 512 * k) (vecBytes (Tab.get 0 (s.core c).slabs k))).modSaved c v.area fun w =>
      { w with slabsOut := w.slabsOut ++ [k] }).holdCycles c 8

/-- The slabs of a list that saved contexts hold are first written to their areas. -/
def State.spillSlabs (s : State) (c : Nat) (l : List Nat) : State :=
  (s.core c).saved.foldl (fun u v => (v.inPool.filter l.contains).foldl (fun t k => t.spillSlab c v k) u) s

/-- One accumulator tile of a saved context is written out. -/
def State.spillTile (s : State) (c : Nat) (v : Saved) (t : Nat) : State :=
  match s.badIn (rowAddr c (128 * t)) 65536 with
  | some w => s.spillBad c v w
  | none =>
    ((s.correct 0 (rowAddr c (128 * t)) 65536).saveWrite v (0x140000 + 65536 * t)
      ((List.range 128).map fun i => vecBytes (Tab.get 0 (s.core c).acc (128 * t + i))).flatten).modSaved c v.area fun w =>
      { w with tilesOut := w.tilesOut ++ [t] }

/-- The tiles of saved contexts that lie in a partition are written out. -/
def State.spillTiles (s : State) (c lo n : Nat) : State :=
  (s.core c).saved.foldl (fun u v =>
    (v.tiles.filter fun t => decide (lo ≤ t ∧ t < lo + n) && !v.tilesOut.contains t).foldl (fun u t => u.spillTile c v t) u) s

/-- The planes of a saved context are written out. -/
def State.spillPlane (s : State) (c : Nat) (v : Saved) : State :=
  let x := s.core c
  let meta_ := (List.range 2048).map fun j => saveByte v.seq (0x358400 + j)
  (((s.saveWrite v 0x348000 x.plane0.bytes).saveWrite v 0x350000 x.plane1.bytes).saveWrite v 0x358400 meta_).modSaved c v.area fun w =>
    { w with planes := some (x.plane0, x.plane1) }

/-- Before the first array instruction of the task that came into a bank, the planes of those saved from it are written
out. -/
def State.spillPlanes (s : State) (c b : Nat) : State :=
  ((s.core c).saved.filter fun v => v.bankNo == b && v.planes.isNone).foldl (fun u v => u.spillPlane c v) s

/-! ### A saved task that an operation reaches (R374) -/

/-- A change of the state made as if a saved context's bank were resident, with its slabs that were written out in their
old places; then everything is put back. -/
def State.asResident (s : State) (c : Nat) (v : Saved) (f : State → State) : State :=
  let x := s.core c
  let was := x.bank v.bankNo
  let at_ (k : Nat) : Nat := 0x40000 + 512 * k
  let s0 := s.modCore c fun z =>
    { z.setBank v.bankNo (s.readBack v) with
      slabs := v.slabsOut.foldl (fun t k => Tab.set 0 t k (vecOfBytes (s.homeBytes (v.addr + at_ k) 512))) z.slabs }
  let s1 := f s0
  let y := s1.core c
  let now := y.bank v.bankNo
  let out := v.slabsOut.filter now.slabsHeld.contains
  let pool := now.slabsHeld.filter fun k => !out.contains k
  let s2 := s1.modCore c fun z =>
    { z.setBank v.bankNo was with
      slabs := v.slabsOut.foldl (fun t k => Tab.set 0 t k (Tab.get 0 x.slabs k)) z.slabs
      slabUse := v.slabsOut.foldl (fun t k => Tab.set 0 t k (Tab.get 0 x.slabUse k)) (pool.foldl (fun t k => Tab.set 0 t k 0) z.slabUse) }
  let s3 := out.foldl (fun u k => u.saveWrite v (at_ k) (vecBytes (Tab.get 0 y.slabs k))) s2
  let w := { v with bank := now, slabsOut := out }
  (s3.modSaved c v.area fun _ => w).storeImage w

end Sys2Proof.Machine
end

