-- ==== Sys2Proof/Machine/Ops.lean ====
section
/-!
DEFINITION. The operations the meanings share: how a result lands (R37, R40), how a syllable issues (R10, R23, R41,
R67, R73, R361 to R363), how a trap is taken and how a bank returns from it (R364 to R370), how a segment is entered,
committed and rewound (R355 to R358), how a bundle ends (R35, R81).
-/

namespace Sys2Proof.Machine

open Sys2Proof

/-! ### Writes -/

/-- A write to a task's registers; other writes leave them. -/
def Regs.apply (r : Regs) : Write → Regs
  | .s i v => r.ws i v
  | .a i v => r.wa i v
  | .p i v => r.wp i v
  | .v i m x => r.wv i (blend (r.rv i) m x)
  | .q i m x => r.wq i (blend (r.rq i) m x)
  | .t i m x => r.wt i (blend (r.rt i) m x)
  | .m i d => r.wm i d
  | .sbClear n => r.wsb n false
  | _ => r

/-- A task control register after a SETC with its reserved fields ignored (R27, R28, R116, R368). -/
def TaskCregs.put (k : TaskCregs) (idx : Nat) (v : Word) (stuck : Bool) : Option TaskCregs :=
  match idx with
  | 0x000 => some { k with cctl := v &&& 0x7F07 }
  | 0x001 => some { k with cstat := v &&& 1 }
  | 0x002 => some { k with tol := v }
  | 0x003 => some { k with seed := v }
  | 0x004 => some { k with draw := v }
  | 0x861 => some { k with trapPc := v &&& 0xFFFFFFFFFFFF }
  | 0x862 => some { k with trapScr0 := v }
  | 0x863 => some { k with trapScr1 := v }
  | 0x864 => some { k with trapAct := if stuck then 1 else v &&& 1 }
  | _ => none

/-- CSTAT.SAT is set (R64). -/
def TaskCregs.sat (k : TaskCregs) : TaskCregs := { k with cstat := k.cstat ||| 1 }

/-- The active and the shadow plane (R176). -/
def Core.plane (x : Core) : Plane := if x.active then x.plane1 else x.plane0
def Core.shadow (x : Core) : Plane := if x.active then x.plane0 else x.plane1

/-- The contents of a parked register's place. -/
def Core.placeVal (x : Core) : Place → VReg
  | .none => 0
  | .slab k => Tab.get 0 x.slabs k
  | .row r => Tab.get 0 x.acc r

/-- A write to storage that its window shows at `a`: words that the mask covers whole lose their error (R378). -/
def State.cleanUnder (s : State) (a : Nat) (mask : VReg) : State :=
  if s.bad = [] then s
  else { s with bad := (List.range 64).foldl (fun t k =>
    if laneN mask.toNat 64 k = 2 ^ 64 - 1 then Tab.set false t (a / 8 + k) false else t) s.bad }

/-- One write of a result of bank `b` of core `c`. DESIGN CHOICE, log 141: an in-place write that lands after an MFREE of its name
gives the name its slabs, which the pool counts as free. -/
def State.applyWrite (s : State) (c b : Nat) (w : Write) : State :=
  match w with
  | .csat => s.modBank c b fun y => { y with cregs := y.cregs.sat }
  | .creg idx v =>
    match (s.bankAt c b).cregs.put idx v (s.bankAt c b).stuck with
    | some k => s.modBank c b fun y => { y with cregs := k }
    | none => { s with ctlQ := s.ctlQ ++ [(c, b, idx, v)] }
  | .slab k v => (s.modCore c fun x => x.putSlab k v).cleanUnder (slabAddr c k) (BitVec.allOnes 4096)
  | .slabBits _ k m v => (s.modCore c fun x => x.putSlab k (blend (Tab.get 0 x.slabs k) m v)).cleanUnder (slabAddr c k) m
  | .v i m x => (s.modBank c b fun y => { y with regs := y.regs.apply (.v i m x) }).cleanUnder (vecAddr c b i) m
  | .m i d =>
    let old := (s.bankAt c b).regs.rm i
    let s1 := s.modCore c fun x => x.freeSlabs (old.slabs.filter fun k => !d.slabs.contains k)
    s1.modBank c b fun y => { y with regs := y.regs.wm i d }
  | .freeTile t => s.modCore c fun x =>
      { x with accFree := (List.range 128).foldl (fun f i => Tab.set false f (t * 128 + i) true) x.accFree }
  | .park k pl v =>
    let s1 := s.modBank c b fun y => { y with parked := Tab.set .none y.parked k pl }
    (match pl with
     | .slab n => s1.modCore c fun x => { x.putSlab n v with slabUse := Tab.set 0 x.slabUse n 1 }
     | .row r => s1.modCore c fun x => x.putAcc r v
     | .none => s1)
  | .slabsHeld l => s.modCore c fun x => { x with slabUse := l.foldl (fun t k => Tab.set 0 t k 1) x.slabUse }
  | .slabsFree l => s.modCore c fun x => x.freeSlabs l
  | .acc r m v => (s.modCore c fun x => x.putAcc r (blend (Tab.get 0 x.acc r) m v)).cleanUnder (rowAddr c r) m
  | .accAdd r m terms =>
    let q := rowAdd (Tab.get 0 (s.core c).acc r) m terms
    let s1 := s.modCore c fun x => x.putAcc r q.1
    if q.2 then s1.modBank c b fun y => { y with cregs := y.cregs.sat } else s1
  | .plane pl => s.modCore c fun x => if x.active then { x with plane0 := pl } else { x with plane1 := pl }
  | .swap => s.modCore c fun x => { x with active := !x.active }
  | .mem a l => (s.putHome a l).modBank c b fun y => y.redirty (a - coreWindow c) l.length
  | .home a l => (s.putHome a l).touchFrames a l.length
  | .memBits a m v =>
    { s with mem := memWrite s.mem a [blend (memByte s.mem a) m v] }.modBank c b fun y => y.redirty (a - coreWindow c) 1
  | .clean l => { s with bad := l.foldl (fun t k => Tab.set false t k false) s.bad }
  | .activate => s.modBank c b fun y => { y with user := { y.user with gen := !y.user.gen } }
  | .muinv m x va => s.modCore c fun z => z.muinv m x va
  | .region n r => s.modBank c b fun y => y.setRegion n r
  | .unpark k pl =>
    if Tab.get .none (s.bankAt c b).parked k ≠ pl then s else
    let v := (s.core c).placeVal pl
    let s1 := s.modBank c b fun y => { y with regs := y.regs.wv k v, parked := Tab.set .none y.parked k .none }
    (match pl with
     | .slab n => s1.modCore c fun x => x.freeSlabs [n]
     | _ => s1)
  | w => s.modBank c b fun y => { y with regs := y.regs.apply w }

/-- The writes of a result, in order. -/
def State.applyWrites (s : State) (c b : Nat) (l : List Write) : State := l.foldl (fun s w => s.applyWrite c b w) s

/-- The register a write names, for the checks of R41; S0, P0 and Q0 have none (R16). -/
def Write.ref : Write → Option RegRef
  | .s i _ => if i = 0 then none else some ⟨.s, i⟩
  | .a i _ => some ⟨.a, i⟩
  | .p i _ => if i = 0 then none else some ⟨.p, i⟩
  | .v i _ _ => some ⟨.v, i⟩
  | .q i _ _ => if i = 0 then none else some ⟨.q, i⟩
  | .t i _ _ => some ⟨.t, i⟩
  | .m i _ => some ⟨.m, i⟩
  | .acc r _ _ => some ⟨.c, r / 128⟩
  | .accAdd r _ _ => some ⟨.c, r / 128⟩
  | .unpark k _ => some ⟨.v, k⟩
  | .slabBits d _ _ _ => some ⟨.m, d⟩
  | _ => none

def Bank.modPipe (b : Bank) (f : Pipe → Pipe) : Bank := { b with pipe := f b.pipe }

def Bank.modCtx (b : Bank) (f : IssueCtx → IssueCtx) : Bank := b.modPipe fun q => { q with ctx := f q.ctx }

/-! ### Landing (R37, R40) -/

/-- The place of a result among those of its cycle: an exchange of the planes takes the plane that stands there before a load of
the same cycle lands (R177); else by slot. -/
def Pending.rank (p : Pending) : Nat := if p.writes = [.swap] then 0 else p.slot + 1

/-- The result of the list that lands first: lowest cycle, then slot, then order of issue. -/
def firstPend : List Pending → Option Pending
  | [] => none
  | p :: l =>
    match firstPend l with
    | none => some p
    | some q =>
      if p.due < q.due ∨ (p.due = q.due ∧ (p.rank < q.rank ∨ (p.rank = q.rank ∧ p.seq ≤ q.seq))) then some p
      else some q

/-- The result that is due: its write cycle lies before the schedule clock. -/
def Bank.dueResult (b : Bank) : Option Pending := firstPend (b.pipe.pend.filter fun p => decide (p.due < b.pipe.clk))

/-- The result was issued after the rewind point of a segment that has not committed. -/
def Bank.uncommitted (b : Bank) (p : Pending) : Bool :=
  b.pipe.entry.any (fun e => decide (e.bundle ≤ p.bundle)) && p.segNo == b.pipe.segNo

/-- The writes of core cycle `t` that have taken effect. -/
def Pipe.landedIn (q : Pipe) (t : Nat) : List Landing := if q.landedAt = t then q.landed else []

/-- Writes of core cycle `t` are noted for those of the same cycle that come after (R40, R123). -/
def Bank.noteLanded (b : Bank) (t slot seq : Nat) (ws : List Write) : Bank :=
  let l := b.pipe.landedIn t
  let old (r : RegRef) : VReg :=
    if r.fam ≠ .v then 0 else ((l.find? fun e => e.reg == r).map (·.old)).getD (b.regs.rv r.idx)
  { b with pipe := { b.pipe with
      landedAt := t
      landed := l ++ (ws.filterMap Write.ref).map fun r => { slot := slot, seq := seq, reg := r, old := old r } } }

/-- The result leaves the pipeline, and the writes of one of the last schedule cycle are noted; a mismatch that its checker finds
is left to be answered (R353). -/
def Bank.dropPend (b : Bank) (p : Pending) : Bank :=
  let b := if p.due + 1 = b.pipe.clk then b.noteLanded b.pipe.tick p.slot p.seq p.writes else b
  { b with pipe := { b.pipe with
      pend := b.pipe.pend.filter fun q => q.seq != p.seq
      mismatch := b.pipe.mismatch ++ (p.check.map fun k => (k.1, k.2, if b.uncommitted p then none else some p.seq)).toList } }

/-- The writes of a result that stand: one to a V or Q register, which counts as a write of the whole register, gives way to a
later one of the same cycle (R40, R123); of a result whose mismatch will rewind its segment, none (R353). -/
def Bank.surviving (b : Bank) (p : Pending) : List Write :=
  if p.check.isSome ∧ b.uncommitted p then [] else p.writes.filter fun w =>
    match w.ref with
    | none => true
    | some r => !(r.fam == .v || r.fam == .q) ||
        !b.pipe.pend.any fun q => q.seq != p.seq && q.due == p.due && q.writes.any fun u => u.ref == some r

/-- Accumulator rows that a result issued before the rewind point is about to add to are kept as they stand (R357, R358). -/
def Bank.keepEarly (b : Bank) (p : Pending) (acc : Tab VReg) : Bank :=
  if !b.pipe.entry.any fun e => decide (p.bundle < e.bundle) then b
  else
    let rows := (p.writes.filterMap fun w => match w with
      | .accAdd r _ _ => some r
      | _ => none).filter fun r => !(b.pipe.early ++ b.pipe.journal).any fun e => e.1 == r
    { b with pipe := { b.pipe with early := b.pipe.early ++ rows.dedup.map fun r => (r, Tab.get 0 acc r) } }

/-- A result lands. -/
def State.land (s : State) (c b : Nat) (p : Pending) : State :=
  (s.modBank c b fun y => (y.keepEarly p (s.core c).acc).dropPend p).applyWrites c b ((s.bankAt c b).surviving p)

/-- Results that are due land, `n` at most. -/
def State.landAll (s : State) (c b : Nat) : Nat → State
  | 0 => s
  | n + 1 =>
    match (s.bankAt c b).dueResult with
    | none => s
    | some p => (s.land c b p).landAll c b n

/-- Results of a core's banks whose write cycle has ended have been written before its window is reached (R37, R232). -/
def State.landWin (s : State) (a : Nat) : State :=
  match winCore a with
  | none => s
  | some (c, _) => [0, 1].foldl (fun u b => u.landAll c b (u.bankAt c b).pipe.pend.length) s

/-- `k` stall cycles of a bank pass: the array advances with it. -/
def State.passCycles (s : State) (c b k : Nat) : State :=
  s.modCore c fun x =>
    let x1 := { x with cycle := x.cycle + k, arrayBusy := x.arrayBusy - k }
    let y := x1.bank b
    x1.setBank b { y with pipe := { y.pipe with clk := y.pipe.clk + k, tick := x1.cycle } }

/-- Every result in flight lands, in order, as stall cycles carry the schedule clock past its cycle (R367, R370). -/
def State.drain (s : State) (c b : Nat) : Nat → State
  | 0 => s
  | n + 1 =>
    let y := s.bankAt c b
    match firstPend y.pipe.pend with
    | none => s
    | some p => ((s.passCycles c b (p.due + 1 - y.pipe.clk)).land c b p).drain c b n

/-! ### Segment entry (R356, R357) -/

/-- The segment-entry state is captured: at a header's issue, or at a return into the middle of a segment. -/
def State.captureEntry (s : State) (c b : Nat) : State :=
  let x := s.core c
  s.modBank c b fun y => { y with pipe := { y.pipe with
    locR := [], locW := [], journal := [], early := [], unrewindable := false,
    entry := some {
      xFree := y.pipe.xFree, divFree := y.pipe.divFree, lFree := y.pipe.lFree
      arrayBusy := if x.arrayBank = b then x.arrayBusy else 0, regs := y.regs, cctl := y.cregs.cctl, cstat := y.cregs.cstat, tol := y.cregs.tol, seed := y.cregs.seed,
      draw := y.cregs.draw, parked := y.parked, regions := y.regions, gen := y.user.gen,
      activePlane := x.active, accFree := x.accFree, pc := y.pc, seg := y.seg, clk := y.pipe.clk,
      rdvs := y.task.rdvs, chains := y.task.chains, latches := y.pipe.pend, vars := x.varNext, bundle := y.pipe.bundle } } }

/-! ### Fetch (R24, R86) -/

/-- The syllable at an address, as code memory and its translations stood at the launch's start. -/
def State.fetch (s : State) (c b pc : Nat) : Except TrErr Nat :=
  let y := s.bankAt c b
  let l := s.launch y.task.launch
  match walkCtx l.snap (bitsN l.snapCtx.toNat 16 36 * 2 ^ 16) y.cregs.ctxid.toNat (pc * 16 % 2 ^ 55) with
  | .error e => .error e
  | .ok lf =>
    match leafAddr s.modn lf (pc * 16 % 2 ^ 55) .fetch (!y.monitor) false with
    | .error e => .error e
    | .ok a => .ok (memNat l.snap a 16)

/-- A syllable is a segment header by its OP; one whose E or SLOT is not that of R79 is a SEGH that traps (R77, R78). -/
def isSegh (w : Nat) : Bool := bitsN w 94 8 == 0x40

/-- The syllable at a target is a SEGH; a target that cannot be fetched is taken as one, its fault is raised at the
target's header (R82, R241). -/
def State.seghAt (s : State) (c b pc : Nat) : Bool :=
  match s.fetch c b pc with
  | .error _ => true
  | .ok w => isSegh w

/-- A segment's fall-through successor: SEGH address + NEXT (R81). -/
def Seg.next (g : Seg) : Nat := wrapN 48 ((g.addr : Int) + sext22 g.hdr.next)

/-! ### Traps (R364 to R370) -/

/-- TRAP.CAUSE (R368). -/
def Trap.word (t : Trap) : Word := BitVec.ofNat 64 (packFields [8, 3, 1, 4, 6, 8] [t.cause, t.slot, 0, t.fam, t.reg, t.short])

/-- TRAP.LATCH: register latches, tile latches, the plane latch (R368). The clear of a scoreboard entry and other effects without a
register are none of them. -/
def latchWord (l : List Pending) : Word :=
  let tile (p : Pending) : Bool := p.writes.any fun w => match w with
    | .acc .. => true
    | .accAdd .. => true
    | _ => false
  let pl (p : Pending) : Bool := p.writes.any fun w => match w with
    | .plane _ => true
    | _ => false
  let n := (l.filter fun p => !tile p && !pl p && p.writes.any fun w => w.ref.isSome).length
  let k := (l.filter tile).length
  BitVec.ofNat 64 (min n 48 + 2 ^ 6 * min k 2 + 2 ^ 8 * (if l.any pl then 1 else 0))

/-- A result in flight at a boundary of schedule cycle `clk`, with its remaining count in place of its cycle (R365). -/
def Pending.latchAt (p : Pending) (clk : Nat) : Pending := { p with due := p.due + 1 - clk, latch := true }

/-- A latch put back in flight: it lands at the end of cycle u + r - 1 (R367). -/
def Pending.unlatch (p : Pending) (u : Nat) : Pending := { p with due := u + p.due - 1 }

/-- What a bank's pipe keeps when control leaves its segment without a commit: no entry state, no record of its locations. -/
def Pipe.left (q : Pipe) : Pipe := { q with entry := none, journal := [], early := [], locR := [], locW := [], held := 0, divAt := none }

/-- A page fault or link stall fault switches the bank (R370): its results drain, it blocks, a page fault is posted
unless a migration answers it. The table reads of the walk that met it were made (R252). -/
def State.bankFault (s : State) (c b : Nat) (t : Trap) : State :=
  let s0 := (s.drain c b (s.bankAt c b).pipe.pend.length).noSpec c
  let s1 := if t.cause = 0x13 then s0.touchWalk (c / 64) (s0.bankAt c b).cregs.ctxid.toNat t.info.toNat else s0
  let y := s1.bankAt c b
  let ctx := y.cregs.ctxid.toNat
  let held := if y.task.atMeeting then y.pipe.held else 0
  if t.cause = 0x14 then
    s1.modBank c b fun z => { z with
      state := .blocked .linkStall, pipe := { z.pipe.left with held := held, ctx := { res := .trapped t, dests := z.pipe.ctx.dests } } }
  else
    let finfo := packFields [1, 7, 4, 4, 16] [b, 0, t.short, t.reg, ctx]
    let s2 := s1.modBank c b fun z => { z with
      state := .blocked .fault
      cregs := { z.cregs with muFva := t.info &&& 0x7FFFFFFFFFFFFF, muFinfo := BitVec.ofNat 64 finfo }
      pipe := { z.pipe.left with held := held, ctx := { res := .trapped t, dests := z.pipe.ctx.dests } } }
    if t.reg = 4 then s2
    else s2.postFlt (c / 64)
      { kind := 1, info := t.reg * 16 + t.short, ctx := ctx, addr := t.info.toNat, core := c, unit := b } (.bank c b y.task.launch y.task.wid)

/-- A fault that switches its bank (R370). -/
def Trap.switches (t : Trap) : Bool := t.cause == 0x13 || t.cause == 0x14

/-- The direct accesses of a bank whose fault another cause of the boundary has displaced are translated again (R7, R248). -/
def State.retryDirect (s : State) (c b : Nat) (late : List Trap) : State :=
  if late.any Trap.switches then
    s.modCore c fun x => { x with direct := x.direct.map fun d => if d.bank = b then { d with faulted := false } else d }
  else s

/-- Uncorrectable data that a bank's work has met is reported and its frame quarantined; an error in a context's tables kills the
context (R378 to R381). -/
def State.reportBad (s : State) (c b : Nat) (t : Trap) : State :=
  let ctx := (s.bankAt c b).cregs.ctxid.toNat
  { s.postFlt (c / 64) { kind := 4, info := reportInfo, ctx := ctx, addr := t.info.toNat, core := c, unit := b } .none with
    kills := if t.table then s.kills ++ [ctx] else s.kills }

/-- A prefetch that meets a fault is dropped (R241): its walk has been made, and uncorrectable data that it met is reported (R252,
R378). -/
def State.dropAhead (s : State) (c b : Nat) (t : Trap) : State :=
  if t.cause = 0x15 then s.reportBad c b t
  else if t.cause = 0x13 then s.touchWalk (c / 64) (s.bankAt c b).cregs.ctxid.toNat t.info.toNat
  else s

/-- A trap is taken at the bank's boundary (R365; DEDUCED, log 113: what it displaces): the results in flight move into the delivery latches, the trap
registers are written, the bank enters monitor mode and control goes to TVB + 16 * cause. In monitor mode it is a double
fault (R366). -/
def State.takeTrapAt (s : State) (c b : Nat) (t : Trap) : State :=
  let y := s.bankAt c b
  let s := if t.cause = 0x15 then s.reportBad c b t else s
  if y.monitor then
    ((s.postFlt (c / 64) { kind := 6, info := t.cause, ctx := y.cregs.ctxid.toNat, addr := reportAddr, core := c, unit := b } .none).killTask
      c b t.cause).modBank c b fun z => z.modCtx fun k => { k with res := .trapped t, dests := y.pipe.ctx.dests }
  else if t.cause = 0x13 ∨ t.cause = 0x14 then s.bankFault c b t
  else
    let kill := t.cause = 0x15 ∨ t.cause = 0x30
    let clk := y.pipe.clk
    let lat := y.pipe.latches ++ y.pipe.pend.map fun p => p.latchAt clk
    ((s.noSpec c).retryDirect c b y.pipe.late).modBank c b fun z => { z with
      monitor := true, state := .ready, task := { z.task with saving := false }, stuck := decide kill, trapSeg := z.seg, trapAt := z.pc, seg := none
      pc := wrapN 48 (((s.core c).cregs.tvb.toNat + 16 * t.cause : Nat) : Int)
      cregs := { z.cregs with
        trapCause := t.word, trapInfo := t.info, trapPc := BitVec.ofNat 64 z.pc, trapLatch := latchWord lat
        trapAct := if kill then 1 else z.cregs.trapAct }
      pipe := { z.pipe.left with
        pend := [], latches := lat, late := [], nextIssue := clk + 3, ctx := { res := .trapped t, dests := z.pipe.ctx.dests } } }

/-- The issuing bank takes a trap. -/
def State.takeTrap (s : State) (t : Trap) : State := s.takeTrapAt s.cf s.bf t

/-- The return from a trap (R367): the bank leaves monitor mode and goes to TRAP.PC. When the address is the recorded
boundary, or holds no SEGH, the trapped segment governs; otherwise the task enters the segment there. The latches wait
for the return bundle's issue. -/
def State.returnFrom (s : State) (c b : Nat) : State :=
  let y := s.bankAt c b
  if y.cregs.trapAct.toNat.testBit 0 then s.killTask c b (bitsN y.cregs.trapCause.toNat 0 8)
  else
    let pc := y.cregs.trapPc.toNat % 2 ^ 48
    let s1 := (s.noSpec c).modBank c b fun z => { z with monitor := false }
    let keep := pc = y.trapAt ∨ ¬ s1.seghAt c b pc
    s1.modBank c b fun z => { z with
      pc := pc, seg := if keep then z.trapSeg else none, trapSeg := none
      pipe := { z.pipe.left with nextIssue := z.pipe.clk + 2 } }

/-! ### A syllable's plan -/

/-- A variable-latency operation that a syllable starts (R38). -/
structure VarPlan where
  kind : VarKind
  /-- core cycles after issue from which it may complete and by which it must -/
  earliest : Nat := 1
  latest : Option Nat := none
  reg : Option RegRef := none
  writes : Option (List Write) := none
  late : Option (Nat × Word) := none

/-- What a syllable does at issue beside its writes. -/
inductive POut where
  | go
  | trap (t : Trap)
  | stall
  | hold (w : Why)
  deriving DecidableEq, Repr

/-- What a syllable with a true predicate reads, writes and does. -/
structure Plan where
  reads : List RegRef := []
  writes : List RegRef := []
  /-- a parked register that UNPARK writes (R157) -/
  unparks : List RegRef := []
  /-- the register operands, for what a trap reports (R368) -/
  ops : List (Fam × Nat × Nat) := []
  /-- further locations read, written, and rows accumulated into (R361, R363) -/
  locR : List Loc := []
  locW : List Loc := []
  rowsAcc : List Nat := []
  touches : List Touch := []
  /-- latency and writes of each result -/
  results : List (Nat × List Write) := []
  var : Option VarPlan := none
  /-- it takes a stochastic counter (R67) -/
  draw : Bool := false
  out : POut := .go
  /-- effects at issue, given the number of its variable-latency operation -/
  eff : Nat → State → State := fun _ s => s
  /-- the effect of a hold -/
  heldEff : State → State := id

/-- A plan that traps. -/
def Plan.bad (t : Trap) : Plan := { out := .trap t }

/-- The registers that count as the plan's destinations (R41). -/
def Plan.dests (p : Plan) : List RegRef := p.writes ++ p.unparks

/-- An illegal-operand trap that names an operand field (R368). -/
def illegalOp (field : Nat) : Trap := { cause := 0x24, info := BitVec.ofNat 64 field }

/-- The registers of a family (R3). -/
def Fam.count : Fam → Nat
  | .s => 64 | .a => 16 | .p => 8 | .v => 64 | .q => 8 | .m => 64 | .c => 32 | .t => 16

/-- The code of a family in TRAP.CAUSE (R368). -/
def Fam.code : Fam → Nat
  | .s => 0 | .a => 1 | .p => 2 | .v => 3 | .q => 4 | .m => 5 | .c => 6 | .t => 7

/-- A register operand: its family, its number and its field (R368: 0 DST, 1 OPA, 2 OPB, 3 OPC, 4 OPD, 5 TR, 6 other). -/
abbrev RegOp := Fam × Nat × Nat

/-- The lowest field that names a register outside its family (R3, R78). -/
def regBad : List RegOp → Option Trap
  | [] => none
  | e :: l =>
    match regBad l with
    | none => if e.2.1 < e.1.count then none else some { illegalOp e.2.2 with fam := e.1.code, reg := e.2.1 }
    | some t =>
      if e.2.1 < e.1.count ∨ t.info.toNat ≤ e.2.2 then some t else some { illegalOp e.2.2 with fam := e.1.code, reg := e.2.1 }

/-- A register that its number hard-wires (R16, R18, R19). -/
def hardWired (f : Fam) (i : Nat) : Bool := i == 0 && (f == .s || f == .p || f == .q)

/-- The registers that operands name, without hard-wired ones and numbers outside a family. -/
def refsOf (l : List RegOp) : List RegRef :=
  (l.filter fun e => !hardWired e.1 e.2.1 && decide (e.2.1 < e.1.count)).map fun e => ⟨e.1, e.2.1⟩

/-- Checks of operand values in order of their field codes: the first that holds. -/
def firstTrap : List (Bool × Trap) → Option Trap
  | [] => none
  | (b, t) :: l => if b then some t else firstTrap l

/-- A plan that reads and writes registers, unless an operand is illegal. -/
def regPlan (rd wr : List RegOp) (lat : Nat) (ws : List Write) (bad : Option Trap := none) : Plan :=
  { reads := refsOf rd, writes := refsOf wr, ops := wr ++ rd, results := [(lat, ws)]
    out := match lowestOp (regBad (wr ++ rd)) bad with
      | some t => .trap t
      | none => .go }
where
  /-- the trap with the lower cause, then the lower field -/
  lowestOp : Option Trap → Option Trap → Option Trap
    | some t, some u => if t.cause < u.cause ∨ (t.cause = u.cause ∧ t.info.toNat ≤ u.info.toNat) then some t else some u
    | some t, none => some t
    | none, u => u

/-! ### The checks at issue -/

/-- The stale-read check of one source (R41): the longest wait among the writes pending from earlier bundles. -/
def Bank.stale (b : Bank) (r : RegRef) : Option Nat :=
  if b.pipe.vars.any fun v => v.reg == some r && decide (v.bundle < b.pipe.bundle) && !v.dropped then some 0xFF
  else
    let l := b.pipe.pend.filter fun p => decide (p.bundle < b.pipe.bundle) && p.writes.any fun w => w.ref == some r
    match l with
    | [] => none
    | _ => some (min 0xFF ((l.map fun p => p.due + 1 - b.pipe.clk).foldl max 0))

/-- The first source that is stale, in the order in which the plan names its sources. DEDUCED, log 17: which of several a trap names
(R41). -/
def Bank.staleTrap (b : Bank) (slot : Nat) : List RegRef → Option Trap
  | [] => none
  | r :: l =>
    match b.stale r with
    | some n => some { cause := 0x05, slot := slot, fam := r.fam.code, reg := r.idx, short := n }
    | none => b.staleTrap slot l

/-- A destination with a variable-latency write still pending that WAIT does not name (R41). -/
def Bank.notWaited (b : Bank) (slot wait : Nat) (l : List RegRef) : Option Trap :=
  (l.find? fun r => b.pipe.vars.any fun v =>
    v.reg == some r && decide (v.bundle < b.pipe.bundle) && !v.dropped && (v.sb == 0 || !wait.testBit (v.sb - 1))).map
    fun r => { cause := 0x05, slot := slot, fam := r.fam.code, reg := r.idx, short := 0xFF }

/-- Two true-predicate syllables of the bundle name one destination (R41). -/
def Bank.collision (b : Bank) (slot : Nat) (l : List RegRef) : Option Trap :=
  (l.findSome? fun r => (b.pipe.ctx.dests.find? fun e => e.2 == r).map fun e => (e.1, r)).map
    fun e => { cause := 0x06, slot := slot, fam := e.2.fam.code, reg := e.2.idx, info := BitVec.ofNat 64 e.1 }

/-- The lowest field whose operand is a register; 6 for one that no operand names by itself (DEDUCED, log 21). -/
def Plan.fieldOf (p : Plan) (r : RegRef) : Nat :=
  minOf 6 ((p.ops.filter fun e => e.1 == r.fam && e.2.1 == r.idx).map (·.2.2))

/-- A parked vector register is named (R157): the one of the lowest field. -/
def Bank.parkedTrap (b : Bank) (p : Plan) : Option Trap :=
  let l := (p.writes ++ p.reads).filter fun r => r.fam == .v && Tab.get .none b.parked r.idx != .none
  (l.find? fun r => l.all fun q => decide (p.fieldOf r ≤ p.fieldOf q)).map
    fun r => { illegalOp (p.fieldOf r) with fam := 3, reg := r.idx }

/-- A trap of an operand field that a register stands in names the register (R368). -/
def Plan.report (p : Plan) (t : Trap) : Trap :=
  if t.fam = 8 ∧ (t.cause = 0x22 ∨ t.cause = 0x23 ∨ t.cause = 0x24) ∧ t.info.toNat < 6 then
    match p.ops.find? fun e => e.2.2 == t.info.toNat with
    | some e => { t with fam := e.1.code, reg := e.2.1 }
    | none => t
  else t

/-- The locations of the vector registers of a list. -/
def vecLocs (l : List RegRef) : List Loc := l.filterMap fun r => if r.fam = .v then some (.v r.idx) else none

/-- The register that holds a slab: an M name, or a vector register parked in it. -/
def Bank.slabOwner (b : Bank) (k : Nat) : Option RegRef :=
  match b.regs.m.find? fun e => e.2.slabs.contains k with
  | some e => some ⟨.m, e.1⟩
  | none => (b.parked.find? fun e => e.2 == .slab k).map fun e => ⟨.v, e.1⟩

/-- A location as TRAP.CAUSE and TRAP.INFO name it for 0x31 (R368): a slab by the register that holds it. -/
def Loc.trap (b : Bank) : Loc → Trap
  | .v i => { cause := 0x31, fam := 3, reg := i }
  | .slab k =>
    match b.slabOwner k with
    | some r => { cause := 0x31, fam := r.fam.code, reg := r.idx }
    | none => { cause := 0x31 }
  | .unit u => { cause := 0x31, info := BitVec.ofNat 64 (2 ^ 63 + 64 * u) }
  | .accRow r => { cause := 0x31, fam := 6, reg := r / 128, info := BitVec.ofNat 64 r }
  | .plane _ => { cause := 0x31 }

/-- The locations the plan reads at their entry value. -/
def Bank.entryReads (b : Bank) (p : Plan) : List Loc := (vecLocs p.reads ++ p.locR).filter fun l => !b.pipe.locW.contains l

/-- The locations read at their entry value once this plan has read. -/
def Bank.readLocs (b : Bank) (p : Plan) : List Loc :=
  b.pipe.locR ++ (b.entryReads p).filter fun l => !b.pipe.locR.contains l

/-- The locations the plan writes. -/
def Plan.wrote (p : Plan) : List Loc := vecLocs p.writes ++ p.locW

/-- The rows whose entry values go into the journal (R363). -/
def Bank.toJournal (b : Bank) (rows : List Nat) : List Nat :=
  rows.filter fun r => !b.pipe.locW.contains (.accRow r) && !b.pipe.journal.any fun e => e.1 == r

/-- The idempotence check (R361 to R363) of the syllable of a slot: it writes what it or an earlier one read at its entry value; a
lower slot of its bundle writes what it reads so; or the journal is full. -/
def Bank.idemTrap (b : Bank) (slot : Nat) (p : Plan) : Option Trap :=
  let rd := b.readLocs p
  match p.wrote.find? fun l => rd.contains l && !b.pipe.locW.contains l with
  | some l => some { l.trap b with slot := slot }
  | none =>
    match b.pipe.ctx.locW.find? fun e => (b.entryReads p).contains e.2 with
    | some e => some { e.2.trap b with slot := e.1 }
    | none =>
      let new := b.toJournal p.rowsAcc
      if 256 < b.pipe.journal.length + new.length then some { (Loc.accRow (new.headD 0)).trap b with slot := slot } else none

/-- The trap with the lowest cause (R7). -/
def lowestTrap : List (Option Trap) → Option Trap
  | [] => none
  | none :: l => lowestTrap l
  | some t :: l =>
    match lowestTrap l with
    | none => some t
    | some u => if t.cause ≤ u.cause then some t else some u

/-- The range of the module's storage that a location is. -/
def Loc.range (c b : Nat) : Loc → Nat × Nat
  | .v i => (vecAddr c b i, 512)
  | .slab k => (slabAddr c k, 512)
  | .unit u => (scratchAddr c (64 * u), 64)
  | .accRow r => (rowAddr c r, 512)
  | .plane _ => (0, 0)

/-- A location outside scratchpad, whose accesses are checked by themselves. -/
def Loc.inCore : Loc → Bool
  | .unit _ => false
  | _ => true

/-- A register, slab or row that the plan reads holds an uncorrectable error (R378). -/
def State.badRead (s : State) (h : Hdr) (p : Plan) : Option Trap :=
  if s.noBad then none
  else (((vecLocs p.reads ++ p.locR ++ p.rowsAcc.map Loc.accRow).filter Loc.inCore).findSome? fun (l : Loc) => s.badIn (l.range s.cf s.bf).1 (l.range s.cf s.bf).2).map fun w =>
    { cause := 0x15, info := BitVec.ofNat 64 w, slot := h.slot }

/-- The ranges of the module's storage that a plan reads. -/
def State.readRanges (s : State) (p : Plan) : List (Nat × Nat) :=
  (((vecLocs p.reads ++ p.locR ++ p.rowsAcc.map Loc.accRow).filter Loc.inCore).map fun l => l.range s.cf s.bf) ++
  (p.touches.filter fun t => !t.write).map fun t => (scratchAddr s.cf t.addr, t.len)

/-- An operand read of a plan meets a single-bit error. -/
def State.meetsSoft (s : State) (p : Plan) : Bool := !s.noSoft && (s.readRanges p).any fun r => !(s.softIn r.1 r.2).isEmpty

/-- `u` after a syllable whose operand read in `s` has met a single-bit error: it is corrected and logged, and a segment that has not
committed is rewound (R353, R354). DESIGN CHOICE, log 134: a trap handler's bundle, which no rewind point governs, goes on with the
corrected operand. -/
def State.softReads (u s : State) (p : Plan) : State :=
  if s.meetsSoft p then
    let v := (s.readRanges p).foldl (fun v r => v.correct s.bk.cregs.ctxid.toNat r.1 r.2) u
    if s.bk.pipe.entry.isNone then v else v.modBk fun y => y.modPipe fun q => { q with mismatch := q.mismatch ++ [(4, false, none)] }
  else u

/-- The trap a plan meets at issue, if any. -/
def Bank.planTrap (b : Bank) (h : Hdr) (p : Plan) : Option Trap :=
  let own := match p.out with
    | .trap t => some t
    | _ => none
  let rd := (if h.pnum = 0 then [] else [⟨.p, h.pnum⟩]) ++ p.reads
  let here (o : Option Trap) : Option Trap := o.map fun t => { t with slot := h.slot }
  let chk := if b.checks then
      [b.staleTrap h.slot rd, b.notWaited h.slot h.wait p.dests, b.collision h.slot p.dests,
       if own = none then b.idemTrap h.slot p else none]
    else []
  lowestTrap (chk ++ [here (own.map p.report), here (b.parkedTrap p), here (b.touchTrap p.touches)])

/-! ### Issue of a syllable -/

/-- The syllable's predicate is true (R10, R72). -/
def Bank.predTrue (b : Bank) (h : Hdr) : Bool := b.regs.rp h.pnum != h.pneg

/-- The result of the last syllable is recorded. -/
def State.mark (s : State) (r : SylRes) : State := s.modBk fun y => y.modCtx fun k => { k with res := r }

/-- A result goes in flight: it lands at the end of schedule cycle clk + lat - 1 (R37). -/
def Bank.launchResult (b : Bank) (slot lat : Nat) (ws : List Write) : Bank :=
  b.modPipe fun q => { q with
    seq := q.seq + 1
    pend := q.pend ++ [{ due := q.clk + lat - 1, slot := slot, seq := q.seq, bundle := q.bundle, segNo := q.segNo,
                         writes := ws }] }

/-- The SBSET entry of a fixed-latency syllable is set and clears at the end of its last write cycle (R73). DEDUCED, log 104: so
too when its destination is S0, whose write R16 discards. -/
def Bank.setEntry (b : Bank) (h : Hdr) (lat : Nat) : Bank :=
  if h.sbset = 0 then b
  else ({ b with regs := b.regs.wsb h.sbset true }).launchResult h.slot (max lat 1) [.sbClear h.sbset]

/-- A syllable whose predicate is false writes nothing; its SBSET entry is set and cleared (R10). `lat` is its latency,
0 for a variable-latency syllable. -/
def State.skip (s : State) (h : Hdr) (lat : Nat) : State := (s.modBk fun y => y.setEntry h lat).mark .went

/-- The longest latency among a plan's results. -/
def Plan.latency (p : Plan) : Nat := (p.results.map (·.1)).foldl max 1

/-- The destinations of a syllable that does not take effect count all the same for those after it in its bundle (R7, R41). -/
def State.naming (s : State) (h : Hdr) (l : List RegRef) : State :=
  if l = [] then s else s.modBk fun y => y.modCtx fun k => { k with dests := k.dests ++ l.map fun r => (h.slot, r) }

/-- What a plan records of the bundle and of the segment. -/
def Bank.record (b : Bank) (h : Hdr) (p : Plan) (rows : Tab VReg) : Bank :=
  let new := b.toJournal p.rowsAcc
  let room := b.pipe.journal.length + new.length ≤ 256
  let b1 := b.modPipe fun q => { q with
    locR := b.readLocs p
    journal := if room then q.journal ++ new.map fun r =>
        (r, ((q.early.find? fun e => e.1 == r).map (·.2)).getD (Tab.get 0 rows r)) else q.journal
    unrewindable := q.unrewindable || !room }
  b1.modCtx fun k => { k with
    dests := k.dests ++ p.dests.map fun r => (h.slot, r)
    locW := k.locW ++ (p.wrote ++ p.rowsAcc.map Loc.accRow).map fun l => (h.slot, l)
    draws := k.draws + (if p.draw then 1 else 0)
    res := .went }

/-- A plan without a trap takes effect: its results go in flight, its SBSET entry is set, its variable-latency operation
starts (R23, R37, R73). -/
def State.commitPlan (s : State) (h : Hdr) (p : Plan) : State :=
  let id := (s.core s.cf).varNext + 1
  let s1 := s.modBk fun y => y.record h p (s.core s.cf).acc
  let s2 := p.results.foldl (fun s e => s.modBk fun y => y.launchResult h.slot e.1 e.2) s1
  let s3 := match p.var with
    | none => s2.modBk fun y => y.setEntry h p.latency
    | some v =>
      let now := (s2.core s2.cf).cycle
      let y := s2.bk
      let op : VarOp := {
        id := id, kind := v.kind, pc := y.pc + y.pipe.ctx.place, slot := h.slot, bundle := y.pipe.bundle, segNo := y.pipe.segNo,
        seq := y.pipe.seq, sb := h.sbset, earliest := now + v.earliest, latest := v.latest.map (now + ·), reg := v.reg, writes := v.writes,
        late := v.late }
      (s2.modCore s2.cf fun x => { x with varNext := id }).modBk fun z =>
        { z with regs := if h.sbset = 0 then z.regs else z.regs.wsb h.sbset true,
                 pipe := { z.pipe with vars := z.pipe.vars ++ [op], seq := z.pipe.seq + 1 } }
  p.eff id s3

/-- The trap of a step of a syllable that failed. -/
def trapOf (h : Hdr) (e : Except Trap State) : Option Trap :=
  match e with
  | .error t => some { t with slot := h.slot }
  | .ok _ => none

/-- A syllable issues: its predicate, its checks, its plan. `lat` is the latency of a syllable whose predicate is false. DEDUCED,
log 28: such a syllable neither waits for the X interval or the divider nor occupies it (R39). -/
def runSyllable (h : Hdr) (lat : Nat) (plan : State → Plan) (s : State) : Host.Outcome State Fault Refusal :=
  if ¬ s.bk.predTrue h then .next (s.skip h lat)
  else
    let p := plan s
    match p.out with
    | .stall => .next (s.mark .stalled)
    | out =>
      let waits := s.bk.touchWaits p.touches
      let fills := s.startFills s.cf s.bf waits
      let dirty := s.makeDirty s.cf s.bf (s.bk.touchDirty p.touches)
      match lowestTrap [s.bk.planTrap h p, s.badRead h p, trapOf h fills, trapOf h dirty] with
      | some t => .next ((s.naming h p.dests).takeTrap t)
      | none =>
        let s1 := fills.toOption.getD s
        match out with
        | .hold w => .next (((p.heldEff s1).naming h p.dests).mark (.held w))
        | _ =>
          if waits ≠ [] then .next ((s1.naming h p.dests).mark (.held .fill))
          else .next (((dirty.toOption.getD s).commitPlan h p).softReads s p)

/-! ### Completion of a variable-latency operation (R23, R40, R357) -/

def Bank.dropVar (b : Bank) (id : Nat) : Bank :=
  b.modPipe fun q => { q with vars := q.vars.filter fun v => v.id != id }

/-- The operation with a number. -/
def Bank.varOp (b : Bank) (id : Nat) : Option VarOp := b.pipe.vars.find? fun v => v.id == id

/-- The writes of an operation that stand when it completes: a write gives way to one of the same core cycle from a higher slot, or
from its own slot and issued later (R40); one to a vector register that stands takes the place of a lower one as a whole (R123).
DEDUCED, log 130: writes that complete in different hold cycles of one schedule cycle stand in the order of the core cycles. -/
def Bank.varWrites (b : Bank) (now : Nat) (v : VarOp) (ws : List Write) : List Write :=
  let l := b.pipe.landedIn now
  ws.filterMap fun w =>
    match w.ref with
    | none => some w
    | some r =>
      if l.any fun e => e.reg == r && (decide (v.slot < e.slot) || (v.slot == e.slot && decide (v.seq < e.seq))) then none
      else
        match w, l.find? fun e => e.reg == r with
        | .v i m x, some e => some (.v i (BitVec.allOnes 4096) (blend e.old m x))
        | w, _ => some w

/-- A write of an operation begun before the rewind point, to the segment-entry state (R356, R357). -/
def Entry.apply (e : Entry) (w : Write) : Entry :=
  match w with
  | .csat => { e with cstat := e.cstat ||| 1 }
  | .activate => { e with gen := !e.gen }
  | w => { e with regs := e.regs.apply w }

/-- The operation completes: it writes its results, to the segment-entry copy also when it began before the rewind point, clears
its entry, and leaves a trap for the next boundary if it reports one. -/
def State.completeVar (s : State) (c b : Nat) (v : VarOp) : State :=
  let s0 := s.landAll c b (s.bankAt c b).pipe.pend.length
  let s1 := s0.modBank c b fun y => y.dropVar v.id
  if v.dropped then s1
  else
    let own := (s0.bankAt c b).varWrites (s0.core c).cycle v (v.writes.getD [])
    let ws : List Write := own ++ (if v.sb = 0 then [] else [.sbClear v.sb])
    let s2 := (s1.modBank c b fun y => y.noteLanded (s0.core c).cycle v.slot v.seq own).applyWrites c b ws
    s2.modBank c b fun y =>
      y.modPipe fun q => { q with
        late := match v.late with
          | some (cause, info) => q.late ++ [{ cause := cause, info := info, slot := v.slot }]
          | none => q.late
        entry := q.entry.map fun e => if v.id ≤ e.vars then ws.foldl Entry.apply e else e }

/-- The writes of an operation become known (R249). -/
def Bank.fillVar (b : Bank) (id : Nat) (f : VarOp → VarOp) : Bank :=
  b.modPipe fun q => { q with vars := q.vars.map fun v => if v.id = id then f v else v }

/-! ### Rewind (R358, R359) -/

/-- Slabs that a list of names holds. -/
def namesSlabs (m : Tab MDesc) : List Nat := (m.map fun e => e.2.slabs).flatten

/-- The slabs that the entry state held: names, parked registers, results in flight at the rewind point and operations of
earlier segments. -/
def Bank.entrySlabs (b : Bank) (e : Entry) : List Nat :=
  namesSlabs e.regs.m ++
  (e.parked.filterMap fun q => match q.2 with
    | .slab k => some k
    | _ => none) ++
  (e.latches.map fun p => takenBy p.writes).flatten ++
  ((b.pipe.vars.filter fun v => decide (v.id ≤ e.vars)).map fun v => takenBy (v.writes.getD [])).flatten

/-- Slabs that were taken by results still in flight at the rewind point, and are in flight again after a rewind (R117). -/
def Bank.entryFlight (b : Bank) (e : Entry) : List Nat :=
  (e.latches.map fun p => takenBy p.writes).flatten ++
  ((b.pipe.vars.filter fun v => decide (v.id ≤ e.vars)).map fun v => takenBy (v.writes.getD [])).flatten

/-- Rewinds in a row at the rewind point that stands (R360). -/
def Pipe.rewoundHere (q : Pipe) : Nat := if q.entry.any fun e => e.pc == q.rewoundAt then q.rewinds else 0

/-- A rewind of a bank to its rewind point; `none` when it cannot be made (R359). The segment's results and the register
writes of its operations are dropped, the entry state is restored, the entry latches are put back in flight. -/
def State.rewind (s : State) (c b : Nat) : Option State :=
  let x := s.core c
  let y := s.bankAt c b
  match y.pipe.entry with
  | none => none
  | some e =>
    let was := y.entrySlabs e
    let now := y.slabsHeld
    let lost := was.filter fun k => !now.contains k && Tab.get 0 x.slabUse k != 0
    if y.pipe.unrewindable ∨ lost ≠ [] then none
    else
      let use := (y.entryFlight e).foldl (fun t k => Tab.set 0 t k 2)
        (was.foldl (fun t k => Tab.set 0 t k 1) (now.foldl (fun t k => Tab.set 0 t k 0) x.slabUse))
      let acc := (y.pipe.early ++ y.pipe.journal).foldl (fun t r => Tab.set 0 t r.1 r.2) x.acc
      let clk := y.pipe.clk
      let back := e.latches.map fun p => { p with due := clk + (p.due - e.clk), latch := true }
      let back_ := was.filter fun k => !now.contains k
      let s1 := (s.spillSlabs c back_).modCore c fun z => { z with
        slabUse := use, acc := acc, accFree := e.accFree, active := e.activePlane
        arrayBusy := if z.arrayBank = b then e.arrayBusy else z.arrayBusy }
      some (s1.modBank c b fun z => { z with
        regs := { e.regs with v := z.regs.v }
        cregs := { z.cregs with cctl := e.cctl, cstat := e.cstat, tol := e.tol, seed := e.seed, draw := e.draw }
        parked := e.parked, regions := ({ z with regions := z.regionsBack e.regions } : Bank).uncapture.regions
        user := { z.user with gen := e.gen }, pc := e.pc, seg := e.seg
        task := { z.task with rdvs := e.rdvs, rdvAt := none, chains := e.chains, chainAt := none, ending := false }
        pipe := { z.pipe with
          pend := back, locR := [], locW := [], journal := [], early := [], nextIssue := clk, held := 0, divAt := none, ctx := {}
          xFree := clk + (e.xFree - e.clk), divFree := clk + (e.divFree - e.clk), lFree := clk + (e.lFree - e.clk)
          commit := none, rewinds := z.pipe.rewoundHere + 1, rewoundAt := e.pc, mismatch := []
          vars := (z.pipe.vars.filter fun v => !v.kept).map fun v => if e.vars < v.id then { v with dropped := true } else v
          entry := some { e with clk := clk, latches := back } } })

/-! ### The end of a bundle (R35, R81) -/

/-- One schedule cycle passes for the bank that issues or stalls: the array and MLDW advance with it. -/
def State.scheduleCycle (s : State) (c b : Nat) : State :=
  s.passCycles c b 1

/-- The latches are put back in flight at the issue of the bundle after a return (R367). -/
def Bank.deliverAt (b : Bank) : Bank :=
  if b.monitor ∨ b.pipe.latches = [] then b
  else b.modPipe fun q => { q with pend := q.pend ++ q.latches.map (fun p => p.unlatch q.clk), latches := [] }

/-- The locations the bundle wrote count from the next bundle on; DRAW has advanced (R67, R361); the divider is taken
for 18 cycles by a bundle that divides (R39). -/
def Bank.closeBundle (b : Bank) : Bank :=
  { b with
    cregs := { b.cregs with draw := b.cregs.draw + BitVec.ofNat 64 b.pipe.ctx.draws }
    pipe := { b.pipe with
      locW := b.pipe.locW ++ (b.pipe.ctx.locW.map (·.2)).filter fun l => !b.pipe.locW.contains l
      divFree := if b.pipe.ctx.divs = 0 then b.pipe.divFree else b.pipe.clk + 18, divAt := none
      bundle := b.pipe.bundle + 1, held := 0, ctx := {} } }

/-- PC + n, a syllable address of 48 bits (R24). -/
def Bank.after (b : Bank) (n : Nat) : Nat := (b.pc + n) % 2 ^ 48

/-- Where control goes after the bundle, and whether its segment ends: `n` syllables, no transfer falls through at LEN. -/
def Bank.successor (b : Bank) (n : Nat) : Nat × Bool :=
  match b.seg with
  | none => (b.after n, false)
  | some g =>
    match b.pipe.ctx.ctl with
    | some (.jump t) => (t, true)
    | some .yield => (g.next, true)
    | some .finish => (b.after n, true)
    | some .eret => (b.pc, false)
    | none => if g.idx = g.hdr.len then (g.next, true) else (b.after n, false)

/-- The bundle has issued: the clocks advance, control moves, an ended segment waits for its commit (R35, R81, R355). -/
def State.endBundle (s : State) (c b n stall : Nat) : State :=
  let y := s.bankAt c b
  let k := y.pipe.ctx
  let t := y.pipe.clk
  let nx := y.successor n
  let s1 := s.modBank c b fun z =>
    let z1 := z.closeBundle
    { z1 with
      pc := nx.1
      seg := if nx.2 then none else z1.seg.map fun g => { g with idx := g.idx + 1 }
      task := { z1.task with
        issued := true, waited := 0, ending := z1.task.ending || k.ctl == some .finish, slice := if nx.2 then 0 else z1.task.slice }
      state := .running
      pipe := { z1.pipe with
        nextIssue := t + 1 + stall
        commit := if nx.2 then some (z1.pipe.segNo, k.releases) else z1.pipe.commit
        late := z1.pipe.late ++ k.trapAfter.toList } }
  let s2 := s1.scheduleCycle c b
  let s3 := s2.modCore c fun x => { x with
    rampCount := x.rampCount + k.counted, turn := x.turn || nx.2
    spec := if nx.2 then [] else x.spec, specPc := if nx.2 then none else x.specPc }
  if k.ctl = some .eret then (s3.drain c b (s3.bankAt c b).pipe.pend.length).returnFrom c b else s3

/-- A segment's header issues (R81, R101, R356). -/
def State.enterSegment (s : State) (c b : Nat) (h : SegHdr) : State :=
  let s1 := s.modBank c b fun y =>
    let g : Seg := { addr := y.pc, hdr := h, idx := 0 }
    { y with seg := some g, pipe := { y.pipe with segNo := y.pipe.segNo + 1 } }
  let s2 := (s1.captureEntry c b).modCore c fun x => { x with turn := false }
  s2.modBank c b fun y => y.modPipe fun q => { q with entry := q.entry.map fun e => { e with seg := none } }

end Sys2Proof.Machine
end

