-- ==== Sys2Proof/Machine/Scalar.lean ====
section
/-!
DEFINITION. Scalar and address instructions (R91 to R100).
-/

namespace Sys2Proof.Machine

open Sys2Proof

/-! ### Shared forms -/

/-- S[DST] := f(S[OPA], S[OPB]), written after `lat` cycles (R92, R93). -/
def scalar2 (lat : Nat) (f : Word → Word → Word) (d a b : Nat) (s : State) : Plan :=
  regPlan [(.s, a, 1), (.s, b, 2)] [(.s, d, 0)] lat [.s d (f (s.rg.rs a) (s.rg.rs b))]

/-- S[DST] := f(S[OPA]). -/
def scalar1 (f : Word → Word) (d a : Nat) (s : State) : Plan :=
  regPlan [(.s, a, 1)] [(.s, d, 0)] 1 [.s d (f (s.rg.rs a))]

/-- A two-source scalar instruction issues. -/
def runScalar2 (h : Hdr) (lat : Nat) (f : Word → Word → Word) (d a b : Nat) (s : State) :
    Host.Outcome State Fault Refusal :=
  runSyllable h lat (scalar2 lat f d a b) s

/-- A bit count at 64 bits, or at 32 with W = 1 (R93). -/
def bitCount (f : Nat → Nat → Nat) (w : Bool) (x : Word) : Word := BitVec.ofNat 64 (f (if w then 32 else 64) x.toNat)

/-- Predicate logic (R93). -/
def pred2 (f : Bool → Bool → Bool) (d a b : Nat) (s : State) : Plan :=
  regPlan [(.p, a, 1), (.p, b, 2)] [(.p, d, 0)] 1 [.p d (f (s.rg.rp a) (s.rg.rp b))]

/-- DIV: truncated toward zero; -1 for a zero divisor; the overflow wraps (R93). -/
def divS (a b : Word) : Word := if b = 0 then BitVec.allOnes 64 else BitVec.ofInt 64 (a.toInt.tdiv b.toInt)

/-- REM: the sign of the dividend; the dividend for a zero divisor (R93). -/
def remS (a b : Word) : Word := if b = 0 then a else BitVec.ofInt 64 (a.toInt.tmod b.toInt)

/-- DIVU (R93). -/
def divU (a b : Word) : Word := if b = 0 then BitVec.allOnes 64 else BitVec.ofNat 64 (a.toNat / b.toNat)

/-- REMU (R93). -/
def remU (a b : Word) : Word := if b = 0 then a else BitVec.ofNat 64 (a.toNat % b.toNat)

/-- The divider takes this syllable: the first divide of a bundle when the divider is free, the second 18 cycles after it
took the first, which waits in it for its bundle (R39). -/
def Bank.divReady (b : Bank) : Bool :=
  if b.pipe.ctx.divs = 0 then b.pipe.divAt.isSome || decide (b.pipe.divFree ≤ b.pipe.clk)
  else b.pipe.divAt.any fun t => decide (t + 18 ≤ b.pipe.clk)

/-- A divide or remainder on the shared divider (R39, R93). -/
def divPlan (f : Word → Word → Word) (d a b : Nat) (s : State) : Plan :=
  let p := scalar2 18 f d a b s
  if s.bk.divReady then { p with eff := fun _ t => t.modBk fun y => y.modCtx fun k => { k with divs := k.divs + 1 } }
  else { p with out := .stall }

/-! ### Three-register operations (R93) -/

def execAdd (h : Hdr) (d a b : Nat) (s : State) := runScalar2 h 1 (fun x y => x + y) d a b s
def execSub (h : Hdr) (d a b : Nat) (s : State) := runScalar2 h 1 (fun x y => x - y) d a b s
def execAnd (h : Hdr) (d a b : Nat) (s : State) := runScalar2 h 1 (fun x y => x &&& y) d a b s
def execOr (h : Hdr) (d a b : Nat) (s : State) := runScalar2 h 1 (fun x y => x ||| y) d a b s
def execXor (h : Hdr) (d a b : Nat) (s : State) := runScalar2 h 1 (fun x y => x ^^^ y) d a b s
def execAndn (h : Hdr) (d a b : Nat) (s : State) := runScalar2 h 1 (fun x y => x &&& ~~~y) d a b s
def execShl (h : Hdr) (d a b : Nat) (s : State) := runScalar2 h 1 (fun x y => x <<< (y.toNat % 64)) d a b s
def execShr (h : Hdr) (d a b : Nat) (s : State) := runScalar2 h 1 (fun x y => x >>> (y.toNat % 64)) d a b s
def execSra (h : Hdr) (d a b : Nat) (s : State) := runScalar2 h 1 (fun x y => x.sshiftRight (y.toNat % 64)) d a b s
def execRotr (h : Hdr) (d a b : Nat) (s : State) := runScalar2 h 1 (fun x y => x.rotateRight (y.toNat % 64)) d a b s
def execMul (h : Hdr) (d a b : Nat) (s : State) := runScalar2 h 3 (fun x y => x * y) d a b s
def execMulh (h : Hdr) (d a b : Nat) (s : State) :=
  runScalar2 h 3 (fun x y => BitVec.ofInt 64 (x.toInt * y.toInt / (2 ^ 64 : Nat))) d a b s
def execMulhu (h : Hdr) (d a b : Nat) (s : State) :=
  runScalar2 h 3 (fun x y => BitVec.ofNat 64 (x.toNat * y.toNat / 2 ^ 64)) d a b s
def execDiv (h : Hdr) (d a b : Nat) (s : State) := runSyllable h 18 (divPlan divS d a b) s
def execDivu (h : Hdr) (d a b : Nat) (s : State) := runSyllable h 18 (divPlan divU d a b) s
def execRem (h : Hdr) (d a b : Nat) (s : State) := runSyllable h 18 (divPlan remS d a b) s
def execRemu (h : Hdr) (d a b : Nat) (s : State) := runSyllable h 18 (divPlan remU d a b) s
def execMin (h : Hdr) (d a b : Nat) (s : State) := runScalar2 h 1 (fun x y => if x.toInt ≤ y.toInt then x else y) d a b s
def execMax (h : Hdr) (d a b : Nat) (s : State) := runScalar2 h 1 (fun x y => if x.toInt ≤ y.toInt then y else x) d a b s
def execMinu (h : Hdr) (d a b : Nat) (s : State) := runScalar2 h 1 (fun x y => if x.toNat ≤ y.toNat then x else y) d a b s
def execMaxu (h : Hdr) (d a b : Nat) (s : State) := runScalar2 h 1 (fun x y => if x.toNat ≤ y.toNat then y else x) d a b s
def execClz (h : Hdr) (d a : Nat) (w : Bool) (s : State) := runSyllable h 1 (scalar1 (bitCount clzN w) d a) s
def execCls (h : Hdr) (d a : Nat) (w : Bool) (s : State) := runSyllable h 1 (scalar1 (bitCount clsN w) d a) s
def execCtz (h : Hdr) (d a : Nat) (w : Bool) (s : State) := runSyllable h 1 (scalar1 (bitCount ctzN w) d a) s
def execPopc (h : Hdr) (d a : Nat) (w : Bool) (s : State) := runSyllable h 1 (scalar1 (bitCount popcN w) d a) s

/-- SEL: a if P[OPC] is true, else b (R93). -/
def planSel (d a b c : Nat) (s : State) : Plan :=
  regPlan [(.s, a, 1), (.s, b, 2), (.p, c, 3)] [(.s, d, 0)] 1
    [.s d (if s.rg.rp c then s.rg.rs a else s.rg.rs b)]

def execSel (h : Hdr) (d a b c : Nat) (s : State) := runSyllable h 1 (planSel d a b c) s

/-- CMP: P[DST] := a cc b (R75, R93). -/
def planCmp (d a b cc : Nat) (s : State) : Plan :=
  let r := ccHolds cc 64 (s.rg.rs a).toNat (s.rg.rs b).toNat
  regPlan [(.s, a, 1), (.s, b, 2)] [(.p, d, 0)] 1 [.p d (r.getD false)]
    (if r = none then some (illegalOp 6) else none)

def execCmp (h : Hdr) (d a b cc : Nat) (s : State) := runSyllable h 1 (planCmp d a b cc) s
def execPand (h : Hdr) (d a b : Nat) (s : State) := runSyllable h 1 (pred2 (fun x y => x && y) d a b) s
def execPor (h : Hdr) (d a b : Nat) (s : State) := runSyllable h 1 (pred2 (fun x y => x || y) d a b) s
def execPxor (h : Hdr) (d a b : Nat) (s : State) := runSyllable h 1 (pred2 (fun x y => x != y) d a b) s

/-- PNOT (R93). -/
def planPnot (d a : Nat) (s : State) : Plan := regPlan [(.p, a, 1)] [(.p, d, 0)] 1 [.p d (!s.rg.rp a)]

def execPnot (h : Hdr) (d a : Nat) (s : State) := runSyllable h 1 (planPnot d a) s

/-! ### Immediates and bit fields (R95, R96) -/

/-- MOVI. -/
def planMovi (d : Nat) (imm : BitVec 64) (_ : State) : Plan := regPlan [] [(.s, d, 0)] 1 [.s d imm]

def execMovi (h : Hdr) (d : Nat) (imm : BitVec 64) (s : State) := runSyllable h 1 (planMovi d imm) s
def execAddi (h : Hdr) (d a : Nat) (imm : BitVec 48) (s : State) :=
  runSyllable h 1 (scalar1 (fun x => x + sext48 imm) d a) s

/-- A field that does not fit the register is an illegal operand. -/
def fieldTrap (pos lenm1 : Nat) : Option Trap := if 64 < pos + lenm1 + 1 then some (illegalOp 6) else none

/-- BFX: the field at `pos`, sign- or zero-extended. -/
def planBfx (d a pos lenm1 : Nat) (sx : Bool) (s : State) : Plan :=
  let f := bitsN (s.rg.rs a).toNat pos (lenm1 + 1)
  regPlan [(.s, a, 1)] [(.s, d, 0)] 1
    [.s d (if sx then BitVec.ofInt 64 (sextN (lenm1 + 1) f) else BitVec.ofNat 64 f)] (fieldTrap pos lenm1)

def execBfx (h : Hdr) (d a pos lenm1 : Nat) (sx : Bool) (s : State) := runSyllable h 1 (planBfx d a pos lenm1 sx) s

/-- BFI: the old destination is a source (R96). -/
def planBfi (d a pos lenm1 : Nat) (s : State) : Plan :=
  regPlan [(.s, a, 1), (.s, d, 0)] [(.s, d, 0)] 1
    [.s d (BitVec.ofNat 64 (setBitsN (s.rg.rs d).toNat pos (lenm1 + 1) (s.rg.rs a).toNat))] (fieldTrap pos lenm1)

def execBfi (h : Hdr) (d a pos lenm1 : Nat) (s : State) := runSyllable h 1 (planBfi d a pos lenm1) s
def execSext (h : Hdr) (d a k : Nat) (s : State) :=
  runSyllable h 1 (scalar1 (fun x => BitVec.ofInt 64 (sextN (k + 1) x.toNat)) d a) s
def execZext (h : Hdr) (d a k : Nat) (s : State) :=
  runSyllable h 1 (scalar1 (fun x => BitVec.ofNat 64 (bitsN x.toNat 0 (k + 1))) d a) s

/-! ### Address instructions (R97 to R100) -/

/-- The widths in WORK.SHAPE (R97). -/
def shapeWidths (w : Word) : List Nat := (List.range 6).map fun k => bitsN w.toNat (7 * k) 7

/-- F_k of the running task (R98). -/
def State.workField (s : State) (k : Nat) : Nat :=
  fieldOf (shapeWidths s.bk.cregs.workShape) k s.bk.cregs.workId.toNat

/-- AMOV, by direction: 0 A from S, 1 A from A, 2 S from A. -/
def planAmov (d a dir : Nat) (s : State) : Plan :=
  match dir with
  | 0 => regPlan [(.s, a, 1)] [(.a, d, 0)] 1 [.a d (s.rg.rs a)]
  | 1 => regPlan [(.a, a, 1)] [(.a, d, 0)] 1 [.a d (s.rg.ra a)]
  | 2 => regPlan [(.a, a, 1)] [(.s, d, 0)] 1 [.s d (s.rg.ra a)]
  | _ => .bad (illegalOp 6)

def execAmov (h : Hdr) (d a dir : Nat) (s : State) := runSyllable h 1 (planAmov d a dir) s

/-- A[DST] := f(A[OPA]). -/
def addr1 (f : Word → Word) (d a : Nat) (bad : Option Trap) (s : State) : Plan :=
  regPlan [(.a, a, 1)] [(.a, d, 0)] 1 [.a d (f (s.rg.ra a))] bad

/-- AADD. -/
def planAadd (d a b : Nat) (s : State) : Plan :=
  regPlan [(.a, a, 1), (.s, b, 2)] [(.a, d, 0)] 1 [.a d (s.rg.ra a + s.rg.rs b)]

def execAadd (h : Hdr) (d a b : Nat) (s : State) := runSyllable h 1 (planAadd d a b) s
def execAaddi (h : Hdr) (d a : Nat) (imm : BitVec 48) (s : State) :=
  runSyllable h 1 (addr1 (fun x => x + sext48 imm) d a none) s

/-- AWRAP's value: the bound subtracted at most once from the unbounded sum (R13), the result reduced modulo 2^64. -/
def wrapAddr (step bound : Nat) (x : Word) : Word :=
  let v := x.toNat + step
  BitVec.ofNat 64 (if bound ≤ v then v - bound else v)

def planAwrap (d a step bound : Nat) : State → Plan :=
  addr1 (wrapAddr step bound) d a (if bound = 0 ∨ bound ≤ step then some (illegalOp 6) else none)

def execAwrap (h : Hdr) (d a step bound : Nat) (s : State) := runSyllable h 1 (planAwrap d a step bound) s

/-- AIDX's sum: entry k in bits [8k + 7 : 8k], [7] enable, [5:0] shift. -/
def idxSum (ents : BitVec 48) (s : State) : Nat :=
  ((List.range 6).map fun k =>
    let e := bitsN ents.toNat (8 * k) 8
    if e.testBit 7 then s.workField k * 2 ^ (e % 64) else 0).foldl (· + ·) 0

def planAidx (d a : Nat) (ents : BitVec 48) (s : State) : Plan :=
  addr1 (fun x => x + BitVec.ofNat 64 (idxSum ents s)) d a none s

def execAidx (h : Hdr) (d a : Nat) (ents : BitVec 48) (s : State) := runSyllable h 1 (planAidx d a ents) s

/-- WIDF: fields 6 and 7 are illegal. -/
def planWidf (d k : Nat) (s : State) : Plan :=
  regPlan [] [(.s, d, 0)] 1 [.s d (BitVec.ofNat 64 (s.workField k))] (if 5 < k then some (illegalOp 6) else none)

def execWidf (h : Hdr) (d k : Nat) (s : State) := runSyllable h 1 (planWidf d k) s

end Sys2Proof.Machine
end

