-- ==== Sys2Proof/Machine/Control.lean ====
section
/-!
DEFINITION. Control instructions (R101 to R113): headers, transfers, suspension, completion, rendezvous, phases, the
software trap and the return from a trap.
-/

namespace Sys2Proof.Machine

open Sys2Proof

/-! ### Placement (R78, R84, R106) -/

/-- The bundle being issued is bundle LEN of its segment. -/
def Bank.atLast (b : Bank) : Bool :=
  match b.seg with
  | some g => g.idx == g.hdr.len
  | none => false

/-- The bundle being issued is an exit bundle. -/
def Bank.atExit (b : Bank) : Bool :=
  match b.seg with
  | some g => g.idx == g.hdr.len && g.hdr.ext
  | none => false

/-- The rendezvous group of the segment. -/
def Bank.group (b : Bank) : Nat :=
  match b.seg with
  | some g => g.hdr.rdvg
  | none => 0

/-- A decode trap reports the syllable that raised it (R368); `off` is its place in the bundle. -/
def Bank.decodeTrap (b : Bank) (slot cause : Nat) : Trap :=
  { cause := cause, slot := slot, info := BitVec.ofNat 64 (b.pc + b.pipe.ctx.place) }

/-- A syllable that is checked for its place before its predicate (R78). -/
def runPlaced (ok : Bool) (cause : Nat) (h : Hdr) (lat : Nat) (plan : State → Plan) (s : State) :
    Host.Outcome State Fault Refusal :=
  if ok then runSyllable h lat plan s else .next (s.takeTrap (s.bk.decodeTrap h.slot cause))

/-! ### Headers and NOP -/

/-- A segment's header issues: no register changes; a segment of a header alone needs a header at its successor (R81). -/
def execSegh (h : Hdr) (o : SegHdr) (s : State) : Host.Outcome State Fault Refusal :=
  let g : Seg := { addr := s.bk.pc, hdr := o, idx := 0 }
  if s.bk.seg ≠ none then .next (s.takeTrap { cause := 0x03, slot := h.slot, info := BitVec.ofNat 64 s.bk.pc })
  else if o.len = 0 ∧ ¬ s.seghAt s.cf s.bf g.next then
    .next (s.takeTrap { cause := 0x04, slot := h.slot, info := BitVec.ofNat 64 g.next })
  else .next ((s.enterSegment s.cf s.bf o).mark .went)

/-- NOP (R115). -/
def execNop (h : Hdr) (s : State) := runSyllable h 1 (fun _ => {}) s

/-! ### Transfers (R102 to R105) -/

/-- PC + sext(OFF) modulo 2^48, from the bundle's first syllable (R76). -/
def Bank.target (b : Bank) (off : BitVec 48) : Nat := wrapN 48 ((b.pc : Int) + off.toInt)

/-- seg + sext(NEXT), modulo 2^48 as every address of a syllable. -/
def Bank.fallNext (b : Bank) : Nat :=
  match b.seg with
  | some g => g.next
  | none => b.pc

/-- Control goes to `c` after the bundle. -/
def State.setCtl (s : State) (c : Ctl) : State := s.modBk fun y => y.modCtx fun k => { k with ctl := some c }

/-- A transfer beside its register writes: a taken one needs a SEGH at its target (R82, R103), whose trap comes before those of
operands (R7). -/
def jumpPlan (taken : Bool) (t : Nat) (p : Plan) (s : State) : Plan :=
  if ¬ taken then p
  else if s.seghAt s.cf s.bf t then (if p.out = .go then { p with eff := fun _ u => u.setCtl (.jump t) } else p)
  else { p with out := .trap { cause := 0x04, info := BitVec.ofNat 64 t } }

def planBr (off : BitVec 48) (s : State) : Plan := jumpPlan true (s.bk.target off) {} s

def execBr (h : Hdr) (off : BitVec 48) (s : State) := runSyllable h 1 (planBr off) s

def planBrc (a b cc : Nat) (off : BitVec 48) (s : State) : Plan :=
  let r := ccHolds cc 64 (s.rg.rs a).toNat (s.rg.rs b).toNat
  jumpPlan (r.getD false) (s.bk.target off)
    (regPlan [(.s, a, 1), (.s, b, 2)] [] 1 [] (if r = none then some (illegalOp 6) else none)) s

def execBrc (h : Hdr) (a b cc : Nat) (off : BitVec 48) (s : State) := runSyllable h 1 (planBrc a b cc off) s

/-- CALL. DEDUCED, log 106: the link is reduced modulo 2^48 (R103). -/
def planCall (d : Nat) (off : BitVec 48) (s : State) : Plan :=
  jumpPlan true (s.bk.target off) (regPlan [] [(.s, d, 0)] 1 [.s d (BitVec.ofNat 64 s.bk.fallNext)]) s

def execCall (h : Hdr) (d : Nat) (off : BitVec 48) (s : State) := runSyllable h 1 (planCall d off) s

def planRet (a : Nat) (s : State) : Plan :=
  jumpPlan true ((s.rg.rs a).toNat % 2 ^ 48) (regPlan [(.s, a, 1)] [] 1 []) s

def execRet (h : Hdr) (a : Nat) (s : State) := runSyllable h 1 (planRet a) s

def planLoopn (d : Nat) (off : BitVec 48) (s : State) : Plan :=
  let n := s.rg.rs d - 1
  jumpPlan (n != 0) (s.bk.target off)
    (regPlan [(.s, d, 0)] [(.s, d, 0)] 1 [.s d n] (if d = 0 then some (illegalOp 0) else none)) s

def execLoopn (h : Hdr) (d : Nat) (off : BitVec 48) (s : State) := runSyllable h 1 (planLoopn d off) s

/-! ### Suspension and completion (R106 to R109) -/

/-- A release at the segment's commit (R355). -/
def State.release (s : State) (r : Release) : State :=
  s.modBk fun y => y.modCtx fun k => { k with releases := k.releases ++ [r] }

/-- YIELD: the segment ends; its successor must be a SEGH (R107). -/
def planYield (s : State) : Plan :=
  let t := s.bk.fallNext
  if s.seghAt s.cf s.bf t then { eff := fun _ u => (u.setCtl .yield).release .yield }
  else { out := .trap { cause := 0x04, info := BitVec.ofNat 64 t } }

def execYield (h : Hdr) (s : State) := runSyllable h 1 planYield s

/-- The dirty sectors are captured by the bundle; a fault of a write-back is the bundle's own (R244, R245). Their write-backs
wait for the segment's commit (R355). -/
def capturePlan (f : State → State) (s : State) : Plan :=
  match s.captureAll s.cf s.bf with
  | .error t => .bad t
  | .ok _ => { eff := fun _ u =>
      match u.captureAll u.cf u.bf with
      | .ok v => f (v.modBk fun y => y.keepBacks (u.core u.cf).varNext)
      | .error _ => f u }

/-- END (R108). -/
def planEnd (s : State) : Plan := capturePlan (fun u => u.setCtl .finish) s

def execEnd (h : Hdr) (s : State) := runSyllable h 1 planEnd s

/-- PHASE: scopes 8 to 15 are illegal; the arrival is released at commit (R109). A fault of its captures has the lower code. -/
def planPhase (scope : Nat) (y : Bool) (s : State) : Plan :=
  let p := capturePlan (fun u => u.release (.phase scope y)) s
  if 7 < scope ∧ p.out = .go then .bad (illegalOp 6) else p

def execPhase (h : Hdr) (scope : Nat) (y : Bool) (s : State) :=
  runPlaced s.bk.atLast 0x08 h 1 (planPhase scope y) s

/-! ### Rendezvous (R110, R221) -/

/-- RDVs of a group at which a task has arrived. -/
def Task.arrived (t : Task) (g : Nat) : Nat := Tab.get 0 t.rdvs g + (if t.rdvAt = some g then 1 else 0)

/-- A bank, resident or saved, holds a member of the task's gang: one launch, one first identifier (R208). -/
def Bank.inGang (y : Bank) (t : Task) : Bool := y.state != .empty && y.task.launch == t.launch && y.task.gid == t.gid

/-- The member of the gang that a core holds, in a bank or a saved context. -/
def Core.member (x : Core) (t : Task) : Option Task :=
  (([x.bank0, x.bank1] ++ x.saved.map (·.bank)).find? fun y => y.inGang t).map (·.task)

/-- Every partner of a task on core `c` has arrived for the k-th time at the group. -/
def State.partnersMet (s : State) (c : Nat) (t : Task) (g k : Nat) : Bool :=
  t.gang.all fun d => d == c || (match (s.core d).member t with
    | some u => decide (k ≤ u.arrived g)
    | none => false)

/-- Every partner of the issuing task has arrived. -/
def State.gangMet (s : State) (g k : Nat) : Bool := s.partnersMet s.cf s.bk.task g k

/-- RDV: passes when every member has arrived, else holds. -/
def planRdv (s : State) : Plan :=
  let g := s.bk.group
  let k := Tab.get 0 s.bk.task.rdvs g + 1
  let set (at_ : Option Nat) (n : Nat) (u : State) : State :=
    u.modBk fun y => { y with task := { y.task with rdvs := Tab.set 0 y.task.rdvs g n, rdvAt := at_ } }
  if s.gangMet g k then { eff := fun _ u => set none k u }
  else { out := .hold .rendezvous, heldEff := set (some g) (k - 1) }

def execRdv (h : Hdr) (s : State) := runPlaced (s.bk.group != 0) 0x01 h 1 planRdv s

/-! ### Traps (R111 to R113) -/

/-- TRAP: the software trap after its own bundle (R112). -/
def planTrapInstr (slot : Nat) (code : BitVec 32) (_ : State) : Plan :=
  { eff := fun _ u => u.modBk fun y => y.modCtx fun k =>
      { k with trapAfter := some { cause := 0x40, slot := slot, info := code.setWidth 64 } } }

def execTrap (h : Hdr) (code : BitVec 32) (s : State) := runSyllable h 1 (planTrapInstr h.slot code) s

/-- A privileged syllable in task mode (R121). -/
def privTrap (info : Nat) : Trap := { cause := 0x07, info := BitVec.ofNat 64 info }

/-- ERET (R113, R367). -/
def planEret (s : State) : Plan :=
  if s.bk.monitor then { eff := fun _ u => u.setCtl .eret } else .bad (privTrap 0xFFF)

def execEret (h : Hdr) (s : State) := runSyllable h 1 planEret s

end Sys2Proof.Machine
end

