-- ==== Sys2Proof/Machine/Vector.lean ====
section
/-!
DEFINITION. Vector and mask instructions (R122 to R137): lane arithmetic and logic, comparison, selection and movement,
changes of width, permutes, reductions and scans, masks.
-/

namespace Sys2Proof

open Sys2Proof.Machine

/-! ### Fields of a VEC syllable -/

/-- U (R122, R124). -/
def VecOps.u (o : VecOps) : Bool := o.sub % 2 == 1
/-- UB of VDOT4. -/
def VecOps.ub (o : VecOps) : Bool := o.sub / 2 % 2 == 1
/-- The source operands: OPA, OPB unless I, the mask. -/
def VecOps.srcA (o : VecOps) : List RegOp := [(.v, o.opa, 1)]
def VecOps.srcB (o : VecOps) : List RegOp := if o.i then [] else [(.v, o.opb, 2)]
def VecOps.srcQ (o : VecOps) : List RegOp := [(.q, o.qm, 6)]
/-- The record operand, read under CL = 2 or RR. -/
def VecOps.srcT (o : VecOps) : List RegOp := if o.cl = 2 ∨ o.rr then [(.t, o.tr, 5)] else []
/-- The record is a second destination under CL = 2 (R126). -/
def VecOps.dstT (o : VecOps) : List RegOp := if o.cl = 2 then [(.t, o.tr, 5)] else []
/-- The width that EW names; 64 stands in for an illegal code, which traps. -/
def VecOps.wd (o : VecOps) : Nat := (ewBits o.ew).getD 64
def VecOps.srcIdx (o : VecOps) : List RegOp := if o.i then [] else [(.s, o.opb, 2)]

end Sys2Proof

namespace Sys2Proof.Machine

open Sys2Proof

/-! ### Sources -/

/-- The lanes of a vector register at width `w`. -/
def State.vlanes (s : State) (r w : Nat) : List Nat := lanesN (s.rg.rv r).toNat w (4096 / w)

/-- The second operand's lanes: with I, IMM32 sign-extended to 64 bits, its low `w` bits (R124). -/
def State.lanesB (s : State) (o : VecOps) (w : Nat) : List Nat :=
  if o.i then List.replicate (4096 / w) (wrapN w o.imm.toInt) else s.vlanes o.opb w

/-- Shift counts: lane b unsigned, or IMM32 unsigned (R129). -/
def State.lanesK (s : State) (o : VecOps) (w : Nat) : List Nat :=
  if o.i then List.replicate (4096 / w) o.imm.toNat else s.vlanes o.opb w

/-- Which of `n` lanes of width `w` are active (R123). -/
def State.activeLanes (s : State) (q w n : Nat) : List Bool := (List.range n).map (governs (s.rg.rq q).toNat w)

/-! ### Limits and rounding -/

/-- `x` limited to -b … b, then to the result width, wrapped or saturated, by CL with the entry's own behaviour `own`
(0 wrap, 1 sat) for CL = 0 (R126). -/
def limitCl (uns : Bool) (w cl own b : Nat) (x : Int) : Nat × Bool :=
  match (if cl = 0 then own else cl) with
  | 0 => (wrapN w x, false)
  | 1 => let r := satW uns w x; (wrapN w r.1, r.2)
  | _ =>
    let c := limitTo (-(b : Int)) (b : Int) x
    let r := satW uns w c.1
    (wrapN w r.1, c.2 || r.2)

/-- CL = 3 is illegal (R126). -/
def clTrap (cl : Nat) : Bool × Trap := (cl == 3, illegalOp 6)

/-- The rounding mode m: RM, or RND of T[TR] with RR (R129). -/
def State.rmode (s : State) (o : VecOps) : Nat := if o.rr then trecRnd (s.rg.rt o.tr) else o.rm

/-- Modes 6 and 7 are illegal (R60, R75). -/
def modeTrap (rr : Bool) (m : Nat) : Bool × Trap := (decide (5 < m), illegalOp (if rr then 5 else 6))

/-- The random word of a lane (R66, R67): the record's seed when the rounding goes through a record that has one. -/
def State.rword (s : State) (viaRec : Bool) (t : TRec) (lane : Nat) : Nat :=
  let seed := if viaRec && trecSeedv t then BitVec.ofNat 64 (trecSeed t) else s.bk.cregs.seed
  (prng seed s.cf lane (s.bk.cregs.draw + BitVec.ofNat 64 s.bk.pipe.ctx.draws)).toNat

/-! ### Results -/

/-- The mask and value of a whole-register write of lanes of width `w`: active lanes receive their results, inactive
lanes 0 with ZI and nothing without (R123). -/
def laneWrite (zi : Bool) (w : Nat) (act : List Bool) (l : List Nat) : VReg × VReg :=
  (BitVec.ofNat 4096 (laneMask w (act.map fun a => a || zi)),
   BitVec.ofNat 4096 (packN w (List.zipWith (fun a x => if a then x else 0) act l)))

/-- The bit of T[TR].SAT (R57). -/
def satBit : TRec := BitVec.ofNat 256 (2 ^ 58)

/-- The flags of a limiting instruction (R64, R126). -/
def satWrites (limited : Bool) (o : VecOps) : List Write :=
  (if limited then [.csat] else []) ++
  (if o.cl = 2 then [.t o.tr (if limited then satBit else 0) satBit] else [])

/-- Some active lane was limited. -/
def anyLimited (act : List Bool) (l : List (Nat × Bool)) : Bool := (List.zipWith (fun a x => a && x.2) act l).any id

/-- The writes of a lane instruction. -/
def lanesTo (o : VecOps) (w : Nat) (act : List Bool) (l : List (Nat × Bool)) : List Write :=
  let r := laneWrite o.zi w act (l.map (·.1))
  .v o.dst r.1 r.2 :: satWrites (anyLimited act l) o

/-- EW lies in lo … hi (R75). -/
def ewTrap (o : VecOps) (lo hi : Nat) : Bool × Trap := (decide (o.ew < lo ∨ hi < o.ew ∨ 4 < o.ew), illegalOp 6)

/-! ### Lane arithmetic and logic (R129) -/

/-- What a lane instruction computes: the limit's own behaviour, whether it has a second operand, that operand's lanes,
the exact result of a pair of lanes at width w. -/
structure LaneFn where
  own : Nat := 0
  two : Bool := true
  shift : Bool := false
  f : (uns : Bool) → (w : Nat) → Nat → Nat → Int

/-- A lane instruction, with its widening form (R125): result lane i from source lanes PART * n / 2 + i. Of a widening form
CL = 2 alone limits the exact result (R129). -/
def lanePlan (k : LaneFn) (o : VecOps) (s : State) : List RegOp × Option Trap × List Write :=
  let w := o.wd
  let wr := if o.w then 2 * w else w
  let n := 4096 / wr
  let base := if o.w then o.part * n else 0
  let a := (s.vlanes o.opa w).drop base
  let b := (if k.shift then s.lanesK o w else s.lanesB o w).drop base
  let act := s.activeLanes o.qm wr n
  let cb := trecClamp (s.rg.rt o.tr)
  let l := (List.zipWith (k.f o.u w) a (if k.two then b else a)).take n |>.map
    (limitCl o.u wr (if o.w && o.cl == 1 then 0 else o.cl) k.own cb)
  (o.srcA ++ (if k.two then o.srcB else []) ++ o.srcQ ++ o.srcT,
   firstTrap [ewTrap o 0 4, clTrap o.cl, (o.w && (o.ew == 4 || decide (1 < o.part)), illegalOp 6)],
   lanesTo o wr act l)

/-- A lane instruction with latency `lat` as a plan. -/
def vecPlan (lat : Nat) (k : LaneFn) (o : VecOps) (s : State) : Plan :=
  let r := lanePlan k o s
  regPlan r.1 ((.v, o.dst, 0) :: o.dstT) lat r.2.2 r.2.1

def runVec (h : Hdr) (lat : Nat) (k : LaneFn) (o : VecOps) (s : State) : Host.Outcome State Fault Refusal :=
  runSyllable h lat (vecPlan lat k o) s

/-- A lane function of two data sources. -/
def dataFn (f : Int → Int → Int) : Bool → Nat → Nat → Nat → Int := fun u w a b => f (laneI u w a) (laneI u w b)

/-- A lane function of raw bits. -/
def bitsFn (f : Nat → Nat → Nat → Nat) : Bool → Nat → Nat → Nat → Int := fun _ w a b => ((f w a b : Nat) : Int)

def execVadd (h : Hdr) (o : VecOps) (s : State) := runVec h 2 { f := dataFn fun a b => a + b } o s
def execVsub (h : Hdr) (o : VecOps) (s : State) := runVec h 2 { f := dataFn fun a b => a - b } o s
def execVadds (h : Hdr) (o : VecOps) (s : State) := runVec h 2 { own := 1, f := dataFn fun a b => a + b } o s
def execVsubs (h : Hdr) (o : VecOps) (s : State) := runVec h 2 { own := 1, f := dataFn fun a b => a - b } o s
def execVmul (h : Hdr) (o : VecOps) (s : State) := runVec h 4 { f := dataFn fun a b => a * b } o s
def execVmulh (h : Hdr) (o : VecOps) (s : State) :=
  runVec h 4 { f := fun u w a b => laneI u w a * laneI u w b / ((2 ^ w : Nat) : Int) } o s
def execVand (h : Hdr) (o : VecOps) (s : State) := runVec h 2 { f := bitsFn fun _ a b => a &&& b } o s
def execVor (h : Hdr) (o : VecOps) (s : State) := runVec h 2 { f := bitsFn fun _ a b => a ||| b } o s
def execVxor (h : Hdr) (o : VecOps) (s : State) := runVec h 2 { f := bitsFn fun _ a b => a ^^^ b } o s
def execVandn (h : Hdr) (o : VecOps) (s : State) :=
  runVec h 2 { f := bitsFn fun w a b => a &&& (2 ^ w - 1 - b) } o s
def execVshl (h : Hdr) (o : VecOps) (s : State) :=
  runVec h 2 { shift := true, f := fun u w a k => if w ≤ k then 0 else laneI u w a * ((2 ^ k : Nat) : Int) } o s
def execVshr (h : Hdr) (o : VecOps) (s : State) :=
  runVec h 2 { shift := true, f := bitsFn fun w a k => if w ≤ k then 0 else a / 2 ^ k } o s
def execVsra (h : Hdr) (o : VecOps) (s : State) :=
  runVec h 2 { shift := true, f := fun _ w a k => sextN w a / ((2 ^ min k (w - 1) : Nat) : Int) } o s
def execVmin (h : Hdr) (o : VecOps) (s : State) := runVec h 2 { f := dataFn fun a b => min a b } o s
def execVmax (h : Hdr) (o : VecOps) (s : State) := runVec h 2 { f := dataFn fun a b => max a b } o s
def execVabs (h : Hdr) (o : VecOps) (s : State) :=
  runVec h 2 { two := false, f := fun _ w a _ => ((sextN w a).natAbs : Int) } o s
def execVneg (h : Hdr) (o : VecOps) (s : State) := runVec h 2 { two := false, f := fun _ w a _ => -sextN w a } o s
def execVclz (h : Hdr) (o : VecOps) (s : State) := runVec h 2 { two := false, f := bitsFn fun w a _ => clzN w a } o s
def execVcls (h : Hdr) (o : VecOps) (s : State) := runVec h 2 { two := false, f := bitsFn fun w a _ => clsN w a } o s
def execVpopc (h : Hdr) (o : VecOps) (s : State) := runVec h 2 { two := false, f := bitsFn fun w a _ => popcN w a } o s

/-- VMULS: the rounded shifted product, saturated (R129). -/
def planVmuls (o : VecOps) (s : State) : Plan :=
  let w := o.wd
  let m := s.rmode o
  let act := s.activeLanes o.qm w (4096 / w)
  let t := s.rg.rt o.tr
  let st := m == 4 && decide (0 < o.sh) && act.any id
  let l := mapFrom (fun i (ab : Nat × Nat) =>
      limitCl o.u w o.cl 1 (trecClamp t)
        (rnd (laneI o.u w ab.1 * laneI o.u w ab.2) o.sh m (if st then s.rword o.rr t i else 0)))
    0 (List.zip (s.vlanes o.opa w) (s.lanesB o w))
  { regPlan (o.srcA ++ o.srcB ++ o.srcQ ++ o.srcT) ((.v, o.dst, 0) :: o.dstT) 4 (lanesTo o w act l)
      (firstTrap [modeTrap o.rr m, ewTrap o 0 4, clTrap o.cl]) with draw := st }

def execVmuls (h : Hdr) (o : VecOps) (s : State) := runSyllable h 4 (planVmuls o) s

/-- VMAC: d + a * b, with d at the result's width (R130). -/
def planVmac (o : VecOps) (s : State) : Plan :=
  let w := o.wd
  let wr := if o.w then 2 * w else w
  let n := 4096 / wr
  let base := if o.w then o.part * n else 0
  let a := (s.vlanes o.opa w).drop base
  let b := (s.lanesB o w).drop base
  let d := s.vlanes o.dst wr
  let act := s.activeLanes o.qm wr n
  let cb := trecClamp (s.rg.rt o.tr)
  let l := (List.zip d (List.zip a b)).map fun x =>
    limitCl o.u wr o.cl 0 cb (laneI o.u wr x.1 + laneI o.u w x.2.1 * laneI o.u w x.2.2)
  regPlan ((.v, o.dst, 0) :: (o.srcA ++ o.srcB ++ o.srcQ ++ o.srcT)) ((.v, o.dst, 0) :: o.dstT) 4 (lanesTo o wr act l)
    (firstTrap [ewTrap o 0 4, clTrap o.cl, (o.w && (o.ew == 4 || decide (1 < o.part)), illegalOp 6)])

def execVmac (h : Hdr) (o : VecOps) (s : State) := runSyllable h 4 (planVmac o) s

/-- The sum of the products of two lists. -/
def dotI : List Int → List Int → Int
  | a :: as, b :: bs => a * b + dotI as bs
  | _, _ => 0

/-- VDOT4: d_i and four products, at 4w (R130). -/
def planVdot4 (o : VecOps) (s : State) : Plan :=
  let w := if 2 < o.ew then 16 else o.wd
  let wr := 4 * w
  let n := 4096 / wr
  let a := chunksOf 4 n ((s.vlanes o.opa w).map (laneI o.u w))
  let b := chunksOf 4 n ((s.vlanes o.opb w).map (laneI o.ub w))
  let act := s.activeLanes o.qm wr n
  let cb := trecClamp (s.rg.rt o.tr)
  let l := (List.zip (s.vlanes o.dst wr) (List.zipWith dotI a b)).map fun x =>
    limitCl false wr o.cl 0 cb (sextN wr x.1 + x.2)
  regPlan ((.v, o.dst, 0) :: (.v, o.opb, 2) :: (o.srcA ++ o.srcQ ++ o.srcT)) ((.v, o.dst, 0) :: o.dstT) 4
    (lanesTo o wr act l) (firstTrap [ewTrap o 0 2, clTrap o.cl])

def execVdot4 (h : Hdr) (o : VecOps) (s : State) := runSyllable h 4 (planVdot4 o) s

/-! ### Comparison, selection and movement (R131) -/

/-- VCMP: every mask bit of an active lane; the condition's code says the reading. -/
def planVcmp (o : VecOps) (s : State) : Plan :=
  let w := o.wd
  let act := s.activeLanes o.qm w (4096 / w)
  let r := List.zipWith (fun a b => (ccHolds o.sub w a b).getD false) (s.vlanes o.opa w) (s.lanesB o w)
  let m := laneMask (w / 4) (act.map fun a => a || o.zi)
  let x := laneMask (w / 4) (List.zipWith (fun a b => a && b) act r)
  regPlan (o.srcA ++ o.srcB ++ o.srcQ) [(.q, o.dst, 0)] 2 [.q o.dst (BitVec.ofNat 1024 m) (BitVec.ofNat 1024 x)]
    (firstTrap [ewTrap o 0 4, (decide (9 < o.sub), illegalOp 6)])

def execVcmp (h : Hdr) (o : VecOps) (s : State) := runSyllable h 2 (planVcmp o) s

/-- Lanes that are written as they are, at width `w`. -/
def plainLanes (o : VecOps) (w : Nat) (s : State) (l : List Nat) : List Write :=
  lanesTo { o with cl := 0 } w (s.activeLanes o.qm w (4096 / w)) (l.map fun x => (x, false))

/-- VSEL: by the governing bit of Q[OPC]. -/
def planVsel (o : VecOps) (s : State) : Plan :=
  let w := o.wd
  let q := s.activeLanes o.opc w (4096 / w)
  let l := List.zipWith (fun g (ab : Nat × Nat) => if g then ab.1 else ab.2) q
    (List.zip (s.vlanes o.opa w) (s.vlanes o.opb w))
  regPlan ([(.v, o.opa, 1), (.v, o.opb, 2), (.q, o.opc, 3)] ++ o.srcQ) [(.v, o.dst, 0)] 2 (plainLanes o w s l)
    (firstTrap [ewTrap o 0 4])

def execVsel (h : Hdr) (o : VecOps) (s : State) := runSyllable h 2 (planVsel o) s

/-- VMOV. -/
def planVmov (o : VecOps) (s : State) : Plan :=
  regPlan (o.srcA ++ o.srcQ) [(.v, o.dst, 0)] 2 (plainLanes o o.wd s (s.vlanes o.opa o.wd)) (firstTrap [ewTrap o 0 4])

def execVmov (h : Hdr) (o : VecOps) (s : State) := runSyllable h 2 (planVmov o) s

/-- VBCST: a scalar, or IMM32 sign-extended. -/
def planVbcst (o : VecOps) (s : State) : Plan :=
  let w := o.wd
  let x := if o.i then wrapN w o.imm.toInt else (s.rg.rs o.opa).toNat % 2 ^ w
  regPlan ((if o.i then [] else [(.s, o.opa, 1)]) ++ o.srcQ) [(.v, o.dst, 0)] 3
    (plainLanes o w s (List.replicate (4096 / w) x)) (firstTrap [ewTrap o 0 4])

def execVbcst (h : Hdr) (o : VecOps) (s : State) := runSyllable h 3 (planVbcst o) s

/-- VIOTA. -/
def planViota (o : VecOps) (s : State) : Plan :=
  let w := o.wd
  let l := (List.range (4096 / w)).map fun i => ((s.rg.rs o.opa).toNat + i) % 2 ^ w
  regPlan ((.s, o.opa, 1) :: o.srcQ) [(.v, o.dst, 0)] 3 (plainLanes o w s l) (firstTrap [ewTrap o 0 4])

def execViota (h : Hdr) (o : VecOps) (s : State) := runSyllable h 3 (planViota o) s

/-- The lane index of VINS and VEXT, and the operand that gives it. DEDUCED, log 108: IMM32 is read unsigned (R131). -/
def State.laneIdx (s : State) (o : VecOps) : Nat := if o.i then o.imm.toNat else (s.rg.rs o.opb).toNat
def idxTrap (o : VecOps) (k n : Nat) : Bool × Trap := (decide (n ≤ k), illegalOp (if o.i then 6 else 2))

/-- VINS: one lane. -/
def planVins (o : VecOps) (s : State) : Plan :=
  let w := o.wd
  let k := s.laneIdx o % (4096 / w)
  regPlan ((.s, o.opa, 1) :: o.srcIdx) [(.v, o.dst, 0)] 2
    [.v o.dst (BitVec.ofNat 4096 (2 ^ (w * k) * (2 ^ w - 1)))
      (BitVec.ofNat 4096 (2 ^ (w * k) * ((s.rg.rs o.opa).toNat % 2 ^ w)))]
    (firstTrap [idxTrap o (s.laneIdx o) (4096 / w), ewTrap o 0 4])

def execVins (h : Hdr) (o : VecOps) (s : State) := runSyllable h 2 (planVins o) s

/-- VEXT: one lane to a scalar. -/
def planVext (o : VecOps) (s : State) : Plan :=
  let w := o.wd
  let x := laneN (s.rg.rv o.opa).toNat w (s.laneIdx o % (4096 / w))
  regPlan ((.v, o.opa, 1) :: o.srcIdx) [(.s, o.dst, 0)] 2 [.s o.dst (BitVec.ofInt 64 (laneI o.u w x))]
    (firstTrap [idxTrap o (s.laneIdx o) (4096 / w), ewTrap o 0 4])

def execVext (h : Hdr) (o : VecOps) (s : State) := runSyllable h 2 (planVext o) s

/-! ### Changes of width (R132 to R134) -/

/-- The destinations VSHRD and VCNV may name. -/
def dfmtOk (d : Nat) : Bool := decide (d ≤ 5) || d == 7

/-- The limit of a shift-down into a format: CL 0 wraps, 1 saturates to its range, 2 clamps by R63 and keeps to the
range. -/
def limitFmt (fmt cl b : Nat) (q : Int) : Nat × Bool :=
  let w := fmtBits fmt
  match cl with
  | 0 => (wrapN w q, false)
  | 1 => let r := satW (fmtKind fmt == .uint) w q; (wrapN w r.1, r.2)
  | _ =>
    let c := clampRange fmt b
    let x := limitTo c.1 c.2 q
    let r := satW (fmtKind fmt == .uint) w x.1
    (wrapN w r.1, x.2 || r.2)

/-- A write of `ns` lanes of width `wd` from lane `j0` on; the other lanes keep their bits (R132). -/
def partTo (o : VecOps) (wd j0 : Nat) (act : List Bool) (l : List (Nat × Bool)) : List Write :=
  let r := laneWrite o.zi wd act (l.map (·.1))
  .v o.dst (r.1 <<< (wd * j0)) (r.2 <<< (wd * j0)) :: satWrites (anyLimited act l) o

/-- Activity of `ns` destination lanes from `j0` on. -/
def State.activeFrom (s : State) (q w j0 ns : Nat) : List Bool :=
  (List.range ns).map fun i => governs (s.rg.rq q).toNat w (j0 + i)

/-- VSHRD in SMODE 0 and 1, and VCNV to a width that is not larger: source lanes rounded down to a part of the
destination. -/
def narrowPlan (o : VecOps) (sh : List Nat) (m : Nat) (rd : List RegOp) (bad : List (Bool × Trap)) (s : State) : Plan :=
  let ws := o.wd
  let wd := fmtBits o.dfmt
  let ns := 4096 / ws
  let j0 := o.part * ns
  let act := s.activeFrom o.qm wd j0 ns
  let t := s.rg.rt o.tr
  let st := m == 4 && (List.zipWith (fun a k => a && decide (0 < k)) act sh).any id
  let l := mapFrom (fun i (xk : Nat × Nat) =>
      limitFmt o.dfmt o.cl (trecClamp t)
        (rnd (laneI o.u ws xk.1) xk.2 m (if st && decide (0 < xk.2) then s.rword o.rr t i else 0)))
    0 (List.zip (s.vlanes o.opa ws) sh)
  { regPlan (o.srcA ++ rd ++ o.srcQ ++ o.srcT) ((.v, o.dst, 0) :: o.dstT) 3 (partTo o wd j0 act l)
      (firstTrap (bad ++ [(!dfmtOk o.dfmt, illegalOp 6), clTrap o.cl, (decide (ws < wd ∨ ws / wd ≤ o.part), illegalOp 6)]))
    with draw := st }

/-- VSHRD: the shift is SH, or bits [5:0] of a lane of OPB; SMODE 3 is illegal. -/
def planVshrd (o : VecOps) (s : State) : Plan :=
  let m := s.rmode o
  let sh := if o.smode = 1 then (s.vlanes o.opb o.wd).map (· % 64) else List.replicate (4096 / o.wd) o.sh
  narrowPlan o sh m (if o.smode = 1 then [(.v, o.opb, 2)] else [])
    [modeTrap o.rr m, ewTrap o 1 4, (decide (1 < o.smode), illegalOp 6)] s

def execVshrd (h : Hdr) (o : VecOps) (s : State) := runSyllable h 3 (planVshrd o) s

/-- Lanes PART * n + i of the source at `ws`, extended to `wd` (R134). -/
def widenPlan (o : VecOps) (ws wd : Nat) (bad : List (Bool × Trap)) (s : State) : Plan :=
  let n := 4096 / wd
  let l := ((s.vlanes o.opa ws).drop (o.part * n)).take n |>.map fun x => wrapN wd (laneI o.u ws x)
  regPlan (o.srcA ++ o.srcQ) [(.v, o.dst, 0)] 3 (plainLanes o wd s l)
    (firstTrap (bad ++ [(decide (wd / ws ≤ o.part), illegalOp 6)]))

/-- VCNV: to a width that is not larger, a VSHRD of shift 0, whose EW is 1 to 4. -/
def planVcnv (o : VecOps) (s : State) : Plan :=
  if dfmtOk o.dfmt ∧ o.wd < fmtBits o.dfmt then widenPlan o o.wd (fmtBits o.dfmt) [ewTrap o 0 4] s
  else narrowPlan { o with rr := false } (List.replicate (4096 / o.wd) 0) 0 [] [ewTrap o 1 4] s

def execVcnv (h : Hdr) (o : VecOps) (s : State) := runSyllable h 3 (planVcnv o) s

/-- VUNPK. -/
def planVunpk (o : VecOps) (s : State) : Plan :=
  let w := if 3 < o.ew then 32 else o.wd
  widenPlan o w (2 * w) [ewTrap o 0 3] s

def execVunpk (h : Hdr) (o : VecOps) (s : State) := runSyllable h 3 (planVunpk o) s

/-- VPACK: the lanes of OPA, then those of OPB, at half the width. -/
def planVpack (o : VecOps) (s : State) : Plan :=
  let w := if o.ew = 0 then 8 else o.wd
  let wd := w / 2
  let act := s.activeLanes o.qm wd (4096 / wd)
  let cb := trecClamp (s.rg.rt o.tr)
  let l := (s.vlanes o.opa w ++ s.vlanes o.opb w).map fun x => limitCl o.u wd o.cl 0 cb (laneI o.u w x)
  regPlan ((.v, o.opb, 2) :: (o.srcA ++ o.srcQ ++ o.srcT)) ((.v, o.dst, 0) :: o.dstT) 3 (lanesTo o wd act l)
    (firstTrap [ewTrap o 1 4, clTrap o.cl])

def execVpack (h : Hdr) (o : VecOps) (s : State) := runSyllable h 3 (planVpack o) s

/-- The fields of a record that a census shift-down writes (R69, R70): the census when `c` gives it, the shift, the
scale, and SAT when limited. DEDUCED, log 103: a write of the record writes these fields and no other (R40, R61). -/
def censusWrite (c : Option Nat) (shift : Nat) (scale : Int) (limited : Bool) : TRec × TRec :=
  let f (lo w x : Nat) (on : Bool) : Nat × Nat := if on then (2 ^ lo * (2 ^ w - 1), 2 ^ lo * (x % 2 ^ w)) else (0, 0)
  let l := [f 24 8 (wrapN 8 scale) true, f 32 5 (c.getD 0) c.isSome, f 58 1 1 limited, f 192 8 shift true]
  (BitVec.ofNat 256 ((l.map (·.1)).foldl (· + ·) 0), BitVec.ofNat 256 ((l.map (·.2)).foldl (· + ·) 0))

/-- VSHRD in SMODE 2: the census shift-down of R70 through T[TR] (R133). DEDUCED, log 109: a PART outside the destination raises
0x24 as in the other modes (R132). -/
def planVshrdCensus (o : VecOps) (s : State) : Plan :=
  let t := s.rg.rt o.tr
  let fm := trecFmt t
  let wd := fmtBits fm
  let j0 := o.part * 128
  let act := s.activeFrom o.qm wd j0 128
  let m := trecRnd t
  let sh := shiftFor (trecCensus t) (trecHead t) fm
  let scale := sextN 8 o.imm.toNat + (sh : Int)
  let x := s.vlanes o.opa 32
  let st := m == 4 && fmtKind fm != .ds && decide (0 < sh) && act.any id
  let l := mapFrom (fun i v =>
    narrowTo fm (trecClamp t) (trecZp t) (sextN 32 v) sh m (if st then s.rword true t i else 0)) 0 x
  let cl := (List.zip act x).filterMap fun e => if e.1 then some (clsN 32 e.2) else none
  let lim := anyLimited act l
  let tw := censusWrite (if cl = [] ∨ trecCfrz t then none else some (minOf 31 cl)) sh scale lim
  { regPlan (o.srcA ++ o.srcQ ++ [(.t, o.tr, 5)]) [(.v, o.dst, 0), (.t, o.tr, 5)] 3
      (partTo { o with cl := 0 } wd j0 act l ++ [.t o.tr tw.1 tw.2])
      (firstTrap [
        (fm == 6 || fmtKind fm == .bx || !scaleOk scale, { illegalOp 5 with cause := 0x23 }),
        (decide (5 < m), illegalOp 5), (o.ew != 3, illegalOp 6), (decide (32 / wd ≤ o.part), illegalOp 6)])
    with draw := st }

def execVshrdCensus (h : Hdr) (o : VecOps) (s : State) := runSyllable h 3 (planVshrdCensus o) s

/-! ### Permutes, slides, reductions and scans (R135, R136) -/

/-- VPERM: an index of n or above gives 0. -/
def planVperm (o : VecOps) (s : State) : Plan :=
  let w := o.wd
  let a := (s.rg.rv o.opa).toNat
  let l := (s.vlanes o.opb w).map fun b => if b < 4096 / w then laneN a w b else 0
  regPlan ((.v, o.opb, 2) :: (o.srcA ++ o.srcQ)) [(.v, o.dst, 0)] 3 (plainLanes o w s l) (firstTrap [ewTrap o 0 4])

def execVperm (h : Hdr) (o : VecOps) (s : State) := runSyllable h 3 (planVperm o) s

/-- VSLIDE: lanes k … of a followed by b. DEDUCED, log 108: IMM32 is read unsigned (R135). -/
def planVslide (o : VecOps) (s : State) : Plan :=
  let w := o.wd
  let n := 4096 / w
  let k := if o.i then o.imm.toNat else (s.rg.rs o.opc).toNat
  let l := ((s.vlanes o.opa w ++ s.vlanes o.opb w).drop (min k n)).take n
  regPlan ((.v, o.opb, 2) :: (if o.i then [] else [(.s, o.opc, 3)]) ++ o.srcA ++ o.srcQ) [(.v, o.dst, 0)] 3
    (plainLanes o w s l) (firstTrap [(decide (n < k), illegalOp (if o.i then 6 else 3)), ewTrap o 0 4])

def execVslide (h : Hdr) (o : VecOps) (s : State) := runSyllable h 3 (planVslide o) s

/-- The lanes that take part in a reduction: those active at w, or every lane with W = 1 (R136). -/
def State.taking (s : State) (o : VecOps) : List Int :=
  let w := o.wd
  (List.zip (s.activeLanes o.qm w (4096 / w)) (s.vlanes o.opa w)).filterMap fun e =>
    if e.1 || o.w then some (laneI o.u w e.2) else none

/-- A reduction: its value in every lane of the result's width. -/
def redPlan (f : List Int → Int) (o : VecOps) (s : State) : Plan :=
  let wr := if o.w then 2 * o.wd else o.wd
  let r := limitCl o.u wr o.cl 0 (trecClamp (s.rg.rt o.tr)) (f (s.taking o))
  let n := 4096 / wr
  regPlan (o.srcA ++ o.srcQ ++ o.srcT) ((.v, o.dst, 0) :: o.dstT) 6
    (lanesTo o wr (List.replicate n true) (List.replicate n r))
    (firstTrap [ewTrap o 0 4, clTrap o.cl, (o.w && o.ew == 4, illegalOp 6)])

/-- The smallest and the largest value of a reading at width w. -/
def leastI (u : Bool) (w : Nat) : Int := if u then 0 else -((2 ^ (w - 1) : Nat) : Int)
def greatestI (u : Bool) (w : Nat) : Int := if u then ((2 ^ w : Nat) : Int) - 1 else ((2 ^ (w - 1) : Nat) : Int) - 1

def execVredadd (h : Hdr) (o : VecOps) (s : State) := runSyllable h 6 (redPlan sumI o) s
def execVredmax (h : Hdr) (o : VecOps) (s : State) :=
  runSyllable h 6 (redPlan (fun l => l.foldl max (leastI o.u o.wd)) o) s
def execVredmin (h : Hdr) (o : VecOps) (s : State) :=
  runSyllable h 6 (redPlan (fun l => l.foldl min (greatestI o.u o.wd)) o) s

/-- The running sums of the lanes that take part. -/
def scanI : Int → List (Bool × Int) → List Int
  | _, [] => []
  | acc, (a, x) :: l => (if a then acc + x else acc) :: scanI (if a then acc + x else acc) l

/-- VSCAN. -/
def planVscan (o : VecOps) (s : State) : Plan :=
  let w := o.wd
  let act := s.activeLanes o.qm w (4096 / w)
  let cb := trecClamp (s.rg.rt o.tr)
  let l := (scanI 0 (List.zip act ((s.vlanes o.opa w).map (laneI o.u w)))).map (limitCl o.u w o.cl 0 cb)
  regPlan (o.srcA ++ o.srcQ ++ o.srcT) ((.v, o.dst, 0) :: o.dstT) 6 (lanesTo o w act l)
    (firstTrap [ewTrap o 0 4, clTrap o.cl])

def execVscan (h : Hdr) (o : VecOps) (s : State) := runSyllable h 6 (planVscan o) s

/-! ### Mask instructions (R137) -/

/-- Q[DST] := x, a whole mask. -/
def maskPlan (rd : List RegOp) (o : VecOps) (x : QReg) (bad : Option Trap := none) : Plan :=
  regPlan rd [(.q, o.dst, 0)] 2 [.q o.dst (BitVec.allOnes 1024) x] bad

def maskPlan2 (f : QReg → QReg → QReg) (o : VecOps) (s : State) : Plan :=
  maskPlan [(.q, o.opa, 1), (.q, o.opb, 2)] o (f (s.rg.rq o.opa) (s.rg.rq o.opb))

def execQand (h : Hdr) (o : VecOps) (s : State) := runSyllable h 2 (maskPlan2 (fun a b => a &&& b) o) s
def execQor (h : Hdr) (o : VecOps) (s : State) := runSyllable h 2 (maskPlan2 (fun a b => a ||| b) o) s
def execQxor (h : Hdr) (o : VecOps) (s : State) := runSyllable h 2 (maskPlan2 (fun a b => a ^^^ b) o) s

def planQnot (o : VecOps) (s : State) : Plan := maskPlan [(.q, o.opa, 1)] o (~~~(s.rg.rq o.opa))

def execQnot (h : Hdr) (o : VecOps) (s : State) := runSyllable h 2 (planQnot o) s

/-- QPOPC: lanes whose governing bit is 1. -/
def planQpopc (o : VecOps) (s : State) : Plan :=
  let n := ((s.activeLanes o.opa o.wd (4096 / o.wd)).filter id).length
  regPlan [(.q, o.opa, 1)] [(.s, o.dst, 0)] 2 [.s o.dst (BitVec.ofNat 64 n)] (firstTrap [ewTrap o 0 4])

def execQpopc (h : Hdr) (o : VecOps) (s : State) := runSyllable h 2 (planQpopc o) s

/-- QSET: the first min(value, n) lanes. DEDUCED, log 108: IMM32 is read unsigned (R137). -/
def planQset (o : VecOps) (s : State) : Plan :=
  let w := o.wd
  let k := min (if o.i then o.imm.toNat else (s.rg.rs o.opa).toNat) (4096 / w)
  maskPlan (if o.i then [] else [(.s, o.opa, 1)]) o (BitVec.ofNat 1024 (2 ^ (w / 4 * k) - 1)) (firstTrap [ewTrap o 0 4])

def execQset (h : Hdr) (o : VecOps) (s : State) := runSyllable h 2 (planQset o) s

end Sys2Proof.Machine
end

