-- ==== Sys2Proof/Machine/Access.lean ====
section
/-!
DEFINITION. Scratchpad accesses as plans: the address (R76), bounds and alignment (R31, R33), uncorrectable words (R378),
the units of the idempotence rule (R361), loads and stores of bytes and of lanes (R34, R151, R152).
-/

namespace Sys2Proof.Machine

open Sys2Proof

/-- A[BASE] + sext(DISP) (R76). -/
def State.effAddr (s : State) (base : Nat) (disp : BitVec 48) : Nat := (s.rg.ra base + sext48 disp).toNat

/-- Bytes of scratchpad of the issuing core as they stand. -/
def State.scratch (s : State) (a n : Nat) : List Byte := memRead s.mem (scratchAddr s.cf a) n

/-- The first touch that runs out of scratchpad, then the first that is not aligned (R31, R33). -/
def boundsTrap (ts : List Touch) (align : Nat) : Option Trap :=
  match ts.find? fun t => decide (scratchBytes < t.addr + t.len) with
  | some t => some { cause := 0x10, info := BitVec.ofNat 64 t.addr }
  | none => (ts.find? fun t => t.addr % align != 0).map fun t => { cause := 0x11, info := BitVec.ofNat 64 t.addr }

/-- The 8-byte words of the touches (R378), by physical address. -/
def State.touchWords (s : State) (ts : List Touch) : List Nat :=
  (ts.map fun t => wordsOf (scratchAddr s.cf t.addr) t.len).flatten

/-- A byte of scratchpad lies in one of the touches. -/
def State.covers (s : State) (ts : List Touch) (a : Nat) : Bool :=
  ts.any fun t => decide (scratchAddr s.cf t.addr ≤ a ∧ a < scratchAddr s.cf t.addr + t.len)

/-- The touches of a store cover the whole word. -/
def State.coversWord (s : State) (ts : List Touch) (w : Nat) : Bool :=
  (List.range 8).all fun k => s.covers ts (8 * w + k)

/-- A touched word that holds an uncorrectable error: for a store, one that it covers only in part. A sector still to be
filled is not read. -/
def State.badTrap (s : State) (ts : List Touch) : Option Trap :=
  if s.noBad ∨ s.bk.touchWaits ts ≠ [] then none
  else ((s.touchWords ts).find? fun w =>
      s.isBad w && !((ts.any fun t => t.write) && s.coversWord ts w)).map
    fun w => { cause := 0x15, info := BitVec.ofNat 64 (8 * w) }

/-- The trap of an access, lowest cause first. -/
def State.accessTrap (s : State) (ts : List Touch) (align : Nat) : Option Trap :=
  match boundsTrap ts align with
  | some t => some t
  | none => s.badTrap ts

/-- The 64-byte units of the touches (R361). -/
def unitLocs (ts : List Touch) : List Loc :=
  ((ts.map fun t => (List.range ((t.addr + t.len + 63) / 64 - t.addr / 64)).map fun k => t.addr / 64 + k).flatten).dedup.map
    .unit

/-- A plan with its accesses: their traps, their touches, their units. -/
def Plan.access (p : Plan) (ts : List Touch) (align : Nat) (s : State) : Plan :=
  let tr := regPlan.lowestOp (match p.out with
    | .trap t => some t
    | _ => none) (s.accessTrap ts align)
  { p with
    touches := p.touches ++ ts
    locR := p.locR ++ unitLocs (ts.filter fun t => !t.write)
    locW := p.locW ++ unitLocs (ts.filter fun t => t.write)
    out := match tr with
      | some t => .trap t
      | none => p.out }

/-- The write of a store's bytes at a scratchpad address. -/
def State.storeAt (s : State) (a : Nat) (l : List Byte) : Write := .mem (scratchAddr s.cf a) l

/-- Words whose error the writes of a store clear together. -/
def State.cleaned (s : State) (ts : List Touch) : List Write :=
  if s.bad = [] then []
  else
    match (s.touchWords ts).filter fun w => Tab.get false s.bad w && s.coversWord ts w with
    | [] => []
    | l => [.clean l]

/-- The L slot is free (R151). -/
def State.lReady (s : State) (p : Plan) : Plan :=
  if s.bk.pipe.lFree ≤ s.bk.pipe.clk then p else { p with out := .stall }

/-- The L slot is held for `k` schedule cycles. -/
def State.holdL (s : State) (k : Nat) : State := s.modBk fun y => y.modPipe fun q => { q with lFree := q.clk + k }

end Sys2Proof.Machine
end

