-- ==== Sys2Proof/Machine/Special.lean ====
section
/-!
DEFINITION. Special functions of slot X (R138 to R146): base-2 exponential, reciprocals, logarithm, sigmoid and tangent,
the user table, the optimiser steps.
-/

namespace Sys2Proof.Machine

open Sys2Proof

/-! ### Integer procedures -/

/-- exp2core(t) for t ≤ 0 in Q15.16: n and p (R139). -/
def exp2core (t : Int) : Int × Nat :=
  let n := t / 65536
  let f := (t % 65536).toNat
  let i := f / 256
  (n, tableAt exp2Table i * 256 + (tableAt exp2Table (i + 1) - tableAt exp2Table i) * (f % 256))

/-- p shifted right by an amount that may pass 63, to nearest even. -/
def shiftOut (p : Nat) (s : Int) : Int := if s ≤ 63 then rnd (p : Int) s.toNat 0 0 else 0

/-- XEXP2 of a lane, and whether the argument was limited. -/
def exp2Lane (x m : Int) (k : Nat) : Int × Bool :=
  let t := (x - m) * (k : Int) * 256
  let c := exp2core (if 0 < t then 0 else t)
  (shiftOut c.2 (23 - c.1), decide (0 < t))

/-- The normalised argument of R140: its exponent and A. -/
def normArg (x : Nat) : Nat × Nat := (bitLen x - 1, x * 2 ^ (32 - bitLen x))

/-- The packed result of R140. -/
def packRec (m : Nat) (ex : Int) : Int × Nat := if m = 2 ^ 16 then (ex + 1, 2 ^ 15) else (ex, m)

/-- XRCP of x > 0: exponent and mantissa. -/
def rcpCore (x : Nat) : Int × Nat :=
  let ea := normArg x
  packRec ((2 ^ 48 / ea.2 + 1) / 2) (-(ea.1 : Int) - 1)

/-- XRSQ of x > 0. -/
def rsqCore (x : Nat) : Int × Nat :=
  let ea := normArg x
  let b := if ea.1 % 2 = 0 then ea.2 else 2 * ea.2
  let e2 := ea.1 - ea.1 % 2
  packRec ((isqrt (2 ^ 65 / b) + 1) / 2) (-((e2 / 2 : Nat) : Int) - 1)

/-- A lane of XRCP or XRSQ; 0 gives the largest value and the flag. -/
def recLane (f : Nat → Int × Nat) (x : Nat) : Nat × Bool :=
  if x = 0 then (0x7FFFFFFF, true)
  else
    let r := f x
    (wrapN 16 r.1 * 2 ^ 16 + r.2, false)

/-- XLOG2 of a lane (R141). -/
def log2Lane (x : Nat) : Nat × Bool :=
  if x = 0 then (2 ^ 31, true)
  else
    let ea := normArg x
    let i := bitsN ea.2 23 8
    let p := tableAt log2Table i * 256 + (tableAt log2Table (i + 1) - tableAt log2Table i) * bitsN ea.2 15 8
    (wrapN 32 ((ea.1 : Int) * 65536 + rnd (p : Int) 16 0 0), false)

/-- RNE(log2(e) * 2^16) (R142). -/
def log2e : Int := 94548

/-- E of R142 for the factor 1 of XSIGM or 2 of XTANH. -/
def expTerm (f : Int) (z : Int) : Nat :=
  let c := exp2core (rnd (-f * (z.natAbs : Int) * log2e) 8 0 0)
  (shiftOut c.2 (8 - c.1)).toNat

def sigmLane (x : Int) (k : Nat) : Int :=
  let z := x * (k : Int)
  let q := rndDiv (2 ^ 45) (2 ^ 30 + expTerm 1 z)
  if 0 ≤ z then (q : Int) else 32768 - (q : Int)

def tanhLane (x : Int) (k : Nat) : Int :=
  let z := x * (k : Int)
  let e := expTerm 2 z
  let q := min (rndDiv ((2 ^ 30 - e) * 2 ^ 15) (2 ^ 30 + e)) 32767
  if 0 ≤ z then (q : Int) else -(q : Int)

/-! ### Issue in slot X (R39, R138) -/

/-- The X slot accepts a syllable of the bank at most every 4 schedule cycles. -/
def xPlan (p : Plan) (s : State) : Plan :=
  if s.bk.pipe.xFree ≤ s.bk.pipe.clk then
    { p with eff := fun id u => (p.eff id u).modBk fun y => y.modPipe fun q => { q with xFree := q.clk + 4 } }
  else { p with out := .stall }

/-- The lanes of a special function: each result with the flag of its limiting, written after 12 cycles. -/
def specialPlan (o : VecOps) (ew : Nat) (rd : List RegOp) (l : List (Nat × Bool)) (s : State) : Plan :=
  let w := if ew = 2 then 16 else 32
  let act := s.activeLanes o.qm w (4096 / w)
  xPlan (regPlan (o.srcA ++ rd ++ o.srcQ) [(.v, o.dst, 0)] 12 (lanesTo { o with cl := 0 } w act l)
    (firstTrap [ewTrap o ew ew])) s

/-- The scale lanes k: OPC, or IMM32[15:0] (R138). -/
def State.lanesScale (s : State) (o : VecOps) : List Nat :=
  if o.i then List.replicate 256 (o.imm.toNat % 65536) else s.vlanes o.opc 16
def scaleSrc (o : VecOps) : List RegOp := if o.i then [] else [(.v, o.opc, 3)]

def planXexp2 (o : VecOps) (s : State) : Plan :=
  specialPlan o 2 ((.v, o.opb, 2) :: scaleSrc o)
    ((List.zip (s.vlanes o.opa 16) (List.zip (s.vlanes o.opb 16) (s.lanesScale o))).map fun x =>
      let r := exp2Lane (sextN 16 x.1) (sextN 16 x.2.1) x.2.2
      (wrapN 16 r.1, r.2)) s

def execXexp2 (h : Hdr) (o : VecOps) (s : State) := runSyllable h 12 (planXexp2 o) s

def planXrcp (o : VecOps) (s : State) : Plan := specialPlan o 3 [] ((s.vlanes o.opa 32).map (recLane rcpCore)) s
def execXrcp (h : Hdr) (o : VecOps) (s : State) := runSyllable h 12 (planXrcp o) s

def planXrsq (o : VecOps) (s : State) : Plan := specialPlan o 3 [] ((s.vlanes o.opa 32).map (recLane rsqCore)) s
def execXrsq (h : Hdr) (o : VecOps) (s : State) := runSyllable h 12 (planXrsq o) s

def planXlog2 (o : VecOps) (s : State) : Plan := specialPlan o 3 [] ((s.vlanes o.opa 32).map log2Lane) s
def execXlog2 (h : Hdr) (o : VecOps) (s : State) := runSyllable h 12 (planXlog2 o) s

/-- XSIGM and XTANH. -/
def actPlan (f : Int → Nat → Int) (o : VecOps) (s : State) : Plan :=
  specialPlan o 2 (scaleSrc o)
    ((List.zip (s.vlanes o.opa 16) (s.lanesScale o)).map fun x => (wrapN 16 (f (sextN 16 x.1) x.2), false)) s

def execXsigm (h : Hdr) (o : VecOps) (s : State) := runSyllable h 12 (actPlan sigmLane o) s
def execXtanh (h : Hdr) (o : VecOps) (s : State) := runSyllable h 12 (actPlan tanhLane o) s

/-! ### The user table (R144, R145) -/

/-- The active copy. -/
def UserTab.active (t : UserTab) : Tab (BitVec 16) := if t.gen then t.copy1 else t.copy0

/-- The inactive copy replaced. -/
def UserTab.load (t : UserTab) (x : Tab (BitVec 16)) : UserTab := if t.gen then { t with copy0 := x } else { t with copy1 := x }

/-- XLUT of a lane; U[256] is U[255]. -/
def lutLane (u : Tab (BitVec 16)) (x : Nat) : Nat :=
  let v := (sextN 16 x + 32768).toNat
  let at_ (i : Nat) : Int := (Tab.get 0 u (min i 255)).toInt
  let i := v / 256
  wrapN 16 (rnd (at_ i * 256 + (at_ (i + 1) - at_ i) * ((x % 256 : Nat) : Int)) 8 0 0)

/-- XLUT: variable latency, 12 to 20 core cycles, with the generation active at its issue. -/
def planXlut (o : VecOps) (s : State) : Plan :=
  let act := s.activeLanes o.qm 16 256
  let l := (s.vlanes o.opa 16).map fun x => (lutLane s.bk.user.active x, false)
  let p := regPlan (o.srcA ++ o.srcQ) [(.v, o.dst, 0)] 1 [] (firstTrap [ewTrap o 2 2])
  xPlan { p with
    results := []
    var := some { kind := .xlut, earliest := 12, latest := some 20, reg := some ⟨.v, o.dst⟩,
                  writes := some (lanesTo { o with cl := 0 } 16 act l) } } s

def execXlut (h : Hdr) (o : VecOps) (s : State) := runSyllable h 0 (planXlut o) s

/-- XLUTLD: 512 bytes of scratchpad into the inactive copy; it stalls while an earlier load has not activated. -/
def planXlutld (base : Nat) (disp : BitVec 48) (s : State) : Plan :=
  let a := s.effAddr base disp
  let tab := entriesFrom (fun _ => (0 : BitVec 16)) 0
    ((lanesN (ofLeBytes (s.scratch a 512)) 16 256).map fun x => BitVec.ofNat 16 x)
  if s.bk.pipe.vars.any fun v => v.kind == .xlutld then { out := .stall }
  else
    xPlan (Plan.access {
      reads := [⟨.a, base⟩]
      var := some { kind := .xlutld, earliest := 1, latest := some 16, writes := some [.activate] }
      eff := fun _ u => u.modBk fun y => { y with user := y.user.load tab } }
      [{ addr := a, len := 512, write := false }] 2 s) s

def execXlutld (h : Hdr) (base : Nat) (disp : BitVec 48) (s : State) := runSyllable h 0 (planXlutld base disp) s

/-! ### Optimiser steps (R146) -/

/-- A pair of registers written lane by lane: weights and their limit flags, states and theirs. -/
def optPlan (o : VecOps) (m : Nat) (st : Bool) (bad : List (Bool × Trap)) (l : List ((Nat × Bool) × (Nat × Bool)))
    (act : List Bool) (s : State) : Plan :=
  let w := laneWrite o.zi 16 act (l.map (·.1.1))
  let v := laneWrite o.zi 16 act (l.map (·.2.1))
  let lw := anyLimited act (l.map (·.1))
  let ws := satWrites lw o
  let cs : List Write := if anyLimited act (l.map (·.2)) && !lw then [.csat] else []
  xPlan { regPlan ([(.v, o.opa, 1), (.v, o.opb, 2), (.v, o.opc, 3)] ++ o.srcQ ++ o.srcT)
      ([(.v, o.dst, 0), (.v, o.dst + 1, 0)] ++ o.dstT) 12
      ([.v o.dst w.1 w.2, .v (o.dst + 1) v.1 v.2] ++ ws ++ cs)
      (firstTrap ((o.dst % 2 == 1, illegalOp 0) :: modeTrap o.rr m :: ewTrap o 2 2 :: clTrap o.cl :: bad))
    with draw := st } s

/-- The common part: lanes of g, w and the state, with a random word. -/
def optLanes (o : VecOps) (m : Nat) (st : Bool) (s : State)
    (f : Nat → Nat → Nat → Nat → (Nat × Bool) × (Nat × Bool)) : List ((Nat × Bool) × (Nat × Bool)) :=
  mapFrom (fun i (x : Nat × Nat × Nat) => f x.1 x.2.1 x.2.2 (if st && m == 4 then s.rword o.rr (s.rg.rt o.tr) i else 0)) 0
    (List.zip (s.vlanes o.opa 16) (List.zip (s.vlanes o.opb 16) (s.vlanes o.opc 16)))

/-- XOPTM: momentum. -/
def planXoptm (o : VecOps) (s : State) : Plan :=
  let m := s.rmode o
  let act := s.activeLanes o.qm 16 256
  let st := m == 4 && decide (0 < o.sh) && act.any id
  let cb := trecClamp (s.rg.rt o.tr)
  let beta := o.imm.toNat % 65536
  optPlan o m st [] (optLanes o m st s fun g w v r =>
    let v1 := satW false 16 (rnd ((beta : Int) * sextN 16 v) 16 0 0 + sextN 16 g)
    (limitCl false 16 o.cl 1 cb (sextN 16 w - rnd v1.1 o.sh m r), (wrapN 16 v1.1, v1.2))) act s

def execXoptm (h : Hdr) (o : VecOps) (s : State) := runSyllable h 12 (planXoptm o) s

/-- XOPTA: the adaptive step; SH above 40 is illegal. DEDUCED, log 110: with no lane active too (R146). -/
def planXopta (o : VecOps) (s : State) : Plan :=
  let m := s.rmode o
  let act := s.activeLanes o.qm 16 256
  let st := m == 4 && act.any id
  let cb := trecClamp (s.rg.rt o.tr)
  let beta := o.imm.toNat % 65536
  let gs := bitsN o.imm.toNat 16 5
  optPlan o m st [(decide (40 < o.sh), illegalOp 6)] (optLanes o m st s fun g w v r =>
    let gi := sextN 16 g
    let s1 := satW true 16 (rnd ((beta : Int) * (v : Int)) 16 0 0 + rnd (gi * gi) gs 0 0)
    let q := rsqCore (s1.1.toNat + 1)
    (limitCl false 16 o.cl 1 cb (sextN 16 w - rnd (gi * (q.2 : Int)) (15 + (o.sh : Int) - q.1).toNat m r),
     (wrapN 16 s1.1, s1.2))) act s

def execXopta (h : Hdr) (o : VecOps) (s : State) := runSyllable h 12 (planXopta o) s

end Sys2Proof.Machine
end

