-- ==== Sys2Proof/Machine/Tiles.lean ====
section
/-!
DEFINITION. Matrix state: the slab pool and its allocation (R159 to R165), tile images (R161, R162), accumulator tiles and
their partition (R166), densifying (R168), products through a weight plane (R178, R179), recompression (R188).
-/

namespace Sys2Proof.Machine

open Sys2Proof

/-! ### Tile images (R160, R161) -/

/-- The width at which an element is held: INT2 is held in 4 bits. -/
def storedBits (fmt : Nat) : Nat := if fmt = 6 then 4 else fmtBits fmt

/-- The slabs of a dense tile. -/
def denseSlabs (fmt : Nat) : Nat := 4 * storedBits fmt

/-- The element code (i, j) of an image at `b` bits: column j is line j. -/
def imgCode (img : Nat → VReg) (b i j : Nat) : Nat :=
  let o := 128 * j + i
  laneN (img (o * b / 4096)).toNat b (o % (4096 / b))

/-- The 128 codes of column j. -/
def imgCol (img : Nat → VReg) (b j : Nat) : List Nat :=
  let k := 4096 / (128 * b)
  let v := (img (j / k)).toNat / 2 ^ (128 * b * (j % k))
  lanesN v b 128

/-- The positions of an image whose columns are given as codes. -/
def imgOf (b : Nat) (cols : List (List Nat)) : List VReg :=
  (chunksOf (4096 / (128 * b)) 128 cols).map fun c => BitVec.ofNat 4096 (packN b c.flatten)

/-- The contents of a position of a name. -/
def Core.pos (x : Core) (d : MDesc) (p : Nat) : VReg := Tab.get 0 x.slabs (d.slabs.getD p 0)

/-- The components of a low-rank name: columns of G and of H (R161). -/
def Core.factors (x : Core) (d : MDesc) : List (List Int × List Int) :=
  if d.kind = 2 then
    (List.range d.rank).map fun p =>
      let l := (lanesN (x.pos d p).toNat 16 256).map (sextN 16)
      (l.take 128, l.drop 128)
  else []

/-- A component's position. -/
def packComp (c : List Int × List Int) : VReg := BitVec.ofNat 4096 (packN 16 ((c.1 ++ c.2).map (wrapN 16)))

/-- The minimum cls at 16 bits of the entries of some columns; 15 of none (R159). -/
def minCls (l : List (List Int)) : Nat := minOf 15 ((l.flatten).map fun v => clsN 16 (wrapN 16 v))

/-- The descriptor of a low-rank result; rank 0 is empty (R184, R188). -/
def lowDesc (fs : List (List Int × List Int)) (eg eh : Int) (slabs : List Nat) : MDesc :=
  if fs = [] then {}
  else { kind := 2, fmt := 4, eg := eg, eh := eh, rank := fs.length, cg := minCls (fs.map (·.1)),
         ch := minCls (fs.map (·.2)), slabs := slabs }

/-! ### Densifying (R168) -/

/-- ceil(log2 r). -/
def ceilLog2 (r : Nat) : Nat := if r ≤ 1 then 0 else Nat.log2 (r - 1) + 1

/-- Column j of Σ_c G[i][c] H[j][c]. -/
def sumCol (fs : List (List Int × List Int)) (j : Nat) : List Int :=
  fs.foldl (fun acc f => let h := f.2.getD j 0; List.zipWith (fun a g => a + g * h) acc f.1) (List.replicate 128 0)

/-- The dense INT16 columns, the scale exponent, and whether a value was limited. -/
def densify (fs : List (List Int × List Int)) (eg eh : Int) : List (List Nat) × Int × Bool :=
  let cg := minCls (fs.map (·.1))
  let ch := minCls (fs.map (·.2))
  let s := 15 + ceilLog2 fs.length - cg - ch
  let s := if fs = [] then 0 else s
  let cols := (List.range 128).map fun j => (sumCol fs j).map fun v => satW false 16 (rnd v s 0 0)
  (cols.map fun c => c.map fun v => wrapN 16 v.1, eg + eh + (s : Int), cols.any fun c => c.any (·.2))

/-! ### The pool (R163 to R165) -/

/-- The numbers of the slabs that are free, in ascending order. -/
def Core.freeList (x : Core) : List Nat :=
  ((lookRange (fun _ => 0) x.slabUse 0 slabCount).zipIdx.filter fun e => e.1 == 0).map (·.2)

/-- The `n` lowest free slabs. -/
def Core.lowest (x : Core) (n : Nat) : Option (List Nat) :=
  if n = 0 then some []
  else
    let l := x.freeList.take n
    if l.length = n then some l else none

/-- Slabs are taken at issue (R163). -/
def State.takeSlabs (s : State) (c : Nat) (l : List Nat) : State :=
  if l = [] then s
  else (s.spillSlabs c l).modCore c fun x => { x with slabUse := l.foldl (fun t k => Tab.set 0 t k 2) x.slabUse }

/-- Slab exhaustion: the number needed. -/
def slabTrap (n : Nat) : Trap := { cause := 0x21, info := BitVec.ofNat 64 n }

/-- The locations of slabs. -/
def slabLocs (l : List Nat) : List Loc := l.map .slab

/-! ### Accumulator tiles (R166) -/

/-- A row of any bank's parked registers. -/
def Core.rowParked (x : Core) (r : Nat) : Bool :=
  (x.bank0.parked.any fun e => e.2 == .row r) || (x.bank1.parked.any fun e => e.2 == .row r)

/-- The tile holds a parked row. -/
def Core.tileParked (x : Core) (c : Nat) : Bool :=
  let f (b : Bank) : Bool := b.parked.any fun e => match e.2 with
    | .row r => r / 128 == c
    | _ => false
  f x.bank0 || f x.bank1

/-- The tile lies in the issuing bank's partition. -/
def State.inPart (s : State) (c : Nat) : Bool :=
  let p := accPartOf (s.core s.cf).cregs.accPart s.bf
  decide (p.1 ≤ c ∧ c < p.1 + p.2 ∧ c < 32)

/-- A tile that may not be named, by its field. -/
def State.tileTrap (s : State) (c field : Nat) : Bool × Trap :=
  (!s.inPart c || (s.core s.cf).tileParked c, { illegalOp field with fam := 6, reg := c })

/-- A row of a tile as 128 codes of 32 bits. -/
def Core.accRow (x : Core) (c i : Nat) : List Nat := lanesN (Tab.get 0 x.acc (c * 128 + i)).toNat 32 128

/-- Row, column or diagonal of a tile (R174). -/
def Core.accLine (x : Core) (c dir idx : Nat) : List Nat :=
  match dir with
  | 1 => x.accRow c idx
  | 2 => (List.range 128).map fun i => laneN (Tab.get 0 x.acc (c * 128 + i)).toNat 32 idx
  | _ => (List.range 128).map fun i => laneN (Tab.get 0 x.acc (c * 128 + i)).toNat 32 i

/-- The rows of a tile that a row, column or diagonal lies in. -/
def lineRows (c dir idx : Nat) : List Nat :=
  if dir = 1 then [c * 128 + idx] else (List.range 128).map fun i => c * 128 + i

/-- The (row, column) pairs of a row, column or diagonal. -/
def lineCells (dir idx : Nat) : List (Nat × Nat) :=
  (List.range 128).map fun k => if dir = 1 then (idx, k) else if dir = 2 then (k, idx) else (k, k)

/-- A write of a tile clears its free marks at issue (R166). -/
def State.claimTile (s : State) (c : Nat) : State :=
  s.modCore s.cf fun x => { x with accFree := x.accFree.filter fun e => !(e.1 / 128 == c) }

/-! ### Products (R178, R179) -/

/-- A partial product scaled by its group shift. -/
def shiftProd (p g : Int) : Int := if 0 ≤ g then p * ((2 ^ g.toNat : Nat) : Int) else rnd p (-g).toNat 0 0

/-- The sum over the groups of 32 of a row and a column. -/
def groupTerm : List (List Int) → List Int → List (List Int) → List Int → Int
  | a :: as, ga :: gas, w :: ws, gw :: gws => shiftProd (dotI a w) (ga + gw) + groupTerm as gas ws gws
  | _, _, _, _ => 0

/-- The decoded columns of a plane in groups of 32, with their shifts. -/
def Plane.cols (p : Plane) : List (List (List Int) × List Int) :=
  (List.range 128).map fun j =>
    (chunksOf 32 4 ((imgCol (Tab.get 0 p.img) (storedBits p.fmt) j).map (decodeElem p.fmt p.zp)),
     (List.range 4).map fun q => if fmtKind p.fmt = .bx then Tab.get 0 p.shifts (4 * j + q) else 0)

/-- The terms that one row of 128 values adds to an accumulator row. -/
def rowTerms (cols : List (List (List Int) × List Int)) (a : List Int) (ga : List Int) : List Int :=
  let g := chunksOf 32 4 a
  cols.map fun w => groupTerm g ga w.1 w.2

/-- Cycles for which the array is busy with `n` rows of the wider of two formats. -/
def arrayCycles (n bA bW : Nat) : Nat :=
  if max bA bW = 16 then 4 * n else if max bA bW = 8 then n else (n + 1) / 2

/-- The bytes of a packed line of 128 elements. -/
def lineBytes (fmt : Nat) : Nat := 16 * fmtBits fmt

/-- The signed group shift in a side byte (R55, R172). -/
def sideShift (b : Byte) : Int := sextN 5 b.toNat

/-! ### The ramp limiter (R225) -/

/-- RAMP.STEP as it bounds a core's present window: a write takes effect at the window after the one it was made in. -/
def State.rampStepAt (s : State) (c : Nat) : Word :=
  match s.mod.rampNext with
  | some (v, w) => if w < (s.core c).rampWin then v else s.mod.rampStep
  | none => s.mod.rampStep

/-- The allowance of a core in this window; `none` when there is no bound. -/
def State.rampAllow (s : State) (c : Nat) : Option Nat :=
  let step := bitsN (s.rampStepAt c).toNat 0 16
  if step = 0xFFFF then none else some (min 2100 ((s.core c).rampPrev + step))

def State.rampSpent (s : State) : Bool :=
  match s.rampAllow s.cf with
  | some n => decide (n ≤ (s.core s.cf).rampCount)
  | none => false

/-- A hold for the ramp allowance ends with its window. -/
def Bank.endRamp (y : Bank) : Bank := if y.state = .blocked .ramp then { y with state := .ready } else y

/-- The core enters the window that its cycle lies in: what it counted becomes the count of the window before, if the two
follow each other. -/
def Core.rollRamp (x : Core) : Core :=
  let w := x.cycle / 2100
  if w ≤ x.rampWin then x
  else { x with
    bank0 := x.bank0.endRamp, bank1 := x.bank1.endRamp
    rampPrev := if w = x.rampWin + 1 then x.rampCount else 0, rampCount := 0, rampWin := w }

/-- A counted instruction: it holds when the allowance is spent; the cycles held are counted as they pass. -/
def rampPlan (p : Plan) (s : State) : Plan :=
  if p.out = .go ∧ s.rampSpent then { p with out := .hold .ramp }
  else { p with eff := fun id u => (p.eff id u).modBk fun y => y.modCtx fun k => { k with counted := k.counted + 1 } }

/-- An array instruction: it stalls while the array is busy, and keeps it busy for `n` cycles (R179). -/
def arrayPlan (n : Nat) (p : Plan) (s : State) : Plan :=
  if (s.core s.cf).arrayBusy ≠ 0 then { p with out := .stall }
  else { p with eff := fun id u => ((p.eff id u).spillPlanes u.cf u.bf).modCore u.cf fun x =>
      { x with arrayBusy := n, arrayBank := u.bf } }

/-! ### Recompression (R188) -/

/-- isqrtn(v): the nearest integer to √v. -/
def isqrtn (v : Nat) : Nat :=
  let m := isqrt v
  if m * m + m < v then m + 1 else m

/-- sdiv(a, n). -/
def sdiv (a : Int) (n : Nat) : Int := if a < 0 then -(rndDiv a.natAbs n : Int) else (rndDiv a.natAbs n : Int)

/-- A column of a Gram-Schmidt pass: its residual, what is permuted with it, its column of U so far. -/
structure GsCol (α : Type) where
  x : List Int
  tag : α
  u : List Int

def norm2 (x : List Int) : Nat := (dotI x x).toNat

/-- The index of the largest norm, lowest on ties. -/
def argMax : List Nat → Nat
  | [] => 0
  | v :: l =>
    let i := argMax l
    if v < l.getD i 0 then i + 1 else 0

/-- A column-pivoted modified Gram-Schmidt pass that stops when the remaining squared norms sum to at most `tol`: the
directions in Q2.30 with their columns, then the columns left. -/
def gsPass {α : Type} (tol : Nat) : Nat → List (GsCol α) → List (List Int × GsCol α) × List (GsCol α)
  | 0, l => ([], l)
  | n + 1, l =>
    let norms := l.map fun c => norm2 c.x
    if norms.foldl (· + ·) 0 ≤ tol then ([], l)
    else
      let p := argMax norms
      match l, l[p]? with
      | first :: _, some piv =>
        let rest := if p = 0 then l.drop 1 else (l.set p first).drop 1
        let nn := isqrtn (norm2 piv.x)
        let dir := piv.x.map fun v => sdiv (v * 2 ^ 30) nn
        let rest' := rest.map fun c =>
          let u := rnd (dotI dir c.x) 30 0 0
          { c with x := List.zipWith (fun a b => a - rnd (b * u) 30 0 0) c.x dir, u := c.u ++ [u] }
        let r := gsPass tol n rest'
        ((dir, { piv with u := piv.u ++ [(nn : Int)] }) :: r.1, r.2)
      | _, _ => ([], l)

/-- The largest magnitude of a family of columns. -/
def maxAbs (l : List (List Int)) : Nat := (l.flatten.map Int.natAbs).foldl max 0

/-- Σ over the columns from the c-th on of their tag's column times U[c][d]. -/
def mixCols (c : Nat) (cols : List (GsCol (List Int))) : List Int :=
  (cols.drop c).foldl (fun acc d => List.zipWith (fun a v => a + v * d.u.getD c 0) acc d.tag) (List.replicate 128 0)

/-- The new factors of a tile, their exponents, and whether G' was limited. -/
def recompress (fs : List (List Int × List Int)) (eg eh : Int) (tolReg : Nat) :
    List (List Int × List Int) × Int × Int × Bool :=
  let r1 := gsPass 0 fs.length (fs.map fun f => ({ x := f.1, tag := f.2, u := [] } : GsCol (List Int)))
  let all1 := r1.1.map (·.2) ++ r1.2
  let k1 := r1.1.length
  let y0 := (List.range k1).map fun c => mixCols c all1
  let sh1 := bitLen (maxAbs y0) - 24
  let y := y0.map fun c => c.map fun v => rnd v sh1 0 0
  let e1 := eg + eh + (sh1 : Int)
  let r2 := gsPass (tolReg / 2 ^ (2 * sh1)) k1
    (List.zipWith (fun z (n : List Int × GsCol (List Int)) => ({ x := z, tag := n.1, u := [] } : GsCol (List Int))) y r1.1)
  let all2 := r2.1.map (·.2) ++ r2.2
  let f := (List.range r2.1.length).map fun c => mixCols c all2
  let sg := bitLen (maxAbs f) - 15
  let g := f.map fun c => c.map fun v => satW false 16 (rnd v sg 0 0)
  let h := r2.1.map fun n => n.1.map fun v => rnd v 16 0 0
  (List.zip (g.map fun c => c.map (·.1)) h, e1 - 30 + (sg : Int), -14, g.any fun c => c.any (·.2))

end Sys2Proof.Machine
end

