-- ==== Sys2Proof/Machine/Matrix.lean ====
section
/-!
DEFINITION. Matrix instructions and engine pushes (R169 to R194).
-/

namespace Sys2Proof.Machine

open Sys2Proof

/-! ### Shared forms -/

/-- A[BASE] + DISP, DISP unsigned (R76, R171). -/
def State.matAddr (s : State) (base disp : Nat) : Nat := (s.rg.ra base + BitVec.ofNat 64 disp).toNat

/-- A tensor-record trap that names an operand (R50, R59). -/
def recTrap (field : Nat) : Trap := { illegalOp field with cause := 0x23 }

/-- Low-rank operand misuse. -/
def lowTrap (field : Nat) : Trap := { illegalOp field with cause := 0x22 }

/-- CNT is 1 to 128 (R75). -/
def cntTrap (cnt : Nat) : Bool × Trap := (decide (cnt = 0 ∨ 128 < cnt), illegalOp 6)

/-- DIR is 1 to 3 where one is required (R171). -/
def dirTrap (dir : Nat) : Bool × Trap := (decide (dir = 0 ∨ 3 < dir), illegalOp 6)

/-- Names of an operand list outside their families beside the checks that a plan makes by hand. -/
def Plan.mtrap (p : Plan) (l : List (Bool × Trap)) : Plan :=
  match regPlan.lowestOp (match p.out with
    | .trap t => some t
    | _ => none) (firstTrap l) with
  | some t => { p with out := .trap t }
  | none => p

/-- Contents written to slabs. -/
def slabWrites (l : List Nat) (v : List VReg) : List Write := List.zipWith .slab l v

/-- A result that takes `need` slabs at issue (R163); what it writes, given them. A pool with too few counts among the causes of
the syllable, of which the lowest is reported (R7). -/
def mPlan (p : Plan) (lat need : Nat) (mk : List Nat → List Write) (s : State) : Plan :=
  match (s.core s.cf).lowest need with
  | none => p.mtrap [(true, slabTrap need)]
  | some l =>
    if p.out ≠ .go then p
    else
      { p with
        results := [(lat, (if l = [] then [] else [.slabsHeld l]) ++ mk l)]
        locW := p.locW ++ slabLocs l, eff := fun id u => (p.eff id u).takeSlabs u.cf l }

/-- The flag of a limited value (R13). -/
def satIf (b : Bool) : List Write := if b then [.csat] else []

/-- A dense INT16 result formed from components (R168); `f` changes its columns. -/
def densePlan (p : Plan) (lat d : Nat) (fs : List (List Int × List Int)) (eg eh : Int)
    (f : List (List Nat) → List (List Nat)) (s : State) : Plan :=
  let r := densify fs eg eh
  mPlan (p.mtrap [(!scaleOk r.2.1, recTrap 0)]) lat 64 (fun l =>
    slabWrites l (imgOf 16 (f r.1)) ++ .m d { kind := 1, fmt := 4, scale := r.2.1, slabs := l } :: satIf r.2.2) s

/-- The slabs of a name as locations. -/
def MDesc.locs (d : MDesc) : List Loc := slabLocs d.slabs

/-- Memory codes of a packed line of a format (R51). -/
def lineCodes (fmt : Nat) (l : List Byte) : List Nat := lanesN (ofLeBytes l) (fmtBits fmt) 128

/-- A packed line of codes. -/
def lineOf (fmt : Nat) (codes : List Nat) : List Byte := leBytes (lineBytes fmt) (packN (fmtBits fmt) codes)

/-- The touches of `n` lines of `len` bytes at a pitch. -/
def lineTouches (a pitch len n : Nat) (wr : Bool) : List Touch :=
  if pitch = len then [{ addr := a, len := n * len, write := wr }]
  else (List.range n).map fun j => { addr := (a + j * pitch) % 2 ^ 64, len := len, write := wr }

/-- Side bytes at the record's SIDE (R55). -/
def sideTouch (t : TRec) (n : Nat) (wr : Bool) : List Touch :=
  if fmtKind (trecFmt t) = .bx then [{ addr := trecSide t, len := n, write := wr }] else []

/-- The signed shifts of side bytes. -/
def State.sideShifts (s : State) (t : TRec) (n : Nat) : List Int :=
  if fmtKind (trecFmt t) = .bx then (s.scratch (trecSide t) n).map sideShift else List.replicate n 0

/-- The zero point a name takes from a record. -/
def zpOf (t : TRec) : Nat := if fmtKind (trecFmt t) = .az then trecZp t else 0

/-- Every element of a row. -/
def fullRow : VReg := BitVec.allOnes 4096

/-! ### MLDW and MSWAP (R176, R177) -/

/-- The plane a name gives, and whether a value was limited. -/
def Core.planeOf (x : Core) (d : MDesc) : Plane × Bool :=
  if d.kind = 2 then
    let r := densify (x.factors d) d.eg d.eh
    ({ fmt := 4, scale := r.2.1, img := entriesFrom (fun _ => 0) 0 (imgOf 16 r.1) }, r.2.2)
  else
    ({ fmt := d.fmt, scale := d.scale, zp := d.zp, shifts := d.shifts
       img := entriesFrom (fun _ => 0) 0 ((List.range d.slabs.length).map (x.pos d)) }, false)

/-- A write of the shadow plane. -/
def Write.isPlane : Write → Bool
  | .plane _ => true
  | _ => false

/-- A plane load of the bank that has not reached its write cycle, a follow-on's among them (R176, R302). DESIGN CHOICE, log 131: a
load that stands in the delivery latches is none of them, so that an MLDW of the handler issues at once. -/
def Bank.loading (b : Bank) : Bool :=
  (b.pipe.pend.any fun p => p.writes.any Write.isPlane) || b.pipe.vars.any fun v => (v.writes.getD []).any Write.isPlane

def planMldw (a : Nat) (s : State) : Plan :=
  let x := s.core s.cf
  let d := s.rg.rm a
  let r := x.planeOf d
  let p := (regPlan [(.m, a, 1)] [] 128 (.plane r.1 :: satIf r.2)).mtrap
    [(d.kind == 2 && !scaleOk r.1.scale, recTrap 1), (d.kind == 0, illegalOp 1)]
  let p := { p with locR := d.locs, locW := [.plane (if x.active then 0 else 1)],
                    eff := fun _ u => u.spillPlanes u.cf u.bf }
  rampPlan (if s.bk.loading then { p with out := .stall } else p) s

def execMldw (h : Hdr) (a : Nat) (s : State) := runSyllable h 128 (planMldw a) s

/-- A plane load still pending from an earlier bundle, for the stale-read check (R177). -/
def Bank.planePending (b : Bank) : List Pending :=
  b.pipe.pend.filter fun p => decide (p.bundle < b.pipe.bundle) && p.writes.any Write.isPlane

def planMswap (s : State) : Plan :=
  if (s.core s.cf).arrayBusy ≠ 0 then { out := .stall }
  else
    match s.bk.planePending, s.bk.checks with
    | q :: _, true => .bad { cause := 0x05, short := min 0xFF (q.due + 1 - s.bk.pipe.clk) }
    | _, _ => { results := [(1, [.swap])], eff := fun _ u => u.spillPlanes u.cf u.bf }

def execMswap (h : Hdr) (s : State) := runSyllable h 1 planMswap s

/-! ### Streaming (R178 to R180) -/

/-- The accumulator writes of an activation: `rows` of codes, their zero point and group shifts. -/
def State.streamWrites (s : State) (c idx : Nat) (acc : Bool) (fmt zp : Nat) (rows : List (List Nat)) (shifts : List Int) :
    List Write :=
  let cols := (s.core s.cf).plane.cols
  mapFrom (fun a row =>
    let t := rowTerms cols (row.map (decodeElem fmt zp)) ((shifts.drop (4 * a)).take 4)
    if acc then [.accAdd (c * 128 + idx + a) fullRow t]
    else
      let l := t.map sat32
      [.acc (c * 128 + idx + a) fullRow (BitVec.ofNat 4096 (packN 32 (l.map fun e => wrapN 32 e.1)))] ++
        satIf (l.any (·.2))) 0 rows |>.flatten

/-- The members of a task's chain other than core `c` have arrived at the n-th chained instruction (R180). -/
def State.chainsMet (s : State) (c : Nat) (t : Task) (n : Nat) : Bool :=
  t.gang.all fun d => d == c || (match (s.core d).member t with
    | some u => decide (n ≤ u.chains) || (u.chains + 1 == n && u.chainAt.isSome)
    | none => false)

/-- Those of the issuing task have. -/
def State.chainMet (s : State) (n : Nat) : Bool := s.chainsMet s.cf s.bk.task n

/-- What the head of the gang gave at its n-th chained instruction, once it has issued it. -/
def State.chainHead (s : State) (n : Nat) : Option ChainInfo :=
  match s.bk.task.gang with
  | [] => none
  | c :: _ =>
    match (s.core c).member s.bk.task with
    | some u => if n ≤ u.chains then (u.chainLog.find? fun e => e.1 == n).map (·.2) else none
    | none => none

/-- This core leads its gang. -/
def State.leads (s : State) : Bool := s.bk.task.gang.head? == some s.cf

/-- Records where a chained instruction holds, or that the n-th has issued; what the head gave at one is kept as long as a member
that rewinds may come to it again: a segment has at most 255 bundles. -/
def State.setChain (s : State) (at_ gave : Option ChainInfo) (n : Nat) : State :=
  s.modBk fun y => { y with task := { y.task with
    chainAt := at_, chains := n
    chainLog := match gave with
      | some i => ((n, i) :: y.task.chainLog.filter fun e => e.1 != n).take 256
      | none => y.task.chainLog } }

/-- An MMA or MMAV: its own plan for the activation `info`, alone or as a member of a chain (R178 to R180). `info` reads
the rows; `own` gives the reads and touches of its activation, `bad` says that its record names a format that is no
multiplicand (R50), whichever member it is. -/
def streamPlan (c idx tr cnt : Nat) (acc ch bad : Bool) (own : Plan) (info : ChainInfo) (s : State) : Plan :=
  let g := s.bk.task.gang.length
  let chained := ch && decide (1 < g)
  let n := s.bk.task.chains + 1
  let t := s.rg.rt tr
  let rows := (List.range cnt).map fun a => c * 128 + idx + a
  let common (p : Plan) : Plan := (Plan.mtrap { p with
      reads := p.reads ++ refsOf [(.t, tr, 5)], writes := refsOf [(.c, c, 0)], ops := p.ops ++ [(.t, tr, 5), (.c, c, 0)]
      locR := p.locR ++ [.plane (if (s.core s.cf).active then 1 else 0)]
      locW := if acc then [] else rows.map .accRow, rowsAcc := if acc then rows else [] }
    [(bad, recTrap 5), s.tileTrap c 0, cntTrap cnt, (decide (128 < idx + cnt), illegalOp 6)])
  let finish (p : Plan) (inf : ChainInfo) (rows : List (List Nat)) : Plan :=
    let ext := if chained then g - 1 else 0
    let b := arrayCycles cnt (fmtBits inf.fmt) (fmtBits (s.core s.cf).plane.fmt)
    let q := { p with
      results := [(8 + b + ext, s.streamWrites c idx acc inf.fmt inf.zp rows inf.shifts)]
      eff := fun id u =>
        let u1 := (p.eff id u).claimTile c
        if chained then u1.setChain none (if u1.leads then some inf else none) n else u1 }
    rampPlan (arrayPlan (b + ext) q s) s
  let codes := info.rows.map fun v => lanesN v.toNat (fmtBits info.fmt) 128
  if ¬ chained then finish (common own) info codes
  else
    let wait (p : Plan) (inf : ChainInfo) : Plan :=
      if p.out = .go then { p with out := .hold .chain, heldEff := fun u => u.setChain (some inf) none (n - 1) } else p
    if s.leads then
      let p := common own
      if s.chainMet n then finish p info codes else wait p info
    else
      let p := common {}
      match s.chainHead n with
      | none => wait p { fmt := trecFmt t, cnt := cnt }
      | some inf =>
        let p := p.mtrap [(inf.fmt != trecFmt t, illegalOp 5), (inf.cnt != cnt, illegalOp 6)]
        finish p inf (inf.rows.map fun v => lanesN v.toNat (fmtBits inf.fmt) 128)

/-- The latency of a streaming instruction with a false predicate. -/
def State.streamLat (s : State) (tr cnt : Nat) (ch : Bool) : Nat :=
  8 + arrayCycles cnt (fmtBits (trecFmt (s.rg.rt tr))) (fmtBits (s.core s.cf).plane.fmt) +
    (if ch then s.bk.task.gang.length - 1 else 0)

/-- MMA from an address, with the registers that give it. -/
def mmaPlan (c idx tr : Nat) (acc ch : Bool) (rd : List RegOp) (a cnt : Nat) (s : State) : Plan :=
  let t := s.rg.rt tr
  let f := trecFmt t
  let line := lineBytes f
  let own := (({} : Plan).access (lineTouches a line line cnt false) 16 s).access (sideTouch t (4 * cnt) false) 1 s
  let own := { own with reads := refsOf rd }
  let info : ChainInfo :=
    if own.out = .go then
      { fmt := f, cnt := cnt, zp := zpOf t, shifts := s.sideShifts t (4 * cnt)
        rows := (chunksOf line cnt (s.scratch a (cnt * line))).map fun l => BitVec.ofNat 4096 (ofLeBytes l) }
    else { fmt := f, cnt := cnt }
  streamPlan c idx tr cnt acc ch (f == 7) own info s

/-- MMA: activation rows from scratchpad. -/
def planMma (c idx tr : Nat) (acc ch : Bool) (base disp cnt : Nat) (s : State) : Plan :=
  mmaPlan c idx tr acc ch [(.a, base, 6)] (s.matAddr base disp) cnt s

def execMma (h : Hdr) (c idx tr : Nat) (acc ch : Bool) (base disp cnt : Nat) (s : State) :=
  runSyllable h (s.streamLat tr cnt ch) (planMma c idx tr acc ch base disp cnt) s

/-- MMAV: activation rows from vector registers. -/
def planMmav (c a idx tr : Nat) (acc ch : Bool) (cnt : Nat) (s : State) : Plan :=
  let t := s.rg.rt tr
  let f := trecFmt t
  let b := if f = 6 ∨ f = 7 then 16 else fmtBits f
  let k := 4096 / (128 * b)
  let regs := (List.range ((cnt + k - 1) / k)).map fun r => a + r
  let vs : List RegOp := regs.map fun r => (.v, r, 1)
  let own := ((({ reads := refsOf vs, ops := vs } : Plan).access (sideTouch t (4 * cnt) false) 1 s)).mtrap
    [(regs.any fun r => decide (63 < r), illegalOp 1)]
  let info : ChainInfo :=
    if own.out = .go then
      { fmt := f, cnt := cnt, zp := zpOf t, shifts := s.sideShifts t (4 * cnt)
        rows := (List.range cnt).map fun r =>
          BitVec.ofNat 4096 (bitsN (s.rg.rv (a + r / k)).toNat (r % k * 128 * b) (128 * b)) }
    else { fmt := f, cnt := cnt }
  streamPlan c idx tr cnt acc ch (f == 6 || f == 7) own info s

def execMmav (h : Hdr) (c a idx tr : Nat) (acc ch : Bool) (cnt : Nat) (s : State) :=
  runSyllable h (s.streamLat tr cnt ch) (planMmav c a idx tr acc ch cnt) s

/-! ### Accumulator operations (R174, R175, R181, R182) -/

/-- Every row of a tile as locations. -/
def tileLocs (c : Nat) : List Loc := (List.range 128).map fun i => .accRow (c * 128 + i)

def planMzero (c : Nat) (s : State) : Plan :=
  let p := (regPlan [] [(.c, c, 0)] 2 ((List.range 128).map fun i => .acc (c * 128 + i) fullRow 0)).mtrap [s.tileTrap c 0]
  { p with locW := tileLocs c, eff := fun _ u => u.claimTile c }

def execMzero (h : Hdr) (c : Nat) (s : State) := runSyllable h 2 (planMzero c) s

/-- CADD: sat(C[OPA] + C[OPB]) (R181). -/
def planCadd (d a b : Nat) (s : State) : Plan :=
  let x := s.core s.cf
  let l := (List.range 128).map fun i => List.zipWith (fun u v => sat32 (sextN 32 u + sextN 32 v)) (x.accRow a i) (x.accRow b i)
  let ws := mapFrom (fun i r => Write.acc (d * 128 + i) fullRow (BitVec.ofNat 4096 (packN 32 (r.map fun e => wrapN 32 e.1)))) 0 l
  let own := d == a || d == b
  let p := (regPlan [(.c, a, 1), (.c, b, 2)] [(.c, d, 0)] 34 (ws ++ satIf (l.any fun r => r.any (·.2)))).mtrap
    [s.tileTrap d 0, s.tileTrap a 1, s.tileTrap b 2]
  { p with
    locR := (if a = d then [] else tileLocs a) ++ (if b = d then [] else tileLocs b)
    locW := if own then [] else tileLocs d
    rowsAcc := if own then (List.range 128).map fun i => d * 128 + i else []
    eff := fun _ u => u.claimTile d }

def execCadd (h : Hdr) (d a b : Nat) (s : State) := runSyllable h 34 (planCadd d a b) s

/-- CRDV: a row, column or diagonal as 32-bit lanes (R174). -/
def planCrdv (d a dir idx : Nat) (s : State) : Plan :=
  let v := BitVec.ofNat 4096 (packN 32 ((s.core s.cf).accLine a dir idx))
  let p := (regPlan [(.c, a, 1)] [(.v, d, 0)] 8 [.v d fullRow v]).mtrap [s.tileTrap a 1, dirTrap dir]
  { p with locR := (lineRows a dir idx).map .accRow }

def execCrdv (h : Hdr) (d a dir idx : Nat) (s : State) := runSyllable h 8 (planCrdv d a dir idx) s

/-- CWRV: 32-bit lanes into a row, column or diagonal; with ADD accumulated at the write cycle (R175). -/
def planCwrv (c a dir idx : Nat) (add : Bool) (s : State) : Plan :=
  let lanes := s.vlanes a 32
  let v := s.rg.rv a
  let terms := lanes.map (sextN 32)
  let one (i j x : Nat) : Write :=
    let m := BitVec.ofNat 4096 (2 ^ (32 * j) * (2 ^ 32 - 1))
    if add then .accAdd (c * 128 + i) m (List.replicate j 0 ++ [sextN 32 x])
    else .acc (c * 128 + i) m (BitVec.ofNat 4096 (2 ^ (32 * j) * x))
  let ws : List Write :=
    if dir = 1 then [if add then .accAdd (c * 128 + idx) fullRow terms else .acc (c * 128 + idx) fullRow v]
    else List.zipWith (fun (ij : Nat × Nat) x => one ij.1 ij.2 x) (lineCells dir idx) lanes
  let rows := lineRows c dir idx
  let p := (regPlan [(.v, a, 1)] [(.c, c, 0)] 2 ws).mtrap [s.tileTrap c 0, dirTrap dir]
  { p with locW := if add then [] else rows.map .accRow, rowsAcc := if add then rows else []
           eff := fun _ u => u.claimTile c }

def execCwrv (h : Hdr) (c a dir idx : Nat) (add : Bool) (s : State) := runSyllable h 2 (planCwrv c a dir idx add) s

/-- CSHD: the census shift-down of rows of a tile into scratchpad (R182, R69 to R71). -/
def planCshd (c b idx tr base disp cnt : Nat) (s : State) : Plan :=
  let t := s.rg.rt tr
  let f := trecFmt t
  let bx := fmtKind f == .bx
  let m := trecRnd t
  let a := s.matAddr base disp
  let line := lineBytes f
  let es := (s.rg.rs b).toInt
  let sh := shiftFor (trecCensus t) (trecHead t) f
  let scale := if bx then es else es + (sh : Int)
  let x := s.core s.cf
  let src := (List.range cnt).map fun r => x.accRow c (idx + r)
  let grp (row : List Nat) : List Nat := (chunksOf 32 4 row).map fun g =>
    if bx then bxShiftFor (minOf 31 (g.map (clsN 32))) (trecHead t) f else sh
  let shs := src.map grp
  let st := m == 4 && fmtKind f != .ds && (shs.flatten.any fun k => decide (0 < k))
  let out := List.zipWith (fun (rs : Nat × List Nat) (gs : List Nat) =>
      mapFrom (fun j v =>
        narrowTo f (trecClamp t) (trecZp t) (sextN 32 v) (gs.getD (j / 32) 0) m
          (if st then s.rword true t ((idx + rs.1) * 128 + j) else 0)) 0 rs.2)
    (mapFrom (fun r row => (r, row)) 0 src) shs
  let lim := out.any fun r => r.any (·.2)
  let census := minOf 31 (src.flatten.map (clsN 32))
  let tw := censusWrite (if trecCfrz t then none else some census) (if bx then 0 else sh) scale lim
  let ts := lineTouches a line line cnt true
  let side := sideTouch t (4 * cnt) true
  let ws : List Write :=
    [s.storeAt a (out.map fun r => lineOf f (r.map (·.1))).flatten] ++
    (if bx then [s.storeAt (trecSide t) (shs.flatten.map fun g => BitVec.ofNat 8 (g % 32))] else []) ++
    s.cleaned (ts ++ side) ++ satIf lim ++ [.t tr tw.1 tw.2]
  let p := (regPlan [(.c, c, 1), (.s, b, 2), (.t, tr, 5), (.a, base, 6)] [(.t, tr, 5)] (cnt + 3) ws).mtrap
    [(decide (-128 ≤ es ∧ es ≤ 127) && !scaleOk scale, recTrap 5), s.tileTrap c 1, (!scaleOk es, illegalOp 2),
     (decide (5 < m), illegalOp 5), cntTrap cnt, (decide (128 < idx + cnt), illegalOp 6)]
  { ((p.access ts 16 s).access side 1 s) with
    locR := (List.range cnt).map (fun r => .accRow (c * 128 + idx + r)), draw := st }

def execCshd (h : Hdr) (c b idx tr base disp cnt : Nat) (s : State) :=
  runSyllable h (cnt + 3) (planCshd c b idx tr base disp cnt) s

/-! ### Loading and storing tiles (R172, R173) -/

/-- The pitch of a tile in memory. -/
def State.pitch (s : State) (b fmt : Nat) : Nat := if b = 0 then lineBytes fmt else (s.rg.rs b).toNat

/-- A code in memory held at the stored width: INT2 sign-extended to 4 bits (R160). -/
def storedCode (fmt c : Nat) : Nat := if fmt = 6 then wrapN 4 (sextN 2 c) else c

def planMld (d b tr base disp : Nat) (s : State) : Plan :=
  let t := s.rg.rt tr
  let f := trecFmt t
  let a := s.matAddr base disp
  let p := ((regPlan [(.s, b, 2), (.t, tr, 5), (.a, base, 6)] [(.m, d, 0)] 1 []).mtrap [(f == 7, recTrap 5)])
  let p := (p.access (lineTouches a (s.pitch b f) (lineBytes f) 128 false) 16 s).access (sideTouch t 512 false) 1 s
  let n := if f = 7 then 0 else denseSlabs f
  mPlan p (6 + n) n (fun l =>
    let cols := (List.range 128).map fun j =>
      (lineCodes f (s.scratch ((a + j * s.pitch b f) % 2 ^ 64) (lineBytes f))).map (storedCode f)
    let sh : Tab Int := if fmtKind f = .bx then entriesFrom (fun _ => 0) 0 (s.sideShifts t 512) else []
    slabWrites l (imgOf (storedBits f) cols) ++
      [.m d { kind := 1, fmt := f, scale := trecScale t, zp := zpOf t, shifts := sh, slabs := l }]) s

def execMld (h : Hdr) (d b tr base disp : Nat) (s : State) :=
  runSyllable h (6 + denseSlabs (trecFmt (s.rg.rt tr))) (planMld d b tr base disp) s

def planMst (m b base disp : Nat) (s : State) : Plan :=
  let d := s.rg.rm m
  let x := s.core s.cf
  let a := s.matAddr base disp
  let pitch := s.pitch b d.fmt
  let ts := if d.kind = 1 then lineTouches a pitch (lineBytes d.fmt) 128 true else []
  let img := imgCol (x.pos d) (storedBits d.fmt)
  let ws : List Write :=
    (if s.pitch b d.fmt = lineBytes d.fmt then
      [s.storeAt a (((List.range 128).map fun j => lineOf d.fmt (img j)).flatten)]
    else (List.range 128).map fun j => s.storeAt ((a + j * s.pitch b d.fmt) % 2 ^ 64) (lineOf d.fmt (img j))) ++ s.cleaned ts
  let p := (regPlan [(.m, m, 1), (.s, b, 2), (.a, base, 6)] [] (d.slabs.length + 1) ws).mtrap
    [(a % 16 != 0, { cause := 0x11, info := BitVec.ofNat 64 a }),
     (b != 0 && pitch % 16 != 0, { cause := 0x11, info := BitVec.ofNat 64 ((a + pitch) % 2 ^ 64) }),
     (d.kind == 2, lowTrap 1), (d.kind == 0, illegalOp 1)]
  { p.access ts 16 s with locR := d.locs }

def execMst (h : Hdr) (m b base disp : Nat) (s : State) :=
  runSyllable h ((s.rg.rm m).slabs.length + 1) (planMst m b base disp) s

/-- The rank limit decided at issue (R186): whether a result of this rank is densified, or the trap. -/
def State.rankLimit (s : State) (rank : Nat) (dn : Bool) : Except Trap Bool :=
  let w := s.bk.cregs.cctl
  if rank ≤ cctlRmax w then .ok false
  else if dn ∨ cctlLrovf w then .ok true
  else .error { cause := 0x20, info := BitVec.ofNat 64 rank }

/-- The plan meets low-rank operand misuse. -/
def Plan.misused (p : Plan) : Bool :=
  match p.out with
  | .trap t => t.cause == 0x22
  | _ => false

/-- A low-rank result of components `old` (in slabs that stay) and `new`, or its densified form (R164, R186). Misused operands trap
before the rank limit is considered (R202). -/
def lowPlan (p : Plan) (lat d : Nat) (keep : MDesc) (old new : List (List Int × List Int)) (eg eh : Int) (dn : Bool)
    (s : State) : Plan :=
  if p.misused then p else
  match s.rankLimit (old.length + new.length) dn with
  | .error t => p.mtrap [(true, t)]
  | .ok true => densePlan { p with locR := p.locR ++ keep.locs } 132 d (old ++ new) eg eh id s
  | .ok false =>
    mPlan p lat new.length (fun l =>
      slabWrites l (new.map packComp) ++ [.m d (lowDesc (old ++ new) eg eh (keep.slabs ++ l))]) s

/-- The components held in bytes laid out as positions. -/
def compsOf (l : List Byte) (n : Nat) : List (List Int × List Int) :=
  (chunksOf 512 n l).map fun b =>
    let v := (lanesN (ofLeBytes b) 16 256).map (sextN 16)
    (v.take 128, v.drop 128)

def planMldf (d b tr : Nat) (dn : Bool) (base disp cnt : Nat) (s : State) : Plan :=
  let g := s.rg.rt tr
  let e := s.rg.rt b
  let a := s.matAddr base disp
  let p := (regPlan [(.t, b, 2), (.t, tr, 5), (.a, base, 6)] [(.m, d, 0)] 1 []).mtrap
    [(decide (b < 16) && trecFmt e != 4, recTrap 2), (trecFmt g != 4, recTrap 5), (decide (cnt = 0 ∨ 64 < cnt), illegalOp 6)]
  let p := p.access [{ addr := a, len := 512 * cnt, write := false }] 16 s
  let fs := compsOf (s.scratch a (512 * cnt)) cnt
  lowPlan p (6 + cnt) d {} [] fs (trecScale g) (trecScale e) dn s

def execMldf (h : Hdr) (d b tr : Nat) (dn : Bool) (base disp cnt : Nat) (s : State) :=
  runSyllable h (if (s.rankLimit cnt dn).toOption = some true then 132 else 6 + cnt) (planMldf d b tr dn base disp cnt) s

def planMstf (m base disp : Nat) (s : State) : Plan :=
  let d := s.rg.rm m
  let a := s.matAddr base disp
  let n := if d.kind = 2 then d.rank else 0
  let ts : List Touch := if n = 0 then [] else [{ addr := a, len := 512 * n, write := true }]
  let ws : List Write :=
    if n = 0 then []
    else s.storeAt a ((List.range n).map fun p => vecBytes ((s.core s.cf).pos d p)).flatten :: s.cleaned ts
  let p := (regPlan [(.m, m, 1), (.a, base, 6)] [] (n + 1) ws).mtrap
    [(a % 16 != 0, { cause := 0x11, info := BitVec.ofNat 64 a }), (d.kind == 1, lowTrap 1)]
  { p.access ts 16 s with locR := d.locs }

def execMstf (h : Hdr) (m base disp : Nat) (s : State) := runSyllable h ((s.rg.rm m).rank + 1) (planMstf m base disp) s

/-! ### Factor arithmetic (R183 to R187) -/

/-- Component `c` of a register that holds two columns of 128 16-bit lanes. -/
def State.vcomp (s : State) (r c : Nat) : List Int :=
  let l := (s.vlanes (r + c / 2) 16).map (sextN 16)
  if c % 2 = 0 then l.take 128 else l.drop 128

/-- MLRU: rank-1 components appended to a name. -/
def planMlru (d a b : Nat) (dn : Bool) (cnt eg eh : Nat) (s : State) : Plan :=
  let k := s.rg.rm d
  let g := sextN 8 eg
  let e := sextN 8 eh
  let regs (r : Nat) (f : Nat) : List RegOp := (List.range ((cnt + 1) / 2)).map fun i => (.v, r + i, f)
  let p := (regPlan ((.m, d, 0) :: (regs a 1 ++ regs b 2)) [(.m, d, 0)] 1 []).mtrap
    [(k.kind == 1 || (k.kind == 2 && (k.eg != g || k.eh != e)), lowTrap 0), (decide (cnt = 0 ∨ 64 < cnt), illegalOp 6)]
  let new := (List.range cnt).map fun c => (s.vcomp a c, s.vcomp b c)
  lowPlan p (4 + (cnt + 3) / 4) d k ((s.core s.cf).factors k) new g e dn s

def execMlru (h : Hdr) (d a b : Nat) (dn : Bool) (cnt eg eh : Nat) (s : State) :=
  runSyllable h (if (s.rankLimit ((s.rg.rm d).rank + cnt) dn).toOption = some true then 132 else 4 + (cnt + 3) / 4)
    (planMlru d a b dn cnt eg eh) s

/-- MLRADD: the components of M[OPA], then those of M[OPB]; in place it appends. -/
def planMlradd (d a b : Nat) (dn : Bool) (s : State) : Plan :=
  let x := s.core s.cf
  let u := s.rg.rm a
  let v := s.rg.rm b
  let e := if u.kind = 2 then u else v
  let p := (regPlan [(.m, a, 1), (.m, b, 2)] [(.m, d, 0)] 1 []).mtrap
    [(u.kind == 1, lowTrap 1), (v.kind == 1 || (u.kind == 2 && v.kind == 2 && (u.eg != v.eg || u.eh != v.eh)), lowTrap 2)]
  let p := { p with locR := (if d = a then [] else u.locs) ++ v.locs }
  if d = a then
    let new := x.factors v
    lowPlan p (4 + (new.length + 3) / 4) d u (x.factors u) new e.eg e.eh dn s
  else
    let new := x.factors u ++ x.factors v
    lowPlan p (4 + (new.length + 3) / 4) d {} [] new e.eg e.eh dn s

/-- The latency of an MLRADD with a false predicate. -/
def State.mlraddLat (s : State) (d a b : Nat) (dn : Bool) : Nat :=
  let ra := (s.rg.rm a).rank
  let rb := (s.rg.rm b).rank
  if (s.rankLimit (ra + rb) dn).toOption = some true then 132 else 4 + ((if d = a then rb else ra + rb) + 3) / 4

def execMlradd (h : Hdr) (d a b : Nat) (dn : Bool) (s : State) :=
  runSyllable h (s.mlraddLat d a b dn) (planMlradd d a b dn) s

/-- The rounding mode of MLRMUL and MGET. -/
def State.matMode (s : State) (tr rm : Nat) (rr : Bool) : Nat := if rr then trecRnd (s.rg.rt tr) else rm

/-- The record operand of MLRMUL and MGET, under RR. -/
def rrOp (tr : Nat) (rr : Bool) : List RegOp := if rr then [(.t, tr, 5)] else []

/-- MLRMUL: H' = Pᵀ·H through the active plane (R185). -/
def planMlrmul (d a tr sh rm : Nat) (rr : Bool) (s : State) : Plan :=
  let x := s.core s.cf
  let k := s.rg.rm a
  let m := s.matMode tr rm rr
  let t := s.rg.rt tr
  let fs := x.factors k
  let st := m == 4 && decide (0 < sh) && fs != []
  let scale := k.eh + x.plane.scale + (sh : Int)
  let p := (regPlan ((.m, a, 1) :: rrOp tr rr) [(.m, d, 0)] (8 + 4 * k.rank) []).mtrap
    [(k.kind == 1, lowTrap 1), (k.kind == 2 && !scaleOk scale, recTrap 0), modeTrap rr m]
  let p := { p with locR := k.locs ++ [.plane (if x.active then 1 else 0)], draw := st }
  let r := if p.out ≠ .go then []
    else mapFrom (fun c (f : List Int × List Int) =>
      (f.1, mapFrom (fun j v => satW false 16 (rnd v sh m (if st then s.rword rr t (j * 128 + c) else 0))) 0
        (rowTerms x.plane.cols f.2 [0, 0, 0, 0]))) 0 fs
  let out := r.map fun f => (f.1, f.2.map (·.1))
  let sat := satIf (r.any fun f => f.2.any (·.2))
  let fin (l : List Nat) : List Write := slabWrites l (out.map packComp) ++ .m d (lowDesc out k.eg scale l) :: sat
  let q := if d = a then mPlan { p with locW := k.locs } (8 + 4 * k.rank) 0 (fun _ => fin k.slabs) s
    else mPlan p (8 + 4 * k.rank) fs.length fin s
  rampPlan (arrayPlan (4 * k.rank) q s) s

def execMlrmul (h : Hdr) (d a tr sh rm : Nat) (rr : Bool) (s : State) :=
  runSyllable h (8 + 4 * (s.rg.rm a).rank) (planMlrmul d a tr sh rm rr) s

/-- MDENSE (R187). -/
def planMdense (d a : Nat) (s : State) : Plan :=
  let x := s.core s.cf
  let k := s.rg.rm a
  let p := { regPlan [(.m, a, 1)] [(.m, d, 0)] 132 [] with locR := k.locs }
  match k.kind with
  | 2 => densePlan p 132 d (x.factors k) k.eg k.eh id s
  | 1 =>
    if d = a then { p with locR := [] }
    else mPlan p 132 k.slabs.length (fun l =>
      slabWrites l ((List.range l.length).map (x.pos k)) ++ [.m d { k with slabs := l }]) s
  | _ => mPlan p 132 0 (fun _ => [.m d {}]) s

def execMdense (h : Hdr) (d a : Nat) (s : State) := runSyllable h 132 (planMdense d a) s

/-! ### Recompression (R188, R189) -/

/-- An MRECOMP is outstanding on the core, in a bank or a saved context. -/
def Core.recomping (x : Core) : Bool :=
  ([x.bank0, x.bank1] ++ x.saved.map (·.bank)).any fun b => b.pipe.vars.any fun v => v.kind == .mrecomp && !v.dropped

def planMrecomp (d a : Nat) (s : State) : Plan :=
  let x := s.core s.cf
  let k := s.rg.rm a
  let p := { (regPlan [(.m, a, 1)] [(.m, d, 0)] 1 []).mtrap [(k.kind == 1, lowTrap 1)] with
    locR := k.locs, locW := if d = a then k.locs else [], results := [] }
  if x.recomping then { p with out := .stall }
  else
    let fs := x.factors k
    let r := fs.length
    let need := if d = a then 0 else r
    match x.lowest need with
    | none => p.mtrap [(true, slabTrap need)]
    | some l =>
      if p.out ≠ .go then p else
      let q := recompress fs k.eg k.eh s.bk.cregs.tol.toNat
      let slabs := if d = a then k.slabs else l
      let use := slabs.take q.1.length
      let free := l.drop q.1.length
      let ok := q.1 == [] || scaleOk q.2.1
      let hold : List Write := if l = [] then [] else [.slabsHeld l]
      let ws : List Write :=
        if ok then
          hold ++ (if free = [] then [] else [.slabsFree free]) ++ slabWrites use (q.1.map packComp) ++
            .m d (lowDesc q.1 q.2.1 q.2.2.1 use) :: satIf q.2.2.2
        else hold ++ (if l = [] then [] else [.slabsFree l])
      let late := if ok then none
        else some (0x23, BitVec.ofNat 64 (2 ^ 63 + (s.bk.pc + s.bk.pipe.ctx.place) % 2 ^ 48))
      let n := 64 + 8 * r + 5 * r * r
      { p with
        locW := p.locW ++ slabLocs l, eff := fun _ u => u.takeSlabs u.cf l
        var := some { kind := .mrecomp, earliest := n, latest := some n, reg := some ⟨.m, d⟩, writes := some ws, late := late } }

def execMrecomp (h : Hdr) (d a : Nat) (s : State) := runSyllable h 0 (planMrecomp d a) s

/-! ### Queries and release (R190, R191) -/

/-- The word that MQRY reads. -/
def MDesc.word (d : MDesc) : Word :=
  BitVec.ofNat 64 (packFields [2, 4, 4, 7, 7, 4, 4, 8, 8, 8]
    [d.kind, 0, d.fmt, d.rank, d.slabs.length, d.cg, d.ch, wrapN 8 (if d.kind = 2 then d.eg else d.scale),
     wrapN 8 d.eh, d.zp])

def planMqry (d a idx : Nat) (slab : Bool) (s : State) : Plan :=
  let k := s.rg.rm a
  let v : Word := if slab then (match k.slabs[idx]? with
      | some n => BitVec.ofNat 64 n
      | none => BitVec.allOnes 64)
    else k.word
  regPlan [(.m, a, 1)] [(.s, d, 0)] 2 [.s d v]

def execMqry (h : Hdr) (d a idx : Nat) (slab : Bool) (s : State) := runSyllable h 2 (planMqry d a idx slab) s

def planMfree (d : Nat) (tile : Bool) (s : State) : Plan :=
  if tile then
    (regPlan [] [] 1 [.freeTile d]).mtrap [(decide (31 < d) || !s.inPart d, { illegalOp 0 with fam := 6, reg := d })]
  else regPlan [] [(.m, d, 0)] 1 [.m d {}]

def execMfree (h : Hdr) (d : Nat) (tile : Bool) (s : State) := runSyllable h 1 (planMfree d tile) s

/-! ### MGET and MPUT (R174, R175) -/

/-- MGET: of a dense tile SH, RM and RR do not bear on the value; a code of RM outside its list traps all the same (R75, R169). -/
def planMget (d a dir idx tr sh rm : Nat) (rr : Bool) (s : State) : Plan :=
  let x := s.core s.cf
  let k := s.rg.rm a
  let low := k.kind == 2
  let rounds := k.kind != 1 || !rr
  let m := s.matMode tr rm rr
  let t := s.rg.rt tr
  let st := low && m == 4 && decide (0 < sh)
  let cells := lineCells dir idx
  let fs := x.factors k
  let l : List (Nat × Bool) :=
    if low then cells.map fun c =>
      let v := sumI (fs.map fun f => f.1.getD c.1 0 * f.2.getD c.2 0)
      let r := sat32 (rnd v sh m (if st then s.rword rr t (c.1 * 128 + c.2) else 0))
      (wrapN 32 r.1, r.2)
    else if k.kind = 1 then cells.map fun c => (imgCode (x.pos k) (storedBits k.fmt) c.1 c.2, false)
    else []
  let v := BitVec.ofNat 4096 (packN (if low then 32 else storedBits k.fmt) (l.map (·.1)))
  let p := (regPlan ((.m, a, 1) :: (if rounds then rrOp tr rr else [])) [(.v, d, 0)] 8
    (.v d fullRow v :: satIf (l.any (·.2)))).mtrap [(rounds && decide (5 < m), (modeTrap rr m).2), dirTrap dir]
  { p with locR := k.locs, draw := st }

def execMget (h : Hdr) (d a dir idx tr sh rm : Nat) (rr : Bool) (s : State) :=
  runSyllable h 8 (planMget d a dir idx tr sh rm rr) s

def planMput (d a dir idx : Nat) (s : State) : Plan :=
  let x := s.core s.cf
  let k := s.rg.rm d
  let p := (regPlan [(.m, d, 0), (.v, a, 1)] [(.m, d, 0)] 2 []).mtrap [(k.kind == 0, illegalOp 0), dirTrap dir]
  let cells := lineCells dir idx
  match k.kind with
  | 2 =>
    let lanes := s.vlanes a 16
    densePlan { p with locR := k.locs } 130 d (x.factors k) k.eg k.eh (fun cols =>
      (List.zip cells lanes).foldl (fun cs e => cs.modify e.1.2 fun col => col.set e.1.1 e.2) cols) s
  | 1 =>
    let b := storedBits k.fmt
    let l := List.zipWith (fun (c : Nat × Nat) v =>
      let r := if k.fmt = 6 then (let q := limitTo (-2) 1 (sextN 4 v); (wrapN 4 q.1, q.2)) else (v, false)
      let o := 128 * c.2 + c.1
      (o * b / 4096, o % (4096 / b), r.1, r.2)) cells (s.vlanes a b)
    let ws : List Write := l.map fun e =>
      .slabBits d (k.slabs.getD e.1 0) (BitVec.ofNat 4096 (2 ^ (b * e.2.1) * (2 ^ b - 1))) (BitVec.ofNat 4096 (2 ^ (b * e.2.1) * e.2.2.1))
    { p with results := [(2, ws ++ satIf (l.any fun e => e.2.2.2))]
             locW := slabLocs ((l.map fun e => k.slabs.getD e.1 0).dedup) }
  | _ => p

def execMput (h : Hdr) (d a dir idx : Nat) (s : State) :=
  runSyllable h (if (s.rg.rm d).kind = 2 then 130 else 2) (planMput d a dir idx) s

/-! ### Engine pushes (R192 to R194) -/

/-- The command of eight registers. -/
def State.pushBytes (s : State) (a : Nat) : List Byte :=
  ((List.range 8).map fun k => leBytes 8 (s.rg.rs (a + k)).toNat).flatten

/-- A push: its command is read at issue, its offer is released at commit. -/
def pushPlan (h : Hdr) (q : Bool) (d a opd eng : Nat) (s : State) : Plan :=
  let p := (regPlan ((List.range 8).map fun k => (.s, a + k, 1)) [(.s, d, 0), (.p, opd, 4)] 1 []).mtrap
    [(d == 0, illegalOp 0), (decide (3 < eng), illegalOp 6)]
  { p with
    results := []
    var := some { kind := .push, reg := some ⟨.s, d⟩ }
    eff := fun id u => u.release (.push { slot := h.slot, tok := d, eng := eng, cmd := s.pushBytes a, full := opd, q := q, varId := id
                                          seed := s.bk.cregs.seed, bundle := s.bk.pipe.bundle }) }

def execPush (h : Hdr) (d a opd eng : Nat) (s : State) :=
  runPlaced s.bk.atExit 0x08 h 0 (pushPlan h false d a opd eng) s

def execPushq (h : Hdr) (d a opd eng : Nat) (s : State) :=
  runPlaced s.bk.atExit 0x08 h 0 (pushPlan h true d a opd eng) s

end Sys2Proof.Machine
end

