-- ==== Sys2Proof/Machine/Memory.lean ====
section
/-!
DEFINITION. Memory instructions of the L slot (R147 to R158): scratchpad loads and stores, decoder queues, direct accesses,
tensor records, parking, regions.
-/

namespace Sys2Proof.Machine

open Sys2Proof

/-! ### Scalars (R149) -/

def planLds (d base : Nat) (disp : BitVec 48) (size : Nat) (sx : Bool) (s : State) : Plan :=
  let n := 2 ^ size
  let a := s.effAddr base disp
  let x := ofLeBytes (s.scratch a n)
  let v : Word := if sx then BitVec.ofInt 64 (sextN (8 * n) x) else BitVec.ofNat 64 x
  s.lReady ((regPlan [(.a, base, 6)] [(.s, d, 0)] 6 [.s d v]).access [{ addr := a, len := n, write := false }] n s)

def execLds (h : Hdr) (d base : Nat) (disp : BitVec 48) (size : Nat) (sx : Bool) (s : State) :=
  runSyllable h 6 (planLds d base disp size sx) s

/-- A store of bytes at an address. -/
def storePlan (rd : List RegOp) (a : Nat) (l : List Byte) (align : Nat) (s : State) : Plan :=
  let ts : List Touch := [{ addr := a, len := l.length, write := true }]
  s.lReady ((regPlan rd [] 1 (s.storeAt a l :: s.cleaned ts)).access ts align s)

def planSts (r base : Nat) (disp : BitVec 48) (size : Nat) (s : State) : Plan :=
  storePlan [(.s, r, 0), (.a, base, 6)] (s.effAddr base disp) (leBytes (2 ^ size) (s.rg.rs r).toNat) (2 ^ size) s

def execSts (h : Hdr) (r base : Nat) (disp : BitVec 48) (size : Nat) (s : State) :=
  runSyllable h 1 (planSts r base disp size) s

/-! ### Vectors (R151, R152) -/

/-- The access of a vector instruction lane by lane: the lane width, the address of each lane, which lanes are active, and
whether its lanes lie one after another. -/
structure LaneAcc where
  w : Nat
  addr : List Nat
  act : List Bool
  /-- the address of a contiguous access -/
  base : Option Nat

/-- Bytes of one lane. -/
def LaneAcc.size (k : LaneAcc) : Nat := max 1 (k.w / 8)

/-- The ranges it touches: one range when every lane of a contiguous access is active. -/
def LaneAcc.touches (k : LaneAcc) (write : Bool) : List Touch :=
  match k.base, k.act.all id with
  | some a, true => [{ addr := a, len := 512, write := write }]
  | _, _ =>
    ((List.zip k.act k.addr).filterMap fun e =>
      if e.1 then some { addr := e.2, len := k.size, write := write : Touch } else none).dedup

/-- The lanes as scratchpad holds them, each at its own address; two lanes of 4 bits share a byte. -/
def State.laneLoad (s : State) (k : LaneAcc) : List Nat :=
  match k.base, k.act.all id with
  | some a, true => lanesN (ofLeBytes (s.scratch a 512)) k.w (4096 / k.w)
  | _, _ => mapFrom (fun i (e : Bool × Nat) =>
      if e.1 then ofLeBytes (s.scratch e.2 k.size) / (if k.w = 4 then 16 ^ (i % 2) else 1) % 2 ^ k.w else 0) 0 (List.zip k.act k.addr)

/-- The writes of a store, in lane order. -/
def State.laneStore (s : State) (k : LaneAcc) (v : VReg) : List Write :=
  match k.base, k.act.all id with
  | some a, true => [s.storeAt a (vecBytes v)]
  | _, _ =>
    (List.zip (List.zip k.act k.addr) (mapFrom (fun i x => (i, x)) 0 (lanesN v.toNat k.w (4096 / k.w)))).filterMap fun e =>
      if e.1.1 then
        some (if k.w = 4 then
          .memBits (scratchAddr s.cf e.1.2) (BitVec.ofNat 8 (if e.2.1 % 2 = 0 then 0x0F else 0xF0))
            (BitVec.ofNat 8 (e.2.2 * (if e.2.1 % 2 = 0 then 1 else 16)))
        else s.storeAt e.1.2 (leBytes k.size e.2.2))
      else none

/-- The active lanes of a masked access. -/
def State.laneMaskOf (s : State) (m : Bool) (q w : Nat) : List Bool :=
  if m then s.activeLanes q w (4096 / w) else List.replicate (4096 / w) true

/-- LDV and STV: contiguous, or with the stride of a scalar. -/
def State.vecAcc (s : State) (base : Nat) (disp : BitVec 48) (opb opc ew : Nat) (st m : Bool) : LaneAcc :=
  let w := (ewBits ew).getD 64
  let a := s.effAddr base disp
  { w := w, act := s.laneMaskOf m opc w, base := if st then none else some a
    addr := (List.range (4096 / w)).map fun (i : Nat) =>
      if st then wrapN 64 ((a : Int) + (i : Int) * (s.rg.rs opb).toInt) else ((a + i * w / 8) % 2 ^ 64 : Nat) }

/-- LDVG and STVS: each lane at its own index. -/
def State.idxAcc (s : State) (base : Nat) (disp : BitVec 48) (opb opc ew : Nat) (m sc : Bool) : LaneAcc :=
  let w := max 8 ((ewBits ew).getD 64)
  let a := s.effAddr base disp
  let idx := ((List.range (max 1 (32 / w))).map fun r => s.vlanes (opb + r) 32).flatten
  { w := w, act := s.laneMaskOf m opc w, base := none
    addr := (List.range (4096 / w)).map fun i => (a + idx.getD i 0 * (if sc then w / 8 else 1)) % 2 ^ 64 }

/-- The mask operand. -/
def maskOp (m : Bool) (opc : Nat) : List RegOp := if m then [(.q, opc, 3)] else []

/-- The index registers. -/
def idxOps (opb ew : Nat) : List RegOp :=
  (List.range (max 1 (32 / max 8 ((ewBits ew).getD 64)))).map fun r => (.v, opb + r, 2)

/-- A lane access that is not contiguous holds the L slot. -/
def LaneAcc.hold (k : LaneAcc) (p : Plan) : Plan :=
  match k.base with
  | some _ => p
  | none => { p with eff := fun id u => (p.eff id u).holdL ((4096 / k.w + 63) / 64) }

/-- A load of lanes. -/
def loadPlan (k : LaneAcc) (d : Nat) (zi : Bool) (rd : List RegOp) (bad : Option Trap) (s : State) : Plan :=
  let r := laneWrite zi k.w k.act (s.laneLoad k)
  s.lReady (k.hold ((regPlan rd [(.v, d, 0)] 6 [.v d r.1 r.2] bad).access (k.touches false) k.size s))

/-- A store of lanes. -/
def lanesPlan (k : LaneAcc) (r : Nat) (rd : List RegOp) (bad : Option Trap) (s : State) : Plan :=
  let ts := k.touches true
  s.lReady (k.hold ((regPlan ((.v, r, 0) :: rd) [] 1 (s.laneStore k (s.rg.rv r) ++ s.cleaned ts) bad).access ts k.size s))

/-- EW of LDV and STV: a strided access of 4-bit lanes is illegal (R151). -/
def vecEw (ew : Nat) (st : Bool) : Option Trap := firstTrap [(decide (4 < ew) || (st && ew == 0), illegalOp 6)]

/-- EW of LDVG and STVS. -/
def idxEw (ew : Nat) : Option Trap := firstTrap [(decide (4 < ew ∨ ew = 0), illegalOp 6)]

def strideOp (st : Bool) (opb : Nat) : List RegOp := if st then [(.s, opb, 2)] else []

def planLdv (d base : Nat) (disp : BitVec 48) (opb opc ew : Nat) (st m zi : Bool) (s : State) : Plan :=
  loadPlan (s.vecAcc base disp opb opc ew st m) d zi ([(.a, base, 6)] ++ strideOp st opb ++ maskOp m opc) (vecEw ew st) s

def execLdv (h : Hdr) (d base : Nat) (disp : BitVec 48) (opb opc ew : Nat) (st m zi : Bool) (s : State) :=
  runSyllable h 6 (planLdv d base disp opb opc ew st m zi) s

def planStv (r base : Nat) (disp : BitVec 48) (opb opc ew : Nat) (st m : Bool) (s : State) : Plan :=
  lanesPlan (s.vecAcc base disp opb opc ew st m) r ([(.a, base, 6)] ++ strideOp st opb ++ maskOp m opc) (vecEw ew st) s

def execStv (h : Hdr) (r base : Nat) (disp : BitVec 48) (opb opc ew : Nat) (st m : Bool) (s : State) :=
  runSyllable h 1 (planStv r base disp opb opc ew st m) s

def planLdvg (d base : Nat) (disp : BitVec 48) (opb opc ew : Nat) (m zi sc : Bool) (s : State) : Plan :=
  loadPlan (s.idxAcc base disp opb opc ew m sc) d zi ([(.a, base, 6)] ++ idxOps opb ew ++ maskOp m opc) (idxEw ew) s

def execLdvg (h : Hdr) (d base : Nat) (disp : BitVec 48) (opb opc ew : Nat) (m zi sc : Bool) (s : State) :=
  runSyllable h 6 (planLdvg d base disp opb opc ew m zi sc) s

def planStvs (r base : Nat) (disp : BitVec 48) (opb opc ew : Nat) (m sc : Bool) (s : State) : Plan :=
  lanesPlan (s.idxAcc base disp opb opc ew m sc) r ([(.a, base, 6)] ++ idxOps opb ew ++ maskOp m opc) (idxEw ew) s

def execStvs (h : Hdr) (r base : Nat) (disp : BitVec 48) (opb opc ew : Nat) (m sc : Bool) (s : State) :=
  runSyllable h 1 (planStvs r base disp opb opc ew m sc) s

/-! ### Decoder queues (R153, R296) -/

/-- Engine `e` of a core. -/
def Core.cpe (x : Core) (e : Nat) : Engine := if e = 0 then x.cpe0 else x.cpe1

def Core.setCpe (x : Core) (e : Nat) (g : Engine) : Core := if e = 0 then { x with cpe0 := g } else { x with cpe1 := g }

/-- DECODE cards accepted whose stream has not ended. -/
def Engine.streams (g : Engine) : Nat := (g.cards.filter fun k => k.stream).length

def planLdvp (d port : Nat) (s : State) : Plan :=
  let g := (s.core s.cf).cpe port
  let p := regPlan [] [(.v, d, 0)] 6 [.v d fullRow (g.decq.headD 0)]
  s.lReady (match g.decq with
    | [] => if g.streams = 0 ∨ p.out ≠ .go then p else { p with out := .hold .decoder }
    | _ :: l => { p with eff := fun _ u => u.modCore u.cf fun x => x.setCpe port { x.cpe port with decq := l } })

def execLdvp (h : Hdr) (d port : Nat) (s : State) := runSyllable h 6 (planLdvp d port) s

/-! ### Direct accesses (R148, R154, R155, R248) -/

/-- A global virtual address: alignment, then bits [63:55]. -/
def globalTrap (va align : Nat) : List (Bool × Trap) :=
  [(va % align != 0, { cause := 0x11, info := BitVec.ofNat 64 va }), (decide (2 ^ 55 ≤ va), illegalOp 6)]

/-- The direct queue of the core is full. -/
def State.directFull (s : State) : Bool := decide (64 ≤ (s.core s.cf).direct.length)

/-- An entry of the direct queue as the issuing bank makes it. -/
def State.entryOf (s : State) (kind : DirectKind) (va len : Nat) (reg : RegRef) : Direct :=
  { bank := s.bf, bundle := s.bk.pipe.bundle, ctx := s.bk.cregs.ctxid.toNat, task := !s.bk.monitor, kind := kind, va := va, len := len, bytes := []
    op := 0, uns := false, operand := 0, expected := 0, sx := false, reg := reg, varId := 0 }

/-- The register of a direct result, when it is one that a write reaches. -/
def dirReg (r : RegRef) : Option RegRef := if r.fam = .s ∧ r.idx = 0 then none else some r

/-- The locations of R361 that 64-byte units of the core's own window are, as a bank of it names them. -/
def windowLoc (c b a : Nat) : Option Loc :=
  match winCore a with
  | some (d, w) =>
    if d ≠ c then none
    else match winPart w with
      | .mem => some (.unit (w / 64))
      | .acc r _ => some (.accRow r)
      | .slab n _ => some (.slab n)
      | .vec k i _ => if k = b then some (.v i) else none
      | _ => none
  | none => none

/-- The locations that a direct access of `n` bytes reaches through the window of its own core (R361). -/
def State.windowLocs (s : State) (va n : Nat) (acc : AccKind) : List Loc :=
  let y := s.bk
  ((List.range ((va + n + 63) / 64 - va / 64)).filterMap fun k =>
    match s.translate s.cf y.cregs.ctxid.toNat (max va ((va / 64 + k) * 64)) acc (!y.monitor) with
    | .ok (a, _) => windowLoc s.cf s.bf a
    | .error _ => none).dedup

/-- A read through the direct queue: it enters at issue. -/
def directPlan (p : Plan) (kind : VarKind) (e : Direct) (s : State) : Plan :=
  s.lReady (if p.out = .go ∧ s.directFull then { p with out := .hold .directFull }
    else { p with
      locR := if p.out = .go then s.windowLocs e.va e.len .read else []
      results := []
      var := some { kind := kind, reg := dirReg e.reg }
      eff := fun id u => u.modCore u.cf fun x => { x with direct := x.direct ++ [{ e with varId := id }] } })

/-- LDG. -/
def planLdg (d base : Nat) (disp : BitVec 48) (size : Nat) (sx v : Bool) (s : State) : Plan :=
  let va := s.effAddr base disp
  let n := if v then 512 else 2 ^ size
  let f : Fam := if v then .v else .s
  directPlan (regPlan [(.a, base, 6)] [(f, d, 0)] 1 [] (firstTrap (globalTrap va (if v then 64 else n)))) .ldg
    { s.entryOf .ldg va n ⟨f, d⟩ with sx := sx } s

def execLdg (h : Hdr) (d base : Nat) (disp : BitVec 48) (size : Nat) (sx v : Bool) (s : State) :=
  runSyllable h 0 (planLdg d base disp size sx v) s

/-- STG: its bytes are read at issue; it enters at commit. -/
def planStg (r base : Nat) (disp : BitVec 48) (size : Nat) (v : Bool) (s : State) : Plan :=
  let va := s.effAddr base disp
  let n := if v then 512 else 2 ^ size
  let f : Fam := if v then .v else .s
  let bytes := if v then vecBytes (s.rg.rv r) else leBytes n (s.rg.rs r).toNat
  let p := regPlan [(f, r, 0), (.a, base, 6)] [] 1 [] (firstTrap (globalTrap va (if v then 64 else n)))
  s.lReady { p with
    locW := if p.out = .go then s.windowLocs va n .write else []
    eff := fun _ u => u.release (.direct { s.entryOf .stg va n ⟨f, r⟩ with bytes := bytes }) }

def execStg (h : Hdr) (r base : Nat) (disp : BitVec 48) (size : Nat) (v : Bool) (s : State) :=
  runPlaced s.bk.atExit 0x08 h 1 (planStg r base disp size v) s

/-- AMO: performed after commit, so that what it reads is no read of its segment (R361); codes 9 to 15 are illegal. -/
def planAmo (d base : Nat) (disp : BitVec 48) (opb opc op : Nat) (u w8 : Bool) (s : State) : Plan :=
  let va := s.effAddr base disp
  let n := if w8 then 8 else 4
  let p := regPlan [(.a, base, 6), (.s, opb, 2), (.s, opc, 3)] [(.s, d, 0)] 1 []
    (firstTrap (globalTrap va n ++ [(decide (8 < op), illegalOp 6)]))
  s.lReady { p with
    locW := if p.out = .go then s.windowLocs va n .atomic else []
    results := []
    var := some { kind := .amo, reg := dirReg ⟨.s, d⟩ }
    eff := fun id x => x.release (.direct { s.entryOf .amo va n ⟨.s, d⟩ with
      op := op, uns := u, operand := s.rg.rs opb, expected := s.rg.rs opc, varId := id }) }

def execAmo (h : Hdr) (d base : Nat) (disp : BitVec 48) (opb opc op : Nat) (u w8 : Bool) (s : State) :=
  runPlaced s.bk.atExit 0x08 h 0 (planAmo d base disp opb opc op u w8) s

/-! ### Tensor records (R158) -/

/-- TLD: from scratchpad it validates at issue; from global memory on arrival. -/
def planTld (d base : Nat) (disp : BitVec 48) (g : Bool) (s : State) : Plan :=
  let a := s.effAddr base disp
  if g then
    directPlan (regPlan [(.a, base, 6)] [(.t, d, 0)] 1 [] (firstTrap (globalTrap a 32))) .tldGlobal
      (s.entryOf .tld a 32 ⟨.t, d⟩) s
  else
    let t := trecClean (ofLeBytes (s.scratch a 32))
    let p := (regPlan [(.a, base, 6)] [(.t, d, 0)] 1 []).access [{ addr := a, len := 32, write := false }] 32 s
    let p := { p with
      results := []
      var := some { kind := .tldScratch, earliest := 6, latest := some 6, reg := some ⟨.t, d⟩
                    writes := some [.t d (BitVec.allOnes 256) t] } }
    s.lReady (if s.bk.touchWaits p.touches = [] then p.mtrap [(!trecOk t, recTrap 0)] else p)

def execTld (h : Hdr) (d base : Nat) (disp : BitVec 48) (g : Bool) (s : State) := runSyllable h 0 (planTld d base disp g) s

/-- TST: reserved fields are written as zero. -/
def planTst (r base : Nat) (disp : BitVec 48) (s : State) : Plan :=
  storePlan [(.t, r, 0), (.a, base, 6)] (s.effAddr base disp) (leBytes 32 (trecClean (s.rg.rt r).toNat).toNat) 32 s

def execTst (h : Hdr) (r base : Nat) (disp : BitVec 48) (s : State) := runSyllable h 1 (planTst r base disp) s

/-! ### Parking (R157, R167) -/

/-- The lowest row that is free and not parked, in a tile of the issuing bank's partition. -/
def State.freeRow (s : State) : Option Nat :=
  let x := s.core s.cf
  (x.accFree.find? fun e => e.2 && s.inPart (e.1 / 128) && !x.rowParked e.1).map (·.1)

/-- The location of a place. -/
def Place.locs : Place → List Loc
  | .none => []
  | .slab k => [.slab k]
  | .row r => [.accRow r]

def planPark (r : Nat) (acc : Bool) (s : State) : Plan :=
  let pl : Option Place := if acc then s.freeRow.map .row else ((s.core s.cf).lowest 1).map fun l => .slab (l.headD 0)
  let p := regPlan [(.v, r, 0)] [] 1 []
  s.lReady (match pl with
    | none => p.mtrap [(true, slabTrap 1)]
    | some k => { p with
        results := [(1, [.park r k (s.rg.rv r)])], locW := k.locs
        eff := fun _ u => match k with
          | .slab n => u.takeSlabs u.cf [n]
          | _ => u })

def execPark (h : Hdr) (r : Nat) (acc : Bool) (s : State) := runSyllable h 1 (planPark r acc) s

def planUnpark (r : Nat) (s : State) : Plan :=
  let pl := Tab.get .none s.bk.parked r
  s.lReady (if pl = .none then .bad { illegalOp 0 with fam := 3, reg := r }
    else { unparks := [⟨.v, r⟩], results := [(6, [.unpark r pl])], locR := pl.locs, locW := [.v r] })

def execUnpark (h : Hdr) (r : Nat) (s : State) := runSyllable h 6 (planUnpark r) s

/-! ### Regions (R156, R242 to R245) -/

/-- A region-map trap: the region's number. -/
def regionTrap (n : Nat) : Trap := { cause := 0x12, info := BitVec.ofNat 64 n }

/-- Two ranges share a byte. -/
def rangesMeet (a n b m : Nat) : Bool := decide (a < b + m ∧ b < a + n)

def planRmap (n base : Nat) (disp : BitVec 48) (va len mode : Nat) (s : State) : Plan :=
  let a := s.effAddr base disp
  let v := (s.rg.rs va).toNat
  let l := (s.rg.rs len).toNat
  let bad := firstTrap [
    (decide (scratchBytes < a + l), { cause := 0x10, info := BitVec.ofNat 64 a }),
    (decide (a % 4096 ≠ 0), { cause := 0x11, info := BitVec.ofNat 64 a }),
    (decide (v % 4096 ≠ 0), { cause := 0x11, info := BitVec.ofNat 64 v }),
    (decide (31 < n ∨ l = 0 ∨ l % 4096 ≠ 0) || (s.bk.region n).isSome ||
      (s.bk.mapped.any fun e => rangesMeet a l e.2.start e.2.len), regionTrap n),
    (decide (2 ^ 55 ≤ v), illegalOp 2), (mode == 3, illegalOp 6)]
  s.lReady (regPlan [(.a, base, 6), (.s, va, 2), (.s, len, 3)] [] 1
    [.region n (some { start := a, len := l, va := v, mode := mode })] bad)

def execRmap (h : Hdr) (n base : Nat) (disp : BitVec 48) (va len mode : Nat) (s : State) :=
  runSyllable h 1 (planRmap n base disp va len mode) s

/-- The dirty sectors among a list, each with its region. -/
def Region.dirtyAmong (r : Region) (n : Nat) (l : List Nat) : List (Nat × Nat) :=
  l.filterMap fun k => if r.secState k = .dirty then some (n, k) else none

/-- Dirty sectors captured by the bundle; L is held for 8 cycles each (R244). -/
def flushPlan (l : List (Nat × Nat)) (p : Plan) (s : State) : Plan :=
  match s.captureSecs s.cf s.bf l with
  | .error t => p.mtrap [(true, t)]
  | .ok _ => { p with eff := fun _ u =>
      match u.captureSecs u.cf u.bf l with
      | .ok v => if l = [] then v else v.holdL (8 * l.length)
      | .error _ => u }

def planRunmap (n : Nat) (s : State) : Plan :=
  s.lReady (match s.bk.region n with
    | none => .bad (regionTrap n)
    | some r => flushPlan (r.dirtyAmong n (List.range r.count)) { results := [(1, [.region n none])] } s)

def execRunmap (h : Hdr) (n : Nat) (s : State) := runSyllable h 1 (planRunmap n) s

/-- The sectors of a subrange: a length of 0 names the whole region; a subrange outside it raises region map. -/
def State.subrange (s : State) (n base : Nat) (disp : BitVec 48) (len : Nat) : Except Trap (Region × List Nat) :=
  match s.bk.region n with
  | none => .error (regionTrap n)
  | some r =>
    let a := s.effAddr base disp
    let l := (s.rg.rs len).toNat
    if l = 0 then .ok (r, List.range r.count)
    else if a < r.start ∨ r.start + r.len < a + l then .error (regionTrap n)
    else .ok (r, r.secsOf a l)

/-- The operands of RFILL, RFLUSH and RINV. -/
def subPlan (n base : Nat) (disp : BitVec 48) (len : Nat) (f : Plan → Region → List Nat → Plan) (s : State) : Plan :=
  let p := regPlan [(.a, base, 6), (.s, len, 3)] [] 1 []
  s.lReady (match s.subrange n base disp len with
    | .error t => p.mtrap [(true, t)]
    | .ok (r, l) => f p r l)

/-- RFILL: fills of INV sectors; a fill that cannot start is dropped (R241). -/
def planRfill (n base : Nat) (disp : BitVec 48) (len : Nat) (s : State) : Plan :=
  subPlan n base disp len (fun p r l =>
    if r.mode = 2 then p.mtrap [(true, regionTrap n)]
    else { p with eff := fun _ u => l.foldl (fun v k => match v.startFill v.cf v.bf n k with
      | .ok w => w
      | .error t => v.dropAhead v.cf v.bf t) u }) s

def execRfill (h : Hdr) (n base : Nat) (disp : BitVec 48) (len : Nat) (s : State) :=
  runSyllable h 1 (planRfill n base disp len) s

def planRflush (n base : Nat) (disp : BitVec 48) (len : Nat) (s : State) : Plan :=
  subPlan n base disp len (fun p r l => flushPlan (r.dirtyAmong n l) p s) s

def execRflush (h : Hdr) (n base : Nat) (disp : BitVec 48) (len : Nat) (s : State) :=
  runSyllable h 1 (planRflush n base disp len) s

/-- Sectors become INV; a fill in flight to one is discarded on landing. -/
def Region.inv (r : Region) (l : List Nat) : Region :=
  { l.foldl (fun r k => r.setSec k .inv) r with
    fills := r.fills.map fun f => if l.contains f.sec then { f with inv := true } else f }

def planRinv (n base : Nat) (disp : BitVec 48) (len : Nat) (s : State) : Plan :=
  subPlan n base disp len (fun p _ l =>
    { p with eff := fun _ u => u.modBk fun y => match y.region n with
      | some r => y.setRegion n (some (r.inv l))
      | none => y }) s

def execRinv (h : Hdr) (n base : Nat) (disp : BitVec 48) (len : Nat) (s : State) :=
  runSyllable h 1 (planRinv n base disp len) s

end Sys2Proof.Machine
end

