-- ==== Sys2Proof/Machine/System.lean ====
section
/-!
DEFINITION. Control registers: what an index reads (R26, R97, R207, R234, R308, R346, R368, R371, R383, R397), which writes
are refused, and the system instructions (R116 to R120).
-/

namespace Sys2Proof.Machine

open Sys2Proof

/-! ### Indices (R25) -/

/-- The assigned indices. -/
def cregIndices : List Nat :=
  [0x000, 0x001, 0x002, 0x003, 0x004] ++
  [0x400, 0x401, 0x402, 0x403, 0x404, 0x405, 0x406, 0x407, 0x408, 0x409] ++
  [0x820, 0x830, 0x831, 0x832, 0x833, 0x834, 0x835, 0x840, 0x841, 0x842, 0x843, 0x850, 0x851] ++
  [0x860, 0x861, 0x862, 0x863, 0x864, 0x865, 0x866, 0x867, 0x868, 0x869, 0x86A, 0x870, 0x871, 0x872] ++
  [0x880, 0x881, 0x882, 0x883, 0x884, 0x885] ++
  [0xC10, 0xC20, 0xC21, 0xC30, 0xC31, 0xC40, 0xC41, 0xC50, 0xC51, 0xC52] ++
  [0xC60, 0xC61, 0xC62, 0xC63, 0xC64, 0xC65, 0xC70, 0xC80, 0xC81]

/-- An index of core, die or module scope. -/
def cregShared (i : Nat) : Bool :=
  cregIndices.contains i && !([0x000, 0x001, 0x002, 0x003, 0x004, 0x402, 0x403, 0x404, 0x405, 0x406, 0x407, 0x861, 0x862,
    0x863, 0x864, 0xC20, 0xC21, 0xC60, 0xC61, 0xC62].contains i)

/-- An index that core control shows: one of core or module scope, not one of a die (R232). -/
def cregWindow (i : Nat) : Bool :=
  cregShared i && !([0x409, 0x850, 0x851, 0x870, 0x871, 0x872, 0xC50, 0xC51, 0xC52, 0xC70].contains i)

/-- An unassigned or read-only index (R368). -/
def indexTrap (i : Nat) : Trap := { cause := 0x24, info := BitVec.ofNat 64 (6 + 2 ^ 16 * i) }

/-- The access checks of R25, in the order of R116. -/
def cregCheck (i : Nat) (write task : Bool) : Option Trap :=
  if ¬ cregIndices.contains i then some (indexTrap i)
  else if i.testBit 11 ∧ task then some (privTrap i)
  else if write ∧ i.testBit 10 then some (indexTrap i)
  else none

/-! ### What an index reads -/

/-- The core whose table holds the log that a core's ELOG.SEL selects: the arrays 8 and 9 are those of the die. -/
def Core.elogHome (x : Core) (c : Nat) : Nat :=
  let k := x.cregs.elogSel.toNat % 16
  if k = 8 ∨ k = 9 then c / 64 * 64 else c

/-- The error log that ELOG.SEL selects; codes 11 to 15 read zeros (R383). -/
def State.elogSel (s : State) (c : Nat) : Elog :=
  let k := (s.core c).cregs.elogSel.toNat % 16
  if k ≤ 10 then Tab.get {} (s.core ((s.core c).elogHome c)).elog k else {}

/-- The card runs an XFORM: its own command, or the chain entry that it has reached (R300). -/
def Card.xforms (k : Card) : Bool :=
  k.started && k.status == none && (k.cmd.headD 0 % 16 == 7 || (k.moving && k.cur.headD 0 % 16 == 7))

/-- CPEn.RSTAT (R308). -/
def Engine.rstat (g : Engine) : Word :=
  let n := (g.cards.filter fun k => k.xforms && k.copy != g.gen).length
  BitVec.ofNat 64 (n * 2 ^ 16 + (if g.loading then 2 else 0) + (if g.gen then 1 else 0))

/-- The collective engine of a die. -/
def State.cle (s : State) (die : Nat) : Cle := Tab.get {} s.cles die

def State.setCle (s : State) (die : Nat) (x : Cle) : State := { s with cles := Tab.set {} s.cles die x }

def State.modCle (s : State) (die : Nat) (f : Cle → Cle) : State := s.setCle die (f (s.cle die))

/-- CLE.TSTAT's code of a thread (R346). -/
def LSt.code : LSt → Nat
  | .idle => 0
  | .ready => 1
  | .waitCtr .. => 2
  | .waitFlag _ => 2
  | .faulted => 2
  | .ending _ => 3

def Cle.tstat (x : Cle) : Word :=
  BitVec.ofNat 64 (packN 4 ((List.range 8).map fun k =>
    let t := Tab.get {} x.threads k
    if t.st = .ready ∧ t.held then 2 else t.st.code))

/-- A port. -/
def State.port (s : State) (p : Nat) : Port := Tab.get {} s.ports p

def State.modPort (s : State) (p : Nat) (f : Port → Port) : State := { s with ports := Tab.set {} s.ports p (f (s.port p)) }

def PortSt.code : PortSt → Nat
  | .up => 0 | .restripe => 1 | .retrain => 2 | .down => 3

/-- LINK.STAT (R397). -/
def Port.stat (p : Port) : Word :=
  BitVec.ofNat 64 (packFields [16, 3, 1, 12, 32] [p.mask, p.st.code, bit p.tbad, 0, p.resent])

/-- The port that LINK.SEL chooses. -/
def Core.linkPort (x : Core) : Nat := x.cregs.linkSel.toNat % 32

/-- The registers of core, die and module scope. -/
def State.sharedCreg (s : State) (c idx : Nat) : Word :=
  let x := s.core c
  let g := s.ring (c / 64)
  let l := s.cle (c / 64)
  let w (n : Nat) : Word := BitVec.ofNat 64 n
  match idx with
  | 0x400 => w x.cycle
  | 0x401 => w c
  | 0x408 => w (x.cpe1.cards.length % 64 * 2 ^ 8 + x.cpe0.cards.length % 64)
  | 0x409 => w (l.startQ.length % 64)
  | 0x820 => (s.mod.rampNext.map (·.1)).getD s.mod.rampStep
  | 0x830 => s.mod.muCtxtab
  | 0x831 => s.mod.sweepCtl
  | 0x832 => s.mod.sweepQbase
  | 0x833 => s.mod.sweepHead
  | 0x834 => s.mod.migQbase
  | 0x835 => s.mod.migTail
  | 0x840 => x.cregs.cpeDraw0
  | 0x841 => x.cregs.cpeDraw1
  | 0x842 => x.cregs.cpeRload0
  | 0x843 => x.cregs.cpeRload1
  | 0x850 => l.arb
  | 0x860 => x.cregs.tvb
  | 0x865 => x.cregs.wdog
  | 0x866 => x.cregs.csaBase
  | 0x867 => x.cregs.elogSel
  | 0x868 => x.cregs.einjCtl
  | 0x869 => x.cregs.einjAddr
  | 0x86A => w ((s.elogSel c).uncorrectable * 2 ^ 32 + (s.elogSel c).corrected)
  | 0x870 => g.base
  | 0x871 => w g.head
  | 0x880 => x.cregs.linkSel
  | 0x881 => w ((s.port x.linkPort).permit * 2 ^ 16)
  | 0x882 => (s.port x.linkPort).slotBase
  | 0x883 => s.links.levBase
  | 0x884 => w s.links.levHead
  | 0x885 => s.links.levEvt
  | 0xC10 => x.cregs.accPart
  | 0xC30 => s.mod.sweepTail
  | 0xC31 => s.mod.migHead
  | 0xC40 => x.cpe0.rstat
  | 0xC41 => x.cpe1.rstat
  | 0xC50 => w l.stale
  | 0xC51 => l.tstat
  | 0xC52 => w (l.drops % 2 ^ 32 * 2 ^ 32 + bit l.dropSat * 2 ^ 16 + l.dropTile % 4096)
  | 0xC63 => w (s.elogSel c).addr
  | 0xC64 => w (s.elogSel c).syn
  | 0xC65 => w (s.elogSel c).ctx
  | 0xC70 => w g.tail
  | 0xC80 => (s.port x.linkPort).stat
  | 0xC81 => w s.links.levTail
  | _ => 0

/-- A control register as bank `b` of core `c` reads it. -/
def State.getCreg (s : State) (c b idx : Nat) : Word :=
  let y := s.bankAt c b
  let k := y.cregs
  match idx with
  | 0x000 => k.cctl
  | 0x001 => k.cstat
  | 0x002 => k.tol
  | 0x003 => k.seed
  | 0x004 => k.draw
  | 0x402 => k.ctxid
  | 0x403 => k.workId
  | 0x404 => k.workShape
  | 0x405 => k.launchTrec
  | 0x406 => k.taskPrio
  | 0x407 => y.regionPend
  | 0x861 => k.trapPc
  | 0x862 => k.trapScr0
  | 0x863 => k.trapScr1
  | 0x864 => k.trapAct
  | 0xC20 => k.muFva
  | 0xC21 => k.muFinfo
  | 0xC60 => k.trapCause
  | 0xC61 => k.trapInfo
  | 0xC62 => k.trapLatch
  | i => s.sharedCreg c i

/-! ### Writes that a register's own entry refuses -/

/-- An XFORM runs on the copy of the routine store that a load would overwrite (R308). -/
def Engine.copyBusy (g : Engine) : Bool :=
  g.cards.any fun k => k.xforms && k.copy != g.gen

/-- A SETC of this index with this value is refused with illegal operand (R27, R253, R308, R384, R397). -/
def State.cregRefused (s : State) (c idx : Nat) (v : Word) : Bool :=
  let n := v.toNat
  match idx with
  | 0x000 => bitsN n 8 7 == 0 || decide (64 < bitsN n 8 7)
  | 0x831 => decide (bitsN n 28 20 < bitsN n 8 20)
  | 0x842 => n.testBit 0 && ((s.core c).cpe0.loading || (s.core c).cpe0.copyBusy)
  | 0x843 => n.testBit 0 && ((s.core c).cpe1.loading || (s.core c).cpe1.copyBusy)
  | 0x868 => bitsN n 2 2 == 3 || decide (10 < bitsN n 4 4)
  | 0x882 => decide (15 < (s.core c).linkPort)
  | _ => false

/-! ### The instructions (R116 to R120) -/

/-- A value written to a scalar register one cycle after issue, unless a check fails. -/
def sysRead (rd : List RegOp) (d : Nat) (v : Word) (bad : Option Trap) : Plan := regPlan rd [(.s, d, 0)] 1 [.s d v] bad

def planGetc (d idx : Nat) (s : State) : Plan :=
  sysRead [] d (s.getCreg s.cf s.bf idx) (cregCheck idx false (!s.bk.monitor))

def execGetc (h : Hdr) (d idx : Nat) (s : State) := runSyllable h 1 (planGetc d idx) s

def planGetcx (d a : Nat) (s : State) : Plan :=
  let v := (s.rg.rs a).toNat
  sysRead [(.s, a, 1)] d (s.getCreg s.cf s.bf (v % 4096))
    (if 4096 ≤ v then some (illegalOp 1) else cregCheck v false (!s.bk.monitor))

def execGetcx (h : Hdr) (d a : Nat) (s : State) := runSyllable h 1 (planGetcx d a) s

/-- SETC: the write takes effect from the next bundle; one of CCTL restarts the address stream (R47). -/
def planSetc (a idx : Nat) (s : State) : Plan :=
  let v := s.rg.rs a
  let bad := match cregCheck idx true (!s.bk.monitor) with
    | some t => some t
    | none => if s.cregRefused s.cf idx v then some (illegalOp 1) else none
  { regPlan [(.s, a, 1)] [] 1 [.creg idx v] bad with
    eff := fun _ u => if idx = 0 then u.modCore u.cf fun x => { x with spec := [], specPc := none } else u }

def execSetc (h : Hdr) (a idx : Nat) (s : State) := runSyllable h 1 (planSetc a idx) s

/-- Rows of the accumulator store that are marked free and hold no parked register. -/
def Core.freeRows (x : Core) : Nat := (x.accFree.filter fun e => e.2 && !x.rowParked e.1).length

/-- Slabs as SLABQ counts them: those taken by operations in flight are still free. -/
def Core.freeSlabCount (x : Core) : Nat := slabCount - (x.slabUse.filter fun e => e.2 == 1).length

/-- The parking map. -/
def Bank.parkMap (b : Bank) : Word :=
  BitVec.ofNat 64 (packN 1 ((List.range 64).map fun k => if Tab.get .none b.parked k = .none then 0 else 1))

def planSlabq (d sel : Nat) (s : State) : Plan :=
  let x := s.core s.cf
  let v : Word := match sel with
    | 0 => BitVec.ofNat 64 x.freeSlabCount
    | 1 => BitVec.ofNat 64 x.freeRows
    | _ => s.bk.parkMap
  sysRead [] d v (if 2 < sel then some (illegalOp 6) else none)

def execSlabq (h : Hdr) (d sel : Nat) (s : State) := runSyllable h 1 (planSlabq d sel) s

/-- MUINV (R118): entries leave the translation cache from the next bundle on. DEDUCED, log 107: the address of mode 0 is taken
modulo 2^55. -/
def planMuinv (a mode : Nat) (s : State) : Plan :=
  let v := (s.rg.rs a).toNat
  let bad := firstTrap [(!s.bk.monitor, privTrap 0xFFF), (mode == 1 && decide (2 ^ 16 ≤ v), illegalOp 1),
    (decide (2 < mode), illegalOp 6)]
  regPlan [(.s, a, 1)] [] 1 [.muinv mode (if mode = 1 then v else s.bk.cregs.ctxid.toNat) (v % 2 ^ 55)] bad

def execMuinv (h : Hdr) (a mode : Nat) (s : State) := runSyllable h 1 (planMuinv a mode) s

def planSeed (a : Nat) (imm : BitVec 32) (s : State) : Plan :=
  regPlan [(.s, a, 1)] [] 1 [.creg 3 (s.rg.rs a), .creg 4 (imm.setWidth 64)]

def execSeed (h : Hdr) (a : Nat) (imm : BitVec 32) (s : State) := runSyllable h 1 (planSeed a imm) s

/-- RAMPQ (R120). -/
def planRampq (d : Nat) (s : State) : Plan :=
  let x := s.core s.cf
  let allow := match s.rampAllow s.cf with
    | some n => n - x.rampCount
    | none => 0xFFFF
  sysRead [] d (BitVec.ofNat 64 (x.rampIns % 2 ^ 32 * 2 ^ 32 + allow % 2 ^ 16)) none

def execRampq (h : Hdr) (d : Nat) (s : State) := runSyllable h 1 (planRampq d) s

end Sys2Proof.Machine
end

