-- ==== Sys2Proof/Machine/Homes.lean ====
section
/-!
DEFINITION. What several agents share: the delivery of tokens and of other results to a task wherever it is (R285, R374),
front-end events, the steps of event counters (R330, R331), the tile table and the tile-flag window (R339 to R341), what a
home reads and writes (R249, R259), and the pieces in which engines move bytes (R278, R286, R323, R344).
-/

namespace Sys2Proof.Machine

open Sys2Proof

/-! ### Operations of a task that is resident or saved -/

/-- The operation with a number completes with these results, in the bank that holds it or in a saved context; dropped
when no bank does (R285). -/
def State.varDone (s : State) (c id : Nat) (f : VarOp → VarOp) : State :=
  let go (b : Nat) (u : State) : State :=
    match (u.bankAt c b).varOp id with
    | some v => u.completeVar c b (f v)
    | none => u
  if ((s.bankAt c 0).varOp id).isSome then go 0 s
  else if ((s.bankAt c 1).varOp id).isSome then go 1 s
  else
    match (s.core c).saved.find? fun w => (w.bank.varOp id).isSome with
    | some w => s.asResident c w (go w.bankNo)
    | none => s

/-- A token is written and its entry cleared (R284, R285). -/
def State.token (s : State) (c id reg : Nat) (status : Word) : State :=
  s.varDone c id fun v => { v with writes := some [.s reg status] }

/-! ### Front-end events (R222) -/

/-- An event counter of the front end is raised, modulo 2^32. -/
def State.signal (s : State) (ev n : Nat) : State :=
  { s with events := Tab.set 0 s.events (ev % 256) ((Tab.get 0 s.events (ev % 256) + n) % 2 ^ 32) }

def State.feQueue (s : State) (q : Nat) : FeQueue := Tab.get {} s.queues q

def State.modFe (s : State) (q : Nat) (f : FeQueue → FeQueue) : State := { s with queues := Tab.set {} s.queues q (f (s.feQueue q)) }

/-- An entry leaves the queue's list of started entries and signals its event when it asks (R222, R402). -/
def State.feEnd (s : State) (q n : Nat) : State :=
  match (s.feQueue q).entries.find? fun e => e.n == n with
  | none => s
  | some e =>
    let s1 := s.modFe q fun x => { x with entries := x.entries.filter fun d => d.n != n }
    if e.dsig then (s1.signal e.dev 1).interrupt (3 + q) else s1

/-- A HALTQ that has started completes once every entry before it has (R223). -/
def State.feHalt (s : State) (q : Nat) : State :=
  match (s.feQueue q).entries with
  | [e] => if e.typ = 5 then s.feEnd q e.n else s
  | _ => s

/-- A started entry of a launch queue completes. -/
def State.feDone (s : State) (q n : Nat) : State := (s.feEnd q n).feHalt q

/-! ### Event counters (R330, R331) -/

def Cle.thread (x : Cle) (t : Nat) : LThread := Tab.get {} x.threads t

def Cle.setThread (x : Cle) (t : Nat) (y : LThread) : Cle := { x with threads := Tab.set {} x.threads t y }

def Cle.modThread (x : Cle) (t : Nat) (f : LThread → LThread) : Cle := x.setThread t (f (x.thread t))

def Cle.counter (x : Cle) (k : Nat) : Nat := Tab.get 0 x.counters k

/-- The threads whose armed WAITs a counter at `v` satisfies: threshold, order of arming, thread. -/
def Cle.fires (x : Cle) (k v : Nat) : List (Nat × Nat × Nat) :=
  (List.range 8).filterMap fun t =>
    match (x.thread t).st with
    | .waitCtr c thr o => if c = k ∧ thr ≤ v then some (thr, o, t) else none
    | _ => none

/-- Inserted by threshold, then by order of arming. -/
def insertFire (e : Nat × Nat × Nat) : List (Nat × Nat × Nat) → List (Nat × Nat × Nat)
  | [] => [e]
  | f :: l => if e.1 < f.1 ∨ (e.1 = f.1 ∧ e.2.1 ≤ f.2.1) then e :: f :: l else f :: insertFire e l

/-- A step moves a counter to a value: the armed WAITs it satisfies fire, lowest threshold first (R331). -/
def Cle.stepTo (x : Cle) (k v : Nat) : Cle :=
  let l := (x.fires k v).foldr insertFire []
  let y := l.foldl (fun z e => z.modThread e.2.2 fun h => { h with st := .ready }) x
  { y with counters := Tab.set 0 y.counters k v, fired := y.fired ++ l.map (·.2.2) }

/-- An addition, modulo 2^32. -/
def Cle.addTo (x : Cle) (k n : Nat) : Cle := x.stepTo k ((x.counter k + n) % 2 ^ 32)

/-- The additions offered are applied, one at a time, in order. -/
def Cle.drainAdds (x : Cle) : Cle := x.adds.foldl (fun z e => z.addTo e.1 e.2) { x with adds := [] }

/-! ### Groups and tile entries (R324, R339) -/

/-- The group of a slot. -/
def Cle.group (x : Cle) (gs : Nat) : Option Group := Tab.get none x.groups gs

/-- The member that an offset names. -/
def Group.member (g : Group) (peer : Nat) : Nat := (g.self + peer) % g.members.length

/-- Fields of a tile entry. -/
def tileLaddr (e : Nat) : Nat := bitsN e 0 55
def tileRaddr (e : Nat) : Nat := bitsN e 64 55
def tileLen (e : Nat) : Nat := bitsN e 128 32
def tileGs (e : Nat) : Nat := bitsN e 160 6
def tilePeer (e : Nat) : Nat := bitsN e 168 8
def tileRop (e : Nat) : Nat := bitsN e 176 2
def tileRfmt (e : Nat) : Nat := bitsN e 178 2
def tileCb (e : Nat) : Bool := e.testBit 180
def tileAuto (e : Nat) : Bool := e.testBit 181
def tileV (e : Nat) : Bool := e.testBit 182
def tileLctr (e : Nat) : Nat := bitsN e 184 8
def tileRctr (e : Nat) : Nat := bitsN e 192 8
def tileClamp (e : Nat) : Nat := bitsN e 208 16

/-- The clamp limit of a reduction format; none for INT32 (R317). -/
def redLimit : Nat → Option Nat
  | 0 => some 128
  | 1 => some 32768
  | _ => none

/-- The reduction that a tile entry names. -/
def tileRed (e : Nat) : RedOp :=
  { rop := tileRop e, rfmt := tileRfmt e, clamp := if tileCb e then some (tileClamp e) else none }

def Cle.tile (x : Cle) (i : Nat) : Nat := (Tab.get 0 x.tiles i).toNat

/-- A word of the entry holds an uncorrectable error. -/
def Cle.entryBad (x : Cle) (i : Nat) : Bool := (List.range 4).any fun k => Tab.get false x.tileBad (4 * i + k)

/-- V of an entry is cleared: it cannot be read (R379). -/
def Cle.clearV (x : Cle) (i : Nat) : Cle :=
  let e := x.tile i
  { x with tiles := Tab.set 0 x.tiles i (BitVec.ofNat 256 (if tileV e then e - 2 ^ 182 else e)) }

/-- The fields of the entry are those of a usable one (R339). -/
def Cle.fieldsUsable (x : Cle) (i : Nat) : Bool :=
  let e := x.tile i
  tileV e && tileRfmt e != 3 && decide (64 ≤ tileLen e ∧ tileLen e ≤ 4194304 ∧ tileLen e % 64 = 0) &&
  (match redLimit (tileRfmt e) with
   | some l => decide (tileClamp e ≤ l)
   | none => true)

/-- The entry is usable: its slot is joined as well (R339). -/
def Cle.usable (x : Cle) (i : Nat) : Bool := x.fieldsUsable i && (x.group (tileGs (x.tile i))).isSome

/-- The task's store that last set flag `i`, if it was one. -/
def Cle.flagSince (x : Cle) (i : Nat) : List Since := (Tab.get none x.flagBy i).toList

/-- A flag takes a value, stored by a task or by another agent. -/
def Cle.setFlag (x : Cle) (i : Nat) (v : Word) (by_ : Option Since) : Cle :=
  { x with flags := Tab.set 0 x.flags i v, flagBy := Tab.set none x.flagBy i by_ }

/-- An operation starts. -/
def Cle.addOp (x : Cle) (o : LOp) : Cle := { x with ops := x.ops ++ [{ o with id := x.opNext }], opNext := x.opNext + 1 }

/-- A fire of entry `i` starts, ordered behind what `since` gives: its flag clears (R341, R342). -/
def Cle.startFire (x : Cle) (i : Nat) (thread : Option Nat) (since : List Since) : Cle :=
  let e := x.tile i
  match x.group (tileGs e) with
  | none => x
  | some g =>
    (x.setFlag i 0 none).addOp {
      id := 0, thread := thread, kind := .fire, ctx := g.ctx, gs := tileGs e, peer := g.member (tilePeer e), since := since
      src := { addr := BitVec.ofNat 64 (tileLaddr e), rlen := tileLen e, nrow := 1 }
      ctr := tileLctr e, cn := true, red := tileRed e, tile := i }

/-- A fire of entry `i` is still reading. -/
def Cle.reading (x : Cle) (i : Nat) : Bool := x.ops.any fun o => o.kind == .fire && o.tile == i && !o.readDone

/-- Operations in flight that count against the limits of R314. -/
def Cle.inFlight (x : Cle) : Nat := (x.ops.filter fun o => o.kind != .land).length

/-- An automatic fire of entry `i` that cannot start is dropped, and its flag is left set; an entry that cannot be read loses
its V (R341, R379). -/
def Cle.dropFire (x : Cle) (i : Nat) (v : Word) (by_ : Option Since) : Cle :=
  let y := if x.entryBad i then x.clearV i else x
  { y.setFlag i v by_ with drops := (x.drops + 1) % 2 ^ 32, dropTile := i }

/-- A store of a value to flag `i` (R340, R341). -/
def Cle.storeFlag (x : Cle) (i : Nat) (v : Word) (by_ : Option Since) : Cle :=
  if v = 0 ∨ ¬ tileAuto (x.tile i) then x.setFlag i v by_
  else if x.entryBad i ∨ ¬ x.usable i then x.dropFire i v by_
  else if x.reading i ∨ 64 ≤ x.inFlight then { x with again := Tab.set 0 x.again i v, againBy := Tab.set none x.againBy i by_ }
  else x.startFire i none by_.toList

/-- Flag writes by tasks and engines; a TWAIT on a flag that holds a value is released (R329). -/
def Cle.wakeFlags (x : Cle) : Cle :=
  (List.range 8).foldl (fun z t =>
    match (z.thread t).st with
    | .waitFlag i =>
      if Tab.get 0 z.flags i ≠ 0 then z.modThread t fun h => { h with st := .ready, since := h.since ++ z.flagSince i } else z
    | _ => z) x

/-! ### The tile-flag window (R340) -/

/-- The die and offset of an address of the window. -/
def tileWin (a : Nat) : Option (Nat × Nat) :=
  let o := a % 0x100000000
  if 0xF000000000000 ≤ a ∧ a < 0xF000800000000 ∧ 0x50000000 ≤ o ∧ o < 0x50010000 then
    some ((a - 0xF000000000000) / 0x100000000, o - 0x50000000)
  else none

/-- One byte of the window. -/
def Cle.winByte (x : Cle) (off : Nat) : Byte :=
  if off < 0x8000 then BitVec.ofNat 8 ((Tab.get 0 x.flags (off / 8)).toNat / 2 ^ (8 * (off % 8)))
  else if off < 0x8800 ∧ off % 8 < 4 then BitVec.ofNat 8 (x.counter ((off - 0x8000) / 8) / 2 ^ (8 * (off % 8)))
  else 0

/-- The flags that a range reaches, each with its value once the bytes are written. -/
def Cle.newFlags (x : Cle) (off : Nat) (l : List Byte) : List (Nat × Word) :=
  let hi := min (off + l.length) 0x8000
  if hi ≤ off then []
  else (List.range ((hi + 7) / 8 - off / 8)).map fun k =>
    let i := off / 8 + k
    (i, BitVec.ofNat 64 (ofLeBytes ((List.range 8).map fun j =>
      let a := 8 * i + j
      if off ≤ a ∧ a < off + l.length then l.getD (a - off) 0 else x.winByte a)))

/-- A write to the window by a task, or by another agent: flags as memory, other offsets ignored. -/
def Cle.winWrite (x : Cle) (off : Nat) (l : List Byte) (by_ : Option Since) : Cle :=
  ((x.newFlags off l).foldl (fun z e => z.storeFlag e.1 e.2 by_) x).wakeFlags

/-- The counter at whose slot's start a 4-byte AMO lies (R340). -/
def counterAt (a n : Nat) : Option (Nat × Nat) :=
  match tileWin a with
  | some (die, off) => if 0x8000 ≤ off ∧ off < 0x8800 ∧ off % 8 = 0 ∧ n = 4 then some (die, (off - 0x8000) / 8) else none
  | none => none

/-! ### Homes (R249, R258, R259) -/

/-- `n` bytes as their home reads them. -/
def State.homeLoad (s : State) (a n : Nat) : List Byte :=
  match tileWin a with
  | some (die, off) => (List.range n).map fun k => (s.cle die).winByte (off + k)
  | none => s.homeBytes a n

/-- The error event of one automatic fire that was dropped (R341). -/
def State.tileError (s : State) (die : Nat) : State := s.notify [0x15#8, BitVec.ofNat 8 die]

/-- The record of a tile entry that could not be read at an automatic fire (R378, R379); the table has no physical address. -/
def State.tileLost (s : State) (die : Nat) : State :=
  s.pushFlt die { kind := 4, info := reportInfo, ctx := 0, addr := reportAddr, core := die * 64, unit := 6 } .none

/-- The reports of the automatic fires that a change of an engine dropped: an error event for each, and a record for each
of the tiles whose entry could not be read. -/
def State.dropsSince (s : State) (die : Nat) (old : Cle) (lost : List Nat) : State :=
  let n := ((s.cle die).drops + 2 ^ 32 - old.drops) % 2 ^ 32
  lost.foldl (fun u _ => u.tileLost die) ((List.range n).foldl (fun u _ => u.tileError die) s)

/-- Entry `i` of a die's tile table is read: a single-bit error is corrected, an uncorrectable one stays in its word (R353, R384). -/
def State.tileRead (s : State) (die i ctx : Nat) : State :=
  match s.readArray (64 * die) 9 (32 * i) 32 ctx with
  | (u, some (off, true)) => u.modCle die fun x => { x with tileBad := Tab.set false x.tileBad (off / 8) true }
  | (u, _) => u

/-- Bytes as their home writes them, by a task's store or by another agent; an automatic fire that is dropped is an error
event (R341). -/
def State.homeStore (s : State) (a : Nat) (l : List Byte) (by_ : Option Since := none) : State :=
  match tileWin a with
  | some (die, off) =>
    let s := ((s.cle die).newFlags off l).foldl (fun u e => if e.2 = 0 then u else u.tileRead die e.1 0) s
    let x := s.cle die
    (s.modCle die fun x => x.winWrite off l by_).dropsSince die x
      (((x.newFlags off l).filter fun e => e.2 != 0 && tileAuto (x.tile e.1) && x.entryBad e.1).map (·.1))
  | none => (s.putHome a l).touchFrames a l.length

/-! ### Packets between modules (R386, R409) -/

/-- The flits of a packet: one that starts it, and its bytes in groups of 32. -/
def OutPacket.flits (p : OutPacket) : Nat := 1 + (p.bytes.length + 31) / 32

/-- CRC-24 of a list of bytes, bit 7 of each first. -/
def crc24 (l : List Byte) : Nat :=
  l.foldl (fun c b => (List.range 8).foldl (fun c _ => if c.testBit 23 then (2 * c % 2 ^ 24) ^^^ 0x864CFB else 2 * c) (c ^^^ (b.toNat * 2 ^ 16)))
    0xB704CE

/-- The bytes that a flit's CRC covers: its payload, then its header's bits [63:24] from the top. -/
def crcBytes (payload : List Byte) (header : Nat) : List Byte := payload ++ ((leBytes 8 header).drop 3).reverse

/-- A flit with its header and CRC. -/
def mkFlit (seq ack typ cls : Nat) (payload : List Byte) : Flit :=
  let h := packFields [24, 2, 2, 4, 16, 16] [0, 0, cls, typ, ack, seq]
  BitVec.ofNat 320 (h + crc24 (crcBytes payload h) + 2 ^ 64 * ofLeBytes payload)

/-- The payloads of a packet with their types: the fields of R409, then the bytes. -/
def OutPacket.payloads (p : OutPacket) (src : Nat) : List (Nat × List Byte) :=
  (2, leBytes 8 p.addr ++ leBytes 2 p.bytes.length ++ leBytes 3 src ++ leBytes 1 p.cls ++ leBytes 2 p.ctx ++ leBytes 16 0) ::
  (List.range ((p.bytes.length + 31) / 32)).map fun k => (1, leBytes 32 (ofLeBytes ((p.bytes.drop (32 * k)).take 32)))

/-- Wavelengths of a mask. -/
def popMask (m : Nat) : Nat := ((List.range 16).filter fun k => m.testBit k).length

/-- The active wavelength that carries byte `n` of a stream: that of position n mod A in ascending order (R387). -/
def laneOf (mask n : Nat) : Nat := ((List.range 16).filter fun k => mask.testBit k).getD (n % popMask mask) 0

/-- A flit goes on the transmit stream over the wavelengths of a mask; with a byte on a dark one it is lost (R387, R390). -/
def Port.putStream (p : Port) (mask : Nat) : Port :=
  let lost := p.dark &&& mask != 0 && (List.range 40).any fun k => p.dark.testBit (laneOf mask (p.stream + k))
  { p with stream := p.stream + 40, darkFlits := p.darkFlits + if lost then 1 else 0 }

/-- A data flit takes the next SEQ and is kept until it is acknowledged. -/
def Port.putFlit (p : Port) (cls ns : Nat) (t : Nat × List Byte) : Port :=
  { p.putStream p.mask with
    replay := p.replay ++ [mkFlit p.txSeq p.rxSeq t.1 cls t.2], txSeq := (p.txSeq + 1) % 2 ^ 16
    ackNs := if p.replay = [] then ns else p.ackNs }

/-- Flits of the other port of the direction are sent first, while there is room for them (R388, R391). DEDUCED, log 149. -/
def Port.sendTaken (p : Port) (ns : Nat) : Port :=
  if p.st ≠ .up then p
  else
    let n := 4096 - p.replay.length
    { (p.taken.take n).foldl (fun r t => r.putFlit t.1 ns t.2) p with taken := p.taken.drop n }

/-- The engine family that sends next of a die in a class, with the shares left (R347): 1 collective, 2 copy; `one` and `two`
are the bytes that each has ready to send next, 0 none. -/
def nextFamily (share : Tab Nat) (arb : Word) (group cls one two : Nat) : Nat × Tab Nat :=
  let w (f : Nat) : Nat := bitsN arb.toNat (8 * cls + (if f = 1 then 32 else 0)) 8
  let w1 := if w 1 = 0 ∧ w 2 = 0 then 1 else w 1
  let w2 := if w 1 = 0 ∧ w 2 = 0 then 1 else w 2
  let key (f : Nat) : Nat := group * 16 + cls * 4 + f
  if two = 0 then (1, share)
  else if one = 0 then (2, share)
  else if w1 = 0 then (2, share)
  else if w2 = 0 then (1, share)
  else
    let left (t : Tab Nat) (f : Nat) : Nat := Tab.get 0 t (key f)
    let t := if left share 1 < one ∧ left share 2 < two then
        Tab.set 0 (Tab.set 0 share (key 1) (left share 1 + 256 * w1)) (key 2) (left share 2 + 256 * w2)
      else share
    let f := if one ≤ left t 1 then 1 else 2
    (f, Tab.set 0 t (key f) (left t f - (if f = 1 then one else two)))

/-- What one die has been served of a class beyond the others, in 64-byte units, and the die after the one served last: their
places in a port's shares. -/
def dieKey (cls d : Nat) : Nat := 1000 + 8 * cls + d
def dieNext (cls : Nat) : Nat := 2000 + cls

/-- The die that is served next in a class among those with engine data ready, round-robin in 64-byte units (R347): the one
that has been served least, the one after the last first. -/
def nextDie (share : Tab Nat) (cls : Nat) (ready : Nat → Bool) : Option (Nat × Tab Nat) :=
  let ds := ((List.range 8).map fun k => (Tab.get 0 share (dieNext cls) + k) % 8).filter ready
  let least := ds.foldl (fun m d => min m (Tab.get 0 share (dieKey cls d))) (2 ^ 64)
  (ds.find? fun d => Tab.get 0 share (dieKey cls d) == least).map fun d =>
    let even := (List.range 8).foldl (fun t k =>
      Tab.set 0 t (dieKey cls k) (if ready k then Tab.get 0 t (dieKey cls k) - least else 0)) share
    (d, Tab.set 0 even (dieNext cls) (d + 1))

/-- The 64-byte units of a packet. -/
def OutPacket.size (q : OutPacket) : Nat := if q.units = 0 then max 1 ((q.bytes.length + 63) / 64) else q.units

/-- The place of the packet that goes next among those that wait for a port and have credit (R347, R399): lowest class first, other
requesters' oldest first, then the dies, and of a die the family that its shares give. -/
def choosePacket (share : Tab Nat) (arbs : Nat → Word) (may : OutPacket → Bool) (l : List OutPacket) : Option (Nat × Tab Nat) :=
  ((List.range 4).find? fun c => l.any fun q => may q && q.cls == c).bind fun c =>
    let of (d f : Nat) (q : OutPacket) : Bool := may q && q.cls == c && q.group == d && q.family == f
    match l.findIdx? fun q => may q && q.cls == c && q.family == 0 with
    | some i => some (i, share)
    | none =>
      (nextDie share c fun d => l.any fun q => of d 1 q || of d 2 q).bind fun e =>
        let head (f : Nat) : Nat := match l.find? (of e.1 f) with
          | some q => 64 * q.size
          | none => 0
        let r := nextFamily e.2 (arbs e.1) e.1 c (head 1) (head 2)
        (l.findIdx? (of e.1 r.1)).map fun i =>
          (i, Tab.set 0 r.2 (dieKey c e.1) (Tab.get 0 r.2 (dieKey c e.1) + head r.1 / 64))

/-- A packet without a place in a list. -/
def noPacket : OutPacket := { dst := 0, addr := 0, cls := 0, ctx := 0, bytes := [] }

/-- The next agent on the port has room for the packet's class on its virtual channel (R399). -/
def Port.credited (p : Port) (q : OutPacket) : Bool := !p.noCredit.contains (q.cls, q.vc)

/-- The port carries data and its replay buffer has room for the packet (R388); a packet between collective engines has no flits of
its own here. -/
def Port.roomFor (p : Port) (q : OutPacket) : Bool := p.st == .up && (q.units != 0 || decide (p.replay.length + q.flits ≤ 4096))

/-- A packet goes on the link. -/
def Port.launch (p : Port) (q : OutPacket) (src ns : Nat) : Port :=
  if q.units = 0 then (q.payloads src).foldl (fun r t => r.putFlit q.cls ns t) p else p

/-- Up to `n` packets that wait go on the link while it is UP and the replay buffer has room for them, in the order of R347; those
sent are listed. -/
def Port.pump (p : Port) (arbs : Nat → Word) (src ns : Nat) : Nat → Port × List OutPacket
  | 0 => (p, [])
  | f + 1 =>
    match choosePacket p.share arbs p.credited p.txQ with
    | none => (p, [])
    | some (i, sh) =>
      let q := p.txQ.getD i noPacket
      if p.taken ≠ [] ∨ ¬ p.roomFor q then (p, [])
      else
        let r := (({ p with txQ := p.txQ.eraseIdx i, share := sh } : Port).launch q src ns).pump arbs src ns f
        (r.1, q :: r.2)

/-- Up to `n` packets enter the send queues of the circuit ports, in the order of R347 (R400). -/
def Port.enter (p : Port) (arbs : Nat → Word) : Nat → Port
  | 0 => p
  | f + 1 =>
    match choosePacket p.share arbs (fun _ => true) p.entryQ with
    | none => p
    | some (i, sh) =>
      ({ p with entryQ := p.entryQ.eraseIdx i, share := sh, sendQ := p.sendQ ++ [p.entryQ.getD i noPacket] } : Port).enter arbs f

/-- The pieces that one event moves: all, or as many as the pace allows. -/
def State.pieces (s : State) (all : Nat) : Nat :=
  match s.pace with
  | none => all
  | some n => min n all

/-- Packets have left: those of remote writes await their acknowledgement, those of collective engines are on their way. -/
def State.sent (s : State) (l : List OutPacket) : State :=
  { s with
    awaiting := s.awaiting ++ l.filter fun q => q.bytes != []
    net := s.net ++ l.filterMap fun q => q.body.map fun b => (q.dst, b.1, q.cls, b.2) }

/-- The payload bytes that a packet takes of a connection. -/
def OutPacket.load (q : OutPacket) : Nat := if q.units = 0 then 32 * q.flits else 64 * q.units

/-- Up to `n` packets of the send queue of a connection's module leave, first in first out, while the connection lasts and carries
them (R400). -/
def State.circuitGo (s : State) (p : Nat) : Nat → State
  | 0 => s
  | f + 1 =>
    let x := s.port p
    match x.conn with
    | none => s
    | some (dest, room, till) =>
      match (s.port 28).sendQ.find? fun q => q.dst == dest with
      | none => s
      | some q =>
        if till ≤ s.ns ∨ room < q.load ∨ ¬ x.credited q ∨ ¬ x.roomFor q then s
        else
          let s1 := s.modPort 28 fun y => { y with sendQ := y.sendQ.erase q }
          ((s1.modPort p fun y => { y.launch q s.modn s.ns with conn := some (dest, room - q.load, till) }).sent [q]).circuitGo p f

/-- A port's waiting packets are sent; on the circuit ports those for the modules they are connected to. -/
def State.pump (s : State) (p : Nat) : State :=
  let arbs (d : Nat) : Word := (s.cle d).arb
  if p < 28 then
    let x := (s.port p).sendTaken s.ns
    let r := x.pump arbs s.modn s.ns (s.pieces x.txQ.length)
    (s.modPort p fun _ => r.1).sent r.2
  else
    let s1 := s.modPort 28 fun y => y.enter arbs (s.pieces y.entryQ.length)
    (List.range 4).foldl (fun u k => u.circuitGo (28 + k) (s.pieces (u.port 28).sendQ.length)) s1

/-- A packet takes its way: to the port of its route, or to the send queues of the circuit ports (R399, R400). -/
def State.post (s : State) (q : OutPacket) : State :=
  let p := s.route q.dst q.cls
  let q := { q with vc := portChannel s.modn p }
  (s.modPort p fun x => if p < 28 then { x with txQ := x.txQ ++ [q] } else { x with entryQ := x.entryQ ++ [q] }).pump p

/-- The packets that a job's bytes have become go on their way: those that nothing joins any more, or all of them (R409). -/
def State.flush (s : State) (j : JobKey) (all : Bool) : State :=
  let mine := s.out.filter fun q => q.of j
  let go := if all then mine else match mine.getLast? with
    | some q => if q.full then mine else mine.dropLast
    | none => []
  if go = [] then s
  else go.foldl (fun u q => u.post { q with family := if j.e = 2 then 1 else 2, group := j.c / 64 })
    { s with out := (s.out.filter fun q => !q.of j) ++ mine.drop go.length }

/-- A job has bytes on their way that have not been acknowledged (R272, R409). -/
def State.owes (s : State) (j : JobKey) : Bool :=
  let mine (q : OutPacket) : Bool := q.of j && q.bytes != []
  s.out.any mine || s.awaiting.any mine || s.ports.any fun p => p.2.txQ.any mine || p.2.entryQ.any mine || p.2.sendQ.any mine

/-- A packet between the collective engines of two dies: inside the module it is on its way; to another module it travels over
that route's port in pieces of 256 bytes (R324, R347, R399, R400). -/
def State.postPacket (s : State) (die mod d cls : Nat) (p : Packet) : State :=
  if mod = s.modn then { s with net := s.net ++ [(mod, d, cls, p)] }
  else
    let n := (p.bytes.length + 255) / 256 - 1
    let q : OutPacket := { noPacket with dst := mod, cls := cls, family := 1, group := die, units := 4 }
    ((List.range n).foldl (fun u _ => u.post q) s).post
      { q with units := max 1 ((p.bytes.length - 256 * n + 63) / 64), body := some (d, p) }

/-! ### Pieces that engines move -/

/-- Why an engine's piece does not move. -/
inductive MoveErr where
  /-- a page fault: virtual address, access code, fault code -/
  | fault (va acc kind : Nat)
  /-- a migration or a link answers -/
  | wait
  /-- uncorrectable data or a lost page: the physical address -/
  | abort (a : Nat)
  /-- an entry of the context's tables holds an uncorrectable error -/
  | table (a : Nat)
  /-- a gather or scatter index at its bound (R290) -/
  | range
  deriving DecidableEq, Repr

/-- A shaped operand: base, run length in bytes, counts and strides (R279, R321). -/
structure Shape where
  base : Nat
  run : Nat
  n1 : Nat := 1
  n2 : Nat := 1
  n3 : Nat := 1
  s1 : Nat := 0
  s2 : Nat := 0
  s3 : Nat := 0
  deriving DecidableEq, Repr

/-- The address of stream byte `b`, and the bytes left in its run. -/
def Shape.addr (p : Shape) (b : Nat) : Nat × Nat :=
  let r := b / p.run
  (p.base + r % p.n1 * p.s1 + r / p.n1 % p.n2 * p.s2 + r / p.n1 / p.n2 * p.s3 + b % p.run, p.run - b % p.run)

/-- Its bytes. -/
def Shape.total (p : Shape) : Nat := p.run * p.n1 * p.n2 * p.n3

/-- Its extent: the range from the lowest to the highest byte (R281). -/
def Shape.extent (p : Shape) : Nat := (p.n1 - 1) * p.s1 + (p.n2 - 1) * p.s2 + (p.n3 - 1) * p.s3 + p.run

/-- A chunk as a shape. -/
def Chunk.shape (k : Chunk) : Shape := { base := k.addr.toNat, run := k.rlen, n1 := k.nrow, s1 := k.rstr }

/-- A byte lies in one of its runs. -/
def Shape.covers (p : Shape) (a : Nat) : Bool :=
  (List.range p.n3).any fun i => (List.range p.n2).any fun j =>
    let b := p.base + i * p.s3 + j * p.s2
    decide (b ≤ a) && decide (a - b < min (p.n1 - 1) ((a - b) / p.s1) * p.s1 + p.run)

/-- What a job reads and writes when the two overlap (R283, R326): the job as in `LapByte`, and its operands; no operands when
they do not. -/
structure Lap where
  c : Nat := 0
  e : Nat := 0
  k : Nat := 0
  ins : List Shape := []
  outs : List Shape := []
  deriving DecidableEq, Repr

def Lap.covers (l : Lap) (a : Nat) : Bool := (l.ins.any fun p => p.covers a) && l.outs.any fun p => p.covers a

def LapByte.of (p : LapByte) (l : Lap) : Bool := p.c == l.c && p.e == l.e && p.k == l.k

/-- Bytes read from `addr`, which lies at `h`: each byte of an overlap that the job has written is its value before the job or
the one that the job has written; a byte that it has not written is as it stood. -/
def State.lapRead (s : State) (l : Lap) (addr h : Nat) (bytes : List Byte) : List Byte × State :=
  if l.outs = [] then (bytes, s)
  else
    let one (j : Nat) (b : Byte) : Byte :=
      if ¬ l.covers (addr + j) then b
      else
        match s.laps.find? fun p => p.of l && p.at_ == h + j with
        | some p => if lapOld (s.lapNext + j) then p.old else b
        | none => b
    (mapFrom one 0 bytes, { s with lapNext := s.lapNext + bytes.length })

/-- `n` bytes are about to be written at `h`: what those hold that the job has not yet written. -/
def State.lapWrite (s : State) (l : Lap) (h n : Nat) (before : Unit → List Byte) : State :=
  if l.outs = [] ∨ n = 0 then s
  else
    let new := mapFrom (fun j b => ({ c := l.c, e := l.e, k := l.k, at_ := h + j, old := b } : LapByte)) 0 (before ())
    { s with laps := s.laps ++ new.filter fun p => !s.laps.any fun q => q.of l && q.at_ == p.at_ }

/-- Whose engine moves: a copy engine with its core (for its own scratchpad) and the cores whose registers are open to it, or
the collective engine of a die. -/
inductive Agent where
  | card (core cmask dmask : Nat)
  | cle (die : Nat)
  deriving DecidableEq, Repr

/-- Who moves: its job, its context, its class, the overlap of what it reads and writes, and what it is ordered behind. -/
structure Mover where
  who : Agent
  ctx : Nat
  key : JobKey := ⟨0, 0, 0⟩
  cls : Nat := 0
  lap : Lap := {}
  since : List Since := []
  deriving DecidableEq, Repr

/-- The requester group and engine family of a mover's pieces (R347, R394). -/
def Mover.group (m : Mover) : Nat :=
  match m.who with
  | .card c _ _ => c / 64
  | .cle d => d

def Mover.family (m : Mover) : Nat :=
  match m.who with
  | .card .. => 2
  | .cle .. => 1

/-- The registers of a core are open to the mover (R278, R323). -/
def Mover.opens (m : Mover) (c : Nat) : Bool :=
  match m.who with
  | .card _ cm dm => cm.testBit (c % 64) && dm.testBit (c / 64)
  | .cle .. => true

/-! ### Order behind a task's own results (R271, R342, R348) -/

/-- The home addresses of a core's own storage that a write of bank `b` reaches: where each range starts and its bytes. -/
def Write.spans (c b : Nat) (w : Write) : List (Nat × Nat) :=
  let accHome (r : Nat) : Nat × Nat := (coreWindow c + 0x400000 + 512 * r, 512)
  let slabHome (k : Nat) : Nat × Nat := (coreWindow c + 0x600000 + 512 * k, 512)
  let vecHome (i : Nat) : Nat × Nat := (coreWindow c + 0x700000 + 0x8000 * b + 512 * i, 512)
  match w with
  | .mem at_ l => [(at_, l.length)]
  | .memBits at_ _ _ => [(at_, 1)]
  | .slab k _ => [slabHome k]
  | .slabBits _ k _ _ => [slabHome k]
  | .acc r _ _ => [accHome r]
  | .accAdd r _ _ => [accHome r]
  | .v i _ _ => [vecHome i]
  | .park _ (Place.slab k) _ => [slabHome k]
  | .park _ (Place.row r) _ => [accHome r]
  | .unpark i _ => [vecHome i]
  | _ => []

/-- The results of a bank still to be written that it issued before a bundle: those in flight, those latched at a trap, and
what its operations will write. -/
def Bank.toLand (y : Bank) (c b bundle : Nat) : List (Nat × Nat) :=
  let fixed := (y.pipe.pend ++ y.pipe.latches).filter fun p => decide (p.bundle < bundle)
  let ops := y.pipe.vars.filter fun v => decide (v.bundle < bundle) && !v.dropped &&
    [VarKind.xlut, .ldg, .mrecomp].contains v.kind
  let due (v : VarOp) : List Write :=
    match v.writes, v.reg with
    | some l, _ => l
    | none, some ⟨.v, i⟩ => [.v i 0 0]
    | none, _ => []
  ((fixed.map (·.writes)) ++ ops.map due).flatten.flatMap (Write.spans c b)

/-- A result of the task, issued before the bundle, has still to be written to one of `n` bytes from a home address. -/
def State.owing (s : State) (q : Since) (a n : Nat) : Bool :=
  let x := s.core q.core
  let hit (b : Nat) (y : Bank) : Bool :=
    y.state != .empty && y.task.launch == q.launch && y.task.wid == q.wid &&
    (y.toLand q.core b q.bundle).any fun r => decide (r.1 < a + n ∧ a < r.1 + r.2)
  hit 0 x.bank0 || hit 1 x.bank1 || x.saved.any fun v => hit v.bankNo { v.bank with state := .ready }

/-- A mover waits for results that its accesses are ordered behind: a copy engine for those of the bytes it reaches (R271), a
collective engine for all of them (R342, R348). -/
def State.behind (s : State) (m : Mover) (a n : Nat) : Bool :=
  match m.who with
  | .card .. => m.since.any fun q => s.owing q a n
  | .cle _ => m.since.any fun q => s.owing q 0 (2 ^ 64)

/-- Translation by an engine: task mode, with the register windows that are open to it. DESIGN CHOICE, log 144: an engine keeps no
translation, it walks for each piece. -/
def State.engineAddr (s : State) (m : Mover) (va : Nat) (acc : AccKind) : Except TrErr (Nat × State) :=
  match s.translateFresh m.group m.ctx va acc true false with
  | .ok r => .ok r
  | .error (.fault .perm) =>
    match s.translateFresh m.group m.ctx va acc true true with
    | .ok (a, s1) =>
      match winCore a with
      | some (c, _) => if m.opens c then .ok (a, s1) else .error (.fault .perm)
      | none => .error (.fault .perm)
    | .error e => .error e
  | .error e => .error e

/-- What a translation error is to an engine. -/
def moveErr (va acc : Nat) : TrErr → MoveErr
  | .fault .migrating => .wait
  | .fault k => .fault va acc k.code
  | .lost a => .abort a
  | .table a => .table a

/-- Where an address of a mover lies: a home, or the tile table of an engine. -/
inductive At where
  | home (a : Nat)
  | table (die off : Nat)
  deriving DecidableEq, Repr

/-- The place of a 64-bit address: bit 63 names the core's own scratchpad, or the engine's tile table. -/
def State.place (s : State) (m : Mover) (addr n : Nat) (acc : AccKind) : Except MoveErr (At × State) :=
  if addr.testBit 63 then
    match m.who with
    | .card c _ _ => .ok (.home (scratchAddr c (addr % 2 ^ 22)), s)
    | .cle die => .ok (.table die (addr % 2 ^ 17), s)
  else
    match s.engineAddr m (addr % 2 ^ 55) acc with
    | .error e => .error (moveErr (addr % 2 ^ 55) (if acc = .read then 6 else 7) e)
    | .ok (a, s1) => if s1.linkUp a n m.cls then .ok (.home a, s1) else .error .wait

/-- Bytes of the tile table. -/
def Cle.tableBytes (x : Cle) (off n : Nat) : List Byte :=
  (List.range n).map fun k => BitVec.ofNat 8 ((Tab.get 0 x.tiles ((off + k) / 32)).toNat / 2 ^ (8 * ((off + k) % 32)))

/-- The bits of a byte of a tile entry that are not reserved (R339). -/
def tileKeep (k : Nat) : Nat :=
  if k = 20 then 0x3F else if k = 22 then 0x7F else if k = 25 ∨ 28 ≤ k then 0 else 0xFF

/-- Bytes written to the tile table; reserved bits of its entries are ignored. -/
def Cle.tableWrite (x : Cle) : Nat → List Byte → Cle
  | _, [] => x
  | off, b :: l =>
    let i := off / 32
    let e := setBitsN (Tab.get 0 x.tiles i).toNat (8 * (off % 32)) 8 (b.toNat &&& tileKeep (off % 32))
    let bad := if off % 8 = 0 ∧ 7 ≤ l.length then Tab.set false x.tileBad (off / 8) false else x.tileBad
    ({ x with tiles := Tab.set 0 x.tiles i (BitVec.ofNat 256 e), tileBad := bad }).tableWrite (off + 1) l

/-- Where a byte of a tile table lies among the places of `LapByte`, beyond every home address. -/
def tablePlace (die off : Nat) : Nat := 2 ^ 80 + die * 2 ^ 17 + off

/-- A piece is read: at most 64 bytes that lie in one aligned unit. -/
def State.engLoad (s : State) (m : Mover) (addr n : Nat) : Except MoveErr (List Byte × State) :=
  match s.place m addr n .read with
  | .error e => .error e
  | .ok (.table die off, s1) =>
    let s1 := (List.range ((off + n + 31) / 32 - off / 32)).foldl (fun u k => u.tileRead die (off / 32 + k) m.ctx) s1
    if s1.behind m 0 0 then .error .wait
    else if (wordsOf off n).any fun w => Tab.get false (s1.cle die).tileBad w then .error (.abort (tablePlace die off))
    else .ok (s1.lapRead m.lap addr (tablePlace die off) ((s1.cle die).tableBytes off n))
  | .ok (.home a, s1) =>
    if s1.behind m a n then .error .wait
    else
      match s1.badIn a n with
      | some w => .error (.abort w)
      | none =>
        let s1 := (s1.landWin a).correct m.ctx a n
        .ok (((s1.touchFrames a n).usePorts m.cls m.group m.family a n).lapRead m.lap addr a (s1.homeLoad a n))

/-- A piece is written. -/
def State.engStore (s : State) (m : Mover) (addr : Nat) (l : List Byte) : Except MoveErr State :=
  match s.place m addr l.length .write with
  | .error e => .error e
  | .ok (.table die off, s1) =>
    if s1.behind m 0 0 then .error .wait
    else
      .ok ((s1.lapWrite m.lap (tablePlace die off) l.length fun _ => (s1.cle die).tableBytes off l.length).modCle die fun x =>
        x.tableWrite off l)
  | .ok (.home a, s1) =>
    if s1.behind m a l.length then .error .wait
    else
      match s1.badPart a l.length with
      | some w => .error (.abort w)
      | none =>
        let s1 := s1.landWin a
        let s2 := ((s1.lapWrite m.lap a l.length fun _ => s1.homeLoad a l.length).homeStore a l).usePorts m.cls m.group m.family a l.length
        .ok (if a < remoteBase then s2 else s2.sendOut m.key a m.cls m.ctx l)

/-- A record of uncorrectable data (R378); the tile table has no physical address and no frame. -/
def State.postBad (s : State) (die ctx a core unit : Nat) : State :=
  if tablePlace 0 0 ≤ a then s.pushFlt die { kind := 4, info := reportInfo, ctx := ctx, addr := reportAddr, core := core, unit := unit } .none
  else s.postFlt die { kind := 4, info := reportInfo, ctx := ctx, addr := a, core := core, unit := unit } .none

/-- An error in a context's tables is reported and its kill is on its way (R379, R380). -/
def State.postTable (s : State) (die ctx a core unit : Nat) : State :=
  let s1 := s.postBad die ctx a core unit
  { s1 with kills := s1.kills ++ [ctx] }

/-- Bytes of a range, read in pieces that lie in one aligned 64-byte unit; `fuel` bounds their number. -/
def State.loadAll (s : State) (m : Mover) (addr : Nat) : Nat → Nat → Except MoveErr (List Byte × State)
  | 0, _ => .ok ([], s)
  | f + 1, n =>
    if n = 0 then .ok ([], s)
    else
      let k := min n (64 - addr % 64)
      match s.engLoad m addr k with
      | .error e => .error e
      | .ok (l, s1) =>
        match s1.loadAll m (addr + k) f (n - k) with
        | .error e => .error e
        | .ok (r, s2) => .ok (l ++ r, s2)

/-- A range of bytes read whole. -/
def State.loadBytes (s : State) (m : Mover) (addr n : Nat) : Except MoveErr (List Byte × State) :=
  s.loadAll m addr (n / 64 + 2) n

/-- The bytes of a stream from `b` that lie in one aligned 64-byte unit, whatever runs they are of: what is read or written whole
(R259). -/
def Shape.unit (p : Shape) : Nat → Nat → Nat
  | 0, _ => 0
  | f + 1, b =>
    let a := p.addr b
    let n := min a.2 (64 - a.1 % 64)
    if n = a.2 ∧ (a.1 + n) % 64 ≠ 0 ∧ b + n < p.total ∧ (p.addr (b + n)).1 = a.1 + n then n + p.unit f (b + n) else n

/-- The piece of a stream that comes next. -/
def Shape.next (p : Shape) (b : Nat) : Nat := p.unit 64 b

/-- How far a move has come, with the state, what stopped it, and the bytes that it holds: read and not used, made and not written,
and those of AUX. -/
structure Moved where
  st : State
  pos : Nat
  err : Option MoveErr := none
  sat : Bool := false
  rd : List Byte := []
  wr : List Byte := []
  aux : List Byte := []

/-- Stream bytes from `pos` of a shape, piece by piece. -/
def State.streamLoad (s : State) (m : Mover) (p : Shape) : Nat → Nat → Nat → Except MoveErr (List Byte × State)
  | 0, _, _ => .ok ([], s)
  | f + 1, pos, n =>
    if n = 0 then .ok ([], s)
    else
      let q := min n (p.next pos)
      match s.engLoad m (p.addr pos).1 q with
      | .error x => .error x
      | .ok (l, s1) =>
        match s1.streamLoad m p f (pos + q) (n - q) with
        | .error x => .error x
        | .ok (r, s2) => .ok (l ++ r, s2)

/-- Stream bytes written from `pos` of a shape. -/
def State.streamStore (s : State) (m : Mover) (p : Shape) : Nat → Nat → List Byte → Except MoveErr State
  | 0, _, _ => .ok s
  | f + 1, pos, l =>
    if l = [] then .ok s
    else
      let q := min l.length (p.next pos)
      match s.engStore m (p.addr pos).1 (l.take q) with
      | .error x => .error x
      | .ok s1 => s1.streamStore m p f (pos + q) (l.drop q)

/-- Bytes of a stream moved from a source: a whole piece of the destination, of `size` bytes from a position, is written by `put` as
soon as it has been read; until then whole pieces of the source are read (R259). `rd` is what has been read and not written. -/
def State.moveBytes (s : State) (m : Mover) (src : Shape) (size : Nat → Nat)
    (put : State → Nat → List Byte → Except MoveErr (State × Bool)) (total : Nat) : Nat → Nat → List Byte → Bool → Moved
  | 0, pos, rd, sat => { st := s, pos := pos, sat := sat, rd := rd }
  | f + 1, pos, rd, sat =>
    if total ≤ pos then { st := s, pos := pos, sat := sat, rd := rd }
    else if size pos ≤ rd.length then
      match put s pos (rd.take (size pos)) with
      | .error e => { st := s, pos := pos, err := some e, sat := sat, rd := rd }
      | .ok (s1, b) => s1.moveBytes m src size put total f (pos + size pos) (rd.drop (size pos)) (sat || b)
    else
      let at_ := pos + rd.length
      match s.engLoad m (src.addr at_).1 (src.next at_) with
      | .error e => { st := s, pos := pos, err := some e, sat := sat, rd := rd }
      | .ok (l, s1) => s1.moveBytes m src size put total f pos (rd ++ l) sat

/-- A piece of a shape is written. -/
def State.putAt (s : State) (m : Mover) (p : Shape) (pos : Nat) (l : List Byte) : Except MoveErr (State × Bool) :=
  (s.engStore m (p.addr pos).1 l).map fun u => (u, false)

end Sys2Proof.Machine
end

