-- ==== Sys2Proof/Machine/Engines.lean ====
section
/-!
DEFINITION. Copy engines: the command's fields (R277), its checks at acceptance (R280, R291, R295, R298, R301, R304), its
regions and the dependence tracker (R281, R282), when a card may start (R275), its status word (R284) and its faults (R286).
-/

namespace Sys2Proof.Machine

open Sys2Proof

/-! ### The fields of a command (R277, R295, R298, R304), of its 64 bytes as a number -/

def cmdType (n : Nat) : Nat := bitsN n 0 4
def cmdCls (n : Nat) : Nat := bitsN n 4 2
def cmdRnd (n : Nat) : Nat := bitsN n 8 3
def cmdEf (n : Nat) : Bool := n.testBit 11
def cmdSfmt (n : Nat) : Nat := bitsN n 16 4
def cmdDfmt (n : Nat) : Nat := bitsN n 20 4
def cmdRfmt (n : Nat) : Nat := bitsN n 24 4
def cmdRnum (n : Nat) : Nat := bitsN n 24 8
def cmdSh (n : Nat) : Nat := bitsN n 32 6
def cmdZp (n : Nat) : Nat := bitsN n 40 8
def cmdClamp (n : Nat) : Nat := bitsN n 48 16
def cmdSrc (n : Nat) : Nat := bitsN n 64 64
def cmdDst (n : Nat) : Nat := bitsN n 128 64
def cmdAux (n : Nat) : Nat := bitsN n 192 64
def cmdN0 (n : Nat) : Nat := bitsN n 256 32
def cmdN1 (n : Nat) : Nat := bitsN n 288 16
def cmdN2 (n : Nat) : Nat := bitsN n 304 16
def cmdN3 (n : Nat) : Nat := bitsN n 320 16
def cmdSs (n k : Nat) : Nat := bitsN n (336 + 24 * k) 24
def cmdDs (n k : Nat) : Nat := bitsN n (408 + 24 * k) 24
def cmdFo (n : Nat) : Nat := bitsN n 480 28
/-- CLEN, ILEN or NENT; OUTG or ALEN; OMAX; PARAM. -/
def cmdLen0 (n : Nat) : Nat := bitsN n 256 32
def cmdLen1 (n : Nat) : Nat := bitsN n 288 32
def cmdLen2 (n : Nat) : Nat := bitsN n 320 32
def cmdParam (n : Nat) : Nat := bitsN n 352 64
def cmdXr (n : Nat) : Nat := bitsN n 320 5
def cmdDict (n : Nat) : Bool := n.testBit 325

/-! ### The follow-on field (R301) -/

def foOp (f : Nat) : Nat := bitsN f 0 2
def foReg (f : Nat) : Nat := bitsN f 2 6
def foTr (f : Nat) : Nat := bitsN f 8 4
def foCnt (f : Nat) : Nat := bitsN f 12 8
def foIdx (f : Nat) : Nat := bitsN f 20 7
def foAcc (f : Nat) : Bool := f.testBit 27

/-! ### Shapes and regions (R279, R281) -/

/-- Elements of a shaped command. -/
def cmdElems (n : Nat) : Nat := cmdN0 n * cmdN1 n * cmdN2 n * cmdN3 n

/-- The source of a shaped command whose elements have `b` bits. -/
def srcShape (n b : Nat) : Shape :=
  { base := cmdSrc n, run := cmdN0 n * b / 8, n1 := cmdN1 n, n2 := cmdN2 n, n3 := cmdN3 n
    s1 := cmdSs n 0, s2 := cmdSs n 1, s3 := cmdSs n 2 }

/-- The destination of a shaped command whose elements have `b` bits. -/
def dstShape (n b : Nat) : Shape :=
  { base := cmdDst n, run := cmdN0 n * b / 8, n1 := cmdN1 n, n2 := cmdN2 n, n3 := cmdN3 n
    s1 := cmdDs n 0, s2 := cmdDs n 1, s3 := cmdDs n 2 }

/-- A CONVERT writes BX. -/
def cmdBx (n : Nat) : Bool := fmtKind (cmdDfmt n) == .bx

/-- Bytes that a CONVERT writes at AUX: its residue, or a BX destination's sidecar (R292). -/
def auxBytes (n : Nat) : Nat :=
  if cmdBx n then (cmdElems n + 31) / 32
  else if cmdEf n then (cmdElems n * fmtBits (cmdRfmt n) + 7) / 8
  else 0

/-- A range of bytes in the space that bit 63 of its address names. -/
structure Range where
  loc : Bool
  lo : Nat
  len : Nat
  deriving DecidableEq, Repr

/-- The range from a 64-bit address. -/
def rangeAt (a len : Nat) : Range := { loc := a.testBit 63, lo := a % 2 ^ 63, len := len }

def Shape.range (p : Shape) : Range := rangeAt p.base p.extent

/-- An address and its range are those of R278. -/
def Range.ok (r : Range) : Bool :=
  if r.loc then decide (r.lo < 2 ^ 22) && decide (r.lo + r.len ≤ scratchBytes)
  else decide (r.lo < 2 ^ 55) && decide (r.lo + r.len ≤ 2 ^ 55)

/-- Two ranges share a byte; an empty range shares none. -/
def Range.meets (r q : Range) : Bool :=
  r.loc == q.loc && decide (0 < r.len ∧ 0 < q.len ∧ r.lo < q.lo + q.len ∧ q.lo < r.lo + r.len)

/-- `r` lies within `q`; an empty range lies within every range. -/
def Range.within (r q : Range) : Bool :=
  r.len == 0 || (r.loc == q.loc && decide (q.lo ≤ r.lo ∧ r.lo + r.len ≤ q.lo + q.len))

/-- The smallest range that holds both. -/
def Range.join (r q : Range) : Range :=
  if q.len = 0 then r
  else { r with lo := min r.lo q.lo, len := max (r.lo + r.len) (q.lo + q.len) - min r.lo q.lo }

/-- The read regions of a command. -/
def cmdReads (n : Nat) : List Range :=
  match cmdType n with
  | 1 => [(srcShape n 8).range]
  | 2 => [(srcShape n (fmtBits (cmdSfmt n))).range]
  | 3 => [rangeAt (cmdSrc n) ((cmdN2 n - 1) * cmdSs n 0 + cmdN0 n), rangeAt (cmdAux n) (4 * cmdN1 n)]
  | 4 => [rangeAt (cmdSrc n) ((cmdN1 n - 1) * cmdSs n 0 + cmdN0 n), rangeAt (cmdAux n) (4 * cmdN1 n)]
  | 6 => rangeAt (cmdSrc n) (cmdLen0 n) :: (if cmdDict n then [rangeAt (cmdAux n) 16] else [])
  | 7 => [rangeAt (cmdSrc n) (cmdLen0 n), rangeAt (cmdAux n) (cmdLen1 n)]
  | 8 => [rangeAt (cmdSrc n) (64 * cmdLen0 n), rangeAt (cmdAux n) (cmdLen1 n)]
  | _ => []

/-- The bytes that a command writes, before a CONVERT's are joined into one region. -/
def cmdWrites (n : Nat) : List Range :=
  match cmdType n with
  | 1 => [(dstShape n 8).range]
  | 2 => (dstShape n (fmtBits (cmdDfmt n))).range :: (if auxBytes n = 0 then [] else [rangeAt (cmdAux n) (auxBytes n)])
  | 3 => [rangeAt (cmdDst n) ((cmdN1 n - 1) * cmdDs n 0 + cmdN0 n)]
  | 4 => [rangeAt (cmdDst n) ((cmdN2 n - 1) * cmdDs n 0 + cmdN0 n)]
  | 5 => [(dstShape n 8).range]
  | 7 => [rangeAt (cmdDst n) (cmdLen2 n)]
  | 8 => [rangeAt (cmdDst n) (cmdLen2 n)]
  | _ => []

/-- The write region of a command. -/
def cmdWrite (n : Nat) : Option Range :=
  match cmdWrites n with
  | [] => none
  | [r] => some r
  | r :: q :: _ => some (r.join q)

/-! ### The checks at acceptance -/

/-- The follow-on is one that R301 allows. -/
def foOk (n : Nat) : Bool :=
  let f := cmdFo n
  match foOp f with
  | 0 => true
  | 1 => [1, 2, 3, 5, 7, 8].contains (cmdType n)
  | 2 => [1, 2, 3, 5, 7, 8].contains (cmdType n) && (cmdDst n).testBit 63 && cmdDst n % 16 == 0 &&
         decide (1 ≤ foCnt f ∧ foCnt f ≤ 128) && decide (foReg f < 32)
  | _ => false

/-- An address and the strides are multiples of an element's bytes. -/
def alignedTo (b : Nat) (l : List Nat) : Bool := l.all fun a => a % max 1 (b / 8) == 0

/-- The fields of CONVERT (R279, R291). -/
def convertOk (n : Nat) : Bool :=
  let sf := cmdSfmt n
  let df := cmdDfmt n
  let sb := fmtBits sf
  let db := fmtBits df
  [0, 1, 2, 3, 4, 5, 7].contains sf && decide (df < 14) && (df != 7 || !cmdEf n) &&
  [0, 1, 3, 4].contains (cmdRnd n) &&
  (match clampLimit df with
   | some l => decide (cmdClamp n ≤ l)
   | none => true) &&
  (!cmdBx n || (decide (cmdSh n ≤ 15) && !cmdEf n)) &&
  (!cmdEf n || [0, 2, 4].contains (cmdRfmt n)) &&
  (df != 0xb || decide (cmdZp n ≤ 15)) &&
  cmdN0 n * sb % 8 == 0 && cmdN0 n * db % 8 == 0 &&
  alignedTo sb [cmdSrc n, cmdSs n 0, cmdSs n 1, cmdSs n 2] && alignedTo db [cmdDst n, cmdDs n 0, cmdDs n 1, cmdDs n 2] &&
  (auxBytes n == 0 || (cmdAux n).testBit 63 == (cmdDst n).testBit 63)

/-- The counts that a type uses are not 0, and its own fields lie in their ranges. -/
def fieldsOk (n : Nat) : Bool :=
  let shaped := decide (0 < cmdElems n)
  match cmdType n with
  | 1 => shaped
  | 2 => shaped && convertOk n
  | 3 => decide (0 < cmdN0 n * cmdN1 n * cmdN2 n)
  | 4 => decide (0 < cmdN0 n * cmdN1 n * cmdN2 n)
  | 5 => shaped
  | 6 => cmdDst n == 0 && cmdFo n == 0 && decide (0 < cmdLen0 n) && decide (0 < cmdLen1 n) &&
         decide (2 ≤ cmdXr n ∧ cmdXr n ≤ 16)
  | 7 => decide (cmdLen1 n ≤ 32768)
  | 8 => (cmdSrc n).testBit 63 && cmdSrc n % 64 == 0 && decide (1 ≤ cmdLen0 n ∧ cmdLen0 n ≤ 1024)
  | _ => false

/-- A command that an engine does not refuse (R280). -/
def cmdOk (n : Nat) : Bool := fieldsOk n && (cmdReads n).all Range.ok && (cmdWrites n).all Range.ok && foOk n

/-! ### Engines and cards -/

/-- The number that a card's command is. -/
def Card.num (k : Card) : Nat := ofLeBytes k.cmd

def Card.type (k : Card) : Nat := cmdType k.num

def Core.engine (x : Core) (e : Nat) : Engine := if e = 0 then x.cpe0 else x.cpe1

def Core.setEngine (x : Core) (e : Nat) (g : Engine) : Core := if e = 0 then { x with cpe0 := g } else { x with cpe1 := g }

def State.modEngine (s : State) (c e : Nat) (f : Engine → Engine) : State :=
  s.modCore c fun x => x.setEngine e (f (x.engine e))

def State.engine (s : State) (c e : Nat) : Engine := (s.core c).engine e

/-- The card with a number. -/
def State.card (s : State) (c e k : Nat) : Option Card := (s.engine c e).cards.find? fun d => d.k == k

def State.setCard (s : State) (c e : Nat) (d : Card) : State :=
  s.modEngine c e fun g => { g with cards := g.cards.map fun q => if q.k = d.k then d else q }

/-- The earlier card must complete before the new one starts (R282); global ranges are compared within one context. -/
def mustFollow (same : Bool) (old new : Nat) : Bool :=
  let meets (r q : Range) : Bool := r.meets q && (same || r.loc)
  let wo := (cmdWrite old).toList
  let wn := (cmdWrite new).toList
  (wo.any fun r => (cmdReads new).any (meets r)) || ((cmdReads old).any fun r => wn.any (meets r)) ||
  (wo.any fun r => wn.any (meets r))

/-- The cards of a core that the new one depends on; a refused card has no regions. -/
def Core.depsOf (x : Core) (ctx n : Nat) : List (Nat × Nat) :=
  let among (e : Nat) : List (Nat × Nat) := ((x.engine e).cards.filter fun d =>
    (d.started || d.status == none) && mustFollow (d.ctx == ctx) d.num n).map fun d => (e, d.k)
  among 0 ++ among 1

/-- An engine holds 32 cards (R275). -/
def Engine.full (g : Engine) : Bool := decide (32 ≤ g.cards.length)

/-- A card is accepted at the commit of bank `b` (R276, R280, R282): what it captures, what it depends on; a refused card
completes at once. -/
def State.acceptCard (s : State) (c b e varId tok bundle : Nat) (seed : Word) (cmd : List Byte) : State :=
  let y := s.bankAt c b
  let x := s.core c
  let n := ofLeBytes cmd
  let ok := cmdOk n
  let set_ := (s.launch y.task.launch).nest
  let k : Card := {
    k := (x.engine e).next, cmd := cmd, ctx := y.cregs.ctxid.toNat, seed := seed, bank := b
    launch := y.task.launch, wid := y.task.wid, tok := tok, varId := varId
    bundle := bundle, cmask := set_.cmask, dmask := set_.dmask
    deps := if ok then x.depsOf y.cregs.ctxid.toNat n else []
    status := if ok then none else some 4, cur := cmd, stream := ok && cmdType n == 6 }
  (s.modEngine c e fun g => { g with cards := g.cards ++ [k], next := g.next + 1 }).modLaunch y.task.launch
    fun l => { l with jobs := l.jobs + 1 }

/-- The earlier card is still there. -/
def Core.pendingDep (x : Core) (d : Nat × Nat) : Bool := (x.engine d.1).cards.any fun q => q.k == d.2

/-- Cards of an engine that run (R275). DESIGN CHOICE, log 142: a card whose transfers are over runs no longer, though its writes are
not all acknowledged or its follow-on is outstanding. -/
def Engine.running (g : Engine) : Nat := (g.cards.filter fun d => d.started && d.status == none).length

/-- What the reads of a card's job are ordered behind: the pushing task's results from before its push (R271). -/
def Card.since (k : Card) (c : Nat) : Since := { core := c, launch := k.launch, wid := k.wid, bundle := k.bundle }

/-- The types that run one at a time on an engine: DECODE streams in order (R296), XFORM routines (R303). -/
def Engine.typeFree (g : Engine) (k : Card) : Bool :=
  if k.type = 6 then
    !(g.cards.any fun d => (d.stream && decide (d.k < k.k)) || (d.k != k.k && d.moving && cmdType (ofLeBytes d.cur) == 6))
  else if k.type = 7 then g.micro.job == none
  else true

/-- A card is ready: accepted, not started, its predecessors complete. -/
def State.cardReady (s : State) (c e : Nat) (k : Card) : Bool :=
  !k.started && k.status == none && (k.deps.all fun d => !(s.core c).pendingDep d) && (s.engine c e).typeFree k

/-- A card may start: it is the first ready card of its engine, and fewer than four run. -/
def State.mayStart (s : State) (c e : Nat) (k : Card) : Bool :=
  s.cardReady c e k && decide ((s.engine c e).running < 4) &&
  (((s.engine c e).cards.find? fun d => s.cardReady c e d).map (·.k) == some k.k)

/-- What a command reads, and what it writes, run by run. -/
def cmdIns (n : Nat) : List Shape :=
  match cmdType n with
  | 1 => [srcShape n 8]
  | 2 => [srcShape n (fmtBits (cmdSfmt n))]
  | 3 => [{ base := cmdSrc n, run := cmdN0 n, n1 := cmdN2 n, s1 := cmdSs n 0 }, { base := cmdAux n, run := 4 * cmdN1 n }]
  | 4 => [{ base := cmdSrc n, run := cmdN0 n, n1 := cmdN1 n, s1 := cmdSs n 0 }, { base := cmdAux n, run := 4 * cmdN1 n }]
  | 7 => [{ base := cmdSrc n, run := cmdLen0 n }, { base := cmdAux n, run := cmdLen1 n }]
  | _ => []

def cmdOuts (n : Nat) : List Shape :=
  match cmdType n with
  | 1 => [dstShape n 8]
  | 2 => [dstShape n (fmtBits (cmdDfmt n)), { base := cmdAux n, run := auxBytes n }]
  | 3 => [{ base := cmdDst n, run := cmdN0 n, n1 := cmdN1 n, s1 := cmdDs n 0 }]
  | 4 => [{ base := cmdDst n, run := cmdN0 n, n1 := cmdN2 n, s1 := cmdDs n 0 }]
  | 7 => [{ base := cmdDst n, run := cmdLen2 n }]
  | _ => []

/-- The overlap of the command that a card runs (R283). -/
def Card.lap (k : Card) (c e : Nat) : Lap :=
  let n := ofLeBytes k.cur
  if k.moving && (cmdReads n).any fun r => (cmdWrites n).any r.meets then
    { c := c, e := e, k := k.k, ins := cmdIns n, outs := cmdOuts n }
  else {}

/-- The access rights of a card's job (R278): the core set of its launch as it was at the push. -/
def Card.mover (k : Card) (c e : Nat) : Mover :=
  { who := .card c k.cmask k.dmask, ctx := k.ctx, key := ⟨c, e, k.k⟩, cls := cmdCls k.num, lap := k.lap c e, since := [k.since c] }

/-- The status word (R284). -/
def statusWord (count idx typ status : Nat) (sat : Bool) : Word :=
  BitVec.ofNat 64 (packFields [8, 4, 1, 3, 16, 32] [status, typ, bit sat, 0, idx, count])

/-- The status word of a card. -/
def Card.word (k : Card) (status : Nat) : Word := statusWord k.count k.idx k.type status k.sat

/-- The draws that a CONVERT job takes at its start: one for each 2^16 elements when it rounds stochastically (R293). -/
def drawsOf (n : Nat) : Nat := if cmdType n = 2 ∧ cmdRnd n = 4 then (cmdElems n + 65535) / 65536 else 0

/-- The engine's draw count, and the count advanced. -/
def CoreCregs.draw (k : CoreCregs) (e : Nat) : Word := if e = 0 then k.cpeDraw0 else k.cpeDraw1

def CoreCregs.advance (k : CoreCregs) (e n : Nat) : CoreCregs :=
  let v : Word := BitVec.ofNat 64 (((k.draw e).toNat + n) % 2 ^ 63)
  if e = 0 then { k with cpeDraw0 := v } else { k with cpeDraw1 := v }

/-- The command that a card runs now starts: the engine's draws for it are taken. -/
def State.beginCmd (s : State) (c e : Nat) (k : Card) : State × Card :=
  let n := ofLeBytes k.cur
  ({ s.modCore c (fun x => { x with cregs := x.cregs.advance e (drawsOf n) }) with
     laps := s.laps.filter fun p => !(p.c == c && p.e == e && p.k == k.k) },
   { k with started := true, moving := true, pos := 0, rd := [], wr := [], aux := [], draw := ((s.core c).cregs.draw e).toNat })

/-- The microcore is free of a card's job (R286, R303). -/
def Engine.leave (g : Engine) (k : Nat) : Engine :=
  if g.micro.job = some k then { g with micro := { g.micro with job := none, live := false, needHold := none, markHold := none } } else g

/-- The card of a job that ends with a status and what its status word counts then (R284): an XFORM that did not run to its end
the bytes written out. -/
def Card.ended (k : Card) (g : Engine) (status : Nat) : Card :=
  let out := if k.type = 7 ∧ g.micro.job = some k.k ∧ status ∉ [0, 9] then g.micro.odrain % 2 ^ 32 else k.count
  { k with
    status := some status, moving := false, stream := false, fault := none, count := out
    idx := if k.type = 8 then k.entry % 65536 else if k.type = 7 ∧ status ∈ [0, 9] then k.idx else 0 }

/-- A card's job ends: its last packets go, its status stands, its microcore is free. -/
def State.endCard (s : State) (c e : Nat) (k : Card) (status : Nat) : State :=
  ((s.flush ⟨c, e, k.k⟩ true).setCard c e (k.ended (s.engine c e) status)).modEngine c e fun g => g.leave k.k

/-- What a job that stops does: a page fault waits to be reported (R286), uncorrectable data ends it (R378). -/
def State.cardStop (s : State) (c e : Nat) (k : Card) : MoveErr → State × Card × Option Nat
  | .fault va acc kind => (s.touchWalk (c / 64) k.ctx va, { k with fault := some (va, acc, kind), posted := false }, none)
  | .wait => (s, k, none)
  | .range => (s, k, some 6)
  | .abort a => (s.postBad (c / 64) k.ctx a c (k.bank + 2 * (e + 1)), k, some 2)
  | .table a => (s.postTable (c / 64) k.ctx a c (k.bank + 2 * (e + 1)), k, some 0x0A)

end Sys2Proof.Machine
end

