-- ==== Sys2Proof/Machine/Rv.lean ====
section
/-!
DEFINITION. The microcore of a copy engine (R303, R305): its address space, its control and status registers and the scalar
instructions, RV64IM with the control and status register instructions. R303 names the instruction set and its standard
gives the encodings and effects, which are PRESUMED (log 101).
-/

namespace Sys2Proof.Machine

open Sys2Proof

/-! ### The address space (R303) -/

/-- What a routine's instruction meets beside its microcore: the routine store's copy, the card's ILEN, OMAX and PARAM, and the
number of the engine. -/
structure RvEnv where
  store : Tab Byte
  ilen : Nat
  omax : Nat
  param : Nat
  who : Nat
  /-- a word of the store that is not to be read -/
  bad : Option Nat := none
  deriving DecidableEq, Repr

/-- The parts of the address space that a routine may write. -/
inductive RvPart where
  | in0 | in1 | obuf | own
  deriving DecidableEq, Repr

/-- The part that holds an address, and the offset in it. -/
def rvPart (a : Nat) : Option (RvPart × Nat) :=
  if 0x10000000 ≤ a ∧ a < 0x10020000 then some (.in0, a - 0x10000000)
  else if 0x10020000 ≤ a ∧ a < 0x10028000 then some (.in1, a - 0x10020000)
  else if 0x10028000 ≤ a ∧ a < 0x10038000 then some (.obuf, a - 0x10028000)
  else if 0x10038000 ≤ a ∧ a < 0x10040000 then some (.own, a - 0x10038000)
  else none

def Micro.part (m : Micro) : RvPart → Tab Byte
  | .in0 => m.in0
  | .in1 => m.in1
  | .obuf => m.obuf
  | .own => m.localMem

def Micro.setPart (m : Micro) (p : RvPart) (t : Tab Byte) : Micro :=
  match p with
  | .in0 => { m with in0 := t }
  | .in1 => { m with in1 := t }
  | .obuf => { m with obuf := t }
  | .own => { m with localMem := t }

/-- One byte as a routine reads it; none outside the address space. -/
def RvEnv.byte (v : RvEnv) (m : Micro) (a : Nat) : Option Byte :=
  if a < 0x10000 then (if v.bad = some (a / 8 * 8) then none else some (Tab.get 0 v.store a)) else (rvPart a).map fun p => Tab.get 0 (m.part p.1) p.2

/-- `n` bytes from an address that is a multiple of `n`; none where the access is an exception. -/
def RvEnv.load (v : RvEnv) (m : Micro) (a n : Nat) : Option Nat :=
  if a % n = 0 then ((List.range n).mapM fun k => v.byte m (a + k)).map ofLeBytes else none

/-- `n` bytes of `x` at an address that is a multiple of `n`; none where the access is an exception, a write of the routine
store among them. -/
def Micro.store (m : Micro) (a n x : Nat) : Option Micro :=
  if a % n ≠ 0 then none
  else (rvPart a).map fun p => m.setPart p.1
    ((mapFrom (fun k b => (p.2 + k, b)) 0 (leBytes n x)).foldl (fun t e => Tab.set 0 t e.1 e.2) (m.part p.1))

/-! ### Registers -/

def Micro.rx (m : Micro) (i : Nat) : Word := if i = 0 then 0 else Tab.get 0 m.x i

def Micro.wx (m : Micro) (i : Nat) (v : Word) : Micro := if i = 0 then m else { m with x := Tab.set 0 m.x i v }

/-- The routine ends with a code. -/
def Micro.quit (m : Micro) (code : Nat) : Micro := { m with exit := some code, needHold := none, markHold := none }

/-- A write of XF.INEED holds until the input below min(n, ILEN) has landed. -/
def Micro.writeIneed (m : Micro) (ilen n : Nat) : Micro :=
  { m with ineed := n, needHold := if min n ilen ≤ m.landed then none else some (min n ilen) }

/-- A decreasing write of XF.IFREE is an exception. -/
def Micro.writeIfree (m : Micro) (n : Nat) : Micro := if n < m.ifree then m.quit 0xFFFF else { m with ifree := n }

/-- A write of XF.OMARK holds until XF.ODRAIN ≥ n − 2^16; a bad one ends the routine. -/
def Micro.writeOmark (m : Micro) (omax n : Nat) : Micro :=
  if n < m.omark ∨ omax < n then m.quit 0xFFFD
  else { m with omark := n, markHold := if n ≤ m.odrain + 65536 then none else some n }

/-- A control and status register as a routine reads it; none where it has no such register. -/
def RvEnv.readCsr (v : RvEnv) (m : Micro) (n : Nat) : Option Word :=
  let w (x : Nat) : Word := BitVec.ofNat 64 x
  match n with
  | 0x008 => some m.vstart
  | 0x009 => some (m.vcsr &&& 1)
  | 0x00A => some (m.vcsr >>> 1)
  | 0x00F => some m.vcsr
  | 0x800 => some (w m.landed)
  | 0x801 => some (w m.ifree)
  | 0x802 => some (w m.omark)
  | 0x803 => some 0
  | 0xC00 => some (w m.cycle)
  | 0xC02 => some (w m.instret)
  | 0xC20 => some m.vl
  | 0xC21 => some m.vtype
  | 0xC22 => some 64
  | 0xCC0 => some (w m.odrain)
  | 0xCC1 => some (w v.who)
  | 0xCC2 => some (w v.param)
  | _ => none

/-- A write of one; none where it may not be written. -/
def RvEnv.writeCsr (v : RvEnv) (m : Micro) (n : Nat) (x : Word) : Option Micro :=
  match n with
  | 0x008 => some { m with vstart := x &&& 0x1FF }
  | 0x009 => some { m with vcsr := (m.vcsr &&& 6) ||| (x &&& 1) }
  | 0x00A => some { m with vcsr := (m.vcsr &&& 1) ||| ((x &&& 3) <<< 1) }
  | 0x00F => some { m with vcsr := x &&& 7 }
  | 0x800 => some (m.writeIneed v.ilen x.toNat)
  | 0x801 => some (m.writeIfree x.toNat)
  | 0x802 => some (m.writeOmark v.omax x.toNat)
  | 0x803 => some (m.quit (x.toNat % 65536))
  | _ => none

/-! ### The scalar instructions -/

def rvRd (w : Nat) : Nat := bitsN w 7 5
def rvF3 (w : Nat) : Nat := bitsN w 12 3
def rvRs1 (w : Nat) : Nat := bitsN w 15 5
def rvRs2 (w : Nat) : Nat := bitsN w 20 5
def rvF7 (w : Nat) : Nat := bitsN w 25 7

/-- The immediates of the I, S, B, U and J formats. -/
def rvImmI (w : Nat) : Int := sextN 12 (bitsN w 20 12)
def rvImmS (w : Nat) : Int := sextN 12 (bitsN w 25 7 * 32 + bitsN w 7 5)
def rvImmB (w : Nat) : Int := sextN 13 (bitsN w 31 1 * 4096 + bitsN w 7 1 * 2048 + bitsN w 25 6 * 32 + bitsN w 8 4 * 2)
def rvImmU (w : Nat) : Int := sextN 32 (bitsN w 12 20 * 4096)
def rvImmJ (w : Nat) : Int := sextN 21 (bitsN w 31 1 * 2 ^ 20 + bitsN w 12 8 * 4096 + bitsN w 20 1 * 2048 + bitsN w 21 10 * 2)

/-- An address: a register plus an offset, modulo 2^64. -/
def rvAddr (a : Word) (off : Int) : Nat := wrapN 64 (a.toNat + off)

/-- The operations of OP at a width of 64 or 32 bits: SUB and SRA when `alt`. -/
def rvAlu (w f3 : Nat) (alt : Bool) (a b : Nat) : Int :=
  let x := sextN w a
  let y := sextN w b
  let sh := b % w
  match f3 with
  | 0 => if alt then x - y else x + y
  | 1 => (a * 2 ^ sh : Nat)
  | 2 => if x < y then 1 else 0
  | 3 => if a < b then 1 else 0
  | 4 => (a ^^^ b : Nat)
  | 5 => if alt then x / ((2 ^ sh : Nat) : Int) else (a % 2 ^ w / 2 ^ sh : Nat)
  | 6 => (a ||| b : Nat)
  | _ => (a &&& b : Nat)

/-- Division at a width: by 0 the quotient is all ones and the remainder the dividend; the one quotient out of range wraps. -/
def rvDivide (w : Nat) (uns rem : Bool) (a b : Nat) : Int :=
  let x : Int := if uns then (a % 2 ^ w : Nat) else sextN w a
  let y : Int := if uns then (b % 2 ^ w : Nat) else sextN w b
  if y = 0 then (if rem then x else -1) else if rem then x.tmod y else x.tdiv y

/-- The operations of the M extension at 64 bits; at 32 bits those of `f3` 1 to 3 do not exist. -/
def rvMul (w f3 : Nat) (a b : Nat) : Int :=
  match f3 with
  | 0 => sextN w a * sextN w b
  | 1 => sextN w a * sextN w b / ((2 ^ w : Nat) : Int)
  | 2 => sextN w a * ((b % 2 ^ w : Nat) : Int) / ((2 ^ w : Nat) : Int)
  | 3 => ((a % 2 ^ w * (b % 2 ^ w) / 2 ^ w : Nat) : Int)
  | 4 => rvDivide w false false a b
  | 5 => rvDivide w true false a b
  | 6 => rvDivide w false true a b
  | _ => rvDivide w true true a b

/-- A result at a width, sign-extended to a register. -/
def rvResult (w : Nat) (x : Int) : Word := BitVec.ofInt 64 (sextN w (wrapN w x))

/-- OP and OP-32; none where it is illegal. -/
def rvOp (w f3 f7 : Nat) (a b : Nat) : Option Word :=
  if f7 = 1 then (if w = 32 ∧ 1 ≤ f3 ∧ f3 ≤ 3 then none else some (rvResult w (rvMul w f3 a b)))
  else if f7 = 0 ∨ (f7 = 32 ∧ (f3 = 0 ∨ f3 = 5)) then
    (if w = 32 ∧ f3 ≠ 0 ∧ f3 ≠ 1 ∧ f3 ≠ 5 then none else some (rvResult w (rvAlu w f3 (f7 == 32) a b)))
  else none

/-- OP-IMM and OP-IMM-32: the shifts take their amount and kind from the immediate. -/
def rvOpImm (w f3 n a : Nat) : Option Word :=
  let sh := if w = 64 then bitsN n 20 6 else bitsN n 20 5
  let top := if w = 64 then bitsN n 26 6 * 2 else bitsN n 25 7
  if f3 = 1 then (if top = 0 then some (rvResult w (rvAlu w 1 false a sh)) else none)
  else if f3 = 5 then (if top = 0 ∨ top = 32 then some (rvResult w (rvAlu w 5 (top == 32) a sh)) else none)
  else if w = 32 ∧ f3 ≠ 0 then none
  else some (rvResult w (rvAlu w f3 false a (wrapN 64 (rvImmI n))))

/-- A branch is taken; none where it is illegal. -/
def rvTaken (f3 : Nat) (a b : Word) : Option Bool :=
  match f3 with
  | 0 => some (a == b)
  | 1 => some (a != b)
  | 4 => some (a.slt b)
  | 5 => some (!a.slt b)
  | 6 => some (a.ult b)
  | 7 => some (!a.ult b)
  | _ => none

/-- Control goes to an address; one that is not a multiple of 4 is an exception. -/
def Micro.jump (m : Micro) (a : Nat) : Option Micro := if a % 4 = 0 then some { m with pc := a } else none

/-- A control and status register instruction. -/
def RvEnv.csrOp (v : RvEnv) (m : Micro) (w : Nat) : Option Micro :=
  let n := bitsN w 20 12
  let f3 := rvF3 w
  let x : Word := if 4 ≤ f3 then BitVec.ofNat 64 (rvRs1 w) else m.rx (rvRs1 w)
  (v.readCsr m n).bind fun old =>
    let new : Word := if f3 % 4 = 1 then x else if f3 % 4 = 2 then old ||| x else old &&& ~~~x
    let m1 := m.wx (rvRd w) old
    if f3 % 4 ≠ 1 ∧ rvRs1 w = 0 then some m1 else v.writeCsr m1 n new

/-- One scalar instruction: the microcore with its program counter advanced; none where it is an exception. -/
def RvEnv.scalar (v : RvEnv) (m : Micro) (w : Nat) : Option Micro :=
  let f3 := rvF3 w
  let d := rvRd w
  let a := m.rx (rvRs1 w)
  let b := m.rx (rvRs2 w)
  let on (u : Micro) : Micro := { u with pc := m.pc + 4 }
  let put (x : Word) : Option Micro := some (on (m.wx d x))
  let link : Word := BitVec.ofNat 64 (m.pc + 4)
  match bitsN w 0 7 with
  | 0x37 => put (BitVec.ofInt 64 (rvImmU w))
  | 0x17 => put (BitVec.ofInt 64 (m.pc + rvImmU w))
  | 0x6F => ((m.wx d link).jump (wrapN 64 (m.pc + rvImmJ w)))
  | 0x67 => if f3 = 0 then (m.wx d link).jump (rvAddr a (rvImmI w) / 2 * 2) else none
  | 0x63 => (rvTaken f3 a b).bind fun t => if t then m.jump (wrapN 64 (m.pc + rvImmB w)) else some (on m)
  | 0x03 =>
    if f3 = 7 then none
    else
      let n := 2 ^ (f3 % 4)
      (v.load m (rvAddr a (rvImmI w)) n).bind fun x =>
        put (if 4 ≤ f3 then BitVec.ofNat 64 x else BitVec.ofInt 64 (sextN (8 * n) x))
  | 0x23 => if 4 ≤ f3 then none else (m.store (rvAddr a (rvImmS w)) (2 ^ f3) b.toNat).map on
  | 0x13 => (rvOpImm 64 f3 w a.toNat).bind put
  | 0x1B => (rvOpImm 32 f3 w a.toNat).bind put
  | 0x33 => (rvOp 64 f3 (rvF7 w) a.toNat b.toNat).bind put
  | 0x3B => (rvOp 32 f3 (rvF7 w) a.toNat b.toNat).bind put
  | 0x0F => if f3 = 0 then some (on m) else none
  | 0x73 => if f3 % 4 = 0 then none else (v.csrOp m w).map on
  | _ => none

end Sys2Proof.Machine
end

