-- ==== Sys2Proof/Machine/Rvv.lean ====
section
/-!
DEFINITION. The vector instructions of a microcore, Zve64x at VLEN = 512 (R303), and one step of a routine. R303 names the
extension and its standard gives the encodings and effects, which are PRESUMED (log 101).
-/

namespace Sys2Proof.Machine

open Sys2Proof

/-! ### The configuration -/

/-- log2 of SEW / 8, and log2 of LMUL, of a vtype. -/
def rvvSew (t : Nat) : Nat := bitsN t 3 3
def rvvLmul (t : Nat) : Int := sextN 3 (bitsN t 0 3)

/-- A group of 2^e registers, at least one. -/
def groupRegs (e : Int) : Nat := 2 ^ e.toNat

/-- Elements of `w` bits that a group of log2 size `e` holds. -/
def groupElems (e : Int) (w : Nat) : Nat := if 0 ≤ e then 512 * 2 ^ e.toNat / w else 512 / 2 ^ (-e).toNat / w

/-- A vtype that the microcore supports. -/
def vtypeOk (t : Nat) : Bool :=
  decide (t < 256) && decide (rvvSew t < 4) && bitsN t 0 3 != 4 && decide (0 < groupElems (rvvLmul t) (8 * 2 ^ rvvSew t)) &&
  decide (rvvLmul t ≥ (rvvSew t : Int) - 3)

/-- vsetvli, vsetivli and vsetvl: `avl` is the length asked for, none to keep vl. An illegal configuration is an exception. -/
def Micro.setVl (m : Micro) (d t : Nat) (avl : Option Nat) : Option Micro :=
  let most := groupElems (rvvLmul t) (8 * 2 ^ rvvSew t)
  let vl := min (avl.getD m.vl.toNat) most
  if ¬ vtypeOk t ∨ (avl = none ∧ most < m.vl.toNat) then none
  else
    some (({ m with vl := BitVec.ofNat 64 vl, vtype := BitVec.ofNat 64 t, vstart := 0 } : Micro).wx d (BitVec.ofNat 64 vl))

/-- The configuration instruction that a word is. -/
def Micro.vset (m : Micro) (w : Nat) : Option Micro :=
  let d := rvRd w
  let r := rvRs1 w
  let avl : Option Nat := if r ≠ 0 then some (m.rx r).toNat else if d ≠ 0 then some (2 ^ 64) else none
  if bitsN w 31 1 = 0 then m.setVl d (bitsN w 20 11) avl
  else if bitsN w 30 1 = 1 then m.setVl d (bitsN w 20 10) (some r)
  else if bitsN w 25 6 = 0 then m.setVl d (m.rx (rvRs2 w)).toNat avl
  else none

/-! ### Register groups -/

/-- A register group as one number, register `r` lowest. -/
def Micro.group (m : Micro) (r n : Nat) : Nat :=
  packN 512 ((List.range n).map fun k => (Tab.get 0 m.v ((r + k) % 32)).toNat)

/-- The elements of `w` bits of the group at `r` of log2 size `e`. -/
def Micro.elems (m : Micro) (r : Nat) (e : Int) (w : Nat) : List Nat := lanesN (m.group r (groupRegs e)) w (512 * groupRegs e / w)

/-- The elements of a group replaced. -/
def Micro.putElems (m : Micro) (r w : Nat) (l : List Nat) : Micro :=
  let n := packN w l
  let put (t : Tab (BitVec 512)) (k : Nat) : Tab (BitVec 512) := Tab.set 0 t ((r + k) % 32) (BitVec.ofNat 512 (n / 2 ^ (512 * k)))
  { m with v := (List.range (l.length * w / 512)).foldl put m.v }

/-- Bit `i` of the mask register. -/
def Micro.maskBit (m : Micro) (r i : Nat) : Bool := (Tab.get 0 m.v r).toNat.testBit i

/-- A register number is the first of a group of log2 size `e`, which lies within the 32 registers. -/
def groupOk (r : Nat) (e : Int) : Bool := decide (-3 ≤ e ∧ e ≤ 3) && r % groupRegs e == 0

/-- A destination group may overlap a source group: the same element width, the source the lowest part of a wider source, or
the source the highest part of a wider destination. -/
def overlapOk (d : Nat) (de : Int) (dw s : Nat) (se : Int) (sw : Nat) : Bool :=
  let dn := groupRegs de
  let sn := groupRegs se
  if d + dn ≤ s ∨ s + sn ≤ d then true
  else if dw = sw then true
  else if dw < sw then d == s
  else decide (0 ≤ se) && d + dn == s + sn

/-- What an instruction does to one element of its destination: nothing, a value, or what its tail or mask policy leaves. -/
inductive Elem where
  | keep
  | val (x : Nat)
  | agnostic (b : Bool)
  deriving DecidableEq, Repr

/-- The element that stands after an instruction; an agnostic one keeps its value or becomes all ones. -/
def Micro.elemAfter (m : Micro) (w i old : Nat) : Elem → Nat
  | .keep => old
  | .val x => x % 2 ^ w
  | .agnostic b => if b && agnosticOnes (4096 * m.instret + i) then 2 ^ w - 1 else old

/-- The elements of a destination group after an instruction: those from vstart and from `lo` to vl that are active take `f`, the
earlier ones stay, the rest are what the policies leave. -/
def Micro.putFrom (m : Micro) (lo d : Nat) (e : Int) (w : Nat) (vm : Bool) (f : Nat → Nat → Nat) : Micro :=
  let vl := m.vl.toNat
  let t := m.vtype.toNat
  let one (i old : Nat) : Nat := m.elemAfter w i old
    (if i < m.vstart.toNat ∨ vl ≤ m.vstart.toNat ∨ i < min lo vl then .keep
     else if vl ≤ i then .agnostic (t.testBit 6)
     else if vm || m.maskBit 0 i then .val (f i old)
     else .agnostic (t.testBit 7))
  m.putElems d w (mapFrom one 0 (m.elems d e w))

/-- The same from element 0. -/
def Micro.putBody (m : Micro) (d : Nat) (e : Int) (w : Nat) (vm : Bool) (f : Nat → Nat → Nat) : Micro := m.putFrom 0 d e w vm f

/-- A mask destination: bits from vstart to vl that are active take `f`; its tail is agnostic. -/
def Micro.putMask (m : Micro) (d : Nat) (vm : Bool) (f : Nat → Bool) : Micro :=
  let vl := m.vl.toNat
  let one (i old : Nat) : Nat := m.elemAfter 1 i old
    (if i < m.vstart.toNat ∨ vl ≤ m.vstart.toNat then .keep
     else if vl ≤ i then .agnostic true
     else if vm || m.maskBit 0 i then .val (bit (f i))
     else .agnostic (m.vtype.toNat.testBit 7))
  m.putElems d 1 (mapFrom one 0 (m.elems d 0 1))

/-- The instruction is over: vstart is 0. -/
def Micro.vdone (m : Micro) : Micro := { m with vstart := 0 }

/-! ### Arithmetic on elements -/

/-- A value shifted right and rounded by a vxrm mode. -/
def rvRound (mode : Nat) (x : Int) (d : Nat) : Int :=
  if d = 0 then x
  else
    let q := x / ((2 ^ d : Nat) : Int)
    let r := (x % ((2 ^ d : Nat) : Int)).toNat
    let half := 2 ^ (d - 1)
    let up := match mode with
      | 0 => decide (half ≤ r)
      | 1 => decide (half < r) || (r == half && q % 2 == 1)
      | 2 => false
      | _ => q % 2 == 0 && r != 0
    if up then q + 1 else q

/-- A value limited to `w` bits, and whether it was. -/
def rvSat (uns : Bool) (w : Nat) (x : Int) : Nat × Bool :=
  let lo : Int := if uns then 0 else -((2 ^ (w - 1) : Nat) : Int)
  let hi : Int := if uns then ((2 ^ w : Nat) : Int) - 1 else ((2 ^ (w - 1) : Nat) : Int) - 1
  (wrapN w (max lo (min hi x)), decide (x < lo ∨ hi < x))

/-- A result that no limit reaches. -/
def plainRes (w : Nat) (x : Int) : Option (Nat × Bool) := some (wrapN w x, false)

/-- The single-width operations of OPIVV, OPIVX and OPIVI on elements `a` of vs2 and `b` of the other source; none where
there is none of this number. -/
def rvvInt (f6 w mode a b : Nat) : Option (Nat × Bool) :=
  let x := sextN w a
  let y := sextN w b
  let sh := b % w
  match f6 with
  | 0 => plainRes w (a + b : Nat)
  | 2 => plainRes w (x - y)
  | 3 => plainRes w (y - x)
  | 4 => plainRes w (min a b : Nat)
  | 5 => plainRes w (min x y)
  | 6 => plainRes w (max a b : Nat)
  | 7 => plainRes w (max x y)
  | 9 => plainRes w (a &&& b : Nat)
  | 10 => plainRes w (a ||| b : Nat)
  | 11 => plainRes w (a ^^^ b : Nat)
  | 32 => some (rvSat true w (a + b : Nat))
  | 33 => some (rvSat false w (x + y))
  | 34 => some (rvSat true w ((a : Int) - b))
  | 35 => some (rvSat false w (x - y))
  | 37 => plainRes w (a * 2 ^ sh : Nat)
  | 39 => if w = 64 then none else some (rvSat false w (rvRound mode (x * y) (w - 1)))
  | 40 => plainRes w (a / 2 ^ sh : Nat)
  | 41 => plainRes w (x / ((2 ^ sh : Nat) : Int))
  | 42 => plainRes w (rvRound mode a sh)
  | 43 => plainRes w (rvRound mode x sh)
  | _ => none

/-- The single-width operations of OPMVV and OPMVX; `c` is the destination's element. -/
def rvvMul (f6 w mode a b c : Nat) : Option (Nat × Bool) :=
  let x := sextN w a
  let y := sextN w b
  let high (p : Int) : Option (Nat × Bool) := if w = 64 then none else plainRes w (p / ((2 ^ w : Nat) : Int))
  match f6 with
  | 8 => plainRes w (rvRound mode (a + b : Nat) 1)
  | 9 => plainRes w (rvRound mode (x + y) 1)
  | 10 => plainRes w (rvRound mode ((a : Int) - b) 1)
  | 11 => plainRes w (rvRound mode (x - y) 1)
  | 32 => plainRes w (rvDivide w true false a b)
  | 33 => plainRes w (rvDivide w false false a b)
  | 34 => plainRes w (rvDivide w true true a b)
  | 35 => plainRes w (rvDivide w false true a b)
  | 36 => high (a * b : Nat)
  | 37 => plainRes w (x * y)
  | 38 => high (x * b)
  | 39 => high (x * y)
  | 41 => plainRes w (y * c + x)
  | 43 => plainRes w (x - y * c)
  | 45 => plainRes w (y * x + c)
  | 47 => plainRes w (c - y * x)
  | _ => none

/-- The widening operations of OPMVV and OPMVX: elements `a` of vs2 and `b` of the other source at `w` bits, of vs2 at 2w for
the forms 52 to 55, and the destination's element `c` at 2w. -/
def rvvWiden (f6 w a b c : Nat) : Option Int :=
  let x := sextN w a
  let y := sextN w b
  match f6 with
  | 48 => some (a + b : Nat)
  | 49 => some (x + y)
  | 50 => some ((a : Int) - b)
  | 51 => some (x - y)
  | 52 => some (a + b : Nat)
  | 53 => some (a + y)
  | 54 => some ((a : Int) - b)
  | 55 => some (a - y)
  | 56 => some (a * b : Nat)
  | 58 => some (x * b)
  | 59 => some (x * y)
  | 60 => some (a * b + c : Nat)
  | 61 => some (x * y + c)
  | 62 => some (x * b + c)
  | 63 => some (a * y + c)
  | _ => none

/-- The comparisons. -/
def rvvCmp (f6 w a b : Nat) : Bool :=
  let x := sextN w a
  let y := sextN w b
  match f6 with
  | 24 => a == b
  | 25 => a != b
  | 26 => decide (a < b)
  | 27 => decide (x < y)
  | 28 => decide (a ≤ b)
  | 29 => decide (x ≤ y)
  | 30 => decide (b < a)
  | _ => decide (y < x)

/-- The reductions at a width. -/
def rvvRed (f6 w a b : Nat) : Nat :=
  let x := sextN w a
  let y := sextN w b
  match f6 with
  | 0 => (a + b) % 2 ^ w
  | 1 => a &&& b
  | 2 => a ||| b
  | 3 => a ^^^ b
  | 4 => min a b
  | 5 => wrapN w (min x y)
  | 6 => max a b
  | _ => wrapN w (max x y)

/-- The logical operations of mask registers: vs2 `a`, vs1 `b`. -/
def rvvMaskOp (f6 : Nat) (a b : Bool) : Bool :=
  match f6 with
  | 24 => a && !b
  | 25 => a && b
  | 26 => a || b
  | 27 => xor a b
  | 28 => a || !b
  | 29 => !(a && b)
  | 30 => !(a || b)
  | _ => !(xor a b)

/-! ### The instructions of OP-V -/

/-- What an instruction word gives: its fields, and the configuration it executes under. -/
structure VInst where
  f6 : Nat
  vm : Bool
  vs2 : Nat
  vs1 : Nat
  d : Nat
  /-- 0 vector, 1 scalar register, 2 immediate -/
  form : Nat
  /-- element width, and log2 of LMUL -/
  w : Nat
  e : Int
  deriving DecidableEq, Repr

/-- The numbers of an operation that exist in a form. -/
def intForm (f6 form : Nat) : Bool :=
  match form with
  | 0 => f6 != 3
  | 1 => true
  | _ => !([2, 4, 5, 6, 7, 34, 35, 39].contains f6)

/-- The other source's elements: vs1's, or a scalar or immediate at every element. -/
def Micro.other (m : Micro) (i : VInst) (w : Nat) (e : Int) (zero : Bool) : Nat → Nat :=
  match i.form with
  | 0 => let l := m.elems i.vs1 e w; fun k => l.getD k 0
  | 1 => fun _ => (m.rx i.vs1).toNat % 2 ^ w
  | _ => fun _ => if zero then i.vs1 else wrapN w (sextN 5 i.vs1)

/-- vs1 is a register group of the form's own, or no group. -/
def VInst.srcOk (i : VInst) (e : Int) : Bool := i.form != 0 || groupOk i.vs1 e

/-- A masked instruction does not write its mask with other than a mask or a scalar element. -/
def VInst.destOk (i : VInst) (e : Int) : Bool := groupOk i.d e && (i.vm || i.d != 0)

/-- A result with its limits noted: vxsat is set when an active element was limited. -/
def Micro.noteSat (m : Micro) (vm : Bool) (f : Nat → Bool) : Micro :=
  let hit := (List.range m.vl.toNat).any fun i => decide (m.vstart.toNat ≤ i) && (vm || m.maskBit 0 i) && f i
  if hit then { m with vcsr := m.vcsr ||| 1 } else m

/-- A single-width operation, element by element. -/
def Micro.vsingle (m : Micro) (i : VInst) (op : Nat → Nat → Nat → Option (Nat × Bool)) (zero : Bool) : Option Micro :=
  let a := m.elems i.vs2 i.e i.w
  let b := m.other i i.w i.e zero
  let c := m.elems i.d i.e i.w
  let r (k old : Nat) : Option (Nat × Bool) := op (a.getD k 0) (b k) old
  if ¬ i.destOk i.e ∨ ¬ groupOk i.vs2 i.e ∨ ¬ i.srcOk i.e ∨ (op 0 0 0).isNone then none
  else
    let m1 := m.noteSat i.vm fun k => ((r k (c.getD k 0)).map (·.2)).getD false
    some (m1.putBody i.d i.e i.w i.vm fun k old => ((r k old).map (·.1)).getD 0).vdone

/-- A widening operation; `wide` when vs2 has the destination's width. -/
def Micro.vwiden (m : Micro) (i : VInst) (wide : Bool) : Option Micro :=
  let sw := if wide then 2 * i.w else i.w
  let se := if wide then i.e + 1 else i.e
  let a := m.elems i.vs2 se sw
  let b := m.other i i.w i.e false
  if i.w = 64 ∨ ¬ i.destOk (i.e + 1) ∨ ¬ groupOk i.vs2 se ∨ ¬ i.srcOk i.e ∨ (rvvWiden i.f6 i.w 0 0 0).isNone ∨
      ¬ overlapOk i.d (i.e + 1) (2 * i.w) i.vs2 se sw ∨
      (i.form = 0 ∧ ¬ overlapOk i.d (i.e + 1) (2 * i.w) i.vs1 i.e i.w) then none
  else
    some (m.putBody i.d (i.e + 1) (2 * i.w) i.vm fun k old =>
      wrapN (2 * i.w) ((rvvWiden i.f6 i.w (a.getD k 0) (b k) old).getD 0)).vdone

/-- The narrowing shifts and clips of a source of twice the width. -/
def Micro.vnarrow (m : Micro) (i : VInst) : Option Micro :=
  let w2 := 2 * i.w
  let a := m.elems i.vs2 (i.e + 1) w2
  let b := m.other i i.w i.e true
  let mode := (m.vcsr >>> 1).toNat
  let r (k : Nat) : Nat × Bool :=
    let x := a.getD k 0
    let sh := b k % w2
    match i.f6 with
    | 44 => (x / 2 ^ sh % 2 ^ i.w, false)
    | 45 => (wrapN i.w (sextN w2 x / ((2 ^ sh : Nat) : Int)), false)
    | 46 => rvSat true i.w (rvRound mode x sh)
    | _ => rvSat false i.w (rvRound mode (sextN w2 x) sh)
  if i.w = 64 ∨ ¬ i.destOk i.e ∨ ¬ groupOk i.vs2 (i.e + 1) ∨ ¬ i.srcOk i.e ∨ ¬ overlapOk i.d i.e i.w i.vs2 (i.e + 1) w2 then none
  else some ((m.noteSat i.vm fun k => (r k).2).putBody i.d i.e i.w i.vm fun k _ => (r k).1).vdone

/-- Additions and subtractions with a carry or borrow from the mask register. -/
def Micro.vcarry (m : Micro) (i : VInst) : Option Micro :=
  let a := m.elems i.vs2 i.e i.w
  let b := m.other i i.w i.e false
  let sub := decide (18 ≤ i.f6)
  let cin (k : Nat) : Nat := if i.vm then 0 else bit (m.maskBit 0 k)
  let r (k : Nat) : Int := if sub then (a.getD k 0 : Int) - b k - cin k else (a.getD k 0 + b k + cin k : Nat)
  if ¬ groupOk i.vs2 i.e ∨ ¬ i.srcOk i.e ∨ (sub ∧ i.form = 2) then none
  else if i.f6 % 2 = 0 then
    (if i.vm ∨ i.d = 0 ∨ ¬ groupOk i.d i.e then none else some (m.putBody i.d i.e i.w true fun k _ => wrapN i.w (r k)).vdone)
  else if ¬ overlapOk i.d 0 1 i.vs2 i.e i.w ∨ (i.form = 0 ∧ ¬ overlapOk i.d 0 1 i.vs1 i.e i.w) then none
  else some (m.putMask i.d true fun k => decide (r k < 0 ∨ ((2 ^ i.w : Nat) : Int) ≤ r k)).vdone

/-- Comparisons into a mask register. -/
def Micro.vcompare (m : Micro) (i : VInst) : Option Micro :=
  let a := m.elems i.vs2 i.e i.w
  let b := m.other i i.w i.e false
  let has : Bool := match i.form with
    | 0 => decide (i.f6 < 30)
    | 1 => true
    | _ => i.f6 != 26 && i.f6 != 27
  if ¬ has ∨ ¬ groupOk i.vs2 i.e ∨ ¬ i.srcOk i.e ∨ ¬ overlapOk i.d 0 1 i.vs2 i.e i.w ∨
      (i.form = 0 ∧ ¬ overlapOk i.d 0 1 i.vs1 i.e i.w) then none
  else some (m.putMask i.d i.vm fun k => rvvCmp i.f6 i.w (a.getD k 0) (b k)).vdone

/-- A reduction of vs2's active elements with vs1's first, at a width of its own; the rest of the destination is tail. -/
def Micro.vreduce (m : Micro) (i : VInst) (w : Nat) (conv : Nat → Nat) (f : Nat → Nat → Nat) : Option Micro :=
  if m.vstart ≠ 0 ∨ ¬ groupOk i.vs2 i.e ∨ 64 < w then none
  else if m.vl = 0 then some m.vdone
  else
    let a := m.elems i.vs2 i.e i.w
    let x := (List.range m.vl.toNat).foldl (fun acc k => if i.vm || m.maskBit 0 k then f acc (conv (a.getD k 0)) else acc)
      ((m.elems i.vs1 0 w).headD 0)
    let one (k old : Nat) : Nat := m.elemAfter w k old (if k = 0 then .val x else .agnostic (m.vtype.toNat.testBit 6))
    some (m.putElems i.d w (mapFrom one 0 (m.elems i.d 0 w))).vdone

/-- Two groups share a register. -/
def groupsMeet (d : Nat) (de : Int) (s : Nat) (se : Int) : Bool := decide (d < s + groupRegs se ∧ s < d + groupRegs de)

/-- vrgather: each element takes the one that its index names, 0 beyond the group. -/
def Micro.vgather (m : Micro) (i : VInst) (idx : Nat → Nat) (s : Option (Nat × Int)) : Option Micro :=
  let a := m.elems i.vs2 i.e i.w
  let n := groupElems i.e i.w
  let other : Bool := match s with
    | some r => groupOk r.1 r.2 && !groupsMeet i.d i.e r.1 r.2
    | none => true
  if ¬ i.destOk i.e ∨ ¬ groupOk i.vs2 i.e ∨ groupsMeet i.d i.e i.vs2 i.e ∨ ¬ other then none
  else some (m.putBody i.d i.e i.w i.vm fun k _ => if idx k < n then a.getD (idx k) 0 else 0).vdone

/-- The distance of a slide or the index of a gather that a scalar or an immediate gives. -/
def Micro.offset (m : Micro) (i : VInst) : Nat := if i.form = 1 then (m.rx i.vs1).toNat else i.vs1

/-- vslideup, which leaves the elements below the offset, and vslidedown. -/
def Micro.vslide (m : Micro) (i : VInst) (up : Bool) : Option Micro :=
  let a := m.elems i.vs2 i.e i.w
  let o := m.offset i
  let n := groupElems i.e i.w
  if ¬ i.destOk i.e ∨ ¬ groupOk i.vs2 i.e ∨ (up ∧ groupsMeet i.d i.e i.vs2 i.e) then none
  else if up then some (m.putFrom o i.d i.e i.w i.vm fun k _ => a.getD (k - o) 0).vdone
  else some (m.putBody i.d i.e i.w i.vm fun k _ => if k + o < n then a.getD (k + o) 0 else 0).vdone

/-- vslide1up and vslide1down. -/
def Micro.vslide1 (m : Micro) (i : VInst) (up : Bool) : Option Micro :=
  let a := m.elems i.vs2 i.e i.w
  let x := (m.rx i.vs1).toNat
  if ¬ i.destOk i.e ∨ ¬ groupOk i.vs2 i.e ∨ (up ∧ groupsMeet i.d i.e i.vs2 i.e) then none
  else if up then some (m.putBody i.d i.e i.w i.vm fun k _ => if k = 0 then x else a.getD (k - 1) 0).vdone
  else some (m.putBody i.d i.e i.w i.vm fun k _ => if k + 1 = m.vl.toNat then x else a.getD (k + 1) 0).vdone

/-- vmerge and the moves to every element. -/
def Micro.vmerge (m : Micro) (i : VInst) : Option Micro :=
  let a := m.elems i.vs2 i.e i.w
  let b := m.other i i.w i.e false
  if ¬ groupOk i.d i.e ∨ ¬ i.srcOk i.e ∨ (i.vm ∧ i.vs2 ≠ 0) ∨ (¬ i.vm ∧ (¬ groupOk i.vs2 i.e ∨ i.d = 0)) then none
  else some (m.putBody i.d i.e i.w true fun k _ => if i.vm || m.maskBit 0 k then b k else a.getD k 0).vdone

/-- Whole registers moved. -/
def Micro.vmoveRegs (m : Micro) (i : VInst) : Option Micro :=
  let n := i.vs1 + 1
  if ¬ i.vm ∨ (n ≠ 1 ∧ n ≠ 2 ∧ n ≠ 4 ∧ n ≠ 8) ∨ i.d % n ≠ 0 ∨ i.vs2 % n ≠ 0 then none
  else
    let src := lanesN (m.group i.vs2 n) 8 (64 * n)
    let from_ := m.vstart.toNat * (i.w / 8)
    some (m.putElems i.d 8 (mapFrom (fun k old => if k < from_ then old else src.getD k 0) 0 (lanesN (m.group i.d n) 8 (64 * n)))).vdone

/-- Extensions from a half, a quarter or an eighth of the width. -/
def Micro.vextend (m : Micro) (i : VInst) : Option Micro :=
  let lg := match i.vs1 / 2 with
    | 1 => 3
    | 2 => 2
    | 3 => 1
    | _ => 0
  let sw := i.w / 2 ^ lg
  let se : Int := i.e - (lg : Nat)
  let a := m.elems i.vs2 se sw
  if lg = 0 ∨ 4 ≤ i.vs1 / 2 ∨ sw < 8 ∨ ¬ i.destOk i.e ∨ ¬ groupOk i.vs2 se ∨ ¬ overlapOk i.d i.e i.w i.vs2 se sw then none
  else
    some (m.putBody i.d i.e i.w i.vm fun k _ =>
      if i.vs1 % 2 = 0 then a.getD k 0 else wrapN i.w (sextN sw (a.getD k 0))).vdone

/-- The active elements below `k` whose bit of vs2 is set. -/
def Micro.setBelow (m : Micro) (i : VInst) (k : Nat) : Nat :=
  ((List.range k).filter fun j => (i.vm || m.maskBit 0 j) && m.maskBit i.vs2 j).length

/-- vmsbf, vmsof, vmsif, viota and vid. -/
def Micro.vmaskUnary (m : Micro) (i : VInst) : Option Micro :=
  let before (k : Nat) : Bool := m.setBelow i k == 0
  let put (f : Nat → Bool) : Option Micro :=
    if m.vstart ≠ 0 ∨ i.d = i.vs2 ∨ (¬ i.vm ∧ i.d = 0) then none else some (m.putMask i.d i.vm f).vdone
  match i.vs1 with
  | 1 => put fun k => before (k + 1)
  | 2 => put fun k => before k && m.maskBit i.vs2 k
  | 3 => put before
  | 16 =>
    if m.vstart ≠ 0 ∨ ¬ i.destOk i.e ∨ groupsMeet i.d i.e i.vs2 0 then none
    else some (m.putBody i.d i.e i.w i.vm fun k _ => m.setBelow i k).vdone
  | 17 => if i.vs2 ≠ 0 ∨ ¬ i.destOk i.e then none else some (m.putBody i.d i.e i.w i.vm fun k _ => k).vdone
  | _ => none

/-- vmv.x.s, vcpop.m and vfirst.m. -/
def Micro.vtoScalar (m : Micro) (i : VInst) : Option Micro :=
  let vl := m.vl.toNat
  let put (x : Int) : Option Micro := some (m.wx i.d (BitVec.ofInt 64 x)).vdone
  match i.vs1 with
  | 0 => if i.vm then put (sextN i.w ((m.elems i.vs2 0 i.w).headD 0)) else none
  | 16 => if m.vstart ≠ 0 then none else put (m.setBelow i vl)
  | 17 =>
    if m.vstart ≠ 0 then none
    else put (match (List.range vl).find? fun k => (i.vm || m.maskBit 0 k) && m.maskBit i.vs2 k with
      | some k => (k : Int)
      | none => -1)
  | _ => none

/-- vmv.s.x: the first element; the rest of the register is tail. -/
def Micro.vfromScalar (m : Micro) (i : VInst) : Option Micro :=
  if ¬ i.vm ∨ i.vs2 ≠ 0 then none
  else if m.vl.toNat ≤ m.vstart.toNat then some m.vdone
  else
    let one (k old : Nat) : Nat := m.elemAfter i.w k old
      (if k = 0 then .val (m.rx i.vs1).toNat else .agnostic (m.vtype.toNat.testBit 6))
    some (m.putElems i.d i.w (mapFrom one 0 (m.elems i.d 0 i.w))).vdone

/-- vcompress: the elements that vs1's mask names, packed; the rest of the destination is tail. -/
def Micro.vcompress (m : Micro) (i : VInst) : Option Micro :=
  if ¬ i.vm ∨ m.vstart ≠ 0 ∨ ¬ groupOk i.d i.e ∨ ¬ groupOk i.vs2 i.e ∨ groupsMeet i.d i.e i.vs2 i.e ∨ groupsMeet i.d i.e i.vs1 0 then none
  else
    let a := m.elems i.vs2 i.e i.w
    let l := ((List.range m.vl.toNat).filter (m.maskBit i.vs1)).map fun k => a.getD k 0
    let one (k old : Nat) : Nat := m.elemAfter i.w k old
      (if m.vl = 0 then .keep else if k < l.length then .val (l.getD k 0) else .agnostic (m.vtype.toNat.testBit 6))
    some (m.putElems i.d i.w (mapFrom one 0 (m.elems i.d i.e i.w))).vdone

/-- OPIVV, OPIVX and OPIVI. -/
def Micro.vint (m : Micro) (i : VInst) : Option Micro :=
  let mode := (m.vcsr >>> 1).toNat
  match i.f6 with
  | 12 =>
    if i.form = 0 then
      let l := m.elems i.vs1 i.e i.w
      m.vgather i (fun k => l.getD k 0) (some (i.vs1, i.e))
    else m.vgather i (fun _ => m.offset i) none
  | 14 =>
    if i.form = 0 then
      let se : Int := i.e + 4 - (Nat.log2 i.w : Nat)
      let l := m.elems i.vs1 se 16
      m.vgather i (fun k => l.getD k 0) (some (i.vs1, se))
    else m.vslide i true
  | 15 => if i.form = 0 then none else m.vslide i false
  | 16 => m.vcarry i
  | 17 => m.vcarry i
  | 18 => m.vcarry i
  | 19 => m.vcarry i
  | 23 => m.vmerge i
  | 39 => if i.form = 2 then m.vmoveRegs i else m.vsingle i (fun a b _ => rvvInt 39 i.w mode a b) false
  | 44 => m.vnarrow i
  | 45 => m.vnarrow i
  | 46 => m.vnarrow i
  | 47 => m.vnarrow i
  | 48 => if i.form = 0 ∧ i.w < 64 then m.vreduce i (2 * i.w) id (rvvRed 0 (2 * i.w)) else none
  | 49 => if i.form = 0 ∧ i.w < 64 then m.vreduce i (2 * i.w) (fun x => wrapN (2 * i.w) (sextN i.w x)) (rvvRed 0 (2 * i.w)) else none
  | f =>
    if 24 ≤ f ∧ f < 32 then m.vcompare i
    else if intForm f i.form then m.vsingle i (fun a b _ => rvvInt f i.w mode a b) ([37, 40, 41, 42, 43].contains f)
    else none

/-- OPMVV and OPMVX. -/
def Micro.vmul (m : Micro) (i : VInst) : Option Micro :=
  let mode := (m.vcsr >>> 1).toNat
  let vv := i.form == 0
  match i.f6 with
  | 14 => if vv then none else m.vslide1 i true
  | 15 => if vv then none else m.vslide1 i false
  | 16 => if vv then m.vtoScalar i else m.vfromScalar i
  | 18 => if vv then m.vextend i else none
  | 20 => if vv then m.vmaskUnary i else none
  | 23 => if vv then m.vcompress i else none
  | 62 => if vv then none else m.vwiden i false
  | f =>
    if f < 8 then (if vv then m.vreduce i i.w id (rvvRed f i.w) else none)
    else if 24 ≤ f ∧ f < 32 then
      (if vv ∧ i.vm then some (m.putMask i.d true fun k => rvvMaskOp f (m.maskBit i.vs2 k) (m.maskBit i.vs1 k)).vdone else none)
    else if 48 ≤ f then m.vwiden i (decide (52 ≤ f ∧ f < 56))
    else m.vsingle i (rvvMul f i.w mode) false

/-! ### Vector loads and stores -/

/-- An access of a load or store: the first field's register, element width in bytes, log2 size of each field's group, fields,
elements, and the address of a field of an element. -/
structure VAccess where
  d : Nat
  n : Nat
  e : Int
  nf : Nat
  vl : Nat
  vm : Bool
  addr : Nat → Nat → Nat
  first : Bool := false

/-- An access that is not illegal: whole groups within the 32 registers, a masked load not over its mask. -/
def VAccess.ok (a : VAccess) (isLoad : Bool) : Bool :=
  groupOk a.d a.e && decide (a.nf * groupRegs a.e ≤ 8 ∧ a.d + a.nf * groupRegs a.e ≤ 32) && (!isLoad || a.vm || a.d != 0)

/-- The elements from vstart on are loaded, one after another; the loads of a fault-only-first access end before the first
element that is an exception. -/
def RvEnv.vloadElems (v : RvEnv) (m : Micro) (a : VAccess) : Nat → Nat → List (Option (List Nat)) → Option (List (Option (List Nat)))
  | 0, _, acc => some acc
  | f + 1, k, acc =>
    if k < m.vstart.toNat ∨ (¬ a.vm ∧ ¬ m.maskBit 0 k) then v.vloadElems m a f (k + 1) (acc ++ [none])
    else
      match (List.range a.nf).mapM fun j => v.load m (a.addr k j) a.n with
      | some l => v.vloadElems m a f (k + 1) (acc ++ [some l])
      | none => if a.first ∧ 0 < k then some acc else none

/-- A vector load. -/
def RvEnv.vload (v : RvEnv) (m : Micro) (a : VAccess) : Option Micro :=
  if ¬ a.ok true then none
  else
    (v.vloadElems m a a.vl 0 []).map fun l =>
      let t := m.vtype.toNat
      let one (j k old : Nat) : Nat := m.elemAfter (8 * a.n) k old
        (if k < m.vstart.toNat ∨ a.vl ≤ m.vstart.toNat then .keep
         else match l[k]? with
          | some (some x) => .val (x.getD j 0)
          | some none => .agnostic (t.testBit 7)
          | none => .agnostic (t.testBit 6))
      let m1 := (List.range a.nf).foldl (fun u j =>
        let r := a.d + j * groupRegs a.e
        u.putElems r (8 * a.n) (mapFrom (one j) 0 (u.elems r a.e (8 * a.n)))) m
      (if a.first then { m1 with vl := BitVec.ofNat 64 l.length } else m1).vdone

/-- A vector store. -/
def Micro.vstore (m : Micro) (a : VAccess) : Option Micro :=
  if ¬ a.ok false then none
  else
    let src := (List.range a.nf).map fun j => m.elems (a.d + j * groupRegs a.e) a.e (8 * a.n)
    let one (u : Micro) (k : Nat) : Option Micro :=
      if k < m.vstart.toNat ∨ (¬ a.vm ∧ ¬ m.maskBit 0 k) then some u
      else (List.range a.nf).foldlM (fun u j => u.store (a.addr k j) a.n ((src.getD j []).getD k 0)) u
    ((List.range a.vl).foldlM one m).map Micro.vdone

/-- The access that a load's or store's word names under the configuration; none where it is illegal. -/
def Micro.vaccess (m : Micro) (w : Nat) (isLoad : Bool) : Option VAccess :=
  let lgOf : Nat → Option Nat := fun
    | 0 => some 0
    | 5 => some 1
    | 6 => some 2
    | 7 => some 3
    | _ => none
  (lgOf (rvF3 w)).bind fun lg =>
    let t := m.vtype.toNat
    let base := (m.rx (rvRs1 w)).toNat
    let nf := bitsN w 29 3 + 1
    let mop := bitsN w 26 2
    let vm := w.testBit 25
    let e : Int := rvvLmul t + lg - rvvSew t
    let vl := m.vl.toNat
    let at_ (x : Nat) : Nat := x % 2 ^ 64
    let legal (a : VAccess) : Option VAccess := if t < 256 then some a else none
    if bitsN w 28 1 ≠ 0 then none
    else if mop = 0 then
      match rvRs2 w with
      | 0 => legal { d := rvRd w, n := 2 ^ lg, e := e, nf := nf, vl := vl, vm := vm, addr := fun k j => at_ (base + (k * nf + j) * 2 ^ lg) }
      | 8 =>
        if ¬ vm ∨ (nf ≠ 1 ∧ nf ≠ 2 ∧ nf ≠ 4 ∧ nf ≠ 8) ∨ (¬ isLoad ∧ lg ≠ 0) then none
        else some { d := rvRd w, n := 2 ^ lg, e := (Nat.log2 nf : Nat), nf := 1, vl := nf * 64 / 2 ^ lg, vm := true
                    addr := fun k _ => at_ (base + k * 2 ^ lg) }
      | 11 =>
        if ¬ vm ∨ nf ≠ 1 ∨ lg ≠ 0 then none
        else legal { d := rvRd w, n := 1, e := 0, nf := 1, vl := (vl + 7) / 8, vm := true, addr := fun k _ => at_ (base + k) }
      | 16 =>
        if ¬ isLoad then none
        else legal { d := rvRd w, n := 2 ^ lg, e := e, nf := nf, vl := vl, vm := vm, first := true
                     addr := fun k j => at_ (base + (k * nf + j) * 2 ^ lg) }
      | _ => none
    else if mop = 2 then
      let stride := (m.rx (rvRs2 w)).toNat
      legal { d := rvRd w, n := 2 ^ lg, e := e, nf := nf, vl := vl, vm := vm, addr := fun k j => at_ (base + k * stride + j * 2 ^ lg) }
    else
      let idx := m.elems (rvRs2 w) e (8 * 2 ^ lg)
      let n := 2 ^ rvvSew t
      let a : VAccess := { d := rvRd w, n := n, e := rvvLmul t, nf := nf, vl := vl, vm := vm
                           addr := fun k j => at_ (base + idx.getD k 0 + j * n) }
      if ¬ groupOk (rvRs2 w) e ∨ (isLoad ∧ nf ≠ 1 ∧ rvRd w < rvRs2 w + groupRegs e ∧ rvRs2 w < rvRd w + nf * groupRegs (rvvLmul t)) ∨
          (isLoad ∧ nf = 1 ∧ ¬ overlapOk (rvRd w) (rvvLmul t) (8 * n) (rvRs2 w) e (8 * 2 ^ lg)) then none
      else legal a

/-- One vector instruction: OP-V, a load or a store. -/
def RvEnv.vector (v : RvEnv) (m : Micro) (w : Nat) : Option Micro :=
  let t := m.vtype.toNat
  let i (form : Nat) : VInst :=
    { f6 := bitsN w 26 6, vm := w.testBit 25, vs2 := rvRs2 w, vs1 := rvRs1 w, d := rvRd w, form := form
      w := 8 * 2 ^ rvvSew t, e := rvvLmul t }
  let legal (r : Option Micro) : Option Micro := if t < 256 then r else none
  match bitsN w 0 7 with
  | 0x07 => (m.vaccess w true).bind (v.vload m)
  | 0x27 => (m.vaccess w false).bind m.vstore
  | _ =>
    match rvF3 w with
    | 0 => legal (m.vint (i 0))
    | 2 => legal (m.vmul (i 0))
    | 3 => legal (m.vint (i 2))
    | 4 => legal (m.vint (i 1))
    | 6 => legal (m.vmul (i 1))
    | 7 => m.vset w
    | _ => none

/-! ### A routine's step -/

/-- One instruction of a routine that is not held: it is fetched from the routine store, executed and counted; an exception
ends the routine (R303, R306). -/
def RvEnv.step (v : RvEnv) (m : Micro) : Micro :=
  let r := if m.pc < 0x10000 then
      (v.load { m with pc := m.pc } m.pc 4).bind fun w =>
        if [0x07, 0x27, 0x57].contains (w % 128) then (v.vector m w).map fun u => { u with pc := m.pc + 4 } else v.scalar m w
    else none
  match r with
  | some u => { u with instret := u.instret + 1 }
  | none => m.quit 0xFFFF

/-- Up to `n` instructions, until the routine is held or has ended. -/
def RvEnv.run (v : RvEnv) : Nat → Micro → Micro
  | 0, m => m
  | n + 1, m => if m.exit.isSome ∨ m.needHold.isSome ∨ m.markHold.isSome then m else v.run n (v.step m)

/-- The word of the routine store, of those at some offsets, that the next instruction reads: its own, or one that its loads reach. -/
def RvEnv.reads (v : RvEnv) (offs : List Nat) (m : Micro) : Option Nat :=
  offs.find? fun o => decide (m.pc < o + 8 ∧ o < m.pc + 4) ||
    ((v.step m).exit.isNone && (({ v with bad := some o }).step m).exit.isSome)

/-- The same as `run` as far as an instruction that reads one of some words; that word. -/
def RvEnv.runTo (v : RvEnv) (offs : List Nat) : Nat → Micro → Micro × Option Nat
  | 0, m => (m, none)
  | n + 1, m =>
    if m.exit.isSome ∨ m.needHold.isSome ∨ m.markHold.isSome then (m, none)
    else
      match v.reads offs m with
      | some o => (m, some o)
      | none => v.runTo offs n (v.step m)

end Sys2Proof.Machine
end

