-- ==== Sys2Proof/Machine/Jobs.lean ====
section
/-!
DEFINITION. The jobs of copy engines and the events of their cards (R288 to R309): copies, conversions, rows, fills,
decoding, routines, chains, follow-ons, completion, faults, routine loads. An event of a card that is not due leaves the
state.
-/

namespace Sys2Proof.Machine

open Sys2Proof

/-- What an event of a card leaves: the state, the card, and the status of the command when it has ended. -/
structure JobRes where
  st : State
  card : Card
  fin : Option Nat := none

/-- What a command has moved: its card's count, unless that counts something else. -/
def Card.at (k : Card) (count : Nat) : Card := { k with count := if k.type = 8 then k.count else count }

/-- A move's outcome for its card: stopped, over, or to go on; `count` is what COUNT gives. -/
def State.afterMove (c e : Nat) (k : Card) (count : Nat) (ends : Bool) (r : Moved) : JobRes :=
  let k1 := { k.at count with
    pos := r.pos, rd := r.rd, wr := r.wr, aux := r.aux, sat := k.sat || r.sat
    repeated := k.repeated && r.pos == k.pos && r.rd == k.rd }
  match r.err with
  | some x => let q := r.st.cardStop c e k1 x; { st := q.1, card := q.2.1, fin := q.2.2 }
  | none => { st := r.st, card := k1, fin := if ends then some 0 else none }

/-! ### COPY, FILL, GATHER, SCATTER (R288 to R290) -/

def State.runCopy (s : State) (c e : Nat) (k : Card) : JobRes :=
  let n := ofLeBytes k.cur
  let m := k.mover c e
  let src := srcShape n 8
  let dst := dstShape n 8
  let t := src.total
  let r := s.moveBytes m src dst.next (fun u pos l => u.putAt m dst pos l) t (s.pieces (2 * t)) k.pos k.rd false
  State.afterMove c e k r.pos (decide (t ≤ r.pos)) r

/-- FILL: byte e mod 8 of the pattern at element e. -/
def State.fillLoop (s : State) (m : Mover) (dst : Shape) (pat : List Byte) (total : Nat) : Nat → Nat → Moved
  | 0, pos => { st := s, pos := pos }
  | f + 1, pos =>
    if total ≤ pos then { st := s, pos := pos }
    else
      let n := dst.next pos
      match s.engStore m (dst.addr pos).1 ((List.range n).map fun j => pat.getD ((pos + j) % 8) 0) with
      | .error x => { st := s, pos := pos, err := some x }
      | .ok s1 => s1.fillLoop m dst pat total f (pos + n)

def State.runFill (s : State) (c e : Nat) (k : Card) : JobRes :=
  let n := ofLeBytes k.cur
  let t := (dstShape n 8).total
  let r := s.fillLoop (k.mover c e) (dstShape n 8) (leBytes 8 (cmdSrc n)) t (s.pieces t) k.pos
  State.afterMove c e k r.pos (decide (t ≤ r.pos)) r

/-- The rows of a GATHER or SCATTER that are not named by an index: its destination or its source. -/
def rowShape (n : Nat) (scatter : Bool) : Shape :=
  if scatter then { base := cmdSrc n, run := cmdN0 n, n1 := cmdN1 n, s1 := cmdSs n 0 }
  else { base := cmdDst n, run := cmdN0 n, n1 := cmdN1 n, s1 := cmdDs n 0 }

/-- Rows by index. The row in turn on the side that the indices name waits for its index, the first four bytes of `aux`; whole pieces
are written, and whole pieces read until there is one (R259). Before an index at its bound ends the job the rows below it are
written. -/
def State.rowLoop (m : Mover) (n : Nat) (scatter : Bool) : Nat → Moved → Moved
  | 0, v => v
  | f + 1, v =>
    let run := cmdN0 n
    let flat := rowShape n scatter
    let reach := v.pos + v.rd.length
    let at_ := if scatter then v.pos else reach
    let i := at_ / run
    let o := at_ % run
    let idx := ofLeBytes (v.aux.take 4)
    let row := if scatter then cmdDst n + idx * cmdDs n 0 + o else cmdSrc n + idx * cmdSs n 0 + o
    let piece := min (run - o) (64 - row % 64)
    let stop (x : MoveErr) : Moved := { v with err := some x }
    let write (addr q : Nat) : Moved :=
      match v.st.engStore m addr (v.rd.take q) with
      | .error x => stop x
      | .ok u => rowLoop m n scatter f
          { v with st := u, pos := v.pos + q, rd := v.rd.drop q, aux := if scatter ∧ o + q = run then v.aux.drop 4 else v.aux }
    let read (addr q : Nat) : Moved :=
      match v.st.engLoad m addr q with
      | .error x => stop x
      | .ok (l, u) => rowLoop m n scatter f
          { v with st := u, rd := v.rd ++ l, aux := if ¬ scatter ∧ o + q = run then v.aux.drop 4 else v.aux }
    if flat.total ≤ v.pos then v
    else if ¬ scatter ∧ flat.next v.pos ≤ v.rd.length then write (flat.addr v.pos).1 (flat.next v.pos)
    else if v.aux.length < 4 then
      let a := cmdAux n + 4 * i + v.aux.length
      match v.st.engLoad m a (min (64 - a % 64) (4 * cmdN1 n - (4 * i + v.aux.length))) with
      | .error x => stop x
      | .ok (l, u) => rowLoop m n scatter f { v with st := u, aux := v.aux ++ l }
    else if cmdN2 n ≤ idx then
      if ¬ scatter ∧ v.rd ≠ [] then write (flat.addr v.pos).1 v.rd.length else stop .range
    else if ¬ scatter then read row piece
    else if piece ≤ v.rd.length then write row piece
    else read (flat.addr reach).1 (flat.next reach)

def State.runRows (s : State) (c e : Nat) (k : Card) (scatter : Bool) : JobRes :=
  let n := ofLeBytes k.cur
  let t := cmdN1 n * cmdN0 n
  let r := State.rowLoop (k.mover c e) n scatter (s.pieces (4 * t)) { st := s, pos := k.pos, rd := k.rd, aux := k.aux }
  State.afterMove c e k r.pos (decide (t ≤ r.pos)) r

/-! ### CONVERT (R291 to R293) -/

/-- The elements e … of a group converted: codes, residues with their limits, and whether a value was limited (R292). -/
structure Narrowed where
  codes : List Nat
  res : List Int
  sat : Bool

/-- The group's shift: its own for BX, else SH. -/
def groupShift (n : Nat) (xs : List Int) : Nat :=
  if cmdBx n then
    min 15 ((32 - minOf 31 (xs.map fun x => clsN 32 (wrapN 32 x)) - censusWidth (cmdDfmt n)) + cmdSh n)
  else cmdSh n

/-- The random word of element `e` of a CONVERT (R293). -/
def convertWord (seed : Word) (core eng draw e : Nat) : Nat :=
  (prng seed core (e % 65536) (BitVec.ofNat 64 (2 ^ 63 * eng + (draw + e / 65536) % 2 ^ 63))).toNat

/-- Elements from number `e0` on, as R292 narrows them. -/
def convertGroup (n : Nat) (rw : Nat → Nat) (e0 : Nat) (xs : List Int) : Narrowed :=
  let s := groupShift n xs
  let one (j : Nat) (x : Int) : Nat × Bool :=
    narrowTo (cmdDfmt n) (cmdClamp n) (cmdZp n) x s (cmdRnd n) (if cmdRnd n = 4 then rw (e0 + j) else 0)
  let ys := mapFrom one 0 xs
  let wr := fmtBits (cmdRfmt n)
  let rsh := s + 1 - wr
  let rs := List.zipWith (fun x (y : Nat × Bool) =>
    satW false wr (rnd (x - decodeElem (cmdDfmt n) (cmdZp n) y.1 * ((2 ^ s : Nat) : Int)) rsh 0 0)) xs ys
  { codes := ys.map (·.1), res := rs.map (·.1), sat := (ys.any (·.2)) || (cmdEf n && rs.any (·.2)) }

/-- The bytes at AUX that `k` elements make. -/
def auxMade (n k : Nat) : Nat :=
  if cmdBx n then (k + 31) / 32 else if cmdEf n then (k * fmtBits (cmdRfmt n) + 7) / 8 else 0

/-- A group of at most 32 elements from the bytes read: its destination bytes, and its sidecar byte or residues. -/
def Card.convert (k : Card) (c e n : Nat) (v : Moved) : Moved :=
  let sb := fmtBits (cmdSfmt n)
  let db := fmtBits (cmdDfmt n)
  let wr := fmtBits (cmdRfmt n)
  let cnt := min 32 (cmdElems n - v.pos)
  let xs := (lanesN (ofLeBytes (v.rd.take (cnt * sb / 8))) sb cnt).map (decodeElem (cmdSfmt n) 0)
  let r := convertGroup n (convertWord k.seed c e k.draw) v.pos xs
  { v with
    pos := v.pos + cnt, sat := v.sat || r.sat, rd := v.rd.drop (cnt * sb / 8)
    wr := v.wr ++ leBytes (cnt * db / 8) (packN db r.codes)
    aux := v.aux ++
      if cmdBx n then [BitVec.ofNat 8 (groupShift n xs % 32)]
      else if cmdEf n then leBytes ((cnt * wr + 7) / 8) (packN wr (r.res.map (wrapN wr)))
      else [] }

/-- A piece of AUX is written from byte `o`; of a last byte that only half belongs to the residues the other half stays (R51). -/
def State.putAux (s : State) (m : Mover) (n o : Nat) (l : List Byte) : Except MoveErr State :=
  let whole := cmdBx n || decide (o + l.length < auxBytes n) || decide (cmdElems n * fmtBits (cmdRfmt n) % 8 = 0)
  if whole then s.engStore m (cmdAux n + o) l
  else
    match s.engLoad m (cmdAux n + o + l.length - 1) 1 with
    | .error x => .error x
    | .ok (b, u) =>
      u.engStore m (cmdAux n + o) (l.dropLast ++ [BitVec.ofNat 8 (setBitsN (b.headD 0).toNat 0 4 ((l.getLast?.getD 0).toNat % 16))])

/-- The bytes of the destination written. -/
def Moved.written (v : Moved) (n : Nat) : Nat := v.pos * fmtBits (cmdDfmt n) / 8 - v.wr.length

/-- CONVERT goes on: whole pieces of the destination and of AUX are written, groups are converted as soon as they are read, and whole
pieces of the source are read (R259). `pos` counts the elements converted. -/
def State.convertLoop (m : Mover) (k : Card) (c e n : Nat) : Nat → Moved → Moved
  | 0, v => v
  | f + 1, v =>
    let sb := fmtBits (cmdSfmt n)
    let src := srcShape n sb
    let dst := dstShape n (fmtBits (cmdDfmt n))
    let o := v.written n
    let ao := auxMade n v.pos - v.aux.length
    let piece := min (64 - (cmdAux n + ao) % 64) (auxBytes n - ao)
    let from_ := v.pos * sb / 8 + v.rd.length
    let stop (x : MoveErr) : Moved := { v with err := some x }
    if v.wr ≠ [] ∧ dst.next o ≤ v.wr.length then
      match v.st.engStore m (dst.addr o).1 (v.wr.take (dst.next o)) with
      | .error x => stop x
      | .ok u => convertLoop m k c e n f { v with st := u, wr := v.wr.drop (dst.next o) }
    else if v.aux ≠ [] ∧ piece ≤ v.aux.length then
      match v.st.putAux m n ao (v.aux.take piece) with
      | .error x => stop x
      | .ok u => convertLoop m k c e n f { v with st := u, aux := v.aux.drop piece }
    else if cmdElems n ≤ v.pos then v
    else if min 32 (cmdElems n - v.pos) * sb / 8 ≤ v.rd.length then convertLoop m k c e n f (k.convert c e n v)
    else
      match v.st.engLoad m (src.addr from_).1 (src.next from_) with
      | .error x => stop x
      | .ok (l, u) => convertLoop m k c e n f { v with st := u, rd := v.rd ++ l }

def State.runConvert (s : State) (c e : Nat) (k : Card) : JobRes :=
  let n := ofLeBytes k.cur
  let r := State.convertLoop (k.mover c e) k c e n (s.pieces (12 * cmdElems n)) { st := s, pos := k.pos, rd := k.rd, wr := k.wr, aux := k.aux }
  State.afterMove c e k (r.written n * 8 / fmtBits (cmdDfmt n)) (decide (cmdElems n ≤ r.pos) && r.wr == [] && r.aux == []) r

/-! ### DECODE (R294 to R297) -/

/-- Why a block is not decoded. -/
inductive BlockErr where
  | move (x : MoveErr)
  | short
  | wide
  deriving DecidableEq, Repr

/-- The output bytes of a group from its bitmap and its nonzero bytes or indices. -/
def groupBytes (map : Nat) (vals : List Byte) : List Byte :=
  ((List.range 64).foldl (fun (acc : List Byte × List Byte) b =>
    if map.testBit b then (acc.1 ++ [acc.2.headD 0], acc.2.tail) else (acc.1 ++ [0], acc.2)) ([], vals)).1

/-- The values that a group's nonzero bytes have: raw bytes, or entries of the dictionary by 4-bit indices. -/
def groupVals (dict : Option (List Byte)) (cnt : Nat) (l : List Byte) : List Byte :=
  match dict with
  | none => l
  | some d => ((l.map fun b => [b.toNat % 16, b.toNat / 16]).flatten.take cnt).map fun i => d.getD i 0

/-- Compressed bytes from offset `o` on until `need` of them have been read, in whole pieces (R259); `rd` is what had been read. -/
def State.readAhead (s : State) (m : Mover) (n o need : Nat) : Nat → List Byte → Except MoveErr (List Byte × State)
  | 0, rd => .ok (rd, s)
  | f + 1, rd =>
    let a := cmdSrc n + o + rd.length
    if need ≤ rd.length then .ok (rd, s)
    else
      match s.engLoad m a (min (64 - a % 64) (cmdLen0 n - (o + rd.length))) with
      | .error x => .error x
      | .ok (l, s1) => s1.readAhead m n o need f (rd ++ l)

/-- `g` groups from compressed offset `o`: the output, where the input then stands, and what has been read beyond. -/
def State.decodeGroups (s : State) (m : Mover) (n : Nat) (dict : Option (List Byte)) :
    Nat → Nat → List Byte → Except BlockErr (List Byte × Nat × List Byte × State)
  | 0, o, rd => .ok ([], o, rd, s)
  | g + 1, o, rd =>
    if cmdLen0 n < o + 8 then .error .short
    else
      match s.readAhead m n o 8 4 rd with
      | .error x => .error (.move x)
      | .ok (l, s1) =>
        let map := ofLeBytes (l.take 8)
        let cnt := popcN 64 map
        let q := if dict.isSome then (cnt + 1) / 2 else cnt
        if cmdLen0 n < o + 8 + q then .error .short
        else
          match s1.readAhead m n o (8 + q) 4 l with
          | .error x => .error (.move x)
          | .ok (v, s2) =>
            match s2.decodeGroups m n dict g (o + 8 + q) (v.drop (8 + q)) with
            | .error x => .error x
            | .ok (r, o', rest, s3) => .ok (groupBytes map (groupVals dict cnt ((v.drop 8).take q)) ++ r, o', rest, s3)

/-- The copy of the dictionary that a stream decodes with: the inactive one until its first group activates it (R296). -/
def Engine.dictFor (g : Engine) (first : Bool) : List Byte := if g.dictGen != first then g.dict1 else g.dict0

/-- A block: its output of 64 groups or the rest, checked against the declared expansion (R297). -/
def State.decodeBlock (s : State) (c e : Nat) (k : Card) : Except BlockErr (List Byte × Nat × List Byte × State) :=
  let n := ofLeBytes k.cur
  let left := cmdLen1 n - 64 * k.idx
  let dict := if cmdDict n then some ((s.engine c e).dictFor (k.idx == 0)) else none
  match s.decodeGroups (k.mover c e) n dict (min 64 left) k.pos k.rd with
  | .error x => .error x
  | .ok (l, o, rd, s1) => if cmdXr n * (o - k.pos) < 2 * l.length then .error .wide else .ok (l, o, rd, s1)

/-- The vectors of a block, the last one padded with zero bytes. -/
def blockVecs (l : List Byte) : List VReg := (chunksOf 512 8 l).map vecOfBytes

/-- The card whose stream decodes now: it has begun a DECODE command whose stream has not ended. -/
def Engine.decoding (g : Engine) : Option Card :=
  g.cards.find? fun k => k.stream && k.moving && cmdType (ofLeBytes k.cur) == 6

/-- One block of a stream is delivered when the queue has room for it. `idx` counts the blocks of the stream until it
ends. -/
def State.deliverBlock (s : State) (c e : Nat) (k : Card) : JobRes :=
  let n := ofLeBytes k.cur
  match s.decodeBlock c e k with
  | .error (.move x) => let q := s.cardStop c e k x; { st := q.1, card := q.2.1, fin := q.2.2 }
  | .error .short => { st := s, card := k, fin := some 5 }
  | .error .wide => { st := s, card := k, fin := some 1 }
  | .ok (l, o, rd, s1) =>
    let v := blockVecs l
    if 64 < (s1.engine c e).decq.length + v.length then { st := s, card := k }
    else
      let s2 := s1.modEngine c e fun g =>
        { g with decq := g.decq ++ v, dictGen := if cmdDict n ∧ k.idx = 0 then !g.dictGen else g.dictGen }
      let k1 := { k with pos := o, rd := rd, idx := k.idx + 1, count := if k.type = 8 then k.count else k.idx + 1 }
      { st := s2, card := k1, fin := if cmdLen1 n ≤ 64 * (k.idx + 1) then some 0 else none }

/-- A DECODE command begins: its dictionary is loaded into the inactive copy. -/
def State.startDecode (s : State) (c e : Nat) (k : Card) : JobRes :=
  let n := ofLeBytes k.cur
  let k1 := { k with stream := true, idx := 0 }
  if ¬ cmdDict n then { st := s, card := k1 }
  else
    match s.loadBytes (k.mover c e) (cmdAux n) 16 with
    | .error x => let q := s.cardStop c e { k with moving := false } x; { st := q.1, card := q.2.1, fin := q.2.2 }
    | .ok (l, s1) =>
      { st := s1.modEngine c e fun g => if g.dictGen then { g with dict0 := l } else { g with dict1 := l }, card := k1 }

/-! ### XFORM (R303 to R307) -/

def Engine.modMicro (g : Engine) (f : Micro → Micro) : Engine := { g with micro := f g.micro }

/-- The routine store copy of a generation. -/
def Engine.store (g : Engine) (gen : Bool) : Tab Byte := if gen then g.store1 else g.store0

/-- The directory's entry for a routine: the offset of its first instruction, 0 when absent (R307). -/
def Engine.routine (g : Engine) (gen : Bool) (r : Nat) : Nat :=
  ofLeBytes (lookRange (fun _ => 0) (g.store gen) (4 * r) 4)

/-- The microcore at a routine's start: LOCAL is zero, its other memories and its vector registers stand as they were (R303 to
R305). -/
def microStart (old : Micro) (k c e n entry : Nat) : Micro :=
  let w (x : Nat) : Word := BitVec.ofNat 64 x
  { job := some k, pc := entry, live := false, in0 := old.in0, in1 := old.in1, obuf := old.obuf, v := old.v
    x := [(2, w 0x10040000), (10, w (cmdLen0 n)), (11, w (cmdLen1 n)), (12, w (cmdLen2 n)), (13, w (cmdParam n)),
          (14, w (2 * c + e))].foldl (fun t p => Tab.set 0 t p.1 p.2) [] }

/-- Offset 0 of a copy of an engine's routine store in its array, and the words of the copy that an injection or an error waits at
(R383, R384). -/
def copyBase (copy : Bool) : Nat := if copy then 65536 else 0

def Core.storeErrors (x : Core) (e : Nat) (copy : Bool) : List Nat :=
  let own (o : Nat) : Bool := decide (copyBase copy ≤ o ∧ o < copyBase copy + 65536)
  let armed := if x.cregs.armedAt (6 + e) (copyBase copy) 65536 then [x.cregs.einjAddr.toNat / 8 * 8] else []
  ((armed ++ (x.upsets.filter fun u => u.1 == 6 + e).map (·.2.1)).filter own).map (· - copyBase copy)

/-- A word of a copy is read: a single-bit error is corrected, an uncorrectable one stays (R353, R379). -/
def State.storeRead (s : State) (c e : Nat) (copy : Bool) (off ctx : Nat) : State × Bool :=
  match s.readArray c (6 + e) (copyBase copy + off) 4 ctx with
  | (u, some (_, true)) => (u.modEngine c e fun g => if copy then { g with bad1 := true } else { g with bad0 := true }, true)
  | (u, _) => (u, false)

/-- A routine command begins: an absent routine is refused, a store copy that holds an error aborts the job (R307, R379). -/
def State.startXform (s : State) (c e : Nat) (k : Card) : JobRes :=
  let n := ofLeBytes k.cur
  let s := (s.storeRead c e (s.engine c e).gen (4 * cmdRnum n) k.ctx).1
  let g := s.engine c e
  let entry := g.routine g.gen (cmdRnum n)
  if (if g.gen then g.bad1 else g.bad0) then { st := s, card := k, fin := some 2 }
  else if entry = 0 then { st := s, card := k, fin := some 4 }
  else { st := s.modEngine c e fun g => { g with micro := microStart g.micro k.k c e n entry },
         card := { k with copy := g.gen } }

/-- Input bytes that land next: from SRC + landed, up to the ring's limit (R304). -/
def Micro.wanted (m : Micro) (ilen : Nat) : Nat := min ilen (m.ifree + 131072) - m.landed

/-- One piece of input lands. -/
def State.landInput (s : State) (c e : Nat) (k : Card) (n : Nat) : Except MoveErr State :=
  let m := (s.engine c e).micro
  let a := cmdSrc n + m.landed
  let q := min (m.wanted (cmdLen0 n)) (64 - a % 64)
  match s.engLoad (k.mover c e) a q with
  | .error x => .error x
  | .ok (l, s1) =>
    .ok (s1.modEngine c e fun g => g.modMicro fun m =>
      { m with
        in0 := (mapFrom (fun j b => ((m.landed + j) % 131072, b)) 0 l).foldl (fun t p => Tab.set 0 t p.1 p.2) m.in0
        landed := m.landed + q
        needHold := match m.needHold with
          | some v => if v ≤ m.landed + q then none else some v
          | none => none })

/-- One piece of output is written out. -/
def State.drainOutput (s : State) (c e : Nat) (k : Card) (n : Nat) : Except MoveErr State :=
  let m := (s.engine c e).micro
  let d := cmdDst n + m.odrain
  let q := min (m.omark - m.odrain) (64 - d % 64)
  let l := (List.range q).map fun j => Tab.get 0 m.obuf ((m.odrain + j) % 65536)
  match s.engStore (k.mover c e) d l with
  | .error x => .error x
  | .ok s1 =>
    .ok (s1.modEngine c e fun g => g.modMicro fun m =>
      { m with
        odrain := m.odrain + q
        markHold := match m.markHold with
          | some v => if v ≤ m.odrain + q + 65536 then none else some v
          | none => none })

/-- The engine's side of a routine: input lands and output is written out, piece by piece. -/
def State.xformLoop (s : State) (c e : Nat) (k : Card) (n : Nat) : Nat → State × Option MoveErr
  | 0 => (s, none)
  | f + 1 =>
    let m := (s.engine c e).micro
    if m.odrain < m.omark then
      match s.drainOutput c e k n with
      | .error x => (s, some x)
      | .ok s1 => s1.xformLoop c e k n f
    else if m.exit = none ∧ 0 < m.wanted (cmdLen0 n) then
      match s.landInput c e k n with
      | .error x => (s, some x)
      | .ok s1 => s1.xformLoop c e k n f
    else (s, none)

/-- What a card's routine meets beside its microcore. -/
def State.rvEnv (s : State) (c e : Nat) (k : Card) : RvEnv :=
  let n := ofLeBytes k.cur
  { store := (s.engine c e).store k.copy, ilen := cmdLen0 n, omax := cmdLen2 n, param := cmdParam n, who := 2 * c + e }

/-- The streams move and the routine's instructions execute, in turn, until something holds both. -/
def State.xformGo (s : State) (c e : Nat) (k : Card) (n : Nat) : Nat → State × Option MoveErr
  | 0 => (s, none)
  | f + 1 =>
    let r := s.xformLoop c e k n (s.pieces (cmdLen0 n + cmdLen2 n))
    let m := (r.1.engine c e).micro
    if r.2.isSome ∨ m.exit.isSome ∨ m.needHold.isSome ∨ m.markHold.isSome then r
    else
      match (r.1.rvEnv c e k).runTo ((r.1.core c).storeErrors e k.copy) (r.1.pieces 4096) m with
      | (m1, none) => (r.1.modEngine c e fun g => { g with micro := m1 }).xformGo c e k n f
      | (m1, some o) =>
        let q := (r.1.modEngine c e fun g => { g with micro := m1 }).storeRead c e k.copy o k.ctx
        if q.2 then (q.1, some (.abort (tablePlace 0 0))) else q.1.xformGo c e k n f

/-- A routine's job goes on: IN1 is loaded, then the streams move and the routine runs; it ends when the routine has ended and
its output below XF.OMARK is written (R306). -/
def State.runXform (s : State) (c e : Nat) (k : Card) : JobRes :=
  let n := ofLeBytes k.cur
  let m := (s.engine c e).micro
  if ¬ m.live then
    match s.loadBytes (k.mover c e) (cmdAux n) (cmdLen1 n) with
    | .error x => let q := s.cardStop c e k x; { st := q.1, card := q.2.1, fin := q.2.2 }
    | .ok (l, s1) =>
      { st := s1.modEngine c e fun g => g.modMicro fun m =>
          { m with live := true, in1 := (mapFrom (fun j b => (j, b)) 0 l).foldl (fun t p => Tab.set 0 t p.1 p.2) m.in1 }, card := k }
  else
    let r := s.xformGo c e k n (s.pieces 16)
    match r.2 with
    | some x => let q := r.1.cardStop c e k x; { st := q.1, card := q.2.1, fin := q.2.2 }
    | none =>
      let m1 := (r.1.engine c e).micro
      match m1.exit with
      | none => { st := r.1, card := k }
      | some code =>
        if m1.odrain < m1.omark then { st := r.1, card := k }
        else
          { st := r.1.modEngine c e fun g => g.modMicro fun m => { m with job := none, live := false }
            card := { k with idx := code, count := if k.type = 8 then k.count else m1.omark % 2 ^ 32 }
            fin := some (if code = 0 then 0 else 9) }

/-! ### Commands as a card or a chain runs them -/

/-- A command's own start, beside the draws it takes. -/
def State.startCmd (s : State) (c e : Nat) (k : Card) : JobRes :=
  let q := s.beginCmd c e k
  match cmdType (ofLeBytes k.cur) with
  | 6 => q.1.startDecode c e q.2
  | 7 => q.1.startXform c e q.2
  | _ => { st := q.1, card := q.2 }

/-- A command goes on. -/
def State.runCmd (s : State) (c e : Nat) (k : Card) : JobRes :=
  match cmdType (ofLeBytes k.cur) with
  | 1 => s.runCopy c e k
  | 2 => s.runConvert c e k
  | 3 => s.runRows c e k false
  | 4 => s.runRows c e k true
  | 5 => s.runFill c e k
  | 7 => s.runXform c e k
  | _ => { st := s, card := k }

/-- Started and, unless that ended it, run. -/
def State.startAndRun (s : State) (c e : Nat) (k : Card) : JobRes :=
  let r := s.startCmd c e k
  if r.fin.isSome ∨ ¬ r.card.moving then r else r.st.runCmd c e r.card

/-- The card of a job that goes on, or has ended with a status (R284). -/
def JobRes.close (r : JobRes) (c e : Nat) : State :=
  let s := r.st.flush ⟨c, e, r.card.k⟩ false
  match r.fin with
  | some t => s.endCard c e r.card t
  | none => s.setCard c e r.card

/-- An event of a card of one type: it starts when it may, then its job goes on until something stops it (R275, R286). -/
def State.jobEvent (s : State) (typ c e k : Nat) : State :=
  match s.card c e k with
  | none => s
  | some d =>
    if d.type ≠ typ ∨ d.status.isSome ∨ d.fault.isSome then s
    else if ¬ d.moving then
      if d.started ∨ s.mayStart c e d then (s.startAndRun c e d).close c e else s
    else (s.runCmd c e d).close c e

def execCopyJob (c e k : Nat) (s : State) : Host.Outcome State Fault Refusal := .next (s.jobEvent 1 c e k)
def execConvertJob (c e k : Nat) (s : State) : Host.Outcome State Fault Refusal := .next (s.jobEvent 2 c e k)
def execGatherJob (c e k : Nat) (s : State) : Host.Outcome State Fault Refusal := .next (s.jobEvent 3 c e k)
def execScatterJob (c e k : Nat) (s : State) : Host.Outcome State Fault Refusal := .next (s.jobEvent 4 c e k)
def execFillJob (c e k : Nat) (s : State) : Host.Outcome State Fault Refusal := .next (s.jobEvent 5 c e k)

/-- DECODE_JOB: the stream begins. -/
def execDecodeJob (c e k : Nat) (s : State) : Host.Outcome State Fault Refusal := .next (s.jobEvent 6 c e k)

/-- XFORM_JOB: the routine starts, and the engine moves its streams. -/
def execXformJob (c e k : Nat) (s : State) : Host.Outcome State Fault Refusal := .next (s.jobEvent 7 c e k)

/-! ### The microcore's registers (R305, R306) -/

/-- A write by the routine that runs and is not held. -/
def State.microWrite (s : State) (c e : Nat) (f : RvEnv → Micro → Micro) : State :=
  let m := (s.engine c e).micro
  match m.job.bind fun k => s.card c e k with
  | none => s
  | some d =>
    if m.live ∧ m.exit = none ∧ m.needHold = none ∧ m.markHold = none then
      s.modEngine c e fun g => g.modMicro (f (s.rvEnv c e d))
    else s

def execXfIneedWrite (c e : Nat) (v : BitVec 64) (s : State) : Host.Outcome State Fault Refusal :=
  .next (s.microWrite c e fun r m => m.writeIneed r.ilen v.toNat)

def execXfIfreeWrite (c e : Nat) (v : BitVec 64) (s : State) : Host.Outcome State Fault Refusal :=
  .next (s.microWrite c e fun _ m => m.writeIfree v.toNat)

def execXfOmarkWrite (c e : Nat) (v : BitVec 64) (s : State) : Host.Outcome State Fault Refusal :=
  .next (s.microWrite c e fun r m => m.writeOmark r.omax v.toNat)

def execXfDoneWrite (c e : Nat) (v : BitVec 64) (s : State) : Host.Outcome State Fault Refusal :=
  .next (s.microWrite c e fun _ m => m.quit (v.toNat % 65536))

/-- A routine that runs, held or not, ends with a code. -/
def State.microEnd (s : State) (c e code : Nat) : State :=
  s.modEngine c e fun g => g.modMicro fun m => if m.job.isSome ∧ m.live ∧ m.exit = none then m.quit code else m

/-- XFORM_TIMEOUT: 2^32 microcore cycles since the start. -/
def execXformTimeout (c e : Nat) (s : State) : Host.Outcome State Fault Refusal :=
  .next (if 2 ^ 32 ≤ (s.engine c e).micro.cycle then s.microEnd c e 0xFFFE else s)

/-- MICROCORE_EXCEPTION (R303). -/
def execMicrocoreException (c e : Nat) (s : State) : Host.Outcome State Fault Refusal := .next (s.microEnd c e 0xFFFF)

/-! ### Chains (R298 to R300) -/

/-- The chain goes on at an entry; the one it leaves is complete. -/
def Card.chainNext (k : Card) (entry : Nat) : Card := { k with entry := entry, count := k.count + 1, moving := false, stream := false }

/-- Where the entry that a chain has reached lies. -/
def Card.entryAt (d : Card) (c : Nat) : Nat := scratchAddr c (cmdSrc d.num % 2 ^ 22 + 64 * d.entry)

/-- The chain card that runs; it goes on to an entry once every write of the one before has been performed (R300) and what its
pusher wrote to the entry has landed (R271). -/
def State.chainCard (s : State) (c e k : Nat) : Option Card :=
  match s.card c e k with
  | none => none
  | some d =>
    let due := d.moving || !(s.owes ⟨c, e, k⟩ || s.owing (d.since c) (d.entryAt c) 64)
    if d.type = 8 ∧ d.started ∧ d.status = none ∧ d.fault = none ∧ due then some d else none

/-- The entry reached, as its 64 bytes stand in scratchpad. -/
def State.chainEntry (s : State) (c : Nat) (d : Card) : Except Nat Nat :=
  match s.badIn (d.entryAt c) 64 with
  | some w => .error w
  | none => .ok (memNat s.mem (d.entryAt c) 64)

/-- CHAIN_JOB: the chain starts at its first entry. -/
def execChainJob (c e k : Nat) (s : State) : Host.Outcome State Fault Refusal :=
  .next (match s.card c e k with
    | none => s
    | some d =>
      if d.type = 8 ∧ s.mayStart c e d then s.setCard c e { d with started := true, entry := 0, loops := [] } else s)

/-- A LOOP's body holds an entry. -/
def ChainLoop.holds (l : ChainLoop) (i : Nat) : Bool := decide (l.target ≤ i ∧ i < l.idx)

/-- A command entry with SRC and DST advanced by the LOOPs whose bodies hold it. -/
def Card.advance (d : Card) (n : Nat) : Nat :=
  let add (f : ChainLoop → Int) (a : Nat) : Nat :=
    wrapN 64 ((a : Int) + sumI ((d.loops.filter fun l => l.holds d.entry).map fun l => (l.count : Int) * f l))
  setBitsN (setBitsN n 64 64 (add ChainLoop.sadv (cmdSrc n))) 128 64 (add ChainLoop.dadv (cmdDst n))

/-- The entry's reads lie in the chain's second read region or its write region, its writes in the write region (R298). -/
def chainFits (chain n : Nat) : Bool :=
  let aux := rangeAt (cmdAux chain) (cmdLen1 chain)
  let out := rangeAt (cmdDst chain) (cmdLen2 chain)
  ((cmdReads n).all fun r => r.within aux || r.within out) && ((cmdWrite n).toList.all fun r => r.within out)

/-- A command of a chain that has ended: the chain goes on, or ends with its status. -/
def JobRes.chain (r : JobRes) (c e : Nat) : State :=
  let s := r.st.flush ⟨c, e, r.card.k⟩ r.fin.isSome
  match r.fin with
  | none => s.setCard c e r.card
  | some 0 => s.setCard c e (r.card.chainNext (r.card.entry + 1))
  | some t => s.endCard c e r.card t

/-- CHAIN_COMMAND_ENTRY: a command entry is checked, started and run; an entry of no listed type is a bad command. -/
def execChainCommandEntry (c e k : Nat) (s : State) : Host.Outcome State Fault Refusal :=
  .next (match s.chainCard c e k with
    | none => s
    | some d =>
      if d.moving then
        (if cmdType (ofLeBytes d.cur) = 6 then s else (s.runCmd c e d).chain c e)
      else if cmdLen0 d.num ≤ d.entry then s
      else
        match s.chainEntry c d with
        | .error w => (s.postBad (c / 64) d.ctx w c (d.bank + 2 * (e + 1))).endCard c e d 2
        | .ok n =>
          let t := cmdType n
          if t = 9 ∨ t = 10 ∨ t = 11 then s
          else
            let a := d.advance n
            if t = 8 ∨ cmdFo n ≠ 0 ∨ ¬ cmdOk a then s.endCard c e d 4
            else if ¬ chainFits d.num a then s.endCard c e d 8
            else if ¬ (s.engine c e).typeFree { d with cmd := leBytes 64 a } then s
            else (s.startAndRun c e { d with cur := leBytes 64 a }).chain c e)

/-- Two bodies cross: neither holds the other and they share an entry (R300). -/
def bodiesCross (l m : ChainLoop) : Bool :=
  decide (l.target < m.target ∧ m.target < l.idx ∧ l.idx < m.idx) ||
  decide (m.target < l.target ∧ l.target < m.idx ∧ m.idx < l.idx)

/-- CHAIN_LOOP (R299, R300). -/
def execChainLoop (c e k : Nat) (s : State) : Host.Outcome State Fault Refusal :=
  .next (match s.chainCard c e k with
    | none => s
    | some d =>
      if d.moving ∨ cmdLen0 d.num ≤ d.entry then s
      else
        match s.chainEntry c d with
        | .error _ => s
        | .ok n =>
          if cmdType n ≠ 9 then s
          else
            let i := d.entry
            let old := (d.loops.find? fun l => l.idx == i).map (·.count)
            let cnt := old.getD 0
            let l : ChainLoop := { idx := i, target := bitsN n 16 16, count := cnt
                                   sadv := sextN 32 (bitsN n 64 32), dadv := sextN 32 (bitsN n 96 32) }
            let rest := d.loops.filter fun m => m.idx != i
            if i ≤ l.target ∨ (old = none ∧ 8 ≤ rest.length) ∨ (rest.any fun m => bodiesCross l m) then
              s.endCard c e d 4
            else if cnt < bitsN n 32 32 then
              s.setCard c e ({ d with loops := rest ++ [{ l with count := cnt + 1 }] }.chainNext l.target)
            else s.setCard c e ({ d with loops := rest ++ [{ l with count := 0 }] }.chainNext (i + 1)))

/-- CHAIN_COND: the word is read; a false condition skips entries (R300). -/
def execChainCond (c e k : Nat) (s : State) : Host.Outcome State Fault Refusal :=
  .next (match s.chainCard c e k with
    | none => s
    | some d =>
      if d.moving ∨ cmdLen0 d.num ≤ d.entry then s
      else
        match s.chainEntry c d with
        | .error _ => s
        | .ok n =>
          if cmdType n ≠ 10 then s
          else
            let a := bitsN n 64 64
            let w := rangeAt a 4
            match ccHolds (bitsN n 8 4) 32 0 0 with
            | none => s.endCard c e d 4
            | some _ =>
              if ¬ w.ok then s.endCard c e d 4
              else if ¬ w.within (rangeAt (cmdAux d.num) (cmdLen1 d.num)) then s.endCard c e d 8
              else
                match s.loadBytes (d.mover c e) a 4 with
                | .error x =>
                  let q := s.cardStop c e d x
                  match q.2.2 with
                  | some t => q.1.endCard c e q.2.1 t
                  | none => q.1.setCard c e q.2.1
                | .ok (l, s1) =>
                  let holds := (ccHolds (bitsN n 8 4) 32 (ofLeBytes l) (bitsN n 32 32)).getD false
                  let next := d.entry + 1 + (if holds then 0 else bitsN n 16 16)
                  if cmdLen0 d.num < next then s1.endCard c e { d with count := d.count + 1 } 0
                  else s1.setCard c e (d.chainNext next))

/-- CHAIN_END: an END entry, or the entry past the last. -/
def execChainEnd (c e k : Nat) (s : State) : Host.Outcome State Fault Refusal :=
  .next (match s.chainCard c e k with
    | none => s
    | some d =>
      if d.moving then s
      else if cmdLen0 d.num ≤ d.entry then s.endCard c e d 0
      else
        match s.chainEntry c d with
        | .error _ => s
        | .ok n => if cmdType n = 11 then s.endCard c e { d with count := d.count + 1 } 0 else s)

/-- DECODE_BLOCK_DELIVER: the stream that decodes delivers its next block, or ends (R297). -/
def execDecodeBlockDeliver (c e : Nat) (s : State) : Host.Outcome State Fault Refusal :=
  .next (match (s.engine c e).decoding with
    | none => s
    | some d =>
      if d.fault.isSome then s
      else
        let r := s.deliverBlock c e d
        if d.type = 8 then r.chain c e else r.close c e)

/-! ### Follow-ons (R301, R302) -/

/-- The bank in which the pushing task is resident. -/
def State.pusherBank (s : State) (c : Nat) (k : Card) : Option Nat :=
  [0, 1].find? fun b =>
    let y := s.bankAt c b
    y.state != .empty && y.task.launch == k.launch && y.task.wid == k.wid

/-- The pushing task has ended: its launch is gone, or has counted it as ended. -/
def State.pusherGone (s : State) (k : Card) : Bool :=
  ((Tab.get {} s.launches k.launch).ended.contains k.wid) || !(s.launches.any fun l => l.1 == k.launch)

/-- The state in which core `c` issues for bank `b`. -/
def State.facing (s : State) (c b : Nat) : State := { s.modCore c (fun x => { x with cur := b }) with focus := .core c }

/-- The results of a follow-on as operations that complete a number of core cycles later. -/
def State.followOps (s : State) (c b e k : Nat) (l : List (Nat × List Write)) : State :=
  l.foldl (fun u r =>
    let id := (u.core c).varNext + 1
    let now := (u.core c).cycle
    let op : VarOp := { id := id, kind := .follow e k, pc := 0, slot := 7, bundle := 0, segNo := 0, sb := 0, earliest := now + r.1,
                        latest := some (now + r.1), reg := none, writes := some r.2, late := none }
    (u.modCore c fun x => { x with varNext := id }).modBank c b fun y => y.modPipe fun q => { q with vars := q.vars ++ [op] }) s

/-- A follow-on takes effect for bank `b` (R302): it takes its place in the array and its results follow. -/
def State.followGo (s t : State) (c b e : Nat) (d : Card) (p : Plan) : State :=
  let was := (s.bankAt c b).pipe.ctx
  let u := p.eff 0 t
  let u1 := { u.modCore c (fun x => { x with cur := (s.core c).cur, rampCount := x.rampCount + 1 }) with focus := s.focus }
  let u2 := u1.modBank c b fun y => y.modPipe fun q => { q with ctx := was }
  (u2.followOps c b e d.k p.results).setCard c e { d with followed := true }

/-- A follow-on that meets a trap is dropped: the job ends with FOLLOW, or with ABORT for uncorrectable data (R302, R379). -/
def State.followDrop (s : State) (c e : Nat) (d : Card) (x : Trap) : State :=
  let k (status : Nat) : Card := { d with followed := true, status := some status }
  if x.cause = 0x15 then
    (s.postBad (c / 64) d.ctx x.info.toNat c (d.bank + 2 * (e + 1))).setCard c e (k 2)
  else s.setCard c e (k 7)

/-- The follow-on of a job that has ended DONE (R302): it waits for the job's writes, for its task to be resident, for the array
and the ramp allowance, and for a region's fill; it is dropped with a task that has ended, and by what would trap. -/
def State.followEvent (s : State) (c e k op : Nat) (plan : Nat → State → Plan) : State :=
  match s.card c e k with
  | none => s
  | some d =>
    if d.status ≠ some 0 ∨ foOp (cmdFo d.num) ≠ op ∨ d.followed ∨ d.type = 6 ∨ s.owes ⟨c, e, k⟩ then s
    else
      match s.pusherBank c d with
      | none => if s.pusherGone d then s.setCard c e { d with followed := true } else s
      | some b =>
        let t := s.facing c b
        let p := plan d.num t
        let h : Hdr := { slot := 7 }
        match p.out with
        | .stall => s
        | .hold _ => s
        | _ =>
          if (s.core c).arrayBusy ≠ 0 then s
          else
            match lowestTrap [t.bk.planTrap h p, t.badRead h p] with
            | some x => s.followDrop c e d x
            | none =>
              let waits := t.bk.touchWaits p.touches
              if waits = [] then s.followGo t c b e d p
              else
                match s.startFills c b waits with
                | .error x => s.followDrop c e d x
                | .ok s1 => s1

def execFollowOnMldw (c e k : Nat) (s : State) : Host.Outcome State Fault Refusal :=
  .next (s.followEvent c e k 1 fun n t => planMldw (foReg (cmdFo n)) t)

/-- MMA C[FREG], [DST], T[FTR], FCNT, FIDX: DST is an offset in scratchpad, no register gives it. -/
def execFollowOnMma (c e k : Nat) (s : State) : Host.Outcome State Fault Refusal :=
  .next (s.followEvent c e k 2 fun n t =>
    let f := cmdFo n
    mmaPlan (foReg f) (foIdx f) (foTr f) (foAcc f) false [] (cmdDst n % 2 ^ 22) (foCnt f) t)

/-! ### Completion and faults (R284 to R286) -/

/-- The job's own follow-on, if it has one, has written its result. -/
def State.followDone (s : State) (c e : Nat) (d : Card) : Bool :=
  let asks := foOp (cmdFo d.num) != 0 && d.type != 6 && (d.status == some 0 || d.followed)
  let waiting (y : Bank) : Bool := y.pipe.vars.any fun v => v.kind == .follow e d.k
  !asks || (d.followed && !waiting (s.bankAt c 0) && !waiting (s.bankAt c 1) && !((s.core c).saved.any fun v => waiting v.bank))

/-- JOB_COMPLETE: the token is written and the card leaves its engine. -/
def execJobComplete (c e k : Nat) (s : State) : Host.Outcome State Fault Refusal :=
  .next (match s.card c e k with
    | none => s
    | some d =>
      match d.status with
      | none => s
      | some t =>
        if ¬ s.followDone c e d ∨ s.owes ⟨c, e, k⟩ then s
        else
          let s1 := s.modEngine c e fun g => { g with cards := g.cards.filter fun q => q.k != k }
          (s1.token c d.varId d.tok (d.word t)).modLaunch d.launch fun l => { l with jobs := l.jobs - 1 })

/-- JOB_PAGE_FAULT: the fault is reported and the job waits (R286, R372). -/
def execJobPageFault (c e k : Nat) (s : State) : Host.Outcome State Fault Refusal :=
  .next (match s.card c e k with
    | none => s
    | some d =>
      match d.fault with
      | none => s
      | some (va, acc, kind) =>
        if d.posted then s
        else
          (s.setCard c e { d with posted := true }).postFlt (c / 64)
            { kind := 2, info := kind * 16 + acc, ctx := d.ctx, addr := va, core := c, unit := d.bank + 2 * (e + 1) } (.card c e k))

/-! ### Routine loads (R307, R308) -/

/-- The physical address of an image in CPEn.RLOAD. -/
def rloadBase (v : Nat) : Nat := bitsN v 16 36 * 2 ^ 16

/-- A write of CPEn.RLOAD: the address is kept, GO starts a load; a refused write changes nothing. -/
def State.writeRload (s : State) (c e : Nat) (v : Word) : State :=
  let g := s.engine c e
  if v.toNat.testBit 0 ∧ (g.loading ∨ g.copyBusy) then s
  else
    let w : Word := v &&& 0xFFFFFFFFF0000
    let s1 := s.modCore c fun x => { x with cregs := if e = 0 then { x.cregs with cpeRload0 := w } else { x.cregs with cpeRload1 := w } }
    if v.toNat.testBit 0 then s1.modEngine c e fun g => { g with loading := true, loadFrom := rloadBase v.toNat } else s1

def execRoutineLoadStart (c e : Nat) (v : BitVec 64) (s : State) : Host.Outcome State Fault Refusal := .next (s.writeRload c e v)

/-- ROUTINE_LOAD_COMPLETE: the image stands in the inactive copy, which becomes the active one. -/
def execRoutineLoadComplete (c e : Nat) (s : State) : Host.Outcome State Fault Refusal :=
  let g := s.engine c e
  if ¬ g.loading then .next s
  else
    let a := g.loadFrom
    let img : Tab Byte := entriesFrom (fun _ => 0) 0 (memRead s.mem a 65536)
    let bad := (s.badIn a 65536).isSome
    let s1 := { s with mgmt := { s.mgmt with loaded := s.mgmt.loaded ++ [measure (memRead s.mem a 65536)] } }
    let s2 := match s.badIn a 65536 with
      | some w => s1.postBad (c / 64) 0 w c (2 * (e + 1))
      | none => s1
    let base := copyBase (!g.gen)
    let s3 := s2.modCore c fun x =>
      { x with upsets := x.upsets.filter fun u => u.1 != 6 + e || decide (u.2.1 < base ∨ base + 65536 ≤ u.2.1) }
    .next ((s3.access a 65536).modEngine c e fun g =>
      if g.gen then { g with store0 := img, bad0 := bad, gen := false, loading := false }
      else { g with store1 := img, bad1 := bad, gen := true, loading := false })

end Sys2Proof.Machine
end

