-- ==== Sys2Proof/Machine/Collective.lean ====
section
/-!
DEFINITION. The collective engine (R310 to R347): acceptance and start of schedules, ends of threads, groups and their
packets, transfers, reductions, fires, milestones, kills, and the engine's events. An event that is not due leaves the
state.
-/

namespace Sys2Proof.Machine

open Sys2Proof

/-! ### The start block (R311) -/

def LStart.num (x : LStart) : Nat := ofLeBytes x.block
def startType (n : Nat) : Nat := bitsN n 0 4
def startThread (n : Nat) : Nat := bitsN n 4 3
def startCls (n : Nat) : Nat := bitsN n 8 2
def startCtx (n : Nat) : Nat := bitsN n 16 16
def startCode (n : Nat) : Nat := bitsN n 64 64
def startArg (n : Nat) : Nat := bitsN n 128 64
/-- Counter, valid bit, front-end event and its valid bit of event `k`: 0 SRCFREE, 1 LOCAL, 2 ALLDONE. -/
def startCtr (n k : Nat) : Nat := bitsN n (192 + 8 * k) 8
def startCtrOn (n k : Nat) : Bool := n.testBit (216 + k)
def startEv (n k : Nat) : Nat := bitsN n (224 + 8 * k) 8
def startEvOn (n k : Nat) : Bool := n.testBit (248 + k)

/-- A start that is not refused (R312). -/
def startOk (n : Nat) : Bool :=
  startType n == 1 && startCode n % 8 == 0 && decide (startCode n < 2 ^ 55) && decide (startArg n < 2 ^ 55)

/-- A schedule has ended with a status word: its token is written, or its queue entry completes (R335). -/
def State.schedDone (s : State) (src : LSource) (w : Word) : State :=
  match src with
  | .push c _ l _ id tok _ => (s.token c id tok w).modLaunch l fun x => { x with jobs := x.jobs - 1 }
  | .sched q n => s.feDone q n

/-- A start is accepted (R312); a bad one ends at once with BADCMD. -/
def State.acceptStart (s : State) (die : Nat) (x : LStart) : State :=
  let s1 := match x.src with
    | .push _ _ l _ _ _ _ => s.modLaunch l fun y => { y with jobs := y.jobs + 1 }
    | .sched .. => s
  if startOk x.num then s1.modCle die fun e => { e with startQ := e.startQ ++ [x] }
  else s1.schedDone x.src (statusWord 0 0 1 4 false)

/-- The start queue has no room (R312). -/
def Cle.startFull (x : Cle) : Bool := decide (32 ≤ x.startQ.length)

/-! ### Threads -/

/-- Operations of a thread in flight. -/
def Cle.opsOf (x : Cle) (t : Nat) : List LOp := x.ops.filter fun o => o.thread == some t

def Cle.modOp (x : Cle) (id : Nat) (f : LOp → LOp) : Cle := { x with ops := x.ops.map fun o => if o.id = id then f o else o }

def Cle.dropOp (x : Cle) (id : Nat) : Cle := { x with ops := x.ops.filter fun o => o.id != id }

def Cle.op (x : Cle) (id : Nat) : Option LOp := x.ops.find? fun o => o.id == id

/-- The class of a thread's schedule; class 0 of an operation that no thread issued. -/
def Cle.clsOf (x : Cle) (t : Option Nat) : Nat :=
  match t.bind fun t => (x.thread t).start with
  | some q => startCls q.num
  | none => 0

/-- A packet from this engine to a member of a group, in a class. -/
def State.sendTo (s : State) (die cls : Nat) (g : Group) (m : Nat) (kind : PacketKind) (seq len val : Nat) (bytes : List Byte) : State :=
  let d := g.members.getD m (0, 0)
  s.postPacket die d.1 d.2 cls { kind := kind, gid := g.gid, inc := g.inc, srcMod := s.modn, srcDie := die, seq := seq
                                 len := len, val := val, bytes := bytes }

/-- A packet to every member. -/
def State.sendAll (s : State) (die cls : Nat) (g : Group) (kind : PacketKind) (seq : Nat) : State :=
  (List.range g.members.length).foldl (fun u m => u.sendTo die cls g m kind seq 0 0 []) s

/-- The member of a group that sent a packet. -/
def Group.sender (g : Group) (p : Packet) : Option Nat := g.members.findIdx? fun m => m == (p.srcMod, p.srcDie)

/-- The first packet of the inbox of a kind from a member of a group, with a number and value. -/
def Cle.mail (x : Cle) (g : Group) (m : Nat) (kind : PacketKind) (seq val : Nat) : Option Packet :=
  x.inbox.find? fun p => p.kind == kind && p.gid == g.gid && p.inc == g.inc && g.sender p == some m && p.seq == seq && p.val == val

def Cle.take (x : Cle) (p : Packet) : Cle := { x with inbox := x.inbox.erase p }

/-- A packet for an operation has arrived. -/
def Cle.hasMail (x : Cle) (o : LOp) (kind : PacketKind) (seq : Nat) : Bool :=
  match x.group o.gs with
  | some g => (x.mail g o.peer kind seq 0).isSome
  | none => false

/-- An operation in flight that needs nothing further from another member (R344): its data or its acknowledgement has arrived. -/
def Cle.local (x : Cle) (o : LOp) : Bool :=
  match o.kind with
  | .copy => true
  | .red => true
  | .recv => o.data.isSome || x.hasMail o .data o.seq
  | .recvr => o.data.isSome || x.hasMail o .data o.seq
  | .send => x.hasMail o .ack o.seq
  | .fire => x.hasMail o .fireAck o.id
  | .land => true

/-- The thread is to end with a status at word `idx`: it issues no more, its other operations are abandoned (R344). -/
def Cle.endThread (x : Cle) (t idx status : Nat) : Cle :=
  match (x.thread t).st with
  | .idle => x
  | .ending _ => x
  | _ =>
    let y := x.modThread t fun h => { h with st := .ending status, last := idx, held := false, draining := false, alls := [] }
    { y with ops := y.ops.filter fun o => o.thread != some t || x.local o, fired := y.fired.filter (· != t) }

/-- The thread ends: failure markers when its status is not DONE, then its status word (R315, R335, R344). -/
def State.finishThread (s : State) (die t status : Nat) : State :=
  let h := (s.cle die).thread t
  let w := statusWord h.count h.last 1 status h.sat
  let s1 := if status = 0 then s
    else h.used.foldl (fun u gs => match (u.cle die).group gs with
      | some g => u.sendAll die ((s.cle die).clsOf (some t)) g .failure 0
      | none => u) s
  let s2 := s1.modCle die fun x => x.setThread t {}
  match h.start with
  | some q => s2.schedDone q.src w
  | none => s2

/-- A thread that is to end has no operation left, and every write of those that have left the engine has been acknowledged (R272). -/
def State.over (s : State) (die t : Nat) : Bool :=
  (s.cle die).opsOf t == [] && ((s.cle die).thread t).owed.all fun k => !s.owes ⟨die * 64, 2, k⟩

/-- Threads that are to end and have nothing left end. -/
def State.settle (s : State) (die : Nat) : State :=
  (List.range 8).foldl (fun u t =>
    match ((u.cle die).thread t).st with
    | .ending st => if u.over die t then u.finishThread die t st else u
    | _ => u) s

/-- An operation leaves the engine before its end: what it has written goes on its way, and its thread ends after that is performed. -/
def State.leaveOp (s : State) (die : Nat) (o : LOp) : State :=
  (s.flush ⟨die * 64, 2, o.id⟩ true).modCle die fun x =>
    let y := x.dropOp o.id
    match o.thread with
    | some t => y.modThread t fun h => { h with owed := h.owed ++ [o.id] }
    | none => y

/-- A fire recorded while its entry was reading starts when there is room, or is dropped like any other (R341). -/
def Cle.fireAgain (x : Cle) (i : Nat) (v : Word) : Cle :=
  if v = 0 ∨ x.reading i ∨ 64 ≤ x.inFlight then x
  else
    let by_ := Tab.get none x.againBy i
    let y := { x with again := Tab.set 0 x.again i 0, againBy := Tab.set none x.againBy i none }
    if y.entryBad i ∨ ¬ y.usable i then (y.dropFire i v by_).wakeFlags else y.startFire i none by_.toList

/-- The fires recorded of an engine start, with the reports of those that are dropped. -/
def State.startAgain (s : State) (die : Nat) : State :=
  (s.cle die).again.foldl (fun u e =>
    let u := if e.2 = 0 then u else u.tileRead die e.1 0
    let x := u.cle die
    let y := x.fireAgain e.1 e.2
    (u.setCle die y).dropsSince die x (if x.entryBad e.1 ∧ y.drops ≠ x.drops then [e.1] else [])) s

/-- The operations that a thread which ends abandons. -/
def Cle.abandoned (x : Cle) (t : Nat) : List LOp :=
  match (x.thread t).st with
  | .idle => []
  | .ending _ => []
  | _ => (x.opsOf t).filter fun o => !x.local o

/-- A thread ends with a status. -/
def State.stopThread (s : State) (die t idx status : Nat) : State :=
  (((((s.cle die).abandoned t).foldl (fun u o => u.leaveOp die o) s).modCle die fun x => x.endThread t idx status).startAgain die).settle die

/-- An operation leaves the engine before its end and ends its thread with a status. -/
def State.loseOp (s : State) (die : Nat) (o : LOp) (status : Nat) : State :=
  match o.thread with
  | some t => (s.leaveOp die o).stopThread die t o.idx status
  | none => (s.leaveOp die o).startAgain die

/-- CLE.KILL, a HALTQ in kill mode, a killed pusher (R345). -/
def State.killThread (s : State) (die t : Nat) : State := s.stopThread die t ((s.cle die).thread t).last 0x0A

def execCleKill (die : Nat) (v : BitVec 64) (s : State) : Host.Outcome State Fault Refusal :=
  .next ((List.range 8).foldl (fun u t => if v.toNat.testBit t then u.killThread die t else u) s)

/-- What a schedule's reads are ordered behind: the results of the task that pushed it, from before its push (R271, R312). -/
def LSource.since : LSource → List Since
  | .push c _ l w _ _ b => [{ core := c, launch := l, wid := w, bundle := b }]
  | .sched .. => []

/-- SCHEDULE_START: the first accepted start of an idle thread begins (R312, R313). -/
def execScheduleStart (die t : Nat) (s : State) : Host.Outcome State Fault Refusal :=
  let x := s.cle die
  match x.startQ.find? fun q => q.thread == t with
  | none => .next s
  | some q =>
    if t < 8 ∧ (x.thread t).st = .idle then
      .next (s.setCle die { x.setThread t { st := .ready, start := some q, since := q.src.since } with startQ := x.startQ.erase q })
    else .next s

/-- SRCFREE, LOCAL or ALLDONE of a thread's schedule (R333). -/
def State.raise (s : State) (die t k : Nat) : State :=
  match ((s.cle die).thread t).start with
  | none => s
  | some q =>
    let n := q.num
    let s1 := if startCtrOn n k then s.modCle die fun x => x.drainAdds.addTo (startCtr n k) 1 else s
    if startEvOn n k then s1.signal (startEv n k) 1 else s1

/-! ### Moving bytes -/

/-- The rights of an operation (R323, R336). -/
def Cle.opMover (x : Cle) (die : Nat) (o : LOp) : Mover :=
  let src := o.src.shape
  let dst := o.dst.shape
  let lap : Lap := if (o.kind == .copy || o.kind == .red) && src.range.meets dst.range then
      { c := die * 64, e := 2, k := o.id, ins := [src], outs := [dst] }
    else {}
  { who := .cle die, ctx := o.ctx, key := ⟨die * 64, 2, o.id⟩, cls := x.clsOf o.thread, lap := lap, since := o.since }

/-- The UNIT of a fault record of a thread, or of the engine itself (R372). -/
def cleUnit (t : Option Nat) : Nat := 6 + 8 * (t.getD 0)

/-- The monitor learns of a page fault of an operation; uncorrectable data ends its thread (R344). -/
def State.opStop (s : State) (die : Nat) (o : LOp) (x : MoveErr) : State :=
  let save (f : LOp → LOp) : State := s.modCle die fun e => e.modOp o.id fun _ => f o
  match x with
  | .fault va acc kind =>
    ((save fun o => { o with fault := some (va, acc, kind), posted := true }).touchWalk die o.ctx va).postFlt die
      { kind := 3, info := kind * 16 + acc, ctx := o.ctx, addr := va, core := die * 64, unit := cleUnit o.thread } (.op die o.id)
  | .wait => save id
  | .range => save id
  | .table a => (save id).postTable die o.ctx a (die * 64) (cleUnit o.thread)
  | .abort a => (s.postBad die o.ctx a (die * 64) (cleUnit o.thread)).loseOp die o 2

/-- Bytes per element of a reduction. -/
def redBytes (rfmt : Nat) : Nat := 2 ^ rfmt

/-- One element reduced (R327), and whether it was limited. -/
def redElem (r : RedOp) (d a : Nat) : Nat × Bool :=
  let w := 8 * redBytes r.rfmt
  let x := sextN w d
  let y := sextN w a
  let v := if r.rop = 0 then x + y else if r.rop = 1 then max x y else min x y
  let l := match r.clamp with
    | some b => limitTo (-(b : Int)) (min (b : Int) (((2 ^ (w - 1) : Nat) : Int) - 1)) v
    | none => satW false w v
  (wrapN w l.1, l.2)

/-- The bytes of elements reduced, and whether one was limited. -/
def redList (r : RedOp) (d a : List Byte) : List Byte × Bool :=
  let es := redBytes r.rfmt
  let l := List.zipWith (fun x y => redElem r x y) (lanesN (ofLeBytes d) (8 * es) (d.length / es)) (lanesN (ofLeBytes a) (8 * es) (d.length / es))
  (leBytes d.length (packN (8 * es) (l.map (·.1))), l.any (·.2))

/-- Bytes that go to stream position `pos` next: those of one unit of the destination; where elements of a reduction lie across two
units, the run whole (DEDUCED, log 155). -/
def Shape.piece (p : Shape) (pos : Nat) (r : RedOp) : Nat :=
  let a := p.addr pos
  if r.rop = 3 ∨ a.1 % redBytes r.rfmt = 0 then p.next pos else a.2

/-- Bytes written or reduced at a stream position of a shape. -/
def State.putPiece (s : State) (m : Mover) (p : Shape) (pos : Nat) (r : RedOp) (l : List Byte) : Except MoveErr (State × Bool) :=
  let f := l.length + 1
  if r.rop = 3 then (s.streamStore m p f pos l).map fun u => (u, false)
  else
    match s.streamLoad m p f pos l.length with
    | .error x => .error x
    | .ok (d, s1) =>
      let q := redList r d l
      (s1.streamStore m p f pos q.1).map fun u => (u, q.2)

/-- The bytes that have arrived are written or reduced, piece by piece. -/
def State.landLoop (s : State) (m : Mover) (p : Shape) (r : RedOp) (bytes : List Byte) (sat : Bool) : Nat → Nat → Moved
  | 0, pos => { st := s, pos := pos, sat := sat }
  | f + 1, pos =>
    if bytes.length ≤ pos then { st := s, pos := pos, sat := sat }
    else
      let n := min (bytes.length - pos) (p.piece pos r)
      match s.putPiece m p pos r ((bytes.drop pos).take n) with
      | .error x => { st := s, pos := pos, err := some x, sat := sat }
      | .ok (s1, b) => s1.landLoop m p r bytes (sat || b) f (pos + n)

/-- COPY and RED of an operation: from chunk to chunk (R326). -/
def State.moveChunk (s : State) (m : Mover) (o : LOp) : Moved :=
  let dst := o.dst.shape
  s.moveBytes m o.src.shape (fun p => dst.piece p o.red) (fun u p l => u.putPiece m dst p o.red l) dst.total (s.pieces (2 * dst.total))
    o.pos o.ahead false

/-- The bytes of a source read from `pos` on. -/
def State.readLoop (s : State) (m : Mover) (src : Shape) (acc : List Byte) : Nat → Nat → List Byte × Moved
  | 0, pos => (acc, { st := s, pos := pos })
  | f + 1, pos =>
    if src.total ≤ pos then (acc, { st := s, pos := pos })
    else
      let n := src.next pos
      match s.engLoad m (src.addr pos).1 n with
      | .error x => (acc, { st := s, pos := pos, err := some x })
      | .ok (l, s1) => s1.readLoop m src (acc ++ l) f (pos + n)

/-- A value of the schedule was limited: its SAT, or CLE.TERR's for an engine-wide reduction (R327). -/
def Cle.markSat (x : Cle) (t : Option Nat) (b : Bool) : Cle :=
  if ¬ b then x
  else
    match t with
    | some t => x.modThread t fun h => { h with sat := true }
    | none => { x with dropSat := true }

/-- The outcome of a move: its position is kept, then what stopped it is dealt with. -/
def Moved.into (r : Moved) (die : Nat) (o : LOp) (done : LOp → State → State) : State :=
  let o := { o with pos := r.pos, ahead := r.rd }
  let s1 := (r.st.flush ⟨die * 64, 2, o.id⟩ (decide (o.dst.shape.total ≤ r.pos))).modCle die fun x =>
    (x.markSat o.thread r.sat).modOp o.id fun _ => o
  match r.err with
  | some x => s1.opStop die o x
  | none => done o s1

/-! ### Packets -/

/-- The slot that has joined the packet's incarnation. -/
def Cle.slotOf (x : Cle) (p : Packet) : Option (Nat × Group) :=
  (x.groups.filterMap fun e => e.2.map fun g => (e.1, g)).find? fun e => e.2.gid == p.gid && e.2.inc == p.inc

/-- The incarnation that a packet may wait for. -/
def Cle.nextInc (x : Cle) (gid : Nat) : Nat := (Tab.get 255 x.incs gid + 1) % 256

/-- ALLDONE of the threads whose k-th SIG.ALL of a group every member has now marked (R333). -/
def State.allDone (s : State) (die gs : Nat) : State :=
  match (s.cle die).group gs with
  | none => s
  | some g =>
    let have_ := minOf 0xFFFFFFFF ((List.range g.members.length).map fun m => Tab.get 0 g.dones m)
    (List.range 8).foldl (fun u t =>
      let l := ((u.cle die).thread t).alls
      let now := l.filter fun a => a.1 == gs && decide (a.2 ≤ have_)
      let u1 := u.modCle die fun x => x.modThread t fun h => { h with alls := h.alls.filter fun a => !now.contains a }
      now.foldl (fun v _ => v.raise die t 2) u1) s

/-- A packet for a joined incarnation is accepted: markers and additions count at once (R332, R333), the others wait for their
operation. -/
def State.acceptPacket (s : State) (die gs : Nat) (g : Group) (m : Nat) (p : Packet) : State :=
  let put (g' : Group) : State := s.modCle die fun x => { x with groups := Tab.set none x.groups gs (some g') }
  match p.kind with
  | .done => (put { g with dones := Tab.set 0 g.dones m (Tab.get 0 g.dones m + 1) }).allDone die gs
  | .drain => put { g with drains := g.drains ++ [m] }
  | .radd => s.modCle die fun x => x.drainAdds.addTo p.seq p.val
  | _ => s.modCle die fun x => { x with inbox := x.inbox ++ [p] }

/-- A packet that no operation will take: one for an operation that was abandoned (R344). Data that came before its receive waits
for it (R325, R337). -/
def Cle.unwanted (x : Cle) (g : Group) (m : Nat) (p : Packet) : Bool :=
  let mine (l : List LKind) : Bool := x.ops.any fun o => l.contains o.kind && o.peer == m && o.seq == p.seq &&
    (x.group o.gs).map (·.gid) == some g.gid
  match p.kind with
  | .data => decide (p.seq ≤ Tab.get 0 g.recvs m) && !mine [.recv, .recvr]
  | .ack => if p.val = 1 then !mine [.recv, .recvr] else !mine [.send]
  | .fireAck => !(x.ops.any fun o => o.kind == .fire && o.id == p.seq)
  | .recvPosted => decide (p.seq ≤ Tab.get 0 g.sends m) && !mine [.send]
  | _ => false

/-- A stale packet is discarded (R337). -/
def Cle.addStale (x : Cle) : Cle := { x with stale := (x.stale + 1) % 2 ^ 64 }

/-- A packet is handled as R337 says: accepted, kept early, or stale; `none` when the early-arrival buffer is full. -/
def State.handlePacket (s : State) (die : Nat) (p : Packet) : Option State :=
  let x := s.cle die
  match x.slotOf p with
  | some (gs, g) =>
    match g.sender p with
    | none => some (s.modCle die Cle.addStale)
    | some m => if x.unwanted g m p then some (s.modCle die Cle.addStale) else some (s.acceptPacket die gs g m p)
  | none =>
    if p.inc = x.nextInc p.gid then
      let used := (x.early.map fun (q : Packet) => q.bytes.length).foldl (· + ·) 0
      if 262144 < used + p.bytes.length then none else some (s.setCle die { x with early := x.early ++ [p] })
    else some (s.modCle die Cle.addStale)

/-- The packet on its way to an engine of this module that arrives next of a source and a class (R324, R399). -/
def State.channelHead (s : State) (die mod d cls : Nat) : Option Packet :=
  (s.net.find? fun e => e.1 == s.modn && e.2.1 == die && e.2.2.1 == cls && e.2.2.2.srcMod == mod && e.2.2.2.srcDie == d).map (·.2.2.2)

/-- The class in which a packet is the next of its source. -/
def State.headClass (s : State) (die : Nat) (p : Packet) : Option Nat :=
  (List.range 4).find? fun k => s.channelHead die p.srcMod p.srcDie k == some p

/-- A packet arrives, unless the early-arrival buffer has no room for it: it is on its way no longer. -/
def State.arrivePacket (s : State) (die cls : Nat) (p : Packet) : State :=
  match s.handlePacket die p with
  | none => s
  | some s1 => { s1 with net := s1.net.erase (s.modn, die, cls, p) }

/-- PACKET_ARRIVAL: a packet from another module's engine, or one from this module's that is the next of its source and
class. -/
def execPacketArrival (die : Nat) (p : Packet) (s : State) : Host.Outcome State Fault Refusal :=
  if 8 ≤ die then .fault .noSuchAgent
  else if p.srcMod = s.modn then
    match s.headClass die p with
    | some k => .next (s.arrivePacket die k p)
    | none => .next s
  else .next ((s.handlePacket die p).getD s)

/-- REMOTE_ADD_ARRIVAL: the first remote addition on its way to an engine that is the next of its source and class arrives, and
is applied (R332). -/
def execRemoteAddArrival (die : Nat) (s : State) : Host.Outcome State Fault Refusal :=
  match s.net.find? fun e => e.1 == s.modn && e.2.1 == die && e.2.2.2.kind == .radd && s.headClass die e.2.2.2 == some e.2.2.1 with
  | none => .next s
  | some e => .next (s.arrivePacket die e.2.2.1 e.2.2.2)

/-- The threads that wait on a group: an operation, a SIG.ALL or a GFREE of theirs is not done (R344). -/
def Cle.waitsOn (x : Cle) (t gs : Nat) : Bool :=
  ((x.opsOf t).any fun o => o.gs == gs && [LKind.send, .recv, .recvr, .fire].contains o.kind) ||
  ((x.thread t).alls.any fun a => a.1 == gs)

/-- An acknowledgement that arrived before a failure marker of the same member waits for its operation. -/
def Cle.ackBefore (x : Cle) (p : Packet) : Bool :=
  (x.inbox.takeWhile fun q => q != p).any fun q =>
    [PacketKind.ack, .fireAck].contains q.kind && q.srcMod == p.srcMod && q.srcDie == p.srcDie && q.gid == p.gid && q.inc == p.inc &&
    (match x.slotOf q with
     | some (_, g) => (g.sender q).any fun m => !x.unwanted g m q
     | none => false)

/-- FAILURE_MARKER_ARRIVAL: threads that wait on the group end with PEER (R344). -/
def execFailureMarkerArrival (die : Nat) (s : State) : Host.Outcome State Fault Refusal :=
  let x := s.cle die
  match x.inbox.find? fun p => p.kind == .failure && !x.ackBefore p with
  | none => .next s
  | some p =>
    let s1 := s.modCle die fun y => y.take p
    match x.slotOf p with
    | none => .next s1
    | some (gs, g) =>
      let s2 := s1.modCle die fun y => { y with groups := Tab.set none y.groups gs (some
        { g with failed := g.failed ++ (g.sender p).toList }) }
      .next ((List.range 8).foldl (fun u t =>
        if (u.cle die).waitsOn t gs then u.stopThread die t ((u.cle die).thread t).last 0x14 else u) s2)

/-! ### Operations -/

/-- The thread of an operation that has left the engine ends with a status. -/
def State.endOp (s : State) (die : Nat) (o : LOp) (status : Nat) : State :=
  match o.thread with
  | some t => s.stopThread die t o.idx status
  | none => s

/-- The source of a SEND is read, and its data sent once every byte has been (R325, R328). -/
def State.sendData (s : State) (die : Nat) (o : LOp) (g : Group) : State :=
  let x := s.cle die
  let r := s.readLoop (x.opMover die o) o.src.shape (o.data.getD []) (s.pieces o.src.shape.total) o.pos
  r.2.into die { o with data := some r.1 } fun o u =>
    if o.src.shape.total ≤ o.pos then
      (u.modCle die fun y => y.modOp o.id fun _ => { o with moved := true, data := none }).sendTo die (x.clsOf o.thread) g o.peer .data
        o.seq r.1.length 0 r.1
    else u

/-- The member is an engine of this module that has not joined the group's incarnation, which is its next: what is sent to it
waits in its early-arrival buffer (R337). -/
def State.unjoined (s : State) (g : Group) (m : Nat) : Bool :=
  let d := g.members.getD m (0, 0)
  let y := s.cle d.2
  d.1 == s.modn && y.nextInc g.gid == g.inc && !(y.groups.any fun e => (e.2.map fun q => (q.gid, q.inc)) == some (g.gid, g.inc))

/-- TRANSFER_MATCH: both ends have issued, or the receiver has not joined; lengths are compared, the sender reads and sends, the receiver writes or
reduces and acknowledges (R325, R327, R328). -/
def State.matchOp (s : State) (die id : Nat) : State :=
  let x := s.cle die
  match x.op id with
  | none => s
  | some o =>
    match x.group o.gs with
    | none => s
    | some g =>
      if o.fault.isSome ∨ o.moved then s
      else
        match o.kind with
        | .send =>
          match x.mail g o.peer .recvPosted o.seq 0 with
          | some p =>
            if p.len ≠ o.src.shape.total then
              ((s.modCle die fun y => (y.take p).dropOp id).sendTo die (x.clsOf o.thread) g o.peer .ack o.seq p.len 1 []).endOp die o 0x11
            else s.sendData die o g
          | none => if s.unjoined g o.peer then s.sendData die o g else s
        | _ =>
          if o.kind ≠ .recv ∧ o.kind ≠ .recvr then s
          else
            match x.mail g o.peer .ack o.seq 1 with
            | some p => (s.modCle die fun y => (y.take p).dropOp id).endOp die o 0x11
            | none =>
              let got := match o.data with
                | some l => some (l, x)
                | none => (x.mail g o.peer .data o.seq 0).map fun (p : Packet) => (p.bytes, x.take p)
              match got with
              | none => s
              | some (l, y) =>
                let o1 := { o with data := some l }
                let u := s.setCle die (y.modOp id fun _ => o1)
                if l.length ≠ o.dst.shape.total then
                  ((u.modCle die fun y => y.dropOp id).sendTo die (x.clsOf o.thread) g o.peer .ack o.seq l.length 2 []).endOp die o 0x11
                else
                  let r := u.landLoop (x.opMover die o) o.dst.shape o.red l false (u.pieces l.length) o.pos
                  r.into die o1 fun o v =>
                    if l.length ≤ o.pos ∧ ¬ v.owes ⟨die * 64, 2, id⟩ then
                      (v.modCle die fun y => y.modOp id fun _ => { o with moved := true }).sendTo die (x.clsOf o.thread) g o.peer .ack
                        o.seq 0 0 []
                    else v

def execTransferMatch (die op : Nat) (s : State) : Host.Outcome State Fault Refusal := .next (s.matchOp die op)

/-- An operation is complete: it leaves the engine; with `add` it makes its counter's addition (R328). -/
def State.completeOp (s : State) (die : Nat) (o : LOp) (add : Bool) : State :=
  let s1 := s.modCle die fun x =>
    let y := x.dropOp o.id
    if add then { y with adds := y.adds ++ [(o.ctr, 1)] } else y
  (s1.startAgain die).settle die

/-- A COPY or RED moves on; it is complete once every byte has been performed at its home (R328, R343). -/
def State.moveOp (s : State) (die : Nat) (o : LOp) : State :=
  let r := s.moveChunk ((s.cle die).opMover die o) o
  r.into die o fun o u =>
    if o.pos < o.dst.shape.total then u
    else if u.owes ⟨die * 64, 2, o.id⟩ then u.modCle die fun y => y.modOp o.id fun _ => { o with readDone := true }
    else u.completeOp die o o.cn

/-- OPERATION_MILESTONE: an operation's bytes move on, it reaches read-done or completes, with its addition (R328). -/
def State.milestone (s : State) (die id : Nat) : State :=
  let x := s.cle die
  match x.op id with
  | none => s
  | some o =>
    if o.fault.isSome then s
    else
      match o.kind with
      | .send =>
        if o.moved ∧ ¬ o.readDone then
          s.modCle die fun y =>
            let z := y.modOp id fun o => { o with readDone := true }
            if o.cn then { z with adds := z.adds ++ [(o.ctr, 1)] } else z
        else
          match x.group o.gs with
          | none => s
          | some g =>
            let posted (y : Cle) : Cle := match y.mail g o.peer .recvPosted o.seq 0 with
              | some p => y.take p
              | none => y
            match x.mail g o.peer .ack o.seq 0, x.mail g o.peer .ack o.seq 2 with
            | some p, _ => if o.readDone then (s.modCle die fun y => posted (y.take p)).completeOp die o false else s
            | none, some p => (s.modCle die fun y => posted ((y.take p).dropOp id)).endOp die o 0x11
            | none, none => s
      | .recv => if o.moved then s.completeOp die o o.cn else s
      | .recvr => if o.moved then s.completeOp die o o.cn else s
      | .copy => s.moveOp die o
      | .red => s.moveOp die o
      | .fire =>
        match x.group o.gs with
        | none => s
        | some g =>
          if ¬ o.readDone then
            let r := s.readLoop (x.opMover die o) o.src.shape (o.data.getD []) (s.pieces o.src.shape.total) o.pos
            r.2.into die { o with data := some r.1 } fun o u =>
              if o.src.shape.total ≤ o.pos then
                ((u.modCle die fun y =>
                  let z := y.modOp id fun _ => { o with readDone := true, data := none }
                  { z with adds := z.adds ++ [(o.ctr, 1)] }).startAgain die).sendTo die (x.clsOf o.thread) g o.peer .fire id r.1.length 0
                    (leBytes 32 (x.tile o.tile) ++ r.1)
              else u
          else
            match x.inbox.find? fun p => p.kind == .fireAck && p.seq == id with
            | some p => (s.modCle die fun y => y.take p).completeOp die o false
            | none => s
      | .land => s

def execOperationMilestone (die op : Nat) (s : State) : Host.Outcome State Fault Refusal := .next (s.milestone die op)

/-- COUNTER_STEP: the addition offered first is applied (R330, R331). -/
def execCounterStep (die ctr val : Nat) (s : State) : Host.Outcome State Fault Refusal :=
  match (s.cle die).adds with
  | e :: l => if e = (ctr, val) then .next (s.modCle die fun x => ({ x with adds := l } : Cle).addTo ctr val) else .next s
  | [] => .next s

/-- The landing of a fire: the first that is under way, or of the first fire packet (R341). -/
def Cle.landing (x : Cle) : Option (LOp × Cle) :=
  match x.ops.find? fun o => o.kind == .land && o.fault.isNone with
  | some o => some (o, x)
  | none =>
    (x.inbox.find? fun (p : Packet) => p.kind == .fire && (x.slotOf p).isSome).bind fun (p : Packet) =>
      (x.slotOf p).bind fun e => (e.2.sender p).map fun m =>
        let t := ofLeBytes (p.bytes.take 32)
        let o : LOp := {
          id := x.opNext, thread := none, kind := .land, ctx := e.2.ctx, gs := e.1, peer := m, seq := p.seq
          dst := { addr := BitVec.ofNat 64 (tileRaddr t), rlen := tileLen t, nrow := 1 }
          ctr := tileRctr t, cn := true, red := tileRed t, data := some (p.bytes.drop 32), readDone := true }
        (o, (x.take p).addOp o)

/-- TILE_FIRE_LANDED: the data is applied, then RCTR is raised and the fire acknowledged (R341, R343). -/
def execTileFireLanded (die : Nat) (s : State) : Host.Outcome State Fault Refusal :=
  match (s.cle die).landing with
  | none => .next s
  | some (o, x) =>
    let l := o.data.getD []
    let u := s.setCle die x
    let r := u.landLoop (x.opMover die o) o.dst.shape o.red l false (u.pieces l.length) o.pos
    .next (r.into die o fun o v =>
      if l.length ≤ o.pos ∧ ¬ v.owes ⟨die * 64, 2, o.id⟩ then
        let w := v.modCle die fun y => ((y.dropOp o.id).drainAdds).addTo o.ctr 1
        match x.group o.gs with
        | some g => w.sendTo die (x.clsOf o.thread) g o.peer .fireAck o.seq 0 0 []
        | none => w
      else v)

end Sys2Proof.Machine
end

