-- ==== Sys2Proof/Machine/Lystil.lean ====
section
/-!
DEFINITION. The Lystil words (R316 to R341). A word issues on the thread in focus; one that must wait leaves the thread at
it. When the focus is a core no thread issues.
-/

namespace Sys2Proof.Machine

open Sys2Proof

/-! ### Issue -/

/-- The thread whose turn it is: of those released together the first in firing order, else the next ready one of the round
(R314, R331). -/
def Cle.turn (x : Cle) : Option Nat :=
  match x.fired with
  | t :: _ => some t
  | [] => ((List.range 8).map fun k => (x.last + 1 + k) % 8).find? fun t => (x.thread t).st == .ready

/-- The thread may issue: it is ready, the engine has applied its additions, and it is its turn (R314, R330, R331). -/
def Cle.mayIssue (x : Cle) (t : Nat) : Bool :=
  decide (t < 8) && (x.thread t).st == .ready && x.adds.isEmpty && x.turn == some t

/-- A word of the thread in focus: `f` gives its effect for the die and thread. -/
def runWord (f : Nat → Nat → State → State) (s : State) : Host.Outcome State Fault Refusal :=
  match s.focus with
  | .core _ => .next s
  | .thread d t => if (s.cle d).mayIssue t then .next (f d t s) else .next s

/-- The word has issued: it is counted, the next one is at `pos`. -/
def Cle.pass (x : Cle) (t pos : Nat) : Cle :=
  { (x.modThread t fun h => { h with last := h.pos, pos := pos, count := (h.count + 1) % 2 ^ 32, held := false, kept := none }) with
    last := t, fired := x.fired.erase t }

/-- The word has issued and control goes to the next one. -/
def State.goOn (s : State) (d t : Nat) : State := s.modCle d fun x => x.pass t ((x.thread t).pos + 1)

/-- The word waits. -/
def State.holdWord (s : State) (d t : Nat) : State :=
  s.modCle d fun x => { x.modThread t (fun h => { h with held := true }) with last := t, fired := x.fired.erase t }

/-- The word ends its thread with a status. -/
def State.stopWord (s : State) (d t status : Nat) : State :=
  let p := ((s.cle d).thread t).pos
  (s.modCle d fun x => x.pass t p).stopThread d t p status

/-- A page fault of the thread's own read is reported; a migration or link is waited for; bad data aborts (R344). -/
def State.threadStop (s : State) (d t : Nat) (x : MoveErr) : State :=
  let ctx := match ((s.cle d).thread t).start with
    | some q => q.ctx
    | none => 0
  match x with
  | .fault va acc kind =>
    ((s.touchWalk d ctx va).modCle d fun e => { e.modThread t (fun h => { h with st := .faulted }) with last := t, fired := e.fired.erase t }).postFlt d
      { kind := 3, info := kind * 16 + acc, ctx := ctx, addr := va, core := d * 64, unit := cleUnit (some t) } (.thread d t)
  | .abort a => (s.postBad d ctx a (d * 64) (cleUnit (some t))).stopWord d t 2
  | .table a => (s.postTable d ctx a (d * 64) (cleUnit (some t))).stopWord d t 0x0A
  | _ => s.holdWord d t

/-- The context of the thread's schedule, and its rights. -/
def Cle.threadCtx (x : Cle) (t : Nat) : Nat :=
  match (x.thread t).start with
  | some q => q.ctx
  | none => 0

def Cle.threadMover (x : Cle) (d t : Nat) : Mover :=
  { who := .cle d, ctx := x.threadCtx t, cls := x.clsOf (some t), since := (x.thread t).since }

def Cle.chunk (x : Cle) (t k : Nat) : Chunk := Tab.get {} (x.thread t).chunks k

/-- The slot counts as used by the schedule (R344). -/
def Cle.use (x : Cle) (t gs : Nat) : Cle :=
  x.modThread t fun h => { h with used := if h.used.contains gs then h.used else h.used ++ [gs] }

/-! ### Checks -/

/-- A chunk that an operation may not use (R322): `copy` for the chunks of COPY, `es` the element size of a reduction. -/
def Chunk.bad (k : Chunk) (copy : Bool) (es : Nat) : Bool :=
  let a := k.addr.toNat
  let n := (k.nrow - 1) * k.rstr + k.rlen
  k.rlen == 0 || k.nrow == 0 || decide (4194304 < k.rlen * k.nrow) || (decide (1 < k.nrow) && decide (k.rstr < k.rlen)) ||
  k.rlen % es != 0 ||
  (if a.testBit 63 then !copy || decide (0x20000 < a % 2 ^ 63 + n) else decide (2 ^ 55 ≤ a) || decide (2 ^ 55 < a + n))

/-- The thread or the engine has as many operations in flight as it may (R314). -/
def Cle.opsFull (x : Cle) (t : Nat) : Bool := decide (16 ≤ (x.opsOf t).length) || decide (64 ≤ x.inFlight)

/-- The group of a slot, or the status that naming it ends the thread with (R337, R344). -/
def Cle.useGroup (x : Cle) (gs : Nat) : Except Nat Group :=
  match x.group gs with
  | none => .error 0x13
  | some g => if g.failed ≠ [] then .error 0x14 else .ok g

/-- An asynchronous operation starts, unless a limit holds the thread. -/
def State.startOp (s : State) (d t : Nat) (o : LOp) : State :=
  s.modCle d fun x =>
    (x.addOp { o with thread := some t, idx := (x.thread t).pos, since := (x.thread t).since }).pass t ((x.thread t).pos + 1)

/-! ### Transfers (R324 to R327) -/

/-- SEND: the number of the transfer on its channel counts all the engine's SENDs to the member. -/
def execSend (ka gs peer ctr : Nat) (cn : Bool) (s : State) : Host.Outcome State Fault Refusal :=
  runWord (fun d t s =>
    let x := s.cle d
    match x.useGroup gs with
    | .error e => s.stopWord d t e
    | .ok g =>
      let k := x.chunk t ka
      let m := g.member peer
      let n := Tab.get 0 g.sends m + 1
      if k.bad false 1 then s.stopWord d t 0x12
      else if x.opsFull t then s.holdWord d t
      else
        ((s.modCle d fun y => { y.use t gs with
          groups := Tab.set none y.groups gs (some { g with sends := Tab.set 0 g.sends m n }) }).startOp d t
          { id := 0, thread := none, kind := .send, ctx := g.ctx, gs := gs, peer := m, seq := n, src := k, ctr := ctr, cn := cn })) s

/-- RECV and RECVR: the receive is made known to its sender. -/
def State.receive (s : State) (d t ka gs peer ctr : Nat) (cn : Bool) (kind : LKind) (r : RedOp) : State :=
  let x := s.cle d
  match x.useGroup gs with
  | .error e => s.stopWord d t e
  | .ok g =>
    let k := x.chunk t ka
    let m := g.member peer
    let n := Tab.get 0 g.recvs m + 1
    if k.bad false (if r.rop = 3 then 1 else redBytes r.rfmt) then s.stopWord d t 0x12
    else if x.opsFull t then s.holdWord d t
    else
      ((s.modCle d fun y => { y.use t gs with
        groups := Tab.set none y.groups gs (some { g with recvs := Tab.set 0 g.recvs m n }) }).startOp d t
        { id := 0, thread := none, kind := kind, ctx := g.ctx, gs := gs, peer := m, seq := n, dst := k, ctr := ctr, cn := cn
          red := r, readDone := true }).sendTo d (x.clsOf (some t)) g m .recvPosted n k.shape.total 0 []

def execRecv (ka gs peer ctr : Nat) (cn : Bool) (s : State) : Host.Outcome State Fault Refusal :=
  runWord (fun d t s => s.receive d t ka gs peer ctr cn .recv {}) s

/-- The reduction of RECVR and RED. -/
def redOf (rop rfmt : Nat) (cb : Bool) (clamp : Nat) : RedOp :=
  { rop := rop, rfmt := rfmt, clamp := if cb then some clamp else none }

def execRecvr (ka gs peer ctr : Nat) (cn : Bool) (rop rfmt : Nat) (cb : Bool) (clamp : Nat) (s : State) :
    Host.Outcome State Fault Refusal :=
  runWord (fun d t s => s.receive d t ka gs peer ctr cn .recvr (redOf rop rfmt cb clamp)) s

/-- COPY and RED: both chunks are checked, then their lengths. -/
def State.chunkOp (s : State) (d t ka kb ctr : Nat) (cn : Bool) (kind : LKind) (r : RedOp) : State :=
  let x := s.cle d
  let a := x.chunk t ka
  let b := x.chunk t kb
  let es := if r.rop = 3 then 1 else redBytes r.rfmt
  if a.bad (kind == .copy) es ∨ b.bad (kind == .copy) es then s.stopWord d t 0x12
  else if a.shape.total ≠ b.shape.total then s.stopWord d t 0x11
  else if x.opsFull t then s.holdWord d t
  else s.startOp d t { id := 0, thread := none, kind := kind, ctx := x.threadCtx t, dst := a, src := b, ctr := ctr, cn := cn, red := r }

def execLystilCopy (ka kb ctr : Nat) (cn : Bool) (s : State) : Host.Outcome State Fault Refusal :=
  runWord (fun d t s => s.chunkOp d t ka kb ctr cn .copy {}) s

def execRed (ka kb ctr : Nat) (cn : Bool) (rop rfmt : Nat) (cb : Bool) (clamp : Nat) (s : State) :
    Host.Outcome State Fault Refusal :=
  runWord (fun d t s => s.chunkOp d t ka kb ctr cn .red (redOf rop rfmt cb clamp)) s

/-! ### Waiting (R329) -/

def execLystilWait (ctr thr : Nat) (s : State) : Host.Outcome State Fault Refusal :=
  runWord (fun d t s =>
    if thr ≤ (s.cle d).counter ctr then s.goOn d t
    else (s.goOn d t).modCle d fun x =>
      { x.modThread t (fun h => { h with st := .waitCtr ctr thr x.armNext }) with armNext := x.armNext + 1 }) s

def execTwait (tile : Nat) (s : State) : Host.Outcome State Fault Refusal :=
  runWord (fun d t s =>
    if Tab.get 0 (s.cle d).flags tile ≠ 0 then
      (s.goOn d t).modCle d fun x => x.modThread t fun h => { h with since := h.since ++ x.flagSince tile }
    else (s.goOn d t).modCle d fun x => x.modThread t fun h => { h with st := .waitFlag tile }) s

/-! ### Signals (R332, R333) -/

/-- Every earlier operation of the thread has completed. -/
def Cle.opsDone (x : Cle) (t : Nat) : Bool := (x.opsOf t).isEmpty

/-- Every earlier operation of the thread has read its source. -/
def Cle.readsDone (x : Cle) (t : Nat) : Bool := (x.opsOf t).all fun o => o.readDone

/-- A SIG that acts once its wait is over. -/
def sigWord (ready : Cle → Nat → Bool) (act : Nat → Nat → State → State) (s : State) : Host.Outcome State Fault Refusal :=
  runWord (fun d t s => if ready (s.cle d) t then act d t s else s.holdWord d t) s

def execSigAdd (ctr val : Nat) (s : State) : Host.Outcome State Fault Refusal :=
  sigWord Cle.opsDone (fun d t s => (s.goOn d t).modCle d fun x => x.addTo ctr val) s

def execSigSet (ctr val : Nat) (s : State) : Host.Outcome State Fault Refusal :=
  sigWord Cle.opsDone (fun d t s => (s.goOn d t).modCle d fun x => x.stepTo ctr (val % 2 ^ 32)) s

def execSigRadd (gs peer ctr val : Nat) (s : State) : Host.Outcome State Fault Refusal :=
  sigWord Cle.opsDone (fun d t s =>
    match (s.cle d).useGroup gs with
    | .error e => s.stopWord d t e
    | .ok g => ((s.goOn d t).modCle d fun x => x.use t gs).sendTo d ((s.cle d).clsOf (some t)) g (g.member peer) .radd ctr 0 val []) s

def execSigSrc (s : State) : Host.Outcome State Fault Refusal := sigWord Cle.readsDone (fun d t s => (s.goOn d t).raise d t 0) s

def execSigLoc (s : State) : Host.Outcome State Fault Refusal := sigWord Cle.opsDone (fun d t s => (s.goOn d t).raise d t 1) s

/-- SIG.ALL: done markers to every member; ALLDONE follows once theirs have arrived. -/
def execSigAll (gs : Nat) (s : State) : Host.Outcome State Fault Refusal :=
  sigWord (fun x t => x.opsDone t && (x.thread t).alls.isEmpty) (fun d t s =>
    match (s.cle d).useGroup gs with
    | .error e => s.stopWord d t e
    | .ok g =>
      let n := g.alls + 1
      (((s.goOn d t).modCle d fun x =>
        let y := (x.use t gs).modThread t fun h => { h with alls := h.alls ++ [(gs, n)] }
        { y with groups := Tab.set none y.groups gs (some { g with alls := n }) }).sendAll d ((s.cle d).clsOf (some t)) g .done n).allDone d gs) s

/-! ### Fires (R341) -/

def execTfire (tile : Nat) (s : State) : Host.Outcome State Fault Refusal :=
  runWord (fun d t s =>
    let s := s.tileRead d tile ((s.cle d).threadCtx t)
    let x := s.cle d
    let gs := tileGs (x.tile tile)
    if x.entryBad tile then (s.postBad d (x.threadCtx t) (tablePlace d (32 * tile)) (d * 64) (cleUnit (some t))).stopWord d t 2
    else if ¬ x.fieldsUsable tile then s.stopWord d t 0x15
    else
      match x.useGroup gs with
      | .error e => s.stopWord d t e
      | .ok _ =>
        if x.opsFull t then s.holdWord d t
        else (s.modCle d fun y =>
          let z := (y.use t gs).startFire tile (some t) ((y.thread t).since ++ y.flagSince tile)
          z.modOp y.opNext fun o => { o with idx := (y.thread t).pos }).goOn d t) s

/-! ### Chunk registers (R321) -/

/-- A chunk register changed at issue. -/
def chunkWord (k : Nat) (f : Chunk → Chunk) (s : State) : Host.Outcome State Fault Refusal :=
  runWord (fun d t s => (s.goOn d t).modCle d fun x =>
    x.modThread t fun h => { h with chunks := Tab.set {} h.chunks k (f (Tab.get {} h.chunks k)) }) s

def execSetkAddr (k : Nat) (imm : BitVec 48) (s : State) : Host.Outcome State Fault Refusal :=
  chunkWord k (fun c => { c with addr := BitVec.ofNat 64 (imm.toNat % 2 ^ 47 + 2 ^ 63 * (imm.toNat / 2 ^ 47)) }) s

def execSetkAddrAdd (k : Nat) (imm : BitVec 48) (s : State) : Host.Outcome State Fault Refusal :=
  chunkWord k (fun c => { c with addr := c.addr + sext48 imm }) s

/-- The argument word is read before the thread goes on. -/
def execSetkAddrArg (k : Nat) (imm : BitVec 48) (s : State) : Host.Outcome State Fault Refusal :=
  runWord (fun d t s =>
    let x := s.cle d
    let arg := match (x.thread t).start with
      | some q => startArg q.num
      | none => 0
    match s.loadBytes (x.threadMover d t) ((arg + 8 * imm.toNat) % 2 ^ 55) 8 with
    | .error e => s.threadStop d t e
    | .ok (l, s1) => (s1.goOn d t).modCle d fun y => y.modThread t fun h =>
        { h with chunks := Tab.set {} h.chunks k { Tab.get {} h.chunks k with addr := BitVec.ofNat 64 (ofLeBytes l) } }) s

def execSetkRlen (k : Nat) (imm : BitVec 48) (s : State) : Host.Outcome State Fault Refusal :=
  chunkWord k (fun c => { c with rlen := imm.toNat }) s

def execSetkNrow (k : Nat) (imm : BitVec 48) (s : State) : Host.Outcome State Fault Refusal :=
  chunkWord k (fun c => { c with nrow := imm.toNat }) s

def execSetkRstr (k : Nat) (imm : BitVec 48) (s : State) : Host.Outcome State Fault Refusal :=
  chunkWord k (fun c => { c with rstr := imm.toNat }) s

/-! ### Loops (R334) -/

def execLystilLoop (ln count : Nat) (s : State) : Host.Outcome State Fault Refusal :=
  runWord (fun d t s => (s.goOn d t).modCle d fun x =>
    x.modThread t fun h => { h with loops := Tab.set 0 h.loops ln (count % 2 ^ 32) }) s

/-- BNZ: a branch to a negative index is a bad operation. -/
def execBnz (ln : Nat) (off : BitVec 24) (s : State) : Host.Outcome State Fault Refusal :=
  runWord (fun d t s =>
    let h := (s.cle d).thread t
    let n := (Tab.get 0 h.loops ln + 2 ^ 32 - 1) % 2 ^ 32
    let dest : Int := (h.pos : Int) + off.toInt
    let s1 := s.modCle d fun x => x.modThread t fun h => { h with loops := Tab.set 0 h.loops ln n }
    if n = 0 then s1.goOn d t
    else if dest < 0 then s1.stopWord d t 0x10
    else s1.modCle d fun x => x.pass t dest.toNat) s

/-! ### Groups (R336 to R338) -/

/-- The members of a table's bytes. -/
def membersOf (l : List Byte) : List (Nat × Nat) :=
  (chunksOf 4 (l.length / 4) l).map fun e => let n := ofLeBytes e; (bitsN n 0 17, bitsN n 17 3)

/-- GJOIN. -/
def execGjoin (gs k inc gid : Nat) (s : State) : Host.Outcome State Fault Refusal :=
  runWord (fun d t s =>
    let x := s.cle d
    let c := x.chunk t k
    let n := c.shape.total
    if c.bad false 1 then s.stopWord d t 0x12
    else
      match s.streamLoad (x.threadMover d t) c.shape (n + 1) 0 n with
      | .error e => s.threadStop d t e
      | .ok (l, s1) =>
        let ms := membersOf l
        match ms.findIdx? fun m => m == (s.modn, d) with
        | none => s1.stopWord d t 0x13
        | some me =>
          if (x.group gs).isSome ∨ (x.groups.any fun e => (e.2.map (·.gid)) == some gid) ∨ inc ≠ x.nextInc gid ∨
              n % 4 ≠ 0 ∨ 1024 < n ∨ ¬ ms.Nodup then s1.stopWord d t 0x13
          else
            let g : Group := { gid := gid, inc := inc, ctx := x.threadCtx t, members := ms, self := me }
            let mine (p : Packet) : Bool := p.gid == gid && p.inc == inc
            let s2 := (s1.goOn d t).modCle d fun y =>
              { y.use t gs with groups := Tab.set none y.groups gs (some g), early := y.early.filter fun p => !mine p }
            (x.early.filter mine).foldl (fun u p => (u.handlePacket d p).getD u) s2) s

/-- Packets of the group's incarnation that nothing has taken are stale once its slot is free (R337). -/
def Cle.discardRest (x : Cle) (g : Group) : Cle :=
  let rest := x.inbox.filter fun p => p.gid == g.gid && p.inc == g.inc
  rest.foldl (fun y p => (y.take p).addStale) x

/-- Every member that has not failed has sent its drain marker. -/
def Group.drained (g : Group) : Bool :=
  (List.range g.members.length).all fun m => g.drains.contains m || g.failed.contains m

/-- GFREE: it waits for the group's operations and events, sends drain markers, waits for theirs, and frees the slot. -/
def execGfree (gs : Nat) (s : State) : Host.Outcome State Fault Refusal :=
  runWord (fun d t s =>
    let x := s.cle d
    match x.group gs with
    | none => s.stopWord d t 0x13
    | some g =>
      if (x.thread t).draining then
        if g.drained then
          (s.goOn d t).modCle d fun y =>
            { (y.modThread t fun h => { h with draining := false, used := h.used.erase gs }).discardRest g with
              incs := Tab.set 255 y.incs g.gid g.inc, groups := Tab.set none y.groups gs none }
        else s.holdWord d t
      else if (x.ops.any fun o => o.gs == gs && [LKind.send, .recv, .recvr, .fire, .land].contains o.kind) ∨
          (x.inbox.any fun p => p.kind == .fire && p.gid == g.gid && p.inc == g.inc) ∨
          ((List.range 8).any fun u => (x.thread u).alls.any fun a => a.1 == gs) then s.holdWord d t
      else (((s.modCle d fun y => y.modThread t fun h => { h with draining := true }).sendAll d (x.clsOf (some t)) g .drain 0).holdWord d t)) s

/-! ### The end -/

/-- END (R335). -/
def execLystilEnd (s : State) : Host.Outcome State Fault Refusal :=
  sigWord (fun x t => x.opsDone t && (x.thread t).alls.isEmpty) (fun d t s => s.stopWord d t 0) s

/-- An illegal word (R319). -/
def execLystilBadop (_ : BitVec 64) (s : State) : Host.Outcome State Fault Refusal :=
  runWord (fun d t s => s.stopWord d t 0x10) s

end Sys2Proof.Machine
end

