-- ==== Sys2Proof/Machine/Rambler.lean ====
section
/-!
DEFINITION. Launches: the nest record and its checks (R203, R204), the enumeration and the placement (R205, R208, R209),
continuation records (R212, R213), phases (R218, R219), completion (R222, R224), the front end's queues (R222, R223), the
kill of a context (R380) and the ramp windows (R225). An event that is not due leaves the state.
-/

namespace Sys2Proof.Machine

open Sys2Proof

/-! ### The nest record (R203, R204) -/

/-- The nest that 128 bytes hold. -/
def nestOf (l : List Byte) : Nest :=
  let n := ofLeBytes l
  { entry := bitsN n 0 48
    widths := (List.range 6).map fun k => bitsN n (64 + 7 * k) 7
    bounds := (List.range 6).map fun k => bitsN n (128 + 64 * k) 64 + 1
    order := (List.range 6).map fun e => bitsN n (512 + 3 * e) 3
    gang := 2 ^ bitsN n 536 2, prio := bitsN n 544 4, pcap := bitsN n 548 4, plvl := bitsN n 552 3
    crec := n.testBit 560, mph := n.testBit 561, accn := bitsN n 568 6
    cmask := bitsN n 576 64, dmask := bitsN n 640 8, trec := bitsN n 704 64, spplan := bitsN n 768 64
    arg := bitsN n 832 64, spbanks := bitsN n 896 48, spbase := bitsN n 960 32 }

/-- Core `c` is in the core set. -/
def Nest.has (n : Nest) (c : Nat) : Bool := n.cmask.testBit (c % 64) && n.dmask.testBit (c / 64)

/-- The cores of the gang position at core `c`. -/
def Nest.gangAt (n : Nest) (c : Nat) : List Nat := (List.range n.gang).map fun k => c + k

/-- The gang positions of the core set, by their head; single cores when GANG = 1 (R208). -/
def Nest.heads (n : Nest) : List Nat :=
  (List.range coreCount).filter fun c => c % 8 % n.gang == 0 && (n.gangAt c).all n.has

/-- The product of some of the bounds. -/
def product (l : List Nat) : Nat := l.foldl (· * ·) 1

/-- The identifiers of the launch (R205). -/
def Nest.total (n : Nest) : Nat := product n.bounds

/-- The members of a party of level `k` (R218). -/
def Nest.partySize (n : Nest) (k : Nat) : Nat := product (n.bounds.take k)

/-- A nest that is not rejected (R204). -/
def Nest.ok (n : Nest) : Bool :=
  decide (n.widths.foldl (· + ·) 0 ≤ 64) &&
  ((List.zip n.widths n.bounds).all fun e => (e.1 != 0 || e.2 == 1) && decide (e.2 ≤ 2 ^ e.1)) &&
  ((List.range 6).all fun k => n.order.contains k) &&
  decide (n.plvl ≤ 6) && ((n.order.take n.plvl).all fun f => decide (f < n.plvl)) &&
  decide (n.prio ≤ n.pcap) && decide (n.accn ≤ 32) && !n.heads.isEmpty && n.total % n.gang == 0 && n.spbase % 65536 == 0

/-- The identifier of place `i` of the enumeration: the odometer of R205, packed under R98. -/
def Nest.wid (n : Nest) (i : Nat) : Nat :=
  let off (f : Nat) : Nat := (n.widths.take f).foldl (· + ·) 0
  (n.order.foldl (fun (e : Nat × Nat) f =>
    let b := n.bounds.getD f 1
    (e.1 + e.2 % b * 2 ^ off f, e.2 / b)) (0, i)).1

/-- Two identifiers agree in the fields from `k` on: one party of level `k` (R218). -/
def Nest.sameParty (n : Nest) (k w v : Nat) : Bool :=
  let o := (n.widths.take k).foldl (· + ·) 0
  w / 2 ^ o == v / 2 ^ o

/-! ### Placement (R209) -/

/-- Queued and resident tasks of a core. -/
def Core.load (x : Core) : Nat :=
  x.runQ.length + (if x.bank0.state = .empty then 0 else 1) + (if x.bank1.state = .empty then 0 else 1)

/-- The cores of a list whose sum of tasks is taken. -/
def State.loadOf (s : State) (l : List Nat) : Nat := (l.map fun c => (s.core c).load).foldl (· + ·) 0

/-- The run queue has room: at most 8 entries. -/
def Core.hasRoom (x : Core) : Bool := decide (x.runQ.length < 8)

/-- The first element of a list with the lowest weight. -/
def lowest (w : Nat → Nat) : List Nat → Option Nat
  | [] => none
  | a :: l =>
    match lowest w l with
    | none => some a
    | some b => if w a ≤ w b then some a else some b

/-- The core or gang position that takes the next entry of a launch, among those a filter leaves. -/
def State.pickHead (s : State) (n : Nest) (f : Nat → Bool) : Option Nat :=
  lowest (fun c => s.loadOf (n.gangAt c))
    (n.heads.filter fun c => f c && (n.gangAt c).all fun k => (s.core k).hasRoom)

/-- The die with the fewest tasks among those of the core set. -/
def State.pickDie (s : State) (n : Nest) : Option Nat :=
  lowest (fun d => s.loadOf ((List.range 64).map fun k => d * 64 + k)) ((List.range 8).filter fun d => n.dmask.testBit d)

/-- Cores of the core set on one die. -/
def Nest.dieCores (n : Nest) : Nat := ((List.range 64).filter fun k => n.cmask.testBit k).length

/-- The die that a launch's parties must share (R209): chosen at a party's first member. -/
def State.partyDie (s : State) (l : Launch) : Option Nat :=
  let k := l.nest.partySize l.nest.plvl
  if l.nest.plvl = 0 ∨ l.nest.dieCores < k then none
  else if l.next % k = 0 then s.pickDie l.nest
  else match l.die with
    | some d => some d
    | none => s.pickDie l.nest

/-- The next identifier, or gang, has a place. -/
def State.freshPlace (s : State) (l : Launch) : Option Nat :=
  if l.cancelled ∨ l.nest.total ≤ l.next then none
  else
    let die := s.partyDie l
    s.pickHead l.nest fun c => match die with
      | some d => c / 64 == d
      | none => true

/-! ### Continuation records (R212, R213) -/

/-- The record store of a die. -/
def State.store (s : State) (die : Nat) : List Record := Tab.get [] s.records die

def State.setStore (s : State) (die : Nat) (l : List Record) : State := { s with records := Tab.set [] s.records die l }

/-- Where the records of a die lie in its ring SRAM: 65,536 blocks of 64 bytes. -/
def recordAddr (die slot : Nat) : Nat := dieWindow die + 0x47C00000 + 64 * slot

/-- The block that a record takes. DESIGN CHOICE, log 135: the lowest that no record holds. -/
def freeSlot (l : List Record) : Option Nat :=
  (List.range (min 65536 (l.length + 1))).find? fun k => !(l.any fun r => r.slot == k)

/-- The oldest runnable record of a launch, with its die. -/
def State.runnable (s : State) (lid : Nat) : Option (Nat × Record) :=
  (s.records.foldl (fun (best : Option (Nat × Record)) e =>
    e.2.foldl (fun b r =>
      if r.launch = lid ∧ r.wait = none then
        match b with
        | some q => if r.order < q.2.order then some (e.1, r) else b
        | none => some (e.1, r)
      else b) best) none)

/-- A launch has an entry that can be placed now. -/
def State.canPlace (s : State) (lid : Nat) : Bool :=
  let l := s.launch lid
  ((s.runnable lid).isSome && (s.pickHead l.nest fun _ => true).isSome) || (s.freshPlace l).isSome

/-- The Rambler serves launch `a` before launch `b`: priority, then queue priority, then order of start. -/
def Launch.before (a b : Launch) : Bool :=
  if a.nest.prio ≠ b.nest.prio then decide (b.nest.prio < a.nest.prio)
  else if a.qprio ≠ b.qprio then decide (b.qprio < a.qprio)
  else decide (a.order < b.order)

/-- A launch is there. -/
def State.hasLaunch (s : State) (lid : Nat) : Bool := s.launches.any fun e => e.1 == lid

/-- RAMBLER_PLACE's turn is this launch's. -/
def State.placeTurn (s : State) (lid : Nat) : Bool :=
  s.hasLaunch lid && s.canPlace lid &&
  s.launches.all fun e => e.1 == lid || !(e.2.before (s.launch lid)) || !s.canPlace e.1

/-- An entry joins a core's run queue. -/
def Core.enqueue (x : Core) (q : QEntry) : Core := { x with runQ := x.runQ ++ [q] }

/-- A record leaves its store and joins a run queue; one whose bytes hold an uncorrectable error ends its task (R379). -/
def State.placeRecord (s : State) (die : Nat) (r : Record) (c : Nat) : State :=
  let a := recordAddr die r.slot
  let s1 := s.setStore die ((s.store die).filter fun q => q.slot != r.slot)
  match s.badIn a 64 with
  | some w =>
    let ctx := (s.launch r.launch).ctx
    (s1.postBad die ctx w (die * 64) 0).killedAway r.launch r.wid 0x15 ctx die reportCore 0
  | none =>
    let n := memNat s.mem a 64
    s1.modCore c fun x => x.enqueue (.record r.launch r.wid (bitsN n 0 48) r.prio 0
      ((List.range 6).map fun k => BitVec.ofNat 64 (bitsN n (128 + 64 * k) 64)))

/-- The next identifiers join the run queues of a gang's cores. -/
def State.placeFresh (s : State) (lid : Nat) (head : Nat) : State :=
  let l := s.launch lid
  let gang := l.nest.gangAt head
  let s1 := (List.range l.nest.gang).foldl (fun u k =>
    u.modCore (head + k) fun x => x.enqueue (.fresh lid (l.nest.wid (l.next + k)) gang (l.nest.wid l.next) l.nest.prio 0)) s
  s1.setLaunch lid { l with next := l.next + l.nest.gang, live := l.live + l.nest.gang, die := s.partyDie l }

/-- RAMBLER_PLACE: a runnable record of the launch, or its next identifier or gang, is placed (R205, R208, R209). -/
def execRamblerPlace (lid : Nat) (s : State) : Host.Outcome State Fault Refusal :=
  let l := s.launch lid
  if ¬ s.placeTurn lid then .next s
  else
    match s.runnable lid, s.pickHead l.nest fun _ => true with
    | some (die, r), some c => .next (s.placeRecord die r c)
    | _, _ =>
      match s.freshPlace l with
      | some c => .next (s.placeFresh lid c)
      | none => .next s

/-! ### What ends before it runs -/

/-- The launch and identifier of a queue entry. -/
def Core.entryTask (x : Core) : QEntry → Nat × Nat
  | .fresh l w _ _ _ _ => (l, w)
  | .record l w _ _ _ _ => (l, w)
  | .saved k _ _ =>
    match x.saved.find? fun v => v.area == k with
    | some v => (v.bank.task.launch, v.bank.task.wid)
    | none => (0, 0)

/-- A queue entry whose task has issued no bundle since it was queued: a new identifier or a record. -/
def QEntry.unissued : QEntry → Bool
  | .saved .. => false
  | _ => true

/-- Queue entries of a launch that have not issued are discarded (R223). -/
def State.discardQueued (s : State) (lid : Nat) : State :=
  s.cores.foldl (fun u e =>
    let mine (q : QEntry) : Bool := q.unissued && (e.2.entryTask q).1 == lid
    let gone := e.2.runQ.filter mine
    let u1 := u.modCore e.1 fun x => { x with runQ := x.runQ.filter fun q => !mine q }
    gone.foldl (fun v q => v.taskEnded lid (e.2.entryTask q).2) u1) s

/-- Saved contexts of a launch that have issued nothing are discarded (R223). -/
def State.discardSaved (s : State) (lid : Nat) : State :=
  s.cores.foldl (fun u e =>
    (e.2.saved.filter fun v => v.bank.task.launch == lid && !v.bank.task.issued).foldl (fun u v =>
      ((u.dropSaved e.1 v).taskEnded lid v.bank.task.wid).modLaunch lid fun x => { x with started := x.started - 1 }) u) s

/-- Records of a launch are discarded. -/
def State.discardRecords (s : State) (lid : Nat) : State :=
  s.records.foldl (fun u e =>
    let gone := e.2.filter fun r => r.launch == lid
    let u1 := u.setStore e.1 ((u.store e.1).filter fun r => r.launch != lid)
    gone.foldl (fun v r => v.taskEnded lid r.wid) u1) s

/-- Resident tasks of a launch that have issued nothing leave their banks. -/
def State.discardFresh (s : State) (lid : Nat) : State :=
  s.cores.foldl (fun u e =>
    [0, 1].foldl (fun v b =>
      let y := v.bankAt e.1 b
      if y.state ≠ .empty ∧ y.task.launch = lid ∧ ¬ y.task.issued then
        ((v.emptyBank e.1 b).taskEnded lid y.task.wid).modLaunch lid fun x => { x with started := x.started - 1 }
      else v) u) s

/-- The tasks that a filter names are killed: residents at their next boundary, saved contexts now. -/
def State.killTasks (s : State) (f : Bank → Bool) (cause : Nat) : State :=
  s.cores.foldl (fun u e =>
    let u1 := [0, 1].foldl (fun v b =>
      let y := v.bankAt e.1 b
      if y.state ≠ .empty ∧ f y ∧ y.task.kill = none then
        v.modBank e.1 b fun z => { z with task := { z.task with kill := some cause } }
      else v) u
    (e.2.saved.filter fun w => f w.bank).foldl (fun v w => v.killSaved e.1 w cause) u1) s

/-- A launch hands out no further identifiers; its new identifiers and records that are queued are discarded. -/
def State.cancelQueued (s : State) (lid : Nat) : State :=
  ((s.modLaunch lid fun x => { x with cancelled := true }).discardQueued lid).discardRecords lid

/-- A launch is cancelled: what has not issued is discarded; with `kill` its tasks are killed too (R223). -/
def State.cancelLaunch (s : State) (lid : Nat) (kill : Bool) (cause : Nat) : State :=
  let s2 := ((s.cancelQueued lid).discardFresh lid).discardSaved lid
  if kill then s2.killTasks (fun y => y.task.launch == lid) cause else s2

/-- An uncorrectable error that is not pinned kills a context (R380): its launches are cancelled, its tasks killed, its jobs
and schedules end with CANCEL. -/
def State.killContext (s : State) (ctx : Nat) : State :=
  let s1 := (s.launches.filter fun e => e.2.ctx == ctx).foldl (fun u e => u.cancelQueued e.1) s
  let s2 := s1.killTasks (fun y => y.cregs.ctxid.toNat == ctx) 0x15
  let mine (k : Card) : Bool := k.ctx == ctx && k.status == none
  let stop (g : Engine) : Engine :=
    (g.cards.filter mine).foldl (fun h k => h.leave k.k) { g with cards := g.cards.map fun k => if mine k then k.ended g 0x0A else k }
  let s3 := s2.cores.foldl (fun u e => u.modCore e.1 fun x => { x with cpe0 := stop x.cpe0, cpe1 := stop x.cpe1 }) s2
  s3.cles.foldl (fun u e =>
    let mine (q : LStart) : Bool := q.ctx == ctx
    let gone := (u.cle e.1).startQ.filter mine
    let u1 := u.modCle e.1 fun x => { x with startQ := x.startQ.filter fun q => !mine q }
    let u2 := gone.foldl (fun v q => v.schedDone q.src (statusWord 0 0 1 0x0A false)) u1
    (List.range 8).foldl (fun v t =>
      match ((v.cle e.1).thread t).start with
      | some q => if q.ctx = ctx then v.killThread e.1 t else v
      | none => v) u2) s3

/-! ### Acceptance of a nest (R204, R222, R224) -/

/-- A request to start a launch: the nest's address, ARGO, the context, where it comes from. -/
structure Ask where
  addr : Nat
  argo : Nat
  ctx : Nat
  qprio : Nat
  source : Source
  parent : Option Nat := none
  limit : Nat := 15

/-- The request at the head: below 16 the LAUNCH entry that a queue has handed on, from 16 on the die's task queue. -/
def State.ask (s : State) (src : Nat) : Option Ask :=
  if src < 16 then
    ((s.feQueue src).entries.find? fun e => e.typ == 1 && e.ref == 0).map fun e =>
      { addr := e.addr, argo := e.argo, ctx := e.ctx, qprio := (s.feQueue src).prio, source := .queue src e.n }
  else
    (Tab.get [] s.spawns (src - 16)).head?.map fun p =>
      let n := ofLeBytes p.cmd
      { addr := bitsN n 64 64, argo := bitsN n 128 64, ctx := p.ctx, qprio := p.qprio, source := .push p.core p.varId p.tok
        parent := some p.launch, limit := p.pcap }

/-- The request leaves its queue. -/
def State.dropAsk (s : State) (src lid : Nat) : State :=
  if src < 16 then s.modFe src fun x => { x with entries := x.entries.map fun e =>
    if e.typ = 1 ∧ e.ref = 0 then { e with ref := lid } else e }
  else { s with spawns := Tab.set [] s.spawns (src - 16) (Tab.get [] s.spawns (src - 16)).tail }

/-- A push's token is written and its launch counts the job as done. -/
def State.spawnDone (s : State) (c varId tok : Nat) (parent : Option Nat) (w : Word) : State :=
  let s1 := s.token c varId tok w
  match parent with
  | some l => s1.modLaunch l fun x => { x with jobs := x.jobs - 1 }
  | none => s1

/-- The launch is rejected: its entry completes with an error event, or its token reports it. -/
def State.reject (s : State) (src : Nat) (a : Ask) : State :=
  match a.source with
  | .queue q n => ((s.dropAsk src 1).feDone q n).notify [0x22#8, 1#8, BitVec.ofNat 8 q]
  | .push c id tok => (s.dropAsk src 1).spawnDone c id tok a.parent 0xE1

/-- The launch starts: code memory is held as it stands (R86). -/
def State.startLaunch (s : State) (src : Nat) (a : Ask) (n : Nest) : State :=
  let lid := s.launchNext
  let n1 := { n with prio := min n.prio a.limit, pcap := min n.pcap a.limit }
  let l : Launch := { nest := n1, ctx := a.ctx, argo := a.argo, source := a.source, parent := a.parent, qprio := a.qprio,
                      order := lid, snap := s.mem, snapCtx := s.mod.muCtxtab }
  { (s.dropAsk src lid).setLaunch lid l with launchNext := lid + 1 }

/-- The Rambler waits for the answer to a page fault of this request's read. -/
def State.nestWaits (s : State) (src : Nat) : Bool :=
  ((s.ring 0).pending.any fun e => e.2 == .nest src) || ((s.ring 0).waiting.any fun e => e.2 == .nest src)

/-- Launches that still have identifiers to hand out. -/
def State.enumerating (s : State) : Nat :=
  (s.launches.filter fun e => !e.2.cancelled && decide (e.2.next < e.2.nest.total)).length

/-- RAMBLER_LAUNCH_ACCEPT: the nest is read in the launch's context and checked (R204). -/
def execRamblerLaunchAccept (src : Nat) (s : State) : Host.Outcome State Fault Refusal :=
  match s.ask src with
  | none => .next s
  | some a =>
    if 64 ≤ s.enumerating ∨ s.nestWaits src then .next s
    else if a.addr % 128 ≠ 0 ∨ 2 ^ 55 ≤ a.addr then .next (s.reject src a)
    else
      match s.translateFresh 0 a.ctx a.addr .read true false with
      | .error (.fault .migrating) => .next s
      | .error (.fault k) =>
        .next ((s.touchWalk 0 a.ctx a.addr).postFlt 0
          { kind := 8, info := k.code * 16 + 6, ctx := a.ctx, addr := a.addr, core := 0xFFFF, unit := 0 } (.nest src))
      | .error (.lost w) => .next (((s.touchWalk 0 a.ctx a.addr).postBad 0 a.ctx w 0xFFFF 0).reject src a)
      | .error (.table w) => .next (((s.touchWalk 0 a.ctx a.addr).postTable 0 a.ctx w 0xFFFF 0).reject src a)
      | .ok (p, s1) =>
        if ¬ s1.linkUp p 128 0 then .next s
        else
          match s1.badIn p 128 with
          | some w => .next ((s1.postBad 0 a.ctx w 0xFFFF 0).reject src a)
          | none =>
            let n := nestOf (s1.homeLoad p 128)
            let s2 := s1.access p 128
            if n.ok then .next (s2.startLaunch src a n) else .next (s2.reject src a)

/-- A command is offered to the Rambler's task queue (R224). -/
def State.acceptSpawn (s : State) (c b varId tok : Nat) (cmd : List Byte) : State :=
  let y := s.bankAt c b
  let l := y.task.launch
  let s1 := s.modLaunch l fun x => { x with jobs := x.jobs + 1 }
  if ofLeBytes (cmd.take 1) ≠ 1 then s1.spawnDone c varId tok (some l) 0xE1
  else
    let p : Spawn := { core := c, bank := b, varId := varId, tok := tok, launch := l, cmd := cmd, ctx := y.cregs.ctxid.toNat
                       pcap := y.pcap, qprio := (s.launch l).qprio }
    { s1 with spawns := Tab.set [] s1.spawns (c / 64) (Tab.get [] s1.spawns (c / 64) ++ [p]) }

/-- The task queue of a die holds 64 commands. -/
def State.spawnFull (s : State) (die : Nat) : Bool := decide (64 ≤ (Tab.get [] s.spawns die).length)

/-! ### Completion of a launch (R222 to R224, R382) -/

/-- Every task of the launch and every job they pushed have completed (R222); of a cancelled launch no task remains (R223). -/
def Launch.finished (l : Launch) : Bool :=
  l.live == 0 && (l.cancelled || (decide (l.nest.total ≤ l.next) && l.jobs == 0))

/-- Writes that killed tasks of the launch had committed are still to be performed (R263, R382). -/
def State.launchOwes (s : State) (lid : Nat) : Bool :=
  s.cores.any fun e => (e.2.direct.any fun d => d.orphan && d.launch == lid) || e.2.orphans.any fun o => o.1 == lid

/-- LAUNCH_COMPLETE: the entry completes or the token is written; the completion event reports the tasks started and
killed. -/
def execLaunchComplete (lid : Nat) (s : State) : Host.Outcome State Fault Refusal :=
  let l := s.launch lid
  if ¬ s.hasLaunch lid ∨ ¬ l.finished ∨ s.launchOwes lid then .next s
  else
    let s1 := { s with launches := s.launches.filter fun e => e.1 != lid }
    let s2 := match l.source with
      | .queue q n => s1.feDone q n
      | .push c id tok =>
        s1.spawnDone c id tok l.parent (BitVec.ofNat 64 ((if l.cancelled then 0xE2 else 0) + 2 ^ 32 * (l.started % 2 ^ 32)))
    let s3 := s2.notify (0x22#8 :: 0#8 :: leBytes 8 l.started ++ leBytes 8 l.killed ++ leBytes 1 l.firstCause)
    .next (if l.killed = 0 then s3 else s3.notify [0x22#8, 2#8, BitVec.ofNat 8 l.firstCause])

/-! ### Phases (R218 to R220) -/

/-- Place `i` of the enumeration has its `k`-th arrival at a scope, or has ended. -/
def Launch.there (l : Launch) (scope k i : Nat) : Bool :=
  let w := l.nest.wid i
  decide (k ≤ Tab.get 0 l.arrivals (w * 8 + scope)) || l.ended.contains w

/-- Every member of a party has arrived: those handed out by arrival or end, the others by cancellation only. -/
def Launch.partyThere (l : Launch) (scope wid k : Nat) : Bool :=
  let n := l.nest
  let got := (List.range l.next).filter fun i => scope = 6 ∨ scope = 7 ∨ n.sameParty scope (n.wid i) wid
  let size := if scope ≤ 5 then n.partySize scope else n.total
  got.all (l.there scope k) && (l.cancelled || decide (size ≤ got.length))

/-- The launches that a phase concerns. -/
def State.phaseLaunches (s : State) (lid scope : Nat) : List (Nat × Launch) :=
  if scope = 7 then s.launches.filter fun e => e.2.nest.mph && e.2.ctx == (s.launch lid).ctx
  else s.launches.filter fun e => e.1 == lid

/-- A bank waits for this phase. -/
def State.waitsPhase (s : State) (lid scope wid k : Nat) (y : Bank) : Bool :=
  y.task.waitPhase == some (scope, k) &&
  (if scope = 7 then (s.launch y.task.launch).ctx == (s.launch lid).ctx
   else y.task.launch == lid && (scope == 6 || (s.launch lid).nest.sameParty scope y.task.wid wid))

/-- What a bank wrote before its arrival has been performed: its queued stores and atomics, its write-backs (R109). -/
def Core.settled (x : Core) (b : Nat) (y : Bank) : Bool :=
  !(x.direct.any fun d => d.bank == b && (d.kind == .stg || d.kind == .amo)) && !(y.pipe.vars.any fun v => v.kind == .writeback)

/-- Every arrival that the phase counts is effective. -/
def State.phaseSettled (s : State) (lid scope wid k : Nat) : Bool :=
  s.cores.all fun e =>
    ([0, 1].all fun b => !s.waitsPhase lid scope wid k (e.2.bank b) || e.2.settled b (e.2.bank b)) &&
    (e.2.saved.all fun v => !s.waitsPhase lid scope wid k v.bank ||
      (v.entries.isEmpty && !(v.bank.pipe.vars.any fun o => o.kind == .writeback)))

/-- A bank whose phase has completed goes on, with its clean sectors discarded (R219, R246). -/
def Bank.phasePassed (y : Bank) : Bank :=
  { y.afterPhase with
    task := { y.task with waitPhase := none }
    state := if y.state = .blocked .phase then .ready else y.state }

/-- PHASE_COMPLETE: the waiting members are released. -/
def execPhaseComplete (lid scope wid k : Nat) (s : State) : Host.Outcome State Fault Refusal :=
  if ¬ s.hasLaunch lid ∨ 7 < scope ∨ k = 0 then .next s
  else if ¬ ((s.phaseLaunches lid scope).all fun e => e.2.partyThere scope wid k) ∨ ¬ s.phaseSettled lid scope wid k then .next s
  else
    let hit (y : Bank) : Bool := s.waitsPhase lid scope wid k y
    let pass (y : Bank) : Bank := if hit y then y.phasePassed else y
    let s1 := s.cores.foldl (fun u e => u.modCore e.1 fun x =>
      { x with bank0 := pass x.bank0, bank1 := pass x.bank1
               saved := x.saved.map fun v => if hit v.bank then
                 { v with bank := v.bank.phasePassed, why := if v.why = some .phase then none else v.why } else v }) s
    let rec_ (r : Record) : Bool := r.wait == some (scope, k) &&
      (if scope = 7 then (s.launch r.launch).ctx == (s.launch lid).ctx
       else r.launch == lid && (scope == 6 || (s.launch lid).nest.sameParty scope r.wid wid))
    .next (s1.records.foldl (fun u e => u.setStore e.1 (e.2.map fun r => if rec_ r then { r with wait := none } else r)) s1)

/-! ### The front end (R222, R223) -/

/-- The fields of a queue entry, of its 32 bytes as a number. -/
def feType (n : Nat) : Nat := bitsN n 0 4
def feOpnd (n : Nat) : Nat := bitsN n 32 32

/-- The physical address of the entry at HEAD. -/
def FeQueue.at (x : FeQueue) : Nat := x.base + 32 * (x.head % max 1 x.size)

/-- The entry at HEAD, when the queue may start it: it runs and is not empty, the entry before has started, no WAITEV or
HALTQ holds it, and WFP is met. -/
def State.feNext (s : State) (q : Nat) : Option Nat :=
  let x := s.feQueue q
  if ¬ x.running ∨ x.head = x.tail then none
  else if x.entries.any fun e => (e.typ == 1 && e.ref == 0) || e.typ == 3 || e.typ == 5 then none
  else
    let n := memNat s.mem x.at 32
    if n.testBit 4 ∧ x.entries.any (fun e => e.n == (x.head + 2 ^ 32 - 1) % 2 ^ 32) then none else some n

/-- The entry at HEAD can start now: a SCHED needs room in its engine's start queue (R312). -/
def State.feReady (s : State) (q : Nat) : Option Nat :=
  match s.feNext q with
  | none => none
  | some n =>
    if feType n = 2 ∧ (s.badIn (s.feQueue q).at 32).isNone ∧ (s.cle (bitsN (feOpnd n) 3 3)).startFull then none else some n

/-- Queue `q` is served next: no queue of higher priority, nor a lower-numbered one of equal priority, has a ready entry. -/
def State.feTurn (s : State) (q : Nat) : Option Nat :=
  let p (k : Nat) : Nat := (s.feQueue k).prio
  if q < 16 ∧ (List.range 16).all fun k => k == q || (s.feReady k).isNone || decide (p k < p q) || (p k == p q && decide (q < k))
  then s.feReady q else none

/-- The entry at HEAD has been read and starts. -/
def State.feStart (s : State) (q n : Nat) : State :=
  (s.access (s.feQueue q).at 32).modFe q fun x =>
    { x with head := (x.head + 1) % 2 ^ 32
             entries := x.entries ++ [{ n := x.head, typ := feType n, dsig := n.testBit 5, dev := bitsN n 8 8, opnd := feOpnd n
                                        addr := bitsN n 64 64, argo := bitsN n 128 64, ctx := bitsN n 192 16, ref := 0 }] }

/-- An entry of a type whose turn it is, with what its start does; entries that cannot be read are not started here. -/
def State.feRun (s : State) (q typ : Nat) (f : Nat → State → State) : State :=
  match s.feTurn q with
  | none => s
  | some n => if feType n = typ ∧ (s.badIn (s.feQueue q).at 32).isNone then f n (s.feStart q n) else s

/-- FE_LAUNCH: the nest is handed to the Rambler. -/
def execFeLaunch (q : Nat) (s : State) : Host.Outcome State Fault Refusal := .next (s.feRun q 1 fun _ u => u)

/-- FE_SCHED: the start block is read from the drawer and accepted (R311, R312). -/
def execFeSched (q : Nat) (s : State) : Host.Outcome State Fault Refusal :=
  .next (s.feRun q 2 fun n u =>
    let at_ := (s.feQueue q).head
    let die := bitsN (feOpnd n) 3 3
    let a := bitsN n 64 64 % 2 ^ 52
    match u.badIn a 64 with
    | some w => ((u.postBad die 0 w (die * 64) 6).feDone q at_).notify [0x22#8, 3#8, BitVec.ofNat 8 q]
    | none =>
      let b := memRead u.mem a 64
      (u.access a 64).acceptStart die
        { thread := feOpnd n % 8, ctx := startCtx (ofLeBytes b), block := b, src := .sched q at_ })

/-- The WAITEV that holds a queue completes when its counter has reached its threshold. -/
def State.feWaited (s : State) (q : Nat) : State :=
  match (s.feQueue q).entries.find? fun e => e.typ == 3 with
  | none => s
  | some e => if e.opnd ≤ Tab.get 0 s.events (e.addr % 256) then s.feDone q e.n else s

/-- FE_WAITEV: the queue's WAITEV starts and holds it, or completes. -/
def execFeWaitev (q : Nat) (s : State) : Host.Outcome State Fault Refusal :=
  if (s.feQueue q).entries.any fun e => e.typ == 3 then .next (s.feWaited q)
  else .next (s.feRun q 3 fun _ u => u.feWaited q)

/-- FE_SIGEV: the event counter is raised and the entry completes. -/
def execFeSigev (q : Nat) (s : State) : Host.Outcome State Fault Refusal :=
  .next (s.feRun q 4 fun n u => (u.signal (bitsN n 64 8) (feOpnd n)).feDone q (s.feQueue q).head)

/-- A started entry is cancelled (R223): a WAITEV completes, a launch is cancelled, a schedule that has not begun is
discarded and in kill mode a running one is killed (R345). -/
def State.cancelEntry (s : State) (q : Nat) (kill : Bool) (e : FeEntry) : State :=
  match e.typ with
  | 1 => s.cancelLaunch e.ref kill 0
  | 2 =>
    let mine (p : LStart) : Bool := p.src == .sched q e.n
    (List.range 8).foldl (fun u die =>
      if (u.cle die).startQ.any mine then
        (u.modCle die fun x => { x with startQ := x.startQ.filter fun p => !mine p }).schedDone (.sched q e.n) (statusWord 0 0 1 0x0A false)
      else if kill then
        (List.range 8).foldl (fun v t =>
          match ((v.cle die).thread t).start with
          | some p => if mine p then v.killThread die t else v
          | none => v) u
      else u) s
  | 3 => s.feDone q e.n
  | _ => s

/-- Every entry of the queue that has started and not completed is cancelled; the queue stops. -/
def State.cancelQueue (s : State) (q : Nat) (kill : Bool) : State :=
  let l := (s.feQueue q).entries.filter fun e => e.typ != 5
  (l.foldl (fun u e => u.cancelEntry q kill e) s).modFe q fun x => { x with running := false }

/-- HALTQ of a mode. -/
def State.haltq (s : State) (q : Nat) (kill : Bool) : State :=
  match s.feTurn q with
  | none => s
  | some n => if (feOpnd n).testBit 0 = kill then s.feRun q 5 fun _ u => (u.cancelQueue q kill).feHalt q else s

def execHaltqDrain (q : Nat) (s : State) : Host.Outcome State Fault Refusal := .next (s.haltq q false)

def execHaltqKill (q : Nat) (s : State) : Host.Outcome State Fault Refusal := .next (s.haltq q true)

/-- FE_BAD_ENTRY: an entry of an unlisted TYPE, or one whose bytes cannot be read, halts its queue. -/
def execFeBadEntry (q : Nat) (s : State) : Host.Outcome State Fault Refusal :=
  match s.feTurn q with
  | none => .next s
  | some n =>
    let stop (u : State) : State := (u.modFe q fun x => { x with running := false }).notify [0x22#8, 4#8, BitVec.ofNat 8 q]
    match s.badIn (s.feQueue q).at 32 with
    | some w => .next (stop (s.postBad 0 0 w 0xFFFF 0))
    | none => if 1 ≤ feType n ∧ feType n ≤ 5 then .next s else .next (stop s)

/-! ### Ramp windows (R225) -/

/-- RAMP_WINDOW: a core whose cycles have passed the end of its window begins the next one, its allowance from the count of the
window that ends; RAMP.STEP has its new value once every core has left the window in which it was written. -/
def execRampWindow (s : State) : Host.Outcome State Fault Refusal :=
  let s1 := s.cores.foldl (fun u e => u.modCore e.1 Core.rollRamp) s
  match s1.mod.rampNext with
  | none => .next s1
  | some (v, w) =>
    if s1.cores.all fun e => decide (w < e.2.rampWin) then
      .next { s1 with mod := { s1.mod with rampStep := v, rampNext := none } }
    else .next s1

end Sys2Proof.Machine
end

