-- ==== Sys2Proof/Machine/Links.lean ====
section
/-!
DEFINITION. The photonic ports (R385 to R400, R409): flits and replay, loss of light, retraining, the records of link
events, slot tables, remote writes, circuits. An event that is not due leaves the state.
-/

namespace Sys2Proof.Machine

open Sys2Proof

/-! ### Link event records (R398) -/

/-- The 32 bytes of a record. -/
def levBytes (kind port old new unit time replay outage seq : Nat) : List Byte :=
  leBytes 1 kind ++ leBytes 1 port ++ leBytes 2 old ++ leBytes 2 new ++ leBytes 1 unit ++ leBytes 1 0 ++ leBytes 8 time ++
  leBytes 4 replay ++ leBytes 4 outage ++ leBytes 2 seq ++ leBytes 6 0

/-- The physical address in LEV.BASE; 0 while the ring is not set up. -/
def levBase (w : Word) : Nat := bitsN w.toNat 13 39 * 2 ^ 13

/-- A record is posted: to the ring unless it is full or not set up, to the management controller, with its event. -/
def State.postLev (s : State) (l : List Byte) : State :=
  let k := s.links
  let base := levBase k.levBase
  let s1 :=
    if base = 0 ∨ (k.levTail + 2 ^ 32 - k.levHead) % 2 ^ 32 = 256 then s
    else { s with mem := memWrite s.mem (base + 32 * (k.levTail % 256)) l
                  links := { k with levTail := (k.levTail + 1) % 2 ^ 32 } }
  let s2 := (s1.notify l).interrupt 1
  if k.levEvt.toNat.testBit 8 then s2.signal (k.levEvt.toNat % 256) 1 else s2

/-! ### Flits (R386, R388) -/

def flitHeader (f : Flit) : Nat := f.toNat % 2 ^ 64
def flitPayload (f : Flit) : List Byte := leBytes 32 (f.toNat / 2 ^ 64)
def flitSeq (f : Flit) : Nat := bitsN (flitHeader f) 48 16
def flitAck (f : Flit) : Nat := bitsN (flitHeader f) 32 16
def flitType (f : Flit) : Nat := bitsN (flitHeader f) 28 4
def flitGood (f : Flit) : Bool := crc24 (crcBytes (flitPayload f) (flitHeader f)) == flitHeader f % 2 ^ 24

/-- An ACK covers the flits kept up to it. -/
def Port.applyAck (p : Port) (a ns : Nat) : Port :=
  let n := (a + 2 ^ 16 - p.txAck) % 2 ^ 16
  if n = 0 ∨ p.replay.length < n then p else { p with replay := p.replay.drop n, txAck := a, ackNs := ns }

/-- Every flit from ACK + 1 on is put on the link again, with the current ACK (R388). -/
def Port.resend (p : Port) (ns : Nat) : Port :=
  let l := p.replay.map fun f => mkFlit (flitSeq f) p.rxSeq (flitType f) (bitsN (flitHeader f) 26 2) (flitPayload f)
  { l.foldl (fun r _ => r.putStream r.mask) p with
    replay := l, resent := (p.resent + l.length) % 2 ^ 32, ackNs := ns, nakIn := false }

/-- A control flit goes on the wavelengths of a mask; it carries the current ACK. -/
def Port.control (p : Port) (mask typ : Nat) (payload : List Byte) : Port :=
  { p.putStream mask with ctl := some (mkFlit 0 p.rxSeq typ 0 payload) }

/-- A flit is discarded with a NAK, unless one is out. -/
def Port.sendNak (p : Port) : Port := if p.nak then p else { p.control p.mask 3 (leBytes 32 0) with nak := true }

/-- A failed CRC counts among the last 2^20 flits (R391). -/
def Port.countFail (p : Port) (ns : Nat) : Port :=
  let l := (p.failed ++ [p.flits]).filter fun k => decide (p.flits < k + 2 ^ 20)
  { p with failed := l, passed := if p.passed.isNone ∧ 16 < l.length then some ns else p.passed }

/-- The payload of an accepted data flit: the header of a packet, or the next bytes of one; a header without bytes is an
acknowledgement (R409). -/
def Port.take (p : Port) (typ : Nat) (l : List Byte) : Port :=
  let n := ofLeBytes l
  let cur := if typ = 2 then
      some { addr := bitsN n 0 52, count := bitsN n 64 16, src := bitsN n 80 24, cls := bitsN n 104 2, ctx := bitsN n 112 16 }
    else p.part.map fun (r : RPacket) => { r with got := r.got ++ l }
  match cur with
  | none => p
  | some r =>
    if r.count = 0 then { p with part := none, acks := p.acks ++ [r] }
    else if r.count ≤ r.got.length then { p with part := none, packets := p.packets ++ [{ r with got := r.got.take r.count }] }
    else { p with part := some r }

/-- A data flit with a good CRC. -/
def Port.receive (p : Port) (f : Flit) (ns : Nat) : Port :=
  let d := (flitSeq f + 2 ^ 16 - (p.rxSeq + 1)) % 2 ^ 16
  if d = 0 then
    ({ p with rxSeq := flitSeq f, nak := false }.take (flitType f) (flitPayload f)).applyAck (flitAck f) ns
  else if 2 ^ 16 - 4096 ≤ d then p.applyAck (flitAck f) ns
  else p.sendNak

/-! ### Outages (R389 to R392) -/

/-- The bits of `m` that `k` does not have. -/
def maskOff (m k : Nat) : Nat := m - (m &&& k)

/-- A link stall fault of the bank has been reported, or waits for a boundary. -/
def Bank.linkStalled (y : Bank) : Bool := y.state == .blocked .linkStall || y.pipe.late.any fun t => t.cause == 0x14

/-- The ports that an access which met a link stall needs are UP (R392). -/
def State.linkMet (s : State) (t : Trap) : Bool :=
  match t.need with
  | some (a, n, cls) => s.linkUp a n cls
  | none => true

/-- The link still owes the bank the ports that it needs. -/
def State.linkHolds (s : State) (y : Bank) : Bool :=
  match y.pipe.ctx.res with
  | .trapped t => t.cause == 0x14 && !s.linkMet t
  | _ => false

/-- The bank's link stall faults whose ports are UP are answered. -/
def State.linkBack (s : State) (y : Bank) : Bank :=
  { y with state := if y.state = .blocked .linkStall ∧ ¬ s.linkHolds y then .ready else y.state
           pipe := { y.pipe with late := y.pipe.late.filter fun t => t.cause != 0x14 || !s.linkMet t } }

/-- A port is usable again: link stall faults that need no other port are answered, their entries of the direct queues are tried
again. -/
def State.linkAnswer (s : State) : State :=
  s.cores.foldl (fun u e => u.modCore e.1 fun x =>
    { x with
      bank0 := s.linkBack x.bank0, bank1 := s.linkBack x.bank1
      direct := x.direct.map fun d =>
        if (x.bank d.bank).linkStalled ∧ ¬ (s.linkBack (x.bank d.bank)).linkStalled then { d with faulted := false } else d
      saved := x.saved.map fun v => if v.why = some .linkStall ∧ ¬ s.linkHolds v.bank then { v with why := none } else v }) s

/-- What a torus port has not delivered is sent on another port of its direction: the flits outstanding first (R391). -/
def State.moveAway (s : State) (port other : Nat) : State :=
  let p := s.port port
  let fl := p.replay.map (fun f => (bitsN (flitHeader f) 26 2, flitType f, flitPayload f)) ++ p.taken
  ((s.modPort port fun q => { q with replay := [], taken := [], txQ := [], txAck := (q.txSeq + 2 ^ 16 - 1) % 2 ^ 16 }).modPort other fun q =>
    { q with taken := q.taken ++ fl, txQ := p.txQ ++ q.txQ }).pump other

/-- The other port of a torus port's direction, when it has one that is DOWN or not, as asked. -/
def State.twinOf (s : State) (port : Nat) (down : Bool) : Option Nat :=
  if 16 ≤ port ∧ port < 28 ∧ ((s.port (portTwin port)).st == .down) = down then some (portTwin port) else none

/-- Responses in flight are replayed at the restart of the frames (R396). -/
def Port.restartFrames (p : Port) : Port :=
  let l := ((List.range 256).map fun k => Tab.get [] p.responses ((p.slot + k) % 256)).flatten
  { p with slot := 0, responses := Tab.set [] [] 0 l }

/-- The port is UP on a mask: flits outstanding are sent again. Light lost meanwhile begins an outage of its own. -/
def Port.risen (p : Port) (kind mask ns : Nat) : Port :=
  let q := ({ p with mask := mask } : Port).resend ns
  let q1 := { (if kind = 2 then q.restartFrames else q) with st := .up, asks := 0, nextLoss := none }
  match p.nextLoss with
  | some e => if mask &&& p.dark ≠ 0 then { q1 with t0 := e.1, oldMask := mask, unit := e.2 } else q1
  | none => q1

/-- The port returns to UP on a mask: the record is posted, what waits is sent, also that of the other port of its direction when that
is DOWN, requesters go on. -/
def State.comeUp (s : State) (port kind mask unit : Nat) : State :=
  let p := s.port port
  let s1 := (s.modPort port fun q => q.risen kind mask s.ns).postLev
    (levBytes kind port p.oldMask mask unit p.t0 p.replay.length (s.ns - p.t0) ((p.txAck + 1) % 2 ^ 16))
  let s2 := s1.pump port
  (match s2.twinOf port true with
   | some other => s2.moveAway other port
   | none => s2).linkAnswer

/-- The port goes DOWN; what a torus port had not delivered is sent first on the other port of its direction, unless that is DOWN
too (R391). -/
def State.goDown (s : State) (port unit : Nat) : State :=
  let p := s.port port
  let s1 := (s.modPort port fun q => { q with st := .down, mask := 0, asks := 0, nextLoss := none, conn := none }).postLev
    (levBytes 3 port p.oldMask 0 unit p.t0 0 (s.ns - p.t0) ((p.txAck + 1) % 2 ^ 16))
  match s1.twinOf port false with
  | some other => s1.moveAway port other
  | none => s1

/-- A RESTRIPE-ACK: its ACK counts, and when it answers the last RESTRIPE the port is UP on the mask of that (R390). -/
def State.restripeAck (s : State) (port ack : Nat) : State :=
  let p := s.port port
  if p.st ≠ .restripe then s
  else
    let s1 := s.modPort port fun q => { q.applyAck ack s.ns with asks := q.asks - 1 }
    if 1 < p.asks then s1 else s1.comeUp port 1 p.asked p.unit

/-- RESTRIPE-ACKs that arrive in one core cycle are taken in ascending port number (R410). -/
def State.restripeAcks (s : State) (l : List (Nat × Nat)) : State :=
  (List.range 32).foldl (fun u p => match l.find? fun e => e.1 == p with
    | some e => u.restripeAck p e.2
    | none => u) s

/-- A retraining starts; in recovery mode every port is held in reset (R405). -/
def State.startRetrain (s : State) (port : Nat) : State :=
  if s.mgmt.start = .recovery then s
  else s.modPort port fun p =>
    if p.st = .retrain then p
    else { p with st := .retrain, rx := .retrain, t0 := s.ns, oldMask := p.mask, failed := [], passed := none, unlocked := false }

/-- A flit other than a RESTRIPE on the new stripe: the receive direction is UP again. -/
def Port.received (p : Port) : Port := { p with flits := p.flits + 1, rx := if p.rx = .restripe then .up else p.rx }

/-- A RESTRIPE flit: the receiver locks on its mask, failures counted before do not count, and it answers (R390, R391). -/
def Port.relock (p : Port) (f : Flit) : Port :=
  { p.control p.mask 5 (leBytes 32 0) with rx := .restripe, rxMask := f.toNat / 2 ^ 64 % 2 ^ 16, failed := [], passed := none }

/-- The rest of a packet of which the other port of the direction has received the start is taken over with its flits (R391).
DEDUCED, log 149. -/
def State.joinPart (s : State) (port : Nat) (f : Flit) : State :=
  let p := s.port port
  if flitType f = 1 ∧ p.part.isNone ∧ flitSeq f = (p.rxSeq + 1) % 2 ^ 16 ∧ 16 ≤ port ∧ port < 28 then
    let t := (s.port (portTwin port)).part
    (s.modPort (portTwin port) fun q => { q with part := none }).modPort port fun q => { q with part := t }
  else s

/-- FLIT_RECEIVE (R388, R390). -/
def execFlitReceive (port : Nat) (f : BitVec 320) (s : State) : Host.Outcome State Fault Refusal :=
  if 32 ≤ port then .fault .noSuchAgent
  else
    let p0 := s.port port
    if p0.rx = .retrain ∨ p0.rx = .down then .next s
    else
      let p := p0.received
      let put (u : State) (q : Port) : State :=
        let v := (u.modPort port fun _ => q).pump port
        if p0.rx = .restripe then v.linkAnswer else v
      if ¬ flitGood f then .next (put s ({ p with rx := p0.rx }.countFail s.ns).sendNak)
      else
        match flitType f with
        | 0 => .next (put s (p.applyAck (flitAck f) s.ns))
        | 1 => .next (let u := s.joinPart port f; put u ((u.port port).received.receive f s.ns))
        | 2 => .next (put s (p.receive f s.ns))
        | 3 => .next (put s { p.applyAck (flitAck f) s.ns with nakIn := true })
        | 4 => .next (put s (p.relock f))
        | 5 => .next ((put s p).restripeAck port (flitAck f))
        | _ => .next (put s p.sendNak)

/-- GO_BACK: a NAK is answered (R388). -/
def execGoBack (port : Nat) (s : State) : Host.Outcome State Fault Refusal :=
  let p := s.port port
  if p.nakIn ∧ p.st = .up then .next (s.modPort port fun q => q.resend s.ns) else .next s

/-- REPLAY_TIMEOUT: no ACK has advanced for 1 µs (R388). -/
def execReplayTimeout (port : Nat) (s : State) : Host.Outcome State Fault Refusal :=
  let p := s.port port
  if p.replay ≠ [] ∧ p.st = .up ∧ p.ackNs + 1000 ≤ s.ns then .next (s.modPort port fun q => q.resend s.ns) else .next s

/-- Light of some wavelengths of a port is lost: an outage begins with the first active one; in RESTRIPE the next outage does. -/
def Port.darken (p : Port) (m unit ns : Nat) : Port :=
  let q := { p with dark := p.dark ||| m }
  if p.st = .up ∧ p.mask &&& m ≠ 0 ∧ p.mask &&& p.dark = 0 then { q with t0 := ns, oldMask := p.mask, unit := unit }
  else if p.st = .restripe ∧ p.asked &&& m ≠ 0 ∧ p.asked &&& p.dark = 0 then { q with nextLoss := some (ns, unit) }
  else q

/-- LOSS_OF_LIGHT: unit u darkens four wavelengths of the eight ports of its chiplet (R390). -/
def execLossOfLight (unit : Nat) (s : State) : Host.Outcome State Fault Refusal :=
  if 16 ≤ unit then .fault .noSuchAgent
  else .next ((List.range 8).foldl (fun u k => u.modPort (8 * (unit / 4) + k) fun p => p.darken (15 * 2 ^ (4 * (unit % 4))) unit s.ns) s)

/-- The wavelengths that a port's stripe has, or is about to have. -/
def Port.stripe (p : Port) : Nat := if p.st = .up then p.mask else if p.st = .restripe then p.asked else 0

/-- A RESTRIPE flit asks for a mask, on its wavelengths. -/
def Port.ask (p : Port) (m : Nat) : Port :=
  { p.control m 4 (leBytes 32 m) with st := .restripe, asked := m, asks := p.asks + 1, nextLoss := none }

/-- LOSS_DETECTED: the port leaves UP, or asks for another mask in RESTRIPE; with fewer than 8 wavelengths left it goes DOWN (R389,
R390). -/
def execLossDetected (port : Nat) (s : State) : Host.Outcome State Fault Refusal :=
  let p := s.port port
  if p.stripe &&& p.dark = 0 then .next s
  else if popMask (maskOff p.stripe p.dark) < 8 then .next (s.goDown port ((p.nextLoss.map (·.2)).getD p.unit))
  else .next (s.modPort port fun q => q.ask (maskOff p.stripe p.dark))

def execRestripeAck (port : Nat) (ack : BitVec 16) (s : State) : Host.Outcome State Fault Refusal :=
  .next (s.restripeAck port ack.toNat)

/-- The receiver asks for a retraining: it has lost lock, or 22 µs have passed since more than 16 flits in 2^20 had failed (R391). -/
def Port.wantsRetrain (p : Port) (ns : Nat) : Bool :=
  p.unlocked || match p.passed with
    | some t => decide (t + 22000 ≤ ns)
    | none => false

/-- RETRAIN_START by the receiver; management's own start is LINK_CTL_RETRAIN. -/
def execRetrainStart (port : Nat) (s : State) : Host.Outcome State Fault Refusal :=
  let p := s.port port
  if 32 ≤ port then .fault .noSuchAgent
  else if p.st = .down ∨ ¬ p.wantsRetrain s.ns then .next s
  else .next (s.startRetrain port)

/-- RETRAIN_END: UP on the permitted wavelengths that lock, when they are 8 or more; else DOWN (R391). -/
def execRetrainEnd (port : Nat) (lock : BitVec 16) (s : State) : Host.Outcome State Fault Refusal :=
  let p := s.port port
  if p.st ≠ .retrain then .next s
  else
    let m := lock.toNat &&& p.permit
    if popMask m < 8 then .next ((s.modPort port fun q => { q with rx := .down }).goDown port 0xFF)
    else .next ((s.modPort port fun q => { q with dark := maskOff q.dark m, rx := .up, rxMask := m, cal := m }).comeUp port 2 m 0xFF)

/-! ### Registers of a port (R397) -/

/-- A write of LINK.CTL for a port. -/
def State.writeLinkCtl (s : State) (port : Nat) (v : Word) : State :=
  let s1 := s.modPort port fun p => { p with permit := bitsN v.toNat 16 16 }
  if v.toNat.testBit 0 then s1.startRetrain port else s1

def execLinkCtlRetrain (port : Nat) (v : BitVec 64) (s : State) : Host.Outcome State Fault Refusal :=
  if 32 ≤ port then .fault .noSuchAgent else .next (s.writeLinkCtl port v)

/-- A write of SLOT.BASE for a port: a drawer port's new table is staged. -/
def State.writeSlotBase (s : State) (port : Nat) (v : Word) : State :=
  if 16 ≤ port then s else s.modPort port fun p => { p with slotBase := v &&& 0xFFFFFFFFFFF00, staged := true }

def execSlotBaseWrite (port : Nat) (v : BitVec 64) (s : State) : Host.Outcome State Fault Refusal := .next (s.writeSlotBase port v)

/-! ### Slot tables (R393 to R396) -/

def slotClass (b : Nat) : Nat := b % 4
def slotGroup (b : Nat) : Nat := bitsN b 2 4

/-- A table that is not refused (R394). -/
def tableOk (t : List Nat) : Bool :=
  let zero (n : Nat) : Bool := slotClass (t.getD (n % 256) 0) == 0
  t.all (fun b => !decide (9 ≤ slotGroup b ∧ slotGroup b ≤ 14) && (slotClass b != 0 || slotGroup b == 15)) &&
  (List.range 256).all fun n => (List.range 8).any fun k => zero (n + k)

/-- SLOT_TABLE_LOAD: at the start of a frame the staged table is loaded or refused. -/
def execSlotTableLoad (port : Nat) (s : State) : Host.Outcome State Fault Refusal :=
  let p := s.port port
  if ¬ p.staged ∨ p.slot ≠ 0 then .next s
  else
    let a := p.slotBase.toNat
    let t := (memRead s.mem a 256).map BitVec.toNat
    let ok := tableOk t && (s.badIn a 256).isNone
    .next ((s.access a 256).modPort port fun q =>
      { q with staged := false, tbad := !ok, table := if ok then t else q.table })

/-- Payload bytes that one slot carries (R393). -/
def Port.capacity (p : Port) : Nat := popMask p.mask * 11 / 2 * 32

/-- The place in the list of the piece that a slot takes next of a class, its group's order within (R395). -/
def Port.nextPiece (p : Port) (arbs : Nat → Word) (cls : Nat) (group : Option Nat) : Option (Nat × Tab Nat) :=
  let elig (q : Piece) : Bool := q.cls == cls && (match group with
    | some g => q.group == g
    | none => true)
  match p.pieces.find? elig with
  | none => none
  | some first =>
    let mine (f : Nat) (q : Piece) : Bool := q.cls == cls && q.group == first.group && q.family == f
    match p.pieces.findIdx? (mine 0) with
    | some i => some (i, p.share)
    | none =>
      let ready (f : Nat) : Nat := if p.pieces.any (mine f) then 64 else 0
      let r := nextFamily p.share (arbs first.group) first.group cls (ready 1) (ready 2)
      (p.pieces.findIdx? (mine r.1)).map fun i => (i, r.2)

/-- One 64-byte unit of the piece at a place leaves. -/
def takeUnit : Nat → List Piece → List Piece
  | _, [] => []
  | 0, q :: l => if q.bytes ≤ 64 then l else { q with bytes := q.bytes - 64 } :: l
  | n + 1, q :: l => q :: takeUnit n l

/-- The units that one slot carries: its own class and group first, then any, lower class first. -/
def Port.fillSlot (p : Port) (arbs : Nat → Word) (own : Nat × Option Nat) : Nat → Port × List Piece
  | 0 => (p, [])
  | f + 1 =>
    match ([p.nextPiece arbs own.1 own.2] ++ (List.range 4).map fun c => p.nextPiece arbs c none).findSome? id with
    | none => (p, [])
    | some (i, sh) =>
      let q := p.pieces.getD i { cls := 0, group := 0, family := 0, bytes := 0 }
      let r := { p with pieces := takeUnit i p.pieces, share := sh }.fillSlot arbs own f
      (r.1, { q with bytes := 64 } :: r.2)

/-- MEMORY_SLOT: a slot of a drawer link passes; what it carries is answered 24 slots later. -/
def execMemorySlot (port : Nat) (s : State) : Host.Outcome State Fault Refusal :=
  let p := s.port port
  if 16 ≤ port then .fault .noSuchAgent
  else if p.st ≠ .up then .next s
  else
    let b := p.table.getD p.slot 0
    let arbs (g : Nat) : Word := (s.cle g).arb
    let r := p.fillSlot arbs (slotClass b, if slotGroup b = 15 then none else some (slotGroup b)) (p.capacity / 64)
    .next (s.modPort port fun _ =>
      { r.1 with
        slot := (p.slot + 1) % 256
        responses := Tab.set [] (Tab.set [] p.responses p.slot []) ((p.slot + 24) % 256) r.2 })

/-! ### Remote writes and circuits (R400, R409) -/

/-- The bytes of a packet are performed in units of one aligned 64-byte unit each; a unit that covers part of a word with an
uncorrectable error is not (R378). -/
def State.performUnits (s : State) : Nat → Nat → List Byte → State
  | 0, _, _ => s
  | f + 1, a, l =>
    if l = [] then s
    else
      let n := 64 - a % 64
      let u := l.take n
      let s1 := if (s.badPart a u.length).isSome ∨ 0x20000000000 ≤ a then s else s.homeStore a u
      s1.performUnits f (a + n) (l.drop n)

/-- The bytes of a packet in arrival that can be performed: those of the units that have been accepted whole (R409). -/
def RPacket.ready (r : RPacket) : Nat := max r.done (r.got.length - (r.addr + r.got.length) % 64)

/-- A packet leaves on the reverse direction of the port that its cause came by, or of its twin when that is DOWN; the circuit ports
are left to the rotation (R409). DEDUCED, log 150. -/
def State.postBack (s : State) (port : Nat) (q : OutPacket) : State :=
  if 28 ≤ port then s.post q
  else
    let p := if (s.port port).st = .down then portTwin port else port
    (s.modPort p fun x => { x with txQ := x.txQ ++ [{ q with vc := portChannel s.modn p }] }).pump p

/-- REMOTE_WRITE_PACKET: the units of the oldest packet that have been accepted are performed; after its last it is acknowledged. -/
def execRemoteWritePacket (port : Nat) (s : State) : Host.Outcome State Fault Refusal :=
  match (s.port port).packets, (s.port port).part with
  | r :: l, _ =>
    let s1 := (s.modPort port fun p => { p with packets := l }).performUnits 6 (r.addr + r.done) (r.got.drop r.done)
    .next (s1.postBack port { dst := r.src, addr := r.addr, cls := r.cls, ctx := r.ctx, bytes := [] })
  | [], some r =>
    .next ((s.modPort port fun p => { p with part := some { r with done := r.ready } }).performUnits 6 (r.addr + r.done)
      ((r.got.take r.ready).drop r.done))
  | [], none => .next s

/-- An acknowledgement is one of the packet. -/
def RPacket.answers (a : RPacket) (q : OutPacket) : Bool := a.src == q.dst && a.addr == q.addr && a.cls == q.cls && a.ctx == q.ctx

/-- An acknowledgement that has arrived on a port for a packet of a job. DEDUCED, log 150: it is of the first that awaits one like it. -/
def State.ackOf (s : State) (j : JobKey) : Option (Nat × RPacket × OutPacket) :=
  s.ports.findSome? fun e => e.2.acks.findSome? fun a =>
    (s.awaiting.find? a.answers).bind fun q => if q.of j then some (e.1, a, q) else none

/-- One acknowledgement is taken. -/
def State.takeAck (s : State) (j : JobKey) : State :=
  match s.ackOf j with
  | none => s
  | some (p, a, q) => { s.modPort p fun x => { x with acks := x.acks.erase a } with awaiting := s.awaiting.erase q }

/-- REMOTE_WRITE_ACK: up to `n` packets of a job whose acknowledgements have arrived have been performed at their home. -/
def execRemoteWriteAck (c e k n : Nat) (s : State) : Host.Outcome State Fault Refusal :=
  let s1 := (List.range (min n s.awaiting.length)).foldl (fun u _ => u.takeAck ⟨c, e, k⟩) s
  .next (if e = 2 then s1.settle (c / 64) else s1)

/-- CIRCUIT_CONNECT: a circuit port is connected to a module of another pod for 10 µs, for `cap` payload bytes (R400). -/
def execCircuitConnect (port dest cap : Nat) (s : State) : Host.Outcome State Fault Refusal :=
  if port < 28 ∨ 32 ≤ port then .fault .noSuchAgent
  else if (s.port port).st ≠ .up then .next s
  else .next ((s.modPort port fun p => { p with conn := some (dest, cap, s.ns + 10000) }).pump port)

/-- The next agent on a port takes back or gives credit for a class on a virtual channel (R399). DESIGN CHOICE, log 151: an input. -/
def State.credit (s : State) (port cls vc : Nat) (gives : Bool) : State :=
  (s.modPort port fun p =>
    let l := p.noCredit.filter fun e => e != (cls, vc)
    { p with noCredit := if gives then l else l ++ [(cls, vc)] }).pump port

end Sys2Proof.Machine
end

