-- ==== Sys2Proof/Machine/Host.lean ====
section
/-!
DEFINITION. Writes of control registers of core, die and module scope wherever they come from (R116, R232), the answers to
fault records (R372), error injection (R384), and the host's side: queues, windows, the mailbox, start-up, telemetry and
heartbeats (R401 to R408).
-/

namespace Sys2Proof.Machine

open Sys2Proof

/-! ### Answers to fault records (R372) -/

/-- The saved context of a task, by the bank it was saved from. -/
def State.savedOf (s : State) (c b launch wid : Nat) : Option Saved :=
  (s.core c).saved.find? fun v => v.bankNo == b && v.bank.task.launch == launch && v.bank.task.wid == wid

/-- The task whose fault was posted is resident in its bank. -/
def State.isHere (s : State) (c b launch wid : Nat) : Bool :=
  let y := s.bankAt c b
  y.state != .empty && y.task.launch == launch && y.task.wid == wid

/-- A bank goes on after a fault: its entries of the direct queue are tried again, unless one's own fault is still to be
reported. -/
def State.unblock (s : State) (c b : Nat) (w : Why) : State :=
  let y := s.bankAt c b
  if y.state ≠ .blocked w then s
  else s.modCore c fun x =>
    { x.setBank b { x.bank b with state := .ready } with
      direct := x.direct.map fun d => if d.bank = b ∧ ¬ y.pipe.late.any Trap.switches then { d with faulted := false } else d }

/-- The requester retries its translation. -/
def State.retry (s : State) : Requester → State
  | .none => s
  | .bank c b l w =>
    if s.isHere c b l w then s.unblock c b .fault
    else s.modCore c fun x => { x with saved := x.saved.map fun v =>
      if v.bankNo = b ∧ v.bank.task.launch = l ∧ v.bank.task.wid = w ∧ v.why = some .fault then { v with why := none } else v }
  | .card c e k =>
    match s.card c e k with
    | some d => s.setCard c e { d with fault := none, posted := false }
    | none => s
  | .thread die t => s.modCle die fun x => x.modThread t fun h => if h.st = .faulted then { h with st := .ready } else h
  | .op die id => s.modCle die fun x => x.modOp id fun o => { o with fault := none, posted := false }
  | .nest _ => s

/-- The requester is ended by the monitor. -/
def State.endFault (s : State) : Requester → State
  | .none => s
  | .bank c b l w =>
    if s.isHere c b l w then s.killTask c b 0x13
    else match s.savedOf c b l w with
      | some v => s.killSaved c v 0x13
      | none => s
  | .card c e k =>
    match s.card c e k with
    | some d => if d.status.isSome then s else s.endCard c e d 3
    | none => s
  | .thread die t => s.stopThread die t ((s.cle die).thread t).pos 3
  | .op die id =>
    match (s.cle die).op id with
    | none => s
    | some o => s.loseOp die o 3
  | .nest src =>
    match s.ask src with
    | some a => s.reject src a
    | none => s

/-- A write of FLT.ANS: the record of this SEQ, if it is outstanding, is answered. -/
def State.answerFlt (s : State) (die seq : Nat) (stop : Bool) : State :=
  let g := s.ring die
  match g.pending.find? fun e => e.1 == seq with
  | none => s
  | some e =>
    let s1 := s.setRing die { g with pending := g.pending.filter fun d => d.1 != seq }
    if stop then s1.endFault e.2 else s1.retry e.2

def execFltAnsRetry (die seq : Nat) (s : State) : Host.Outcome State Fault Refusal := .next (s.answerFlt die seq false)

def execFltAnsEnd (die seq : Nat) (s : State) : Host.Outcome State Fault Refusal := .next (s.answerFlt die seq true)

/-! ### Error injection and logs (R383, R384) -/

/-- The word at which an injection into an SRAM array waits, by its physical address. -/
def injectWord (c arch a : Nat) : Option Nat :=
  let o := a / 8 * 8
  match arch with
  | 0 => if o < 0x300000 then some (coreWindow c + o) else none
  | 1 => if o < 0x200000 then some (coreWindow c + 0x400000 + o) else none
  | 2 => if o < 0x100000 then some (coreWindow c + 0x600000 + o) else none
  | 3 => if o < 0x8000 then some (coreWindow c + 0x700000 + o) else none
  | 4 => if o < 0x8000 then some (coreWindow c + 0x708000 + o) else none
  | 8 => if o < 0x8000000 then some (dieWindow (c / 64) + 0x40000000 + o) else none
  | _ => none

/-- A write of EINJ.CTL: an injection into an array that has addresses waits at its word, another one in EINJ.CTL itself, for the
read on which it acts. -/
def State.armEinj (s : State) (c : Nat) (v : Word) : State :=
  let n := v.toNat
  let mode := bitsN n 2 2
  let arch := bitsN n 4 4
  if mode = 3 ∨ 10 < arch then s
  else
    let a := (s.core c).cregs.einjAddr.toNat
    let s1 := { s.modCore c (fun x => { x with cregs := { x.cregs with einjCtl := v &&& 0xFFD } }) with
                inject := s.inject.filter fun e => e.2 != c + 1
                injectOne := s.injectOne.filter fun e => e.2 != c + 1 }
    if ¬ n.testBit 0 ∨ mode = 0 then s1
    else
      match injectWord c arch a with
      | none => s1
      | some w =>
        if mode = 2 then { s1 with inject := Tab.set 0 s1.inject (w / 8) (c + 1) }
        else { s1 with injectOne := Tab.set 0 s1.injectOne (w / 8) (c + 1) }

/-- Bits of array `k` of a core go wrong: a word with an address reads so from now on, another one waits for its read (R353, R383). -/
def State.upset (s : State) (c k off : Nat) (two : Bool) : State :=
  match injectWord c k off with
  | some w => if two then { s with bad := Tab.set false s.bad (w / 8) true } else { s with soft := Tab.set false s.soft (w / 8) true }
  | none =>
    if 5 ≤ k ∧ k ≤ 9 then
      s.modCore (if k = 9 then c / 64 * 64 else c) fun x => { x with upsets := x.upsets ++ [(k, off / 8 * 8, two)] }
    else s

/-- The contexts with a schedule running on an engine. -/
def Cle.running (x : Cle) : List Nat := ((List.range 8).filterMap fun t => (x.thread t).start.map (·.ctx)).dedup

/-- A collective engine meets an uncorrectable error in its counters, tile flags, group slots or early-arrival buffer: every context
with a schedule running on it is killed (R379, R380). DESIGN CHOICE, log 157: an input of the list of moves. -/
def State.collectiveError (s : State) (die : Nat) : State :=
  let s1 := s.pushFlt die { kind := 4, info := reportInfo, ctx := 0, addr := reportAddr, core := die * 64, unit := 6 } .none
  { s1 with kills := s1.kills ++ (s.cle die).running }

def execEinjArm (c : Nat) (v : BitVec 64) (s : State) : Host.Outcome State Fault Refusal :=
  if coreCount ≤ c then .fault .noSuchAgent else .next (s.armEinj c v)

/-- A write of ELOG.CNT clears both counts of the selected array. -/
def State.clearElog (s : State) (c : Nat) : State :=
  let k := (s.core c).cregs.elogSel.toNat % 16
  s.modCore ((s.core c).elogHome c) fun x =>
    let f : Elog := { Tab.get {} x.elog k with uncorrectable := 0, corrected := 0 }
    { x with elog := Tab.set {} x.elog k f }

def execElogCntClear (c : Nat) (s : State) : Host.Outcome State Fault Refusal :=
  if coreCount ≤ c then .fault .noSuchAgent else .next (s.clearElog c)

/-! ### Control registers -/

/-- The number of the module's present window: that of the core which is furthest (R225). -/
def State.rampWindow (s : State) : Nat := s.cores.foldl (fun n e => max n (e.2.cycle / 2100)) 0

/-- A write of RAMP.STEP takes effect at the next window; one of an earlier window that has taken effect is followed by it
(R225). -/
def State.writeRamp (s : State) (v : Word) : State :=
  let w := s.rampWindow
  let now := match s.mod.rampNext with
    | some (u, n) => if n < w then u else s.mod.rampStep
    | none => s.mod.rampStep
  { s with mod := { s.mod with rampStep := now, rampNext := some (v &&& 0x1FFFF, w) } }

def execRampStepWrite (v : BitVec 64) (s : State) : Host.Outcome State Fault Refusal := .next (s.writeRamp v)

/-- A write of MIG.TAIL (R255). -/
def State.writeMigTail (s : State) (v : Word) : State := { s with mod := { s.mod with migTail := v &&& 0xFFFFFFFF } }

def execMigTailWrite (v : BitVec 64) (s : State) : Host.Outcome State Fault Refusal := .next (s.writeMigTail v)

/-- CLE.KILL's threads are killed. -/
def State.killThreads (s : State) (die : Nat) (v : Word) : State :=
  (List.range 8).foldl (fun u t => if v.toNat.testBit t then u.killThread die t else u) s

/-- A register of core scope. -/
def CoreCregs.put (k : CoreCregs) (idx : Nat) (v : Word) : Option CoreCregs :=
  match idx with
  | 0x840 => some { k with cpeDraw0 := v &&& 0x7FFFFFFFFFFFFFFF }
  | 0x841 => some { k with cpeDraw1 := v &&& 0x7FFFFFFFFFFFFFFF }
  | 0x860 => some { k with tvb := v &&& 0xFFFFFFFFFFF0 }
  | 0x865 => some { k with wdog := v &&& 0xFFFFFFFF }
  | 0x866 => some { k with csaBase := v &&& 0xFFFFFFE000000 }
  | 0x867 => some { k with elogSel := v &&& 0xF }
  | 0x869 => some { k with einjAddr := v &&& 0xFFFFFFFF }
  | 0x880 => some { k with linkSel := v &&& 0x1F }
  | _ => none

/-- A register of the drawer controller. -/
def ModCregs.put (k : ModCregs) (idx : Nat) (v : Word) : Option ModCregs :=
  match idx with
  | 0x830 => some { k with muCtxtab := v &&& 0xFFFFFFFFF0000 }
  | 0x831 => some { k with sweepCtl := v &&& 0xFFFFFFFFFF01 }
  | 0x832 => some { k with sweepQbase := v &&& 0xFFFFFFFC00000 }
  | 0x833 => some { k with sweepHead := v &&& 0xFFFFFFFF }
  | 0x834 => some { k with migQbase := v &&& 0xFFFFFFFFF0000 }
  | _ => none

/-- A register of the link unit. -/
def LinkRegs.put (k : LinkRegs) (idx : Nat) (v : Word) : Option LinkRegs :=
  match idx with
  | 0x883 => some { k with levBase := v &&& 0xFFFFFFFFFE000 }
  | 0x884 => some { k with levHead := v.toNat % 2 ^ 32 }
  | 0x885 => some { k with levEvt := v &&& 0x1FF }
  | _ => none

/-- A write of a register of core, die or module scope by core `c`, or through its window; a write that is refused leaves
the state. -/
def State.writeCreg (s : State) (c idx : Nat) (v : Word) : State :=
  if ¬ cregShared idx ∨ idx.testBit 10 ∨ s.cregRefused c idx v then s
  else
    match (s.core c).cregs.put idx v with
    | some k => s.modCore c fun x => { x with cregs := k }
    | none =>
      match s.mod.put idx v with
      | some k => { s with mod := k }
      | none =>
        match s.links.put idx v with
        | some k => { s with links := k }
        | none =>
          let die := c / 64
          let n := v.toNat
          match idx with
          | 0x820 => s.writeRamp v
          | 0x835 => s.writeMigTail v
          | 0x842 => s.writeRload c 0 v
          | 0x843 => s.writeRload c 1 v
          | 0x850 => s.modCle die fun x => { x with arb := v }
          | 0x851 => s.killThreads die v
          | 0x868 => s.armEinj c v
          | 0x86A => s.clearElog c
          | 0x870 => s.setRing die { s.ring die with base := v &&& 0xFFFFFFFFFE000 }
          | 0x871 => (s.setRing die { s.ring die with head := n % 2 ^ 32 }).drainFlt die 256
          | 0x872 => s.answerFlt die (n % 2 ^ 32) (n.testBit 32)
          | 0x881 => s.writeLinkCtl (s.core c).linkPort v
          | 0x882 => s.writeSlotBase (s.core c).linkPort v
          | _ => s

def execControlRegisterWrite (c idx : Nat) (v : BitVec 64) (s : State) : Host.Outcome State Fault Refusal :=
  if coreCount ≤ c then .fault .noSuchAgent else .next (s.writeCreg c idx v)

/-! ### The host's windows (R402) -/

/-- A write of a launch queue's TAIL. -/
def State.writeTail (s : State) (q n : Nat) : State := s.modFe q fun x => { x with tail := n }

def execQueueTailWrite (q : Nat) (v : BitVec 32) (s : State) : Host.Outcome State Fault Refusal :=
  if 16 ≤ q then .fault .noSuchAgent else .next (s.writeTail q v.toNat)

/-- Bytes of a list overwritten from a place on; a shorter list is filled with zeros. -/
def overwrite (l : List Byte) (o : Nat) (w : List Byte) : List Byte :=
  (l ++ List.replicate (o - l.length) 0).take o ++ w ++ l.drop (o + w.length)

/-- One byte of BAR0 as the host reads it: the mailbox message area and MBX.DOOR, the queues' TAIL and HEAD, WIN.BASE, the MSI-X table,
the pending interrupts. In recovery mode only the mailbox answers (R405). -/
def State.bar0Byte (s : State) (o : Nat) : Byte :=
  let part (v k : Nat) : Byte := BitVec.ofNat 8 (v / 2 ^ (8 * k))
  if o < 0x1000 then s.mgmt.reply.getD o 0
  else if o = 0x1000 then BitVec.ofNat 8 (bit s.mgmt.door)
  else if s.mgmt.start = .recovery then 0
  else if 0x2000 ≤ o ∧ o < 0x2100 then
    let x := s.feQueue ((o - 0x2000) / 16)
    let k := o % 16
    if k < 4 then part x.tail k else if k < 8 then part x.head (k - 4) else 0
  else if 0x3000 ≤ o ∧ o < 0x3008 then part s.mgmt.winBase.toNat (o - 0x3000)
  else if 0x4000 ≤ o ∧ o < 0x4400 then Tab.get 0 s.mgmt.vectors (o - 0x4000)
  else if 0x5000 ≤ o ∧ o < 0x5008 then
    part ((s.mgmt.msix.filter (· < 64)).foldl (fun t v => t ||| 2 ^ v) 0) (o - 0x5000)
  else 0

/-- A write of `len` bytes by the host at an offset of BAR0. -/
def State.writeBar0 (s : State) (o len v : Nat) : State :=
  let m := s.mgmt
  if o < 0x1000 then { s with mgmt := { m with reply := (overwrite m.reply o (leBytes len v)).take 0x1000 } }
  else if o = 0x1000 then { s with mgmt := { m with door := true } }
  else if m.start = .recovery then s
  else if 0x2000 ≤ o ∧ o < 0x2100 ∧ o % 16 = 0 ∧ 4 ≤ len then s.writeTail ((o - 0x2000) / 16) (v % 2 ^ 32)
  else if o = 0x3000 then { s with mgmt := { m with winBase := BitVec.ofNat 64 v &&& 0x1F000000000 } }
  else if 0x4000 ≤ o ∧ o + len ≤ 0x4400 then
    let l := (leBytes len v).zipIdx
    { s with mgmt := { m with vectors := l.foldl (fun t p => Tab.set 0 t (o - 0x4000 + p.2) p.1) m.vectors } }
  else s

/-- A host access: below 2^36 an offset of BAR2, the drawer at WIN.BASE; from 2^36 on an offset of BAR0. `wr` is the value
written, little-endian; a read's bytes are the answer. -/
def execHostWindowAccess (off len : Nat) (wr : Option Nat) (s : State) : Host.Outcome State Fault Refusal :=
  if off < 2 ^ 36 then
    let a := bitsN s.mgmt.winBase.toNat 36 5 * 2 ^ 36 + off
    if ¬ s.linkUp a len 0 then .next s
    else
      let s1 := (s.touchFrames a len).usePorts 0 8 0 a len
      match wr with
      | some v =>
        match s.badPart a len with
        | some w => .next (s1.postBad 0 0 w reportCore 0)
        | none => .next (s1.homeStore a (leBytes len v))
      | none =>
        match s.badIn a len with
        | some w => .next { s1.postBad 0 0 w reportCore 0 with answer := [] }
        | none => .next { s1 with answer := s.homeLoad a len }
  else
    let o := off - 2 ^ 36
    match wr with
    | none => .next { s with answer := (List.range len).map fun k => s.bar0Byte (o + k) }
    | some v => .next (s.writeBar0 o len v)

/-! ### The mailbox (R403) -/

/-- A reply stands in the message area. -/
def State.replyWith (s : State) (l : List Byte) : State :=
  { s with mgmt := { s.mgmt with reply := l, door := false } }.interrupt 0

/-- A command that fails is answered 0xFF and changes nothing. -/
def State.refuseMail (s : State) : State := s.replyWith [0xFF]

/-- The codes of the commands. -/
def mailCodes : List Nat := [1, 2, 3, 4, 5, 6]

/-- MAILBOX_BAD_COMMAND: a command of unknown code; one of a known code whose operands fail is refused where it is carried out. -/
def execMailboxBadCommand (code : Nat) (s : State) : Host.Outcome State Fault Refusal :=
  .next (if mailCodes.contains code then s else s.refuseMail)

/-- Sizes of a launch queue: a power of two from 16 to 65,536. -/
def ringSizeOk (n : Nat) : Bool := (List.range 13).any fun k => n == 2 ^ (k + 4)

def State.setq (s : State) (q base size prio : Nat) : State :=
  if 16 ≤ q ∨ (s.feQueue q).running ∨ ¬ ringSizeOk size ∨ 15 < prio then s.refuseMail
  else (s.modFe q fun x => { x with base := base, size := size, prio := prio }).replyWith [0]

def State.startq (s : State) (q : Nat) : State :=
  if 16 ≤ q ∨ (s.feQueue q).size = 0 then s.refuseMail else (s.modFe q fun x => { x with running := true }).replyWith [0]

/-- STOPQ stops the queue as a HALTQ in drain mode does. -/
def State.stopq (s : State) (q : Nat) : State := if 16 ≤ q then s.refuseMail else (s.cancelQueue q false).replyWith [0]

def StartSt.code : StartSt → Nat
  | .running => 0 | .warm => 1 | .cold => 2 | .recovery => 3 | .held => 4 | .attach => 5

/-- STATUS: start state, failure counts, temperatures and rail telemetry. -/
def State.statusMail (s : State) : State :=
  let m := s.mgmt
  s.replyWith (0 :: leBytes 1 m.start.code ++ leBytes 1 m.warmFails ++ leBytes 1 m.coldFails ++
    (m.temps.map fun t => leBytes 2 t).flatten ++ (m.rails.map fun r => leBytes 4 r.1 ++ leBytes 4 r.2).flatten)

/-- ATTEST: nonce, serial number, measurements in load order, signature. -/
def State.attest (s : State) (nonce : Nat) : State :=
  let r := leBytes 64 nonce ++ deviceSerial ++ (s.mgmt.loaded.map fun d => leBytes 64 d.toNat).flatten
  s.replyWith (0 :: r ++ signReport r)

def State.loadfw (s : State) (image : BitVec 512) (valid : Bool) : State :=
  { s with mgmt := { s.mgmt with staged := some (image, valid) } }.replyWith [0]

/-- RESET, warm: not while the module is held for a cold start or in recovery. -/
def State.resetWarm (s : State) : State :=
  if s.mgmt.start = .held ∨ s.mgmt.start = .recovery then s.refuseMail
  else { s with mgmt := { s.mgmt with start := .warm } }.replyWith [0]

def State.resetCold (s : State) : State := { s with mgmt := { s.mgmt with start := .cold } }.replyWith [0]

def execSetq (q base size prio : Nat) (s : State) : Host.Outcome State Fault Refusal := .next (s.setq q base size prio)
def execStartq (q : Nat) (s : State) : Host.Outcome State Fault Refusal := .next (s.startq q)
def execStopq (q : Nat) (s : State) : Host.Outcome State Fault Refusal := .next (s.stopq q)
def execStatus (s : State) : Host.Outcome State Fault Refusal := .next s.statusMail
def execAttest (nonce : BitVec 512) (s : State) : Host.Outcome State Fault Refusal := .next (s.attest nonce.toNat)
def execLoadfw (image : BitVec 512) (valid : Bool) (s : State) : Host.Outcome State Fault Refusal := .next (s.loadfw image valid)
def execResetWarm (s : State) : Host.Outcome State Fault Refusal := .next s.resetWarm
def execResetCold (s : State) : Host.Outcome State Fault Refusal := .next s.resetCold

/-- The management controller takes the message whose door was rung. DESIGN CHOICE, log 147: byte 0 is the code, the operands are words
of 8 bytes from byte 8 on; an image to stage is named by its place in drawer memory. -/
def State.takeMail (s : State) : State :=
  let w (k : Nat) : Nat := ofLeBytes ((List.range 8).map fun j => s.mgmt.reply.getD (8 * k + j) 0)
  if ¬ s.mgmt.door then s
  else
    match (s.mgmt.reply.headD 0).toNat with
    | 1 => s.setq (w 1) (w 2) (w 3) (w 4)
    | 2 => if w 2 = 0 then s.startq (w 1) else if w 2 = 1 then s.stopq (w 1) else s.refuseMail
    | 3 => s.statusMail
    | 4 => s.attest (ofLeBytes ((List.range 64).map fun j => s.mgmt.reply.getD (8 + j) 0))
    | 5 =>
      let d := measure (memRead s.mem (w 1) (w 2))
      if 0x20000000000 < w 1 + w 2 then s.refuseMail else s.loadfw d (imageVerifies d)
    | 6 => if w 1 = 0 then s.resetWarm else if w 1 = 1 then s.resetCold else s.refuseMail
    | _ => s.refuseMail

/-! ### Start-up (R404, R405) -/

/-- A port after a reset: with the wavelengths that have light when it is calibrated, else with those of the saved calibration; lasers
that are out stay out. DEDUCED, log 158: a warm start brings the links up anew. -/
def Port.restart (p : Port) (calibrate : Bool) : Port :=
  let m := if calibrate then maskOff 0xFFFF p.dark else p.cal
  let st : PortSt := if 8 ≤ popMask m then .up else .down
  { mask := m, cal := m, rxMask := m, oldMask := m, dark := p.dark, st := st, rx := st }

/-- A port held in reset. -/
def Port.inReset (p : Port) : Port := { st := .down, rx := .down, dark := p.dark, cal := p.cal }

/-- The ports `n` of a module, each changed. -/
def State.eachPort (s : State) (n : Nat) (f : Port → Port) : Tab Port :=
  (List.range n).foldl (fun t p => Tab.set {} t p (f (s.port p))) s.ports

/-- The module in reset: what a start keeps of its memories, the lights of its lasers, and what is the model's own. -/
def State.afterReset (s : State) (keep : Nat → Bool) (port : Port → Port) (m : Mgmt) : State :=
  { State.reset with
    focus := s.focus, moves := s.moves, pace := s.pace, modn := s.modn
    mem := s.mem.filter fun e => keep e.1, bad := s.bad.filter fun e => keep (8 * e.1), soft := s.soft.filter fun e => keep (8 * e.1)
    training := s.training, ports := s.eachPort 32 port, mgmt := m }

/-- The drawer and the host's memory. -/
def keepsDrawer (a : Nat) : Bool := decide (a < 0x20000000000 ∨ 2 ^ 52 ≤ a)

/-- Recovery mode: every compute die and port is held in reset (R405). -/
def State.recover (s : State) : State := s.afterReset keepsDrawer Port.inReset { s.mgmt with start := .recovery, loaded := [] }

/-- A start has failed: three warm failures in a row lead to a cold start, three cold ones to recovery. -/
def State.failStart (s : State) (warm : Bool) : State :=
  let m := s.mgmt
  if warm then { s with mgmt := { m with warmFails := m.warmFails + 1, start := if 3 ≤ m.warmFails + 1 then .cold else m.start } }
  else
    let u := { s with mgmt := { m with coldFails := m.coldFails + 1 } }
    if 3 ≤ m.coldFails + 1 then u.recover else u

/-- The management controller after a start that loads a firmware image: it verifies the core monitor, which runs only when its
signature holds; both are measured in load order (R406, R407). -/
def Mgmt.restarted (m : Mgmt) (image : BitVec 512) (staged : Option (BitVec 512 × Bool)) (training : Word) : Mgmt :=
  { firmware := image, staged := staged, monitor := m.monitor, monitorOk := m.monitorOk, monitorRuns := m.monitorOk
    loaded := image :: (if m.monitorOk then [m.monitor] else []), cap := m.cap, training := training }

/-- COLD_START ends: every step passed within 60 s. Self-test, calibration of every lane, training and scrub of the drawer, then the
staged firmware when there is one (R404). -/
def execColdStart (secs : Nat) (ok : Bool) (s : State) : Host.Outcome State Fault Refusal :=
  if s.mgmt.start ≠ .cold then .next s
  else
    let d := s.mgmt.staged.getD (s.mgmt.firmware, true)
    if ok ∧ secs ≤ 60 ∧ d.2 then
      let p := trainDrawer s.ns
      .next ({ s with training := p }.afterReset (fun a => decide (2 ^ 52 ≤ a)) (fun q => q.restart true) (s.mgmt.restarted d.1 none p))
    else .next (s.failStart false)

/-- WARM_START ends: the drawer keeps its contents and its saved parameters are used; the lanes are calibrated when a chiplet's
temperature has `moved` since the saved calibration, else that one stands (R404). -/
def execWarmStart (secs : Nat) (ok moved : Bool) (s : State) : Host.Outcome State Fault Refusal :=
  if s.mgmt.start ≠ .warm then .next s
  else if ok ∧ secs ≤ 60 then
    .next (s.afterReset keepsDrawer (fun q => q.restart moved) (s.mgmt.restarted s.mgmt.firmware s.mgmt.staged s.training))
  else .next (s.failStart true)

/-- START_FAILURE: a step fails its check, or the start passes 60 s. -/
def execStartFailure (warm : Bool) (s : State) : Host.Outcome State Fault Refusal :=
  if s.mgmt.start = (if warm then .warm else .cold) then .next (s.failStart warm) else .next s

/-! ### Telemetry, power, heartbeats (R401, R408) -/

/-- The power of a sample: voltage by current over the rails. -/
def railPower (rails : List (Nat × Nat)) : Nat := rails.foldl (fun n r => n + r.1 * r.2) 0

def execTelemetrySample (rails : List (Nat × Nat)) (temps : List Nat) (s : State) : Host.Outcome State Fault Refusal :=
  let l := s.mgmt.powers ++ [railPower rails]
  .next { s with mgmt := { s.mgmt with rails := rails, temps := temps, samples := s.mgmt.samples + 1, powers := l.drop (l.length - 10) } }

/-- The package's power over the last ten samples, 10 ms, exceeds its configured cap (DEDUCED, log 154). -/
def Mgmt.overCap (m : Mgmt) : Bool :=
  match m.cap with
  | some c => m.powers.length == 10 && decide (10 * c < m.powers.foldl (· + ·) 0)
  | none => false

/-- POWER_CAP_EXCEEDED: RAMP.STEP is lowered; FILL stays. -/
def execPowerCapExceeded (lower : BitVec 16) (s : State) : Host.Outcome State Fault Refusal :=
  let v := ((s.mod.rampNext.map (·.1)).getD s.mod.rampStep).toNat
  if s.mgmt.overCap ∧ lower.toNat < v % 2 ^ 16 then .next (s.writeRamp (BitVec.ofNat 64 (v / 2 ^ 16 * 2 ^ 16 + lower.toNat)))
  else .next s

/-- DIE_OVERTEMP: issue stops on every core, a record of kind 7 is posted, the module is held until a cold start. DESIGN CHOICE, log
59: the record of the IO die, number 8, goes to the ring of die 0. -/
def execDieOvertemp (die : Nat) (s : State) : Host.Outcome State Fault Refusal :=
  if 9 ≤ die then .fault .noSuchAgent
  else
    let f (k w : Nat) : Nat := overtempField k % 2 ^ w
    .next ({ s with mgmt := { s.mgmt with start := .held } }.postFlt (if die = 8 then 0 else die)
      { kind := 7, info := f 0 8, ctx := f 1 16, addr := f 2 64, core := f 3 16, unit := f 4 8 } .none)

/-- HEARTBEAT: ten misses in a row declare a module fault. -/
def execHeartbeat (answered : Bool) (s : State) : Host.Outcome State Fault Refusal :=
  let n := if answered then 0 else s.mgmt.misses + 1
  .next { s with mgmt := { s.mgmt with misses := n, fault := s.mgmt.fault || decide (10 ≤ n) } }

/-! ### Spares (R401) -/

/-- The module is a spare in attach state, while it runs nothing. DESIGN CHOICE, log 156: when is an input. -/
def State.attach (s : State) : State :=
  if s.mgmt.start = .running ∧ s.launches = [] then { s with mgmt := { s.mgmt with start := .attach } } else s

/-- The drawer of a failed module is connected to the spare: it calibrates its 16 drawer ports, reads the drawer's saved training
parameters and loads the slot tables; the drawer's contents are as they were (log 156). -/
def State.remap (s : State) (cells : List Host.Cell) (training : Word) : State :=
  if s.mgmt.start ≠ .attach then s
  else
    let own (a : Nat) : Bool := decide (0x20000000000 ≤ a)
    let tables (p : Port) (q : Port) : Port := { q.restart true with permit := p.permit, slotBase := p.slotBase, staged := p.slotBase != 0 }
    { s with
      mem := (cells.filter fun e => !own e.1).foldl (fun m e => memWrite m e.1 [e.2]) (s.mem.filter fun e => own e.1)
      bad := s.bad.filter fun e => own (8 * e.1), soft := s.soft.filter fun e => own (8 * e.1)
      ports := s.eachPort 16 fun p => tables p p
      training := training, mgmt := { s.mgmt with start := .running, training := training } }

/-- The moves that the management path and the mailbox answer in recovery mode, and those that are no action of the module (R405). -/
def Move.management : Move → Bool
  | .event e =>
    match e with
    | .setq .. | .startq _ | .stopq _ | .status | .attest _ | .loadfw .. | .resetWarm | .resetCold | .mailboxBadCommand _
    | .coldStart .. | .warmStart .. | .startFailure _ | .telemetrySample .. | .heartbeat _ => true
    | .hostWindowAccess off _ _ => decide (2 ^ 36 ≤ off)
    | _ => false
  | .time _ => true
  | .pace _ => true
  | .mailbox => true
  | .monitorImage .. => true
  | .powerCap _ => true
  | _ => false

end Sys2Proof.Machine
end

