-- ==== Sys2Proof/Machine/Direct.lean ====
section
/-!
DEFINITION. What is performed at a home: direct accesses and core windows (R232, R248, R249), fills and write-backs (R243 to
R246), the sweeper (R254), migration (R255 to R257) and the scrubber (R381). An event that is not due leaves the state.
-/

namespace Sys2Proof.Machine

open Sys2Proof

/-! ### Core control through a window (R232) -/

/-- One byte of core control: the registers of core and module scope. -/
def State.ctlByte (s : State) (c off : Nat) : Byte :=
  if cregWindow (off / 8) then BitVec.ofNat 8 ((s.sharedCreg c (off / 8)).toNat / 2 ^ (8 * (off % 8))) else 0

/-- Bytes written to core control act as writes of the registers they reach; bytes not written keep their value. -/
def State.ctlWrite (s : State) (c off : Nat) (l : List Byte) : State :=
  (List.range ((off + l.length + 7) / 8 - off / 8)).foldl (fun u k =>
    let i := off / 8 + k
    if ¬ cregWindow i then u
    else u.writeCreg c i (BitVec.ofNat 64 (ofLeBytes ((List.range 8).map fun j =>
      let a := 8 * i + j
      if off ≤ a ∧ a < off + l.length then l.getD (a - off) 0 else u.ctlByte c a)))) s

/-- The core and offset of an address in core control. -/
def ctlAt (a : Nat) : Option (Nat × Nat) :=
  match winCore a with
  | some (c, w) => match winPart w with
    | .ctl off => some (c, off)
    | _ => none
  | none => none

/-- A read at a home, core control among them. -/
def State.readHome (s : State) (a n : Nat) : List Byte :=
  match ctlAt a with
  | some (c, off) => (List.range n).map fun k => s.ctlByte c (off + k)
  | none => s.homeLoad a n

/-- A write at a home, by a task's store or by another agent, core control among them. -/
def State.writeHome (s : State) (a : Nat) (l : List Byte) (by_ : Option Since := none) : State :=
  match ctlAt a with
  | some (c, off) => s.ctlWrite c off l
  | none => s.homeStore a l by_

/-- CORE_WINDOW_ACCESS: another agent reads or writes a core window, after what a write cycle that has ended has written; what a
read gives is the answer (R37, R232). -/
def execCoreWindowAccess (c off len : Nat) (wr : Option Nat) (s : State) : Host.Outcome State Fault Refusal :=
  if coreCount ≤ c ∨ 0x1000000 < off + len then .fault .noSuchAgent
  else
    let a := coreWindow c + off
    let s := s.landWin a
    match wr with
    | none =>
      match s.badIn a len with
      | some w => .next { s.postBad (c / 64) 0 w reportCore 0 with answer := [] }
      | none => .next { s.correct 0 a len with answer := s.readHome a len }
    | some v =>
      match s.badPart a len with
      | some w => .next (s.postBad (c / 64) 0 w reportCore 0)
      | none => .next (s.writeHome a (leBytes len v))

/-! ### Direct accesses (R248, R249) -/

/-- The parts of an access that lie in one page each. -/
def pageParts (va n : Nat) : List (Nat × Nat) :=
  let k := 65536 - va % 65536
  if n ≤ k then [(va, n)] else [(va, k), ((va + k) % 2 ^ 55, n - k)]

/-- The homes of the parts of an access: translated in order, each port that they need UP; else the address of the part that
meets a fault, with the error of its translation, or the home, bytes and class whose ports are not. -/
def State.directHomes (s : State) (c ctx : Nat) (acc : AccKind) (task : Bool) (cls : Nat) :
    List (Nat × Nat) → Except (Nat × (TrErr ⊕ (Nat × Nat × Nat))) (List (Nat × Nat) × State)
  | [] => .ok ([], s)
  | (va, n) :: l =>
    match s.translate c ctx va acc task with
    | .error e => .error (va, .inl e)
    | .ok (a, s1) =>
      if ¬ s1.linkUp a n cls then .error (va, .inr (a, n, cls))
      else
        match s1.directHomes c ctx acc task cls l with
        | .error e => .error e
        | .ok (r, s2) => .ok ((a, n) :: r, s2)

/-- A range cut into what lies in one aligned 64-byte unit each (R259); `fuel` bounds their number. -/
def cutRange : Nat → Nat → Nat → List (Nat × Nat)
  | 0, _, _ => []
  | f + 1, a, n =>
    let k := 64 - a % 64
    if n ≤ k then (if n = 0 then [] else [(a, n)]) else (a, k) :: cutRange f (a + k) (n - k)

/-- The 64-byte units of several ranges, in order. -/
def cutUnits (l : List (Nat × Nat)) : List (Nat × Nat) := l.flatMap fun r => cutRange (r.2 / 64 + 2) r.1 r.2

/-- The value an AMO leaves in memory and whether it was limited: `w` bits (R155). -/
def amoValue (op w : Nat) (uns : Bool) (old operand expected : Nat) : Nat × Bool :=
  let a := old % 2 ^ w
  let b := operand % 2 ^ w
  let lt (x y : Nat) : Bool := if uns then decide (x < y) else decide (sextN w x < sextN w y)
  match op with
  | 0 => ((a + b) % 2 ^ w, false)
  | 1 => let r := satW false w (sextN w a + sextN w b); (wrapN w r.1, r.2)
  | 2 => (if lt b a then b else a, false)
  | 3 => (if lt a b then b else a, false)
  | 4 => (a &&& b, false)
  | 5 => (a ||| b, false)
  | 6 => (a ^^^ b, false)
  | 7 => (b, false)
  | _ => (if a = expected % 2 ^ w then b else a, false)

/-- An operation of core `c`, resident or saved, changed. -/
def State.modVar (s : State) (c id : Nat) (f : VarOp → VarOp) : State :=
  s.modCore c fun x =>
    { x with bank0 := x.bank0.fillVar id f, bank1 := x.bank1.fillVar id f
             orphans := x.orphans.map fun o => if o.2.id = id then (o.1, f o.2) else o
             saved := x.saved.map fun v => { v with bank := v.bank.fillVar id f } }

/-- The operation is performed: it may complete from now on. -/
def State.performed (s : State) (c id : Nat) (ws : List Write) (late : Nat → Option (Nat × Word)) : State :=
  s.modVar c id fun v => { v with writes := some ws, late := late v.pc, earliest := (s.core c).cycle }

/-- The first entry of a bank in its core's direct queue; of a bank that is being saved, the first that has not faulted (R374). -/
def Core.firstDirect (x : Core) (b : Nat) : Option Direct :=
  x.direct.find? fun d => d.bank == b && !((x.bank b).task.saving && d.faulted)

/-- That entry leaves the queue. -/
def Core.dropDirect (x : Core) (b : Nat) : Core :=
  match x.firstDirect b with
  | some d => { x with direct := x.direct.erase d }
  | none => x

/-- The entry's fault stops its bank's part of the queue; the bank meets it at its next boundary (R241, R248), which for one that is
being saved is after its resume, when the entry is tried again (R374). -/
def State.directFault (s : State) (c b : Nat) (t : Trap) : State :=
  let s1 := s.modCore c fun x =>
    match x.firstDirect b with
    | some d => { x with direct := x.direct.map fun e => if e = d then { e with faulted := true } else e }
    | none => x
  if (s.bankAt c b).task.saving then s1.touchWalk (c / 64) (s.bankAt c b).cregs.ctxid.toNat t.info.toNat
  else s1.modBank c b fun y => y.modPipe fun q => { q with late := q.late ++ [t] }

/-- The entry's access is aborted: its operation ends without a value, the bank meets uncorrectable data (R378). -/
def State.directAbort (s : State) (c b : Nat) (d : Direct) (t : Trap) : State :=
  let s1 := (s.modCore c fun x => x.dropDirect b).varDone c d.varId fun v => { v with writes := some [], late := none }
  if d.orphan then s1.postBad (c / 64) d.ctx t.info.toNat c b
  else s1.modBank c b fun y => y.modPipe fun q => { q with late := q.late ++ [t] }

/-- The task's point behind whose results a store of this entry orders what it starts (R342, R348); none once its task is gone. -/
def State.directSince (s : State) (c : Nat) (d : Direct) : Option Since :=
  let t := (s.bankAt c d.bank).task
  if d.orphan then none else some { core := c, launch := t.launch, wid := t.wid, bundle := d.bundle }

/-- One AMO at its home, a counter of a collective engine among them: the bytes that it reads, and whether the value it leaves
was limited (R155, R270, R330, R340). -/
def State.performAmo (s : State) (c : Nat) (d : Direct) (a n : Nat) : State × List Byte × Bool :=
  let go (old : Nat) : Nat × Bool := amoValue d.op (8 * d.len) d.uns old d.operand.toNat d.expected.toNat
  match counterAt a n with
  | some (die, k) =>
    let s1 := s.modCle die Cle.drainAdds
    let old := (s1.cle die).counter k
    let r := go old
    (s1.modCle die fun x => x.stepTo k (r.1 % 2 ^ 32), leBytes n old, r.2)
  | none =>
    let old := s.readHome a n
    let r := go (ofLeBytes old)
    (s.writeHome a (leBytes n r.1) (s.directSince c d), old, r.2)

/-- One 64-byte unit of an access is performed at its home (R154, R155, R158, R259): the entry with what it has read, and
whether an AMO was limited. -/
def State.performUnit (s : State) (c : Nat) (d : Direct) (u : Nat × Nat) : State × Direct × Bool :=
  let s1 := (((s.landWin u.1).correct d.ctx u.1 u.2).touchFrames u.1 u.2).usePorts 0 (c / 64) 0 u.1 u.2
  match d.kind with
  | .stg => (s1.writeHome u.1 (d.bytes.take u.2) (s.directSince c d), { d with done := d.done + 1, bytes := d.bytes.drop u.2 }, false)
  | .amo =>
    let r := s1.performAmo c d u.1 u.2
    (r.1, { d with done := d.done + 1, got := d.got ++ r.2.1 }, r.2.2)
  | _ => (s1, { d with done := d.done + 1, got := d.got ++ s1.readHome u.1 u.2 }, false)

/-- Several units, in order. -/
def State.performUnits64 (s : State) (c : Nat) (d : Direct) (l : List (Nat × Nat)) : State × Direct × Bool :=
  l.foldl (fun e u => let r := e.1.performUnit c e.2.1 u; (r.1, r.2.1, e.2.2 || r.2.2)) (s, d, false)

/-- An access that has been performed whole: what its operation writes when it completes. -/
def State.directDone (s : State) (c : Nat) (d : Direct) (limited : Bool) : State :=
  let n := ofLeBytes d.got
  let reg (v : Word) : List Write := if d.reg.fam = .s then [.s d.reg.idx v] else []
  match d.kind with
  | .ldg =>
    let ws : List Write :=
      if d.reg.fam = .v then [.v d.reg.idx (BitVec.allOnes 4096) (BitVec.ofNat 4096 n)]
      else reg (if d.sx then BitVec.ofInt 64 (sextN (8 * d.len) n) else BitVec.ofNat 64 n)
    s.performed c d.varId ws fun _ => none
  | .tld =>
    let t := trecClean n
    if trecOk t then s.performed c d.varId [.t d.reg.idx (BitVec.allOnes 256) t] fun _ => none
    else s.performed c d.varId [] fun pc => some (0x23, BitVec.ofNat 64 (2 ^ 63 + pc % 2 ^ 48))
  | .stg => s
  | .amo =>
    s.performed c d.varId (reg (BitVec.ofInt 64 (sextN (8 * d.len) n)) ++ if limited then [Write.csat] else []) fun _ => none

/-- What the entry is to the map unit. -/
def DirectKind.acc : DirectKind → AccKind
  | .ldg => .read
  | .tld => .read
  | .stg => .write
  | .amo => .atomic

def DirectKind.code : DirectKind → Nat
  | .ldg => 2
  | .tld => 2
  | .stg => 3
  | .amo => 4

/-- The first entry of a bank changed. -/
def Core.putDirect (x : Core) (b : Nat) (d : Direct) : Core :=
  match x.firstDirect b with
  | some e => { x with direct := x.direct.map fun q => if q = e then d else q }
  | none => x

/-- Units of the bank's first entry are performed at the homes that its translation gave: all that remain, or as many as the
pace allows. An entry that meets uncorrectable data is aborted (R378). -/
def State.runDirect (s : State) (c b : Nat) (d : Direct) : State :=
  let left := (cutUnits d.homes).drop d.done
  let now := left.take (s.pieces left.length)
  match now.findSome? fun p => if d.kind = .stg then s.badPart p.1 p.2 else s.badIn p.1 p.2 with
  | some w => s.directAbort c b d { cause := 0x15, info := BitVec.ofNat 64 w }
  | none =>
    if now.length < left.length then
      let r := s.performUnits64 c d now
      r.1.modCore c fun x => x.putDirect b r.2.1
    else
      let r := (s.modCore c fun x => x.dropDirect b).performUnits64 c d now
      r.1.directDone c r.2.1 r.2.2

/-- DIRECT_ACCESS_PERFORM: the bank's first entry is translated and performed at its home, or met by a fault; one that has
begun waits for its links (R392). -/
def execDirectAccessPerform (c b : Nat) (s : State) : Host.Outcome State Fault Refusal :=
  match (s.core c).firstDirect b with
  | none => .next s
  | some d =>
    if d.faulted then .next s
    else if d.homes ≠ [] then .next (if d.homes.all fun p => s.linkUp p.1 p.2 0 then s.runDirect c b d else s)
    else
      match s.directHomes c d.ctx d.kind.acc d.task 0 (pageParts d.va d.len) with
      | .error (va, .inr w) =>
        if d.orphan then .next s else .next (s.directFault c b { cause := 0x14, info := BitVec.ofNat 64 va, need := some w })
      | .error (va, .inl (.fault k)) =>
        if d.orphan then (if k = .migrating then .next s else .next ((s.touchWalk (c / 64) d.ctx va).modCore c fun x => x.dropDirect b))
        else .next (s.directFault c b (trTrap (.fault k) va d.kind.code))
      | .error (va, .inl e) => .next (s.directAbort c b d (trTrap e va d.kind.code))
      | .ok (l, s1) =>
        let d1 := { d with homes := l }
        .next ((s1.modCore c fun x => x.putDirect b d1).runDirect c b d1)

/-! ### Fills and write-backs (R243 to R246, R268) -/

/-- A write-back of the bank's task that began no later than operation `n` and covers the sector at a home address is still to
be performed. -/
def Bank.backBefore (y : Bank) (n home : Nat) : Bool :=
  y.pipe.vars.any fun v => v.kind == .writeback && decide (v.id ≤ n) && (v.writes.getD []).any fun w => match w with
    | .home a l => decide (a < home + 4096 ∧ home < a + l.length)
    | _ => false

/-- The fill of a sector leaves its region, the sector INV if it waited for this fill (R242, R246). -/
def Region.dropFill (g : Region) (f : Fill) : Region :=
  let left := { g with fills := g.fills.erase f }
  if g.secState f.sec = .fill ∧ ¬ left.fills.any (fun e => e.sec == f.sec) then left.setSec f.sec .inv else left

/-- A fill changed. -/
def Region.putFill (g : Region) (f f' : Fill) : Region := { g with fills := g.fills.map fun e => if e = f then f' else e }

/-- One fill of region `r` goes on: units of the sector are read at the home, all that remain or as many as the pace allows;
when the last has been read its bytes are written to the sector, which becomes CLEAN, or they are discarded. -/
def State.fillUnits (s : State) (c b r : Nat) (g : Region) (f : Fill) : State :=
  let y := s.bankAt c b
  let put (h : Region) (u : State) : State := u.modBank c b fun z => z.setRegion r (some h)
  let left := (cutUnits [(f.home, 4096)]).drop (f.got.length / 64)
  let now := left.take (s.pieces left.length)
  match now.findSome? fun p => s.badIn p.1 p.2 with
  | some w =>
    let s1 := put (g.dropFill f) s
    if y.pipe.ctx.res = .held .fill then s1.modBank c b fun z => z.modPipe fun q =>
      { q with late := q.late ++ [{ cause := 0x15, info := BitVec.ofNat 64 w }] }
    else s1.postBad (c / 64) y.cregs.ctxid.toNat w c b
  | none =>
    let s1 := now.foldl (fun u p => (((u.landWin p.1).correct y.cregs.ctxid.toNat p.1 p.2).touchFrames p.1 p.2).usePorts 1 (c / 64) 0 p.1 p.2) s
    let got := f.got ++ (now.map fun p => s1.readHome p.1 p.2).flatten
    if now.length < left.length then put (g.putFill f { f with got := got }) s1
    else if f.inv ∨ g.secState f.sec ≠ .fill then put (g.dropFill f) s1
    else put ({ g with fills := g.fills.erase f }.setSec f.sec .clean) (s1.putHome (secAddr c g f.sec) got)

/-- FILL_LANDS: the first fill of the sector goes on, once the task's earlier write-backs of the physical sector have been
performed and its links are UP (R268, R392). -/
def execFillLands (c b r sec : Nat) (s : State) : Host.Outcome State Fault Refusal :=
  let y := s.bankAt c b
  match y.region r with
  | none => .next s
  | some g =>
    match g.fills.find? fun f => f.sec == sec with
    | none => .next s
    | some f => .next (if s.linkUp f.home 4096 1 ∧ ¬ y.backBefore f.after f.home then s.fillUnits c b r g f else s)

/-- The bank of a core, or the saved one, that holds the operation with a number. -/
def Core.holder (x : Core) (id : Nat) : Option Bank :=
  ([x.bank0, x.bank1] ++ x.saved.map (·.bank)).find? fun y => (y.varOp id).isSome

/-- The write-back of a number that may be performed now: it is released, and the task's earlier write-backs of the physical
sector have been performed (R268, R355); one of a task that is gone after those begun before it. -/
def State.writebackOf (s : State) (c id : Nat) : Option VarOp :=
  match (s.core c).holder id with
  | none =>
    ((s.core c).orphans.head?.filter fun o => o.2.id == id && (match o.2.writes with
      | some [.home a l] => s.linkUp a l.length 2
      | _ => false)).map (·.2)
  | some y =>
    (y.varOp id).filter fun v => v.kind == .writeback && !v.kept &&
      (match v.writes with
       | some [.home a l] => s.linkUp a l.length 2 && !(decide (0 < id) && y.backBefore (id - 1) (a / 4096 * 4096))
       | _ => false)

/-- WRITEBACK_ACK: units of the write-back are performed at its home, all that remain or as many as the pace allows; after the
last the acknowledgement reaches the core. -/
def execWritebackAck (c _b id : Nat) (s : State) : Host.Outcome State Fault Refusal :=
  match s.writebackOf c id with
  | none => .next s
  | some v =>
    match v.writes with
    | some [.home a l] =>
      let n := 64 * s.pieces ((l.length + 63) / 64)
      let now := l.take n
      let s1 := (s.writeHome a now).usePorts 2 (c / 64) 0 a now.length
      if n < l.length then .next (s1.modVar c id fun o => { o with writes := some [.home (a + n) (l.drop n)] })
      else .next ((s1.modCore c fun x => { x with orphans := x.orphans.filter fun o => o.2.id != id }).varDone c id fun o =>
        { o with writes := some [] })
    | _ => .next s

/-! ### The frame table and the sweeper (R252, R254) -/

/-- The flags byte of a frame: USED, FA, PIN, COLD, MIG, QUAR in bits 0 to 5. -/
def State.frame (s : State) (f : Nat) : Nat := (memByte s.mem (frameFlags f)).toNat

/-- The flags with some bits set and some cleared. -/
def State.setFrame (s : State) (f on off : Nat) : State :=
  { s with mem := memWrite s.mem (frameFlags f) [BitVec.ofNat 8 ((s.frame f ||| on) &&& (255 - off))] }

/-- The same by the sweeper or the migration engine, whose accesses travel in class 3 and set no FA (R250, R252). -/
def State.putFrame (s : State) (f on off : Nat) : State := (s.setFrame f on off).usePorts 3 8 0 (frameFlags f) 1

/-- One step of the sweeper at its hand. -/
def State.sweepFrame (s : State) : State :=
  let f := s.hand
  let n := s.frame f
  let s := s.usePorts 3 8 0 (frameFlags f) 1
  let s1 :=
    if ¬ n.testBit 0 ∨ n.testBit 2 ∨ n.testBit 4 ∨ n.testBit 5 then s
    else if n.testBit 1 then s.putFrame f 0 10
    else if n.testBit 3 then s
    else
      let t := s.mod.sweepTail.toNat
      let a := s.mod.sweepQbase.toNat + 4 * (t % 2 ^ 20)
      let s2 := { s with
        mem := memWrite s.mem a (leBytes 4 f)
        mod := { s.mod with sweepTail := BitVec.ofNat 64 ((t + 1) % 2 ^ 32) } }
      (s2.putFrame f 8 0).usePorts 3 8 0 a 4
  { s1 with hand := (f + 1) % 2 ^ 25 }

/-- SWEEP_STEP: the sweeper starts below LOW, stops at HIGH, and examines one frame while it runs. -/
def execSweepStep (s : State) : Host.Outcome State Fault Refusal :=
  let n := s.mod.sweepCtl.toNat
  let count := (s.mod.sweepTail.toNat + 2 ^ 32 - s.mod.sweepHead.toNat) % 2 ^ 32
  let run := n.testBit 0 && !decide (bitsN n 28 20 ≤ count) && (s.sweeping || decide (count < bitsN n 8 20))
  let s1 := { s with sweeping := run }
  .next (if run then s1.sweepFrame else s1)

/-! ### Migration (R255 to R257) -/

/-- The command at MIG.HEAD, as a number, and its address. -/
def State.migAddr (s : State) (n : Nat) : Nat := s.mod.migQbase.toNat + 32 * (n % 256)
def State.migCmd (s : State) : Nat := memNat s.mem (s.migAddr s.mod.migHead.toNat) 32

/-- The engine may start a command. -/
def State.migReady (s : State) : Bool := s.mod.migHead != s.mod.migTail && decide (s.migs.length < 8)

/-- The status byte of a command is written. -/
def State.migStatus (s : State) (n st : Nat) : State :=
  { s with mem := memWrite s.mem (s.migAddr n + 1) [BitVec.ofNat 8 st] }.usePorts 3 8 0 (s.migAddr n + 1) 1

/-- The engine has read the command at MIG.HEAD and started it. -/
def State.migNext (s : State) : State :=
  { s.usePorts 3 8 0 (s.migAddr s.mod.migHead.toNat) 32 with mod := { s.mod with migHead := BitVec.ofNat 64 ((s.mod.migHead.toNat + 1) % 2 ^ 32) } }

/-- A command whose fields are those of a MOVE. -/
def migOk (n : Nat) : Bool :=
  let va := bitsN n 64 64
  let e := bitsN n 128 64
  bitsN n 0 8 == 1 && va % 65536 == 0 && decide (va < 2 ^ 55) && pteV e && pteLeaf e && !pteMg e && !pteLost e &&
  !frameBad (pteLoc e) (ptePfn e * 65536) 65536 && !(pteLoc e != 1 && pteModn e != 0)

/-- The local drawer frame of a leaf, if it has one: by LOC 0, or by this module's number (R236). -/
def State.localFrame (s : State) (e : Nat) : Option Nat :=
  if pteLoc e = 0 ∨ (pteLoc e = 1 ∧ pteModn e = s.modn) then some (ptePfn e) else none

/-- The home of a leaf's frame. -/
def State.leafHome (s : State) (e : Nat) : Nat := homeOf s.modn (pteLoc e) (pteModn e) (ptePfn e * 65536)

/-- Every map unit drops the page. -/
def State.dropPage (s : State) (ctx va : Nat) : State :=
  s.cores.foldl (fun u e => u.modCore e.1 fun x => x.muinv 0 ctx va) s

/-- Walk and claim of a well-formed MOVE. -/
def State.moveStart (s : State) (cmd : Nat) : State :=
  let n := s.mod.migHead.toNat
  let ctx := bitsN cmd 16 16
  let va := bitsN cmd 64 64
  let e := bitsN cmd 128 64
  let s1 := (s.ctxReads ctx va).foldl (fun u a => u.usePorts 0 8 0 a 8) s.migNext
  match s.badEntry (s.ctxReads ctx va) with
  | some w => (s1.postTable 0 ctx w reportCore 0).migStatus n 5
  | none =>
    match walkCtx s.mem s.ctxtab ctx va with
    | .error _ => s1.migStatus n 5
    | .ok l =>
      let old := l.entry
      if frameBad (pteLoc old) (ptePfn old * 65536) (if l.large then 2 ^ 29 else 65536) ∨ (pteLoc old ≠ 1 ∧ pteModn old ≠ 0) ∨
          pteLost old then s1.migStatus n 5
      else if l.large ∨ s.leafHome e = s.leafHome old ∨
          ((s.localFrame old).any fun f => (s.frame f).testBit 5) then s1.migStatus n 4
      else if pteMg old then s1.migStatus n 6
      else
        let s2 := ((s1.orPte l.pte 256).usePorts 3 8 0 l.pte 8).dropPage ctx va
        let s3 := match s.localFrame old with
          | some f => s2.putFrame f 16 0
          | none => s2
        { s3 with migs := s3.migs ++ [{ n := n, ctx := ctx, va := va, npte := e, pte := l.pte, old := old }] }

def execMigrationMoveStart (s : State) : Host.Outcome State Fault Refusal :=
  if s.migReady ∧ migOk s.migCmd ∧ (s.badIn (s.migAddr s.mod.migHead.toNat) 32).isNone then .next (s.moveStart s.migCmd) else .next s

/-- MIGRATION_BAD_COMMAND: STATUS 0x04. -/
def execMigrationBadCommand (s : State) : Host.Outcome State Fault Refusal :=
  let n := s.mod.migHead.toNat
  if ¬ s.migReady then .next s
  else
    match s.badIn (s.migAddr n) 32 with
    | some w => .next ((s.migNext.postBad 0 0 w reportCore 0).migStatus n 4)
    | none => if migOk s.migCmd then .next s else .next (s.migNext.migStatus n 4)

/-- An access that a bank had translated to a frame is still under way: a fill or a write-back. -/
def Bank.usesFrame (y : Bank) (a : Nat) : Bool :=
  let within (p : Nat) : Bool := decide (a ≤ p ∧ p < a + 65536)
  (y.mapped.any fun r => r.2.fills.any fun f => within f.home) ||
  (y.pipe.vars.any fun v => v.kind == .writeback && (v.writes.getD []).any fun w => match w with
    | .home p _ => within p
    | _ => false)

/-- A direct access that has begun has units left in the frame. -/
def Core.usesFrame (x : Core) (a : Nat) : Bool :=
  x.bank0.usesFrame a || x.bank1.usesFrame a || (x.saved.any fun v => v.bank.usesFrame a) ||
  (({ pipe := { vars := x.orphans.map (·.2) } } : Bank).usesFrame a) ||
  x.direct.any fun d => d.homes.any fun p => decide (a ≤ p.1 ∧ p.1 < a + 65536)

/-- MIGRATION_DRAIN_DONE: every unit has acknowledged; the copy begins. -/
def execMigrationDrainDone (n : Nat) (s : State) : Host.Outcome State Fault Refusal :=
  match s.migs.find? fun m => m.n == n with
  | none => .next s
  | some m =>
    let a := s.leafHome m.old
    if s.cores.any fun e => e.2.usesFrame a then .next s
    else .next { s with migs := s.migs.map fun k => if k.n = n then { k with copying := true } else k }

/-- A MIGRATING fault of a direct access to the page, of a context's bank, that waits for its boundary. -/
def Bank.migLate (y : Bank) (ctx va : Nat) (t : Trap) : Bool :=
  t.cause == 0x13 && t.reg == 4 && t.info.toNat / 65536 == va / 65536 && y.cregs.ctxid.toNat == ctx

/-- Such a fault is answered before it has been reported: its entry is translated afresh (R257). -/
def State.migLateAnswer (s : State) (c b ctx va : Nat) : State :=
  let y := s.bankAt c b
  if y.state = .empty ∨ ¬ y.pipe.late.any (y.migLate ctx va) then s
  else s.modCore c fun x =>
    { x.setBank b (y.modPipe fun q => { q with late := q.late.filter fun t => !y.migLate ctx va t }) with
      direct := x.direct.map fun d => if d.bank = b then { d with faulted := false } else d }

/-- The MIGRATING faults of a page are answered: the banks and entries that met it go on. -/
def State.migAnswer (s : State) (ctx va : Nat) : State :=
  let met (y : Bank) : Bool := bitsN y.cregs.muFinfo.toNat 12 4 == 4 && bitsN y.cregs.muFinfo.toNat 16 16 == ctx &&
    y.cregs.muFva.toNat / 65536 == va / 65536
  s.cores.foldl (fun u e =>
    let u1 := [0, 1].foldl (fun v b =>
      let w := v.migLateAnswer e.1 b ctx va
      if met (w.bankAt e.1 b) then w.unblock e.1 b .fault else w) u
    let go (v : Saved) : Saved := if met v.bank ∧ v.why = some .fault then { v with why := none } else v
    u1.modCore e.1 fun x => { x with saved := x.saved.map go }) s

/-- The command ends: the leaf as given, the faults answered, the status byte last. -/
def State.migEnd (s : State) (m : MigCmd) (leaf st : Nat) : State :=
  let s1 := { s with mem := memPut s.mem m.pte 8 leaf, migs := s.migs.filter fun k => k.n != m.n }.usePorts 3 8 0 m.pte 8
  (s1.migAnswer m.ctx m.va).migStatus m.n st

/-- The command of a number that copies. -/
def State.migOf (s : State) (n : Nat) : Option MigCmd := s.migs.find? fun m => m.n == n && m.copying

/-- The frame table after a commit (R256). -/
def State.migFrames (s : State) (m : MigCmd) : State :=
  let s1 := match s.localFrame m.old with
    | some f => s.putFrame f 0 25
    | none => s
  match s.localFrame m.npte with
  | none => s1
  | some f =>
    let a := frameTable + 16 * f
    (({ s1 with mem := memPut (memPut s1.mem a 8 (m.pte / 8 * 8 % 2 ^ 52)) (a + 8) 2 m.ctx }).usePorts 3 8 0 a 10).putFrame f 1 2

/-- MIGRATION_COMMIT: the page has been copied over links that are UP (R392); the new leaf has A clear and D of the old one. -/
def execMigrationCommit (n : Nat) (s : State) : Host.Outcome State Fault Refusal :=
  match s.migOf n with
  | none => .next s
  | some m =>
    let a := s.leafHome m.old
    let dst := s.leafHome m.npte
    if (s.badIn a 65536).isSome ∨ ¬ s.linkUp a 65536 3 ∨ ¬ s.linkUp dst 65536 3 then .next s
    else
      let s1 := ((s.putHome dst (s.homeBytes a 65536)).usePorts 3 8 0 a 65536).usePorts 3 8 0 dst 65536
      let d := memNat s1.mem m.pte 8 &&& 64
      .next ((s1.migFrames m).migEnd m (setBitsN (setBitsN m.npte 5 1 0) 6 1 (d / 64)) 1)

/-- MIGRATION_LOST: the copy meets uncorrectable data. -/
def execMigrationLost (n : Nat) (s : State) : Host.Outcome State Fault Refusal :=
  match s.migOf n with
  | none => .next s
  | some m =>
    match s.badIn (s.leafHome m.old) 65536 with
    | none => .next s
    | some w =>
      let s1 := s.postBad 0 m.ctx w reportCore 0
      let s2 := match s.localFrame m.old with
        | some f => s1.putFrame f 32 16
        | none => s1
      .next (s2.migEnd m (setBitsN (memNat s.mem m.pte 8) 7 2 1) 2)

/-- MIGRATION_FAIL: a copy has failed twice; the leaf is otherwise unchanged, the monitor learns of it. -/
def execMigrationFail (n : Nat) (s : State) : Host.Outcome State Fault Refusal :=
  match s.migOf n with
  | none => .next s
  | some m =>
    let s1 := match s.localFrame m.old with
      | some f => s.putFrame f 0 16
      | none => s
    let s2 := s1.migEnd m (setBitsN (memNat s1.mem m.pte 8) 8 1 0) 3
    .next (s2.postFlt 0 { kind := 5, info := reportInfo, ctx := m.ctx, addr := ptePfn m.old * 65536, core := reportCore, unit := 0 } .none)

/-- SCRUB_PASS: a frame is read in class 3; single-bit errors are corrected in place, an uncorrectable word of one in use marks its
leaf LOST (R381). DESIGN CHOICE, log 140: its reads set no FA (R252). -/
def execScrubPass (frame : Nat) (s : State) : Host.Outcome State Fault Refusal :=
  if 2 ^ 25 ≤ frame then .fault .noSuchAgent
  else
    let s := (s.correct 0 (frame * 65536) 65536).usePorts 3 8 0 (frame * 65536) 65536
    match s.badIn (frame * 65536) 65536 with
    | none => .next s
    | some w =>
      let a := frameTable + 16 * frame
      let s := s.usePorts 3 8 0 a 16
      let ctx := memNat s.mem (a + 8) 2
      let s1 := s.postBad 0 ctx w reportCore 0
      if ¬ (s.frame frame).testBit 0 then .next s1
      else
        let pte := memNat s.mem a 8 / 8 * 8 % 2 ^ 52
        .next ({ s1 with mem := memPut s1.mem pte 8 (setBitsN (memNat s1.mem pte 8) 7 2 1) }.usePorts 3 8 0 pte 8)

end Sys2Proof.Machine
end

