-- ==== Sys2Proof/Machine/Save.lean ====
section
/-!
DEFINITION. Admission of queued entries (R210, R213, R214), pre-emption and the save of a context (R217, R373 to R376), its
resume (R377), the aging of priorities (R216). An event that is not due leaves the state.
-/

namespace Sys2Proof.Machine

open Sys2Proof

/-! ### The run queue (R214 to R216) -/

def QEntry.prio : QEntry → Nat
  | .fresh _ _ _ _ p _ => p
  | .record _ _ _ p _ _ => p
  | .saved _ p _ => p

def QEntry.waited : QEntry → Nat
  | .fresh _ _ _ _ _ w => w
  | .record _ _ _ _ w _ => w
  | .saved _ _ w => w

/-- The entry with another level and count of waiting. -/
def QEntry.age : QEntry → Nat → Nat → QEntry
  | .fresh l i g n _ _, p, w => .fresh l i g n p w
  | .record l i pc _ _ v, p, w => .record l i pc p w v
  | .saved k _ _, p, w => .saved k p w

/-- The entry that leaves a run queue next: the first of the highest level. -/
def headEntry : List QEntry → Option QEntry
  | [] => none
  | q :: l =>
    match headEntry l with
    | some r => if q.prio < r.prio then some r else some q
    | none => some q

/-- The RDV at which a saved task waits has met or has waited longer than 2^24 cycles (R110, R214). -/
def State.rdvResolved (s : State) (c : Nat) (y : Bank) : Bool :=
  match y.task.rdvAt with
  | none => true
  | some g =>
    let k := Tab.get 0 y.task.rdvs g + 1
    decide (2 ^ 24 < y.pipe.held) || s.partnersMet c y.task g k

/-- The cause for which a saved context waits has resolved (R214). -/
def State.resolved (s : State) (c : Nat) (v : Saved) : Bool :=
  match v.why with
  | none => true
  | some .wait => v.bank.pipe.waits.all fun k => !v.bank.regs.rsb k
  | some .rendezvous => s.rdvResolved c v.bank
  | _ => false

/-- Saved contexts whose cause has resolved join their core's queue while it has room (R209, R214); each has waited as long as its
task had (R216). -/
def State.requeue (s : State) (c : Nat) : State :=
  s.modCore c fun x =>
    let there (v : Saved) : Bool := x.runQ.any fun q => match q with
      | .saved k _ _ => k == v.area
      | _ => false
    let new : List QEntry := (x.saved.filter fun v => s.resolved c v && !there v).map fun v => .saved v.area v.bank.level v.bank.task.waited
    { x with runQ := x.runQ ++ new.take (8 - x.runQ.length)
             saved := x.saved.map fun v => if s.resolved c v then { v with why := none } else v }

/-- The entry leaves the queue. -/
def Core.dequeue (x : Core) (q : QEntry) : Core := { x with runQ := x.runQ.erase q }

/-- The launch of a queue entry. -/
def State.entryNest (s : State) (c : Nat) (q : QEntry) : Nest := (s.launch ((s.core c).entryTask q).1).nest

/-- R210: the entry's task may share the core with what bank `b`'s neighbour holds. -/
def State.fits (s : State) (c b : Nat) (n : Nest) : Bool :=
  let y := s.bankAt c (1 - b)
  let m := (s.launch y.task.launch).nest
  y.state == .empty || (n.spbanks &&& m.spbanks == 0 && decide (n.accn + m.accn ≤ 32))

/-- The lowest empty bank. -/
def Core.emptyBank? (x : Core) : Option Nat :=
  if x.bank0.state = .empty then some 0 else if x.bank1.state = .empty then some 1 else none

/-! ### Admission (R206 to R210, R213) -/

/-- Partitions follow the banks; the tiles of saved contexts that lie in them are written out first (R210, R376). -/
def State.repart (s : State) (c : Nat) : State :=
  let s1 := s.setPart c
  [0, 1].foldl (fun u b =>
    if (u.bankAt c b).state = .empty then u
    else let p := accPartOf (u.core c).cregs.accPart b; u.spillTiles c p.1 p.2) s1

/-- A task starts in a bank: it has waited as long as its entry (R216), and its arrivals go on from those of its identifier
(R219). -/
def State.startTask (s : State) (c b launch wid prio : Nat) (gang : List Nat) (gid waited : Nat) : State :=
  let l := s.launch launch
  let arrived := (List.range 8).foldl (fun t k => Tab.set 0 t k (Tab.get 0 l.arrivals (wid * 8 + k))) []
  (s.modBank c b fun y =>
    let z := y.start l.nest l.ctx l.argo wid c launch prio gang gid
    { z with task := { z.task with waited := waited, arrivals := arrived } }).repart c

/-- The LIVE registers of the header at a bank's pc. -/
def State.liveAt (s : State) (c b : Nat) : List Nat :=
  match s.fetch c b (s.bankAt c b).pc with
  | .error _ => []
  | .ok w =>
    match decodeSyllableNat w with
    | .ok (.segh _ o) => [o.live0, o.live1, o.live2, o.live3, o.live4, o.live5]
    | _ => []

/-- A record resumes: the task starts, then the nonzero LIVE registers take their saved values (R213). -/
def State.startRecord (s : State) (c b launch wid pc prio waited : Nat) (live : List Word) : State :=
  let s1 := (s.startTask c b launch wid prio [] wid waited).modBank c b fun y =>
    { y with pc := pc, task := { y.task with issued := true } }
  let l := List.zip (s1.liveAt c b) live
  s1.modBank c b fun y => { y with regs := l.foldl (fun r e => r.ws e.1 e.2) y.regs }

/-- The bank that takes the head of a core's queue, when the head is a member of this gang, or alone. -/
def State.gangBank (s : State) (c launch gid : Nat) : Option (Nat × QEntry) :=
  match headEntry (s.core c).runQ, (s.core c).emptyBank? with
  | some q, some b =>
    (match q with
     | .fresh l _ _ g _ _ => if l = launch ∧ g = gid ∧ s.fits c b (s.entryNest c q) then some (b, q) else none
     | _ => none)
  | _, _ => none

/-- A fresh entry enters a bank of its core. -/
def State.admitFresh (s : State) (c b : Nat) (q : QEntry) : State :=
  match q with
  | .fresh l w g n p t =>
    ((s.modCore c fun x => x.dequeue q).startTask c b l w p g n t).modLaunch l fun x => { x with started := x.started + 1 }
  | _ => s

/-- TASK_ADMIT: the head of the queue enters an empty bank; the members of a gang enter together. -/
def execTaskAdmit (c : Nat) (s : State) : Host.Outcome State Fault Refusal :=
  if coreCount ≤ c then .fault .noSuchAgent
  else
    let s := s.requeue c
    match headEntry (s.core c).runQ, (s.core c).emptyBank? with
    | some (.fresh l _ g n _ _), some _ =>
      let ms := g.map fun d => (d, s.gangBank d l n)
      if ms.all fun e => e.2.isSome then
        .next (ms.foldl (fun u e => match e.2 with
          | some (b, q) => u.admitFresh e.1 b q
          | none => u) s)
      else .next s
    | some (.record l w pc p t live), some b =>
      if s.fits c b (s.launch l).nest then
        .next ((s.modCore c fun x => x.dequeue (.record l w pc p t live)).startRecord c b l w pc p t live)
      else .next s
    | _, _ => .next s

/-! ### The save (R373 to R376) -/

/-- The bank is at a boundary: its stall cycles are over, what it has due has landed, nothing of it waits to be taken. -/
def Bank.atBoundary (y : Bank) : Bool :=
  y.state != .empty && decide (y.pipe.nextIssue ≤ y.pipe.clk) && y.pipe.commit.isNone && !y.task.ending &&
  y.pipe.late.isEmpty && y.pipe.mismatch.isEmpty && y.task.kill.isNone && !y.task.suspend && y.dueResult.isNone

/-- A bank's own entries in its core's direct queue. -/
def Core.ownDirect (x : Core) (b : Nat) : List Direct := x.direct.filter fun d => d.bank == b && !d.orphan

/-- The lowest free save area. -/
def Core.freeArea (x : Core) : Option Nat := (List.range 8).find? fun k => !x.saved.any fun v => v.area == k

/-- The bank's save may begin: at a boundary in task mode, no follow-on in flight, an area free. -/
def State.maySave (s : State) (c b : Nat) : Bool :=
  let x := s.core c
  let y := x.bank b
  y.atBoundary && !y.monitor && x.freeArea.isSome &&
  !(y.pipe.vars.any fun v => match v.kind with
    | .follow .. => true
    | _ => false)

/-- The bank can be saved now: its queue entries that have not faulted have been performed as well (R374). -/
def State.savable (s : State) (c b : Nat) : Bool :=
  let x := s.core c
  s.maySave c b && ((x.ownDirect b).all fun d => d.faulted) && x.freeArea.any fun k => s.linkUp (x.saveArea k) saveSize 0

/-- The bank is switched out by a fault. -/
def Bank.faulted (y : Bank) : Bool := y.state == .blocked .fault || y.state == .blocked .linkStall

/-- The cause for which a saved context waits. -/
def Bank.savedWhy (y : Bank) : Option Why :=
  match y.state with
  | .blocked .fault => some .fault
  | .blocked .linkStall => some .linkStall
  | w =>
    if y.task.waitPhase.isSome then some .phase
    else if y.task.rdvAt.isSome then some .rendezvous
    else if w = .blocked .wait then some .wait else none

/-- The save of one bank: latches, eviction, read-out into the lowest free area; slabs, tiles and planes stay. A fault of the
eviction stops it, or registers that hold an uncorrectable error (R378). -/
def State.saveOne (s : State) (c b : Nat) : Except Trap State :=
  match (s.core c).freeArea, s.captureAll c b with
  | none, _ => .ok s
  | _, .error t => .error t
  | some k, .ok s1 =>
    match s1.badIn (vecAddr c b 0) 32768 with
    | some w => .error { cause := 0x15, info := BitVec.ofNat 64 w }
    | none =>
      let s1 := s1.correct (s.bankAt c b).cregs.ctxid.toNat (vecAddr c b 0) 32768
      let x := s1.core c
      let y := x.bank b
      let p := accPartOf x.cregs.accPart b
      let tiles := (List.range p.2).map (p.1 + ·)
      let lat := y.pipe.latches ++ y.pipe.pend.map fun q => q.latchAt y.pipe.clk
      let y1 := { y.invalidate with
        task := { y.task with saving := false }
        pipe := { y.pipe with
          pend := [], latches := lat, entry := none, journal := [], locR := [], locW := [], ctx := {}, divAt := none
          held := if y.task.rdvAt.isSome then y.pipe.held else 0 } }
      let v : Saved := {
        area := k, addr := x.saveArea k, seq := x.saveSeq, bankNo := b, bank := y1, tiles := tiles
        free := x.accFree.filter fun e => tiles.contains (e.1 / 128)
        active := x.active, why := y.savedWhy, entries := x.ownDirect b }
      let s2 := s1.modCore c fun z =>
        { z with direct := z.direct.filter fun d => !(d.bank == b && !d.orphan)
                 saved := z.saved ++ [v], saveSeq := (z.saveSeq + 1) % 2 ^ 64 }
      .ok (((s2.emptyBank c b).storeArea c v).repart c)

/-- The banks of a list are saved together, or a save of them has begun, or none is. -/
def State.markSaving (s : State) (l : List (Nat × Nat)) (on : Bool) : State :=
  l.foldl (fun u e => u.modBank e.1 e.2 fun y => { y with task := { y.task with saving := on } }) s

/-- The banks of a list are saved, all or none: what stops one is taken by it, in the state `held` in which their saves have only
begun; a bank that waits for the answer to a fault goes on waiting (R247). -/
def State.saveEach (held : State) : State → List (Nat × Nat) → State
  | u, [] => u
  | u, e :: l =>
    match u.saveOne e.1 e.2 with
    | .ok v => State.saveEach held v l
    | .error t => if (held.bankAt e.1 e.2).faulted then held else held.takeTrapAt e.1 e.2 t

def State.saveBanks (s : State) (l : List (Nat × Nat)) : State := State.saveEach (s.markSaving l true) s l

/-- The save of a bank alone. -/
def State.saveBank (s : State) (c b : Nat) : State := s.saveBanks [(c, b)]

/-- The bank of a core that holds a member of a gang. -/
def Core.memberBank (x : Core) (t : Task) : Option Nat :=
  if x.bank0.inGang t then some 0 else if x.bank1.inGang t then some 1 else none

/-- The banks that are saved with a bank: itself, or the members of its gang (R217, R373). -/
def State.saveSet (s : State) (c b : Nat) : List (Nat × Nat) :=
  let t := (s.bankAt c b).task
  if t.gang.length ≤ 1 then [(c, b)] else t.gang.filterMap fun d => ((s.core d).memberBank t).map fun m => (d, m)

/-- The save of a bank and of those that go with it begins, goes on or is given up: it takes place once every one of them can be
saved; until then they issue nothing (R373, R374). -/
def State.trySave (s : State) (c b : Nat) : State :=
  let l := s.saveSet c b
  let whole : Bool := decide (l.length = max 1 (s.bankAt c b).task.gang.length)
  if whole ∧ l.all fun e => s.savable e.1 e.2 then s.saveBanks l
  else s.markSaving l (whole && ((l.all fun e => (s.bankAt e.1 e.2).task.saving) || l.all fun e => s.maySave e.1 e.2))

/-- The bank of a core whose save has begun. -/
def Core.saver (x : Core) : Option Nat := if x.bank0.task.saving then some 0 else if x.bank1.task.saving then some 1 else none

/-- A resident task that pre-emption may choose. -/
def Bank.victim (y : Bank) : Bool :=
  y.state != .empty && !y.monitor && decide (y.task.gang.length ≤ 1) && !y.task.ending

/-- The victim of a core: the lower level, then the bank that issued least recently (R373). -/
def Core.victim (x : Core) : Option Nat :=
  match x.bank0.victim, x.bank1.victim with
  | false, false => none
  | true, false => some 0
  | false, true => some 1
  | true, true =>
    if x.bank0.level < x.bank1.level then some 0
    else if x.bank1.level < x.bank0.level then some 1
    else some (1 - x.cur % 2)

/-- A queued entry's level lies above every resident's, and no bank is empty (R215). -/
def Core.preempts (x : Core) : Bool :=
  x.emptyBank?.isNone &&
  (match headEntry x.runQ with
   | some q => decide (x.bank0.level < q.prio ∧ x.bank1.level < q.prio)
   | none => false)

/-- PREEMPTION. -/
def execPreemption (c : Nat) (s : State) : Host.Outcome State Fault Refusal :=
  if coreCount ≤ c then .fault .noSuchAgent
  else
    let s := s.requeue c
    let x := s.core c
    match x.saver, x.victim, x.freeArea with
    | some b, _, _ => .next (s.trySave c b)
    | none, some b, some _ => .next (if x.preempts then s.trySave c b else s)
    | none, _, _ => .next s

/-- The bank is Blocked at a PHASE or an RDV. -/
def Bank.waitsOthers (y : Bank) : Bool := y.state == .blocked .phase || y.state == .blocked .rendezvous

/-- BLOCKED_BANK_SAVE: of two banks Blocked for 4,096 cycles, with an entry queued, the one blocked longer is saved; a gang
whole (R217). DESIGN CHOICE, log 137: of two that have been blocked equally long, bank 0. -/
def execBlockedBankSave (c : Nat) (s : State) : Host.Outcome State Fault Refusal :=
  if coreCount ≤ c then .fault .noSuchAgent
  else
    let s := s.requeue c
    let x := s.core c
    match x.saver with
    | some b => .next (s.trySave c b)
    | none =>
      if ¬ (x.bank0.waitsOthers ∧ x.bank1.waitsOthers ∧ 4096 ≤ x.bothBlocked ∧ x.runQ ≠ []) then .next s
      else .next (s.trySave c (if x.bank0.task.blocked < x.bank1.task.blocked then 1 else 0))

/-! ### Lazy write-out (R376) -/

/-- LAZY_WRITEOUT: slab `n` (kind 0), tile `n` (1) or the planes (2) of a saved context go to its area. -/
def execLazyWriteout (c k kind n : Nat) (s : State) : Host.Outcome State Fault Refusal :=
  match (s.core c).saved.find? fun v => v.area == k with
  | none => .next s
  | some v =>
    if kind = 0 ∧ v.inPool.contains n then .next (s.spillSlab c v n)
    else if kind = 1 ∧ v.tiles.contains n ∧ ¬ v.tilesOut.contains n then .next (s.spillTile c v n)
    else if kind = 2 ∧ v.planes.isNone then .next (s.spillPlane c v)
    else .next s

/-! ### Resume (R377) -/

/-- A slab number after reload. -/
def slabTo (l : List (Nat × Nat)) (k : Nat) : Nat :=
  match l.find? fun e => e.1 == k with
  | some e => e.2
  | none => k

def Place.moved (l : List (Nat × Nat)) : Place → Place
  | .slab k => .slab (slabTo l k)
  | p => p

/-- A write of a result with slabs renamed. -/
def Write.moved (l : List (Nat × Nat)) : Write → Write
  | .slab k x => .slab (slabTo l k) x
  | .slabBits d k n x => .slabBits d (slabTo l k) n x
  | .slabsHeld r => .slabsHeld (r.map (slabTo l))
  | .slabsFree r => .slabsFree (r.map (slabTo l))
  | .m i d => .m i { d with slabs := d.slabs.map (slabTo l) }
  | .park k pl x => .park k (pl.moved l) x
  | .unpark k pl => .unpark k (pl.moved l)
  | w => w

/-- A bank whose slabs have been reloaded elsewhere. -/
def Bank.moved (y : Bank) (l : List (Nat × Nat)) : Bank :=
  { y with
    regs := { y.regs with m := y.regs.m.map fun e => (e.1, { e.2 with slabs := e.2.slabs.map (slabTo l) }) }
    parked := y.parked.map fun e => (e.1, e.2.moved l)
    pipe := { y.pipe with
      latches := y.pipe.latches.map fun p => { p with writes := p.writes.map (Write.moved l) }
      vars := y.pipe.vars.map fun v => { v with writes := v.writes.map fun w => w.map (Write.moved l) } } }

/-- Every write of the save has been performed. -/
def Saved.settled (v : Saved) : Bool := !v.bank.pipe.vars.any fun o => o.kind == .writeback

/-- The parts of the area that a resume reads. -/
def Saved.parts (v : Saved) : List (Nat × Nat) :=
  [(0, 0x40000), (0x340000, 0x8000)] ++ v.slabsOut.map (fun k => (0x40000 + 512 * k, 512)) ++
  v.tilesOut.map (fun t => (0x140000 + 65536 * t, 65536)) ++ (if v.planes.isSome then [(0x348000, 0x10C00)] else [])

/-- The slabs that a bank's names and parked registers hold: those of results in flight are taken and not yet counted (R117). -/
def Bank.slabsNamed (b : Bank) : List Nat :=
  namesSlabs b.regs.m ++ b.parked.filterMap fun e => match e.2 with
    | .slab k => some k
    | _ => none

/-- The task goes on in its bank: slabs, tiles and planes that were written out are reloaded, the latches wait for its next
bundle. -/
def State.resume (s : State) (c : Nat) (v : Saved) (waited : Nat) (new : List Nat) : State :=
  let b := v.bankNo
  let l := List.zip v.slabsOut new
  let y := (s.readBack v).moved l
  let s0 := (v.parts.foldl (fun u e => u.access (v.addr + e.1) e.2) s).spillSlabs c new
  let s1 := s0.modCore c fun x =>
    { x.setBank b { y with
        state := .ready
        task := { y.task with waited := waited, slice := 0, blocked := 0 } } with
      slabs := l.foldl (fun t e => Tab.set 0 t e.2 (vecOfBytes (s.homeBytes (v.addr + 0x40000 + 512 * e.1) 512))) x.slabs
      slabUse := y.slabsNamed.foldl (fun t k => Tab.set 0 t k 1) (y.slabsHeld.foldl (fun t k => Tab.set 0 t k 2) x.slabUse)
      direct := x.direct ++ v.entries.map fun d => { d with faulted := false }
      saved := x.saved.filter fun w => w.area != v.area
      runQ := x.runQ.filter fun q => match q with
        | .saved k _ _ => k != v.area
        | _ => true }
  let s2 := s1.repart c
  let p := accPartOf (s2.core c).cregs.accPart b
  let kept := v.tilesOut.filter fun t => decide (p.1 ≤ t ∧ t < p.1 + p.2)
  s2.modCore c fun x =>
    let x1 := { x with
      acc := kept.foldl (fun a t => (List.range 128).foldl (fun a i =>
        Tab.set 0 a (128 * t + i) (vecOfBytes (s.homeBytes (v.addr + 0x140000 + 65536 * t + 512 * i) 512))) a) x.acc
      accFree := kept.foldl (fun f t => (List.range 128).foldl (fun f i =>
        Tab.set false f (128 * t + i) (Tab.get false v.free (128 * t + i))) f) x.accFree }
    match v.planes with
    | none => x1
    | some q => { x1 with plane0 := s.planeBack v 0x348000 q.1, plane1 := s.planeBack v 0x350000 q.2
                          active := (s.saveNat v 0 8).testBit 11 }

/-- CONTEXT_RESUME: the saved context of area `k` re-enters its bank; an area that reads as uncorrectable kills its task. -/
def execContextResume (c k : Nat) (s : State) : Host.Outcome State Fault Refusal :=
  if coreCount ≤ c then .fault .noSuchAgent
  else
    let s := s.requeue c
    let x := s.core c
    match headEntry x.runQ, x.saved.find? fun v => v.area == k with
    | some (.saved a _ t), some v =>
      let b : Nat := v.bankNo
      let pool : List Nat := v.inPool
      let free := x.freeList.filter fun n => !pool.contains n
      let lone : Bool := (x.bank (1 - b)).state == .empty
      if a ≠ k ∨ (x.bank b).state ≠ .empty ∨ ¬ s.fits c b (s.launch v.bank.task.launch).nest ∨ ¬ v.settled ∨
          ¬ s.linkUp v.addr saveSize 0 ∨ (v.planes.isSome ∧ ¬ lone) ∨ free.length < v.slabsOut.length then .next s
      else
        match v.parts.findSome? fun e => s.badIn (v.addr + e.1) e.2 with
        | some w => .next (s.spillBad c v w)
        | none => .next (s.resume c v t (free.take v.slabsOut.length))
    | _, _ => .next s

/-! ### Aging (R216) -/

/-- A bank that could issue and does not: Ready, or out of its turn with a hold that is none of those of R214. -/
def Bank.waiting (y : Bank) (cur : Bool) : Bool :=
  match y.state with
  | .ready => true
  | .blocked w => !cur && [.fill, .decoder, .directFull, .pushFull, .ramp, .fetch].contains w
  | _ => false

/-- A level raised by one, not above PCAP. -/
def aged (p cap : Nat) : Nat := if p < cap then p + 1 else p

/-- PCAP of a queue entry. -/
def State.entryCap (s : State) (c : Nat) (q : QEntry) : Nat :=
  match q with
  | .saved k _ _ =>
    match (s.core c).saved.find? fun v => v.area == k with
    | some v => v.bank.pcap
    | none => 0
  | _ => (s.entryNest c q).pcap

/-- The level of a saved context in its area. -/
def State.raiseSaved (s : State) (c k p : Nat) : State :=
  match (s.core c).saved.find? fun v => v.area == k with
  | none => s
  | some v =>
    let y := s.readBack v
    let w := { v with bank := { y with cregs := { y.cregs with taskPrio := BitVec.ofNat 64 (p + 16 * y.pcap) } } }
    (s.modSaved c k fun _ => w).storeImage w

/-- PRIORITY_AGING: bank `n` below 2, else entry `n - 2` of the run queue, has waited 2^20 cycles. -/
def execPriorityAging (c n : Nat) (s : State) : Host.Outcome State Fault Refusal :=
  if coreCount ≤ c then .fault .noSuchAgent
  else if n < 2 then
    let y := s.bankAt c n
    if ¬ y.waiting ((s.core c).cur % 2 == n) ∨ y.task.waited < 2 ^ 20 then .next s
    else .next (s.modBank c n fun y =>
      { y with cregs := { y.cregs with taskPrio := BitVec.ofNat 64 (aged y.level y.pcap + 16 * y.pcap) }
               task := { y.task with waited := 0 } })
  else
    match (s.core c).runQ[n - 2]? with
    | none => .next s
    | some q =>
      if q.waited < 2 ^ 20 then .next s
      else
        let p := aged q.prio (s.entryCap c q)
        let s1 := s.modCore c fun x => { x with runQ := x.runQ.set (n - 2) (q.age p 0) }
        .next (match q with
          | .saved k _ _ => s1.raiseSaved c k p
          | _ => s1)

end Sys2Proof.Machine
end

