-- ==== Sys2Proof/Machine/Banks.lean ====
section
/-!
DEFINITION. What happens to a bank between its bundles: results that land (R37, R367), the commit of a segment and what it
releases (R193, R194, R248, R355), suspension points (R107, R109, R212), the end of a task (R108), traps at a boundary (R364,
R369, R370), timeouts (R110, R180), rewinds and replays (R354, R358 to R360), the loop buffer (R85). An event that is not due
leaves the state.
-/

namespace Sys2Proof.Machine

open Sys2Proof

/-! ### Results -/

/-- The result that is due lands, when it is a delivered latch or not as asked. -/
def State.landDue (s : State) (c b : Nat) (latch : Bool) : State :=
  match (s.bankAt c b).dueResult with
  | none => s
  | some p => if p.latch = latch then s.land c b p else s

def execResultWrite (c b : Nat) (s : State) : Host.Outcome State Fault Refusal := .next (s.landDue c b false)

def execLatchDelivery (c b : Nat) (s : State) : Host.Outcome State Fault Refusal := .next (s.landDue c b true)

/-- The operation of a number, in a bank of the core or in a saved context. -/
def Core.varOp (x : Core) (id : Nat) : Option VarOp :=
  match x.bank0.varOp id with
  | some v => some v
  | none =>
    match x.bank1.varOp id with
    | some v => some v
    | none => x.saved.findSome? fun v => v.bank.varOp id

/-- An operation of these kinds whose results are known and whose time has come completes. -/
def State.completeDue (s : State) (c id : Nat) (f : VarKind → Bool) : State :=
  match (s.core c).varOp id with
  | none => s
  | some v => if f v.kind ∧ v.writes.isSome ∧ v.earliest ≤ (s.core c).cycle then s.varDone c id fun o => o else s

def execXlutComplete (c _b id : Nat) (s : State) : Host.Outcome State Fault Refusal := .next (s.completeDue c id (· == .xlut))

def execLdgComplete (c _b id : Nat) (s : State) : Host.Outcome State Fault Refusal := .next (s.completeDue c id (· == .ldg))

def execAmoComplete (c _b id : Nat) (s : State) : Host.Outcome State Fault Refusal := .next (s.completeDue c id (· == .amo))

def execTldGlobalArrival (c _b id : Nat) (s : State) : Host.Outcome State Fault Refusal :=
  .next (s.completeDue c id (· == .tldGlobal))

def execMrecompComplete (c _b id : Nat) (s : State) : Host.Outcome State Fault Refusal :=
  .next (s.completeDue c id (· == .mrecomp))

/-- XLUT_TABLE_ACTIVATE: at a bundle boundary the copy that an XLUTLD has written becomes active (R145). -/
def execXlutTableActivate (c b : Nat) (s : State) : Host.Outcome State Fault Refusal :=
  let y := s.bankAt c b
  match y.pipe.vars.find? fun v => v.kind == .xlutld with
  | none => .next s
  | some v => if y.pipe.nextIssue ≤ y.pipe.clk then .next (s.completeDue c v.id (· == .xlutld)) else .next s

/-! ### Commit (R355) -/

/-- A command is offered to its engine; `none` while its queue is full (R193). -/
def State.offer (s : State) (c b : Nat) (o : Offer) : Option State :=
  let die := c / 64
  let t := (s.bankAt c b).task
  match o.eng with
  | 0 => if (s.core c).cpe0.full then none else some (s.acceptCard c b 0 o.varId o.tok o.bundle o.seed o.cmd)
  | 1 => if (s.core c).cpe1.full then none else some (s.acceptCard c b 1 o.varId o.tok o.bundle o.seed o.cmd)
  | 2 =>
    if (s.cle die).startFull then none
    else some (s.acceptStart die {
      thread := startThread (ofLeBytes o.cmd), ctx := (s.bankAt c b).cregs.ctxid.toNat, block := o.cmd
      src := .push c b t.launch t.wid o.varId o.tok o.bundle })
  | _ => if s.spawnFull die then none else some (s.acceptSpawn c b o.varId o.tok o.cmd)

/-- P[OPD]: a result of the exit bundle's issue + 1, or at once when the push has waited (R193, R194). -/
def State.setFull (s : State) (c b : Nat) (o : Offer) (v : Bool) : State :=
  if o.waited then s.applyWrite c b (.p o.full v) else s.modBank c b fun y => y.launchResult o.slot 1 [.p o.full v]

/-- One push of a commit: what remains of it. -/
def State.releasePush (s : State) (c b : Nat) (o : Offer) : State × List Release :=
  match s.setFull c b o o.waited |>.offer c b o with
  | some u => (u, [])
  | none =>
    if o.q then (s, [.push { o with waited := true }])
    else ((s.setFull c b o true).varDone c o.varId fun v => { v with writes := some [], late := none }, [])

/-- One release of a commit that leaves the core: what remains of it. -/
def State.releaseOut (s : State) (c b : Nat) : Release → State × List Release
  | .direct d => if 64 ≤ (s.core c).direct.length then (s, [.direct d]) else (s.modCore c fun x => { x with direct := x.direct ++ [d] }, [])
  | .push o => s.releasePush c b o
  | r => (s, [r])

def State.releaseAll (s : State) (c b : Nat) : List Release → State × List Release
  | [] => (s, [])
  | r :: l =>
    let q := s.releaseOut c b r
    let t := q.1.releaseAll c b l
    (t.1, q.2 ++ t.2)

/-- A release that leaves the core. -/
def Release.external : Release → Bool
  | .direct _ => true
  | .push _ => true
  | _ => false

/-- The task can be written out as a continuation record at its suspension point (R212). DESIGN CHOICE, log 138: whether or not
another task waits for its bank (R107). -/
def State.recordable (s : State) (c b : Nat) : Bool :=
  let y := s.bankAt c b
  let n := (s.launch y.task.launch).nest
  n.crec && n.gang == 1 && (y.regs.m.all fun e => e.2.kind == 0) && y.parked.isEmpty && y.pipe.latches.isEmpty &&
  (y.pipe.pend.all fun p => decide (p.due ≤ y.pipe.clk)) && ((List.range 7).all fun k => !y.regs.rsb k) &&
  decide ((s.store (c / 64)).length < 65536)

/-- The task's arrival at a phase: its number at that scope (R219). -/
def State.arrive (s : State) (c b scope : Nat) : State :=
  let t := (s.bankAt c b).task
  let k := Tab.get 0 t.arrivals scope + 1
  let s1 := s.modLaunch t.launch fun l => { l with arrivals := Tab.set 0 l.arrivals (t.wid * 8 + scope) k }
  s1.modBank c b fun y => { y with
    state := .blocked .phase, task := { y.task with arrivals := Tab.set 0 y.task.arrivals scope k, waitPhase := some (scope, k) } }

/-- What a commit does to the task itself, once its external effects are released. -/
def State.releaseOwn (s : State) (c b : Nat) : Release → State
  | .phase scope y =>
    let can := y && s.recordable c b
    (s.arrive c b scope).modBank c b fun z => { z with task := { z.task with suspend := can } }
  | .yield =>
    let can := s.recordable c b
    s.modBank c b fun z => { z with state := .ready, task := { z.task with suspend := can } }
  | _ => s

/-- A commit that waits has already made its segment permanent. -/
def Bank.committed (y : Bank) : Bool := y.pipe.commit.isSome && y.pipe.entry.isNone

/-- SEGMENT_COMMIT of a bank whose segment has ended: its releases, the write-backs that its exit bundle captured among them. A
mismatch that will rewind the segment comes first. -/
def State.commitSegment (s : State) (c b : Nat) : State :=
  match (s.bankAt c b).pipe.commit with
  | none => s
  | some (n, rs) =>
    if (s.bankAt c b).pipe.mismatch.any fun e => e.2.2.isNone then s else
    let q := s.releaseAll c b rs
    let wait := q.2.any Release.external
    let s1 := q.1.modBank c b fun z => let y := z.freeBacks; { y with
      task := { y.task with wdog := 0, barked := false }
      pipe := { y.pipe with
        commit := if wait then some (n, q.2) else none, entry := none, journal := [], early := [], unrewindable := false, rewinds := 0 } }
    if wait then s1 else q.2.foldl (fun u r => u.releaseOwn c b r) s1

def execSegmentCommit (c b : Nat) (s : State) : Host.Outcome State Fault Refusal := .next (s.commitSegment c b)

/-! ### Suspension and the end of a task -/

/-- Nothing that the bank wrote is on its way to a home. -/
def State.quiet (s : State) (c b : Nat) : Bool :=
  ((s.core c).ownDirect b).isEmpty && !((s.bankAt c b).pipe.vars.any fun v => v.kind == .writeback)

/-- The 64 bytes of a record (R212). DESIGN CHOICE, log 139: its handle LH is the launch's number modulo 256. -/
def State.recordBytes (s : State) (c b : Nat) : List Byte :=
  let y := s.bankAt c b
  let w := y.task.waitPhase
  leBytes 6 y.pc ++
  leBytes 1 (packFields [4, 1, 3] [(s.launch y.task.launch).nest.prio, bit w.isSome, (w.getD (0, 0)).1]) ++
  leBytes 1 (y.task.launch % 256) ++ leBytes 8 y.task.wid ++
  ((s.liveAt c b).map fun k => leBytes 8 (y.regs.rs k).toNat).flatten

/-- The suspended task is written out; its bank is free. -/
def State.writeRecord (s : State) (c b : Nat) : State :=
  let die := c / 64
  let y := s.bankAt c b
  match freeSlot (s.store die) with
  | none => s.modBank c b fun z => { z with task := { z.task with suspend := false } }
  | some k =>
    let r : Record := { slot := k, order := s.recordNext, launch := y.task.launch, wid := y.task.wid
                        prio := (s.launch y.task.launch).nest.prio, wait := y.task.waitPhase }
    let s1 := s.putHome (recordAddr die k) (s.recordBytes c b)
    (({ s1 with recordNext := s1.recordNext + 1 }.setStore die (s1.store die ++ [r])).emptyBank c b).repart c

/-- A suspended bank goes on: its dirty sectors are captured, what it wrote is performed, its record is written; a fault of a
write-back leaves it resident instead (R247). -/
def State.suspendStep (s : State) (c b : Nat) : State :=
  match s.captureAll c b with
  | .error t =>
    let s1 := s.modBank c b fun z => { z with task := { z.task with suspend := false } }
    if t.switches then s1.touchWalk (c / 64) (s.bankAt c b).cregs.ctxid.toNat t.info.toNat else s1.takeTrapAt c b t
  | .ok s1 => if s1.quiet c b then (s1.drain c b (s1.bankAt c b).pipe.pend.length).writeRecord c b else s1

/-- An ended task whose results and operations are complete leaves its bank (R108). -/
def State.finishTask (s : State) (c b : Nat) : State :=
  let y := s.bankAt c b
  if y.pipe.pend ≠ [] then s.drain c b y.pipe.pend.length
  else if (y.pipe.vars.all fun v => v.kind == .push) ∧ (s.core c).ownDirect b = [] then
    ((s.emptyBank c b).repart c).taskEnded y.task.launch y.task.wid
  else s

/-! ### Traps at a boundary (R364, R365, R369, R370) -/

/-- The trap of lowest cause that waits, when it may be taken now: the stall cycles are over, results due have landed, the segment before has committed;
a fault that switches the bank does not wait for a commit that has begun; a bank that a
fault has switched out takes none before the answer (R241). -/
def Bank.trapDue (y : Bank) : Option Trap :=
  match lowestTrap (y.pipe.late.map some) with
  | none => none
  | some t =>
    if y.state ≠ .empty ∧ ¬ y.faulted ∧ y.pipe.nextIssue ≤ y.pipe.clk ∧ y.dueResult = none ∧
        (y.pipe.commit = none ∨ (t.switches ∧ y.committed)) then some t else none

/-- The trap is taken. -/
def State.takeLate (s : State) (c b : Nat) (t : Trap) : State :=
  (s.modBank c b fun y => y.modPipe fun q => { q with late := q.late.erase t }).takeTrapAt c b t

/-- TRAP_ENTRY: a trap that waits is taken at the boundary. -/
def execTrapEntry (c b : Nat) (s : State) : Host.Outcome State Fault Refusal :=
  match (s.bankAt c b).trapDue with
  | some t => .next (if t.switches then s else s.takeLate c b t)
  | none => .next s

/-- A bank that may issue, by its state. -/
def Bank.alive (y : Bank) : Bool := y.state == .ready || y.state == .running

/-- The core turns to another bank; the one it leaves is Ready. -/
def State.switchTo (s : State) (c b : Nat) : State :=
  s.modCore c fun x =>
    if x.cur = b then x
    else
      let y := x.bank x.cur
      let leave (z : Bank) : Bank := { z with
        state := if z.state = .running then .ready else z.state
        pipe := { z.pipe with entry := if z.pipe.commit.isNone then none else z.pipe.entry } }
      let x1 := x.setBank x.cur (if y.state = .empty then y else leave y)
      { (x1.setBank b { x1.bank b with task := { (x1.bank b).task with slice := 0 } }) with
        cur := b, turn := false, spec := [], specPc := none }

/-- BANK_SWITCH: a page fault or link stall fault of the bank's direct access drains and blocks it; a core whose bank cannot
issue turns to its other, ready one. -/
def execBankSwitch (c b : Nat) (s : State) : Host.Outcome State Fault Refusal :=
  match (s.bankAt c b).trapDue with
  | some t => .next (if t.switches then s.takeLate c b t else s)
  | none =>
    let x := s.core c
    if x.cur = b ∧ ¬ (x.bank b).alive ∧ (x.bank (1 - b)).alive ∧ b < 2 then .next (s.switchTo c (1 - b)) else .next s

/-- The watchdog of a bank that has reached its limit leaves its trap for the next boundary (R369). -/
def State.bark (s : State) (c b : Nat) : Option State :=
  let y := s.bankAt c b
  let n := bitsN (s.core c).cregs.wdog.toNat 0 32
  if y.state = .empty ∨ y.monitor ∨ n = 0 ∨ y.task.wdog < 1024 * n ∨ y.task.barked then none
  else some (s.modBank c b fun z =>
    { z with task := { z.task with barked := true }
             pipe := { z.pipe with late := z.pipe.late ++ [{ cause := 0x41, info := BitVec.ofNat 64 (y.task.wdog / 1024) }] } })

/-- WATCHDOG. -/
def execWatchdog (c b : Nat) (s : State) : Host.Outcome State Fault Refusal := .next ((s.bark c b).getD s)

/-- The RDV at which a bank has held for longer than 2^24 cycles: its arrival is withdrawn and its bundle traps (R110, R221). -/
def State.rdvTimeout (s : State) (c b : Nat) : Option State :=
  let y := s.bankAt c b
  match y.task.rdvAt with
  | some g =>
    if (y.state = .blocked .rendezvous ∨ y.state = .blocked .fetch) ∧ 2 ^ 24 < y.pipe.held then
      some ((s.modBank c b fun z => { z with task := { z.task with rdvAt := none } }).takeTrapAt c b
        { cause := 0x32, info := BitVec.ofNat 64 g })
    else none
  | none => none

/-- RENDEZVOUS_TIMEOUT. -/
def execRendezvousTimeout (c b : Nat) (s : State) : Host.Outcome State Fault Refusal := .next ((s.rdvTimeout c b).getD s)

/-- The chained instruction at which a bank has held for longer than 2^24 cycles: its bundle traps (R180). -/
def State.chainTimeout (s : State) (c b : Nat) : Option State :=
  let y := s.bankAt c b
  if y.task.chainAt.isSome ∧ (y.state = .blocked .chain ∨ y.state = .blocked .fetch) ∧ 2 ^ 24 < y.pipe.held then
    some ((s.modBank c b fun z => { z with task := { z.task with chainAt := none } }).takeTrapAt c b
      { cause := 0x32, slot := 7, info := 8 })
  else none

/-- CHAIN_TIMEOUT. -/
def execChainTimeout (c b : Nat) (s : State) : Host.Outcome State Fault Refusal := .next ((s.chainTimeout c b).getD s)

/-- TIME_SLICE_END: the running bank has had 2,048 cycles and the other is Ready at its level (R211). -/
def execTimeSliceEnd (c : Nat) (s : State) : Host.Outcome State Fault Refusal :=
  let x := s.core c
  let y := x.bank x.cur
  let z := x.bank (1 - x.cur)
  if x.cur < 2 ∧ y.alive ∧ 2048 ≤ y.task.slice ∧ z.state = .ready ∧ z.level = y.level ∧ y.atBoundary then
    .next (s.switchTo c (1 - x.cur))
  else .next s

/-! ### Rewind and replay (R353, R354, R357 to R360) -/

/-- A mismatch of a context's work enters the log of the datapath checkers (R383). -/
def State.logMismatch (s : State) (c ctx unit : Nat) (uncorrectable : Bool) : State :=
  s.logArray c 10 unit ctx uncorrectable (syndrome unit)

/-- A mismatch of a bank's task. -/
def State.logCheck (s : State) (c b unit : Nat) (uncorrectable : Bool) : State :=
  s.logMismatch c (s.bankAt c b).cregs.ctxid.toNat unit uncorrectable

/-- An armed injection that this mismatch is: into this unit's checker (R384). -/
def Core.injects (x : Core) (unit : Nat) : Bool :=
  let n := x.cregs.einjCtl.toNat
  n.testBit 0 && bitsN n 4 4 == 10 && bitsN n 8 4 == unit && bitsN n 2 2 != 0

/-- An injection that is uncorrectable. -/
def Core.injectsTwo (x : Core) (unit : Nat) : Bool := x.injects unit && bitsN x.cregs.einjCtl.toNat 2 2 == 2

/-- The injection has acted. -/
def Core.disarmed (x : Core) (unit : Nat) : Core :=
  if x.injects unit then { x with cregs := { x.cregs with einjCtl := x.cregs.einjCtl &&& 0xFFC } } else x

/-- A mismatch escalates to an uncorrectable error of the task (R359, R360, R378): a record of kind 4 and trap 0x30. -/
def State.escalate (s : State) (c b unit : Nat) : State :=
  let s1 := s.logCheck c b unit true
  (s1.pushFlt (c / 64) { kind := 4, info := reportInfo, ctx := (s1.bankAt c b).cregs.ctxid.toNat, addr := reportAddr, core := c, unit := b }
    .none).takeTrapAt c b { cause := 0x30, info := BitVec.ofNat 64 unit }

/-- A rewind requested by a mismatch of a unit; `two`: it is uncorrectable. -/
def State.rewindFor (s : State) (c b unit : Nat) (two : Bool) : State :=
  let s1 := s.logCheck c b unit false
  let y := s1.bankAt c b
  if two ∨ 2 ≤ y.pipe.rewoundHere then s1.escalate c b unit
  else
    match s1.rewind c b with
    | none => s1.escalate c b unit
    | some s2 =>
      (s2.holdCycles c (4 + 8 * y.pipe.journal.length)).noSpec c

/-- SEGMENT_REWIND: a mismatch in a segment that has not committed. -/
def execSegmentRewind (c b unit : Nat) (s : State) : Host.Outcome State Fault Refusal :=
  let y := s.bankAt c b
  if y.state = .empty ∨ y.pipe.entry = none ∨ 4 < unit then .next s
  else .next ((s.modCore c fun x => x.disarmed unit).rewindFor c b unit ((s.core c).injectsTwo unit))

/-- A result of a committed segment that is still in flight. -/
def Bank.oldResult (y : Bank) : Option Pending :=
  firstPend (y.pipe.pend.filter fun p => decide (p.segNo < y.pipe.segNo) || (y.pipe.entry.isNone && y.seg.isNone))

/-- The unit repeats the operation of result `seq`, whose segment has committed; the third mismatch escalates. -/
def State.replayFor (s : State) (c b unit : Nat) (two : Bool) (seq : Nat) : State :=
  let y := s.bankAt c b
  let n := if y.pipe.replayed.1 = seq ∧ y.pipe.replayed.2 ≠ 0 then y.pipe.replayed.2 + 1 else 1
  let s1 := (s.logCheck c b unit false).modBank c b fun z => z.modPipe fun q => { q with replayed := (seq, n) }
  if two ∨ 3 ≤ n then s1.escalate c b unit else s1.holdCycles c 1

/-- LOCAL_REPLAY: the unit repeats an operation of a committed segment. -/
def execLocalReplay (c b unit : Nat) (s : State) : Host.Outcome State Fault Refusal :=
  match (s.bankAt c b).oldResult with
  | none => .next s
  | some p =>
    if 4 < unit then .next s
    else .next ((s.modCore c fun x => x.disarmed unit).replayFor c b unit ((s.core c).injectsTwo unit) p.seq)

/-- The first mismatch of a bank that its checkers have found is answered (R354). -/
def State.answerMismatch (s : State) (c b : Nat) : Option State :=
  match (s.bankAt c b).pipe.mismatch with
  | [] => none
  | (unit, two, what) :: l =>
    let s1 := s.modBank c b fun y => y.modPipe fun q => { q with mismatch := l }
    some (match what with
      | none => s1.rewindFor c b unit two
      | some seq => s1.replayFor c b unit two seq)

/-- A mismatch in a unit of a copy engine's job, or of an operation of a collective engine (`e` 2, the die in place of the core):
the unit is repeated once, the second mismatch ends the job or thread with ABORT (R354, R378). -/
def State.engineMismatch (s : State) (c e k : Nat) : State :=
  let log (core ctx : Nat) (bad : Bool) (u : State) : State := u.logMismatch core ctx engineUnit bad
  let report (die ctx core unit : Nat) (u : State) : State :=
    u.pushFlt die { kind := 4, info := reportInfo, ctx := ctx, addr := reportAddr, core := core, unit := unit } .none
  if e < 2 then
    match s.card c e k with
    | none => s
    | some d =>
      if ¬ d.started ∨ d.status.isSome then s
      else if d.repeated then report (c / 64) d.ctx c (d.bank + 2 * (e + 1)) ((log c d.ctx true s).endCard c e d 2)
      else (log c d.ctx false s).setCard c e { d with repeated := true }
  else
    match (s.cle c).op k with
    | none => s
    | some o =>
      if ¬ o.repeated then (log (c * 64) o.ctx false s).modCle c fun x => x.modOp k fun p => { p with repeated := true }
      else
        (report c o.ctx (c * 64) (6 + 8 * o.thread.getD 0) (log (c * 64) o.ctx true s)).loseOp c o 2

/-! ### The loop buffer and the address stream (R44 to R47, R85) -/

/-- A half of the loop buffer that holds the segment that starts at an address: the cycle from which it stands whole. -/
def halfWhole (h : Option (Nat × Nat × Nat)) (launch addr : Nat) : Option Nat :=
  h.bind fun e => if e.1 = launch ∧ e.2.1 = addr then some e.2.2 else none

/-- The cycle from which the segment stands whole in the loop buffer; none of one that is not there. -/
def Core.whole (x : Core) (launch addr : Nat) : Option Nat := (halfWhole x.loop0 launch addr).or (halfWhole x.loop1 launch addr)

/-- The segment takes the half that does not execute, and stands whole from a cycle on. -/
def Core.loadSegment (x : Core) (launch addr from_ : Nat) : Core :=
  if x.loopAt = 0 then { x with loop1 := some (launch, addr, from_) } else { x with loop0 := some (launch, addr, from_) }

/-- The half that holds a segment executes. -/
def Core.useHalf (x : Core) (launch addr : Nat) : Core :=
  { x with loopAt := if (halfWhole x.loop0 launch addr).isSome then 0 else 1 }

/-- The address of the segment in which a bank's next bundle lies. -/
def Bank.segAddr (y : Bank) : Nat :=
  match y.seg with
  | some g => g.addr
  | none => y.pc

/-- The entries that a walk of a launch's tables reads. -/
def Launch.codeReads (l : Launch) (ctx va : Nat) : List Nat :=
  let a := bitsN l.snapCtx.toNat 16 36 * 2 ^ 16 + 8 * ctx
  a :: walkReads l.snap va 3 0 (bitsN (memNat l.snap a 8) 16 36 * 2 ^ 16)

/-- A syllable of code as the fetch unit reads it: a page fault, a link that is not UP, a word that reads as uncorrectable,
or the syllable; the leaf's A bit is set (R86, R236, R238, R379, R392). -/
def State.fetchCode (s : State) (c b pc : Nat) : Except Trap (Nat × State) :=
  let y := s.bankAt c b
  let va := pc * 16 % 2 ^ 55
  let l := s.launch y.task.launch
  let ctx := y.cregs.ctxid.toNat
  match s.checkedWalk (walkCtx l.snap (bitsN l.snapCtx.toNat 16 36 * 2 ^ 16) ctx va) (l.codeReads ctx va) with
  | .error e => .error (trTrap e va 5)
  | .ok lf =>
    match leafAddr s.modn lf va .fetch (!y.monitor) false with
    | .error e => .error (trTrap e va 5)
    | .ok a =>
      if ¬ s.linkUp a 16 0 then .error { cause := 0x14, info := BitVec.ofNat 64 va, need := some (a, 16, 0) }
      else
        match s.badIn a 16 with
        | some w => .error { cause := 0x15, info := BitVec.ofNat 64 w }
        | none =>
          let e := memNat s.mem lf.pte 8
          let s1 := if pteV e ∧ ¬ pteA e ∧ ptePfn e = ptePfn lf.entry then s.setPte (c / 64) lf.pte 32 else s
          .ok (memNat l.snap a 16, (s1.touchFrames a 16).usePorts 0 (c / 64) 0 a 16)

/-- The syllables of a segment from `pc` on are read, `n` of its bundles, `fuel` syllables at most. -/
def State.expand (s : State) (c b : Nat) : Nat → Nat → Nat → Except Trap State
  | 0, _, _ => .ok s
  | fuel + 1, pc, n =>
    if n = 0 then .ok s
    else
      match s.fetchCode c b (pc % 2 ^ 48) with
      | .error t => .error t
      | .ok (w, s1) => s1.expand c b fuel (pc + 1) (if w.testBit 124 then n - 1 else n)

/-- The segment at an address, if it is not in the loop buffer, is expanded into the half that does not execute, one bundle a
core cycle once its first syllable has arrived (R85, R250). -/
def State.fetchSegment (s : State) (c b addr : Nat) : Except Trap State :=
  let y := s.bankAt c b
  let l := y.task.launch
  if ((s.core c).whole l addr).isSome then .ok s
  else
    match (s.touchWalk (c / 64) y.cregs.ctxid.toNat (addr * 16 % 2 ^ 55)).fetchCode c b addr with
    | .error t => .error t
    | .ok (w, s1) =>
      let n := if isSegh w then bitsN w 86 8 else 0
      let now := (s.core c).cycle
      match s1.expand c b 2048 (addr + 1) n with
      | .error t => .error t
      | .ok s2 => .ok (s2.modCore c fun x => x.loadSegment l addr (now + fetchArrival c now + n + 1))

/-- A segment is expanded ahead; a prefetch that meets a fault is dropped (R241). -/
def State.fetchAhead (s : State) (c b addr : Nat) : State :=
  match s.fetchSegment c b addr with
  | .ok u => u
  | .error t => s.dropAhead c b t

/-- A header has issued: the fetch unit begins to expand its BRP successor, or its NEXT successor when BRP is 0; a prefetch that
meets a fault is dropped (R85, R241). -/
def State.prefetchNext (s : State) (c b : Nat) : State :=
  match (s.bankAt c b).seg with
  | none => s
  | some g =>
    s.fetchAhead c b (if g.hdr.brp = 0 then g.next else wrapN 48 ((g.addr : Int) + sext22 g.hdr.brp))

/-- SEGMENT_FETCH. -/
def execSegmentFetch (c b addr : Nat) (s : State) : Host.Outcome State Fault Refusal :=
  if (s.bankAt c b).state = .empty then .next s
  else .next (s.fetchAhead c b addr)

end Sys2Proof.Machine
end

