-- ==== Sys2Proof/Machine/Events.lean ====
section
/-!
DEFINITION. The address stream (R44 to R47): it executes the marked address instructions of the bundles ahead on a speculative
copy of the A registers, waits for what other syllables are still to write, and starts fills that bind nothing.
-/

namespace Sys2Proof.Machine

open Sys2Proof

/-- The plan of an address instruction that writes an A register. -/
def addressPlan (i : Instr) (s : State) : Option (Hdr × Plan) :=
  match i with
  | .amov h d a dir => if dir < 2 then some (h, planAmov d a dir s) else none
  | .aadd h d a b => some (h, planAadd d a b s)
  | .aaddi h d a imm => some (h, addr1 (fun x => x + sext48 imm) d a none s)
  | .awrap h d a step bound => some (h, planAwrap d a step bound s)
  | .aidx h d a ents => some (h, planAidx d a ents s)
  | _ => none

/-- The plan of an L-slot access to scratchpad. -/
def accessPlan (i : Instr) (s : State) : Option (Hdr × Plan) :=
  match i with
  | .lds h d base disp size sx => some (h, planLds d base disp size sx s)
  | .sts h r base disp size => some (h, planSts r base disp size s)
  | .ldv h d base disp opb opc ew st m zi => some (h, planLdv d base disp opb opc ew st m zi s)
  | .stv h r base disp opb opc ew st m => some (h, planStv r base disp opb opc ew st m s)
  | .ldvg h d base disp opb opc ew m zi sc => some (h, planLdvg d base disp opb opc ew m zi sc s)
  | .stvs h r base disp opb opc ew m sc => some (h, planStvs r base disp opb opc ew m sc s)
  | .tld h d base disp g => if g then none else some (h, planTld d base disp g s)
  | .tst h r base disp => some (h, planTst r base disp s)
  | _ => none

/-- The S, A and P registers that a syllable names as destinations. -/
def addressDests : Instr → List RegRef
  | .add _ d _ _ | .sub _ d _ _ | .addi _ d _ _ | .mul _ d _ _ | .mulh _ d _ _ | .mulhu _ d _ _ | .div _ d _ _
  | .divu _ d _ _ | .rem _ d _ _ | .remu _ d _ _ | .and_ _ d _ _ | .or_ _ d _ _ | .xor_ _ d _ _ | .andn _ d _ _
  | .shl _ d _ _ | .shr _ d _ _ | .sra _ d _ _ | .rotr _ d _ _ | .clz _ d _ _ | .cls _ d _ _ | .ctz _ d _ _
  | .popc _ d _ _ | .min_ _ d _ _ | .max_ _ d _ _ | .minu _ d _ _ | .maxu _ d _ _ | .sel _ d _ _ _ | .movi _ d _
  | .bfx _ d _ _ _ _ | .bfi _ d _ _ _ | .sext _ d _ _ | .zext _ d _ _ | .widf _ d _ | .call _ d _ | .loopn _ d _
  | .getc _ d _ | .getcx _ d _ | .slabq _ d _ | .rampq _ d | .lds _ d _ _ _ _ | .amo _ d _ _ _ _ _ _ _
  | .mqry _ d _ _ _ => refsOf [(.s, d, 0)]
  | .cmp _ d _ _ _ | .pand _ d _ _ | .por _ d _ _ | .pxor _ d _ _ | .pnot _ d _ => refsOf [(.p, d, 0)]
  | .amov _ d _ dir => refsOf [(if dir < 2 then .a else .s, d, 0)]
  | .aadd _ d _ _ | .aaddi _ d _ _ | .awrap _ d _ _ _ | .aidx _ d _ _ => refsOf [(.a, d, 0)]
  | .ldg _ d _ _ _ _ v => if v then [] else refsOf [(.s, d, 0)]
  | .push _ d _ opd _ | .pushq _ d _ opd _ => refsOf [(.s, d, 0), (.p, opd, 4)]
  | .vext _ o | .qpopc _ o => refsOf [(.s, o.dst, 0)]
  | _ => []

/-- A syllable that ends what the stream may run over: a branch, or the end of the segment (R45). -/
def stopsStream : Instr → Bool
  | .br .. | .brc .. | .call .. | .ret .. | .loopn .. | .yield .. | .end_ .. | .eret .. => true
  | _ => false

/-- A prefetch of the sectors that an access would wait for; one that cannot start is dropped (R241). -/
def State.prefetch (s : State) (c b : Nat) (p : Plan) : State :=
  ((s.bankAt c b).touchWaits p.touches).foldl (fun u e =>
    match u.startFill c b e.1 e.2 with
    | .ok v => v
    | .error t => u.dropAhead c b t) s

/-- The A registers as the stream sees them. -/
def specRegs (a : Tab Word) (l : Tab (Option Word)) : Tab Word :=
  l.foldl (fun t e => match e.2 with
    | some v => Tab.set 0 t e.1 v
    | none => t) a

/-- The state as the stream sees it: the speculative copy stands for the A registers. -/
def State.streamView (s : State) (c b : Nat) : State :=
  { s.modBank c b (fun y => { y with regs := { y.regs with a := specRegs y.regs.a (s.core c).spec } }) with focus := .core c }

/-- A register that the stream must wait for: its write is in flight, or a syllable outside the stream is still to make it; an A
register whose speculative value stands is none (R45). -/
def State.streamWaits (s : State) (c b : Nat) (ahead : List RegRef) (r : RegRef) : Bool :=
  let q := (s.bankAt c b).pipe
  !(r.fam == Fam.a && (Tab.get none (s.core c).spec r.idx).isSome) &&
  (ahead.contains r || q.pend.any (fun p => p.writes.any fun w => w.ref == some r) ||
    q.vars.any fun v => v.reg == some r && !v.dropped)

/-- The syllable of the stream with its plan: a marked address instruction or access. -/
def streamed (i : Instr) (s : State) : Option (Hdr × Plan) := ((addressPlan i s).or (accessPlan i s)).filter fun e => e.1.asMark

/-- A bundle of the stream may execute: no syllable of it ends the stream, and what its marked syllables read has been written. -/
def State.streamReady (s : State) (c b : Nat) (ahead : List RegRef) (l : List Instr) : Bool :=
  let v := s.streamView c b
  l.all fun i => !stopsStream i && (match streamed i v with
    | none => true
    | some (h, p) =>
      ((if h.pnum = 0 then [] else [RegRef.mk .p h.pnum]) ++ p.reads).all fun r =>
        !((r.fam == Fam.s || r.fam == Fam.a || r.fam == Fam.p) && s.streamWaits c b ahead r))

/-- The speculative copy after a syllable: what a marked address instruction writes; a write from outside the stream leaves the
register to its architectural value. -/
def specWrite (v : State) (y : Bank) (t : Tab (Option Word)) (i : Instr) : Tab (Option Word) :=
  match (addressPlan i v).filter fun e => e.1.asMark with
  | some (h, p) =>
    if ¬ y.predTrue h ∨ p.out ≠ .go then t
    else ((p.results.map (·.2)).flatten).foldl (fun u w => match w with
      | .a k n => Tab.set none u k (some n)
      | _ => u) t
  | none => ((addressDests i).filter fun r => r.fam == Fam.a).foldl (fun u r => Tab.set none u r.idx none) t

/-- An access prefetches, unless it would not be performed or would trap (R44, R46). -/
def State.streamAccess (s : State) (c b : Nat) (v : State) (i : Instr) : State :=
  match (accessPlan i v).filter fun e => e.1.asMark with
  | none => s
  | some (h, p) =>
    let y := s.bankAt c b
    if ¬ y.predTrue h ∨ (y.touchTrap p.touches).isSome then s
    else
      match p.out with
      | .trap _ => s
      | _ => s.prefetch c b p

/-- The stream executes a bundle. -/
def State.streamBundle (s : State) (c b : Nat) (l : List Instr) : State :=
  let v := s.streamView c b
  let s1 := l.foldl (fun u i => u.streamAccess c b v i) s
  s1.modCore c fun x => { x with spec := l.foldl (specWrite v (s.bankAt c b)) x.spec }

/-- The decoded syllables of a bundle of code, `fuel` at most. -/
def State.bundleAt (s : State) (c b : Nat) : Nat → Nat → Option (List Instr)
  | 0, _ => none
  | fuel + 1, pc =>
    match s.fetch c b pc with
    | .error _ => none
    | .ok w =>
      match decodeSyllableNat w with
      | .error _ => none
      | .ok i =>
        if w.testBit 124 then some [i]
        else
          match s.bundleAt c b fuel (pc + 1) with
          | none => none
          | some l => some (i :: l)

/-- The bundles from `pc` up to `stop`, `fuel` at most. -/
def State.bundlesTo (s : State) (c b : Nat) (stop : Nat) : Nat → Nat → List (List Instr)
  | 0, _ => []
  | fuel + 1, pc =>
    if stop ≤ pc then []
    else
      match s.bundleAt c b 8 pc with
      | none => []
      | some l => l :: s.bundlesTo c b stop fuel (pc + l.length)

/-- The registers that the syllables of a bundle outside the stream write. -/
def outsideDests (v : State) (l : List Instr) : List RegRef :=
  ((l.filter fun i => ((addressPlan i v).filter fun e => e.1.asMark).isNone).map addressDests).flatten

/-- ADDRESS_STREAM_RUN: the stream executes one more bundle ahead of the compute stream. -/
def execAddressStreamRun (c b : Nat) (s : State) : Host.Outcome State Fault Refusal :=
  let y := s.bankAt c b
  match y.seg with
  | none => .next s
  | some g =>
    if (s.core c).cur ≠ b ∨ ¬ cctlAse y.cregs.cctl ∨ y.state = .empty then .next s
    else
      let ahead := (s.core c).specPc.filter fun p => decide (y.pc ≤ p)
      let p := ahead.getD y.pc
      let s1 := s.modCore c fun x => if ahead.isSome then x else { x with spec := [], specPc := some p }
      let past := s1.bundlesTo c b p 33 y.pc
      if 32 ≤ past.length ∨ g.hdr.len < g.idx + past.length then .next s1
      else
        match s1.bundleAt c b 8 p with
        | none => .next s1
        | some l =>
          if ¬ s1.streamReady c b ((past.map (outsideDests s1)).flatten) l then .next s1
          else .next ((s1.streamBundle c b l).modCore c fun x => { x with specPc := some (p + l.length) })

end Sys2Proof.Machine
end

