-- ==== Sys2Proof/Machine/Dispatch.lean ====
section
/-!
DEFINITION. Dispatch: each instruction's arm calls its meaning.
-/

namespace Sys2Proof.Machine

open Sys2Proof

/-- One instruction, run on a state. -/
def exec (i : Instr) (s : State) : Host.Outcome State Fault Refusal :=
  match i with
  | .add h d a b => Sys2Proof.Machine.execAdd h d a b s
  | .sub h d a b => Sys2Proof.Machine.execSub h d a b s
  | .addi h d a imm => Sys2Proof.Machine.execAddi h d a imm s
  | .mul h d a b => Sys2Proof.Machine.execMul h d a b s
  | .mulh h d a b => Sys2Proof.Machine.execMulh h d a b s
  | .mulhu h d a b => Sys2Proof.Machine.execMulhu h d a b s
  | .div h d a b => Sys2Proof.Machine.execDiv h d a b s
  | .divu h d a b => Sys2Proof.Machine.execDivu h d a b s
  | .rem h d a b => Sys2Proof.Machine.execRem h d a b s
  | .remu h d a b => Sys2Proof.Machine.execRemu h d a b s
  | .and_ h d a b => Sys2Proof.Machine.execAnd h d a b s
  | .or_ h d a b => Sys2Proof.Machine.execOr h d a b s
  | .xor_ h d a b => Sys2Proof.Machine.execXor h d a b s
  | .andn h d a b => Sys2Proof.Machine.execAndn h d a b s
  | .shl h d a b => Sys2Proof.Machine.execShl h d a b s
  | .shr h d a b => Sys2Proof.Machine.execShr h d a b s
  | .sra h d a b => Sys2Proof.Machine.execSra h d a b s
  | .rotr h d a b => Sys2Proof.Machine.execRotr h d a b s
  | .clz h d a w => Sys2Proof.Machine.execClz h d a w s
  | .cls h d a w => Sys2Proof.Machine.execCls h d a w s
  | .ctz h d a w => Sys2Proof.Machine.execCtz h d a w s
  | .popc h d a w => Sys2Proof.Machine.execPopc h d a w s
  | .min_ h d a b => Sys2Proof.Machine.execMin h d a b s
  | .max_ h d a b => Sys2Proof.Machine.execMax h d a b s
  | .minu h d a b => Sys2Proof.Machine.execMinu h d a b s
  | .maxu h d a b => Sys2Proof.Machine.execMaxu h d a b s
  | .sel h d a b c => Sys2Proof.Machine.execSel h d a b c s
  | .cmp h d a b cc => Sys2Proof.Machine.execCmp h d a b cc s
  | .pand h d a b => Sys2Proof.Machine.execPand h d a b s
  | .por h d a b => Sys2Proof.Machine.execPor h d a b s
  | .pxor h d a b => Sys2Proof.Machine.execPxor h d a b s
  | .pnot h d a => Sys2Proof.Machine.execPnot h d a s
  | .movi h d imm => Sys2Proof.Machine.execMovi h d imm s
  | .bfx h d a pos lenm1 sx => Sys2Proof.Machine.execBfx h d a pos lenm1 sx s
  | .bfi h d a pos lenm1 => Sys2Proof.Machine.execBfi h d a pos lenm1 s
  | .sext h d a k => Sys2Proof.Machine.execSext h d a k s
  | .zext h d a k => Sys2Proof.Machine.execZext h d a k s
  | .amov h d a dir => Sys2Proof.Machine.execAmov h d a dir s
  | .aadd h d a b => Sys2Proof.Machine.execAadd h d a b s
  | .aaddi h d a imm => Sys2Proof.Machine.execAaddi h d a imm s
  | .awrap h d a step bound => Sys2Proof.Machine.execAwrap h d a step bound s
  | .aidx h d a ents => Sys2Proof.Machine.execAidx h d a ents s
  | .widf h d k => Sys2Proof.Machine.execWidf h d k s
  | .segh h o => Sys2Proof.Machine.execSegh h o s
  | .nop h => Sys2Proof.Machine.execNop h s
  | .br h off => Sys2Proof.Machine.execBr h off s
  | .brc h a b cc off => Sys2Proof.Machine.execBrc h a b cc off s
  | .call h d off => Sys2Proof.Machine.execCall h d off s
  | .ret h a => Sys2Proof.Machine.execRet h a s
  | .loopn h d off => Sys2Proof.Machine.execLoopn h d off s
  | .yield h => Sys2Proof.Machine.execYield h s
  | .end_ h => Sys2Proof.Machine.execEnd h s
  | .trap h code => Sys2Proof.Machine.execTrap h code s
  | .eret h => Sys2Proof.Machine.execEret h s
  | .rdv h => Sys2Proof.Machine.execRdv h s
  | .phase h scope y => Sys2Proof.Machine.execPhase h scope y s
  | .getc h d idx => Sys2Proof.Machine.execGetc h d idx s
  | .setc h a idx => Sys2Proof.Machine.execSetc h a idx s
  | .getcx h d a => Sys2Proof.Machine.execGetcx h d a s
  | .slabq h d sel => Sys2Proof.Machine.execSlabq h d sel s
  | .muinv h a mode => Sys2Proof.Machine.execMuinv h a mode s
  | .seed h a imm => Sys2Proof.Machine.execSeed h a imm s
  | .rampq h d => Sys2Proof.Machine.execRampq h d s
  | .vadd h o => Sys2Proof.Machine.execVadd h o s
  | .vsub h o => Sys2Proof.Machine.execVsub h o s
  | .vadds h o => Sys2Proof.Machine.execVadds h o s
  | .vsubs h o => Sys2Proof.Machine.execVsubs h o s
  | .vmul h o => Sys2Proof.Machine.execVmul h o s
  | .vmulh h o => Sys2Proof.Machine.execVmulh h o s
  | .vmuls h o => Sys2Proof.Machine.execVmuls h o s
  | .vmac h o => Sys2Proof.Machine.execVmac h o s
  | .vdot4 h o => Sys2Proof.Machine.execVdot4 h o s
  | .vand h o => Sys2Proof.Machine.execVand h o s
  | .vor h o => Sys2Proof.Machine.execVor h o s
  | .vxor h o => Sys2Proof.Machine.execVxor h o s
  | .vandn h o => Sys2Proof.Machine.execVandn h o s
  | .vshl h o => Sys2Proof.Machine.execVshl h o s
  | .vshr h o => Sys2Proof.Machine.execVshr h o s
  | .vsra h o => Sys2Proof.Machine.execVsra h o s
  | .vshrd h o => Sys2Proof.Machine.execVshrd h o s
  | .vshrdCensus h o => Sys2Proof.Machine.execVshrdCensus h o s
  | .vmin h o => Sys2Proof.Machine.execVmin h o s
  | .vmax h o => Sys2Proof.Machine.execVmax h o s
  | .vabs h o => Sys2Proof.Machine.execVabs h o s
  | .vneg h o => Sys2Proof.Machine.execVneg h o s
  | .vcmp h o => Sys2Proof.Machine.execVcmp h o s
  | .vsel h o => Sys2Proof.Machine.execVsel h o s
  | .vclz h o => Sys2Proof.Machine.execVclz h o s
  | .vcls h o => Sys2Proof.Machine.execVcls h o s
  | .vpopc h o => Sys2Proof.Machine.execVpopc h o s
  | .vcnv h o => Sys2Proof.Machine.execVcnv h o s
  | .vpack h o => Sys2Proof.Machine.execVpack h o s
  | .vunpk h o => Sys2Proof.Machine.execVunpk h o s
  | .vperm h o => Sys2Proof.Machine.execVperm h o s
  | .vbcst h o => Sys2Proof.Machine.execVbcst h o s
  | .vslide h o => Sys2Proof.Machine.execVslide h o s
  | .vredadd h o => Sys2Proof.Machine.execVredadd h o s
  | .vredmax h o => Sys2Proof.Machine.execVredmax h o s
  | .vredmin h o => Sys2Proof.Machine.execVredmin h o s
  | .vscan h o => Sys2Proof.Machine.execVscan h o s
  | .vmov h o => Sys2Proof.Machine.execVmov h o s
  | .vins h o => Sys2Proof.Machine.execVins h o s
  | .vext h o => Sys2Proof.Machine.execVext h o s
  | .viota h o => Sys2Proof.Machine.execViota h o s
  | .qand h o => Sys2Proof.Machine.execQand h o s
  | .qor h o => Sys2Proof.Machine.execQor h o s
  | .qxor h o => Sys2Proof.Machine.execQxor h o s
  | .qnot h o => Sys2Proof.Machine.execQnot h o s
  | .qpopc h o => Sys2Proof.Machine.execQpopc h o s
  | .qset h o => Sys2Proof.Machine.execQset h o s
  | .xexp2 h o => Sys2Proof.Machine.execXexp2 h o s
  | .xrcp h o => Sys2Proof.Machine.execXrcp h o s
  | .xrsq h o => Sys2Proof.Machine.execXrsq h o s
  | .xlog2 h o => Sys2Proof.Machine.execXlog2 h o s
  | .xsigm h o => Sys2Proof.Machine.execXsigm h o s
  | .xtanh h o => Sys2Proof.Machine.execXtanh h o s
  | .xlut h o => Sys2Proof.Machine.execXlut h o s
  | .xlutld h base disp => Sys2Proof.Machine.execXlutld h base disp s
  | .xoptm h o => Sys2Proof.Machine.execXoptm h o s
  | .xopta h o => Sys2Proof.Machine.execXopta h o s
  | .lds h d base disp size sx => Sys2Proof.Machine.execLds h d base disp size sx s
  | .sts h r base disp size => Sys2Proof.Machine.execSts h r base disp size s
  | .ldv h d base disp opb opc ew st m zi => Sys2Proof.Machine.execLdv h d base disp opb opc ew st m zi s
  | .stv h r base disp opb opc ew st m => Sys2Proof.Machine.execStv h r base disp opb opc ew st m s
  | .ldvg h d base disp opb opc ew m zi sc => Sys2Proof.Machine.execLdvg h d base disp opb opc ew m zi sc s
  | .stvs h r base disp opb opc ew m sc => Sys2Proof.Machine.execStvs h r base disp opb opc ew m sc s
  | .ldvp h d port => Sys2Proof.Machine.execLdvp h d port s
  | .ldg h d base disp size sx v => Sys2Proof.Machine.execLdg h d base disp size sx v s
  | .stg h r base disp size v => Sys2Proof.Machine.execStg h r base disp size v s
  | .amo h d base disp opb opc op u w8 => Sys2Proof.Machine.execAmo h d base disp opb opc op u w8 s
  | .tld h d base disp g => Sys2Proof.Machine.execTld h d base disp g s
  | .tst h r base disp => Sys2Proof.Machine.execTst h r base disp s
  | .park h r acc => Sys2Proof.Machine.execPark h r acc s
  | .unpark h r => Sys2Proof.Machine.execUnpark h r s
  | .rmap h n base disp va len mode => Sys2Proof.Machine.execRmap h n base disp va len mode s
  | .runmap h n => Sys2Proof.Machine.execRunmap h n s
  | .rfill h n base disp len => Sys2Proof.Machine.execRfill h n base disp len s
  | .rflush h n base disp len => Sys2Proof.Machine.execRflush h n base disp len s
  | .rinv h n base disp len => Sys2Proof.Machine.execRinv h n base disp len s
  | .push h d a opd eng => Sys2Proof.Machine.execPush h d a opd eng s
  | .pushq h d a opd eng => Sys2Proof.Machine.execPushq h d a opd eng s
  | .mldw h a => Sys2Proof.Machine.execMldw h a s
  | .mswap h => Sys2Proof.Machine.execMswap h s
  | .mma h d idx tr acc ch base disp cnt => Sys2Proof.Machine.execMma h d idx tr acc ch base disp cnt s
  | .mmav h d a idx tr acc ch cnt => Sys2Proof.Machine.execMmav h d a idx tr acc ch cnt s
  | .mzero h d => Sys2Proof.Machine.execMzero h d s
  | .cshd h a b idx tr base disp cnt => Sys2Proof.Machine.execCshd h a b idx tr base disp cnt s
  | .cadd h d a b => Sys2Proof.Machine.execCadd h d a b s
  | .crdv h d a dir idx => Sys2Proof.Machine.execCrdv h d a dir idx s
  | .cwrv h d a dir idx add => Sys2Proof.Machine.execCwrv h d a dir idx add s
  | .mld h d b tr base disp => Sys2Proof.Machine.execMld h d b tr base disp s
  | .mst h a b base disp => Sys2Proof.Machine.execMst h a b base disp s
  | .mldf h d b tr dn base disp cnt => Sys2Proof.Machine.execMldf h d b tr dn base disp cnt s
  | .mstf h a base disp => Sys2Proof.Machine.execMstf h a base disp s
  | .mlru h d a b dn cnt eg eh => Sys2Proof.Machine.execMlru h d a b dn cnt eg eh s
  | .mlradd h d a b dn => Sys2Proof.Machine.execMlradd h d a b dn s
  | .mlrmul h d a tr sh rm rr => Sys2Proof.Machine.execMlrmul h d a tr sh rm rr s
  | .mrecomp h d a => Sys2Proof.Machine.execMrecomp h d a s
  | .mdense h d a => Sys2Proof.Machine.execMdense h d a s
  | .mqry h d a idx slab => Sys2Proof.Machine.execMqry h d a idx slab s
  | .mfree h d tile => Sys2Proof.Machine.execMfree h d tile s
  | .mget h d a dir idx tr sh rm rr => Sys2Proof.Machine.execMget h d a dir idx tr sh rm rr s
  | .mput h d a dir idx => Sys2Proof.Machine.execMput h d a dir idx s
  | .send ka gs peer ctr cn => Sys2Proof.Machine.execSend ka gs peer ctr cn s
  | .recv ka gs peer ctr cn => Sys2Proof.Machine.execRecv ka gs peer ctr cn s
  | .recvr ka gs peer ctr cn rop rfmt cb clamp => Sys2Proof.Machine.execRecvr ka gs peer ctr cn rop rfmt cb clamp s
  | .lystilCopy ka kb ctr cn => Sys2Proof.Machine.execLystilCopy ka kb ctr cn s
  | .red ka kb ctr cn rop rfmt cb clamp => Sys2Proof.Machine.execRed ka kb ctr cn rop rfmt cb clamp s
  | .lystilWait ctr thr => Sys2Proof.Machine.execLystilWait ctr thr s
  | .sigAdd ctr val => Sys2Proof.Machine.execSigAdd ctr val s
  | .sigRadd gs peer ctr val => Sys2Proof.Machine.execSigRadd gs peer ctr val s
  | .sigSrc => Sys2Proof.Machine.execSigSrc s
  | .sigLoc => Sys2Proof.Machine.execSigLoc s
  | .sigAll gs => Sys2Proof.Machine.execSigAll gs s
  | .sigSet ctr val => Sys2Proof.Machine.execSigSet ctr val s
  | .twait tile => Sys2Proof.Machine.execTwait tile s
  | .tfire tile => Sys2Proof.Machine.execTfire tile s
  | .setkAddr k imm => Sys2Proof.Machine.execSetkAddr k imm s
  | .setkAddrAdd k imm => Sys2Proof.Machine.execSetkAddrAdd k imm s
  | .setkAddrArg k imm => Sys2Proof.Machine.execSetkAddrArg k imm s
  | .setkRlen k imm => Sys2Proof.Machine.execSetkRlen k imm s
  | .setkNrow k imm => Sys2Proof.Machine.execSetkNrow k imm s
  | .setkRstr k imm => Sys2Proof.Machine.execSetkRstr k imm s
  | .lystilLoop ln count => Sys2Proof.Machine.execLystilLoop ln count s
  | .bnz ln off => Sys2Proof.Machine.execBnz ln off s
  | .gjoin gs k inc gid => Sys2Proof.Machine.execGjoin gs k inc gid s
  | .gfree gs => Sys2Proof.Machine.execGfree gs s
  | .lystilEnd => Sys2Proof.Machine.execLystilEnd s
  | .lystilBadop w => Sys2Proof.Machine.execLystilBadop w s
  | .xlutComplete c b id => Sys2Proof.Machine.execXlutComplete c b id s
  | .xlutTableActivate c b => Sys2Proof.Machine.execXlutTableActivate c b s
  | .ldgComplete c b id => Sys2Proof.Machine.execLdgComplete c b id s
  | .amoComplete c b id => Sys2Proof.Machine.execAmoComplete c b id s
  | .tldGlobalArrival c b id => Sys2Proof.Machine.execTldGlobalArrival c b id s
  | .mrecompComplete c b id => Sys2Proof.Machine.execMrecompComplete c b id s
  | .resultWrite c b => Sys2Proof.Machine.execResultWrite c b s
  | .segmentCommit c b => Sys2Proof.Machine.execSegmentCommit c b s
  | .segmentFetch c b addr => Sys2Proof.Machine.execSegmentFetch c b addr s
  | .addressStreamRun c b => Sys2Proof.Machine.execAddressStreamRun c b s
  | .trapEntry c b => Sys2Proof.Machine.execTrapEntry c b s
  | .latchDelivery c b => Sys2Proof.Machine.execLatchDelivery c b s
  | .segmentRewind c b unit => Sys2Proof.Machine.execSegmentRewind c b unit s
  | .localReplay c b unit => Sys2Proof.Machine.execLocalReplay c b unit s
  | .bankSwitch c b => Sys2Proof.Machine.execBankSwitch c b s
  | .fltAnsRetry die seq => Sys2Proof.Machine.execFltAnsRetry die seq s
  | .fltAnsEnd die seq => Sys2Proof.Machine.execFltAnsEnd die seq s
  | .preemption c => Sys2Proof.Machine.execPreemption c s
  | .contextResume c k => Sys2Proof.Machine.execContextResume c k s
  | .lazyWriteout c k kind n => Sys2Proof.Machine.execLazyWriteout c k kind n s
  | .blockedBankSave c => Sys2Proof.Machine.execBlockedBankSave c s
  | .timeSliceEnd c => Sys2Proof.Machine.execTimeSliceEnd c s
  | .priorityAging c n => Sys2Proof.Machine.execPriorityAging c n s
  | .watchdog c b => Sys2Proof.Machine.execWatchdog c b s
  | .rendezvousTimeout c b => Sys2Proof.Machine.execRendezvousTimeout c b s
  | .chainTimeout c b => Sys2Proof.Machine.execChainTimeout c b s
  | .phaseComplete lid scope wid k => Sys2Proof.Machine.execPhaseComplete lid scope wid k s
  | .rampWindow => Sys2Proof.Machine.execRampWindow s
  | .taskAdmit c => Sys2Proof.Machine.execTaskAdmit c s
  | .ramblerPlace lid => Sys2Proof.Machine.execRamblerPlace lid s
  | .ramblerLaunchAccept src => Sys2Proof.Machine.execRamblerLaunchAccept src s
  | .launchComplete lid => Sys2Proof.Machine.execLaunchComplete lid s
  | .feLaunch q => Sys2Proof.Machine.execFeLaunch q s
  | .feSched q => Sys2Proof.Machine.execFeSched q s
  | .feWaitev q => Sys2Proof.Machine.execFeWaitev q s
  | .feSigev q => Sys2Proof.Machine.execFeSigev q s
  | .haltqDrain q => Sys2Proof.Machine.execHaltqDrain q s
  | .haltqKill q => Sys2Proof.Machine.execHaltqKill q s
  | .feBadEntry q => Sys2Proof.Machine.execFeBadEntry q s
  | .fillLands c b r sec => Sys2Proof.Machine.execFillLands c b r sec s
  | .writebackAck c b id => Sys2Proof.Machine.execWritebackAck c b id s
  | .directAccessPerform c b => Sys2Proof.Machine.execDirectAccessPerform c b s
  | .coreWindowAccess c off len wr => Sys2Proof.Machine.execCoreWindowAccess c off len wr s
  | .sweepStep => Sys2Proof.Machine.execSweepStep s
  | .migTailWrite v => Sys2Proof.Machine.execMigTailWrite v s
  | .migrationMoveStart => Sys2Proof.Machine.execMigrationMoveStart s
  | .migrationBadCommand => Sys2Proof.Machine.execMigrationBadCommand s
  | .migrationDrainDone n => Sys2Proof.Machine.execMigrationDrainDone n s
  | .migrationCommit n => Sys2Proof.Machine.execMigrationCommit n s
  | .migrationLost n => Sys2Proof.Machine.execMigrationLost n s
  | .migrationFail n => Sys2Proof.Machine.execMigrationFail n s
  | .scrubPass frame => Sys2Proof.Machine.execScrubPass frame s
  | .copyJob c e k => Sys2Proof.Machine.execCopyJob c e k s
  | .convertJob c e k => Sys2Proof.Machine.execConvertJob c e k s
  | .gatherJob c e k => Sys2Proof.Machine.execGatherJob c e k s
  | .scatterJob c e k => Sys2Proof.Machine.execScatterJob c e k s
  | .fillJob c e k => Sys2Proof.Machine.execFillJob c e k s
  | .decodeJob c e k => Sys2Proof.Machine.execDecodeJob c e k s
  | .decodeBlockDeliver c e => Sys2Proof.Machine.execDecodeBlockDeliver c e s
  | .xformJob c e k => Sys2Proof.Machine.execXformJob c e k s
  | .xfIneedWrite c e v => Sys2Proof.Machine.execXfIneedWrite c e v s
  | .xfIfreeWrite c e v => Sys2Proof.Machine.execXfIfreeWrite c e v s
  | .xfOmarkWrite c e v => Sys2Proof.Machine.execXfOmarkWrite c e v s
  | .xfDoneWrite c e v => Sys2Proof.Machine.execXfDoneWrite c e v s
  | .xformTimeout c e => Sys2Proof.Machine.execXformTimeout c e s
  | .chainJob c e k => Sys2Proof.Machine.execChainJob c e k s
  | .chainCommandEntry c e k => Sys2Proof.Machine.execChainCommandEntry c e k s
  | .chainLoop c e k => Sys2Proof.Machine.execChainLoop c e k s
  | .chainCond c e k => Sys2Proof.Machine.execChainCond c e k s
  | .chainEnd c e k => Sys2Proof.Machine.execChainEnd c e k s
  | .followOnMldw c e k => Sys2Proof.Machine.execFollowOnMldw c e k s
  | .followOnMma c e k => Sys2Proof.Machine.execFollowOnMma c e k s
  | .jobComplete c e k => Sys2Proof.Machine.execJobComplete c e k s
  | .jobPageFault c e k => Sys2Proof.Machine.execJobPageFault c e k s
  | .routineLoadStart c e v => Sys2Proof.Machine.execRoutineLoadStart c e v s
  | .routineLoadComplete c e => Sys2Proof.Machine.execRoutineLoadComplete c e s
  | .scheduleStart die t => Sys2Proof.Machine.execScheduleStart die t s
  | .transferMatch die op => Sys2Proof.Machine.execTransferMatch die op s
  | .operationMilestone die op => Sys2Proof.Machine.execOperationMilestone die op s
  | .counterStep die ctr val => Sys2Proof.Machine.execCounterStep die ctr val s
  | .packetArrival die p => Sys2Proof.Machine.execPacketArrival die p s
  | .remoteAddArrival die => Sys2Proof.Machine.execRemoteAddArrival die s
  | .tileFireLanded die => Sys2Proof.Machine.execTileFireLanded die s
  | .failureMarkerArrival die => Sys2Proof.Machine.execFailureMarkerArrival die s
  | .cleKill die v => Sys2Proof.Machine.execCleKill die v s
  | .flitReceive port f => Sys2Proof.Machine.execFlitReceive port f s
  | .goBack port => Sys2Proof.Machine.execGoBack port s
  | .replayTimeout port => Sys2Proof.Machine.execReplayTimeout port s
  | .lossOfLight unit => Sys2Proof.Machine.execLossOfLight unit s
  | .lossDetected port => Sys2Proof.Machine.execLossDetected port s
  | .restripeAck port ack => Sys2Proof.Machine.execRestripeAck port ack s
  | .retrainStart port => Sys2Proof.Machine.execRetrainStart port s
  | .retrainEnd port lock => Sys2Proof.Machine.execRetrainEnd port lock s
  | .linkCtlRetrain port v => Sys2Proof.Machine.execLinkCtlRetrain port v s
  | .slotBaseWrite port v => Sys2Proof.Machine.execSlotBaseWrite port v s
  | .slotTableLoad port => Sys2Proof.Machine.execSlotTableLoad port s
  | .memorySlot port => Sys2Proof.Machine.execMemorySlot port s
  | .remoteWritePacket port => Sys2Proof.Machine.execRemoteWritePacket port s
  | .remoteWriteAck c e k n => Sys2Proof.Machine.execRemoteWriteAck c e k n s
  | .circuitConnect port dest cap => Sys2Proof.Machine.execCircuitConnect port dest cap s
  | .queueTailWrite q v => Sys2Proof.Machine.execQueueTailWrite q v s
  | .hostWindowAccess off len wr => Sys2Proof.Machine.execHostWindowAccess off len wr s
  | .setq q base size prio => Sys2Proof.Machine.execSetq q base size prio s
  | .startq q => Sys2Proof.Machine.execStartq q s
  | .stopq q => Sys2Proof.Machine.execStopq q s
  | .status => Sys2Proof.Machine.execStatus s
  | .attest nonce => Sys2Proof.Machine.execAttest nonce s
  | .loadfw image valid => Sys2Proof.Machine.execLoadfw image valid s
  | .resetWarm => Sys2Proof.Machine.execResetWarm s
  | .resetCold => Sys2Proof.Machine.execResetCold s
  | .mailboxBadCommand code => Sys2Proof.Machine.execMailboxBadCommand code s
  | .coldStart secs ok => Sys2Proof.Machine.execColdStart secs ok s
  | .warmStart secs ok moved => Sys2Proof.Machine.execWarmStart secs ok moved s
  | .startFailure warm => Sys2Proof.Machine.execStartFailure warm s
  | .telemetrySample rails temps => Sys2Proof.Machine.execTelemetrySample rails temps s
  | .powerCapExceeded lower => Sys2Proof.Machine.execPowerCapExceeded lower s
  | .dieOvertemp die => Sys2Proof.Machine.execDieOvertemp die s
  | .einjArm c v => Sys2Proof.Machine.execEinjArm c v s
  | .elogCntClear c => Sys2Proof.Machine.execElogCntClear c s
  | .rampStepWrite v => Sys2Proof.Machine.execRampStepWrite v s
  | .controlRegisterWrite c idx v => Sys2Proof.Machine.execControlRegisterWrite c idx v s
  | .heartbeat answered => Sys2Proof.Machine.execHeartbeat answered s
  | .microcoreException c e => Sys2Proof.Machine.execMicrocoreException c e s

end Sys2Proof.Machine
end

