-- ==== Sys2Proof/Machine/Issue.lean ====
section
/-!
DEFINITION. How a core issues: the bundle and its decode traps (R77 to R82), WAIT (R35, R73), the syllables together (R7, R13,
R35), what a bank has due between bundles, the choice of a bank (R211, R215), the counts of cycles (R211, R216, R217, R369);
how a schedule thread issues (R313, R314).
-/

namespace Sys2Proof.Machine

open Sys2Proof

/-! ### The bundle -/

/-- Syllables from an address up to the first with E = 1; the address and slot of one that offends the framing; an error of
the fetch. -/
structure Run where
  words : List Nat := []
  offends : Option (Nat × Nat) := none
  error : Option Trap := none
  deriving DecidableEq, Repr

/-- SLOT, E, STALL and WAIT of a syllable (R72). -/
def wordSlot (w : Nat) : Nat := bitsN w 125 3
def wordEnds (w : Nat) : Bool := w.testBit 124
def wordStall (w : Nat) : Nat := bitsN w 119 4
def wordWait (w : Nat) : Nat := bitsN w 113 6

/-- The run of syllables at `pc` (R77): `head` while a segment header may stand there, `prev` the slot before. -/
def State.readRun (s : State) (c b : Nat) (head : Bool) : Nat → Nat → Option Nat → Run
  | 0, pc, _ => { offends := some (pc, 0) }
  | fuel + 1, pc, prev =>
    match s.fetch c b (pc % 2 ^ 48) with
    | .error e => { error := some (trTrap e (pc * 16 % 2 ^ 55) 5) }
    | .ok w =>
      let slot := wordSlot w
      if isSegh w then
        if head then (if wordEnds w then { words := [w] } else { words := [w], offends := some (pc, slot) })
        else { offends := some (pc, slot) }
      else if prev.any (fun p => decide (slot ≤ p)) then { offends := some (pc, slot) }
      else if wordEnds w then { words := [w] }
      else
        let r := s.readRun c b false fuel (pc + 1) (some slot)
        { r with words := w :: r.words }

/-- The trap of a syllable that does not decode, or stands in a place where it must not (R78, R84, R106). -/
def Bank.wordTrap (y : Bank) (k w : Nat) : Option Trap :=
  let t (cause : Nat) : Option Trap := some { cause := cause, slot := wordSlot w, info := BitVec.ofNat 64 ((y.pc + k) % 2 ^ 48) }
  match decodeSyllableNat w with
  | .error .illegalInstruction => t 0x01
  | .error .slotMismatch => t 0x02
  | .ok (.phase ..) => if y.atLast then none else t 0x08
  | .ok (.stg ..) => if y.atExit then none else t 0x08
  | .ok (.amo ..) => if y.atExit then none else t 0x08
  | .ok (.push ..) => if y.atExit then none else t 0x08
  | .ok (.pushq ..) => if y.atExit then none else t 0x08
  | .ok (.rdv ..) => if y.group = 0 then t 0x01 else none
  | .ok _ => none

/-- The decode trap of a run (R78): the lowest code. -/
def Bank.decodeTraps (y : Bank) (r : Run) : Option Trap :=
  let frame : Option Trap := r.offends.map fun e => { cause := 0x03, slot := e.2, info := BitVec.ofNat 64 e.1 }
  let entry : Option Trap :=
    match y.seg, r.words with
    | none, w :: _ => if isSegh w then none else some { cause := 0x04, info := BitVec.ofNat 64 y.pc }
    | _, _ => none
  lowestTrap (mapFrom y.wordTrap 0 r.words ++ [frame, entry, r.error])

/-- The instructions of a run. -/
def Run.instrs (r : Run) : List Instr := r.words.filterMap fun w => (decodeSyllableNat w).toOption

/-- The bundle's effective stall (R73). -/
def Run.stall (r : Run) : Nat := (r.words.map wordStall).foldl max 0

/-- The entries that the bundle's WAIT masks name. -/
def Run.waits (r : Run) : List Nat := (List.range 7).filter fun k => k != 0 && r.words.any fun w => (wordWait w).testBit (k - 1)

/-- An entry will clear at a known cycle of the schedule clock (R35). -/
def Bank.clearsAt (y : Bank) (k : Nat) : Bool := y.pipe.pend.any fun p => p.writes.any fun w => w == .sbClear k

/-- A latch of a trap that the task has returned from will clear the entry (R73, R367). -/
def Bank.clearsLatched (y : Bank) (k : Nat) : Bool :=
  !y.monitor && y.pipe.latches.any fun p => p.writes.any fun w => w == .sbClear k

/-! ### The syllables of a bundle -/

/-- How an attempt to issue ends. -/
inductive Issued where
  /-- the bundle has issued, its trap or fault has been taken, or its arrival at a rendezvous or chain is known -/
  | done (s : State)
  /-- a stall cycle must pass -/
  | stall (s : State)
  /-- the bundle holds -/
  | held (s : State) (w : Why)
  /-- an instruction stops the machine -/
  | stop (o : Host.Outcome State Fault Refusal)

/-- What the syllables so far have come to: the state after those that went, traps, a stall, those that hold. -/
structure Fold where
  st : State
  trap : Option Trap := none
  stall : Bool := false
  holds : List (Nat × Instr × Why) := []
  stop : Option (Host.Outcome State Fault Refusal) := none

/-- The place of the syllable in its bundle is noted. -/
def State.atPlace (s : State) (c b k : Nat) : State := s.modBank c b fun y => y.modCtx fun x => { x with place := k, res := .went }

/-- The destinations that the syllables have named so far (R41). -/
def State.named (s : State) (c b : Nat) (l : List (Nat × RegRef)) : State :=
  s.modBank c b fun y => y.modCtx fun x => { x with dests := l }

/-- One more syllable, at place `k`. -/
def Fold.next (f : Fold) (c b k : Nat) (i : Instr) : Fold :=
  if f.stop.isSome then f
  else
    match exec i (f.st.atPlace c b k) with
    | .next u =>
      let x := (u.bankAt c b).pipe.ctx
      (match x.res with
       | .went => { f with st := u }
       | .trapped t => { f with st := f.st.named c b x.dests, trap := lowestTrap [f.trap, some t] }
       | .stalled => { f with stall := true }
       | .held w => { f with st := f.st.named c b x.dests, holds := f.holds ++ [(k, i, w)] })
    | o => { f with stop := some o }

/-- The syllables of a list with their places, in turn. -/
def Fold.run (c b : Nat) : Fold → List (Nat × Instr) → Fold
  | f, [] => f
  | f, e :: l => Fold.run c b (f.next c b e.1 e.2) l

/-- The instructions of a run with their places. -/
def Run.placed (r : Run) : List (Nat × Instr) := mapFrom (fun k i => (k, i)) 0 r.instrs

/-- A bundle that falls through at LEN needs a header at its successor (R81, R82). -/
def State.fallTrap (s : State) (c b : Nat) : Option Trap :=
  let y := s.bankAt c b
  match y.seg, y.pipe.ctx.ctl with
  | some g, none =>
    if g.idx = g.hdr.len ∧ ¬ s.seghAt c b g.next then some { cause := 0x04, info := BitVec.ofNat 64 g.next } else none
  | _, _ => none

/-- The registers that decide whether an instruction ends its segment and where control goes; `none` of one that moves no
control. -/
def controlReads : Instr → Option (List RegRef)
  | .segh .. => some []
  | .br h _ | .call h _ _ | .yield h | .end_ h => some (refsOf [(.p, h.pnum, 0)])
  | .eret h => some (refsOf [(.p, h.pnum, 0)])
  | .brc h a b _ _ => some (refsOf [(.p, h.pnum, 0), (.s, a, 1), (.s, b, 2)])
  | .ret h a => some (refsOf [(.p, h.pnum, 0), (.s, a, 1)])
  | .loopn h d _ => some (refsOf [(.p, h.pnum, 0), (.s, d, 0)])
  | _ => none

/-- No write of the register is in flight. -/
def Bank.settled (y : Bank) (r : RegRef) : Bool :=
  !(y.pipe.pend.any (fun p => p.writes.any fun w => w.ref == some r) || y.pipe.vars.any fun v => v.reg == some r && !v.dropped)

/-- The branch-target trap that a bundle meets already when it becomes the next to issue (R78): of a transfer, or of the fall
through LEN, that no register in flight decides. One that such a register decides is met at issue (R103). -/
def State.earlyTarget (s : State) (c b : Nat) (r : Run) : Option Trap :=
  let y := s.bankAt c b
  let all := r.placed.filter fun e => (controlReads e.2).isSome
  let now := all.filter fun e => ((controlReads e.2).getD []).all y.settled
  let f := Fold.run c b { st := s } now
  match f.trap with
  | some t => if t.cause = 0x04 then some t else none
  | none => if now.length = all.length then f.st.fallTrap c b else none

/-- The bundle holds for a reason: its cycles of holding begin anew when the reason does, but for a member that has arrived at a
rendezvous, whose count goes on through a fetch (R110). -/
def Bank.holdFor (y : Bank) (w : Why) : Bank :=
  { y with state := .blocked w, pipe := { y.pipe with held := if y.state = .blocked w ∨ y.task.atMeeting then y.pipe.held else 0 } }

/-- What a bundle that issues finds: latches delivered, the rewind point at a return into a segment (R356, R367). -/
def State.prepared (s : State) (c b : Nat) : State :=
  let s1 := s.modBank c b Bank.deliverAt
  let y := s1.bankAt c b
  if y.seg.isSome ∧ y.pipe.entry.isNone then s1.captureEntry c b else s1

/-- The unit code of a slot (R368). -/
def slotUnit (slot : Nat) : Nat := [0, 0, 1, 1, 1, 2, 5, 3].getD slot 5

/-- The unit codes whose slots a bundle uses. -/
def Run.units (r : Run) : List Nat := (r.words.map fun w => slotUnit (wordSlot w)).dedup

/-- The result that a checker will find a mismatch in. -/
def Pending.checked (p : Pending) (seq unit : Nat) (two : Bool) : Pending :=
  if p.seq = seq then { p with check := some (unit, two) } else p

/-- An injection armed for a datapath checker acts on the first operation of its unit (R384): its result in flight, or that of
a variable-latency operation, whose segment has not committed, at once. `n` is the number of the bundle that has issued. -/
def State.checkUnits (s : State) (c b n : Nat) (r : Run) : State :=
  match r.units.find? fun u => (s.core c).injects u with
  | none => s
  | some u =>
    let two := (s.core c).injectsTwo u
    let mine (slot bundle : Nat) : Bool := slotUnit slot == u && bundle == n
    let q := (s.bankAt c b).pipe
    let found (f : Pipe → Pipe) : State := (s.modCore c fun x => x.disarmed u).modBank c b fun y => y.modPipe f
    match q.pend.find? fun p => mine p.slot p.bundle with
    | some p => found fun z => { z with pend := z.pend.map fun e => e.checked p.seq u two }
    | none =>
      if q.entry.isSome ∧ q.vars.any fun v => mine v.slot v.bundle then
        found fun z => { z with mismatch := z.mismatch ++ [(u, two, none)] }
      else s

/-- A hold has made a member's arrival at a rendezvous or a chained instruction known, which its partners see in this cycle
(R110, R180). -/
def Bank.arrived (y z : Bank) : Bool := z.task.rdvAt != y.task.rdvAt || (z.task.chainAt.isSome && y.task.chainAt.isNone)

/-- The first divide of a bundle that stalls is in the divider (R39). -/
def State.keepDivide (s : State) (c b divs : Nat) : State :=
  s.modBank c b fun y => y.modPipe fun q => { q with divAt := q.divAt.or (if divs = 0 then none else some q.clk) }

/-- The bundle has issued: a header begins the expansion of the segment to come (R85); the bundle ends; a checker's injection
acts. -/
def State.issued (s : State) (c b : Nat) (r : Run) (n : Nat) (head : Bool) : State :=
  ((if head then s.prefetchNext c b else s).endBundle c b r.words.length r.stall).checkUnits c b n r

/-- The effects of the syllables that hold, each met at the boundary as it stands: fills start, arrivals become known. -/
def State.holdAll (s : State) (c b : Nat) : List (Nat × Instr × Why) → Host.Outcome State Fault Refusal
  | [] => .next s
  | (k, i, _) :: l =>
    match exec i (s.atPlace c b k) with
    | .next u => (u.modBank c b fun z => z.modCtx fun _ => (s.bankAt c b).pipe.ctx).holdAll c b l
    | o => o

/-- The bundle would not stall but for a latch that its return puts back in flight (R176, R367). -/
def State.waitsLatch (s : State) (c b : Nat) (r : Run) : Bool :=
  !(s.bankAt c b).pipe.latches.isEmpty && !(Fold.run c b { st := s } r.placed).stall

/-- A bundle that issues; `early` is the placement trap that it met before. DEDUCED, log 132: a return bundle that waits in stall
cycles for a latched result has it put back in flight at the first of them. -/
def State.issueRun (s : State) (c b : Nat) (r : Run) (early : Option Trap) : Issued :=
  let y := s.bankAt c b
  let f := Fold.run c b { st := s.prepared c b } r.placed
  match f.stop with
  | some o => .stop o
  | none =>
    if f.stall ∧ early = none then
      .stall ((if s.waitsLatch c b r then s.modBank c b Bank.deliverAt else s).keepDivide c b (f.st.bankAt c b).pipe.ctx.divs)
    else
      match lowestTrap [early, f.trap, f.st.fallTrap c b] with
      | some t => .done (s.takeTrapAt c b t)
      | none =>
        match f.holds with
        | (_, _, w) :: _ =>
          (match s.holdAll c b f.holds with
           | .next u =>
             if y.arrived (u.bankAt c b) then .done (u.modBank c b fun z => z.modPipe fun q => { q with held := 0 })
             else .held (u.modBank c b fun z => z.holdFor w) w
           | o => .stop o)
        | [] => .done (f.st.issued c b r y.pipe.bundle y.seg.isNone)

/-- A bundle whose segment stands whole: its decode traps (R78), its WAIT (R35), its syllables. -/
def State.issueBundle (s : State) (c b : Nat) : Issued :=
  let y := s.bankAt c b
  let r := s.readRun c b y.seg.isNone 9 y.pc none
  let set := r.waits.filter fun k => y.regs.rsb k
  match lowestTrap [y.decodeTraps r, if (y.decodeTraps r).any fun t => decide (t.cause < 4) then none else s.earlyTarget c b r] with
  | some t => if t.cause = 0x08 ∧ set = [] then s.issueRun c b r (some t) else .done (s.takeTrapAt c b t)
  | none =>
    if set = [] then s.issueRun c b r none
    else if set.any y.clearsLatched then .stall (s.modBank c b Bank.deliverAt)
    else if set.any y.clearsAt then .stall s
    else .held (s.modBank c b fun z => (z.holdFor .wait).modPipe fun q => { q with waits := set }) .wait

/-- The bundle is read from the loop buffer: a single-bit error is corrected, an uncorrectable one discards the half, so that the
segment is expanded again (R353, R379, R384). DEDUCED, log 74: bundle k of a segment stands at 128 k in its half, the second half at
32 KiB. -/
def State.readHalf (s : State) (c b : Nat) : State :=
  let x := s.core c
  let y := x.bank b
  let l := y.task.launch
  if (x.whole l y.segAddr).isNone then s
  else
    let h := if (halfWhole x.loop0 l y.segAddr).isSome then 0 else 1
    match s.readArray c 5 (32768 * h + 128 * (y.seg.elim 0 (·.idx))) 128 y.cregs.ctxid.toNat with
    | (u, some (_, true)) => u.modCore c fun z => if h = 0 then { z with loop0 := none } else { z with loop1 := none }
    | (u, _) => u

/-- The next bundle of the bank that issues on the focus core. -/
def State.tryIssue (s : State) (c b : Nat) : Issued :=
  let y := s.bankAt c b
  if y.pipe.clk < y.pipe.nextIssue then .stall s
  else
    match (s.readHalf c b).fetchSegment c b y.segAddr with
    | .error t => .done ((s.readHalf c b).takeTrapAt c b t)
    | .ok s1 =>
      let x := s1.core c
      if x.whole y.task.launch y.segAddr |>.all fun n => decide (n ≤ x.cycle) then
        (s1.modCore c fun z => z.useHalf y.task.launch y.segAddr).issueBundle c b
      else .held (s1.modBank c b fun z => z.holdFor .fetch) .fetch

/-! ### What a bank has due between its bundles -/

/-- A hold whose cause has resolved leaves its bank Ready (R214). -/
def State.wake (s : State) (c b : Nat) : Option State :=
  let y := s.bankAt c b
  let resolved : Bool :=
    match y.state with
    | .blocked .wait => y.pipe.waits.all fun k => !y.regs.rsb k
    | .blocked .rendezvous => y.task.rdvAt.any fun g => s.partnersMet c y.task g (Tab.get 0 y.task.rdvs g + 1)
    | .blocked .chain =>
      let n := y.task.chains + 1
      s.chainsMet c y.task n && (y.task.gang.head?.all fun d => d == c || ((s.core d).member y.task).any fun u => decide (n ≤ u.chains))
    | _ => false
  if resolved then some (s.modBank c b fun z => { z with state := .ready }) else none

/-- What a bank that neither lands, commits nor traps has due: the end of its task, its record, its wait for a phase, the end
of a hold. -/
def State.tendTask (s : State) (c b : Nat) : Option State :=
  let y := s.bankAt c b
  if y.task.ending then
    (if y.pipe.commit.isNone ∧ (y.pipe.pend ≠ [] ∨ ((y.pipe.vars.all fun v => v.kind == .push) ∧ (s.core c).ownDirect b = [])) then
      some (s.finishTask c b)
     else none)
  else if y.task.suspend ∧ y.pipe.commit.isNone then
    (if y.faulted then none
     else if y.dirtySecs ≠ [] ∨ s.quiet c b then some (s.suspendStep c b)
     else none)
  else if y.task.waitPhase.isSome ∧ y.alive ∧ ¬ y.monitor then some (s.modBank c b fun z => { z with state := .blocked .phase })
  else (s.bark c b).or ((s.rdvTimeout c b).or ((s.chainTimeout c b).or (s.wake c b)))

/-- The next thing due on a bank: a result, the answer to a mismatch, a commit, a kill, a trap, what its task has due. A kill
waits for a commit that has begun (R223). DESIGN CHOICE, log 133: a trap that waits for a boundary is taken before the causes of the
bundle that would issue there are looked at, also when one of those has the lower code (R7). -/
def State.tend (s : State) (c b : Nat) : Option State :=
  let y := s.bankAt c b
  if y.state = .empty then none
  else
    match y.dueResult, s.answerMismatch c b with
    | some p, _ => some (s.landDue c b p.latch)
    | none, some u => some u
    | none, none =>
      let s1 := s.commitSegment c b
      if y.pipe.commit.isSome ∧ (¬ y.committed ∨ (s1.bankAt c b).pipe.commit ≠ y.pipe.commit) then some s1
      else
        match y.task.kill.filter fun _ => y.pipe.commit.isNone, y.trapDue with
        | some k, _ => if y.pipe.nextIssue ≤ y.pipe.clk ∨ ¬ y.alive then some (s.killTask c b k) else none
        | none, some t => some (s.takeLate c b t)
        | none, none => s.tendTask c b

/-- An operation that must have completed by now, of a bank or a saved context. -/
def Core.varDue (x : Core) : Option VarOp :=
  let l := x.bank0.pipe.vars ++ x.bank1.pipe.vars ++ (x.saved.map fun v => v.bank.pipe.vars).flatten
  l.find? fun v => v.writes.isSome && v.latest.any fun n => decide (n ≤ x.cycle)

/-! ### The choice of a bank (R211, R215) -/

/-- The bank may try to issue: Ready or Running, or holding at a bundle. -/
def Bank.issuable (y : Bank) : Bool :=
  y.pipe.commit.isNone && !y.task.ending && !y.task.suspend && !y.task.saving && (y.monitor || y.task.waitPhase.isNone) &&
  (match y.state with
   | .empty => false
   | .ready => true
   | .running => true
   | .blocked w => w != .phase && w != .fault && w != .linkStall)

/-- The banks of a core in the order in which they are tried: a bank in its stall cycles goes on; else the higher level; between
equal levels the other bank's turn comes at a segment end and at the end of a time slice. -/
def Core.order (x : Core) : List Nat :=
  let b := x.cur % 2
  let o := 1 - b
  let y := x.bank b
  let z := x.bank o
  if ¬ z.issuable then (if y.issuable then [b] else [])
  else if ¬ y.issuable then [o]
  else if y.pipe.clk < y.pipe.nextIssue then [b]
  else if y.level < z.level ∨ (y.level = z.level ∧ (x.turn ∨ 2048 ≤ y.task.slice)) then [o, b]
  else [b, o]

/-- The banks of a list are tried in turn: the first that does not hold decides; holds leave their marks. The cycle in which a
bank begins to hold passes before the other may issue (R211). -/
def State.tryBanks (s : State) (c : Nat) : List Nat → Option (Host.Outcome State Fault Refusal) × State
  | [] => (none, s)
  | b :: l =>
    let was := (s.core c).cur
    match (s.facing c b).tryIssue c b with
    | .held u w =>
      let v : State := { u.modCore c (fun x => { x with cur := was }) with focus := s.focus }
      if (s.bankAt c b).state ≠ .blocked w then (some (.next (v.holdCycles c 1)), s) else v.tryBanks c l
    | .stop o => (some o, s)
    | _ =>
      match (s.switchTo c b).tryIssue c b with
      | .done u => (some (.next u), s)
      | .stall u => (some (.next (u.passCycles c b 1)), s)
      | .stop o => (some o, s)
      | .held u _ => (some (.next u), s)

/-! ### What goes on while nothing issues -/

/-- The state that an event leaves. -/
def State.after (s : State) (o : Host.Outcome State Fault Refusal) : State :=
  match o with
  | .next u => u
  | _ => s

/-- An entry of the run queue is admitted or resumed. -/
def State.admitNext (s : State) (c : Nat) : Option State :=
  let r := s.requeue c
  let x := r.core c
  let take (u : State) : Option State := if (u.core c).runQ.length < x.runQ.length then some u else none
  if x.emptyBank?.isNone then none
  else
    match headEntry x.runQ with
    | some (.saved k _ _) => take (r.after (execContextResume c k r))
    | some _ => take (r.after (execTaskAdmit c r))
    | none => none

/-- A bank is saved for an entry of the run queue (R215, R217). -/
def State.saveNext (s : State) (c : Nat) : Option State :=
  let x := (s.requeue c).core c
  let went (u : State) : Option State :=
    let z := u.core c
    if z.saved.length ≠ x.saved.length ∨ z.saver ≠ x.saver ∨ z.bank0.state ≠ x.bank0.state ∨ z.bank1.state ≠ x.bank1.state then some u
    else none
  if x.saver.isSome then went (s.after (execPreemption c s))
  else if x.runQ = [] ∨ x.emptyBank?.isSome then none
  else (went (s.after (execPreemption c s))).or (went (s.after (execBlockedBankSave c s)))

/-- The next access of a bank's direct queue is performed. -/
def State.directNext (s : State) (c b : Nat) : Option State :=
  match (s.core c).firstDirect b with
  | some d =>
    if d.faulted then none
    else
      let u := s.after (execDirectAccessPerform c b s)
      if (u.core c).direct = (s.core c).direct then none else some u
  | none => none

/-- An operation whose time has come completes; a write-back is performed. -/
def State.varNext (s : State) (c : Nat) : Option State :=
  let x := s.core c
  ((x.bank0.pipe.vars ++ x.bank1.pipe.vars ++ (x.saved.map fun v => v.bank.pipe.vars).flatten ++ x.orphans.map (·.2)).find? fun v =>
    v.writes.isSome && decide (v.earliest ≤ x.cycle) && (v.kind != .writeback || (s.writebackOf c v.id).isSome)).map fun v =>
      if v.kind = .writeback then s.after (execWritebackAck c 0 v.id s) else s.varDone c v.id fun o => o

/-- A fill of a bank lands. -/
def State.fillNext (s : State) (c b : Nat) : Option State :=
  let y := s.bankAt c b
  (y.mapped.findSome? fun e =>
    (e.2.fills.find? fun f => s.linkUp f.home 4096 1 && !y.backBefore f.after f.home).map fun f => (e.1, f.sec)).map
      fun e => s.after (execFillLands c b e.1 e.2 s)

/-- The phase that a bank's task waits for is passed. -/
def State.phaseNext (s : State) (c b : Nat) : Option State :=
  let t := (s.bankAt c b).task
  match t.waitPhase with
  | some (scope, k) =>
    let u := s.after (execPhaseComplete t.launch scope t.wid k s)
    if (u.bankAt c b).task.waitPhase = none then some u else none
  | none => none

/-- The first thing that a core's own operations can do by themselves: an entry admitted or resumed, an access performed, an
operation, a fill or a write-back completed, a phase passed, a save. -/
def State.idleStep (s : State) (c : Nat) : Option State :=
  let moved (o : Option State) : Option State := if s.pace = some 0 then none else o
  (s.admitNext c).or ((moved (((s.directNext c 0).or (s.directNext c 1)).or ((s.varNext c).or
    ((s.fillNext c 0).or (s.fillNext c 1))))).or (((s.phaseNext c 0).or (s.phaseNext c 1)).or (s.saveNext c)))

/-- What waits for a bank of the core goes before the next bundle: an entry that a bank can admit, a save that an entry asks for, the
accesses that a save waits for (R215 to R217, R373). DEDUCED, log 159. -/
def State.scheduled (s : State) (c : Nat) : Option State :=
  let x := s.core c
  if x.runQ = [] ∧ x.saved = [] ∧ x.saver = none then none
  else
    (s.admitNext c).or ((s.saveNext c).or
      (x.saver.bind fun b => if s.pace = some 0 then none else s.directNext c b))

/-! ### Counts of cycles -/

/-- The bank holds at its next bundle. -/
def Bank.holding (y : Bank) : Bool :=
  match y.state with
  | .blocked w => w != .fault && w != .linkStall
  | _ => false

/-- A bank counts `d` core cycles that have passed; `cur` when it is the bank that issues, `went` when it has issued in them. The
watchdog counts the cycles in which it issues or holds, and not its stall cycles (R35, R369). -/
def Bank.count (y : Bank) (d : Nat) (cur watch went : Bool) : Bank :=
  let t := y.task
  { y with
    task := { t with
      waited := if y.waiting cur then t.waited + d else if y.state = .running then 0 else t.waited
      slice := if cur then t.slice + d else t.slice
      wdog := if watch ∧ ¬ y.monitor ∧ (y.holding ∨ went) then t.wdog + d else t.wdog
      blocked := if y.waitsOthers then t.blocked + d else 0 }
    pipe := { y.pipe with held := if y.holding then y.pipe.held + d else y.pipe.held } }

/-- A saved context that waits at an RDV goes on counting its hold (R110). -/
def Saved.count (v : Saved) (d : Nat) : Saved :=
  if v.why = some .rendezvous then { v with bank := v.bank.modPipe fun q => { q with held := q.held + d } } else v

/-- A routine that runs counts its microcore's cycles (R306). -/
def Engine.count (g : Engine) (d : Nat) : Engine :=
  if g.micro.live then { g with micro := { g.micro with cycle := g.micro.cycle + d } } else g

/-- A core counts `d` cycles that have passed since it was `old`. A hold for the ramp allowance counts to the end of its window
(R225). -/
def Core.count (x old : Core) (d : Nat) : Core :=
  let watch := bitsN x.cregs.wdog.toNat 0 32 != 0
  let one (b : Nat) (y : Bank) : Bank :=
    if y.state = .empty then y else y.count d (x.cur % 2 == b) watch (y.pipe.bundle != (old.bank b).pipe.bundle)
  let ramp := x.bank0.state = .blocked .ramp ∨ x.bank1.state = .blocked .ramp
  let z : Core := { x with
    bank0 := one 0 x.bank0, bank1 := one 1 x.bank1
    bothBlocked := if x.bank0.waitsOthers ∧ x.bank1.waitsOthers then x.bothBlocked + d else 0
    rampIns := if ramp then x.rampIns + min d ((x.rampWin + 1) * 2100 + d - x.cycle) else x.rampIns
    runQ := x.runQ.map fun q => q.age q.prio (q.waited + d)
    saved := x.saved.map fun v => v.count d
    cpe0 := x.cpe0.count d, cpe1 := x.cpe1.count d }
  z.rollRamp

/-- The counts of a core after the cycles that a step has taken; tasks that have waited 2^20 cycles rise (R216). -/
def State.account (s : State) (c : Nat) (old : Core) : State :=
  let d := (s.core c).cycle - old.cycle
  if d = 0 then s
  else
    let s1 := s.modCore c fun x => x.count old d
    (List.range ((s1.core c).runQ.length + 2)).foldl (fun u n => u.after (execPriorityAging c n u)) s1

/-! ### One move of a core -/

/-- One move of a core: what is due on its banks, else a bundle, a stall cycle, or what goes on while both hold. -/
def State.coreMove (s : State) (c : Nat) : Host.Outcome State Fault Refusal :=
  match s.tend c 0, s.tend c 1, (s.core c).varDue with
  | some u, _, _ => .next u
  | none, some u, _ => .next u
  | none, none, some v => .next (s.varDone c v.id fun o => o)
  | none, none, none =>
    match s.scheduled c with
    | some u => .next u
    | none =>
      match s.tryBanks c (s.core c).order with
      | (some o, _) => o
      | (none, u) => .next ((u.idleStep c).getD (u.holdCycles c 1))

/-- A core's turn: writes of shared registers and kills on their way come first; the cycles it took are counted. -/
def State.coreStep (s : State) (c : Nat) : Host.Outcome State Fault Refusal :=
  if s.mgmt.start ≠ .running ∨ ¬ s.mgmt.monitorRuns then .next s
  else
    match s.ctlQ, s.kills with
    | (k, _, i, v) :: l, _ => .next ({ s with ctlQ := l }.writeCreg k i v)
    | [], x :: l => .next ({ s with kills := l }.killContext x)
    | [], [] =>
      match s.coreMove c with
      | .next u => .next (u.account c (s.core c))
      | o => o

/-! ### One move of a schedule thread (R313, R314) -/

/-- The word that a thread has reached, read once (R313). DESIGN CHOICE, log 143: of the old and the new value of a word after a store
into running code, the new one. -/
def State.threadWord (s : State) (die t : Nat) : Except MoveErr (Nat × State) :=
  let x := s.cle die
  let h := x.thread t
  match h.kept, h.start with
  | some w, _ => .ok (w.toNat, s)
  | none, none => .error .wait
  | none, some q =>
    match s.engLoad (x.threadMover die t) ((startCode q.num + 8 * h.pos) % 2 ^ 64) 8 with
    | .error e => .error e
    | .ok (l, u) => .ok (ofLeBytes l, u.modCle die fun y => y.modThread t fun h => { h with kept := some (BitVec.ofNat 64 (ofLeBytes l)) })

/-- A thread's turn: additions to counters first, then its next word; an idle thread takes its next start. -/
def State.threadStep (s : State) (die t : Nat) : Host.Outcome State Fault Refusal :=
  let x := s.cle die
  if s.mgmt.start ≠ .running then .next s
  else if x.adds ≠ [] then .next (s.modCle die Cle.drainAdds)
  else if (x.thread t).st = .idle then execScheduleStart die t s
  else if ¬ x.mayIssue t then .next s
  else
    match s.threadWord die t with
    | .error e => .next (s.threadStop die t e)
    | .ok (w, u) => exec (decodeLystil (BitVec.ofNat 64 w)) u

/-! ### Moves -/

/-- Nanoseconds pass: the cores' cycles at 2.1 GHz while nothing issues; ports send what waits. -/
def State.passTime (s : State) (n : Nat) : State :=
  let k := n * 21 / 10
  let s1 := s.cores.foldl (fun u e => (u.modCore e.1 fun x => { x with cycle := x.cycle + k }).account e.1 e.2) { s with ns := s.ns + n }
  s.ports.foldl (fun u e => if e.2.txQ = [] ∧ e.2.taken = [] ∧ e.2.entryQ = [] ∧ e.2.sendQ = [] then u else u.pump e.1) s1

/-- The agent in focus moves. -/
def State.focusStep (s : State) : Host.Outcome State Fault Refusal :=
  match s.focus with
  | .core c => s.coreStep c
  | .thread d t => s.threadStep d t

/-- One move of the list that orders the agents. -/
def State.act (s : State) : Move → Host.Outcome State Fault Refusal
  | .event e => exec e s
  | .core c => if coreCount ≤ c then .fault .noSuchAgent else ({ s with focus := .core c }).focusStep
  | .thread d t => if 8 ≤ d ∨ 8 ≤ t then .fault .noSuchAgent else ({ s with focus := .thread d t }).focusStep
  | .time n => .next (s.passTime n)
  | .pace n => .next { s with pace := n }
  | .mismatch c e k => .next (s.engineMismatch c e k)
  | .upset c k off two => if coreCount ≤ c then .fault .noSuchAgent else .next (s.upset c k off two)
  | .upsetDrawer a =>
    if a < 0x20000000000 then .next { s with bad := Tab.set false s.bad (a / 8) true } else .fault .noSuchAgent
  | .collectiveError d => if 8 ≤ d then .fault .noSuchAgent else .next (s.collectiveError d)
  | .lockLost p => if 32 ≤ p then .fault .noSuchAgent else .next (s.modPort p fun x => { x with unlocked := x.rx == .up || x.rx == .restripe })
  | .credit p cls vc gives => if 32 ≤ p then .fault .noSuchAgent else .next (s.credit p cls vc gives)
  | .returns l => .next (s.restripeAcks l)
  | .mailbox => .next s.takeMail
  | .monitorImage d ok => .next { s with mgmt := { s.mgmt with monitor := d, monitorOk := ok } }
  | .powerCap n => .next { s with mgmt := { s.mgmt with cap := some n } }
  | .attach => .next s.attach
  | .remap cells p => .next (s.remap cells p)

/-- In recovery mode only the management path and the mailbox answer (R405). -/
def State.move (s : State) (m : Move) : Host.Outcome State Fault Refusal :=
  if s.mgmt.start = .recovery ∧ ¬ m.management then .next s else s.act m

/-! ### Where a program lies that the model is given (R24, R86) -/

/-- A page-table entry that leads to a table at `t`, and a leaf of a frame at `f` that permits everything. -/
def pteTable (t : Nat) : Nat := 1 + t / 65536 * 512
def pteFrame (f : Nat) : Nat := 0x7F + f / 65536 * 512

/-- Tables that map the code page of the model's program: the context table at 0x10000, then one table of each level. -/
def codeTables (m : List Host.Cell) : List Host.Cell :=
  let m1 := memPut m 0x10000 8 (1 + 0x20000)
  let m2 := memPut m1 0x20000 8 (pteTable 0x30000)
  let m3 := memPut m2 0x30000 8 (pteTable 0x40000)
  memPut m3 0x40000 8 (pteFrame 0x50000)

/-- The word of a segment header of LEN, NEXT, RDVG and EXT (R79). -/
def headerWord (len next rdvg : Nat) (ext : Bool) : Nat :=
  bit ext * 4 + rdvg * 8 + next * 2 ^ 64 + len * 2 ^ 86 + 0x40 * 2 ^ 94 + 2 ^ 124

/-- Code of one segment: a header, the instruction at syllable 1, a syllable that takes no effect when the instruction does
not end its bundle, and a segment after it. -/
def codeOf (w : Nat) : List Nat :=
  let filler := 7 * 2 ^ 125 + 2 ^ 124 + 0xD3 * 2 ^ 94 + 2 ^ 105
  if isSegh w then [headerWord 1 2 0 false, w]
  else if wordEnds w then [headerWord 1 2 1 true, w, headerWord 0 1 0 false, headerWord 0 0 0 false]
  else [headerWord 1 3 1 true, w, filler, headerWord 0 1 0 false, headerWord 0 0 0 false]

/-- A task that is about to issue the bundle at syllable 1 of the code at 0x50000. -/
def State.withSyllable (s : State) (w : Nat) : State :=
  let code := ((codeOf w).map fun x => leBytes 16 x).flatten
  let m := memWrite (codeTables s.mem) 0x50000 code
  let n : Nest := { entry := 0, widths := [0, 0, 0, 0, 0, 0], bounds := [1, 1, 1, 1, 1, 1], order := [0, 1, 2, 3, 4, 5]
                    accn := 32, cmask := 1, dmask := 1 }
  let l : Launch := { nest := n, snap := m, snapCtx := 0x10000, next := 1, live := 1, started := 1 }
  let g : Seg := { addr := 0, idx := 1, hdr := { len := 1, next := if wordEnds w then 2 else 3, rdvg := 1, ext := true } }
  let s1 := { s with mem := m, mod := { s.mod with muCtxtab := 0x10000 }, moves := [], focus := .core 0, ctlQ := [], kills := []
                     mgmt := { s.mgmt with start := .running, monitorRuns := true } }
  let s2 := s1.setLaunch 1 l
  s2.modCore 0 fun x => { x with
    cur := 0
    loop0 := some (1, (if isSegh w then 1 else 0), 0)
    loopAt := 0
    bank0 := { x.bank0.start n 0 0 0 0 1 0 [0] 0 with
      pc := 1, state := .running, seg := if isSegh w then none else some g } }

/-- A schedule thread that is about to issue the word at the start of its code. -/
def State.withWord (s : State) (w : Nat) : State :=
  let m := memWrite (codeTables s.mem) 0x50000 (leBytes 8 w)
  let q : LStart := { thread := 0, ctx := 0, block := leBytes 64 1, src := .sched 0 0 }
  let s1 := { s with mem := m, mod := { s.mod with muCtxtab := 0x10000 }, moves := [], focus := .thread 0 0
                     mgmt := { s.mgmt with start := .running } }
  s1.modCle 0 fun x => { x.setThread 0 { st := .ready, start := some q } with adds := [], fired := [] }

end Sys2Proof.Machine
end

