-- ==== Sys2Proof/Machine/Step.lean ====
section
/-!
DEFINITION. The step of the module: the first move of the list that orders the agents, else the move of the agent in focus;
and the state in which a given instruction is the next to be fetched.
-/

namespace Sys2Proof.Machine

open Sys2Proof

/-- One step of the module. -/
def step (s : State) : Host.Outcome State Fault Refusal :=
  match s.moves with
  | [] => s.focusStep
  | m :: l => ({ s with moves := l }).move m

/-- The state with an instruction stored where the next step fetches it: a Lystil word of at most 64 bits, else a syllable. -/
def State.withFetchWord (s : State) (nbits w : Nat) : State := if nbits ≤ 64 then s.withWord w else s.withSyllable w

end Sys2Proof.Machine
end

