-- ==== Sys2Proof/Safety.lean ====
section
/-!
DEFINITION. The terms in which claims about the machine are stated: the invariant that every step keeps, when a syllable is
free to issue, what a state that a syllable leaves has in flight, and what it shares with the state before.
-/

namespace Sys2Proof.Machine

open Sys2Proof

/-! ### Invariants -/

/-- The memory of a state has its canonical form: addresses strictly rise and no entry equals what an unlisted address
reads as. -/
def State.memOk (s : State) : Bool := Memory.wf s.mem

/-! ### A syllable that is free to issue -/

/-- The registers a syllable reads and writes, for the checks at issue (R41, R157, R378). -/
def foot (rd wr : List RegOp) : Plan := { reads := refsOf rd, writes := refsOf wr }

/-- A syllable with header `h` and the footprint `p` meets nothing that keeps it from taking effect: its predicate is true
(R10), no check of R41, R157, R361 to R363 or R378 stops it, its accesses touch no sector that must be filled (R243), no word that it
reads holds a single-bit error (R354). -/
def State.clear (s : State) (h : Hdr) (p : Plan) : Prop :=
  s.bk.predTrue h = true ∧ s.bk.planTrap h p = none ∧ s.badRead h p = none ∧ s.bk.touchWaits p.touches = [] ∧ s.meetsSoft p = false

/-- The state once the sectors that a store touches are DIRTY (R242). -/
def State.dirtied (s : State) (p : Plan) : Except Trap State := s.makeDirty s.cf s.bf (s.bk.touchDirty p.touches)

/-! ### What a syllable leaves -/

/-- The results of a syllable as they go in flight, numbered from `k`: each lands at the end of cycle clk + lat - 1 (R37). -/
def Bank.sent (y : Bank) (h : Hdr) : Nat → List (Nat × List Write) → List Pending
  | _, [] => []
  | k, e :: l =>
    { due := y.pipe.clk + e.1 - 1, slot := h.slot, seq := k, bundle := y.pipe.bundle, segNo := y.pipe.segNo, writes := e.2 } ::
      y.sent h (k + 1) l

/-- The longest latency of a list of results, at least 1. -/
def longest (l : List (Nat × List Write)) : Nat := (l.map (·.1)).foldl max 1

/-- The clearing of the SBSET entry with the last result (R73). -/
def clearing (h : Hdr) (l : List (Nat × List Write)) : List (Nat × List Write) :=
  if h.sbset = 0 then [] else [(max (longest l) 1, [.sbClear h.sbset])]

/-- The issuing bank with its SBSET entry set and another pipe. -/
def State.withPipe (s : State) (h : Hdr) (q : Pipe) : State :=
  s.modBk fun y => { y with regs := if h.sbset = 0 then y.regs else y.regs.wsb h.sbset true, pipe := q }

/-- The clock, the operations and the bundle's control transfer and releases are those of before, and the syllable went. -/
def Pipe.carries (q : Pipe) (y : Bank) : Prop :=
  q.clk = y.pipe.clk ∧ q.latches = y.pipe.latches ∧ q.entry = y.pipe.entry ∧ q.bundle = y.pipe.bundle ∧ q.segNo = y.pipe.segNo ∧
  q.xFree = y.pipe.xFree ∧ q.lFree = y.pipe.lFree ∧ q.divFree = y.pipe.divFree ∧
  q.ctx.ctl = y.pipe.ctx.ctl ∧ q.ctx.releases = y.pipe.ctx.releases ∧ q.ctx.trapAfter = y.pipe.ctx.trapAfter ∧
  q.ctx.place = y.pipe.ctx.place ∧ q.ctx.divs = y.pipe.ctx.divs ∧ q.ctx.counted = y.pipe.ctx.counted ∧ q.ctx.res = .went

/-- `t` is `s` with these results in flight and the SBSET entry set, and nothing else changed outside the records that the
pipe of the issuing bank keeps. -/
def Issues (s t : State) (h : Hdr) (l : List (Nat × List Write)) : Prop :=
  ∃ q : Pipe, t = s.withPipe h q ∧ q.carries s.bk ∧ q.vars = s.bk.pipe.vars ∧
    q.pend = s.bk.pipe.pend ++ s.bk.sent h s.bk.pipe.seq (l ++ clearing h l)

/-- `t` is `s` with one variable-latency operation begun and the SBSET entry set, and nothing else changed outside the
records that the pipe of the issuing bank keeps (R38). -/
def Starts (s t : State) (h : Hdr) (v : VarPlan) : Prop :=
  let x := s.core s.cf
  let y := s.bk
  ∃ q : Pipe, t = (s.modCore s.cf fun z => { z with varNext := x.varNext + 1 }).withPipe h q ∧ q.carries y ∧
    q.pend = y.pipe.pend ∧
    q.vars = y.pipe.vars ++ [{
      id := x.varNext + 1, kind := v.kind, pc := y.pc + y.pipe.ctx.place, slot := h.slot, bundle := y.pipe.bundle
      segNo := y.pipe.segNo, seq := y.pipe.seq, sb := h.sbset, earliest := x.cycle + v.earliest, latest := v.latest.map (x.cycle + ·)
      reg := v.reg, writes := v.writes, late := v.late }]

/-- An outcome is a next state with a property. -/
def Gives (o : Host.Outcome State Fault Refusal) (p : State → Prop) : Prop := ∃ t, o = .next t ∧ p t

/-- An outcome is a next state that `f` makes of one that a syllable leaves with these results in flight. -/
def Sends (o : Host.Outcome State Fault Refusal) (s : State) (h : Hdr) (l : List (Nat × List Write))
    (f : State → State := id) : Prop :=
  ∃ u, Issues s u h l ∧ o = .next (f u)

/-- The state once the dirty sectors of the issuing bank's regions are captured (R244, R245); their write-backs wait for the
commit (R355). -/
def State.captured (u : State) : State :=
  match u.captureAll u.cf u.bf with
  | .ok v => v.modBk fun y => y.keepBacks (u.core u.cf).varNext
  | .error _ => u

/-- A control register may be read, or written, in the mode of the issuing bank (R25). -/
def State.cregOpen (s : State) (idx : Nat) (write : Bool) : Prop :=
  idx ∈ cregIndices ∧ (idx.testBit 11 = true → s.bk.monitor = true) ∧ (write = true → idx.testBit 10 = false)

/-- The X slot is free, and then taken for 4 schedule cycles (R39, R138). -/
def Bank.xOpen (y : Bank) : Prop := y.pipe.xFree ≤ y.pipe.clk
def State.takeX (u : State) : State := u.modBk fun y => y.modPipe fun q => { q with xFree := q.clk + 4 }

/-! ### Accesses to scratchpad -/

/-- A footprint with accesses to scratchpad: what they touch, and the 64-byte units of the idempotence rule (R361). -/
def Plan.touching (p : Plan) (ts : List Touch) : Plan :=
  { p with
    touches := p.touches ++ ts
    locR := p.locR ++ unitLocs (ts.filter fun t => !t.write)
    locW := p.locW ++ unitLocs (ts.filter fun t => t.write) }

/-- The accesses lie in scratchpad at their alignment and read no uncorrectable word (R31, R33, R378). -/
def State.inScratch (s : State) (ts : List Touch) (align : Nat) : Prop :=
  (∀ t ∈ ts, t.addr + t.len ≤ scratchBytes ∧ t.addr % align = 0) ∧ s.badTrap ts = none

/-- The L slot is free (R151). -/
def Bank.lOpen (y : Bank) : Prop := y.pipe.lFree ≤ y.pipe.clk

/-- An outcome is a next state that `f` makes of one that a syllable leaves with a variable-latency operation begun. -/
def Begins (o : Host.Outcome State Fault Refusal) (s : State) (h : Hdr) (v : VarPlan) (f : State → State := id) : Prop :=
  ∃ u, Starts s u h v ∧ o = .next (f u)

/-! ### The array, the planes and the ramp limiter -/

/-- A counted instruction is counted (R225); an array instruction keeps the array busy for `n` cycles (R179). -/
def State.counted (u : State) : State := u.modBk fun y => y.modCtx fun k => { k with counted := k.counted + 1 }
def State.keepArray (n : Nat) (u : State) : State :=
  ((u.spillPlanes u.cf u.bf).modCore u.cf fun x => { x with arrayBusy := n, arrayBank := u.bf }).counted

/-- The writes of a low-rank result: new components in new slabs after those that stay, the descriptor (R161, R164). -/
def lowWrites (d : Nat) (keep : MDesc) (old new : List (List Int × List Int)) (eg eh : Int) (l : List Nat) : List Write :=
  (if l = [] then [] else [.slabsHeld l]) ++
    (slabWrites l (new.map packComp) ++ [.m d (lowDesc (old ++ new) eg eh (keep.slabs ++ l))])

/-- The writes of a densified result (R168). -/
def denseWrites (d : Nat) (fs : List (List Int × List Int)) (eg eh : Int) (l : List Nat) : List Write :=
  let r := densify fs eg eh
  (if l = [] then [] else [.slabsHeld l]) ++
    (slabWrites l (imgOf 16 r.1) ++ .m d { kind := 1, fmt := 4, scale := r.2.1, slabs := l } :: satIf r.2.2)

/-- A low-rank result with the footprint `p`: within RMAX its components, above it the densified tile under DN or LROVF, else
the trap 0x20 with the rank (R164, R186). -/
def LowRank (o : Host.Outcome State Fault Refusal) (s : State) (h : Hdr) (p : Plan) (lat d : Nat) (keep : MDesc)
    (old new : List (List Int × List Int)) (eg eh : Int) (dn : Bool) : Prop :=
  let w := s.bk.cregs.cctl
  let n := old.length + new.length
  (∀ l, n ≤ cctlRmax w → (s.core s.cf).lowest new.length = some l → s.clear h { p with locW := p.locW ++ slabLocs l } →
    Sends o s h [(lat, lowWrites d keep old new eg eh l)] fun u => u.takeSlabs u.cf l) ∧
  (∀ l, cctlRmax w < n → dn = true ∨ cctlLrovf w = true → scaleOk (densify (old ++ new) eg eh).2.1 = true →
    (s.core s.cf).lowest 64 = some l → s.clear h { p with locR := p.locR ++ slabLocs keep.slabs, locW := p.locW ++ slabLocs l } →
    Sends o s h [(132, denseWrites d (old ++ new) eg eh l)] fun u => u.takeSlabs u.cf l) ∧
  (cctlRmax w < n → dn = false → cctlLrovf w = false → s.bk.predTrue h = true → s.bk.checks = false → s.noBad = true →
    s.bk.parkedTrap p = none → s.bk.touchTrap p.touches = none → s.bk.touchWaits p.touches = [] → s.bk.touchDirty p.touches = [] →
    o = .next ((s.naming h p.writes).takeTrap { cause := 0x20, slot := h.slot, info := BitVec.ofNat 64 n }))

/-- The tile may be named by the issuing bank (R166). -/
def State.tileOpen (s : State) (c : Nat) : Prop := s.inPart c = true ∧ (s.core s.cf).tileParked c = false

/-! ### Where an instruction may stand -/

/-- The bundle being issued is one in which the instruction may stand (R78, R84, R106). -/
def State.placed (s : State) : Instr → Prop
  | .phase .. => s.bk.atLast = true
  | .rdv .. => s.bk.group ≠ 0
  | .stg .. => s.bk.atExit = true
  | .amo .. => s.bk.atExit = true
  | .push .. => s.bk.atExit = true
  | .pushq .. => s.bk.atExit = true
  | _ => True

/-! ### Registers -/

/-- The registers of `q` are those of `r` outside one family. -/
def Regs.keeps (x : Fam) (r q : Regs) : Prop :=
  (x ≠ .s → q.s = r.s) ∧ (x ≠ .a → q.a = r.a) ∧ (x ≠ .p → q.p = r.p) ∧ (x ≠ .v → q.v = r.v) ∧ (x ≠ .q → q.q = r.q) ∧
  (x ≠ .m → q.m = r.m) ∧ (x ≠ .t → q.t = r.t) ∧ q.sb = r.sb

/-- `t` is `s` with one result of a bank landed: outside registers of the family `x` and the list of results in flight nothing
has changed; the list keeps of the result what R40 asks of the rest of its cycle. -/
def Landed (s t : State) (c b : Nat) (x : Fam) (p : Pending) : Prop :=
  let y := s.bankAt c b
  let z := t.bankAt c b
  y.regs.keeps x z.regs ∧ z.cregs = y.cregs ∧ z.pc = y.pc ∧ z.state = y.state ∧ z.parked = y.parked ∧
  z.pipe = (y.dropPend p).pipe ∧
  (∀ e, e < 2 → e ≠ b → t.bankAt c e = s.bankAt c e) ∧ (t.core c).acc = (s.core c).acc ∧ (t.core c).slabs = (s.core c).slabs ∧
  (∀ e, e ≠ c → t.core e = s.core e) ∧ t.mem = s.mem ∧ t.mod = s.mod

/-! ### Schedule threads -/

/-- Thread `t` of die `d` is in focus and may issue (R314, R330, R331). -/
def State.onThread (s : State) (d t : Nat) : Prop := s.focus = .thread d t ∧ (s.cle d).mayIssue t = true

/-- The word has issued, and `f` is done to the engine. -/
def State.went (s : State) (d t : Nat) (f : Cle → Cle) : State := (s.goOn d t).modCle d f

/-- The word has issued, and `f` is done to the thread. -/
def State.wentThread (s : State) (d t : Nat) (f : LThread → LThread) : State := s.went d t fun x => x.modThread t f

end Sys2Proof.Machine

namespace Sys2Proof

open Sys2Proof.Machine

/-! ### Vector syllables -/

/-- The operands of a VEC syllable fit their fields and name registers that exist (R3, R122). -/
def VecOps.named (o : VecOps) : Prop := o.dst < 64 ∧ o.opa < 64 ∧ o.opb < 64 ∧ o.opc < 64 ∧ o.qm < 8 ∧ o.tr < 16

/-- EW names a lane width, CL a limit, and the widening form has a destination width and a half (R75, R125, R126). -/
def VecOps.laneLegal (o : VecOps) : Prop := o.named ∧ o.ew ≤ 4 ∧ o.cl ≤ 2 ∧ (o.w = true → o.ew < 4 ∧ o.part ≤ 1)

/-- The footprint of a lane instruction of one source, and of two. -/
def VecOps.foot1 (o : VecOps) : Plan := foot (o.srcA ++ [] ++ o.srcQ ++ o.srcT) ((.v, o.dst, 0) :: o.dstT)
def VecOps.foot2 (o : VecOps) : Plan := foot (o.srcA ++ o.srcB ++ o.srcQ ++ o.srcT) ((.v, o.dst, 0) :: o.dstT)

end Sys2Proof
end

