-- ==== Sys2Proof/Certificates/Slice0/Obligations.lean ====
section
/-!
DEFINITION. The statements for the provers. The outcomes of syllables are stated by what a syllable leaves in flight (`Sends`,
`Begins`), how results land by `ResultsLand`, so that frames follow; events are stated by the state they answer.
-/

open Sys2Proof Sys2Proof.Machine

/-- R38, R39, R93, R94: the two-source scalar instructions write S[DST] at the latency of R94 and change nothing else; divide
and remainder, on the free divider, take 18 cycles and count among the bundle's divides: a zero divisor gives -1 and the
dividend, and the overflow wraps. When a divide enters the divider of a bundle that waits is the model's reading (log 111). -/
def Obligations.ScalarArithmeticResults : Prop :=
  (∀ (h : Hdr) (d a b : Nat) (s : State), d < 64 → a < 64 → b < 64 →
     s.clear h (foot [(.s, a, 1), (.s, b, 2)] [(.s, d, 0)]) →
     let x := s.rg.rs a
     let y := s.rg.rs b
     let k := y.toNat % 64
     Sends (exec (.add h d a b) s) s h [(1, [.s d (x + y)])] ∧
     Sends (exec (.sub h d a b) s) s h [(1, [.s d (x - y)])] ∧
     Sends (exec (.and_ h d a b) s) s h [(1, [.s d (x &&& y)])] ∧
     Sends (exec (.or_ h d a b) s) s h [(1, [.s d (x ||| y)])] ∧
     Sends (exec (.xor_ h d a b) s) s h [(1, [.s d (x ^^^ y)])] ∧
     Sends (exec (.andn h d a b) s) s h [(1, [.s d (x &&& ~~~y)])] ∧
     Sends (exec (.shl h d a b) s) s h [(1, [.s d (BitVec.ofNat 64 (x.toNat * 2 ^ k))])] ∧
     Sends (exec (.shr h d a b) s) s h [(1, [.s d (BitVec.ofNat 64 (x.toNat / 2 ^ k))])] ∧
     Sends (exec (.sra h d a b) s) s h [(1, [.s d (BitVec.ofInt 64 (x.toInt / ((2 ^ k : Nat) : Int)))])] ∧
     Sends (exec (.rotr h d a b) s) s h [(1, [.s d (BitVec.ofNat 64 (x.toNat / 2 ^ k + x.toNat * 2 ^ (64 - k)))])] ∧
     Sends (exec (.mul h d a b) s) s h [(3, [.s d (x * y)])] ∧
     Sends (exec (.mulh h d a b) s) s h [(3, [.s d (BitVec.ofInt 64 (x.toInt * y.toInt / ((2 ^ 64 : Nat) : Int)))])] ∧
     Sends (exec (.mulhu h d a b) s) s h [(3, [.s d (BitVec.ofNat 64 (x.toNat * y.toNat / 2 ^ 64))])] ∧
     Sends (exec (.min_ h d a b) s) s h [(1, [.s d (BitVec.ofInt 64 (min x.toInt y.toInt))])] ∧
     Sends (exec (.max_ h d a b) s) s h [(1, [.s d (BitVec.ofInt 64 (max x.toInt y.toInt))])] ∧
     Sends (exec (.minu h d a b) s) s h [(1, [.s d (BitVec.ofNat 64 (min x.toNat y.toNat))])] ∧
     Sends (exec (.maxu h d a b) s) s h [(1, [.s d (BitVec.ofNat 64 (max x.toNat y.toNat))])]) ∧
  (∀ (h : Hdr) (d a b : Nat) (s : State), d < 64 → a < 64 → b < 64 → s.bk.divReady = true →
     s.clear h (foot [(.s, a, 1), (.s, b, 2)] [(.s, d, 0)]) →
     let x := s.rg.rs a
     let y := s.rg.rs b
     let f : State → State := fun t => t.modBk fun z => z.modCtx fun k => { k with divs := k.divs + 1 }
     Sends (exec (.div h d a b) s) s h
       [(18, [.s d (if y = 0 then BitVec.allOnes 64 else BitVec.ofInt 64 (x.toInt.tdiv y.toInt))])] f ∧
     Sends (exec (.divu h d a b) s) s h
       [(18, [.s d (if y = 0 then BitVec.allOnes 64 else BitVec.ofNat 64 (x.toNat / y.toNat))])] f ∧
     Sends (exec (.rem h d a b) s) s h [(18, [.s d (if y = 0 then x else BitVec.ofInt 64 (x.toInt.tmod y.toInt))])] f ∧
     Sends (exec (.remu h d a b) s) s h [(18, [.s d (if y = 0 then x else BitVec.ofNat 64 (x.toNat % y.toNat))])] f)

/-- R93, R95, R96: the other scalar instructions: an immediate, a bit count, a field, a choice, a comparison, predicate logic.
-/
def Obligations.ScalarFieldAndPredicateResults : Prop :=
  (∀ (h : Hdr) (d a b c : Nat) (s : State), d < 64 → a < 64 → b < 64 → c < 8 →
     let x := s.rg.rs a
     let n := x.toNat
     (s.clear h (foot [] [(.s, d, 0)]) → ∀ imm, Sends (exec (.movi h d imm) s) s h [(1, [.s d imm])]) ∧
     (s.clear h (foot [(.s, a, 1)] [(.s, d, 0)]) →
       (∀ imm, Sends (exec (.addi h d a imm) s) s h [(1, [.s d (x + BitVec.ofInt 64 imm.toInt)])]) ∧
       (∀ w, Sends (exec (.clz h d a w) s) s h [(1, [.s d (BitVec.ofNat 64 (clzN (if w then 32 else 64) n))])] ∧
         Sends (exec (.cls h d a w) s) s h [(1, [.s d (BitVec.ofNat 64 (clsN (if w then 32 else 64) n))])] ∧
         Sends (exec (.ctz h d a w) s) s h [(1, [.s d (BitVec.ofNat 64 (ctzN (if w then 32 else 64) n))])] ∧
         Sends (exec (.popc h d a w) s) s h [(1, [.s d (BitVec.ofNat 64 (popcN (if w then 32 else 64) n))])]) ∧
       (∀ k < 64, Sends (exec (.sext h d a k) s) s h [(1, [.s d (BitVec.ofInt 64 (sextN (k + 1) n))])] ∧
         Sends (exec (.zext h d a k) s) s h [(1, [.s d (BitVec.ofNat 64 (n % 2 ^ (k + 1)))])]) ∧
       (∀ pos len : Nat, pos + len + 1 ≤ 64 →
         Sends (exec (.bfx h d a pos len true) s) s h [(1, [.s d (BitVec.ofInt 64 (sextN (len + 1) (n / 2 ^ pos)))])] ∧
         Sends (exec (.bfx h d a pos len false) s) s h [(1, [.s d (BitVec.ofNat 64 (n / 2 ^ pos % 2 ^ (len + 1)))])])) ∧
     (s.clear h (foot [(.s, a, 1), (.s, d, 0)] [(.s, d, 0)]) → ∀ pos len : Nat, pos + len + 1 ≤ 64 →
       Sends (exec (.bfi h d a pos len) s) s h
         [(1, [.s d (BitVec.ofNat 64 (setBitsN (s.rg.rs d).toNat pos (len + 1) n))])]) ∧
     (s.clear h (foot [(.s, a, 1), (.s, b, 2), (.p, c, 3)] [(.s, d, 0)]) →
       Sends (exec (.sel h d a b c) s) s h [(1, [.s d (if s.rg.rp c then x else s.rg.rs b)])]) ∧
     (∀ p cc r, p < 8 → ccHolds cc 64 n (s.rg.rs b).toNat = some r →
       s.clear h (foot [(.s, a, 1), (.s, b, 2)] [(.p, p, 0)]) →
       Sends (exec (.cmp h p a b cc) s) s h [(1, [.p p r])])) ∧
  (∀ (h : Hdr) (d a b : Nat) (s : State), d < 8 → a < 8 → b < 8 →
     let x := s.rg.rp a
     let y := s.rg.rp b
     (s.clear h (foot [(.p, a, 1), (.p, b, 2)] [(.p, d, 0)]) →
       Sends (exec (.pand h d a b) s) s h [(1, [.p d (x && y)])] ∧
       Sends (exec (.por h d a b) s) s h [(1, [.p d (x || y)])] ∧
       Sends (exec (.pxor h d a b) s) s h [(1, [.p d (x != y)])]) ∧
     (s.clear h (foot [(.p, a, 1)] [(.p, d, 0)]) → Sends (exec (.pnot h d a) s) s h [(1, [.p d (!x)])]))

/-- R98, R100: the address instructions write their destinations after 1 cycle, each result modulo 2^64, from the work fields as
WORK.ID and WORK.SHAPE stand at issue; AWRAP subtracts its bound at most once from the unbounded sum and raises 0x24 with a
bound of 0 or a step that reaches the bound, AMOV with direction 3 and WIDF of a field above 5 likewise. Under AS = 1 the
address stream writes the speculative copy with the same results of that copy; it does not execute the two that write an S
register. That the illegal field is reported as 6 is the model's reading (log 21). -/
def Obligations.AddressResults : Prop :=
  ∀ (h : Hdr) (d a b : Nat) (s : State), d < 16 → a < 16 → b < 64 →
    let x := s.rg.ra a
    (s.clear h (foot [(.s, b, 1)] [(.a, d, 0)]) → Sends (exec (.amov h d b 0) s) s h [(1, [.a d (s.rg.rs b)])]) ∧
    (s.clear h (foot [(.a, a, 1)] [(.s, b, 0)]) → Sends (exec (.amov h b a 2) s) s h [(1, [.s b x])]) ∧
    (s.clear h (foot [(.a, a, 1), (.s, b, 2)] [(.a, d, 0)]) →
      Sends (exec (.aadd h d a b) s) s h [(1, [.a d (x + s.rg.rs b)])]) ∧
    (s.clear h (foot [(.a, a, 1)] [(.a, d, 0)]) →
      Sends (exec (.amov h d a 1) s) s h [(1, [.a d x])] ∧
      (∀ imm, Sends (exec (.aaddi h d a imm) s) s h [(1, [.a d (x + BitVec.ofInt 64 imm.toInt)])]) ∧
      (∀ step bound : Nat, step < bound → Sends (exec (.awrap h d a step bound) s) s h
        [(1, [.a d (BitVec.ofNat 64 (if bound ≤ x.toNat + step then x.toNat + step - bound else x.toNat + step))])]) ∧
      (∀ ents : BitVec 48, Sends (exec (.aidx h d a ents) s) s h
        [(1, [.a d (x + BitVec.ofNat 64 (((List.range 6).map fun k =>
          if ents.getLsbD (8 * k + 7) then s.workField k * 2 ^ (ents.toNat / 2 ^ (8 * k) % 64) else 0).sum))])])) ∧
    (s.bk.predTrue h = true → s.bk.checks = false → s.noBad = true →
      (∀ step bound : Nat, bound ≤ step → exec (.awrap h d a step bound) s =
        .next ((s.naming h [⟨.a, d⟩]).takeTrap { cause := 0x24, slot := h.slot, info := 6 })) ∧
      exec (.amov h d b 3) s = .next (s.takeTrap { cause := 0x24, slot := h.slot, info := 6 }) ∧
      (∀ k, 5 < k → exec (.widf h b k) s =
        .next ((s.naming h (refsOf [(.s, b, 0)])).takeTrap { cause := 0x24, slot := h.slot, info := 6 }))) ∧
    (s.clear h (foot [] [(.s, b, 0)]) → ∀ k < 6,
      Sends (exec (.widf h b k) s) s h [(1, [.s b (BitVec.ofNat 64 (s.workField k))])]) ∧
    (let w (j : Nat) : Nat := s.bk.cregs.workShape.toNat / 2 ^ (7 * j) % 2 ^ 7
     ∀ k < 6, s.workField k = s.bk.cregs.workId.toNat / 2 ^ ((List.range k).map w).sum % 2 ^ w k) ∧
    (∀ t : Tab (Option Word),
     let v := s.streamView s.cf s.bf
     let x := v.rg.ra a
     let put (w : Word) : Tab (Option Word) := Tab.set none t d (some w)
     (h.asMark = true → s.bk.predTrue h = true →
       specWrite v s.bk t (.amov h d b 0) = put (s.rg.rs b) ∧
       specWrite v s.bk t (.amov h d a 1) = put x ∧
       specWrite v s.bk t (.aadd h d a b) = put (x + s.rg.rs b) ∧
       (∀ imm, specWrite v s.bk t (.aaddi h d a imm) = put (x + BitVec.ofInt 64 imm.toInt)) ∧
       (∀ step bound : Nat, step < bound → specWrite v s.bk t (.awrap h d a step bound) =
         put (BitVec.ofNat 64 (if bound ≤ x.toNat + step then x.toNat + step - bound else x.toNat + step))) ∧
       (∀ ents : BitVec 48, specWrite v s.bk t (.aidx h d a ents) = put (x + BitVec.ofNat 64 (((List.range 6).map fun k =>
         if ents.getLsbD (8 * k + 7) then s.workField k * 2 ^ (ents.toNat / 2 ^ (8 * k) % 64) else 0).sum)))) ∧
     specWrite v s.bk t (.amov h b a 2) = t ∧ ∀ k, specWrite v s.bk t (.widf h b k) = t)

/-- R102 to R105, R115: NOP and the transfers. A taken transfer names the address at which the next bundle issues, which holds a
SEGH; an untaken BRC or LOOPN names none. The reduction of CALL's link is the model's reading (log 106). -/
def Obligations.TransferResults : Prop :=
  ∀ (h : Hdr) (a b d cc : Nat) (off : BitVec 48) (s : State), a < 64 → b < 64 → d < 64 →
    let t := wrapN 48 ((s.bk.pc : Int) + off.toInt)
    let n := s.rg.rs d - 1
    (s.clear h (foot [] []) → Sends (exec (.nop h) s) s h []) ∧
    (s.clear h (foot [] []) → s.seghAt s.cf s.bf t = true →
      Sends (exec (.br h off) s) s h [] (·.setCtl (.jump t))) ∧
    (s.clear h (foot [(.s, a, 1), (.s, b, 2)] []) → ∀ r, ccHolds cc 64 (s.rg.rs a).toNat (s.rg.rs b).toNat = some r →
      (r = true → s.seghAt s.cf s.bf t = true → Sends (exec (.brc h a b cc off) s) s h [(1, [])] (·.setCtl (.jump t))) ∧
      (r = false → Sends (exec (.brc h a b cc off) s) s h [(1, [])])) ∧
    (s.clear h (foot [] [(.s, d, 0)]) → s.seghAt s.cf s.bf t = true →
      Sends (exec (.call h d off) s) s h [(1, [.s d (BitVec.ofNat 64 s.bk.fallNext)])] (·.setCtl (.jump t))) ∧
    (s.clear h (foot [(.s, a, 1)] []) → s.seghAt s.cf s.bf ((s.rg.rs a).toNat % 2 ^ 48) = true →
      Sends (exec (.ret h a) s) s h [(1, [])] (·.setCtl (.jump ((s.rg.rs a).toNat % 2 ^ 48)))) ∧
    (s.clear h (foot [(.s, d, 0)] [(.s, d, 0)]) → d ≠ 0 →
      (n ≠ 0 → s.seghAt s.cf s.bf t = true → Sends (exec (.loopn h d off) s) s h [(1, [.s d n])] (·.setCtl (.jump t))) ∧
      (n = 0 → Sends (exec (.loopn h d off) s) s h [(1, [.s d n])]))

/-- R31, R33, R78, R82, R103, R121, R154, R155, R192: a taken branch whose target holds no segment header raises 0x04 with the
target; outside an exit bundle STG, AMO, PUSH and PUSHQ raise 0x08 whatever their predicate; in task mode ERET, MUINV, and GETC
and SETC of a privileged index raise 0x07; a scratchpad access that runs past the end raises 0x10, else one out of alignment
0x11, with its address. The syllable has no other effect. When a branch target is looked at is the model's reading (logs 114,
115). -/
def Obligations.SyllableTraps : Prop :=
  ((∀ (h : Hdr) (off : BitVec 48) (s : State),
      let t := wrapN 48 ((s.bk.pc : Int) + off.toInt)
      s.bk.predTrue h = true → s.bk.planTrap h {} = none → s.noBad = true → s.seghAt s.cf s.bf t = false →
        exec (.br h off) s = .next (s.takeTrap { cause := 0x04, slot := h.slot, info := BitVec.ofNat 64 t })) ∧
   (∀ (h : Hdr) (r base size opb opc op : Nat) (disp : BitVec 48) (b1 b2 : Bool) (s : State), s.bk.atExit = false →
      let t : Trap := { cause := 0x08, slot := h.slot, info := BitVec.ofNat 64 (s.bk.pc + s.bk.pipe.ctx.place) }
      exec (.stg h r base disp size b1) s = .next (s.takeTrap t) ∧
      exec (.amo h r base disp opb opc op b1 b2) s = .next (s.takeTrap t) ∧
      exec (.push h r base opb opc) s = .next (s.takeTrap t) ∧
      exec (.pushq h r base opb opc) s = .next (s.takeTrap t))) ∧
  (∀ (h : Hdr) (d a idx mode : Nat) (s : State), d < 64 → a < 64 → s.bk.predTrue h = true → s.bk.monitor = false →
     s.bk.checks = false → s.noBad = true →
     let t (info : Nat) : Trap := { cause := 0x07, slot := h.slot, info := BitVec.ofNat 64 info }
     exec (.eret h) s = .next (s.takeTrap (t 0xFFF)) ∧
     exec (.muinv h a mode) s = .next (s.takeTrap (t 0xFFF)) ∧
     (idx ∈ cregIndices → idx.testBit 11 = true →
       exec (.getc h d idx) s = .next ((s.naming h (refsOf [(.s, d, 0)])).takeTrap (t idx)) ∧
       exec (.setc h a idx) s = .next (s.takeTrap (t idx)))) ∧
  (∀ (h : Hdr) (r base size : Nat) (disp : BitVec 48) (sx : Bool) (s : State), r < 64 → base < 16 → size < 4 → s.bk.lOpen →
     s.bk.predTrue h = true → s.bk.checks = false → s.noBad = true →
     let n := 2 ^ size
     let a := s.effAddr base disp
     let t (c : Nat) : Trap := { cause := c, slot := h.slot, info := BitVec.ofNat 64 a }
     (scratchBytes < a + n →
       exec (.lds h r base disp size sx) s = .next ((s.naming h (refsOf [(.s, r, 0)])).takeTrap (t 0x10)) ∧
       exec (.sts h r base disp size) s = .next (s.takeTrap (t 0x10))) ∧
     (a + n ≤ scratchBytes → a % n ≠ 0 →
       exec (.lds h r base disp size sx) s = .next ((s.naming h (refsOf [(.s, r, 0)])).takeTrap (t 0x11)) ∧
       exec (.sts h r base disp size) s = .next (s.takeTrap (t 0x11))))

/-- R79 to R81, R106 to R113, R356: the instructions that end a segment, suspend, complete, meet and trap; a header where one is
expected begins its segment, changes no register and no byte of memory, and captures the rewind point. That a segment is fetched
whole at its header (log 11) and when PHASE and YIELD act (log 13) are the model's readings. -/
def Obligations.SegmentControlResults : Prop :=
  (∀ (h : Hdr) (scope : Nat) (y : Bool) (code : BitVec 32) (s : State), s.clear h (foot [] []) →
     (s.seghAt s.cf s.bf s.bk.fallNext = true →
       Sends (exec (.yield h) s) s h [] fun u => (u.setCtl .yield).release .yield) ∧
     ((∃ v, s.captureAll s.cf s.bf = .ok v) →
       Sends (exec (.end_ h) s) s h [] (fun u => u.captured.setCtl .finish) ∧
       (s.bk.atLast = true → scope < 8 →
         Sends (exec (.phase h scope y) s) s h [] fun u => u.captured.release (.phase scope y))) ∧
     Sends (exec (.trap h code) s) s h [] (fun u => u.modBk fun z => z.modCtx fun k =>
       { k with trapAfter := some { cause := 0x40, slot := h.slot, info := code.setWidth 64 } }) ∧
     (s.bk.monitor = true → Sends (exec (.eret h) s) s h [] (·.setCtl .eret)) ∧
     (s.bk.group ≠ 0 → s.gangMet s.bk.group (Tab.get 0 s.bk.task.rdvs s.bk.group + 1) = true →
       Sends (exec (.rdv h) s) s h [] fun u => u.modBk fun z => { z with task := { z.task with
         rdvs := Tab.set 0 z.task.rdvs s.bk.group (Tab.get 0 s.bk.task.rdvs s.bk.group + 1), rdvAt := none } })) ∧
  (∀ (h : Hdr) (o : SegHdr) (s : State), s.bk.seg = none →
     (o.len ≠ 0 ∨ s.seghAt s.cf s.bf (wrapN 48 ((s.bk.pc : Int) + sext22 o.next)) = true) →
     Gives (exec (.segh h o) s) fun t =>
       t.bk.seg = some { addr := s.bk.pc, hdr := o, idx := 0 } ∧ t.bk.regs = s.bk.regs ∧ t.bk.cregs = s.bk.cregs ∧
       t.mem = s.mem ∧ t.bk.pipe.pend = s.bk.pipe.pend ∧ t.bk.pipe.segNo = s.bk.pipe.segNo + 1 ∧
       (t.bk.pipe.entry.any fun e => e.pc == s.bk.pc && e.regs == s.bk.regs && e.clk == s.bk.pipe.clk) = true ∧
       t.bk.pipe.ctx.res = .went)

/-- R116 to R120: reads and writes of control registers, SLABQ, MUINV, SEED and RAMPQ. A SETC of a register outside the task's
own is applied by the core's next move (log 92), and MUINV takes its address modulo 2^55 (log 107). -/
def Obligations.SystemResults : Prop :=
  ∀ (h : Hdr) (d a idx : Nat) (s : State), d < 64 → a < 64 →
    let x := s.rg.rs a
    (s.clear h (foot [] [(.s, d, 0)]) →
      (s.cregOpen idx false → Sends (exec (.getc h d idx) s) s h [(1, [.s d (s.getCreg s.cf s.bf idx)])]) ∧
      Sends (exec (.slabq h d 0) s) s h [(1, [.s d (BitVec.ofNat 64 (s.core s.cf).freeSlabCount)])] ∧
      Sends (exec (.slabq h d 1) s) s h [(1, [.s d (BitVec.ofNat 64 (s.core s.cf).freeRows)])] ∧
      Sends (exec (.slabq h d 2) s) s h [(1, [.s d s.bk.parkMap])] ∧
      Sends (exec (.rampq h d) s) s h [(1, [.s d (BitVec.ofNat 64 ((s.core s.cf).rampIns % 2 ^ 32 * 2 ^ 32 +
        (match s.rampAllow s.cf with
          | some n => n - (s.core s.cf).rampCount
          | none => 0xFFFF) % 2 ^ 16))])]) ∧
    (s.clear h (foot [(.s, a, 1)] [(.s, d, 0)]) → x.toNat < 4096 → s.cregOpen x.toNat false →
      Sends (exec (.getcx h d a) s) s h [(1, [.s d (s.getCreg s.cf s.bf x.toNat)])]) ∧
    (s.clear h (foot [(.s, a, 1)] []) →
      (s.cregOpen idx true → s.cregRefused s.cf idx x = false →
        Sends (exec (.setc h a idx) s) s h [(1, [.creg idx x])]
          fun u => if idx = 0 then u.modCore u.cf fun z => { z with spec := [], specPc := none } else u) ∧
      (∀ imm : BitVec 32, Sends (exec (.seed h a imm) s) s h [(1, [.creg 3 x, .creg 4 (imm.setWidth 64)])]) ∧
      (s.bk.monitor = true →
        Sends (exec (.muinv h a 0) s) s h [(1, [.muinv 0 s.bk.cregs.ctxid.toNat (x.toNat % 2 ^ 55)])] ∧
        (x.toNat < 2 ^ 16 → Sends (exec (.muinv h a 1) s) s h [(1, [.muinv 1 x.toNat (x.toNat % 2 ^ 55)])]) ∧
        Sends (exec (.muinv h a 2) s) s h [(1, [.muinv 2 s.bk.cregs.ctxid.toNat (x.toNat % 2 ^ 55)])]))

/-- R124 to R126, R129: the lane instructions write, at their latency, the limited exact result of each pair of lanes. -/
def Obligations.VectorLaneResults : Prop :=
  ∀ (h : Hdr) (o : VecOps) (s : State), o.laneLegal →
    let out (k : LaneFn) : List Write := (lanePlan k o s).2.2
    (s.clear h o.foot2 →
      Sends (exec (.vadd h o) s) s h [(2, out { f := fun u w a b => laneI u w a + laneI u w b })] ∧
      Sends (exec (.vsub h o) s) s h [(2, out { f := fun u w a b => laneI u w a - laneI u w b })] ∧
      Sends (exec (.vadds h o) s) s h [(2, out { own := 1, f := fun u w a b => laneI u w a + laneI u w b })] ∧
      Sends (exec (.vsubs h o) s) s h [(2, out { own := 1, f := fun u w a b => laneI u w a - laneI u w b })] ∧
      Sends (exec (.vmul h o) s) s h [(4, out { f := fun u w a b => laneI u w a * laneI u w b })] ∧
      Sends (exec (.vmulh h o) s) s h [(4, out { f := fun u w a b => laneI u w a * laneI u w b / ((2 ^ w : Nat) : Int) })] ∧
      Sends (exec (.vand h o) s) s h [(2, out { f := fun _ _ a b => ((a &&& b : Nat) : Int) })] ∧
      Sends (exec (.vor h o) s) s h [(2, out { f := fun _ _ a b => ((a ||| b : Nat) : Int) })] ∧
      Sends (exec (.vxor h o) s) s h [(2, out { f := fun _ _ a b => ((a ^^^ b : Nat) : Int) })] ∧
      Sends (exec (.vandn h o) s) s h [(2, out { f := fun _ w a b => ((a &&& (2 ^ w - 1 - b) : Nat) : Int) })] ∧
      Sends (exec (.vmin h o) s) s h [(2, out { f := fun u w a b => min (laneI u w a) (laneI u w b) })] ∧
      Sends (exec (.vmax h o) s) s h [(2, out { f := fun u w a b => max (laneI u w a) (laneI u w b) })] ∧
      Sends (exec (.vshl h o) s) s h
        [(2, out { shift := true, f := fun u w a k => if w ≤ k then 0 else laneI u w a * ((2 ^ k : Nat) : Int) })] ∧
      Sends (exec (.vshr h o) s) s h [(2, out { shift := true, f := fun _ w a k => if w ≤ k then 0 else ((a / 2 ^ k : Nat) : Int) })] ∧
      Sends (exec (.vsra h o) s) s h
        [(2, out { shift := true, f := fun _ w a k => sextN w a / ((2 ^ min k (w - 1) : Nat) : Int) })]) ∧
    (s.clear h o.foot1 →
      Sends (exec (.vabs h o) s) s h [(2, out { two := false, f := fun _ w a _ => ((sextN w a).natAbs : Int) })] ∧
      Sends (exec (.vneg h o) s) s h [(2, out { two := false, f := fun _ w a _ => -sextN w a })] ∧
      Sends (exec (.vclz h o) s) s h [(2, out { two := false, f := fun _ w a _ => ((clzN w a : Nat) : Int) })] ∧
      Sends (exec (.vcls h o) s) s h [(2, out { two := false, f := fun _ w a _ => ((clsN w a : Nat) : Int) })] ∧
      Sends (exec (.vpopc h o) s) s h [(2, out { two := false, f := fun _ w a _ => ((popcN w a : Nat) : Int) })])

/-- R123, R124, R126: VADD without limit or widening, at every lane width: once its result lands, every active lane holds the
sum modulo 2^w of the lanes of the sources, an inactive lane 0 with ZI and its old bits without. -/
def Obligations.VectorAddLanes : Prop :=
  ∀ (h : Hdr) (o : VecOps) (s : State) (i : Nat), o.laneLegal → o.cl = 0 → o.w = false → o.i = false → i < 4096 / o.wd →
    s.clear h o.foot2 →
    ∃ m x, Sends (exec (.vadd h o) s) s h [(2, [.v o.dst m x])] ∧
      laneN (blend (s.rg.rv o.dst) m x).toNat o.wd i =
        if governs (s.rg.rq o.qm).toNat o.wd i then
          (laneN (s.rg.rv o.opa).toNat o.wd i + laneN (s.rg.rv o.opb).toNat o.wd i) % 2 ^ o.wd
        else if o.zi then 0 else laneN (s.rg.rv o.dst).toNat o.wd i

/-- R67, R129, R130: the products: VMULS rounds, shifts and saturates, under mode 4 with the lane's random word, that of the
counter value DRAW plus the values its bundle has taken before it, and takes one value; VMAC and VDOT4 accumulate onto the
destination. Which instructions take a stochastic counter is the model's reading (log 16). -/
def Obligations.VectorProductResults : Prop :=
  ∀ (h : Hdr) (o : VecOps) (s : State), o.named → o.cl ≤ 2 →
    let w := o.wd
    let cb := trecClamp (s.rg.rt o.tr)
    (o.ew ≤ 4 → s.rmode o ≤ 5 → s.clear h o.foot2 →
      let act := s.activeLanes o.qm w (4096 / w)
      let word (i : Nat) : Nat :=
        if s.rmode o == 4 && decide (0 < o.sh) && act.any id then s.rword o.rr (s.rg.rt o.tr) i else 0
      Sends (exec (.vmuls h o) s) s h [(4, lanesTo o w act (mapFrom (fun i (e : Nat × Nat) =>
          limitCl o.u w o.cl 1 cb (rnd (laneI o.u w e.1 * laneI o.u w e.2) o.sh (s.rmode o) (word i)))
        0 (List.zip (s.vlanes o.opa w) (s.lanesB o w))))] ∧
      Gives (exec (.vmuls h o) s) (fun t => t.bk.pipe.ctx.draws =
        s.bk.pipe.ctx.draws + (if s.rmode o == 4 && decide (0 < o.sh) && act.any id then 1 else 0)) ∧
      (s.rmode o = 4 → ∀ lane, s.rword false (s.rg.rt o.tr) lane =
        (prng s.bk.cregs.seed s.cf lane (s.bk.cregs.draw + BitVec.ofNat 64 s.bk.pipe.ctx.draws)).toNat)) ∧
    (o.laneLegal → s.clear h (foot ((.v, o.dst, 0) :: (o.srcA ++ o.srcB ++ o.srcQ ++ o.srcT)) ((.v, o.dst, 0) :: o.dstT)) →
      let wr := if o.w then 2 * w else w
      let n := 4096 / wr
      let k := if o.w then o.part * n else 0
      Sends (exec (.vmac h o) s) s h [(4, lanesTo o wr (s.activeLanes o.qm wr n)
        ((List.zip (s.vlanes o.dst wr) (List.zip ((s.vlanes o.opa w).drop k) ((s.lanesB o w).drop k))).map fun e =>
          limitCl o.u wr o.cl 0 cb (laneI o.u wr e.1 + laneI o.u w e.2.1 * laneI o.u w e.2.2)))]) ∧
    (o.ew ≤ 2 → s.clear h (foot ((.v, o.dst, 0) :: (.v, o.opb, 2) :: (o.srcA ++ o.srcQ ++ o.srcT)) ((.v, o.dst, 0) :: o.dstT)) →
      let n := 4096 / (4 * w)
      Sends (exec (.vdot4 h o) s) s h [(4, lanesTo o (4 * w) (s.activeLanes o.qm (4 * w) n)
        ((List.zip (s.vlanes o.dst (4 * w)) (List.zipWith dotI
          (chunksOf 4 n ((s.vlanes o.opa w).map (laneI o.u w))) (chunksOf 4 n ((s.vlanes o.opb w).map (laneI o.ub w))))).map
            fun e => limitCl false (4 * w) o.cl 0 cb (sextN (4 * w) e.1 + e.2)))])

/-- R131, R137: comparison, selection and movement; mask logic, the count of lanes and the first lanes. IMM32 as an index or a
count is read unsigned (log 108). -/
def Obligations.VectorMoveAndMaskResults : Prop :=
  (∀ (h : Hdr) (o : VecOps) (s : State), o.named → o.ew ≤ 4 →
     let w := o.wd
     let n := 4096 / w
     let a := s.vlanes o.opa w
     let act := s.activeLanes o.qm w n
     (∀ q < 8, o.dst = q → o.sub ≤ 9 → s.clear h (foot (o.srcA ++ o.srcB ++ o.srcQ) [(.q, o.dst, 0)]) →
       Sends (exec (.vcmp h o) s) s h [(2, [.q q (BitVec.ofNat 1024 (laneMask (w / 4) (act.map fun x => x || o.zi)))
         (BitVec.ofNat 1024 (laneMask (w / 4) (List.zipWith (fun x y => x && y) act
           (List.zipWith (fun x y => (ccHolds o.sub w x y).getD false) a (s.lanesB o w)))))])]) ∧
     (o.opc < 8 → s.clear h (foot ([(.v, o.opa, 1), (.v, o.opb, 2), (.q, o.opc, 3)] ++ o.srcQ) [(.v, o.dst, 0)]) →
       Sends (exec (.vsel h o) s) s h [(2, plainLanes o w s (List.zipWith (fun g (e : Nat × Nat) => if g then e.1 else e.2)
         (s.activeLanes o.opc w n) (List.zip a (s.vlanes o.opb w))))]) ∧
     (s.clear h (foot (o.srcA ++ o.srcQ) [(.v, o.dst, 0)]) → Sends (exec (.vmov h o) s) s h [(2, plainLanes o w s a)]) ∧
     (s.clear h (foot ((if o.i then [] else [(.s, o.opa, 1)]) ++ o.srcQ) [(.v, o.dst, 0)]) →
       Sends (exec (.vbcst h o) s) s h [(3, plainLanes o w s
         (List.replicate n (if o.i then wrapN w o.imm.toInt else (s.rg.rs o.opa).toNat % 2 ^ w)))]) ∧
     (s.clear h (foot ((.s, o.opa, 1) :: o.srcQ) [(.v, o.dst, 0)]) →
       Sends (exec (.viota h o) s) s h
         [(3, plainLanes o w s ((List.range n).map fun i => ((s.rg.rs o.opa).toNat + i) % 2 ^ w))]) ∧
     (s.laneIdx o < n →
       (s.clear h (foot ((.s, o.opa, 1) :: o.srcIdx) [(.v, o.dst, 0)]) →
         Sends (exec (.vins h o) s) s h [(2, [.v o.dst (BitVec.ofNat 4096 (2 ^ (w * s.laneIdx o) * (2 ^ w - 1)))
           (BitVec.ofNat 4096 (2 ^ (w * s.laneIdx o) * ((s.rg.rs o.opa).toNat % 2 ^ w)))])]) ∧
       (s.clear h (foot ((.v, o.opa, 1) :: o.srcIdx) [(.s, o.dst, 0)]) →
         Sends (exec (.vext h o) s) s h
           [(2, [.s o.dst (BitVec.ofInt 64 (laneI o.u w (laneN (s.rg.rv o.opa).toNat w (s.laneIdx o))))])]))) ∧
  (∀ (h : Hdr) (o : VecOps) (s : State), o.named → o.opa < 8 →
     let x := s.rg.rq o.opa
     let y := s.rg.rq o.opb
     let all : QReg := BitVec.allOnes 1024
     (o.dst < 8 → o.opb < 8 → s.clear h (foot [(.q, o.opa, 1), (.q, o.opb, 2)] [(.q, o.dst, 0)]) →
       Sends (exec (.qand h o) s) s h [(2, [.q o.dst all (x &&& y)])] ∧
       Sends (exec (.qor h o) s) s h [(2, [.q o.dst all (x ||| y)])] ∧
       Sends (exec (.qxor h o) s) s h [(2, [.q o.dst all (x ^^^ y)])]) ∧
     (o.dst < 8 → s.clear h (foot [(.q, o.opa, 1)] [(.q, o.dst, 0)]) →
       Sends (exec (.qnot h o) s) s h [(2, [.q o.dst all (~~~x)])]) ∧
     (o.ew ≤ 4 → s.clear h (foot [(.q, o.opa, 1)] [(.s, o.dst, 0)]) →
       Sends (exec (.qpopc h o) s) s h
         [(2, [.s o.dst (BitVec.ofNat 64 ((s.activeLanes o.opa o.wd (4096 / o.wd)).countP id))])]) ∧
     (o.ew ≤ 4 → o.dst < 8 → s.clear h (foot (if o.i then [] else [(.s, o.opa, 1)]) [(.q, o.dst, 0)]) →
       Sends (exec (.qset h o) s) s h [(2, [.q o.dst all (BitVec.ofNat 1024 (2 ^ (o.wd / 4 *
         min (if o.i then o.imm.toNat else (s.rg.rs o.opa).toNat) (4096 / o.wd)) - 1))])]))

/-- R132 to R134, R67: the changes of width; under mode 4 a lane that is shifted takes its random word. Which instructions take
a stochastic counter is the model's reading (log 16). -/
def Obligations.VectorWidthResults : Prop :=
  ∀ (h : Hdr) (o : VecOps) (s : State), o.named →
    let ws := o.wd
    let wd := fmtBits o.dfmt
    let ns := 4096 / ws
    let cb := trecClamp (s.rg.rt o.tr)
    let act := s.activeFrom o.qm wd (o.part * ns) ns
    let down (m : Nat) (sh : List Nat) : List Write :=
      let st := m == 4 && (List.zipWith (fun a k => a && decide (0 < k)) act sh).any id
      partTo o wd (o.part * ns) act (mapFrom (fun i (e : Nat × Nat) => limitFmt o.dfmt o.cl cb
          (rnd (laneI o.u ws e.1) e.2 m (if st && decide (0 < e.2) then s.rword o.rr (s.rg.rt o.tr) i else 0)))
        0 (List.zip (s.vlanes o.opa ws) sh))
    (o.cl ≤ 2 → dfmtOk o.dfmt = true → wd ≤ ws → o.part < ws / wd →
      (s.rmode o ≤ 5 → 1 ≤ o.ew → o.ew ≤ 4 →
        (o.smode = 0 → s.clear h (foot (o.srcA ++ [] ++ o.srcQ ++ o.srcT) ((.v, o.dst, 0) :: o.dstT)) →
          Sends (exec (.vshrd h o) s) s h [(3, down (s.rmode o) (List.replicate ns o.sh))]) ∧
        (o.smode = 1 → s.clear h (foot (o.srcA ++ [(.v, o.opb, 2)] ++ o.srcQ ++ o.srcT) ((.v, o.dst, 0) :: o.dstT)) →
          Sends (exec (.vshrd h o) s) s h [(3, down (s.rmode o) ((s.vlanes o.opb ws).map (· % 64)))])) ∧
      (o.rr = false → 1 ≤ o.ew → o.ew ≤ 4 → s.clear h (foot (o.srcA ++ [] ++ o.srcQ ++ o.srcT) ((.v, o.dst, 0) :: o.dstT)) →
        Sends (exec (.vcnv h o) s) s h [(3, down 0 (List.replicate ns 0))])) ∧
    (s.clear h (foot (o.srcA ++ o.srcQ) [(.v, o.dst, 0)]) →
      let up (w w2 : Nat) : List Write := plainLanes o w2 s
        ((((s.vlanes o.opa w).drop (o.part * (4096 / w2))).take (4096 / w2)).map fun x => wrapN w2 (laneI o.u w x))
      (dfmtOk o.dfmt = true → ws < wd → o.ew ≤ 4 → o.part < wd / ws → Sends (exec (.vcnv h o) s) s h [(3, up ws wd)]) ∧
      (o.ew ≤ 3 → o.part < 2 → Sends (exec (.vunpk h o) s) s h [(3, up ws (2 * ws))])) ∧
    (1 ≤ o.ew → o.ew ≤ 4 → o.cl ≤ 2 →
      s.clear h (foot ((.v, o.opb, 2) :: (o.srcA ++ o.srcQ ++ o.srcT)) ((.v, o.dst, 0) :: o.dstT)) →
      Sends (exec (.vpack h o) s) s h [(3, lanesTo o (ws / 2) (s.activeLanes o.qm (ws / 2) (4096 / (ws / 2)))
        ((s.vlanes o.opa ws ++ s.vlanes o.opb ws).map fun x => limitCl o.u (ws / 2) o.cl 0 cb (laneI o.u ws x)))])

/-- R69, R70, R133: the census shift-down: its shift comes from the census, the head and the format of T[TR], each lane is
narrowed by the format's rule, and the record takes the new scale, the shift, the census of the source and SAT. -/
def Obligations.CensusShiftDownResults : Prop :=
  ∀ (h : Hdr) (o : VecOps) (s : State), o.named →
    let t := s.rg.rt o.tr
    let fm := trecFmt t
    let wd := fmtBits fm
    let sh := shiftFor (trecCensus t) (trecHead t) fm
    let scale := sextN 8 o.imm.toNat + (sh : Int)
    let act := s.activeFrom o.qm wd (o.part * 128) 128
    let x := s.vlanes o.opa 32
    let st := trecRnd t == 4 && fmtKind fm != .ds && decide (0 < sh) && act.any id
    let l := mapFrom (fun i v => narrowTo fm (trecClamp t) (trecZp t) (sextN 32 v) sh (trecRnd t)
      (if st then s.rword true t i else 0)) 0 x
    let cl := (List.zip act x).filterMap fun e => if e.1 then some (clsN 32 e.2) else none
    fm ≠ 6 → fmtKind fm ≠ .bx → scaleOk scale = true → trecRnd t ≤ 5 → o.ew = 3 → o.part < 32 / wd →
      s.clear h (foot (o.srcA ++ o.srcQ ++ [(.t, o.tr, 5)]) [(.v, o.dst, 0), (.t, o.tr, 5)]) →
      let tw := censusWrite (if cl = [] ∨ trecCfrz t then none else some (minOf 31 cl)) sh scale (anyLimited act l)
      Sends (exec (.vshrdCensus h o) s) s h
        [(3, partTo { o with cl := 0 } wd (o.part * 128) act l ++ [.t o.tr tw.1 tw.2])]

/-- R135, R136: permutes, slides, reductions and scans. IMM32 as a distance is read unsigned (log 108), and VSCAN has the U bit
(log 105). -/
def Obligations.VectorPermuteAndReduceResults : Prop :=
  ∀ (h : Hdr) (o : VecOps) (s : State), o.named → o.ew ≤ 4 →
    let w := o.wd
    let n := 4096 / w
    let a := s.vlanes o.opa w
    let b := s.vlanes o.opb w
    let cb := trecClamp (s.rg.rt o.tr)
    let k := if o.i then o.imm.toNat else (s.rg.rs o.opc).toNat
    let wr := if o.w then 2 * w else w
    let red (v : Int) : List Write :=
      lanesTo o wr (List.replicate (4096 / wr) true) (List.replicate (4096 / wr) (limitCl o.u wr o.cl 0 cb v))
    (s.clear h (foot ((.v, o.opb, 2) :: (o.srcA ++ o.srcQ)) [(.v, o.dst, 0)]) →
      Sends (exec (.vperm h o) s) s h
        [(3, plainLanes o w s (b.map fun j => if j < n then laneN (s.rg.rv o.opa).toNat w j else 0))]) ∧
    (k ≤ n → s.clear h (foot ((.v, o.opb, 2) :: (if o.i then [] else [(.s, o.opc, 3)]) ++ o.srcA ++ o.srcQ) [(.v, o.dst, 0)]) →
      Sends (exec (.vslide h o) s) s h [(3, plainLanes o w s (((a ++ b).drop k).take n))]) ∧
    (o.cl ≤ 2 → s.clear h (foot (o.srcA ++ o.srcQ ++ o.srcT) ((.v, o.dst, 0) :: o.dstT)) →
      ((o.w = true → o.ew < 4) →
        Sends (exec (.vredadd h o) s) s h [(6, red (sumI (s.taking o)))] ∧
        Sends (exec (.vredmax h o) s) s h [(6, red ((s.taking o).foldl max (leastI o.u w)))] ∧
        Sends (exec (.vredmin h o) s) s h [(6, red ((s.taking o).foldl min (greatestI o.u w)))]) ∧
      Sends (exec (.vscan h o) s) s h [(6, lanesTo o w (s.activeLanes o.qm w n)
        ((scanI 0 (List.zip (s.activeLanes o.qm w n) (a.map (laneI o.u w)))).map (limitCl o.u w o.cl 0 cb)))])

/-- R138 to R143: the special functions of one result take the X slot and write after 12 cycles. At arguments whose exact value
the procedures must give: 2^0 is 1 (0x8000 in Q1.15), 2^-1 one half, 2^-256 is 0 and a positive power sets the flag, 1/1 and
1/√1 are 1, the reciprocals of 0 give the largest value and the flag, log2 1 is 0 and log2 2^31 is 31, log2 0 is the smallest
value and the flag, the sigmoid of 0 is one half and the tangent of 0 is 0. -/
def Obligations.SpecialFunctionResults : Prop :=
  (∀ (h : Hdr) (o : VecOps) (s : State), o.named → s.bk.xOpen →
     let lanes (w : Nat) (l : List (Nat × Bool)) : List Write := lanesTo { o with cl := 0 } w (s.activeLanes o.qm w (4096 / w)) l
     let a := s.vlanes o.opa
     (o.ew = 3 → s.clear h (foot (o.srcA ++ [] ++ o.srcQ) [(.v, o.dst, 0)]) →
       Sends (exec (.xrcp h o) s) s h [(12, lanes 32 ((a 32).map (recLane rcpCore)))] State.takeX ∧
       Sends (exec (.xrsq h o) s) s h [(12, lanes 32 ((a 32).map (recLane rsqCore)))] State.takeX ∧
       Sends (exec (.xlog2 h o) s) s h [(12, lanes 32 ((a 32).map log2Lane))] State.takeX) ∧
     (o.ew = 2 → s.clear h (foot (o.srcA ++ scaleSrc o ++ o.srcQ) [(.v, o.dst, 0)]) →
       Sends (exec (.xsigm h o) s) s h [(12, lanes 16 ((List.zip (a 16) (s.lanesScale o)).map fun e =>
         (wrapN 16 (sigmLane (sextN 16 e.1) e.2), false)))] State.takeX ∧
       Sends (exec (.xtanh h o) s) s h [(12, lanes 16 ((List.zip (a 16) (s.lanesScale o)).map fun e =>
         (wrapN 16 (tanhLane (sextN 16 e.1) e.2), false)))] State.takeX) ∧
     (o.ew = 2 → s.clear h (foot (o.srcA ++ ((.v, o.opb, 2) :: scaleSrc o) ++ o.srcQ) [(.v, o.dst, 0)]) →
       Sends (exec (.xexp2 h o) s) s h [(12, lanes 16 ((List.zip (a 16) (List.zip (s.vlanes o.opb 16) (s.lanesScale o))).map fun e =>
         let r := exp2Lane (sextN 16 e.1) (sextN 16 e.2.1) e.2.2
         (wrapN 16 r.1, r.2)))] State.takeX)) ∧
  (exp2Lane 0 0 256 = (32768, false) ∧ exp2Lane (-1) 0 256 = (16384, false) ∧ exp2Lane (-256) 0 256 = (0, false) ∧ (exp2Lane 1 0 256).2 = true ∧
   recLane rcpCore 1 = (2 ^ 15, false) ∧ recLane rcpCore 0 = (0x7FFFFFFF, true) ∧ recLane rsqCore 0 = (0x7FFFFFFF, true) ∧
   recLane rsqCore 1 = (2 ^ 15, false) ∧ recLane rsqCore 4 = (wrapN 16 (-1) * 2 ^ 16 + 2 ^ 15, false) ∧
   log2Lane 1 = (0, false) ∧ log2Lane (2 ^ 31) = (31 * 65536, false) ∧ log2Lane 0 = (2 ^ 31, true) ∧
   sigmLane 0 256 = 16384 ∧ tanhLane 0 256 = 0)

/-- R144 to R146: the user table: XLUT starts an operation of 12 to 20 cycles that writes the interpolated lanes, XLUTLD puts
512 bytes of scratchpad into the copy that is not active and starts the operation that activates it; the optimiser steps write
an even pair of registers, under mode 4 with each lane's random word. -/
def Obligations.UserTableAndOptimiserResults : Prop :=
  ∀ (h : Hdr) (o : VecOps) (s s1 : State) (base : Nat) (disp : BitVec 48), o.named → base < 16 → s.bk.xOpen →
    let act := s.activeLanes o.qm 16 256
    let cb := trecClamp (s.rg.rt o.tr)
    let beta : Int := ((o.imm.toNat % 65536 : Nat) : Int)
    let m := s.rmode o
    let lanes (st : Bool) (f : Nat → Nat → Nat → Nat → (Nat × Bool) × (Nat × Bool)) : List ((Nat × Bool) × (Nat × Bool)) :=
      mapFrom (fun i (e : Nat × Nat × Nat) => f e.1 e.2.1 e.2.2
          (if st && m == 4 && act.any id then s.rword o.rr (s.rg.rt o.tr) i else 0))
        0 (List.zip (s.vlanes o.opa 16) (List.zip (s.vlanes o.opb 16) (s.vlanes o.opc 16)))
    let pair (l : List ((Nat × Bool) × (Nat × Bool))) : List Write :=
      let w := laneWrite o.zi 16 act (l.map (·.1.1))
      let v := laneWrite o.zi 16 act (l.map (·.2.1))
      let lw := anyLimited act (l.map (·.1))
      [.v o.dst w.1 w.2, .v (o.dst + 1) v.1 v.2] ++ satWrites lw o ++
        (if anyLimited act (l.map (·.2)) && !lw then [.csat] else [])
    (o.ew = 2 → s.clear h (foot (o.srcA ++ o.srcQ) [(.v, o.dst, 0)]) →
      let ws := lanesTo { o with cl := 0 } 16 act ((s.vlanes o.opa 16).map fun x => (lutLane s.bk.user.active x, false))
      ∃ u, Starts s u h { kind := .xlut, earliest := 12, latest := some 20, reg := some ⟨.v, o.dst⟩, writes := some ws } ∧
        exec (.xlut h o) s = .next u.takeX) ∧
    (∀ (t : Tab (BitVec 16)) (x : Nat), x < 65536 →
      let i := (x + 32768) / 256 % 256
      let entry (k : Nat) : Int := (Tab.get 0 t (if k = 256 then 255 else k)).toInt
      lutLane t x = wrapN 16 (rnd (entry i * 256 + (entry (i + 1) - entry i) * ((x % 256 : Nat) : Int)) 8 0 0)) ∧
    (let a := s.effAddr base disp
      let ts : List Touch := [{ addr := a, len := 512, write := false }]
      let tab := entriesFrom (fun _ => (0 : BitVec 16)) 0
        ((lanesN (ofLeBytes (s.scratch a 512)) 16 256).map fun x => BitVec.ofNat 16 x)
      let p : Plan := { reads := [⟨.a, base⟩], locR := unitLocs ts, touches := ts }
      (s.bk.pipe.vars.any fun v => v.kind == .xlutld) = false → a % 2 = 0 → a + 512 ≤ scratchBytes → s.badTrap ts = none →
      s.clear h p → s.dirtied p = .ok s1 →
      ∃ u, Starts s1 u h { kind := .xlutld, earliest := 1, latest := some 16, writes := some [.activate] } ∧
        exec (.xlutld h base disp) s = .next (State.takeX (u.modBk fun y => { y with user := y.user.load tab }))) ∧
    (o.dst % 2 = 0 → o.ew = 2 → o.cl ≤ 2 → m ≤ 5 →
      s.clear h (foot ([(.v, o.opa, 1), (.v, o.opb, 2), (.v, o.opc, 3)] ++ o.srcQ ++ o.srcT)
        ([(.v, o.dst, 0), (.v, o.dst + 1, 0)] ++ o.dstT)) →
      Sends (exec (.xoptm h o) s) s h [(12, pair (lanes (decide (0 < o.sh)) fun g w v r =>
        let v1 := satW false 16 (rnd (beta * sextN 16 v) 16 0 0 + sextN 16 g)
        (limitCl false 16 o.cl 1 cb (sextN 16 w - rnd v1.1 o.sh m r), (wrapN 16 v1.1, v1.2))))] State.takeX ∧
      (o.sh ≤ 40 → Sends (exec (.xopta h o) s) s h [(12, pair (lanes true fun g w v r =>
        let gi := sextN 16 g
        let s2 := satW true 16 (rnd (beta * (v : Int)) 16 0 0 + rnd (gi * gi) (bitsN o.imm.toNat 16 5) 0 0)
        let q := rsqCore (s2.1.toNat + 1)
        (limitCl false 16 o.cl 1 cb (sextN 16 w - rnd (gi * (q.2 : Int)) (15 + (o.sh : Int) - q.1).toNat m r),
         (wrapN 16 s2.1, s2.2))))] State.takeX))

/-- R31, R34, R76, R149, R158: scalar and record accesses to scratchpad: the address, the bytes in little-endian order, the
extension, the latency; TLD gives the record 6 cycles after issue when it is a legal one, TST stores its 32 bytes with the
reserved fields zero. -/
def Obligations.ScratchpadScalarResults : Prop :=
  (∀ (h : Hdr) (r base size : Nat) (disp : BitVec 48) (sx : Bool) (s s1 : State), r < 64 → base < 16 → size < 4 → s.bk.lOpen →
     let n := 2 ^ size
     let a := (s.rg.ra base + BitVec.ofInt 64 disp.toInt).toNat
     let rd : List Touch := [{ addr := a, len := n, write := false }]
     let wr : List Touch := [{ addr := a, len := n, write := true }]
     let x := ofLeBytes (s.scratch a n)
     (s.inScratch rd n → s.clear h ((foot [(.a, base, 6)] [(.s, r, 0)]).touching rd) →
       Sends (exec (.lds h r base disp size sx) s) s h
         [(6, [.s r (if sx then BitVec.ofInt 64 (sextN (8 * n) x) else BitVec.ofNat 64 x)])]) ∧
     (s.inScratch wr n → s.clear h ((foot [(.s, r, 0), (.a, base, 6)] []).touching wr) →
       s.dirtied ((foot [(.s, r, 0), (.a, base, 6)] []).touching wr) = .ok s1 →
       Sends (exec (.sts h r base disp size) s) s1 h
         [(1, .mem (scratchAddr s.cf a) (leBytes n (s.rg.rs r).toNat) :: s.cleaned wr)])) ∧
  (∀ (h : Hdr) (r base : Nat) (disp : BitVec 48) (s s1 : State), r < 16 → base < 16 → s.bk.lOpen →
     let a := s.effAddr base disp
     let rd : List Touch := [{ addr := a, len := 32, write := false }]
     let wr : List Touch := [{ addr := a, len := 32, write := true }]
     let t := trecClean (ofLeBytes (s.scratch a 32))
     (trecOk t = true → s.inScratch rd 32 → s.clear h ((foot [(.a, base, 6)] [(.t, r, 0)]).touching rd) →
       Begins (exec (.tld h r base disp false) s) s h { kind := .tldScratch, earliest := 6, latest := some 6, reg := some ⟨.t, r⟩, writes := some [.t r (BitVec.allOnes 256) t] }) ∧
     (s.inScratch wr 32 → s.clear h ((foot [(.t, r, 0), (.a, base, 6)] []).touching wr) →
       s.dirtied ((foot [(.t, r, 0), (.a, base, 6)] []).touching wr) = .ok s1 →
       Sends (exec (.tst h r base disp) s) s1 h
         [(1, .mem (scratchAddr s.cf a) (leBytes 32 (trecClean (s.rg.rt r).toNat).toNat) :: s.cleaned wr)]))

/-- R151 to R153: vector accesses to scratchpad, contiguous, strided and indexed, and a block of a decoder's queue. Lane i lies
at the base address with the displacement, plus its place in a contiguous access, i times the stride, or its own index; with a
mask it takes part where the mask governs it. -/
def Obligations.ScratchpadVectorResults : Prop :=
  ∀ (h : Hdr) (r base opb opc ew : Nat) (disp : BitVec 48) (st m z sc : Bool) (s s1 : State),
    r < 64 → base < 16 → opb < 64 → (m = true → opc < 8) → s.bk.lOpen →
    let hold (k : LaneAcc) (u : State) : State := if k.base.isSome then u else u.holdL ((4096 / k.w + 63) / 64)
    let load (k : LaneAcc) : List Write := [.v r (laneWrite z k.w k.act (s.laneLoad k)).1 (laneWrite z k.w k.act (s.laneLoad k)).2]
    let store (k : LaneAcc) : List Write := s.laneStore k (s.rg.rv r) ++ s.cleaned (k.touches true)
    (ew ≤ 4 → (st = true → ew ≠ 0) →
      let k := s.vecAcc base disp opb opc ew st m
      (k.w = 4 * 2 ^ ew ∧ ∀ i < 4096 / k.w,
        k.addr.getD i 0 = (if st then wrapN 64 ((s.effAddr base disp : Int) + (i : Int) * (s.rg.rs opb).toInt)
          else (s.effAddr base disp + i * k.w / 8) % 2 ^ 64) ∧
        k.act.getD i false = (!m || governs (s.rg.rq opc).toNat k.w i)) ∧
      (
      let rd := [((.a : Fam), base, 6)] ++ strideOp st opb ++ maskOp m opc
      let pl := (foot rd [(.v, r, 0)]).touching (k.touches false)
      let ps := (foot ((.v, r, 0) :: rd) []).touching (k.touches true)
      (s.inScratch (k.touches false) k.size → s.clear h pl →
        Sends (exec (.ldv h r base disp opb opc ew st m z) s) s h [(6, load k)] (hold k)) ∧
      (s.inScratch (k.touches true) k.size → s.clear h ps → s.dirtied ps = .ok s1 →
        Sends (exec (.stv h r base disp opb opc ew st m) s) s1 h [(1, store k)] (hold k)))) ∧
    (1 ≤ ew → ew ≤ 4 → (∀ e ∈ idxOps opb ew, e.2.1 < 64) →
      let k := s.idxAcc base disp opb opc ew m sc
      (k.w = 4 * 2 ^ ew ∧ ∀ i < 4096 / k.w,
        k.addr.getD i 0 = (s.effAddr base disp +
          laneN (s.rg.rv (opb + i / 128)).toNat 32 (i % 128) * (if sc then k.w / 8 else 1)) % 2 ^ 64 ∧
        k.act.getD i false = (!m || governs (s.rg.rq opc).toNat k.w i)) ∧
      (
      let rd := [((.a : Fam), base, 6)] ++ idxOps opb ew ++ maskOp m opc
      let pl := (foot rd [(.v, r, 0)]).touching (k.touches false)
      let ps := (foot ((.v, r, 0) :: rd) []).touching (k.touches true)
      (s.inScratch (k.touches false) k.size → s.clear h pl →
        Sends (exec (.ldvg h r base disp opb opc ew m z sc) s) s h [(6, load k)] (hold k)) ∧
      (s.inScratch (k.touches true) k.size → s.clear h ps → s.dirtied ps = .ok s1 →
        Sends (exec (.stvs h r base disp opb opc ew m sc) s) s1 h [(1, store k)] (hold k)))) ∧
    (∀ port < 2, s.clear h (foot [] [(.v, r, 0)]) →
      let g := (s.core s.cf).cpe port
      (∀ x l, g.decq = x :: l → Sends (exec (.ldvp h r port) s) s h [(6, [.v r fullRow x])]
        fun u => u.modCore u.cf fun c => c.setCpe port { c.cpe port with decq := l }) ∧
      (g.decq = [] → g.streams = 0 → Sends (exec (.ldvp h r port) s) s h [(6, [.v r fullRow 0])]))

/-- R148, R154, R155, R158, R248: accesses to global memory: a read enters the core's direct queue at issue, a write and an
atomic are released at the segment's commit, each with its virtual address, its length and its operands. -/
def Obligations.DirectAccessResults : Prop :=
  ∀ (h : Hdr) (r base size opb opc op : Nat) (disp : BitVec 48) (sx uns : Bool) (s : State),
    r < 64 → base < 16 → size < 4 → opb < 64 → opc < 64 → op ≤ 8 → s.bk.lOpen →
    let va := s.effAddr base disp
    let id := (s.core s.cf).varNext + 1
    let enter (e : Direct) (u : State) : State := u.modCore u.cf fun x => { x with direct := x.direct ++ [e] }
    let ok (n : Nat) : Prop := va % n = 0 ∧ va < 2 ^ 55
    (s.directFull = false →
      (ok (2 ^ size) → s.clear h { foot [(.a, base, 6)] [(.s, r, 0)] with locR := s.windowLocs va (2 ^ size) .read } →
        Begins (exec (.ldg h r base disp size sx false) s) s h { kind := .ldg, reg := dirReg ⟨.s, r⟩ }
          (enter { s.entryOf .ldg va (2 ^ size) ⟨.s, r⟩ with sx := sx, varId := id })) ∧
      (ok 64 → s.clear h { foot [(.a, base, 6)] [(.v, r, 0)] with locR := s.windowLocs va 512 .read } →
        Begins (exec (.ldg h r base disp size sx true) s) s h { kind := .ldg, reg := dirReg ⟨.v, r⟩ }
          (enter { s.entryOf .ldg va 512 ⟨.v, r⟩ with sx := sx, varId := id })) ∧
      (r < 16 → ok 32 → s.clear h { foot [(.a, base, 6)] [(.t, r, 0)] with locR := s.windowLocs va 32 .read } →
        Begins (exec (.tld h r base disp true) s) s h { kind := .tldGlobal, reg := dirReg ⟨.t, r⟩ }
          (enter { s.entryOf .tld va 32 ⟨.t, r⟩ with varId := id }))) ∧
    (s.bk.atExit = true →
      (ok (2 ^ size) → s.clear h { foot [(.s, r, 0), (.a, base, 6)] [] with locW := s.windowLocs va (2 ^ size) .write } →
        Sends (exec (.stg h r base disp size false) s) s h [(1, [])] (·.release
          (.direct { s.entryOf .stg va (2 ^ size) ⟨.s, r⟩ with bytes := leBytes (2 ^ size) (s.rg.rs r).toNat }))) ∧
      (ok 64 → s.clear h { foot [(.v, r, 0), (.a, base, 6)] [] with locW := s.windowLocs va 512 .write } →
        Sends (exec (.stg h r base disp size true) s) s h [(1, [])] (·.release
          (.direct { s.entryOf .stg va 512 ⟨.v, r⟩ with bytes := vecBytes (s.rg.rv r) }))) ∧
      (∀ w8, ok (if w8 then 8 else 4) →
        s.clear h { foot [(.a, base, 6), (.s, opb, 2), (.s, opc, 3)] [(.s, r, 0)] with
          locW := s.windowLocs va (if w8 then 8 else 4) .atomic } →
        Begins (exec (.amo h r base disp opb opc op uns w8) s) s h { kind := .amo, reg := dirReg ⟨.s, r⟩ } (·.release
          (.direct { s.entryOf .amo va (if w8 then 8 else 4) ⟨.s, r⟩ with
            op := op, uns := uns, operand := s.rg.rs opb, expected := s.rg.rs opc, varId := id }))))

/-- R156, R157, R167, R242 to R245: PARK copies a vector register to the lowest free slab or row and takes the slab at issue,
UNPARK brings it back 6 cycles later; RMAP maps a range with every sector INV; RUNMAP, RFLUSH, RINV and RFILL act on a mapped
region or the sectors of a subrange: a DIRTY one is captured for a write-back and becomes CLEAN, and RINV discards it; an
unmapped region raises 0x12 with its number. A second UNPARK is the model's reading (log 29). -/
def Obligations.ParkAndRegionResults : Prop :=
  (∀ (h : Hdr) (r k : Nat) (s : State), r < 64 → s.bk.lOpen →
     ((s.core s.cf).lowest 1 = some [k] → s.clear h { foot [(.v, r, 0)] [] with locW := [.slab k] } →
       Sends (exec (.park h r false) s) s h [(1, [.park r (.slab k) (s.rg.rv r)])] fun u => u.takeSlabs u.cf [k]) ∧
     (s.freeRow = some k → s.clear h { foot [(.v, r, 0)] [] with locW := [.accRow k] } →
       Sends (exec (.park h r true) s) s h [(1, [.park r (.row k) (s.rg.rv r)])]) ∧
     (∀ pl, Tab.get .none s.bk.parked r = pl → pl ≠ .none → s.clear h { unparks := [⟨.v, r⟩], locR := pl.locs, locW := [.v r] } →
       Sends (exec (.unpark h r) s) s h [(6, [.unpark r pl])])) ∧
  (∀ (h : Hdr) (n base va len mode : Nat) (disp : BitVec 48) (s : State), base < 16 → va < 64 → len < 64 → s.bk.lOpen →
     let a := s.effAddr base disp
     let v := (s.rg.rs va).toNat
     let l := (s.rg.rs len).toNat
     let sub := foot [(.a, base, 6), (.s, len, 3)] []
     (n < 32 → mode ≠ 3 → a + l ≤ scratchBytes → a % 4096 = 0 → v % 4096 = 0 → v < 2 ^ 55 → l ≠ 0 → l % 4096 = 0 →
       s.bk.region n = none → (∀ e ∈ s.bk.mapped, rangesMeet a l e.2.start e.2.len = false) →
       s.clear h (foot [(.a, base, 6), (.s, va, 2), (.s, len, 3)] []) →
       Sends (exec (.rmap h n base disp va len mode) s) s h
         [(1, [.region n (some { start := a, len := l, va := v, mode := mode })])]) ∧
     (∀ r, s.bk.region n = some r →
       let dirty (ks : List Nat) : List (Nat × Nat) := (ks.filter fun k => r.secState k == .dirty).map fun k => (n, k)
       let flush (ks : List Nat) (u : State) : State := match u.captureSecs u.cf u.bf (dirty ks) with
         | .ok v => if dirty ks = [] then v else v.holdL (8 * (dirty ks).length)
         | .error _ => u
       let all := List.range r.count
       let ks := if l = 0 then all else r.secsOf a l
       (s.clear h {} → (∃ v, s.captureSecs s.cf s.bf (dirty all) = .ok v) →
         Sends (exec (.runmap h n) s) s h [(1, [.region n none])] (flush all)) ∧
       (l ≠ 0 → r.len % 4096 = 0 → r.start ≤ a → a + l ≤ r.start + r.len → ∀ k, k ∈ r.secsOf a l ↔
         r.start + 4096 * k < a + l ∧ a < r.start + 4096 * (k + 1)) ∧
       (l = 0 ∨ r.start ≤ a ∧ a + l ≤ r.start + r.len → s.clear h sub →
         ((∃ v, s.captureSecs s.cf s.bf (dirty ks) = .ok v) →
           Sends (exec (.rflush h n base disp len) s) s h [(1, [])] (flush ks)) ∧
         Sends (exec (.rinv h n base disp len) s) s h [(1, [])] (fun u => u.modBk fun y => match y.region n with
           | some q => y.setRegion n (some (q.inv ks))
           | none => y) ∧
         (r.mode ≠ 2 → Sends (exec (.rfill h n base disp len) s) s h [(1, [])] fun u =>
           ks.foldl (fun v k => match v.startFill v.cf v.bf n k with
             | .ok w => w
             | .error t => v.dropAhead v.cf v.bf t) u)) ∧
       (∀ k, (r.inv ks).secState k = if k ∈ ks then .inv else r.secState k) ∧
       (∀ k b s2, let va := r.va + 4096 * k
         let home := secAddr s.cf r k
         r.secState k = .dirty → s.badIn home 4096 = none →
         s.translate s.cf s.bk.cregs.ctxid.toNat va .write (!s.bk.monitor) = .ok (b, s2) → s2.linkUp b 4096 2 = true →
         s2.softIn home 4096 = [] →
         ∃ t op, s.captureSecs s.cf s.bf [(n, k)] = .ok t ∧ op.kind = .writeback ∧ op.sec = some (n, k) ∧
           op.writes = some [.home b (memRead s2.mem home 4096)] ∧ t.mem = s2.mem ∧
           t.bk = { s2.bk.setRegion n (some (r.setSec k .clean)) with
             pipe := { s2.bk.pipe with vars := s2.bk.pipe.vars ++ [op] } })) ∧
     (s.bk.region n = none → s.bk.predTrue h = true → s.bk.checks = false → s.noBad = true →
       let t : Trap := { cause := 0x12, slot := h.slot, info := BitVec.ofNat 64 n }
       exec (.runmap h n) s = .next (s.takeTrap t) ∧ exec (.rfill h n base disp len) s = .next (s.takeTrap t) ∧
       exec (.rflush h n base disp len) s = .next (s.takeTrap t) ∧ exec (.rinv h n base disp len) s = .next (s.takeTrap t)))

/-- R192 to R194: a push reads its command from eight scalar registers at issue and releases its offer at the commit. When the
offer is made is the model's reading (log 13). -/
def Obligations.PushResults : Prop :=
  ∀ (h : Hdr) (d a opd eng : Nat) (s : State), d ≠ 0 → d < 64 → a + 7 < 64 → opd < 8 → eng < 4 → s.bk.atExit = true →
    s.clear h (foot ((List.range 8).map fun k => (.s, a + k, 1)) [(.s, d, 0), (.p, opd, 4)]) →
    let cmd := ((List.range 8).map fun k => leBytes 8 (s.rg.rs (a + k)).toNat).flatten
    let offer (q : Bool) (u : State) : State := u.release (.push { slot := h.slot, tok := d, eng := eng, cmd := cmd, full := opd, q := q, varId := (s.core s.cf).varNext + 1, seed := s.bk.cregs.seed, bundle := s.bk.pipe.bundle })
    Begins (exec (.push h d a opd eng) s) s h { kind := .push, reg := some ⟨.s, d⟩ } (offer false) ∧
    Begins (exec (.pushq h d a opd eng) s) s h { kind := .push, reg := some ⟨.s, d⟩ } (offer true)

/-- R168, R176, R177, R225: MLDW puts a dense tile, or the densified INT16 form of a low-rank one, into the shadow plane after
128 cycles, and stalls while a load of its own bank is on its way; MSWAP changes the active plane, also before such a load,
which lands later: with checking that is a stale read, 0x05. That only a load of the bank's own makes an MLDW wait is the
model's reading (log 112). -/
def Obligations.MatrixPlaneResults : Prop :=
  ∀ (h : Hdr) (a : Nat) (s : State),
    let x := s.core s.cf
    let d := s.rg.rm a
    (a < 64 → d.kind = 1 → s.bk.loading = false → s.rampSpent = false →
      s.clear h { foot [(.m, a, 1)] [] with locR := slabLocs d.slabs, locW := [.plane (if x.active then 0 else 1)] } →
      Sends (exec (.mldw h a) s) s h
        [(128, [.plane { fmt := d.fmt, scale := d.scale, zp := d.zp, shifts := d.shifts
                         img := entriesFrom (fun _ => 0) 0 ((List.range d.slabs.length).map (x.pos d)) }])]
        fun u => (u.spillPlanes u.cf u.bf).counted) ∧
    (let r := densify (x.factors d) d.eg d.eh
     a < 64 → d.kind = 2 → scaleOk r.2.1 = true → s.bk.loading = false → s.rampSpent = false →
      s.clear h { foot [(.m, a, 1)] [] with locR := d.locs, locW := [.plane (if x.active then 0 else 1)] } →
      Sends (exec (.mldw h a) s) s h
        [(128, .plane { fmt := 4, scale := r.2.1, img := entriesFrom (fun _ => 0) 0 (imgOf 16 r.1) } :: satIf r.2.2)]
        fun u => (u.spillPlanes u.cf u.bf).counted) ∧
    (s.bk.predTrue h = true → s.bk.loading = true → exec (.mldw h a) s = .next (s.mark .stalled)) ∧
    (x.arrayBusy = 0 → s.bk.checks = false ∨ s.bk.planePending = [] → s.clear h {} →
      Sends (exec (.mswap h) s) s h [(1, [.swap])] fun u => u.spillPlanes u.cf u.bf) ∧
    (∀ q l, x.arrayBusy = 0 → s.bk.checks = true → s.bk.planePending = q :: l → s.clear h {} → s.noBad = true →
      exec (.mswap h) s = .next (s.takeTrap { cause := 0x05, slot := h.slot, short := min 0xFF (q.due + 1 - s.bk.pipe.clk) }))

/-- R178: the sum over the four groups of 32 of a row and a column, without group shifts, is the sum of all 128 products. -/
def Obligations.ProductIsSumOfProducts : Prop :=
  ∀ a w : List Int, a.length = 128 → w.length = 128 →
    groupTerm (chunksOf 32 4 a) [0, 0, 0, 0] (chunksOf 32 4 w) [0, 0, 0, 0] =
      sumI ((List.range 128).map fun k => a.getD k 0 * w.getD k 0)

/-- R178, R179: an MMA or MMAV that is no member of a chain streams CNT rows of codes through the active plane, writes or
accumulates the products 8 cycles after the rows have passed, and keeps the array busy as long. How the array's busy cycles pass
is the model's reading (log 18). -/
def Obligations.MatrixProductResults : Prop :=
  ∀ (h : Hdr) (c idx tr base disp a cnt : Nat) (acc ch : Bool) (s : State),
    let x := s.core s.cf
    let t := s.rg.rt tr
    let f := trecFmt t
    let line := lineBytes f
    let n := arrayCycles cnt (fmtBits f) (fmtBits x.plane.fmt)
    let rows := (List.range cnt).map fun r => c * 128 + idx + r
    let side := sideTouch t (4 * cnt) false
    let zp := zpOf t
    let sh := s.sideShifts t (4 * cnt)
    let into (p : Plan) : Plan := { p with
      reads := p.reads ++ refsOf [(.t, tr, 5)], writes := refsOf [(.c, c, 0)]
      locR := p.locR ++ [.plane (if x.active then 1 else 0)]
      locW := if acc then [] else rows.map .accRow, rowsAcc := if acc then rows else [] }
    let eff (u : State) : State := State.keepArray n (u.claimTile c)
    (ch = true → s.bk.task.gang.length ≤ 1) → tr < 16 → c < 32 → s.tileOpen c → cnt ≠ 0 → idx + cnt ≤ 128 →
      x.arrayBusy = 0 → s.rampSpent = false →
    (base < 16 → f ≠ 7 →
      let ad := s.matAddr base disp
      let ts := lineTouches ad line line cnt false
      let p := into { reads := refsOf [(.a, base, 6)], touches := ts ++ side, locR := unitLocs ts ++ unitLocs side }
      s.accessTrap ts 16 = none → s.accessTrap side 1 = none → s.clear h p →
      Sends (exec (.mma h c idx tr acc ch base disp cnt) s) s h
        [(8 + n, s.streamWrites c idx acc f zp ((List.range cnt).map fun r => lineCodes f (s.scratch (ad + r * line) line)) sh)] eff) ∧
    (f ≠ 6 → f ≠ 7 →
      let k := 4096 / (128 * fmtBits f)
      let regs := (List.range ((cnt + k - 1) / k)).map fun r => a + r
      let p := into { reads := refsOf (regs.map fun r => (.v, r, 1)), touches := side, locR := unitLocs side }
      (∀ r ∈ regs, r < 64) → s.accessTrap side 1 = none → s.clear h p →
      Sends (exec (.mmav h c a idx tr acc ch cnt) s) s h
        [(8 + n, s.streamWrites c idx acc f zp ((List.range cnt).map fun r =>
          lanesN (bitsN (s.rg.rv (a + r / k)).toNat (r % k * 128 * fmtBits f) (128 * fmtBits f)) (fmtBits f) 128) sh)] eff)

/-- R69 to R71, R174, R175, R181, R182: clearing, adding, reading and writing accumulator tiles, where DIR names a row (1), a
column (2) or the diagonal (3); the census shift-down of rows of a tile: each element is narrowed by the shift of its record, or
under a BX format by the shift of its group, the packed lines are stored, and the record takes its scale, shift, census and
flag. The cycle of CSHD's stores is the model's reading (log 23). -/
def Obligations.AccumulatorResults : Prop :=
  (∀ (h : Hdr) (c a b r dir idx : Nat) (s : State), c < 32 → a < 32 → b < 32 → r < 64 → idx < 128 →
     let x := s.core s.cf
     let claim (u : State) : State := u.claimTile c
     (s.tileOpen c → s.clear h { foot [] [(.c, c, 0)] with locW := tileLocs c } →
       Sends (exec (.mzero h c) s) s h [(2, (List.range 128).map fun i => .acc (c * 128 + i) fullRow 0)] claim) ∧
     (s.tileOpen c → s.tileOpen a → s.tileOpen b →
       let own := c == a || c == b
       s.clear h { foot [(.c, a, 1), (.c, b, 2)] [(.c, c, 0)] with
         locR := (if a = c then [] else tileLocs a) ++ (if b = c then [] else tileLocs b)
         locW := if own then [] else tileLocs c, rowsAcc := if own then (List.range 128).map fun i => c * 128 + i else [] } →
       let l := (List.range 128).map fun i =>
         List.zipWith (fun u v => sat32 (sextN 32 u + sextN 32 v)) (x.accRow a i) (x.accRow b i)
       Sends (exec (.cadd h c a b) s) s h
         [(34, mapFrom (fun i v => .acc (c * 128 + i) fullRow (BitVec.ofNat 4096 (packN 32 (v.map fun e => wrapN 32 e.1)))) 0 l ++
           satIf (l.any fun v => v.any (·.2)))] claim) ∧
     (s.tileOpen c → 1 ≤ dir → dir ≤ 3 → s.clear h { foot [(.c, c, 1)] [(.v, r, 0)] with locR := (lineRows c dir idx).map .accRow } →
       Sends (exec (.crdv h r c dir idx) s) s h [(8, [.v r fullRow (BitVec.ofNat 4096 (packN 32 ((lineCells dir idx).map fun e =>
         laneN (Tab.get 0 x.acc (c * 128 + e.1)).toNat 32 e.2)))])]) ∧
     (s.tileOpen c →
       (s.clear h { foot [(.v, r, 1)] [(.c, c, 0)] with locW := [.accRow (c * 128 + idx)] } →
         Sends (exec (.cwrv h c r 1 idx false) s) s h [(2, [.acc (c * 128 + idx) fullRow (s.rg.rv r)])] claim) ∧
       (s.clear h { foot [(.v, r, 1)] [(.c, c, 0)] with rowsAcc := [c * 128 + idx] } →
         Sends (exec (.cwrv h c r 1 idx true) s) s h
           [(2, [.accAdd (c * 128 + idx) fullRow ((s.vlanes r 32).map (sextN 32))])] claim) ∧
       (2 ≤ dir → dir ≤ 3 →
         let rows := (List.range 128).map fun i => c * 128 + i
         let cell (e : Nat × Nat) : VReg := BitVec.ofNat 4096 (2 ^ (32 * e.2) * (2 ^ 32 - 1))
         (s.clear h { foot [(.v, r, 1)] [(.c, c, 0)] with locW := rows.map .accRow } →
           Sends (exec (.cwrv h c r dir idx false) s) s h [(2, List.zipWith (fun e v =>
             .acc (c * 128 + e.1) (cell e) (BitVec.ofNat 4096 (2 ^ (32 * e.2) * v))) (lineCells dir idx) (s.vlanes r 32))] claim) ∧
         (s.clear h { foot [(.v, r, 1)] [(.c, c, 0)] with rowsAcc := rows } →
           Sends (exec (.cwrv h c r dir idx true) s) s h [(2, List.zipWith (fun e v =>
             .accAdd (c * 128 + e.1) (cell e) (List.replicate e.2 0 ++ [sextN 32 v])) (lineCells dir idx) (s.vlanes r 32))] claim)))) ∧
  (∀ (h : Hdr) (c b idx tr base disp cnt : Nat) (s s1 : State), c < 32 → b < 64 → tr < 16 → base < 16 → cnt ≠ 0 → idx + cnt ≤ 128 →
     let t := s.rg.rt tr
     let f := trecFmt t
     let bx := fmtKind f == .bx
     let a := s.matAddr base disp
     let line := lineBytes f
     let es := (s.rg.rs b).toInt
     let sh := shiftFor (trecCensus t) (trecHead t) f
     let scale := if bx then es else es + (sh : Int)
     let src := (List.range cnt).map fun r => (s.core s.cf).accRow c (idx + r)
     let shs := src.map fun row => (chunksOf 32 4 row).map fun g =>
       if bx then bxShiftFor (minOf 31 (g.map (clsN 32))) (trecHead t) f else sh
     let st := trecRnd t == 4 && fmtKind f != .ds && (shs.flatten.any fun k => decide (0 < k))
     let out := (List.range cnt).map fun r => (List.range 128).map fun j =>
       narrowTo f (trecClamp t) (trecZp t) (sextN 32 ((src.getD r []).getD j 0)) ((shs.getD r []).getD (j / 32) 0) (trecRnd t)
         (if st then s.rword true t ((idx + r) * 128 + j) else 0)
     let lim := out.any fun r => r.any (·.2)
     let tw := censusWrite (if trecCfrz t then none else some (minOf 31 (src.flatten.map (clsN 32)))) (if bx then 0 else sh) scale lim
     let ts := lineTouches a line line cnt true
     let side := sideTouch t (4 * cnt) true
     let p := { foot [(.c, c, 1), (.s, b, 2), (.t, tr, 5), (.a, base, 6)] [(.t, tr, 5)] with
       touches := ts ++ side, locR := (List.range cnt).map (fun r => .accRow (c * 128 + idx + r)), locW := unitLocs ts ++ unitLocs side }
     s.tileOpen c → scaleOk es = true → scaleOk scale = true → trecRnd t ≤ 5 → s.accessTrap ts 16 = none →
       s.accessTrap side 1 = none → s.clear h p → s.dirtied p = .ok s1 →
       Sends (exec (.cshd h c b idx tr base disp cnt) s) s1 h
         [(cnt + 3, [s.storeAt a (out.map fun r => lineOf f (r.map (·.1))).flatten] ++
           (if bx then [s.storeAt (trecSide t) (shs.flatten.map fun g => BitVec.ofNat 8 (g % 32))] else []) ++
           s.cleaned (ts ++ side) ++ satIf lim ++ [.t tr tw.1 tw.2])])

/-- R51, R55, R160, R163, R172, R173: a dense tile is loaded into the lowest free slabs from 128 lines at a pitch, and stored to
such lines; a low-rank tile is stored as its components' positions. Pitch (log 24) and MSTF of an empty name (log 26) are the
model's readings. -/
def Obligations.TileTransferResults : Prop :=
  ∀ (h : Hdr) (d b tr base disp : Nat) (s s1 : State), d < 64 → b < 64 → tr < 16 → base < 16 →
    let x := s.core s.cf
    let t := s.rg.rt tr
    let f := trecFmt t
    let a := s.matAddr base disp
    let k := s.rg.rm d
    (∀ l, f ≠ 7 → x.lowest (denseSlabs f) = some l →
      let at_ (j : Nat) : Nat := (a + j * s.pitch b f) % 2 ^ 64
      let ts := lineTouches a (s.pitch b f) (lineBytes f) 128 false
      let side := sideTouch t 512 false
      let p := { foot [(.s, b, 2), (.t, tr, 5), (.a, base, 6)] [(.m, d, 0)] with
        touches := ts ++ side, locR := unitLocs ts ++ unitLocs side, locW := slabLocs l }
      s.accessTrap ts 16 = none → s.accessTrap side 1 = none → s.clear h p →
      Sends (exec (.mld h d b tr base disp) s) s h
        [(6 + denseSlabs f, .slabsHeld l :: (slabWrites l (imgOf (storedBits f) ((List.range 128).map fun j =>
            (lineCodes f (s.scratch (at_ j) (lineBytes f))).map (storedCode f))) ++
          [.m d { kind := 1, fmt := f, scale := trecScale t, zp := zpOf t, slabs := l
                  shifts := if fmtKind f = .bx then entriesFrom (fun _ => 0) 0 (s.sideShifts t 512) else [] }]))]
        fun u => u.takeSlabs u.cf l) ∧
    (k.kind = 1 →
      let line := lineBytes k.fmt
      let pitch := s.pitch b k.fmt
      let col (j : Nat) : List Byte := lineOf k.fmt (imgCol (x.pos k) (storedBits k.fmt) j)
      let ts := lineTouches a pitch line 128 true
      let p := { foot [(.m, d, 1), (.s, b, 2), (.a, base, 6)] [] with touches := ts, locR := slabLocs k.slabs, locW := unitLocs ts }
      s.accessTrap ts 16 = none → s.clear h p → s.dirtied p = .ok s1 →
      Sends (exec (.mst h d b base disp) s) s1 h [(k.slabs.length + 1,
        (if pitch = line then [s.storeAt a ((List.range 128).map col).flatten]
         else (List.range 128).map fun j => s.storeAt ((a + j * pitch) % 2 ^ 64) (col j)) ++ s.cleaned ts)]) ∧
    (k.kind ≠ 1 → a % 16 = 0 →
      let n := if k.kind = 2 then k.rank else 0
      let ts : List Touch := if n = 0 then [] else [{ addr := a, len := 512 * n, write := true }]
      let p := { foot [(.m, d, 1), (.a, base, 6)] [] with touches := ts, locR := slabLocs k.slabs, locW := unitLocs ts }
      s.accessTrap ts 16 = none → s.clear h p → s.dirtied p = .ok s1 →
      Sends (exec (.mstf h d base disp) s) s1 h [(n + 1, if n = 0 then [] else
        s.storeAt a ((List.range n).map fun p => vecBytes (x.pos k p)).flatten :: s.cleaned ts)])

/-- R163, R164, R168, R172, R183, R184, R186: the low-rank results MLDF (components from scratchpad), MLRU (rank-1 components
appended) and MLRADD (the components of two names): within RMAX the components and the name's descriptor, above it the densified
tile under DN or LROVF, else 0x20. The reuse of freed positions (log 22) is the model's reading. -/
def Obligations.LowRankSums : Prop :=
  ∀ (h : Hdr) (d a b base disp cnt eg eh tr : Nat) (dn : Bool) (s : State), d < 64 → a < 64 → b < 64 → tr < 16 → base < 16 →
    let x := s.core s.cf
    let k := s.rg.rm d
    let u := s.rg.rm a
    let v := s.rg.rm b
    (b < 16 → trecFmt (s.rg.rt b) = 4 → trecFmt (s.rg.rt tr) = 4 → 1 ≤ cnt → cnt ≤ 64 →
      let ad := s.matAddr base disp
      let ts : List Touch := [{ addr := ad, len := 512 * cnt, write := false }]
      s.accessTrap ts 16 = none →
      LowRank (exec (.mldf h d b tr dn base disp cnt) s) s h
        { foot [(.t, b, 2), (.t, tr, 5), (.a, base, 6)] [(.m, d, 0)] with touches := ts, locR := unitLocs ts }
        (6 + cnt) d {} [] (compsOf (s.scratch ad (512 * cnt)) cnt) (trecScale (s.rg.rt tr)) (trecScale (s.rg.rt b)) dn) ∧
    (k.kind ≠ 1 → (k.kind = 2 → k.eg = sextN 8 eg ∧ k.eh = sextN 8 eh) → 1 ≤ cnt → cnt ≤ 64 →
      let regs (r f : Nat) : List RegOp := (List.range ((cnt + 1) / 2)).map fun i => (.v, r + i, f)
      (∀ e ∈ regs a 1 ++ regs b 2, e.2.1 < 64) →
      LowRank (exec (.mlru h d a b dn cnt eg eh) s) s h (foot ((.m, d, 0) :: (regs a 1 ++ regs b 2)) [(.m, d, 0)])
        (4 + (cnt + 3) / 4) d k (x.factors k) ((List.range cnt).map fun c => (s.vcomp a c, s.vcomp b c))
        (sextN 8 eg) (sextN 8 eh) dn) ∧
    (u.kind ≠ 1 → v.kind ≠ 1 → (u.kind = 2 → v.kind = 2 → u.eg = v.eg ∧ u.eh = v.eh) →
      let e := if u.kind = 2 then u else v
      let new := if d = a then x.factors v else x.factors u ++ x.factors v
      LowRank (exec (.mlradd h d a b dn) s) s h
        { foot [(.m, a, 1), (.m, b, 2)] [(.m, d, 0)] with locR := (if d = a then [] else slabLocs u.slabs) ++ slabLocs v.slabs }
        (4 + (new.length + 3) / 4) d (if d = a then u else {}) (if d = a then x.factors u else []) new e.eg e.eh dn)

/-- R67, R168, R185, R187: MLRMUL multiplies H by the active plane, in place or into new slabs; MDENSE gives a dense tile: of a
low-rank tile the rounded sum of its components with the scale that keeps it in range, of a dense one a copy. The field that a
densified scale's trap names is the model's reading (log 27). -/
def Obligations.LowRankProducts : Prop :=
  ∀ (h : Hdr) (d a tr sh rm : Nat) (rr : Bool) (l : List Nat) (s : State), d < 64 → a < 64 → tr < 16 →
    let x := s.core s.cf
    let u := s.rg.rm a
    let take (w : State) : State := w.takeSlabs w.cf l
    let hold : List Write := if l = [] then [] else [.slabsHeld l]
    let fs := x.factors u
    (u.kind ≠ 1 → s.matMode tr rm rr ≤ 5 → s.rampSpent = false → x.arrayBusy = 0 →
      let m := s.matMode tr rm rr
      let scale := u.eh + x.plane.scale + (sh : Int)
      let st := m == 4 && decide (0 < sh) && fs != []
      let r := mapFrom (fun c (f : List Int × List Int) => (f.1, mapFrom (fun j w =>
        satW false 16 (rnd w sh m (if st then s.rword rr (s.rg.rt tr) (j * 128 + c) else 0))) 0 (rowTerms x.plane.cols f.2 [0, 0, 0, 0]))) 0 fs
      let out := r.map fun f => (f.1, f.2.map (·.1))
      let sl := if d = a then u.slabs else l
      (u.kind = 2 → scaleOk scale = true) → x.lowest (if d = a then 0 else fs.length) = some l →
      s.clear h { foot ((.m, a, 1) :: rrOp tr rr) [(.m, d, 0)] with
        locR := slabLocs u.slabs ++ [.plane (if x.active then 1 else 0)]
        locW := (if d = a then slabLocs u.slabs else []) ++ slabLocs l } →
      Sends (exec (.mlrmul h d a tr sh rm rr) s) s h
        [(8 + 4 * u.rank, hold ++ (slabWrites sl (out.map packComp) ++ .m d (lowDesc out u.eg scale sl) ::
          satIf (r.any fun f => f.2.any (·.2))))] fun w => State.keepArray (4 * u.rank) (take w)) ∧
    (u.kind = 2 → scaleOk (densify fs u.eg u.eh).2.1 = true → x.lowest 64 = some l →
      s.clear h { foot [(.m, a, 1)] [(.m, d, 0)] with locR := slabLocs u.slabs, locW := slabLocs l } →
      Sends (exec (.mdense h d a) s) s h [(132, denseWrites d fs u.eg u.eh l)] take) ∧
    (u.kind = 1 → d ≠ a → x.lowest u.slabs.length = some l →
      s.clear h { foot [(.m, a, 1)] [(.m, d, 0)] with locR := slabLocs u.slabs, locW := slabLocs l } →
      Sends (exec (.mdense h d a) s) s h
        [(132, hold ++ (slabWrites l ((List.range l.length).map (x.pos u)) ++ [.m d { u with slabs := l }]))] take) ∧
    (u.kind = 1 → s.clear h (foot [(.m, a, 1)] [(.m, a, 0)]) → Sends (exec (.mdense h a a) s) s h [(132, [])]) ∧
    (u.kind = 0 → s.clear h { foot [(.m, a, 1)] [(.m, d, 0)] with locR := slabLocs u.slabs } →
      Sends (exec (.mdense h d a) s) s h [(132, [.m d {}])])

/-- R174, R175, R188 to R191: recompression starts an operation of 64 + 8r + 5r² cycles that writes the new factors, or leaves
0x23 when their exponent leaves its range; MQRY reads a name's word or a slab's number, MFREE frees a name or a tile; MGET reads
a row, column or diagonal: codes of a dense tile, rounded sums of a low-rank one as 32-bit lanes; MPUT writes one, into a
low-rank tile through its densified form. That an MGET of a dense tile reads no record is the model's reading (log 25). -/
def Obligations.TileUpkeepResults : Prop :=
  (∀ (h : Hdr) (d a idx : Nat) (l : List Nat) (s : State), d < 64 → a < 64 →
     let x := s.core s.cf
     let k := s.rg.rm a
     (k.kind ≠ 1 → x.recomping = false → x.lowest (if d = a then 0 else (x.factors k).length) = some l →
       let r := (x.factors k).length
       let q := recompress (x.factors k) k.eg k.eh s.bk.cregs.tol.toNat
       let use := (if d = a then k.slabs else l).take q.1.length
       let free (n : Nat) : List Write := if l.drop n = [] then [] else [.slabsFree (l.drop n)]
       let hold : List Write := if l = [] then [] else [.slabsHeld l]
       let op (ws : List Write) (late : Option (Nat × Word)) : VarPlan :=
         { kind := .mrecomp, earliest := 64 + 8 * r + 5 * r * r, latest := some (64 + 8 * r + 5 * r * r), reg := some ⟨.m, d⟩
           writes := some ws, late := late }
       s.clear h { foot [(.m, a, 1)] [(.m, d, 0)] with
         locR := slabLocs k.slabs, locW := (if d = a then slabLocs k.slabs else []) ++ slabLocs l } →
       (q.1 = [] ∨ scaleOk q.2.1 = true → Begins (exec (.mrecomp h d a) s) s h
         (op (hold ++ free q.1.length ++ slabWrites use (q.1.map packComp) ++ .m d (lowDesc q.1 q.2.1 q.2.2.1 use) :: satIf q.2.2.2) none)
         fun w => w.takeSlabs w.cf l) ∧
       (q.1 ≠ [] → scaleOk q.2.1 = false → Begins (exec (.mrecomp h d a) s) s h
         (op (hold ++ free 0) (some (0x23, BitVec.ofNat 64 (2 ^ 63 + (s.bk.pc + s.bk.pipe.ctx.place) % 2 ^ 48))))
         fun w => w.takeSlabs w.cf l)) ∧
     (s.clear h (foot [(.m, a, 1)] [(.s, d, 0)]) →
       Sends (exec (.mqry h d a idx false) s) s h [(2, [.s d k.word])] ∧
       (∀ n, k.slabs[idx]? = some n → Sends (exec (.mqry h d a idx true) s) s h [(2, [.s d (BitVec.ofNat 64 n)])]) ∧
       (k.slabs.length ≤ idx → Sends (exec (.mqry h d a idx true) s) s h [(2, [.s d (BitVec.allOnes 64)])])) ∧
     (s.clear h (foot [] [(.m, d, 0)]) → Sends (exec (.mfree h d false) s) s h [(1, [.m d {}])]) ∧
     (s.clear h {} → d < 32 → s.inPart d = true → Sends (exec (.mfree h d true) s) s h [(1, [.freeTile d])])) ∧
  (∀ (h : Hdr) (d a dir idx tr sh rm : Nat) (rr : Bool) (l : List Nat) (s : State), d < 64 → a < 64 → tr < 16 → idx < 128 →
     1 ≤ dir → dir ≤ 3 →
     let x := s.core s.cf
     let k := s.rg.rm a
     let cells := lineCells dir idx
     (k.kind = 1 → (rr = false → rm ≤ 5) → s.clear h { foot [(.m, a, 1)] [(.v, d, 0)] with locR := slabLocs k.slabs } →
       Sends (exec (.mget h d a dir idx tr sh rm rr) s) s h [(8, [.v d fullRow (BitVec.ofNat 4096 (packN (storedBits k.fmt)
         (cells.map fun c => imgCode (x.pos k) (storedBits k.fmt) c.1 c.2)))])]) ∧
     (k.kind = 2 → s.matMode tr rm rr ≤ 5 → s.clear h { foot ((.m, a, 1) :: rrOp tr rr) [(.v, d, 0)] with locR := slabLocs k.slabs } →
       let v := cells.map fun c => sat32 (rnd (sumI ((x.factors k).map fun f => f.1.getD c.1 0 * f.2.getD c.2 0)) sh (s.matMode tr rm rr)
         (if s.matMode tr rm rr == 4 && decide (0 < sh) then s.rword rr (s.rg.rt tr) (c.1 * 128 + c.2) else 0))
       Sends (exec (.mget h d a dir idx tr sh rm rr) s) s h
         [(8, .v d fullRow (BitVec.ofNat 4096 (packN 32 (v.map fun e => wrapN 32 e.1))) :: satIf (v.any (·.2)))]) ∧
     (k.kind = 0 → s.matMode tr rm rr ≤ 5 → s.clear h { foot ((.m, a, 1) :: rrOp tr rr) [(.v, d, 0)] with locR := slabLocs k.slabs } →
       Sends (exec (.mget h d a dir idx tr sh rm rr) s) s h [(8, [.v d fullRow 0])]) ∧
     (let m := s.rg.rm d
      let b := storedBits m.fmt
      let w := cells.map fun c => (m.slabs.getD ((128 * c.2 + c.1) * b / 4096) 0, b * ((128 * c.2 + c.1) % (4096 / b)))
      let code (v : Nat) : Nat := if m.fmt = 6 then wrapN 4 (limitTo (-2) 1 (sextN 4 v)).1 else v
      m.kind = 1 → s.clear h { foot [(.m, d, 0), (.v, a, 1)] [(.m, d, 0)] with locW := slabLocs ((w.map (·.1)).dedup) } →
      Sends (exec (.mput h d a dir idx) s) s h [(2, List.zipWith (fun e v => .slabBits d e.1
        (BitVec.ofNat 4096 (2 ^ e.2 * (2 ^ b - 1))) (BitVec.ofNat 4096 (2 ^ e.2 * code v))) w (s.vlanes a b) ++
        satIf (m.fmt == 6 && ((s.vlanes a b).take 128).any fun v => (limitTo (-2) 1 (sextN 4 v)).2))]) ∧
     (let m := s.rg.rm d
      let r := densify (x.factors m) m.eg m.eh
      let put (cols : List (List Nat)) : List (List Nat) :=
        (List.zip cells (s.vlanes a 16)).foldl (fun cs e => cs.modify e.1.2 fun col => col.set e.1.1 e.2) cols
      m.kind = 2 → scaleOk r.2.1 = true → x.lowest 64 = some l →
      s.clear h { foot [(.m, d, 0), (.v, a, 1)] [(.m, d, 0)] with locR := slabLocs m.slabs, locW := slabLocs l } →
      Sends (exec (.mput h d a dir idx) s) s h [(130, (if l = [] then [] else [.slabsHeld l]) ++
        (slabWrites l (imgOf 16 (put r.1)) ++ .m d { kind := 1, fmt := 4, scale := r.2.1, slabs := l } :: satIf r.2.2))]
        fun w => w.takeSlabs w.cf l))

/-- R180: a chained MMA of the core that leads its gang, once the other members have arrived at it, streams its rows through
every member's plane: its own products come g - 1 cycles later, and it leaves the rows for the others. -/
def Obligations.ChainHeadResults : Prop :=
  ∀ (h : Hdr) (c idx tr base disp cnt : Nat) (acc : Bool) (s : State),
    let x := s.core s.cf
    let t := s.rg.rt tr
    let f := trecFmt t
    let line := lineBytes f
    let g := s.bk.task.gang.length
    let n := arrayCycles cnt (fmtBits f) (fmtBits x.plane.fmt)
    let rows := (List.range cnt).map fun r => c * 128 + idx + r
    let ad := s.matAddr base disp
    let ts := lineTouches ad line line cnt false
    let side := sideTouch t (4 * cnt) false
    let inf : ChainInfo := {
      fmt := f, cnt := cnt, zp := zpOf t, shifts := s.sideShifts t (4 * cnt)
      rows := (List.range cnt).map fun r => BitVec.ofNat 4096 (ofLeBytes (s.scratch (ad + r * line) line)) }
    1 < g → s.leads = true → s.chainMet (s.bk.task.chains + 1) = true → base < 16 → tr < 16 → c < 32 → f ≠ 7 → s.tileOpen c →
    cnt ≠ 0 → idx + cnt ≤ 128 → x.arrayBusy = 0 → s.rampSpent = false → s.accessTrap ts 16 = none → s.accessTrap side 1 = none →
    s.clear h {
      reads := refsOf [(.a, base, 6)] ++ refsOf [(.t, tr, 5)], writes := refsOf [(.c, c, 0)], touches := ts ++ side
      locR := unitLocs ts ++ unitLocs side ++ [.plane (if x.active then 1 else 0)]
      locW := if acc then [] else rows.map .accRow, rowsAcc := if acc then rows else [] } →
    Sends (exec (.mma h c idx tr acc true base disp cnt) s) s h
      [(8 + n + (g - 1), s.streamWrites c idx acc f (zpOf t) ((List.range cnt).map fun r => lineCodes f (s.scratch (ad + r * line) line))
        (s.sideShifts t (4 * cnt)))]
      fun u => State.keepArray (n + (g - 1)) ((u.claimTile c).setChain none (if (u.claimTile c).leads then some inf else none)
        (s.bk.task.chains + 1))

/-- R314: once a word has issued, its thread stands at the next one with its count raised; every other thread, the other
engines, the cores, memory and the network are as before. -/
def Obligations.WordLeavesTheRest : Prop :=
  ∀ (d t : Nat) (s : State),
    let h := (s.cle d).thread t
    let u := s.goOn d t
    (u.cle d).thread t = { h with last := h.pos, pos := h.pos + 1, count := (h.count + 1) % 2 ^ 32, held := false, kept := none } ∧
    (∀ k ≠ t, (u.cle d).thread k = (s.cle d).thread k) ∧ (∀ e ≠ d, u.cle e = s.cle e) ∧
    (u.cle d).counters = (s.cle d).counters ∧ (u.cle d).flags = (s.cle d).flags ∧ (u.cle d).groups = (s.cle d).groups ∧
    (u.cle d).tiles = (s.cle d).tiles ∧ (u.cle d).ops = (s.cle d).ops ∧
    u.mem = s.mem ∧ u.cores = s.cores ∧ u.net = s.net ∧ u.events = s.events

/-- R321, R329, R332 to R335, R319: the words that set chunk registers and loop counters, branch, wait, signal, end, and an
illegal word. A word that has to wait for the thread's operations is stated once they are done. The count of a failing word is
the model's reading (log 45). -/
def Obligations.ScheduleWordResults : Prop :=
  ∀ (k ln n ctr thr tile d t : Nat) (imm : BitVec 48) (off : BitVec 24) (w : BitVec 64) (s : State), s.onThread d t →
    let x := s.cle d
    let h := x.thread t
    let put (f : Chunk → Chunk) : State := s.wentThread d t fun h => { h with chunks := Tab.set {} h.chunks k (f (Tab.get {} h.chunks k)) }
    let left := (Tab.get 0 h.loops ln + 2 ^ 32 - 1) % 2 ^ 32
    let dest : Int := (h.pos : Int) + off.toInt
    let s1 := s.modCle d fun x => x.modThread t fun h => { h with loops := Tab.set 0 h.loops ln left }
    exec (.setkAddr k imm) s = .next (put fun c =>
      { c with addr := BitVec.ofNat 64 (imm.toNat % 2 ^ 47 + 2 ^ 63 * (imm.toNat / 2 ^ 47)) }) ∧
    exec (.setkAddrAdd k imm) s = .next (put fun c => { c with addr := c.addr + BitVec.ofInt 64 imm.toInt }) ∧
    exec (.setkRlen k imm) s = .next (put fun c => { c with rlen := imm.toNat }) ∧
    exec (.setkNrow k imm) s = .next (put fun c => { c with nrow := imm.toNat }) ∧
    exec (.setkRstr k imm) s = .next (put fun c => { c with rstr := imm.toNat }) ∧
    (∀ q l u, h.start = some q → s.loadBytes (x.threadMover d t) ((startArg q.num + 8 * imm.toNat) % 2 ^ 55) 8 = .ok (l, u) →
      exec (.setkAddrArg k imm) s = .next (u.wentThread d t fun h =>
        { h with chunks := Tab.set {} h.chunks k { Tab.get {} h.chunks k with addr := BitVec.ofNat 64 (ofLeBytes l) } })) ∧
    exec (.lystilLoop ln n) s = .next (s.wentThread d t fun h => { h with loops := Tab.set 0 h.loops ln (n % 2 ^ 32) }) ∧
    (left = 0 → exec (.bnz ln off) s = .next (s1.goOn d t)) ∧
    (left ≠ 0 → 0 ≤ dest → exec (.bnz ln off) s = .next (s1.modCle d fun x => x.pass t dest.toNat)) ∧
    (left ≠ 0 → dest < 0 → exec (.bnz ln off) s = .next (s1.stopWord d t 0x10)) ∧
    (thr ≤ x.counter ctr → exec (.lystilWait ctr thr) s = .next (s.goOn d t)) ∧
    (x.counter ctr < thr → exec (.lystilWait ctr thr) s = .next (s.went d t fun y =>
      { y.modThread t (fun h => { h with st := .waitCtr ctr thr y.armNext }) with armNext := y.armNext + 1 })) ∧
    (Tab.get 0 x.flags tile ≠ 0 → exec (.twait tile) s = .next (s.wentThread d t fun h => { h with since := h.since ++ (s.goOn d t |>.cle d).flagSince tile })) ∧
    (Tab.get 0 x.flags tile = 0 → exec (.twait tile) s = .next (s.wentThread d t fun h => { h with st := .waitFlag tile })) ∧
    (x.opsOf t = [] →
      exec (.sigAdd ctr n) s = .next (s.went d t fun y => y.stepTo ctr ((y.counter ctr + n) % 2 ^ 32)) ∧
      exec (.sigSet ctr n) s = .next (s.went d t fun y => y.stepTo ctr (n % 2 ^ 32)) ∧
      exec .sigSrc s = .next ((s.goOn d t).raise d t 0) ∧ exec .sigLoc s = .next ((s.goOn d t).raise d t 1) ∧
      (h.alls = [] → exec .lystilEnd s = .next (s.stopWord d t 0))) ∧
    (x.opsOf t ≠ [] → exec (.sigAdd ctr n) s = .next (s.holdWord d t) ∧ exec .lystilEnd s = .next (s.holdWord d t)) ∧
    exec (.lystilBadop w) s = .next (s.stopWord d t 0x10)

/-- R314, R322 to R328: a transfer, copy or reduction whose chunks are legal enters the engine's operations with its chunks, its
member, its number on its channel, its counter and its reduction; a receive is made known to its sender. A chunk that breaks a
rule ends the thread with CHUNK, unequal lengths with LENGTH. The count of a failing word (log 45), a failed group's PEER (log
46) and the order of TILE and GROUP (log 117) are the model's readings. -/
def Obligations.TransferWordResults : Prop :=
  ∀ (ka kb gs peer ctr rop rfmt clamp d t : Nat) (cn cb : Bool) (s : State), s.onThread d t →
    let x := s.cle d
    let a := x.chunk t ka
    let b := x.chunk t kb
    let r : RedOp := { rop := rop, rfmt := rfmt, clamp := if cb then some clamp else none }
    let es := if rop = 3 then 1 else redBytes rfmt
    let op (u : State) (o : LOp) : State := u.startOp d t { o with ctr := ctr, cn := cn }
    (x.opsFull t = false →
      (∀ g, x.group gs = some g → g.failed = [] →
        let m := g.member peer
        let used (g' : Group) : State := s.modCle d fun y => { y.use t gs with groups := Tab.set none y.groups gs (some g') }
        let recv (kind : LKind) (r : RedOp) : State :=
          let n := Tab.get 0 g.recvs m + 1
          (op (used { g with recvs := Tab.set 0 g.recvs m n })
            { id := 0, thread := none, kind := kind, ctx := g.ctx, gs := gs, peer := m, seq := n, dst := a, red := r
              readDone := true }).sendTo d (x.clsOf (some t)) g m .recvPosted n a.shape.total 0 []
        (a.bad false 1 = false →
          exec (.send ka gs peer ctr cn) s = .next (op (used { g with sends := Tab.set 0 g.sends m (Tab.get 0 g.sends m + 1) })
            { id := 0, thread := none, kind := .send, ctx := g.ctx, gs := gs, peer := m, seq := Tab.get 0 g.sends m + 1, src := a }) ∧
          exec (.recv ka gs peer ctr cn) s = .next (recv .recv {})) ∧
        (a.bad false es = false → exec (.recvr ka gs peer ctr cn rop rfmt cb clamp) s = .next (recv .recvr r))) ∧
      (a.shape.total = b.shape.total →
        (a.bad true 1 = false → b.bad true 1 = false → exec (.lystilCopy ka kb ctr cn) s = .next (op s
          { id := 0, thread := none, kind := .copy, ctx := x.threadCtx t, dst := a, src := b })) ∧
        (a.bad false es = false → b.bad false es = false → exec (.red ka kb ctr cn rop rfmt cb clamp) s = .next (op s
          { id := 0, thread := none, kind := .red, ctx := x.threadCtx t, dst := a, src := b, red := r })))) ∧
    (a.bad true 1 = true → exec (.lystilCopy ka kb ctr cn) s = .next (s.stopWord d t 0x12)) ∧
    (a.bad true 1 = false → b.bad true 1 = false → a.shape.total ≠ b.shape.total →
      exec (.lystilCopy ka kb ctr cn) s = .next (s.stopWord d t 0x11)) ∧
    (x.group gs = none → exec (.send ka gs peer ctr cn) s = .next (s.stopWord d t 0x13))

/-- R332, R333, R336, R338, R341: the words on groups and tiles: a remote addition, the done markers of SIG.ALL, a fire of a
usable entry, the join of a group by its member table, and its release. The context in which GJOIN reads is the model's reading
(log 49). -/
def Obligations.GroupWordResults : Prop :=
  ∀ (gs peer ctr n tile k inc gid d t : Nat) (s : State), s.onThread d t →
    let x := s.cle d
    let h := x.thread t
    (∀ g, x.group gs = some g → g.failed = [] → x.opsOf t = [] →
      exec (.sigRadd gs peer ctr n) s = .next ((s.went d t fun y => y.use t gs).sendTo d (x.clsOf (some t)) g (g.member peer) .radd ctr 0 n []) ∧
      (h.alls = [] → exec (.sigAll gs) s = .next (((s.went d t fun y =>
        let z := (y.use t gs).modThread t fun h => { h with alls := h.alls ++ [(gs, g.alls + 1)] }
        { z with groups := Tab.set none z.groups gs (some { g with alls := g.alls + 1 }) }).sendAll d (x.clsOf (some t)) g .done (g.alls + 1)).allDone d gs))) ∧
    (let u := s.tileRead d tile (x.threadCtx t)
     let x := u.cle d
     ∀ g, x.group (tileGs (x.tile tile)) = some g → g.failed = [] → x.entryBad tile = false → x.fieldsUsable tile = true →
      x.opsFull t = false →
      exec (.tfire tile) s = .next ((u.modCle d fun y =>
        let z := (y.use t (tileGs (x.tile tile))).startFire tile (some t) ((y.thread t).since ++ y.flagSince tile)
        z.modOp y.opNext fun o => { o with idx := (y.thread t).pos }).goOn d t)) ∧
    (let c := x.chunk t k
     let mine (p : Packet) : Bool := p.gid == gid && p.inc == inc
     ∀ l s1 me, x.group gs = none → (x.groups.all fun e => (e.2.map (·.gid)) != some gid) = true → inc = x.nextInc gid →
       c.bad false 1 = false → c.shape.total % 4 = 0 → c.shape.total ≤ 1024 →
       s.streamLoad (x.threadMover d t) c.shape (c.shape.total + 1) 0 c.shape.total = .ok (l, s1) →
       (membersOf l).findIdx? (fun m => m == (s.modn, d)) = some me → (membersOf l).Nodup →
       exec (.gjoin gs k inc gid) s = .next ((x.early.filter mine).foldl (fun u p => (u.handlePacket d p).getD u)
         (s1.went d t fun y => { y.use t gs with
           groups := Tab.set none y.groups gs (some { gid := gid, inc := inc, ctx := x.threadCtx t, members := membersOf l, self := me })
           early := y.early.filter fun p => !mine p }))) ∧
    (∀ g, x.group gs = some g → h.draining = true → g.drained = true →
      exec (.gfree gs) s = .next (s.went d t fun y =>
        { (y.modThread t fun h => { h with draining := false, used := h.used.erase gs }).discardRest g with
          incs := Tab.set 255 y.incs g.gid g.inc, groups := Tab.set none y.groups gs none })) ∧
    (∀ g, x.group gs = some g → h.draining = true → g.drained = false → exec (.gfree gs) s = .next (s.holdWord d t)) ∧
    (x.group gs = none → exec (.gfree gs) s = .next (s.stopWord d t 0x13))

/-- R37, R38, R40, R145, R154, R155, R158, R189, R249: a variable-latency operation of a bank whose results are known and whose
time has come completes, by an event of its kind: its registers take its results, its entry clears, the bank holds it no longer,
and a trap that it reports waits for the next boundary; the copy that an XLUTLD wrote becomes active. When an operation
completes is chosen by the list of moves (log 3). -/
def Obligations.CompletionEvents : Prop :=
  ∀ (c b id d : Nat) (v : VarOp) (s : State), b < 2 → (s.bankAt c b).varOp id = some v →
    (b = 1 → (s.bankAt c 0).varOp id = none) → v.writes.isSome = true → v.earliest ≤ (s.core c).cycle →
    let x := s.bankAt c b
    let t : State := s.completeVar c b v
    let y := t.bankAt c b
    (v.kind = .xlut → exec (.xlutComplete c b id) s = .next t) ∧
    (v.kind = .ldg → exec (.ldgComplete c b id) s = .next t) ∧
    (v.kind = .amo → exec (.amoComplete c b id) s = .next t) ∧
    (v.kind = .tldGlobal → exec (.tldGlobalArrival c b id) s = .next t) ∧
    (v.kind = .mrecomp → exec (.mrecompComplete c b id) s = .next t) ∧
    (x.pipe.vars.find? (fun w => w.kind == .xlutld) = some v → x.pipe.nextIssue ≤ x.pipe.clk →
      exec (.xlutTableActivate c b) s = .next t) ∧
    (x.pipe.pend = [] → x.pipe.landed = [] → v.dropped = false →
      (∀ n, v.writes = some [.s d n] → y.varOp id = none ∧ (v.sb ≠ 0 → y.regs.rsb v.sb = false) ∧
        ∀ i, y.regs.rs i = if i = d ∧ d ≠ 0 then n else x.regs.rs i) ∧
      (∀ m n, v.writes = some [.v d m n] → y.varOp id = none ∧ (v.sb ≠ 0 → y.regs.rsb v.sb = false) ∧
        ∀ i, y.regs.rv i = if i = d then (x.regs.rv d &&& ~~~m) ||| (n &&& m) else x.regs.rv i) ∧
      (∀ m n, v.writes = some [.t d m n] → y.varOp id = none ∧ (v.sb ≠ 0 → y.regs.rsb v.sb = false) ∧
        ∀ i, y.regs.rt i = if i = d then (x.regs.rt d &&& ~~~m) ||| (n &&& m) else x.regs.rt i) ∧
      (v.writes = some [.activate] → y.varOp id = none ∧ (v.sb ≠ 0 → y.regs.rsb v.sb = false) ∧ y.user.gen = !x.user.gen) ∧
      (∀ e, v.writes = some [] → v.late = some e → y.varOp id = none ∧
        y.pipe.late = x.pipe.late ++ [{ cause := e.1, info := e.2, slot := v.slot }]))

/-- R37, R40, R85, R110, R180, R211, R355, R358 to R360, R364, R365, R369, R370: what happens to a bank between its bundles. A
run of the address stream over the bundle ahead changes only the speculative copy, its place and the fills that it starts (R44
to R47). The time of a commit (log 13), the watchdog's single trap (log 14) and the count of rewinds (log 15) are the model's
readings; what the stream passes is log 80. -/
def Obligations.BankEvents : Prop :=
  (∀ (c b unit addr : Nat) (s : State),
     let x := s.core c
     let y := s.bankAt c b
     (∀ p, y.dueResult = some p →
       (p.latch = false → exec (.resultWrite c b) s = .next (s.land c b p)) ∧
       (p.latch = true → exec (.latchDelivery c b) s = .next (s.land c b p))) ∧
     (let over_ (k : Option (Nat × List Release)) (u : State) : State := u.modBank c b fun z => let y := z.freeBacks; { y with
        task := { y.task with wdog := 0, barked := false }
        pipe := { y.pipe with commit := k, entry := none, journal := [], early := [], unrewindable := false, rewinds := 0 } }
      ∀ n l, y.pipe.commit = some (n, l) → (y.pipe.mismatch.any fun e => e.2.2.isNone) = false →
       (l = [] → exec (.segmentCommit c b) s = .next (over_ none s)) ∧
       (∀ d, l = [.direct d] →
         (x.direct.length < 64 → exec (.segmentCommit c b) s =
           .next (over_ none (s.modCore c fun x => { x with direct := x.direct ++ [d] }))) ∧
         (64 ≤ x.direct.length → exec (.segmentCommit c b) s = .next (over_ (some (n, l)) s))) ∧
       (∀ o, l = [.push o] →
         let told (v : Bool) : State :=
           if o.waited then s.applyWrite c b (.p o.full v) else s.modBank c b fun z => z.launchResult o.slot 1 [.p o.full v]
         (∀ u, (told o.waited).offer c b o = some u → exec (.segmentCommit c b) s = .next (over_ none u)) ∧
         ((told o.waited).offer c b o = none →
           (o.q = false → exec (.segmentCommit c b) s =
             .next (over_ none ((told true).varDone c o.varId fun v => { v with writes := some [], late := none }))) ∧
           (o.q = true → exec (.segmentCommit c b) s = .next (over_ (some (n, [.push { o with waited := true }])) s))))) ∧
     (∀ o : Offer,
       (o.eng = 0 → (s.offer c b o = none ↔ 32 ≤ x.cpe0.cards.length) ∧ ∀ u, s.offer c b o = some u →
         (u.core c).cpe0.cards.map (·.cmd) = x.cpe0.cards.map (·.cmd) ++ [o.cmd]) ∧
       (o.eng = 1 → (s.offer c b o = none ↔ 32 ≤ x.cpe1.cards.length) ∧ ∀ u, s.offer c b o = some u →
         (u.core c).cpe1.cards.map (·.cmd) = x.cpe1.cards.map (·.cmd) ++ [o.cmd]) ∧
       (o.eng = 2 → (s.offer c b o = none ↔ 32 ≤ (s.cle (c / 64)).startQ.length)) ∧
       (o.eng = 3 → (s.offer c b o = none ↔ 64 ≤ (Tab.get [] s.spawns (c / 64)).length))) ∧
     (∀ u, y.state ≠ .empty → x.whole y.task.launch addr = none → s.fetchSegment c b addr = .ok u →
       exec (.segmentFetch c b addr) s = .next u ∧ ((u.core c).whole y.task.launch addr).isSome = true) ∧
     (∀ t, y.trapDue = some t →
       (t.switches = false → exec (.trapEntry c b) s = .next (s.takeLate c b t)) ∧
       (t.switches = true → exec (.bankSwitch c b) s = .next (s.takeLate c b t))) ∧
     (y.trapDue = none → x.cur = b → b < 2 → (x.bank b).alive = false → (x.bank (1 - b)).alive = true →
       exec (.bankSwitch c b) s = .next (s.switchTo c (1 - b))) ∧
     (x.cur = b → b < 2 → (x.bank b).alive = true → 2048 ≤ (x.bank b).task.slice → (x.bank (1 - b)).state = .ready →
       (x.bank (1 - b)).level = (x.bank b).level → (x.bank b).atBoundary = true →
       exec (.timeSliceEnd c) s = .next (s.switchTo c (1 - b))) ∧
     (let s1 := (s.modCore c fun x => x.disarmed unit).logCheck c b unit false
      let p := (s1.bankAt c b).pipe
      unit ≤ 4 → x.injectsTwo unit = false →
       (∀ u, y.state ≠ .empty → y.pipe.entry ≠ none → p.rewoundHere < 2 → s1.rewind c b = some u →
         exec (.segmentRewind c b unit) s = .next ((u.holdCycles c (4 + 8 * p.journal.length)).modCore c
           fun z => { z with spec := [], specPc := none })) ∧
       (∀ q, y.oldResult = some q → ((s.modCore c fun x => x.disarmed unit).bankAt c b).pipe.replayed.1 ≠ q.seq →
         exec (.localReplay c b unit) s = .next ((s1.modBank c b fun z =>
           z.modPipe fun r => { r with replayed := (q.seq, 1) }).holdCycles c 1))) ∧
     (let n := bitsN x.cregs.wdog.toNat 0 32
      y.state ≠ .empty → y.monitor = false → n ≠ 0 → 1024 * n ≤ y.task.wdog → y.task.barked = false →
       exec (.watchdog c b) s = .next (s.modBank c b fun z => { z with
         task := { z.task with barked := true }
         pipe := { z.pipe with late := z.pipe.late ++ [{ cause := 0x41, info := BitVec.ofNat 64 (y.task.wdog / 1024) }] } })) ∧
     (∀ g, y.task.rdvAt = some g → y.state = .blocked .rendezvous → 2 ^ 24 < y.pipe.held →
       exec (.rendezvousTimeout c b) s = .next ((s.modBank c b fun z => { z with task := { z.task with rdvAt := none } }).takeTrapAt c b
         { cause := 0x32, info := BitVec.ofNat 64 g })) ∧
     (y.task.chainAt.isSome = true → y.state = .blocked .chain → 2 ^ 24 < y.pipe.held →
       exec (.chainTimeout c b) s = .next ((s.modBank c b fun z => { z with task := { z.task with chainAt := none } }).takeTrapAt c b
         { cause := 0x32, slot := 7, info := 8 }))) ∧
  (∀ (c b p : Nat) (g : Seg) (l : List Instr) (s : State),
     let x := s.core c
     let y := s.bankAt c b
     y.seg = some g → x.cur = b → cctlAse y.cregs.cctl = true → y.state ≠ .empty →
     let go (s1 : State) (p : Nat) : Prop :=
       let past := s1.bundlesTo c b p 33 y.pc
       (past.length < 32 → g.idx + past.length ≤ g.hdr.len → s1.bundleAt c b 8 p = some l →
         s1.streamReady c b (past.map (outsideDests s1)).flatten l = true →
         exec (.addressStreamRun c b) s = .next ((s1.streamBundle c b l).modCore c fun x => { x with specPc := some (p + l.length) })) ∧
       (32 ≤ past.length ∨ g.hdr.len < g.idx + past.length → exec (.addressStreamRun c b) s = .next s1)
     (x.specPc = none → go (s.modCore c fun x => { x with spec := [], specPc := some y.pc }) y.pc) ∧
     (x.specPc = some p → y.pc ≤ p → go (s.modCore c fun x => x) p))

/-- R205, R208, R209, R213 to R219, R224, R373 to R377: placement, acceptance and completion of launches, admission,
pre-emption, saves, resumption, aging, phases and ramp windows. The notice of a completed launch (log 57), the place of a party
and of a record (logs 53, 54), aging (log 89) and RAMP.STEP between windows (log 31) are the model's readings. -/
def Obligations.TaskEvents : Prop :=
  ∀ (c k b n lid src : Nat) (s : State), c < coreCount →
    let r := s.requeue c
    let x := r.core c
    let l := s.launch lid
    (∀ l w g p t q, headEntry x.runQ = some (.fresh l w [c] g p t) → x.emptyBank?.isSome = true → r.gangBank c l g = some (b, q) →
      exec (.taskAdmit c) s = .next (r.admitFresh c b q)) ∧
    (∀ l w pc p t live, headEntry x.runQ = some (.record l w pc p t live) → x.emptyBank? = some b →
      r.fits c b (r.launch l).nest = true → exec (.taskAdmit c) s =
        .next ((r.modCore c fun z => z.dequeue (.record l w pc p t live)).startRecord c b l w pc p t live)) ∧
    (∀ g, x.saver = none → r.saveSet c b = g → g.length = max 1 (r.bankAt c b).task.gang.length →
      (g.all fun e => r.savable e.1 e.2) = true →
      (x.victim = some b → x.freeArea = some k → x.preempts = true → exec (.preemption c) s = .next (r.saveBanks g)) ∧
      (x.bank0.waitsOthers = true → x.bank1.waitsOthers = true → 4096 ≤ x.bothBlocked → x.runQ ≠ [] →
        b = (if x.bank0.task.blocked < x.bank1.task.blocked then 1 else 0) →
        exec (.blockedBankSave c) s = .next (r.saveBanks g))) ∧
    ((r.bankAt c b).task.gang.length ≤ 1 → r.saveSet c b = [(c, b)]) ∧
    (∀ a p t v, headEntry x.runQ = some (.saved a p t) → a = k → x.saved.find? (fun v => v.area == k) = some v → v.slabsOut = [] →
      v.planes = none → (x.bank v.bankNo).state = .empty → r.fits c v.bankNo (r.launch v.bank.task.launch).nest = true →
      v.settled = true → r.linkUp v.addr saveSize 0 = true → (v.parts.findSome? fun e => r.badIn (v.addr + e.1) e.2) = none →
      exec (.contextResume c k) s = .next (r.resume c v t [])) ∧
    (∀ v, (s.core c).saved.find? (fun v => v.area == k) = some v →
      (v.inPool.contains n = true → exec (.lazyWriteout c k 0 n) s = .next (s.spillSlab c v n)) ∧
      (v.tiles.contains n = true → v.tilesOut.contains n = false → exec (.lazyWriteout c k 1 n) s = .next (s.spillTile c v n)) ∧
      (v.planes = none → exec (.lazyWriteout c k 2 n) s = .next (s.spillPlane c v))) ∧
    (b < 2 → (s.bankAt c b).state = .ready → 2 ^ 20 ≤ (s.bankAt c b).task.waited →
      exec (.priorityAging c b) s = .next (s.modBank c b fun y => { y with
        cregs := { y.cregs with taskPrio := BitVec.ofNat 64 ((if y.level < y.pcap then y.level + 1 else y.level) + 16 * y.pcap) }
        task := { y.task with waited := 0 } })) ∧
    (s.placeTurn lid = true →
      (∀ die q, s.runnable lid = some (die, q) → s.pickHead l.nest (fun _ => true) = some c →
        exec (.ramblerPlace lid) s = .next (s.placeRecord die q c)) ∧
      (s.runnable lid = none → s.freshPlace l = some c → exec (.ramblerPlace lid) s = .next (s.placeFresh lid c))) ∧
    (∀ a p u, s.ask src = some a → s.enumerating < 64 → s.nestWaits src = false → a.addr % 128 = 0 → a.addr < 2 ^ 55 →
      s.translateFresh 0 a.ctx a.addr .read true false = .ok (p, u) → u.linkUp p 128 0 = true → u.badIn p 128 = none →
      let n := nestOf (u.homeLoad p 128)
      exec (.ramblerLaunchAccept src) s =
        .next (if n.ok then (u.access p 128).startLaunch src a n else (u.access p 128).reject src a)) ∧
    (∀ q m, s.hasLaunch lid = true → l.finished = true → s.launchOwes lid = false → l.killed = 0 → l.source = .queue q m →
      exec (.launchComplete lid) s = .next (({ s with launches := s.launches.filter fun e => e.1 != lid }.feDone q m).notify
        (0x22#8 :: 0#8 :: leBytes 8 l.started ++ leBytes 8 0 ++ leBytes 1 l.firstCause))) ∧
    (let s1 := s.cores.foldl (fun u e => u.modCore e.1 Core.rollRamp) s
     (s.mod.rampNext = none → exec .rampWindow s = .next s1) ∧
     (∀ v w, s1.mod.rampNext = some (v, w) → (s1.cores.all fun e => decide (w < e.2.rampWin)) = true →
       exec .rampWindow s = .next { s1 with mod := { s1.mod with rampStep := v, rampNext := none } }))

/-- R219: a phase whose members have all arrived releases every waiting bank of its party. -/
def Obligations.PhaseReleases : Prop :=
  ∀ (lid scope wid k c : Nat) (s : State), s.hasLaunch lid = true → scope ≤ 7 → k ≠ 0 →
    ((s.phaseLaunches lid scope).all fun e => e.2.partyThere scope wid k) = true → s.phaseSettled lid scope wid k = true →
    s.records = [] → (s.cores.map (·.1)).Nodup → tabOk (fun _ => ({} : Core)) s.cores = true → (∃ x, (c, x) ∈ s.cores) →
    s.waitsPhase lid scope wid k (s.core c).bank0 = true →
    Gives (exec (.phaseComplete lid scope wid k) s) fun t =>
      (t.core c).bank0 = (s.core c).bank0.phasePassed ∧ (t.core c).bank0.state ≠ .blocked .phase

/-- R222, R223, R345, R402, R403: the front end's entries and the host's commands on its queues. The bytes of a notice (log 57),
an unreadable entry (log 55) and what HALTQ discards (log 56) are the model's choices. -/
def Obligations.FrontEndEvents : Prop :=
  ∀ (q base size prio : Nat) (v : BitVec 32) (s : State), q < 16 →
    let x := s.feQueue q
    (∀ n, s.feTurn q = some n → s.badIn x.at 32 = none →
      let u := s.feStart q n
      (feType n = 1 → exec (.feLaunch q) s = .next u) ∧
      (feType n = 2 →
        let a := bitsN n 64 64 % 2 ^ 52
        u.badIn a 64 = none → exec (.feSched q) s = .next ((u.access a 64).acceptStart (bitsN (feOpnd n) 3 3)
          { thread := feOpnd n % 8, ctx := startCtx (ofLeBytes (memRead u.mem a 64)), block := memRead u.mem a 64
            src := .sched q x.head })) ∧
      (feType n = 3 → (x.entries.all fun e => e.typ != 3) = true → exec (.feWaitev q) s = .next (u.feWaited q)) ∧
      (feType n = 4 → exec (.feSigev q) s = .next ((u.signal (bitsN n 64 8) (feOpnd n)).feDone q x.head)) ∧
      (feType n = 5 →
        ((feOpnd n).testBit 0 = false → exec (.haltqDrain q) s = .next ((u.cancelQueue q false).feHalt q)) ∧
        ((feOpnd n).testBit 0 = true → exec (.haltqKill q) s = .next ((u.cancelQueue q true).feHalt q))) ∧
      (feType n = 0 ∨ 5 < feType n → exec (.feBadEntry q) s =
        .next ((s.modFe q fun z => { z with running := false }).notify [0x22#8, 4#8, BitVec.ofNat 8 q]))) ∧
    exec (.queueTailWrite q v) s = .next (s.modFe q fun z => { z with tail := v.toNat }) ∧
    (x.running = false → ringSizeOk size = true → prio ≤ 15 →
      exec (.setq q base size prio) s = .next ((s.modFe q fun z => { z with base := base, size := size, prio := prio }).replyWith [0])) ∧
    (x.running = true → exec (.setq q base size prio) s = .next (s.replyWith [0xFF])) ∧
    (x.size ≠ 0 → exec (.startq q) s = .next ((s.modFe q fun z => { z with running := true }).replyWith [0])) ∧
    exec (.stopq q) s = .next ((s.cancelQueue q false).replyWith [0])

/-- R232, R243 to R257, R372, R381, R402: fills, write-backs, direct accesses, windows, the sweeper, migration, scrubbing,
answers. A write that lands in a sector being filled (log 123) and how much an event moves (log 128) are the model's readings.
The free fields of records (log 58), the numbering of the host's windows (log 78) and the ring of a failed migration (log 77)
are the model's choices. -/
def Obligations.MemoryEvents : Prop :=
  ∀ (c b r sec id off len n frame die seq v : Nat) (w : BitVec 64) (s : State),
    (∀ g f, (s.bankAt c b).region r = some g → g.fills.find? (fun f => f.sec == sec) = some f → s.pace = none →
      s.linkUp f.home 4096 1 = true → (s.bankAt c b).backBefore f.after f.home = false → f.got = [] → f.inv = false →
      g.secState f.sec = .fill →
      let l := cutUnits [(f.home, 4096)]
      l.findSome? (fun p => s.badIn p.1 p.2) = none →
      let u := l.foldl (fun u p => (((u.landWin p.1).correct (s.bankAt c b).cregs.ctxid.toNat p.1 p.2).touchFrames p.1 p.2).usePorts
        1 (c / 64) 0 p.1 p.2) s
      exec (.fillLands c b r sec) s = .next ((u.putHome
        (secAddr c g f.sec) (l.map fun p => u.readHome p.1 p.2).flatten).modBank c b fun z =>
          z.setRegion r (some (({ g with fills := g.fills.erase f } : Region).setSec f.sec .clean)))) ∧
    (∀ o a l, s.writebackOf c id = some o → o.writes = some [.home a l] → s.pace = none →
      exec (.writebackAck c b id) s = .next
        ((((s.writeHome a l).usePorts 2 (c / 64) 0 a l.length).modCore c fun x =>
          { x with orphans := x.orphans.filter fun o => o.2.id != id }).varDone c id fun o => { o with writes := some [] })) ∧
    (∀ d l u, (s.core c).firstDirect b = some d → d.faulted = false → d.homes = [] → d.done = 0 → s.pace = none →
      s.directHomes c d.ctx d.kind.acc d.task 0 (pageParts d.va d.len) = .ok (l, u) →
      let e : Direct := { d with homes := l }
      let v := u.modCore c fun x => x.putDirect b e
      (∀ a n, v.badIn a n = none ∧ v.badPart a n = none) →
      let q := (v.modCore c fun x => x.dropDirect b).performUnits64 c e (cutUnits l)
      exec (.directAccessPerform c b) s = .next (q.1.directDone c q.2.1 q.2.2)) ∧
    (let a := coreWindow c + off
     let u := s.landWin a
     c < coreCount → off + len ≤ 0x1000000 →
      (u.badIn a len = none → exec (.coreWindowAccess c off len none) s =
        .next { u.correct 0 a len with answer := u.readHome a len }) ∧
      (u.badPart a len = none → exec (.coreWindowAccess c off len (some v)) s = .next (u.writeHome a (leBytes len v)))) ∧
    (let a := bitsN s.mgmt.winBase.toNat 36 5 * 2 ^ 36 + off
     let s1 := (s.touchFrames a len).usePorts 0 8 0 a len
     off < 2 ^ 36 → s.linkUp a len 0 = true →
      (s.badIn a len = none → exec (.hostWindowAccess off len none) s = .next { s1 with answer := s.homeLoad a len }) ∧
      (s.badPart a len = none → exec (.hostWindowAccess off len (some v)) s = .next (s1.homeStore a (leBytes len v)))) ∧
    (let m := s.mod.sweepCtl.toNat
     let count := (s.mod.sweepTail.toNat + 2 ^ 32 - s.mod.sweepHead.toNat) % 2 ^ 32
     (m.testBit 0 = true → count < bitsN m 8 20 → count < bitsN m 28 20 →
       exec .sweepStep s = .next ({ s with sweeping := true }.sweepFrame)) ∧
     (m.testBit 0 = false → exec .sweepStep s = .next { s with sweeping := false })) ∧
    exec (.migTailWrite w) s = .next { s with mod := { s.mod with migTail := w &&& 0xFFFFFFFF } } ∧
    (s.migReady = true → s.badIn (s.migAddr s.mod.migHead.toNat) 32 = none →
      (migOk s.migCmd = true → exec .migrationMoveStart s = .next (s.moveStart s.migCmd)) ∧
      (migOk s.migCmd = false → exec .migrationBadCommand s = .next (s.migNext.migStatus s.mod.migHead.toNat 4))) ∧
    (∀ m, s.migs.find? (fun m => m.n == n) = some m →
      (s.cores.any fun e => e.2.usesFrame (s.leafHome m.old)) = false →
      exec (.migrationDrainDone n) s = .next { s with migs := s.migs.map fun k => if k.n = n then { k with copying := true } else k }) ∧
    (∀ m, s.migOf n = some m →
      let a := s.leafHome m.old
      let s1 := ((s.putHome (s.leafHome m.npte) (s.homeBytes a 65536)).usePorts 3 8 0 a 65536).usePorts 3 8 0 (s.leafHome m.npte) 65536
      let f (u : State) (on off : Nat) : State := match s.localFrame m.old with
        | some f => u.putFrame f on off
        | none => u
      (s.badIn a 65536 = none → s.linkUp a 65536 3 = true → s.linkUp (s.leafHome m.npte) 65536 3 = true → exec (.migrationCommit n) s = .next ((s1.migFrames m).migEnd m
        (setBitsN (setBitsN m.npte 5 1 0) 6 1 ((memNat s1.mem m.pte 8 &&& 64) / 64)) 1)) ∧
      (∀ k, s.badIn a 65536 = some k → exec (.migrationLost n) s =
        .next ((f (s.postBad 0 m.ctx k reportCore 0) 32 16).migEnd m (setBitsN (memNat s.mem m.pte 8) 7 2 1) 2)) ∧
      exec (.migrationFail n) s = .next (((f s 0 16).migEnd m (setBitsN (memNat (f s 0 16).mem m.pte 8) 8 1 0) 3).postFlt 0
        { kind := 5, info := reportInfo, ctx := m.ctx, addr := ptePfn m.old * 65536, core := reportCore, unit := 0 } .none)) ∧
    (let u := (s.correct 0 (frame * 65536) 65536).usePorts 3 8 0 (frame * 65536) 65536
     frame < 2 ^ 25 → (u.badIn (frame * 65536) 65536 = none → exec (.scrubPass frame) s = .next u) ∧
      ∀ k, u.badIn (frame * 65536) 65536 = some k →
      let a := frameTable + 16 * frame
      let w := u.usePorts 3 8 0 a 16
      let s1 := w.postBad 0 (memNat w.mem (a + 8) 2) k reportCore 0
      let pte := memNat w.mem a 8 / 8 * 8 % 2 ^ 52
      ((w.frame frame).testBit 0 = true → exec (.scrubPass frame) s =
        .next ({ s1 with mem := memPut s1.mem pte 8 (setBitsN (memNat s1.mem pte 8) 7 2 1) }.usePorts 3 8 0 pte 8)) ∧
      ((w.frame frame).testBit 0 = false → exec (.scrubPass frame) s = .next s1)) ∧
    (∀ e, (s.ring die).pending.find? (fun e => e.1 == seq) = some e →
      let u := s.setRing die { s.ring die with pending := (s.ring die).pending.filter fun d => d.1 != seq }
      exec (.fltAnsRetry die seq) s = .next (u.retry e.2) ∧ exec (.fltAnsEnd die seq) s = .next (u.endFault e.2))

/-- R284 to R309: the copy engines: a job that has started goes on by its type, its card closes with what it did; a chain walks
its entries; a routine writes its registers; a finished job writes its token and leaves. R288 to R293: what a transfer of one
piece, whose source and destination each lie in one unit of 64 bytes, leaves: COPY, FILL, GATHER and SCATTER store the bytes of
the source, the pattern or the indexed row at the destination; CONVERT stores the narrowed elements and, under a BX format or
with residues, the group's shift or the residues at AUX; the job ends DONE. Bytes stored to plain memory stand at their
addresses. A write of CPEn.RLOAD with GO keeps the address and starts a load (R307, R308); the load puts the image into the
inactive copy of the routine store, which becomes the active one, and its measurement is appended. A routine reads the registers
of its job; an instruction of it is fetched from the routine store, executed and counted, and an exception ends it with 0xFFFF
(R303, R305, R306). How much an event moves (log 32), an overlap's bytes (log 33), a measurement's value (log 62) and the
encodings and effects of a routine's instructions (log 101) are the model's. -/
def Obligations.EngineEvents : Prop :=
  (∀ (c e k : Nat) (d : Card) (v : BitVec 64) (s : State), s.card c e k = some d →
     let n := ofLeBytes d.cur
     let m := (s.engine c e).micro
     (d.status = none → d.fault = none → d.moving = true →
       (d.type = 1 → cmdType n = 1 → exec (.copyJob c e k) s = .next ((s.runCopy c e d).close c e)) ∧
       (d.type = 2 → cmdType n = 2 → exec (.convertJob c e k) s = .next ((s.runConvert c e d).close c e)) ∧
       (d.type = 3 → cmdType n = 3 → exec (.gatherJob c e k) s = .next ((s.runRows c e d false).close c e)) ∧
       (d.type = 4 → cmdType n = 4 → exec (.scatterJob c e k) s = .next ((s.runRows c e d true).close c e)) ∧
       (d.type = 5 → cmdType n = 5 → exec (.fillJob c e k) s = .next ((s.runFill c e d).close c e)) ∧
       (d.type = 7 → cmdType n = 7 → exec (.xformJob c e k) s = .next ((s.runXform c e d).close c e))) ∧
     (d.status = none → d.fault = none → d.moving = false → d.started = false → s.mayStart c e d = true →
       let begun := (s.startAndRun c e d).close c e
       (d.type = 1 → exec (.copyJob c e k) s = .next begun) ∧ (d.type = 2 → exec (.convertJob c e k) s = .next begun) ∧
       (d.type = 3 → exec (.gatherJob c e k) s = .next begun) ∧ (d.type = 4 → exec (.scatterJob c e k) s = .next begun) ∧
       (d.type = 5 → exec (.fillJob c e k) s = .next begun) ∧ (d.type = 6 → exec (.decodeJob c e k) s = .next begun) ∧
       (d.type = 7 → exec (.xformJob c e k) s = .next begun) ∧
       (d.type = 8 → exec (.chainJob c e k) s = .next (s.setCard c e { d with started := true, entry := 0, loops := [] }))) ∧
     ((s.engine c e).decoding = some d → d.fault = none → d.type = 6 →
       exec (.decodeBlockDeliver c e) s = .next ((s.deliverBlock c e d).close c e)) ∧
     (m.job = some k → m.live = true → m.exit = none →
       let put (f : Micro → Micro) : State := s.modEngine c e fun g => g.modMicro f
       (m.needHold = none → m.markHold = none →
         exec (.xfIneedWrite c e v) s = .next (put fun m => { m with
           ineed := v.toNat, needHold := if min v.toNat (cmdLen0 n) ≤ m.landed then none else some (min v.toNat (cmdLen0 n)) }) ∧
         exec (.xfIfreeWrite c e v) s = .next (put fun m => if v.toNat < m.ifree then m.quit 0xFFFF else { m with ifree := v.toNat }) ∧
         exec (.xfOmarkWrite c e v) s = .next (put fun m =>
           if v.toNat < m.omark ∨ cmdLen2 n < v.toNat then m.quit 0xFFFD
           else { m with omark := v.toNat, markHold := if v.toNat ≤ m.odrain + 65536 then none else some v.toNat }) ∧
         exec (.xfDoneWrite c e v) s = .next (put fun m => m.quit (v.toNat % 65536))) ∧
       (2 ^ 32 ≤ m.cycle → exec (.xformTimeout c e) s = .next (s.microEnd c e 0xFFFE)) ∧
       exec (.microcoreException c e) s = .next (s.microEnd c e 0xFFFF)) ∧
     (∀ f, d.fault = some f → d.posted = false → exec (.jobPageFault c e k) s = .next
       ((s.setCard c e { d with posted := true }).postFlt (c / 64)
         { kind := 2, info := f.2.2 * 16 + f.2.1, ctx := d.ctx, addr := f.1, core := c, unit := d.bank + 2 * (e + 1) } (.card c e k))) ∧
     (∀ t, d.status = some t → s.followDone c e d = true → s.owes ⟨c, e, k⟩ = false →
       exec (.jobComplete c e k) s = .next
         ((((s.modEngine c e fun g => { g with cards := g.cards.filter fun q => q.k != k }).token c d.varId d.tok (d.word t))).modLaunch
           d.launch fun l => { l with jobs := l.jobs - 1 }))) ∧
  (∀ (c e : Nat) (d : Card) (s s1 s2 s3 : State) (l i : List Byte), d.pos = 0 → d.rd = [] → d.wr = [] → d.aux = [] →
     let n := ofLeBytes d.cur
     let m := d.mover c e
     let q := cmdN0 n
     let unit (a k : Nat) : Prop := 0 < k ∧ a % 64 + k ≤ 64
     let done (r : JobRes) (u : State) : Prop := r.st = u ∧ r.fin = some 0
     (s.pace = none → cmdN1 n = 1 →
       (cmdN2 n = 1 → cmdN3 n = 1 → unit (cmdSrc n) q → unit (cmdDst n) q →
         s.engLoad m (cmdSrc n) q = .ok (l, s1) → l.length = q → s1.engStore m (cmdDst n) l = .ok s2 → done (s.runCopy c e d) s2) ∧
       (cmdN2 n = 1 → cmdN3 n = 1 → unit (cmdDst n) q →
         s.engStore m (cmdDst n) ((List.range q).map fun j => (leBytes 8 (cmdSrc n)).getD (j % 8) 0) = .ok s2 →
         done (s.runFill c e d) s2) ∧
       (let x := ofLeBytes i
        unit (cmdAux n) 4 → s.engLoad m (cmdAux n) 4 = .ok (i, s1) → i.length = 4 → x < cmdN2 n → l.length = q →
         (unit (cmdSrc n + x * cmdSs n 0) q → unit (cmdDst n) q → s1.engLoad m (cmdSrc n + x * cmdSs n 0) q = .ok (l, s2) →
           s2.engStore m (cmdDst n) l = .ok s3 → done (s.runRows c e d false) s3) ∧
         (unit (cmdSrc n) q → unit (cmdDst n + x * cmdDs n 0) q → s1.engLoad m (cmdSrc n) q = .ok (l, s2) →
           s2.engStore m (cmdDst n + x * cmdDs n 0) l = .ok s3 → done (s.runRows c e d true) s3)) ∧
       (let f := cmdDfmt n
        let sb := fmtBits (cmdSfmt n)
        let db := fmtBits f
        let xs := (lanesN (ofLeBytes l) sb q).map (decodeElem (cmdSfmt n) 0)
        let word (j : Nat) : Nat :=
          (prng d.seed c (j % 65536) (BitVec.ofNat 64 (2 ^ 63 * e + (d.draw + j / 65536) % 2 ^ 63))).toNat
        ∀ (k cls : Nat), (∀ x ∈ xs, cls ≤ clsN 32 (wrapN 32 x)) → (∃ x ∈ xs, cls = clsN 32 (wrapN 32 x)) →
         k = (if cmdBx n then min 15 (32 - cls - censusWidth f + cmdSh n) else cmdSh n) →
         let narrow (j : Nat) (x : Int) : Nat := (narrowTo f (cmdClamp n) (cmdZp n) x k (cmdRnd n) (if cmdRnd n = 4 then word j else 0)).1
         let ys := mapFrom narrow 0 xs
         let wr := fmtBits (cmdRfmt n)
         let res := List.zipWith (fun x y => (satW false wr (rnd (x - decodeElem f (cmdZp n) y * ((2 ^ k : Nat) : Int)) (k + 1 - wr) 0 0)).1) xs ys
         cmdN2 n = 1 → cmdN3 n = 1 → q ≤ 32 → q * sb % 8 = 0 → q * db % 8 = 0 → unit (cmdSrc n) (q * sb / 8) →
         unit (cmdDst n) (q * db / 8) → s.engLoad m (cmdSrc n) (q * sb / 8) = .ok (l, s1) → l.length = q * sb / 8 →
         s1.engStore m (cmdDst n) (leBytes (q * db / 8) (packN db ys)) = .ok s2 →
         (cmdBx n = false → cmdEf n = false → done (s.runConvert c e d) s2) ∧
         (cmdBx n = true → s2.engStore m (cmdAux n) [BitVec.ofNat 8 k] = .ok s3 → done (s.runConvert c e d) s3) ∧
         (cmdBx n = false → cmdEf n = true → q * wr % 8 = 0 → unit (cmdAux n) (q * wr / 8) →
           s2.engStore m (cmdAux n) (leBytes (q * wr / 8) (packN wr (res.map (wrapN wr)))) = .ok s3 → done (s.runConvert c e d) s3))) ∧
     (∀ h a, s.place m a l.length .write = .ok (.home h, s1) → s.engStore m a l = .ok s2 → tileWin h = none →
       isPlain h l.length = true → h + l.length ≤ remoteBase → (h + l.length ≤ frameTable ∨ frameTableEnd ≤ h) →
       ∀ j, j < l.length → s2.homeByte (h + j) = l.getD j 0) ∧
     (∀ h a k, s.place m a k .read = .ok (.home h, s1) → s.engLoad m a k = .ok (l, s2) → tileWin h = none → m.lap.outs = [] →
       l = (s1.landWin h).homeBytes h k)) ∧
  (∀ (c e : Nat) (v : BitVec 64) (s : State),
     let g := s.engine c e
     let reg (w : Word) (x : Core) : Core :=
       { x with cregs := if e = 0 then { x.cregs with cpeRload0 := w } else { x.cregs with cpeRload1 := w } }
     (v.toNat.testBit 0 = true → g.loading = false → g.copyBusy = false →
       exec (.routineLoadStart c e v) s =
         .next ((s.modCore c (reg (v &&& 0xFFFFFFFFF0000))).modEngine c e fun g =>
           { g with loading := true, loadFrom := v.toNat / 65536 % 2 ^ 36 * 65536 })) ∧
     (let a := g.loadFrom
      let img : Tab Byte := entriesFrom (fun _ => 0) 0 (memRead s.mem a 65536)
      let base := if g.gen then 0 else 65536
      g.loading = true → s.badIn a 65536 = none →
       exec (.routineLoadComplete c e) s = .next
         (((({ s with mgmt := { s.mgmt with loaded := s.mgmt.loaded ++ [measure (memRead s.mem a 65536)] } }.modCore c fun x =>
           { x with upsets := x.upsets.filter fun u => u.1 != 6 + e || decide (u.2.1 < base ∨ base + 65536 ≤ u.2.1) }).access a 65536)).modEngine
           c e fun g => if g.gen then { g with store0 := img, bad0 := false, gen := false, loading := false }
             else { g with store1 := img, bad1 := false, gen := true, loading := false }))) ∧
  (∀ (v : RvEnv) (m : Micro) (w : Nat),
     (v.readCsr m 0x800 = some (BitVec.ofNat 64 m.landed) ∧ v.readCsr m 0x801 = some (BitVec.ofNat 64 m.ifree) ∧
       v.readCsr m 0x802 = some (BitVec.ofNat 64 m.omark) ∧ v.readCsr m 0x803 = some 0 ∧
       v.readCsr m 0xCC0 = some (BitVec.ofNat 64 m.odrain) ∧ v.readCsr m 0xCC1 = some (BitVec.ofNat 64 v.who) ∧
       v.readCsr m 0xCC2 = some (BitVec.ofNat 64 v.param)) ∧
     (m.pc < 0x10000 → m.pc % 4 = 0 → v.load m m.pc 4 = some w →
       (∀ u, w % 128 ∈ [0x13, 0x33, 0x73] → v.scalar m w = some u → v.step m = { u with instret := u.instret + 1 }) ∧
       (w = 0x73 → v.step m = { m with exit := some 0xFFFF, needHold := none, markHold := none }) ∧
       (∀ d n, d ∈ [5, 6, 7] → n ∈ [0xCC0, 0xCC1, 0xCC2] → w = n * 2 ^ 20 + 2 * 2 ^ 12 + d * 2 ^ 7 + 0x73 →
         ∀ x, v.readCsr m n = some x → (v.step m).rx d = x ∧ (v.step m).pc = m.pc + 4)))

/-- R298 to R300: a chain's entry: a command starts and goes on with the advances of the loops around it, LOOP repeats, COND
skips, END ends; the entry past the last ends the chain with DONE. R301, R302: the follow-on of a job that ended DONE. With its
task resident an MLDW follow-on loads the shadow plane from the named tile in 128 cycles and an MMA follow-on streams rows of
scratchpad from the job's destination through the active plane, as the instructions do; their results come as operations of the
job. With its task ended the follow-on is dropped. COUNT and IDX of a chain (log 37), crossing loops (log 38) and a follow-on
that would trap (log 39) are the model's readings. -/
def Obligations.ChainAndFollowOnEvents : Prop :=
  (∀ (c e k n : Nat) (d : Card) (s : State), s.chainCard c e k = some d → d.moving = false →
     (cmdLen0 d.num ≤ d.entry → exec (.chainEnd c e k) s = .next (s.endCard c e d 0)) ∧
     (d.entry < cmdLen0 d.num → s.chainEntry c d = .ok n →
       (cmdType n = 11 → exec (.chainEnd c e k) s = .next (s.endCard c e { d with count := d.count + 1 } 0)) ∧
       (cmdType n = 9 → d.loops = [] → bitsN n 16 16 < d.entry → bitsN n 32 32 ≠ 0 →
         exec (.chainLoop c e k) s = .next (s.setCard c e ({ d with loops := [{
           idx := d.entry, target := bitsN n 16 16, count := 1, sadv := sextN 32 (bitsN n 64 32), dadv := sextN 32 (bitsN n 96 32) }]
           }.chainNext (bitsN n 16 16)))) ∧
       (∀ r l u, cmdType n = 10 → ccHolds (bitsN n 8 4) 32 (ofLeBytes l) (bitsN n 32 32) = some r →
         (rangeAt (bitsN n 64 64) 4).ok = true →
         (rangeAt (bitsN n 64 64) 4).within (rangeAt (cmdAux d.num) (cmdLen1 d.num)) = true →
         s.loadBytes (d.mover c e) (bitsN n 64 64) 4 = .ok (l, u) →
         let next := d.entry + 1 + (if r then 0 else bitsN n 16 16)
         next ≤ cmdLen0 d.num → exec (.chainCond c e k) s = .next (u.setCard c e (d.chainNext next))) ∧
       (1 ≤ cmdType n → cmdType n ≤ 7 → cmdFo n = 0 → cmdOk (d.advance n) = true → chainFits d.num (d.advance n) = true →
         (s.engine c e).typeFree { d with cmd := leBytes 64 (d.advance n) } = true →
         exec (.chainCommandEntry c e k) s =
           .next ((s.startAndRun c e { d with cur := leBytes 64 (d.advance n) }).chain c e)))) ∧
  (∀ (c e k : Nat) (d : Card) (s : State), s.card c e k = some d → d.status = some 0 → d.followed = false → d.type ≠ 6 →
     let fo := cmdFo d.num
     s.owes ⟨c, e, k⟩ = false →
     let op (b lat : Nat) (ws : List Write) (u : State) : Prop :=
       ((u.card c e k).any fun q => q.followed && q.status == some 0) = true ∧
       (∃ v ∈ (u.bankAt c b).pipe.vars, v.kind = .follow e k ∧ v.earliest = (s.core c).cycle + lat ∧
         v.latest = some ((s.core c).cycle + lat) ∧ v.writes = some ws) ∧
       (u.bankAt c b).pipe.pend = (s.bankAt c b).pipe.pend
     (∀ b, s.pusherBank c d = some b →
       let t := s.facing c b
       let x := t.core c
       let m := t.rg.rm (foReg fo)
       let h : Hdr := { slot := 7 }
       x.arrayBusy = 0 → t.rampSpent = false →
       (foOp fo = 1 → m.kind = 1 → t.bk.loading = false →
         t.clear h { foot [(.m, foReg fo, 1)] [] with locR := slabLocs m.slabs, locW := [.plane (if x.active then 0 else 1)] } →
         Gives (exec (.followOnMldw c e k) s) (op b 128 [.plane {
           fmt := m.fmt, scale := m.scale, zp := m.zp, shifts := m.shifts
           img := entriesFrom (fun _ => 0) 0 ((List.range m.slabs.length).map (x.pos m)) }])) ∧
       (foOp fo = 2 →
         let r := t.rg.rt (foTr fo)
         let f := trecFmt r
         let line := lineBytes f
         let ad := cmdDst d.num % 2 ^ 22
         let n := arrayCycles (foCnt fo) (fmtBits f) (fmtBits x.plane.fmt)
         let rows := (List.range (foCnt fo)).map fun q => foReg fo * 128 + foIdx fo + q
         let ts := lineTouches ad line line (foCnt fo) false
         let side := sideTouch r (4 * foCnt fo) false
         foReg fo < 32 → t.tileOpen (foReg fo) → foCnt fo ≠ 0 → foIdx fo + foCnt fo ≤ 128 → f ≠ 7 →
           t.accessTrap ts 16 = none → t.accessTrap side 1 = none →
           t.clear h {
             reads := refsOf [(.t, foTr fo, 5)], writes := refsOf [(.c, foReg fo, 0)], touches := ts ++ side
             locR := unitLocs ts ++ unitLocs side ++ [.plane (if x.active then 1 else 0)]
             locW := if foAcc fo then [] else rows.map .accRow, rowsAcc := if foAcc fo then rows else [] } →
         Gives (exec (.followOnMma c e k) s) (op b (8 + n) (t.streamWrites (foReg fo) (foIdx fo) (foAcc fo) f (zpOf r)
           ((List.range (foCnt fo)).map fun q => lineCodes f (t.scratch (ad + q * line) line)) (t.sideShifts r (4 * foCnt fo)))))) ∧
     (s.pusherBank c d = none → s.pusherGone d = true →
       (foOp fo = 1 → exec (.followOnMldw c e k) s = .next (s.setCard c e { d with followed := true })) ∧
       (foOp fo = 2 → exec (.followOnMma c e k) s = .next (s.setCard c e { d with followed := true }))))

/-- R312, R325, R328, R330, R332, R337, R341, R344, R345: the collective engine's own events. How additions reach a counter (log
47), the count of a failing word (log 45), packets to other modules (log 118) and early data (log 119) are the model's readings.
-/
def Obligations.CollectiveEvents : Prop :=
  ∀ (die t op ctr val : Nat) (v : BitVec 64) (s : State),
    let x := s.cle die
    (∀ q, x.startQ.find? (fun q => q.thread == t) = some q → t < 8 → (x.thread t).st = .idle →
      exec (.scheduleStart die t) s =
        .next (s.setCle die { x.setThread t { st := .ready, start := some q, since := q.src.since } with startQ := x.startQ.erase q })) ∧
    (∀ l, x.adds = (ctr, val) :: l → exec (.counterStep die ctr val) s =
      .next (s.modCle die fun x => ({ x with adds := l } : Cle).stepTo ctr ((x.counter ctr + val) % 2 ^ 32))) ∧
    (∀ p k u, s.net.find? (fun e => e.1 == s.modn && e.2.1 == die && e.2.2.2.kind == .radd && s.headClass die e.2.2.2 == some e.2.2.1) =
        some (s.modn, die, k, p) → s.handlePacket die p = some u →
      exec (.remoteAddArrival die) s = .next { u with net := u.net.erase (s.modn, die, k, p) }) ∧
    (∀ p gs g, x.slotOf p = some (gs, g) → (g.sender p).isSome = true → p.kind = .radd → s.handlePacket die p =
      some (s.modCle die fun y => y.drainAdds.addTo p.seq p.val)) ∧
    (∀ p u, die < 8 → s.handlePacket die p = some u →
      (∀ k, p.srcMod = s.modn → s.headClass die p = some k →
        exec (.packetArrival die p) s = .next { u with net := u.net.erase (s.modn, die, k, p) }) ∧
      (p.srcMod ≠ s.modn → exec (.packetArrival die p) s = .next u)) ∧
    (∀ o l, x.op op = some o → o.fault = none → s.owes ⟨die * 64, 2, op⟩ = false → (o.kind = .recv ∨ o.kind = .recvr) → o.moved = true →
      o.data = some l → exec (.operationMilestone die op) s = .next (s.completeOp die o o.cn)) ∧
    (∀ o, x.op op = some o → o.fault = none → (o.kind = .copy ∨ o.kind = .red) →
      let r := s.moveChunk (x.opMover die o) o
      let q : LOp := { o with pos := r.pos, ahead := r.rd }
      let u := (r.st.flush ⟨die * 64, 2, o.id⟩ true).modCle die fun y => (y.markSat o.thread r.sat).modOp o.id fun _ => q
      r.err = none → o.dst.shape.total ≤ r.pos → u.owes ⟨die * 64, 2, o.id⟩ = false →
      exec (.operationMilestone die op) s = .next (u.completeOp die q o.cn)) ∧
    (∀ o g p, x.op op = some o → o.kind = .send → x.group o.gs = some g → o.fault = none → o.moved = false →
      x.mail g o.peer .recvPosted o.seq 0 = some p →
      let cls := x.clsOf o.thread
      (p.len = o.src.shape.total →
        let r := s.readLoop (x.opMover die o) o.src.shape (o.data.getD []) (s.pieces o.src.shape.total) o.pos
        let q : LOp := { o with data := some r.1, pos := r.2.pos, ahead := r.2.rd }
        let u := (r.2.st.flush ⟨die * 64, 2, o.id⟩ (decide (o.dst.shape.total ≤ r.2.pos))).modCle die fun y =>
          (y.markSat o.thread r.2.sat).modOp o.id fun _ => q
        r.2.err = none → o.src.shape.total ≤ r.2.pos → exec (.transferMatch die op) s = .next
          ((u.modCle die fun y => y.modOp o.id fun _ => { q with moved := true, data := none }).sendTo die cls g
            o.peer .data o.seq r.1.length 0 r.1)) ∧
      (p.len ≠ o.src.shape.total → exec (.transferMatch die op) s = .next
        (((s.modCle die fun y => (y.take p).dropOp op).sendTo die cls g o.peer .ack o.seq p.len 1 []).endOp die o 0x11))) ∧
    (∀ o y l, x.landing = some (o, y) → o.data = some l →
      let s1 := s.setCle die y
      let r := s1.landLoop (y.opMover die o) o.dst.shape o.red l false (s1.pieces l.length) o.pos
      let u := (r.st.flush ⟨die * 64, 2, o.id⟩ (decide (o.dst.shape.total ≤ r.pos))).modCle die fun x =>
        (x.markSat o.thread r.sat).modOp o.id fun _ => { o with pos := r.pos, ahead := r.rd }
      let z := u.modCle die fun z => ((z.dropOp o.id).drainAdds).addTo o.ctr 1
      r.err = none → l.length ≤ r.pos → u.owes ⟨die * 64, 2, o.id⟩ = false →
        (y.group o.gs = none → exec (.tileFireLanded die) s = .next z) ∧
        (∀ g, y.group o.gs = some g → exec (.tileFireLanded die) s =
          .next (z.sendTo die (y.clsOf o.thread) g o.peer .fireAck o.seq 0 0 []))) ∧
    (∀ p, x.inbox.find? (fun p => p.kind == .failure && !x.ackBefore p) = some p → x.slotOf p = none →
      exec (.failureMarkerArrival die) s = .next (s.modCle die fun y => { y with inbox := y.inbox.erase p })) ∧
    exec (.cleKill die v) s =
      .next ((List.range 8).foldl (fun u t => if v.toNat.testBit t then u.killThread die t else u) s)

/-- R385 to R400, R409: the ports' events: flits, replay, loss of light and restriping, retraining, slots, remote writes and
circuits. A CRC takes the bytes in order and bit 7 of each first; stream byte n goes on the active wavelength of position n mod
A. The order of a header's bytes in its CRC (log 65), NAKs (log 66), the acknowledgement of a remote write (log 67) and pieces
in a slot (log 68), the flits that change ports (log 149) and the answer to a remote write (log 150) are the model's readings.
-/
def Obligations.LinkEvents : Prop :=
  ∀ (port unit c e k dest cap n m : Nat) (f : BitVec 320) (lock ack : BitVec 16) (v : BitVec 64) (s : State), port < 32 → unit < 16 →
    let p := s.port port
    let got := p.received
    let put (u : State) (q : Port) : State :=
      let v := (u.modPort port fun _ => q).pump port
      if p.rx = .restripe then v.linkAnswer else v
    (p.rx = .retrain ∨ p.rx = .down → exec (.flitReceive port f) s = .next s) ∧
    (p.rx = .up ∨ p.rx = .restripe →
      (flitGood f = false → exec (.flitReceive port f) s = .next (put s ({ got with rx := p.rx }.countFail s.ns).sendNak)) ∧
      (flitGood f = true →
        (flitType f = 0 → exec (.flitReceive port f) s = .next (put s (got.applyAck (flitAck f) s.ns))) ∧
        (flitType f = 1 → let u := s.joinPart port f
          exec (.flitReceive port f) s = .next (put u ((u.port port).received.receive f s.ns))) ∧
        (flitType f = 2 → exec (.flitReceive port f) s = .next (put s (got.receive f s.ns))) ∧
        (flitType f = 3 → exec (.flitReceive port f) s = .next (put s { got.applyAck (flitAck f) s.ns with nakIn := true })) ∧
        (flitType f = 4 → exec (.flitReceive port f) s = .next (put s (got.relock f))) ∧
        (flitType f = 5 → exec (.flitReceive port f) s = .next ((put s got).restripeAck port (flitAck f))) ∧
        (5 < flitType f → exec (.flitReceive port f) s = .next (put s got.sendNak)))) ∧
    (crc24 [] = 0xB704CE ∧ crc24 [0x37] = 0x3789A4 ∧ crc24 (crcBytes (List.replicate 32 0) (0x0123456789 * 2 ^ 24)) = 0x7425B8) ∧
    (m < 2 ^ 16 → 0 < popMask m → m.testBit (laneOf m n) = true ∧
      ((List.range (laneOf m n)).filter fun k => m.testBit k).length = n % popMask m) ∧
    (p.nakIn = true → p.st = .up → exec (.goBack port) s = .next (s.modPort port fun q => q.resend s.ns)) ∧
    (p.replay ≠ [] → p.st = .up → p.ackNs + 1000 ≤ s.ns →
      exec (.replayTimeout port) s = .next (s.modPort port fun q => q.resend s.ns)) ∧
    Gives (exec (.lossOfLight unit) s) (fun t => ∀ j < 8, (t.port (8 * (unit / 4) + j)).dark =
      (s.port (8 * (unit / 4) + j)).dark ||| 15 * 2 ^ (4 * (unit % 4))) ∧
    (p.st = .up ∨ p.st = .restripe →
      let m := if p.st = .up then p.mask else p.asked
      let left := maskOff m p.dark
      (m &&& p.dark = 0 → exec (.lossDetected port) s = .next s) ∧
      (m &&& p.dark ≠ 0 → 8 ≤ popMask left → exec (.lossDetected port) s = .next (s.modPort port fun q =>
        { q.control left 4 (leBytes 32 left) with st := .restripe, asked := left, asks := q.asks + 1, nextLoss := none })) ∧
      (m &&& p.dark ≠ 0 → popMask left < 8 →
        exec (.lossDetected port) s = .next (s.goDown port ((p.nextLoss.map (·.2)).getD p.unit)))) ∧
    (p.st = .restripe →
      let u := s.modPort port fun q => { q.applyAck ack.toNat s.ns with asks := q.asks - 1 }
      (1 < p.asks → exec (.restripeAck port ack) s = .next u) ∧
      (p.asks ≤ 1 → exec (.restripeAck port ack) s = .next (u.comeUp port 1 p.asked p.unit))) ∧
    (p.st ≠ .down →
      (p.unlocked = true ∨ (∃ t, p.passed = some t ∧ t + 22000 ≤ s.ns) → s.mgmt.start ≠ .recovery →
        exec (.retrainStart port) s = .next (s.modPort port fun p => if p.st = .retrain then p else { p with
          st := .retrain, rx := .retrain, t0 := s.ns, oldMask := p.mask, failed := [], passed := none, unlocked := false })) ∧
      (p.unlocked = false → (∀ t, p.passed = some t → s.ns < t + 22000) → exec (.retrainStart port) s = .next s)) ∧
    (p.st = .retrain →
      let m := lock.toNat &&& p.permit
      (8 ≤ popMask m → exec (.retrainEnd port lock) s = .next
        ((s.modPort port fun q => { q with dark := maskOff q.dark m, rx := .up, rxMask := m, cal := m }).comeUp port 2 m 0xFF)) ∧
      (popMask m < 8 → exec (.retrainEnd port lock) s = .next ((s.modPort port fun q => { q with rx := .down }).goDown port 0xFF))) ∧
    exec (.linkCtlRetrain port v) s = .next (s.writeLinkCtl port v) ∧
    exec (.slotBaseWrite port v) s = .next (s.writeSlotBase port v) ∧
    (let l := (memRead s.mem p.slotBase.toNat 256).map BitVec.toNat
     p.staged = true → p.slot = 0 → s.badIn p.slotBase.toNat 256 = none →
      exec (.slotTableLoad port) s = .next ((s.access p.slotBase.toNat 256).modPort port fun q =>
        { q with staged := false, tbad := !(tableOk l), table := if tableOk l then l else q.table })) ∧
    (port < 16 → p.st = .up → Gives (exec (.memorySlot port) s) fun t => (t.port port).slot = (p.slot + 1) % 256 ∧ t.mem = s.mem) ∧
    (∀ r l, p.packets = r :: l → exec (.remoteWritePacket port) s =
      .next (((s.modPort port fun p => { p with packets := l }).performUnits 6 (r.addr + r.done) (r.got.drop r.done)).postBack port
        { dst := r.src, addr := r.addr, cls := r.cls, ctx := r.ctx, bytes := [] })) ∧
    (∀ r, p.packets = [] → p.part = some r →
      let n := max r.done (r.got.length - (r.addr + r.got.length) % 64)
      exec (.remoteWritePacket port) s = .next ((s.modPort port fun p => { p with part := some { r with done := n } }).performUnits 6
        (r.addr + r.done) ((r.got.take n).drop r.done))) ∧
    (∀ q a r, s.ackOf ⟨c, e, k⟩ = some (q, a, r) → e ≠ 2 → exec (.remoteWriteAck c e k 1) s =
      .next { s.modPort q fun x => { x with acks := x.acks.erase a } with awaiting := s.awaiting.erase r }) ∧
    (s.ackOf ⟨c, e, k⟩ = none → e ≠ 2 → exec (.remoteWriteAck c e k 1) s = .next s) ∧
    (28 ≤ port → p.st = .up → exec (.circuitConnect port dest cap) s =
      .next ((s.modPort port fun p => { p with conn := some (dest, cap, s.ns + 10000) }).pump port))

/-- R225, R346, R382 to R384, R401 to R408: the management controller's commands, as events and as the code of a message of the
mailbox selects them, its other events, and writes of control registers. The layout of STATUS's reply (log 73), the refusal of
RESET_WARM (log 72), what a start does to memory (log 70) and to the ports (log 158), the image check (log 71), the parameters
that a training of the drawer finds (log 145), the layout of a message in the mailbox (log 147) and the reckoning of power (log
154) are the model's choices. -/
def Obligations.ManagementEvents : Prop :=
  ∀ (c idx secs die code : Nat) (v : BitVec 64) (nonce image : BitVec 512) (lower : BitVec 16) (valid moved : Bool)
    (rails : List (Nat × Nat)) (temps : List Nat) (s : State), c < coreCount → die < 9 →
    let m := s.mgmt
    let at_ (f : Mgmt → Mgmt) : State := { s with mgmt := f m }
    let stat (u : State) : State := u.replyWith (0 :: leBytes 1 m.start.code ++ leBytes 1 m.warmFails ++ leBytes 1 m.coldFails ++
      (m.temps.map fun t => leBytes 2 t).flatten ++ (m.rails.map fun r => leBytes 4 r.1 ++ leBytes 4 r.2).flatten)
    let attests (n : Nat) (u : State) : State :=
      let r := leBytes 64 n ++ deviceSerial ++ (m.loaded.map fun d => leBytes 64 d.toNat).flatten
      u.replyWith (0 :: r ++ signReport r)
    exec .status s = .next (stat s) ∧
    exec (.attest nonce) s = .next (attests nonce.toNat s) ∧
    exec (.loadfw image valid) s = .next ((at_ fun m => { m with staged := some (image, valid) }).replyWith [0]) ∧
    (m.start ≠ .held → m.start ≠ .recovery → exec .resetWarm s = .next ((at_ fun m => { m with start := .warm }).replyWith [0])) ∧
    exec .resetCold s = .next ((at_ fun m => { m with start := .cold }).replyWith [0]) ∧
    (code ∉ [1, 2, 3, 4, 5, 6] → exec (.mailboxBadCommand code) s = .next (s.replyWith [0xFF])) ∧
    (code ∈ [1, 2, 3, 4, 5, 6] → exec (.mailboxBadCommand code) s = .next s) ∧
    (∀ l, s.moves = .mailbox :: l →
      let u : State := { s with moves := l }
      let word (k : Nat) : Nat := ofLeBytes ((List.range 8).map fun j => m.reply.getD (8 * k + j) 0)
      let cmd := (m.reply.headD 0).toNat
      (m.door = false → step s = .next u) ∧
      (m.door = true →
        (cmd = 1 → step s = exec (.setq (word 1) (word 2) (word 3) (word 4)) u) ∧
        (cmd = 2 → word 2 = 0 → step s = exec (.startq (word 1)) u) ∧ (cmd = 2 → word 2 = 1 → step s = exec (.stopq (word 1)) u) ∧
        (cmd = 3 → step s = .next (stat u)) ∧
        (cmd = 4 → step s = .next (attests (ofLeBytes ((List.range 64).map fun j => m.reply.getD (8 + j) 0)) u)) ∧
        (cmd = 5 → word 1 + word 2 ≤ 0x20000000000 → let d := measure (memRead s.mem (word 1) (word 2))
          step s = exec (.loadfw d (imageVerifies d)) u) ∧
        (cmd = 6 → word 1 = 0 → step s = exec .resetWarm u) ∧ (cmd = 6 → word 1 = 1 → step s = exec .resetCold u) ∧
        (cmd ∉ [1, 2, 3, 4, 5, 6] → step s = .next (u.replyWith [0xFF])))) ∧
    (let p := trainDrawer s.ns
     m.start = .cold → secs ≤ 60 → m.staged = none → exec (.coldStart secs true) s = .next
      ({ s with training := p }.afterReset (fun a => decide (2 ^ 52 ≤ a)) (fun q => q.restart true) (m.restarted m.firmware none p))) ∧
    (m.start = .warm → secs ≤ 60 → exec (.warmStart secs true moved) s = .next
      (s.afterReset (fun a => decide (a < 0x20000000000 ∨ 2 ^ 52 ≤ a)) (fun q => q.restart moved) (m.restarted m.firmware m.staged s.training))) ∧
    (m.start = .warm → exec (.startFailure true) s = .next (at_ fun m =>
      { m with warmFails := m.warmFails + 1, start := if 3 ≤ m.warmFails + 1 then .cold else m.start })) ∧
    (m.start = .cold →
      let u := at_ fun m => { m with coldFails := m.coldFails + 1 }
      (m.coldFails < 2 → exec (.startFailure false) s = .next u) ∧ (2 ≤ m.coldFails → exec (.startFailure false) s = .next u.recover)) ∧
    (let l := m.powers ++ [(rails.map fun r => r.1 * r.2).sum]
     exec (.telemetrySample rails temps) s = .next (at_ fun m =>
      { m with rails := rails, temps := temps, samples := m.samples + 1, powers := l.drop (l.length - 10) })) ∧
    (let r := ((s.mod.rampNext.map (·.1)).getD s.mod.rampStep).toNat
     (m.overCap = true → lower.toNat < r % 2 ^ 16 →
      exec (.powerCapExceeded lower) s = .next (s.writeRamp (BitVec.ofNat 64 (r / 2 ^ 16 * 2 ^ 16 + lower.toNat)))) ∧
     (m.overCap = false → exec (.powerCapExceeded lower) s = .next s)) ∧
    (∀ k, m.cap = some k → m.powers.length = 10 → (m.overCap = true ↔ 10 * k < m.powers.sum)) ∧
    (∃ x : FltRec, x.kind = 7 ∧
      exec (.dieOvertemp die) s = .next ((at_ fun m => { m with start := .held }).postFlt (if die = 8 then 0 else die) x .none)) ∧
    exec (.einjArm c v) s = .next (s.armEinj c v) ∧
    exec (.elogCntClear c) s = .next (s.clearElog c) ∧
    (s.mod.rampNext = none →
      exec (.rampStepWrite v) s = .next { s with mod := { s.mod with rampNext := some (v &&& 0x1FFFF, s.rampWindow) } }) ∧
    (∀ u n, s.mod.rampNext = some (u, n) → exec (.rampStepWrite v) s = .next { s with mod := { s.mod with
      rampStep := if n < s.rampWindow then u else s.mod.rampStep, rampNext := some (v &&& 0x1FFFF, s.rampWindow) } }) ∧
    exec (.controlRegisterWrite c idx v) s = .next (s.writeCreg c idx v) ∧
    exec (.heartbeat true) s = .next (at_ fun m => { m with misses := 0, fault := m.fault }) ∧
    exec (.heartbeat false) s = .next (at_ fun m =>
      { m with misses := m.misses + 1, fault := m.fault || decide (10 ≤ m.misses + 1) })

/-- An event that names a core, die, port, queue or unit that the module does not have stops: no agent has that number. The stop
is the model's choice (log 84). -/
def Obligations.AbsentAgents : Prop :=
  ∀ (n : Nat) (p : Packet) (f : BitVec 320) (v : BitVec 64) (w : BitVec 32) (s : State),
    (coreCount ≤ n → exec (.taskAdmit n) s = .fault .noSuchAgent ∧ exec (.preemption n) s = .fault .noSuchAgent ∧
      exec (.contextResume n 0) s = .fault .noSuchAgent ∧ exec (.einjArm n v) s = .fault .noSuchAgent ∧
      exec (.controlRegisterWrite n 0 v) s = .fault .noSuchAgent) ∧
    (32 ≤ n → exec (.flitReceive n f) s = .fault .noSuchAgent ∧ exec (.linkCtlRetrain n v) s = .fault .noSuchAgent) ∧
    (16 ≤ n → exec (.queueTailWrite n w) s = .fault .noSuchAgent ∧ exec (.lossOfLight n) s = .fault .noSuchAgent) ∧
    (8 ≤ n → exec (.packetArrival n p) s = .fault .noSuchAgent) ∧
    (9 ≤ n → exec (.dieOvertemp n) s = .fault .noSuchAgent)

/-- R10: a syllable whose predicate is false writes no register, no memory and no flag and raises no trap of its own operands:
only its SBSET entry is set and, later, cleared. -/
def Obligations.FalsePredicateHasNoEffect : Prop :=
  ∀ (i : Instr) (op : Nat) (fmt : Fmt) (h : Hdr) (f : List Nat) (s : State),
    rawOf i = some (.syllable op fmt h f) → fmt ≠ .segh → s.placed i → s.bk.predTrue h = false →
    ∃ lat, 1 ≤ lat ∧ exec i s = .next (s.withPipe h { s.bk.pipe with
      seq := s.bk.pipe.seq + (if h.sbset = 0 then 0 else 1)
      pend := s.bk.pipe.pend ++ (if h.sbset = 0 then [] else s.bk.sent h s.bk.pipe.seq [(lat, [.sbClear h.sbset])])
      ctx := { s.bk.pipe.ctx with res := .went } })

/-- R23, R37: a syllable that sends results changes, at its issue, no register but the scoreboard, no control register, no array
of the core, no other bank or core and no byte of memory. -/
def Obligations.IssueLeavesTheRest : Prop :=
  ∀ (h : Hdr) (l : List (Nat × List Write)) (s t : State), s.bf < 2 → Issues s t h l →
    let x := s.core s.cf
    let y := t.core s.cf
    t.rg = (if h.sbset = 0 then s.rg else s.rg.wsb h.sbset true) ∧ t.bk.cregs = s.bk.cregs ∧ t.bk.pc = s.bk.pc ∧
    t.bk.state = s.bk.state ∧ t.bk.monitor = s.bk.monitor ∧ t.bk.parked = s.bk.parked ∧ t.bk.regions = s.bk.regions ∧
    y.bank (1 - s.bf) = x.bank (1 - s.bf) ∧ y.acc = x.acc ∧ y.slabs = x.slabs ∧ y.slabUse = x.slabUse ∧ y.plane0 = x.plane0 ∧
    y.plane1 = x.plane1 ∧ y.cregs = x.cregs ∧ (∀ c, c ≠ s.cf → t.core c = s.core c) ∧
    t.mem = s.mem ∧ t.mod = s.mod ∧ t.cles = s.cles ∧ t.ports = s.ports ∧ t.launches = s.launches

/-- R16 to R19, R37, R40, R123: a result that lands writes its register and nothing else; a write to S0, P0 or Q0 is discarded;
a vector or mask register takes the bits under the mask, unless another result of that cycle, which lands after it, writes it
too. -/
def Obligations.ResultsLand : Prop :=
  ∀ (c b d : Nat) (p : Pending) (s : State), p.check = none →
    let t := s.land c b p
    let y := (s.bankAt c b).regs
    let z := (t.bankAt c b).regs
    let lone : Prop := ∀ q ∈ (s.bankAt c b).pipe.pend, q.seq ≠ p.seq → q.due ≠ p.due
    (∀ v, p.writes = [.s d v] → Landed s t c b .s p ∧ ∀ i, z.rs i = if i = d ∧ d ≠ 0 then v else y.rs i) ∧
    (∀ v, p.writes = [.a d v] → Landed s t c b .a p ∧ ∀ i, z.ra i = if i = d then v else y.ra i) ∧
    (∀ v, p.writes = [.p d v] → Landed s t c b .p p ∧ ∀ i, z.rp i = if i = d ∧ d ≠ 0 then v else y.rp i) ∧
    (∀ m x, lone → p.writes = [.q d m x] → Landed s t c b .q p ∧
      ∀ i, z.rq i = if i = d ∧ d ≠ 0 then (y.rq d &&& ~~~m) ||| (x &&& m) else y.rq i) ∧
    (∀ m x, lone → p.writes = [.v d m x] → Landed s t c b .v p ∧
      ∀ i, z.rv i = if i = d then (y.rv d &&& ~~~m) ||| (x &&& m) else y.rv i) ∧
    (∀ m x q, p.writes = [.v d m x] → q ∈ (s.bankAt c b).pipe.pend → q.seq ≠ p.seq → q.due = p.due →
      (∃ m2 x2, q.writes = [.v d m2 x2]) → z = y) ∧
    (∀ m x, p.writes = [.t d m x] → Landed s t c b .t p ∧
      ∀ i, z.rt i = if i = d then (y.rt d &&& ~~~m) ||| (x &&& m) else y.rt i)

/-- R16: S0 reads 0, a write to it is discarded, and it takes no part in a check. -/
def Obligations.ZeroRegister : Prop :=
  ∀ (c b n k : Nat) (v : Word) (p : Pending) (s : State), p.writes = [.s 0 v] →
    (s.bankAt c b).regs.rs 0 = 0 ∧ ((s.land c b p).bankAt c b).regs = (s.bankAt c b).regs ∧
    Write.ref (.s 0 v) = none ∧ refsOf [(.s, 0, n)] = [] ∧
    ({ (s.bankAt c b) with pipe := { (s.bankAt c b).pipe with pend := [p] } } : Bank).stale ⟨.s, 0⟩ =
      ({ (s.bankAt c b) with pipe := { (s.bankAt c b).pipe with pend := [] } } : Bank).stale ⟨.s, 0⟩ ∧
    ((s.bankAt c b).collision k (refsOf [(.s, 0, n)])) = none

/-- R4, R33, R34, R252: bytes stored to scratchpad or ring SRAM stand at their addresses, the first at the lowest, and every
other byte is as before. Bytes written to a home address stand there too, in the frame table without its reserved bits, and
every other byte is as before, but for the accessed flags of the local drawer's frames that the range reaches, which are set.
What an unlisted address reads as is the model's choice (log 1). -/
def Obligations.StoredBytes : Prop :=
  ∀ (c b a : Nat) (l : List Byte) (s : State), isPlain a l.length = true →
    (let t := s.applyWrite c b (.mem a l)
     0x20000000000 ≤ a → (∀ k, k < l.length → t.homeByte (a + k) = l.getD k 0) ∧
      (∀ j, (j < a ∨ a + l.length ≤ j) → t.homeByte j = s.homeByte j) ∧ (∀ k, k ≠ c → t.core k = s.core k) ∧
      (∀ k, (t.bankAt c k).regs = (s.bankAt c k).regs) ∧ (t.core c).acc = (s.core c).acc ∧ (t.core c).slabs = (s.core c).slabs ∧
      ((s.bankAt c b).mapped = [] → t.core c = s.core c) ∧ t.mod = s.mod ∧ t.cles = s.cles) ∧
    (let t := s.applyWrite c b (.home a l)
     let flag (j : Nat) : Prop := a < 0x20000000000 ∧ ∃ f, a / 2 ^ 16 ≤ f ∧ f ≤ (a + l.length - 1) / 2 ^ 16 ∧ j = frameFlags f
     let byte (j : Nat) (x : Byte) : Byte := if frameTable ≤ j ∧ j < frameTableEnd then x &&& frameKeep j else x
     (∀ k, k < l.length → ¬ flag (a + k) → t.homeByte (a + k) = byte (a + k) (l.getD k 0)) ∧
      (∀ j, (j < a ∨ a + l.length ≤ j) → ¬ flag j → t.homeByte j = s.homeByte j) ∧
      (∀ j, l ≠ [] → flag j → (t.homeByte j).toNat.testBit 1 = true) ∧ t.cores = s.cores ∧ t.mod = s.mod ∧ t.cles = s.cles) ∧
    ∀ f, (List.range 16).map (fun k => frameKeep (frameTable + 16 * f + k)) =
      [0xF8, 0xFF, 0xFF, 0xFF, 0xFF, 0xFF, 0x0F, 0, 0xFF, 0xFF, 0x3F, 0, 0, 0, 0, 0]

/-- R364 to R366, R368: taking a trap. In task mode the results in flight move into the delivery latches with their remaining
counts, TRAP.CAUSE, TRAP.INFO and TRAP.PC are written, the bank is in monitor mode and control is at TVB + 16 times the cause;
registers and memory are as before. In monitor mode the task is killed after a record of kind 6. Causes 0x13 and 0x14 switch
banks and are stated by the accesses that raise them. When a late trap is taken and what it displaces are the model's readings
(logs 79, 113). -/
def Obligations.TakingATrap : Prop :=
  ∀ (c b : Nat) (tr : Trap) (s : State),
    let y := s.bankAt c b
    let t := s.takeTrapAt c b tr
    let z := t.bankAt c b
    (y.monitor = false → tr.cause ≠ 0x13 → tr.cause ≠ 0x14 → tr.cause ≠ 0x15 →
      z.monitor = true ∧ z.seg = none ∧ z.trapSeg = y.seg ∧ z.trapAt = y.pc ∧
      z.pc = ((s.core c).cregs.tvb.toNat + 16 * tr.cause) % 2 ^ 48 ∧
      bitsN z.cregs.trapCause.toNat 0 8 = tr.cause % 2 ^ 8 ∧ bitsN z.cregs.trapCause.toNat 8 3 = tr.slot % 2 ^ 3 ∧
      bitsN z.cregs.trapCause.toNat 12 4 = tr.fam % 2 ^ 4 ∧ bitsN z.cregs.trapCause.toNat 16 6 = tr.reg % 2 ^ 6 ∧
      bitsN z.cregs.trapCause.toNat 22 8 = tr.short % 2 ^ 8 ∧ bitsN z.cregs.trapCause.toNat 30 34 = 0 ∧
      z.cregs.trapInfo = tr.info ∧ z.cregs.trapPc = BitVec.ofNat 64 y.pc ∧
      z.cregs.trapAct = (if tr.cause = 0x30 then 1 else y.cregs.trapAct) ∧
      z.cregs.trapScr0 = y.cregs.trapScr0 ∧ z.cregs.trapScr1 = y.cregs.trapScr1 ∧ z.cregs.cctl = y.cregs.cctl ∧
      z.pipe.pend = [] ∧ z.pipe.entry = none ∧ z.pipe.nextIssue = y.pipe.clk + 3 ∧ z.pipe.clk = y.pipe.clk ∧
      z.pipe.vars = y.pipe.vars ∧
      z.pipe.latches = y.pipe.latches ++ y.pipe.pend.map (fun p => { p with due := p.due + 1 - y.pipe.clk, latch := true }) ∧
      (t.core c).spec = [] ∧ z.regs = y.regs ∧ z.parked = y.parked ∧ (t.core c).acc = (s.core c).acc ∧
      (t.core c).slabs = (s.core c).slabs ∧ (∀ e, e ≠ c → t.core e = s.core e) ∧ t.mem = s.mem) ∧
    (y.monitor = true → ∃ r : FltRec, r.kind = 6 ∧ r.info = tr.cause ∧ r.core = c ∧ r.unit = b ∧
      t = (((if tr.cause = 0x15 then s.reportBad c b tr else s).postFlt (c / 64) r .none).killTask c b tr.cause).modBank c b fun z =>
        z.modCtx fun k => { k with res := .trapped tr, dests := y.pipe.ctx.dests })

/-- R366, R367: the return. With KILL the task is killed; else the bank leaves monitor mode and goes to TRAP.PC: the trapped
segment governs at the recorded boundary and at an address that holds no header. The latches keep their counts until the return
bundle issues at u, which puts them in flight to land at the end of u + r - 1. -/
def Obligations.ReturnFromTrap : Prop :=
  ∀ (c b : Nat) (s : State),
    let y := s.bankAt c b
    let t := s.returnFrom c b
    let z := t.bankAt c b
    let pc := y.cregs.trapPc.toNat % 2 ^ 48
    (y.cregs.trapAct.toNat.testBit 0 = true → t = s.killTask c b (bitsN y.cregs.trapCause.toNat 0 8)) ∧
    (y.cregs.trapAct.toNat.testBit 0 = false →
      z.monitor = false ∧ z.pc = pc ∧ z.pipe.nextIssue = y.pipe.clk + 2 ∧ z.pipe.latches = y.pipe.latches ∧ z.pipe.entry = none ∧
      (pc = y.trapAt → z.seg = y.trapSeg) ∧
      (pc ≠ y.trapAt → (s.modBank c b fun w => { w with monitor := false }).seghAt c b pc = false → z.seg = y.trapSeg) ∧
      (pc ≠ y.trapAt → (s.modBank c b fun w => { w with monitor := false }).seghAt c b pc = true → z.seg = none) ∧
      z.regs = y.regs ∧ z.cregs = y.cregs ∧ t.mem = s.mem) ∧
    (y.monitor = false → (y.deliverAt).pipe.latches = [] ∧
      (y.deliverAt).pipe.pend = y.pipe.pend ++ y.pipe.latches.map (fun p => { p with due := y.pipe.clk + p.due - 1 }) ∧
      (y.deliverAt).regs = y.regs)

/-- R14, R26, R27, R176, R225, R368: the values the spec gives at reset, on every core and bank. -/
def Obligations.ResetValues : Prop :=
  (∀ c b, let x := State.reset.core c
    let y := State.reset.bankAt c b
    y.state = .empty ∧ y.cregs.cctl = 0x4004 ∧ y.cregs.trapPc = 0 ∧ y.cregs.trapScr0 = 0 ∧ y.cregs.trapScr1 = 0 ∧
    y.cregs.trapAct = 0 ∧ y.cregs.trapCause = 0 ∧ y.cregs.trapInfo = 0 ∧ y.cregs.trapLatch = 0 ∧
    x.cycle = 0 ∧ x.cregs.tvb = 0 ∧ x.cregs.wdog = 0 ∧ x.cregs.csaBase = 0 ∧
    x.plane0 = { fmt := 2, scale := 0 } ∧ x.plane1 = { fmt := 2, scale := 0 } ∧ x.freeRows = 0 ∧ x.rampIns = 0) ∧
  State.reset.mod.rampStep = 0x10106 ∧ State.reset.moves = []

/-- At reset the memory has its canonical form. What an unlisted address reads as is the model's choice (log 1). -/
def Obligations.ResetMemoryIsCanonical : Prop :=
  State.reset.memOk = true

/-- Every step, from any state, keeps the canonical form of memory: addresses strictly rise and no listed byte equals what an
unlisted address reads as. The form is the model's; what an unlisted address reads as is log 1. -/
def Obligations.StepKeepsMemoryCanonical : Prop :=
  ∀ s t : State, s.memOk = true → step s = .next t → t.memOk = true

/-- R72 to R90, R316 to R319: every well-formed instruction that has words, its reserved fields zero, is what the decoder reads
from the words the encoder gives it: no bit of an operand is lost. -/
def Obligations.DecodeOfEncode : Prop :=
  ∀ i : Instr, WellFormed i = true → reservedOk i = true →
    (∀ op fmt h f, rawOf i = some (.syllable op fmt h f) →
      (encodeNat i).1 = 128 ∧ (encodeNat i).2 < 2 ^ 128 ∧ decodeSyllableNat (encodeNat i).2 = .ok i) ∧
    (∀ w f, rawOf i = some (.lystil w f) →
      (encodeNat i).1 = 64 ∧ (encodeNat i).2 < 2 ^ 64 ∧ decodeLystil (BitVec.ofNat 64 (encodeNat i).2) = i)

/-- R9, R35, R77, R78, R85, R313, R314: a step runs what the decoder reads at the program counter. A core whose agents have
nothing due and whose segment stands whole in the loop buffer issues the bundle at its bank's counter: one syllable, or two,
each on the state the one before leaves, then the bundle ends; a trap of a syllable is taken with no effect of the bundle. A
schedule thread runs the word it has reached. A listed event runs. The order of moves (log 3), the folding of a bundle (log 4),
what comes first of a trap and a hold (logs 7, 114) and the cycles of a fetch (log 11) are the model's. -/
def Obligations.StepRunsTheDecodedInstruction : Prop :=
  (∀ (s : State) (c b w m : Nat) (i : Instr),
    s.moves = [] → s.focus = .core c → s.mgmt.start = .running → s.mgmt.monitorRuns = true → s.ctlQ = [] → s.kills = [] →
    s.tend c 0 = none → s.tend c 1 = none → (s.core c).varDue = none → s.scheduled c = none → (s.core c).order = [b] →
    (s.core c).cur = b → (s.switchTo c b).readHalf c b = s.switchTo c b →
    let y := s.bankAt c b
    let n := s.core c
    (s.core c).whole y.task.launch y.segAddr = some m → m ≤ (s.core c).cycle →
    let v := (s.switchTo c b).modCore c fun z => z.useHalf y.task.launch y.segAddr
    let went (u : State) (l : List Nat) : State :=
      ((u.endBundle c b l.length ((l.map wordStall).foldl max 0)).checkUnits c b y.pipe.bundle { words := l }).account c n
    y.pipe.nextIssue ≤ y.pipe.clk → y.seg.isSome = true → v.fetch c b (y.pc % 2 ^ 48) = .ok w → isSegh w = false →
    (∀ k, 1 ≤ k → k ≤ 6 → (wordWait w).testBit (k - 1) = true → y.regs.rsb k = false) →
    decodeSyllableNat w = .ok i → y.wordTrap 0 w = none →
    (∀ u, wordEnds w = true → v.earlyTarget c b { words := [w] } = none →
      exec i ((v.prepared c b).atPlace c b 0) = .next u →
      ((u.bankAt c b).pipe.ctx.res = .went → u.fallTrap c b = none → step s = .next (went u [w])) ∧
      (∀ t, (u.bankAt c b).pipe.ctx.res = .trapped t →
        ((v.prepared c b).named c b (u.bankAt c b).pipe.ctx.dests).fallTrap c b = none →
        step s = .next ((v.takeTrapAt c b t).account c n))) ∧
    (∀ w2 j u u2, wordEnds w = false → v.fetch c b ((y.pc + 1) % 2 ^ 48) = .ok w2 → isSegh w2 = false → wordEnds w2 = true →
      wordSlot w < wordSlot w2 → (∀ k, 1 ≤ k → k ≤ 6 → (wordWait w2).testBit (k - 1) = true → y.regs.rsb k = false) →
      decodeSyllableNat w2 = .ok j → y.wordTrap 1 w2 = none → v.earlyTarget c b { words := [w, w2] } = none →
      exec i ((v.prepared c b).atPlace c b 0) = .next u → (u.bankAt c b).pipe.ctx.res = .went →
      exec j (u.atPlace c b 1) = .next u2 → (u2.bankAt c b).pipe.ctx.res = .went → u2.fallTrap c b = none →
      step s = .next (went u2 [w, w2]))) ∧
  (∀ (s u : State) (d t w : Nat), s.moves = [] → s.focus = .thread d t → s.mgmt.start = .running → (s.cle d).adds = [] →
    ((s.cle d).thread t).st ≠ .idle → (s.cle d).mayIssue t = true → s.threadWord d t = .ok (w, u) →
    step s = exec (decodeLystil (BitVec.ofNat 64 w)) u) ∧
  (∀ (s : State) (e : Instr) (l : List Move), s.moves = .event e :: l →
    (s.mgmt.start ≠ .recovery ∨ (Move.event e).management = true → step s = exec e { s with moves := l }) ∧
    (s.mgmt.start = .recovery → (Move.event e).management = false → step s = .next { s with moves := l }))

/-- R35, R67, R81, R83: DRAW advances by the counter values that a bundle took. A bundle that has issued moves the clock by one
cycle, lets the next issue after its stall, and moves the counter: past its syllables, to a taken transfer's target, or at LEN
to the fall-through successor; an ended segment waits for its commit. Registers and memory are as the syllables left them. That
the commit comes before the next issue is the model's reading (log 13). -/
def Obligations.EndOfBundle : Prop :=
  ∀ (c b n stall : Nat) (g : Seg) (s : State),
    let y := s.bankAt c b
    let t := s.endBundle c b n stall
    let z := t.bankAt c b
    y.seg = some g → y.pipe.ctx.ctl ≠ some .eret →
    z.regs = y.regs ∧ t.mem = s.mem ∧ z.pipe.clk = y.pipe.clk + 1 ∧ z.pipe.nextIssue = y.pipe.clk + 1 + stall ∧
    (t.core c).cycle = (s.core c).cycle + 1 ∧ z.pipe.pend = y.pipe.pend ∧ z.pipe.vars = y.pipe.vars ∧
    z.cregs.draw = y.cregs.draw + BitVec.ofNat 64 y.pipe.ctx.draws ∧
    (y.pipe.ctx.ctl = none → g.idx ≠ g.hdr.len →
      z.pc = (y.pc + n) % 2 ^ 48 ∧ z.seg = some { g with idx := g.idx + 1 } ∧ z.pipe.commit = y.pipe.commit) ∧
    (y.pipe.ctx.ctl = none → g.idx = g.hdr.len →
      z.pc = wrapN 48 ((g.addr : Int) + sext22 g.hdr.next) ∧ z.seg = none ∧
      z.pipe.commit = some (y.pipe.segNo, y.pipe.ctx.releases)) ∧
    (∀ a, y.pipe.ctx.ctl = some (.jump a) → z.pc = a ∧ z.seg = none ∧
      z.pipe.commit = some (y.pipe.segNo, y.pipe.ctx.releases)) ∧
    (y.pipe.ctx.ctl = some .finish → z.task.ending = true ∧ z.seg = none)

/-- R72, R74, R79, R122, R169, R317: the syllables and the word whose encodings the spec writes out decode to the instructions
that it gives for them. -/
def Obligations.SpecWordsDecode : Prop :=
  let h : Hdr := { slot := 0, e := true }
  decodeSyllableNat 0x1000_0010_0080_0004_0000_0000_0000_0000 = .ok (.segh h { len := 2, next := 4 }) ∧
  decodeSyllableNat 0x0000_0000_C408_3000_0000_0000_0000_0000 = .ok (.mul { h with e := false } 4 2 3) ∧
  decodeSyllableNat 0x3100_0000_8514_0000_0000_0000_0000_0010 = .ok (.addi { h with slot := 1, stall := 2 } 5 5 0x10) ∧
  decodeSyllableNat 0x4002_0018_0920_9002_0000_0000_0000_0000 =
    .ok (.vadd { slot := 2, e := false, wait := 1 } { dst := 9, opa := 8, opb := 9, ew := 2 }) ∧
  decodeSyllableNat 0x1000_0012_0000_0000_0000_0000_0000_0000 = .ok (.end_ h) ∧
  decodeSyllableNat 0x1000_0010_C414_0200_0000_FFFF_FFFF_FFF0 = .ok (.brc h 4 5 2 (-16)) ∧
  decodeSyllableNat 0x5000_001C_0204_0003_0180_1080_0000_00EC =
    .ok (.vshrdCensus { h with slot := 2 } { dst := 2, opa := 1, ew := 3, tr := 3, smode := 2, part := 1, imm := 0xEC }) ∧
  decodeSyllableNat 0xF000_0035_0300_0000_0008_0009_0800_0400 = .ok (.mma { h with slot := 7 } 3 0 1 true false 2 0x400 16) ∧
  decodeSyllableNat 0xF000_0038_4410_5000_0004_0000_0000_0000 = .ok (.mlradd { h with slot := 7 } 4 4 5 true) ∧
  decodeSyllableNat 0xF000_8034_6960_0003_0000_0000_0000_0000 = .ok (.pushq { h with slot := 7, sbset := 2 } 41 24 3 0) ∧
  decodeLystil 0x1880_0060_D180_007F = .recvr 1 0 3 6 true 0 1 true 127
end

