-- ==== Sys2Proof/Laws/Tables.lean ====
section
/-!
SUPPORT. Laws of tables and of memory: a read after a write, and the canonical form that every write keeps.
-/

namespace Sys2Proof.Machine

open Sys2Proof

section
variable {α : Type} (d : Nat → α)

theorem lookAt_of_lt {lo i : Nat} (t : Tab α) (h : ∀ e ∈ t.head?, lo ≤ e.1) (hi : i < lo) : lookAt d t i = d i := by
  cases t with
  | nil => rfl
  | cons e t =>
    have : lo ≤ e.1 := h e (by simp)
    simp [lookAt, show i < e.1 by omega]

/-- Entries below a number do not hide it. -/
theorem lookAt_low (low t : Tab α) (i : Nat) (h : ∀ e ∈ low, e.1 < i) : lookAt d (low ++ t) i = lookAt d t i := by
  induction low with
  | nil => rfl
  | cons e low ih =>
    have he := h e (by simp)
    simp only [List.cons_append, lookAt, show ¬ i < e.1 by omega, show ¬ i = e.1 by omega, if_false]
    exact ih fun x hx => h x (by simp [hx])

theorem drop_takeWhile_length {β : Type} (p : β → Bool) (t : List β) : t.drop (t.takeWhile p).length = t.dropWhile p := by
  induction t with
  | nil => rfl
  | cons e t ih => by_cases hp : p e <;> simp [hp, ih]

theorem mem_takeWhile {β : Type} (p : β → Bool) (t : List β) : ∀ e ∈ t.takeWhile p, p e = true := by
  induction t with
  | nil => simp
  | cons e t ih => by_cases hp : p e <;> simp [hp]; exact ih

theorem head_dropWhile {β : Type} (p : β → Bool) (t : List β) : ∀ e ∈ (t.dropWhile p).head?, p e = false := by
  induction t with
  | nil => simp
  | cons e t ih => by_cases hp : p e <;> simp_all

/-- Dropping entries up to `i` hides nothing above it. -/
theorem lookAt_dropWhile_le (t : Tab α) (i j : Nat) (h : i < j) :
    lookAt d (t.dropWhile fun e => decide (e.1 ≤ i)) j = lookAt d t j := by
  induction t with
  | nil => rfl
  | cons e t ih =>
    by_cases he : e.1 ≤ i
    · simp only [List.dropWhile_cons, he, decide_true, if_true, ih, lookAt, show ¬ j < e.1 by omega, show ¬ j = e.1 by omega,
        if_false]
    · simp [he]

/-- What stands at and after `i` hides nothing below it. -/
theorem lookAt_split (t r : Tab α) (i j : Nat) (h : j < i) (hr : ∀ e ∈ r.head?, i ≤ e.1) :
    lookAt d (t.takeWhile (fun e => decide (e.1 < i)) ++ r) j = lookAt d t j := by
  induction t with
  | nil => simpa [lookAt] using lookAt_of_lt d r hr h
  | cons e t ih =>
    by_cases he : e.1 < i
    · simp only [List.takeWhile_cons, he, decide_true, if_true, List.cons_append, lookAt, ih]
    · simp only [List.takeWhile_cons, he, decide_false, Bool.false_eq_true, if_false, List.nil_append, lookAt,
        show j < e.1 by omega, if_true]
      exact lookAt_of_lt d r hr h

theorem takeWhile_lt_append (low r : Tab α) (i : Nat) (h : ∀ e ∈ low, e.1 < i) (hr : ∀ e ∈ r.head?, i ≤ e.1) :
    (low ++ r).takeWhile (fun e => decide (e.1 < i)) = low := by
  induction low with
  | nil =>
    cases r with
    | nil => rfl
    | cons e r => have := hr e (by simp); simp; omega
  | cons e low ih =>
    have he := h e (by simp)
    simp [he, ih fun x hx => h x (by simp [hx])]

theorem dropWhile_le_self (r : Tab α) (i : Nat) (hr : ∀ e ∈ r.head?, i < e.1) :
    r.dropWhile (fun e => decide (e.1 ≤ i)) = r := by
  cases r with
  | nil => rfl
  | cons e r => have := hr e (by simp); simp; omega

variable [DecidableEq α]

theorem lookAt_putAt (t : Tab α) (i : Nat) (x : α) : lookAt d (putAt d t i x) i = x := by
  have hl : ∀ e ∈ t.takeWhile (fun e => decide (e.1 < i)), e.1 < i := fun e he => by simpa using mem_takeWhile _ t e he
  simp only [putAt]
  split
  · next h =>
    rw [lookAt_low d _ _ _ hl, lookAt_of_lt d (lo := i + 1) _ _ (by omega), h]
    intro e he
    have := head_dropWhile _ _ e he
    simp at this; omega
  · rw [lookAt_low d _ _ _ hl]; simp [lookAt]

theorem lookAt_putAt_ne (t : Tab α) (i j : Nat) (x : α) (h : j ≠ i) : lookAt d (putAt d t i x) j = lookAt d t j := by
  have hl : ∀ e ∈ t.takeWhile (fun e => decide (e.1 < i)), e.1 < i := fun e he => by simpa using mem_takeWhile _ t e he
  have hr : ∀ e ∈ (((t.drop (t.takeWhile (fun e => decide (e.1 < i))).length).dropWhile fun e => decide (e.1 ≤ i)).head?), i ≤ e.1 := by
    intro e he
    have := head_dropWhile _ _ e he
    simp at this; omega
  rcases Nat.lt_or_gt_of_ne h with hj | hj
  · simp only [putAt]
    split
    · exact lookAt_split d t _ i j hj hr
    · exact lookAt_split d t _ i j hj (by simp)
  · have key : lookAt d ((t.drop (t.takeWhile (fun e => decide (e.1 < i))).length).dropWhile fun e => decide (e.1 ≤ i)) j
        = lookAt d t j := by
      rw [lookAt_dropWhile_le d _ i j hj, drop_takeWhile_length]
      conv_rhs => rw [← List.takeWhile_append_dropWhile (p := fun e : Nat × α => decide (e.1 < i)) (l := t)]
      rw [lookAt_low d _ _ _ fun e he => by have := hl e he; omega]
    simp only [putAt]
    split
    · rw [lookAt_low d _ _ _ (fun e he => by have := hl e he; omega), key]
    · rw [lookAt_low d _ _ _ (fun e he => by have := hl e he; omega)]
      simp only [lookAt, show ¬ j < i by omega, show ¬ j = i by omega, if_false]
      exact key

theorem putAt_putAt (t : Tab α) (i : Nat) (x y : α) : putAt d (putAt d t i x) i y = putAt d t i y := by
  have hl : ∀ e ∈ t.takeWhile (fun e => decide (e.1 < i)), e.1 < i := fun e he => by simpa using mem_takeWhile _ t e he
  have hr : ∀ e ∈ (((t.drop (t.takeWhile (fun e => decide (e.1 < i))).length).dropWhile fun e => decide (e.1 ≤ i)).head?), i < e.1 := by
    intro e he
    have := head_dropWhile _ _ e he
    simp at this; omega
  generalize hlow : t.takeWhile (fun e => decide (e.1 < i)) = low at *
  generalize hrest : (t.drop low.length).dropWhile (fun e => decide (e.1 ≤ i)) = rest at *
  have e1 : putAt d t i x = if x = d i then low ++ rest else low ++ (i, x) :: rest := by simp only [putAt, hlow, hrest]
  have e2 : putAt d t i y = if y = d i then low ++ rest else low ++ (i, y) :: rest := by simp only [putAt, hlow, hrest]
  have k1 : (low ++ rest).takeWhile (fun e => decide (e.1 < i)) = low :=
    takeWhile_lt_append low rest i hl fun e he => Nat.le_of_lt (hr e he)
  have k2 : (low ++ (i, x) :: rest).takeWhile (fun e => decide (e.1 < i)) = low :=
    takeWhile_lt_append low _ i hl (by simp)
  rw [e1, e2]
  split
  · simp only [putAt, k1, List.drop_left, dropWhile_le_self _ i hr]
  · simp only [putAt, k2, List.drop_left]; simp [dropWhile_le_self _ i hr]

/-! ### The canonical form -/

theorem tabOkFrom_mono {lo lo' : Nat} (t : Tab α) (h : tabOkFrom d lo t = true) (hl : lo' ≤ lo) : tabOkFrom d lo' t = true := by
  cases t with
  | nil => rfl
  | cons e t =>
    simp only [tabOkFrom, Bool.and_eq_true, decide_eq_true_eq] at h ⊢
    exact ⟨⟨by omega, h.1.2⟩, h.2⟩

theorem tabOkFrom_takeWhile (p : Nat × α → Bool) (t : Tab α) (lo : Nat) (h : tabOkFrom d lo t = true) :
    tabOkFrom d lo (t.takeWhile p) = true := by
  induction t generalizing lo with
  | nil => rfl
  | cons e t ih =>
    simp only [tabOkFrom, Bool.and_eq_true, decide_eq_true_eq] at h
    by_cases hp : p e = true
    · simp only [List.takeWhile_cons, hp, if_true, tabOkFrom, Bool.and_eq_true, decide_eq_true_eq]
      exact ⟨h.1, ih _ h.2⟩
    · simp [hp, tabOkFrom]

theorem tabOkFrom_append (low r : Tab α) (lo b : Nat) (h : tabOkFrom d lo low = true) (hb : ∀ e ∈ low, e.1 < b) (hl : lo ≤ b)
    (hr : tabOkFrom d b r = true) : tabOkFrom d lo (low ++ r) = true := by
  induction low generalizing lo with
  | nil => exact tabOkFrom_mono d r hr hl
  | cons e low ih =>
    simp only [tabOkFrom, Bool.and_eq_true, decide_eq_true_eq] at h
    simp only [List.cons_append, tabOkFrom, Bool.and_eq_true, decide_eq_true_eq]
    have := hb e (by simp)
    exact ⟨h.1, ih _ h.2 (fun x hx => hb x (by simp [hx])) (by omega)⟩

theorem tabOkFrom_dropWhile (t : Tab α) (lo b : Nat) (h : tabOkFrom d lo t = true) :
    tabOkFrom d b (t.dropWhile fun e => decide (e.1 < b)) = true := by
  induction t generalizing lo with
  | nil => rfl
  | cons e t ih =>
    simp only [tabOkFrom, Bool.and_eq_true, decide_eq_true_eq] at h
    by_cases hp : e.1 < b
    · simpa [hp] using ih _ h.2
    · simp only [List.dropWhile_cons, hp, decide_false, Bool.false_eq_true, if_false, tabOkFrom, Bool.and_eq_true, decide_eq_true_eq]
      exact ⟨⟨by omega, h.1.2⟩, h.2⟩

theorem entriesFrom_ok (a : Nat) (xs : List α) : tabOkFrom d a (entriesFrom d a xs) = true := by
  induction xs generalizing a with
  | nil => rfl
  | cons x xs ih =>
    simp only [entriesFrom]
    split
    · exact tabOkFrom_mono d _ (ih (a + 1)) (by omega)
    · next h => simp [tabOkFrom, h, ih]

theorem entriesFrom_lt (a : Nat) (xs : List α) : ∀ e ∈ entriesFrom d a xs, e.1 < a + xs.length := by
  induction xs generalizing a with
  | nil => simp [entriesFrom]
  | cons x xs ih =>
    intro e he
    have k : e ∈ entriesFrom d (a + 1) xs → e.1 < a + (xs.length + 1) := fun h => by have := ih (a + 1) e h; omega
    simp only [entriesFrom] at he
    split at he
    · exact k he
    · rcases List.mem_cons.1 he with rfl | h
      · simp
      · exact k h

theorem entriesFrom_ge (a : Nat) (xs : List α) : ∀ e ∈ entriesFrom d a xs, a ≤ e.1 := by
  induction xs generalizing a with
  | nil => simp [entriesFrom]
  | cons x xs ih =>
    intro e he
    have k : e ∈ entriesFrom d (a + 1) xs → a ≤ e.1 := fun h => by have := ih (a + 1) e h; omega
    simp only [entriesFrom] at he
    split at he
    · exact k he
    · rcases List.mem_cons.1 he with rfl | h
      · simp
      · exact k h

/-- A range written into a table keeps its canonical form. -/
theorem tabOk_putRange (t : Tab α) (a : Nat) (xs : List α) (h : tabOk d t = true) : tabOk d (putRange d t a xs) = true := by
  have hl : ∀ e ∈ t.takeWhile (fun e => decide (e.1 < a)), e.1 < a := fun e he => by simpa using mem_takeWhile _ t e he
  simp only [putRange, tabOk, drop_takeWhile_length, List.append_assoc]
  refine tabOkFrom_append d _ _ 0 a (tabOkFrom_takeWhile d _ t 0 h) hl (by omega) ?_
  refine tabOkFrom_append d _ _ a (a + xs.length) (entriesFrom_ok d a xs) (entriesFrom_lt d a xs) (by omega) ?_
  exact tabOkFrom_dropWhile d _ _ _ (tabOkFrom_dropWhile d t 0 a h)

/-- A write to a table keeps its canonical form. -/
theorem tabOk_putAt (t : Tab α) (i : Nat) (x : α) (h : tabOk d t = true) : tabOk d (putAt d t i x) = true := by
  have e : putAt d t i x = putRange d t i [x] := by
    simp only [putAt, putRange, entriesFrom, List.length_cons, List.length_nil, Nat.zero_add, Nat.lt_succ_iff]
    split <;> simp
  rw [e]; exact tabOk_putRange d t i [x] h

/-! ### Reading back a range -/

theorem lookAt_entriesFrom (a : Nat) (xs : List α) (r : Tab α) (j : Nat) (hr : ∀ e ∈ r.head?, a + xs.length ≤ e.1) (h1 : a ≤ j)
    (h2 : j < a + xs.length) : lookAt d (entriesFrom d a xs ++ r) j = xs.getD (j - a) (d j) := by
  induction xs generalizing a with
  | nil => simp at h2; omega
  | cons x xs ih =>
    have hr' : ∀ e ∈ r.head?, a + 1 + xs.length ≤ e.1 := fun e he => by have := hr e he; simp at this; omega
    rcases Nat.eq_or_lt_of_le h1 with rfl | h1'
    · simp only [entriesFrom]
      split
      · next h =>
        rw [lookAt_of_lt d (lo := a + 1) _ ?_ (by omega)]
        · simp [h]
        · intro e he
          cases hx : entriesFrom d (a + 1) xs with
          | nil => rw [hx] at he; have := hr' e (by simpa using he); omega
          | cons y l =>
            rw [hx] at he
            have : e = y := by simpa using he.symm
            subst this
            exact entriesFrom_ge d (a + 1) xs e (by simp [hx])
      · simp [lookAt]
    · have k := ih (a + 1) hr' (by omega) (by simp at h2; omega)
      have e : j - a = (j - (a + 1)) + 1 := by omega
      simp only [entriesFrom]
      split
      · rw [k, e, List.getD_cons_succ]
      · simp only [List.cons_append, lookAt, show ¬ j < a by omega, show ¬ j = a by omega, if_false]
        rw [k, e, List.getD_cons_succ]

omit [DecidableEq α] in
theorem lookAt_dropWhile_lt (t : Tab α) (b j : Nat) (h : b ≤ j) :
    lookAt d (t.dropWhile fun e => decide (e.1 < b)) j = lookAt d t j := by
  induction t with
  | nil => rfl
  | cons e t ih =>
    by_cases he : e.1 < b
    · simp only [List.dropWhile_cons, he, decide_true, if_true, ih, lookAt, show ¬ j < e.1 by omega, show ¬ j = e.1 by omega,
        if_false]
    · simp [he]

/-- A table read after a range is written. -/
theorem lookAt_putRange (t : Tab α) (a j : Nat) (xs : List α) :
    lookAt d (putRange d t a xs) j = if a ≤ j ∧ j < a + xs.length then xs.getD (j - a) (d j) else lookAt d t j := by
  have hl : ∀ e ∈ t.takeWhile (fun e => decide (e.1 < a)), e.1 < a := fun e he => by simpa using mem_takeWhile _ t e he
  have hr : ∀ e ∈ ((t.dropWhile fun e => decide (e.1 < a)).dropWhile fun e => decide (e.1 < a + xs.length)).head?,
      a + xs.length ≤ e.1 := by
    intro e he
    have := head_dropWhile _ _ e he
    simp at this; omega
  simp only [putRange, drop_takeWhile_length, List.append_assoc]
  split
  · next h =>
    rw [lookAt_low d _ _ _ fun e he => by have := hl e he; omega]
    exact lookAt_entriesFrom d a xs _ j hr h.1 h.2
  · next h =>
    by_cases hj : j < a
    · refine lookAt_split d t _ a j hj ?_
      intro e he
      cases hx : entriesFrom d a xs with
      | nil => rw [hx] at he; have := hr e (by simpa using he); omega
      | cons y l =>
        rw [hx] at he
        have : e = y := by simpa using he.symm
        subst this
        exact entriesFrom_ge d a xs e (by simp [hx])
    · rw [lookAt_low d _ _ _ fun e he => by have := hl e he; omega,
        lookAt_low d _ _ _ fun e he => by have := entriesFrom_lt d a xs e he; omega,
        lookAt_dropWhile_lt d _ _ _ (by omega), lookAt_dropWhile_lt d _ _ _ (by omega)]

omit [DecidableEq α] in
theorem lookFrom_eq (n : Nat) (t : Tab α) (a : Nat) (h : ∀ e ∈ t.head?, a ≤ e.1)
    (hs : t.Pairwise fun x y => x.1 < y.1) : lookFrom d n t a = (List.range n).map fun k => lookAt d t (a + k) := by
  induction n generalizing t a with
  | zero => rfl
  | succ n ih =>
    rw [List.range_succ_eq_map, List.map_cons, List.map_map]
    cases t with
    | nil =>
      simp only [lookFrom]
      rw [ih [] (a + 1) (by simp) List.Pairwise.nil]
      simp [lookAt, Function.comp_def, Nat.add_assoc, Nat.add_comm 1]
    | cons e t =>
      have he : a ≤ e.1 := h e (by simp)
      simp only [lookFrom]
      have hp := List.pairwise_cons.1 hs
      split
      · next h1 =>
        subst h1
        rw [ih t (e.1 + 1) (fun x hx => hp.1 x (by
          cases t with
          | nil => simp at hx
          | cons y l => simp at hx; simp [hx])) hp.2]
        simp only [Nat.add_zero, lookAt, Nat.lt_irrefl, if_false, if_true, List.cons.injEq, true_and]
        apply List.map_congr_left
        intro k _
        simp only [Function.comp, show ¬ e.1 + (k + 1) < e.1 by omega, show ¬ e.1 + (k + 1) = e.1 by omega, if_false,
          Nat.succ_eq_add_one]
        congr 1; omega
      · next h1 =>
        rw [ih (e :: t) (a + 1) (fun x hx => by simp at hx; subst hx; omega) hs]
        simp only [Nat.add_zero, lookAt, show a < e.1 by omega, if_true, List.cons.injEq, true_and]
        apply List.map_congr_left
        intro k _
        simp only [Function.comp, Nat.succ_eq_add_one]
        rw [show a + 1 + k = a + (k + 1) by omega]

theorem tabOkFrom_sorted (t : Tab α) (lo : Nat) (h : tabOkFrom d lo t = true) :
    (t.Pairwise fun x y => x.1 < y.1) ∧ ∀ e ∈ t, lo ≤ e.1 := by
  induction t generalizing lo with
  | nil => simp
  | cons e t ih =>
    simp only [tabOkFrom, Bool.and_eq_true, decide_eq_true_eq] at h
    have k := ih _ h.2
    refine ⟨List.pairwise_cons.2 ⟨fun y hy => by have := k.2 y hy; omega, k.1⟩, fun x hx => ?_⟩
    rcases List.mem_cons.1 hx with rfl | hx
    · exact h.1.1
    · have := k.2 x hx; omega

/-- A range of a canonical table is its values one by one. -/
theorem lookRange_eq (t : Tab α) (a n : Nat) (h : tabOk d t = true) :
    lookRange d t a n = (List.range n).map fun k => lookAt d t (a + k) := by
  have hd := tabOkFrom_dropWhile d t 0 a h
  have hs := tabOkFrom_sorted d _ _ hd
  rw [lookRange, lookFrom_eq d n _ a (fun e he => hs.2 e (by
    cases hx : t.dropWhile fun e => decide (e.1 < a) with
    | nil => rw [hx] at he; simp at he
    | cons y l => rw [hx] at he; simp at he; simp [he])) hs.1]
  apply List.map_congr_left
  intro k _
  exact lookAt_dropWhile_lt d t a (a + k) (by omega)

end

section
variable {α : Type} (d : α) [DecidableEq α]

@[simp] theorem Tab.get_set (t : Tab α) (i : Nat) (x : α) : Tab.get d (Tab.set d t i x) i = x := lookAt_putAt _ t i x

theorem Tab.get_set_ne (t : Tab α) (i j : Nat) (x : α) (h : j ≠ i) : Tab.get d (Tab.set d t i x) j = Tab.get d t j :=
  lookAt_putAt_ne _ t i j x h

@[simp] theorem Tab.set_set (t : Tab α) (i : Nat) (x y : α) : Tab.set d (Tab.set d t i x) i y = Tab.set d t i y :=
  putAt_putAt _ t i x y

end

/-! ### Memory -/

/-- A byte read after a write. -/
theorem memByte_memWrite (m : List Host.Cell) (a j : Nat) (l : List Byte) :
    memByte (memWrite m a l) j = if a ≤ j ∧ j < a + l.length then l.getD (j - a) (memDefault j) else memByte m j :=
  lookAt_putRange _ _ _ _ _

theorem memByte_memWrite_out (m : List Host.Cell) (a j : Nat) (l : List Byte) (h : j < a ∨ a + l.length ≤ j) :
    memByte (memWrite m a l) j = memByte m j := by
  rw [memByte_memWrite, if_neg (by omega)]

theorem memRead_eq (m : List Host.Cell) (a n : Nat) (h : Memory.wf m = true) :
    memRead m a n = (List.range n).map fun k => memByte m (a + k) := lookRange_eq _ _ _ _ h

theorem memWrite_ok (m : List Host.Cell) (a : Nat) (l : List Byte) (h : Memory.wf m = true) :
    Memory.wf (memWrite m a l) = true := tabOk_putRange _ _ _ _ h

theorem memPut_ok (m : List Host.Cell) (a n x : Nat) (h : Memory.wf m = true) : Memory.wf (memPut m a n x) = true :=
  memWrite_ok _ _ _ h

/-- Bytes read back where they were written. -/
theorem memRead_memWrite (m : List Host.Cell) (a : Nat) (l : List Byte) (h : Memory.wf m = true) :
    memRead (memWrite m a l) a l.length = l := by
  rw [memRead_eq _ _ _ (memWrite_ok _ _ _ h)]
  apply List.ext_getElem
  · simp
  · intro k h1 h2
    simp [memByte_memWrite, h2]

end Sys2Proof.Machine
end

