-- ==== Sys2Proof/Laws/State.lean ====
section
/-!
SUPPORT. Laws of the state: each update changes its own part and no other, one lemma per field and update.
-/

namespace Sys2Proof.Machine

open Sys2Proof

/-! ### A core replaced -/

@[simp] theorem State.setCore_focus (s : State) (c : Nat) (x : Core) : (s.setCore c x).focus = s.focus := rfl
@[simp] theorem State.setCore_moves (s : State) (c : Nat) (x : Core) : (s.setCore c x).moves = s.moves := rfl
@[simp] theorem State.setCore_pace (s : State) (c : Nat) (x : Core) : (s.setCore c x).pace = s.pace := rfl
@[simp] theorem State.setCore_modn (s : State) (c : Nat) (x : Core) : (s.setCore c x).modn = s.modn := rfl
@[simp] theorem State.setCore_mem (s : State) (c : Nat) (x : Core) : (s.setCore c x).mem = s.mem := rfl
@[simp] theorem State.setCore_bad (s : State) (c : Nat) (x : Core) : (s.setCore c x).bad = s.bad := rfl
@[simp] theorem State.setCore_inject (s : State) (c : Nat) (x : Core) : (s.setCore c x).inject = s.inject := rfl
@[simp] theorem State.setCore_injectOne (s : State) (c : Nat) (x : Core) : (s.setCore c x).injectOne = s.injectOne := rfl
@[simp] theorem State.setCore_soft (s : State) (c : Nat) (x : Core) : (s.setCore c x).soft = s.soft := rfl
@[simp] theorem State.setCore_mod (s : State) (c : Nat) (x : Core) : (s.setCore c x).mod = s.mod := rfl
@[simp] theorem State.setCore_flt (s : State) (c : Nat) (x : Core) : (s.setCore c x).flt = s.flt := rfl
@[simp] theorem State.setCore_launches (s : State) (c : Nat) (x : Core) : (s.setCore c x).launches = s.launches := rfl
@[simp] theorem State.setCore_launchNext (s : State) (c : Nat) (x : Core) : (s.setCore c x).launchNext = s.launchNext := rfl
@[simp] theorem State.setCore_spawns (s : State) (c : Nat) (x : Core) : (s.setCore c x).spawns = s.spawns := rfl
@[simp] theorem State.setCore_records (s : State) (c : Nat) (x : Core) : (s.setCore c x).records = s.records := rfl
@[simp] theorem State.setCore_queues (s : State) (c : Nat) (x : Core) : (s.setCore c x).queues = s.queues := rfl
@[simp] theorem State.setCore_events (s : State) (c : Nat) (x : Core) : (s.setCore c x).events = s.events := rfl
@[simp] theorem State.setCore_cles (s : State) (c : Nat) (x : Core) : (s.setCore c x).cles = s.cles := rfl
@[simp] theorem State.setCore_net (s : State) (c : Nat) (x : Core) : (s.setCore c x).net = s.net := rfl
@[simp] theorem State.setCore_ports (s : State) (c : Nat) (x : Core) : (s.setCore c x).ports = s.ports := rfl
@[simp] theorem State.setCore_out (s : State) (c : Nat) (x : Core) : (s.setCore c x).out = s.out := rfl
@[simp] theorem State.setCore_awaiting (s : State) (c : Nat) (x : Core) : (s.setCore c x).awaiting = s.awaiting := rfl
@[simp] theorem State.setCore_links (s : State) (c : Nat) (x : Core) : (s.setCore c x).links = s.links := rfl
@[simp] theorem State.setCore_hand (s : State) (c : Nat) (x : Core) : (s.setCore c x).hand = s.hand := rfl
@[simp] theorem State.setCore_sweeping (s : State) (c : Nat) (x : Core) : (s.setCore c x).sweeping = s.sweeping := rfl
@[simp] theorem State.setCore_migs (s : State) (c : Nat) (x : Core) : (s.setCore c x).migs = s.migs := rfl
@[simp] theorem State.setCore_training (s : State) (c : Nat) (x : Core) : (s.setCore c x).training = s.training := rfl
@[simp] theorem State.setCore_mgmt (s : State) (c : Nat) (x : Core) : (s.setCore c x).mgmt = s.mgmt := rfl
@[simp] theorem State.setCore_answer (s : State) (c : Nat) (x : Core) : (s.setCore c x).answer = s.answer := rfl
@[simp] theorem State.setCore_ctlQ (s : State) (c : Nat) (x : Core) : (s.setCore c x).ctlQ = s.ctlQ := rfl
@[simp] theorem State.setCore_kills (s : State) (c : Nat) (x : Core) : (s.setCore c x).kills = s.kills := rfl
@[simp] theorem State.setCore_ns (s : State) (c : Nat) (x : Core) : (s.setCore c x).ns = s.ns := rfl
@[simp] theorem State.setCore_laps (s : State) (c : Nat) (x : Core) : (s.setCore c x).laps = s.laps := rfl
@[simp] theorem State.setCore_lapNext (s : State) (c : Nat) (x : Core) : (s.setCore c x).lapNext = s.lapNext := rfl
@[simp] theorem State.setCore_recordNext (s : State) (c : Nat) (x : Core) : (s.setCore c x).recordNext = s.recordNext := rfl

@[simp] theorem State.core_setCore (s : State) (c : Nat) (x : Core) : (s.setCore c x).core c = x := Tab.get_set _ _ _ _

theorem State.core_setCore_ne (s : State) (c k : Nat) (x : Core) (h : k ≠ c) : (s.setCore c x).core k = s.core k :=
  Tab.get_set_ne _ _ _ _ _ h

@[simp] theorem State.setCore_setCore (s : State) (c : Nat) (x y : Core) : (s.setCore c x).setCore c y = s.setCore c y := by
  simp [State.setCore]

/-! ### A core changed -/

@[simp] theorem State.modCore_focus (s : State) (c : Nat) (g : Core → Core) : (s.modCore c g).focus = s.focus := rfl
@[simp] theorem State.modCore_moves (s : State) (c : Nat) (g : Core → Core) : (s.modCore c g).moves = s.moves := rfl
@[simp] theorem State.modCore_pace (s : State) (c : Nat) (g : Core → Core) : (s.modCore c g).pace = s.pace := rfl
@[simp] theorem State.modCore_modn (s : State) (c : Nat) (g : Core → Core) : (s.modCore c g).modn = s.modn := rfl
@[simp] theorem State.modCore_mem (s : State) (c : Nat) (g : Core → Core) : (s.modCore c g).mem = s.mem := rfl
@[simp] theorem State.modCore_bad (s : State) (c : Nat) (g : Core → Core) : (s.modCore c g).bad = s.bad := rfl
@[simp] theorem State.modCore_inject (s : State) (c : Nat) (g : Core → Core) : (s.modCore c g).inject = s.inject := rfl
@[simp] theorem State.modCore_injectOne (s : State) (c : Nat) (g : Core → Core) : (s.modCore c g).injectOne = s.injectOne := rfl
@[simp] theorem State.modCore_soft (s : State) (c : Nat) (g : Core → Core) : (s.modCore c g).soft = s.soft := rfl
@[simp] theorem State.modCore_mod (s : State) (c : Nat) (g : Core → Core) : (s.modCore c g).mod = s.mod := rfl
@[simp] theorem State.modCore_flt (s : State) (c : Nat) (g : Core → Core) : (s.modCore c g).flt = s.flt := rfl
@[simp] theorem State.modCore_launches (s : State) (c : Nat) (g : Core → Core) : (s.modCore c g).launches = s.launches := rfl
@[simp] theorem State.modCore_launchNext (s : State) (c : Nat) (g : Core → Core) : (s.modCore c g).launchNext = s.launchNext := rfl
@[simp] theorem State.modCore_spawns (s : State) (c : Nat) (g : Core → Core) : (s.modCore c g).spawns = s.spawns := rfl
@[simp] theorem State.modCore_records (s : State) (c : Nat) (g : Core → Core) : (s.modCore c g).records = s.records := rfl
@[simp] theorem State.modCore_queues (s : State) (c : Nat) (g : Core → Core) : (s.modCore c g).queues = s.queues := rfl
@[simp] theorem State.modCore_events (s : State) (c : Nat) (g : Core → Core) : (s.modCore c g).events = s.events := rfl
@[simp] theorem State.modCore_cles (s : State) (c : Nat) (g : Core → Core) : (s.modCore c g).cles = s.cles := rfl
@[simp] theorem State.modCore_net (s : State) (c : Nat) (g : Core → Core) : (s.modCore c g).net = s.net := rfl
@[simp] theorem State.modCore_ports (s : State) (c : Nat) (g : Core → Core) : (s.modCore c g).ports = s.ports := rfl
@[simp] theorem State.modCore_out (s : State) (c : Nat) (g : Core → Core) : (s.modCore c g).out = s.out := rfl
@[simp] theorem State.modCore_awaiting (s : State) (c : Nat) (g : Core → Core) : (s.modCore c g).awaiting = s.awaiting := rfl
@[simp] theorem State.modCore_links (s : State) (c : Nat) (g : Core → Core) : (s.modCore c g).links = s.links := rfl
@[simp] theorem State.modCore_hand (s : State) (c : Nat) (g : Core → Core) : (s.modCore c g).hand = s.hand := rfl
@[simp] theorem State.modCore_sweeping (s : State) (c : Nat) (g : Core → Core) : (s.modCore c g).sweeping = s.sweeping := rfl
@[simp] theorem State.modCore_migs (s : State) (c : Nat) (g : Core → Core) : (s.modCore c g).migs = s.migs := rfl
@[simp] theorem State.modCore_training (s : State) (c : Nat) (g : Core → Core) : (s.modCore c g).training = s.training := rfl
@[simp] theorem State.modCore_mgmt (s : State) (c : Nat) (g : Core → Core) : (s.modCore c g).mgmt = s.mgmt := rfl
@[simp] theorem State.modCore_answer (s : State) (c : Nat) (g : Core → Core) : (s.modCore c g).answer = s.answer := rfl
@[simp] theorem State.modCore_ctlQ (s : State) (c : Nat) (g : Core → Core) : (s.modCore c g).ctlQ = s.ctlQ := rfl
@[simp] theorem State.modCore_kills (s : State) (c : Nat) (g : Core → Core) : (s.modCore c g).kills = s.kills := rfl
@[simp] theorem State.modCore_ns (s : State) (c : Nat) (g : Core → Core) : (s.modCore c g).ns = s.ns := rfl
@[simp] theorem State.modCore_laps (s : State) (c : Nat) (g : Core → Core) : (s.modCore c g).laps = s.laps := rfl
@[simp] theorem State.modCore_lapNext (s : State) (c : Nat) (g : Core → Core) : (s.modCore c g).lapNext = s.lapNext := rfl
@[simp] theorem State.modCore_recordNext (s : State) (c : Nat) (g : Core → Core) : (s.modCore c g).recordNext = s.recordNext := rfl

@[simp] theorem State.core_modCore (s : State) (c : Nat) (g : Core → Core) : (s.modCore c g).core c = g (s.core c) :=
  State.core_setCore _ _ _

theorem State.core_modCore_ne (s : State) (c k : Nat) (g : Core → Core) (h : k ≠ c) : (s.modCore c g).core k = s.core k :=
  State.core_setCore_ne _ _ _ _ h

@[simp] theorem State.modCore_modCore (s : State) (c : Nat) (f g : Core → Core) :
    (s.modCore c f).modCore c g = s.modCore c fun x => g (f x) := by
  simp [State.modCore]

/-! ### A bank of a core replaced -/

@[simp] theorem Core.setBank_cur (x : Core) (b : Nat) (y : Bank) : (x.setBank b y).cur = x.cur := by unfold Core.setBank; split <;> rfl
@[simp] theorem Core.setBank_turn (x : Core) (b : Nat) (y : Bank) : (x.setBank b y).turn = x.turn := by unfold Core.setBank; split <;> rfl
@[simp] theorem Core.setBank_cycle (x : Core) (b : Nat) (y : Bank) : (x.setBank b y).cycle = x.cycle := by unfold Core.setBank; split <;> rfl
@[simp] theorem Core.setBank_acc (x : Core) (b : Nat) (y : Bank) : (x.setBank b y).acc = x.acc := by unfold Core.setBank; split <;> rfl
@[simp] theorem Core.setBank_accFree (x : Core) (b : Nat) (y : Bank) : (x.setBank b y).accFree = x.accFree := by unfold Core.setBank; split <;> rfl
@[simp] theorem Core.setBank_slabs (x : Core) (b : Nat) (y : Bank) : (x.setBank b y).slabs = x.slabs := by unfold Core.setBank; split <;> rfl
@[simp] theorem Core.setBank_slabUse (x : Core) (b : Nat) (y : Bank) : (x.setBank b y).slabUse = x.slabUse := by unfold Core.setBank; split <;> rfl
@[simp] theorem Core.setBank_plane0 (x : Core) (b : Nat) (y : Bank) : (x.setBank b y).plane0 = x.plane0 := by unfold Core.setBank; split <;> rfl
@[simp] theorem Core.setBank_plane1 (x : Core) (b : Nat) (y : Bank) : (x.setBank b y).plane1 = x.plane1 := by unfold Core.setBank; split <;> rfl
@[simp] theorem Core.setBank_active (x : Core) (b : Nat) (y : Bank) : (x.setBank b y).active = x.active := by unfold Core.setBank; split <;> rfl
@[simp] theorem Core.setBank_arrayBusy (x : Core) (b : Nat) (y : Bank) : (x.setBank b y).arrayBusy = x.arrayBusy := by unfold Core.setBank; split <;> rfl
@[simp] theorem Core.setBank_arrayBank (x : Core) (b : Nat) (y : Bank) : (x.setBank b y).arrayBank = x.arrayBank := by unfold Core.setBank; split <;> rfl
@[simp] theorem Core.setBank_cregs (x : Core) (b : Nat) (y : Bank) : (x.setBank b y).cregs = x.cregs := by unfold Core.setBank; split <;> rfl
@[simp] theorem Core.setBank_elog (x : Core) (b : Nat) (y : Bank) : (x.setBank b y).elog = x.elog := by unfold Core.setBank; split <;> rfl
@[simp] theorem Core.setBank_direct (x : Core) (b : Nat) (y : Bank) : (x.setBank b y).direct = x.direct := by unfold Core.setBank; split <;> rfl
@[simp] theorem Core.setBank_cpe0 (x : Core) (b : Nat) (y : Bank) : (x.setBank b y).cpe0 = x.cpe0 := by unfold Core.setBank; split <;> rfl
@[simp] theorem Core.setBank_cpe1 (x : Core) (b : Nat) (y : Bank) : (x.setBank b y).cpe1 = x.cpe1 := by unfold Core.setBank; split <;> rfl
@[simp] theorem Core.setBank_varNext (x : Core) (b : Nat) (y : Bank) : (x.setBank b y).varNext = x.varNext := by unfold Core.setBank; split <;> rfl
@[simp] theorem Core.setBank_runQ (x : Core) (b : Nat) (y : Bank) : (x.setBank b y).runQ = x.runQ := by unfold Core.setBank; split <;> rfl
@[simp] theorem Core.setBank_saved (x : Core) (b : Nat) (y : Bank) : (x.setBank b y).saved = x.saved := by unfold Core.setBank; split <;> rfl
@[simp] theorem Core.setBank_saveSeq (x : Core) (b : Nat) (y : Bank) : (x.setBank b y).saveSeq = x.saveSeq := by unfold Core.setBank; split <;> rfl
@[simp] theorem Core.setBank_bothBlocked (x : Core) (b : Nat) (y : Bank) : (x.setBank b y).bothBlocked = x.bothBlocked := by unfold Core.setBank; split <;> rfl
@[simp] theorem Core.setBank_rampIns (x : Core) (b : Nat) (y : Bank) : (x.setBank b y).rampIns = x.rampIns := by unfold Core.setBank; split <;> rfl
@[simp] theorem Core.setBank_rampCount (x : Core) (b : Nat) (y : Bank) : (x.setBank b y).rampCount = x.rampCount := by unfold Core.setBank; split <;> rfl
@[simp] theorem Core.setBank_rampPrev (x : Core) (b : Nat) (y : Bank) : (x.setBank b y).rampPrev = x.rampPrev := by unfold Core.setBank; split <;> rfl
@[simp] theorem Core.setBank_rampWin (x : Core) (b : Nat) (y : Bank) : (x.setBank b y).rampWin = x.rampWin := by unfold Core.setBank; split <;> rfl
@[simp] theorem Core.setBank_tlb (x : Core) (b : Nat) (y : Bank) : (x.setBank b y).tlb = x.tlb := by unfold Core.setBank; split <;> rfl
@[simp] theorem Core.setBank_walk (x : Core) (b : Nat) (y : Bank) : (x.setBank b y).walk = x.walk := by unfold Core.setBank; split <;> rfl
@[simp] theorem Core.setBank_loop0 (x : Core) (b : Nat) (y : Bank) : (x.setBank b y).loop0 = x.loop0 := by unfold Core.setBank; split <;> rfl
@[simp] theorem Core.setBank_loop1 (x : Core) (b : Nat) (y : Bank) : (x.setBank b y).loop1 = x.loop1 := by unfold Core.setBank; split <;> rfl
@[simp] theorem Core.setBank_loopAt (x : Core) (b : Nat) (y : Bank) : (x.setBank b y).loopAt = x.loopAt := by unfold Core.setBank; split <;> rfl
@[simp] theorem Core.setBank_spec (x : Core) (b : Nat) (y : Bank) : (x.setBank b y).spec = x.spec := by unfold Core.setBank; split <;> rfl
@[simp] theorem Core.setBank_specPc (x : Core) (b : Nat) (y : Bank) : (x.setBank b y).specPc = x.specPc := by unfold Core.setBank; split <;> rfl
@[simp] theorem Core.setBank_orphans (x : Core) (b : Nat) (y : Bank) : (x.setBank b y).orphans = x.orphans := by unfold Core.setBank; split <;> rfl
@[simp] theorem Core.setBank_upsets (x : Core) (b : Nat) (y : Bank) : (x.setBank b y).upsets = x.upsets := by unfold Core.setBank; split <;> rfl

@[simp] theorem Core.bank_setBank (x : Core) (b : Nat) (y : Bank) : (x.setBank b y).bank b = y := by
  unfold Core.bank Core.setBank; by_cases h : b = 0 <;> simp [h]

/-- The other bank stays as it is. -/
theorem Core.bank_setBank_ne (x : Core) (b k : Nat) (y : Bank) (h : (k = 0) ≠ (b = 0)) : (x.setBank b y).bank k = x.bank k := by
  unfold Core.bank Core.setBank; by_cases hb : b = 0 <;> by_cases hk : k = 0 <;> simp_all

@[simp] theorem Core.setBank_setBank (x : Core) (b : Nat) (y z : Bank) : (x.setBank b y).setBank b z = x.setBank b z := by
  unfold Core.setBank; by_cases h : b = 0 <;> simp [h]

/-! ### A bank changed -/

@[simp] theorem State.modBank_focus (s : State) (c b : Nat) (g : Bank → Bank) : (s.modBank c b g).focus = s.focus := rfl
@[simp] theorem State.modBank_moves (s : State) (c b : Nat) (g : Bank → Bank) : (s.modBank c b g).moves = s.moves := rfl
@[simp] theorem State.modBank_pace (s : State) (c b : Nat) (g : Bank → Bank) : (s.modBank c b g).pace = s.pace := rfl
@[simp] theorem State.modBank_modn (s : State) (c b : Nat) (g : Bank → Bank) : (s.modBank c b g).modn = s.modn := rfl
@[simp] theorem State.modBank_mem (s : State) (c b : Nat) (g : Bank → Bank) : (s.modBank c b g).mem = s.mem := rfl
@[simp] theorem State.modBank_bad (s : State) (c b : Nat) (g : Bank → Bank) : (s.modBank c b g).bad = s.bad := rfl
@[simp] theorem State.modBank_inject (s : State) (c b : Nat) (g : Bank → Bank) : (s.modBank c b g).inject = s.inject := rfl
@[simp] theorem State.modBank_injectOne (s : State) (c b : Nat) (g : Bank → Bank) : (s.modBank c b g).injectOne = s.injectOne := rfl
@[simp] theorem State.modBank_soft (s : State) (c b : Nat) (g : Bank → Bank) : (s.modBank c b g).soft = s.soft := rfl
@[simp] theorem State.modBank_mod (s : State) (c b : Nat) (g : Bank → Bank) : (s.modBank c b g).mod = s.mod := rfl
@[simp] theorem State.modBank_flt (s : State) (c b : Nat) (g : Bank → Bank) : (s.modBank c b g).flt = s.flt := rfl
@[simp] theorem State.modBank_launches (s : State) (c b : Nat) (g : Bank → Bank) : (s.modBank c b g).launches = s.launches := rfl
@[simp] theorem State.modBank_launchNext (s : State) (c b : Nat) (g : Bank → Bank) : (s.modBank c b g).launchNext = s.launchNext := rfl
@[simp] theorem State.modBank_spawns (s : State) (c b : Nat) (g : Bank → Bank) : (s.modBank c b g).spawns = s.spawns := rfl
@[simp] theorem State.modBank_records (s : State) (c b : Nat) (g : Bank → Bank) : (s.modBank c b g).records = s.records := rfl
@[simp] theorem State.modBank_queues (s : State) (c b : Nat) (g : Bank → Bank) : (s.modBank c b g).queues = s.queues := rfl
@[simp] theorem State.modBank_events (s : State) (c b : Nat) (g : Bank → Bank) : (s.modBank c b g).events = s.events := rfl
@[simp] theorem State.modBank_cles (s : State) (c b : Nat) (g : Bank → Bank) : (s.modBank c b g).cles = s.cles := rfl
@[simp] theorem State.modBank_net (s : State) (c b : Nat) (g : Bank → Bank) : (s.modBank c b g).net = s.net := rfl
@[simp] theorem State.modBank_ports (s : State) (c b : Nat) (g : Bank → Bank) : (s.modBank c b g).ports = s.ports := rfl
@[simp] theorem State.modBank_out (s : State) (c b : Nat) (g : Bank → Bank) : (s.modBank c b g).out = s.out := rfl
@[simp] theorem State.modBank_awaiting (s : State) (c b : Nat) (g : Bank → Bank) : (s.modBank c b g).awaiting = s.awaiting := rfl
@[simp] theorem State.modBank_links (s : State) (c b : Nat) (g : Bank → Bank) : (s.modBank c b g).links = s.links := rfl
@[simp] theorem State.modBank_hand (s : State) (c b : Nat) (g : Bank → Bank) : (s.modBank c b g).hand = s.hand := rfl
@[simp] theorem State.modBank_sweeping (s : State) (c b : Nat) (g : Bank → Bank) : (s.modBank c b g).sweeping = s.sweeping := rfl
@[simp] theorem State.modBank_migs (s : State) (c b : Nat) (g : Bank → Bank) : (s.modBank c b g).migs = s.migs := rfl
@[simp] theorem State.modBank_training (s : State) (c b : Nat) (g : Bank → Bank) : (s.modBank c b g).training = s.training := rfl
@[simp] theorem State.modBank_mgmt (s : State) (c b : Nat) (g : Bank → Bank) : (s.modBank c b g).mgmt = s.mgmt := rfl
@[simp] theorem State.modBank_answer (s : State) (c b : Nat) (g : Bank → Bank) : (s.modBank c b g).answer = s.answer := rfl
@[simp] theorem State.modBank_ctlQ (s : State) (c b : Nat) (g : Bank → Bank) : (s.modBank c b g).ctlQ = s.ctlQ := rfl
@[simp] theorem State.modBank_kills (s : State) (c b : Nat) (g : Bank → Bank) : (s.modBank c b g).kills = s.kills := rfl
@[simp] theorem State.modBank_ns (s : State) (c b : Nat) (g : Bank → Bank) : (s.modBank c b g).ns = s.ns := rfl
@[simp] theorem State.modBank_laps (s : State) (c b : Nat) (g : Bank → Bank) : (s.modBank c b g).laps = s.laps := rfl
@[simp] theorem State.modBank_lapNext (s : State) (c b : Nat) (g : Bank → Bank) : (s.modBank c b g).lapNext = s.lapNext := rfl
@[simp] theorem State.modBank_recordNext (s : State) (c b : Nat) (g : Bank → Bank) : (s.modBank c b g).recordNext = s.recordNext := rfl

@[simp] theorem State.core_modBank (s : State) (c b : Nat) (g : Bank → Bank) :
    (s.modBank c b g).core c = (s.core c).setBank b (g ((s.core c).bank b)) := State.core_setCore _ _ _

theorem State.core_modBank_ne (s : State) (c b k : Nat) (g : Bank → Bank) (h : k ≠ c) :
    (s.modBank c b g).core k = s.core k := State.core_setCore_ne _ _ _ _ h

@[simp] theorem State.bankAt_modBank (s : State) (c b : Nat) (g : Bank → Bank) :
    (s.modBank c b g).bankAt c b = g (s.bankAt c b) := by simp [State.bankAt]

@[simp] theorem State.modBank_modBank (s : State) (c b : Nat) (f g : Bank → Bank) :
    (s.modBank c b f).modBank c b g = s.modBank c b fun y => g (f y) := by
  simp [State.modBank]

/-! ### The issuing bank -/

@[simp] theorem State.modBk_focus (s : State) (g : Bank → Bank) : (s.modBk g).focus = s.focus := rfl
@[simp] theorem State.modBk_moves (s : State) (g : Bank → Bank) : (s.modBk g).moves = s.moves := rfl
@[simp] theorem State.modBk_pace (s : State) (g : Bank → Bank) : (s.modBk g).pace = s.pace := rfl
@[simp] theorem State.modBk_modn (s : State) (g : Bank → Bank) : (s.modBk g).modn = s.modn := rfl
@[simp] theorem State.modBk_mem (s : State) (g : Bank → Bank) : (s.modBk g).mem = s.mem := rfl
@[simp] theorem State.modBk_bad (s : State) (g : Bank → Bank) : (s.modBk g).bad = s.bad := rfl
@[simp] theorem State.modBk_inject (s : State) (g : Bank → Bank) : (s.modBk g).inject = s.inject := rfl
@[simp] theorem State.modBk_injectOne (s : State) (g : Bank → Bank) : (s.modBk g).injectOne = s.injectOne := rfl
@[simp] theorem State.modBk_soft (s : State) (g : Bank → Bank) : (s.modBk g).soft = s.soft := rfl
@[simp] theorem State.modBk_mod (s : State) (g : Bank → Bank) : (s.modBk g).mod = s.mod := rfl
@[simp] theorem State.modBk_flt (s : State) (g : Bank → Bank) : (s.modBk g).flt = s.flt := rfl
@[simp] theorem State.modBk_launches (s : State) (g : Bank → Bank) : (s.modBk g).launches = s.launches := rfl
@[simp] theorem State.modBk_launchNext (s : State) (g : Bank → Bank) : (s.modBk g).launchNext = s.launchNext := rfl
@[simp] theorem State.modBk_spawns (s : State) (g : Bank → Bank) : (s.modBk g).spawns = s.spawns := rfl
@[simp] theorem State.modBk_records (s : State) (g : Bank → Bank) : (s.modBk g).records = s.records := rfl
@[simp] theorem State.modBk_queues (s : State) (g : Bank → Bank) : (s.modBk g).queues = s.queues := rfl
@[simp] theorem State.modBk_events (s : State) (g : Bank → Bank) : (s.modBk g).events = s.events := rfl
@[simp] theorem State.modBk_cles (s : State) (g : Bank → Bank) : (s.modBk g).cles = s.cles := rfl
@[simp] theorem State.modBk_net (s : State) (g : Bank → Bank) : (s.modBk g).net = s.net := rfl
@[simp] theorem State.modBk_ports (s : State) (g : Bank → Bank) : (s.modBk g).ports = s.ports := rfl
@[simp] theorem State.modBk_out (s : State) (g : Bank → Bank) : (s.modBk g).out = s.out := rfl
@[simp] theorem State.modBk_awaiting (s : State) (g : Bank → Bank) : (s.modBk g).awaiting = s.awaiting := rfl
@[simp] theorem State.modBk_links (s : State) (g : Bank → Bank) : (s.modBk g).links = s.links := rfl
@[simp] theorem State.modBk_hand (s : State) (g : Bank → Bank) : (s.modBk g).hand = s.hand := rfl
@[simp] theorem State.modBk_sweeping (s : State) (g : Bank → Bank) : (s.modBk g).sweeping = s.sweeping := rfl
@[simp] theorem State.modBk_migs (s : State) (g : Bank → Bank) : (s.modBk g).migs = s.migs := rfl
@[simp] theorem State.modBk_training (s : State) (g : Bank → Bank) : (s.modBk g).training = s.training := rfl
@[simp] theorem State.modBk_mgmt (s : State) (g : Bank → Bank) : (s.modBk g).mgmt = s.mgmt := rfl
@[simp] theorem State.modBk_answer (s : State) (g : Bank → Bank) : (s.modBk g).answer = s.answer := rfl
@[simp] theorem State.modBk_ctlQ (s : State) (g : Bank → Bank) : (s.modBk g).ctlQ = s.ctlQ := rfl
@[simp] theorem State.modBk_kills (s : State) (g : Bank → Bank) : (s.modBk g).kills = s.kills := rfl
@[simp] theorem State.modBk_ns (s : State) (g : Bank → Bank) : (s.modBk g).ns = s.ns := rfl
@[simp] theorem State.modBk_laps (s : State) (g : Bank → Bank) : (s.modBk g).laps = s.laps := rfl
@[simp] theorem State.modBk_lapNext (s : State) (g : Bank → Bank) : (s.modBk g).lapNext = s.lapNext := rfl
@[simp] theorem State.modBk_recordNext (s : State) (g : Bank → Bank) : (s.modBk g).recordNext = s.recordNext := rfl

@[simp] theorem State.modBk_cf (s : State) (g : Bank → Bank) : (s.modBk g).cf = s.cf := rfl
@[simp] theorem State.modBank_cf (s : State) (c b : Nat) (g : Bank → Bank) : (s.modBank c b g).cf = s.cf := rfl
@[simp] theorem State.modCore_cf (s : State) (c : Nat) (g : Core → Core) : (s.modCore c g).cf = s.cf := rfl

@[simp] theorem State.modBk_bf (s : State) (g : Bank → Bank) : (s.modBk g).bf = s.bf := by
  simp [State.bf, State.modBk]

@[simp] theorem State.modBk_bk (s : State) (g : Bank → Bank) : (s.modBk g).bk = g s.bk := by
  have h : (s.modBk g).bf = s.bf := s.modBk_bf g
  simp only [State.bk, h, State.modBk_cf]
  simp [State.modBk]

@[simp] theorem State.modBk_modBk (s : State) (f g : Bank → Bank) : (s.modBk f).modBk g = s.modBk fun y => g (f y) := by
  show (s.modBk f).modBank (s.modBk f).cf (s.modBk f).bf g = _
  rw [State.modBk_cf, State.modBk_bf]
  simp [State.modBk]

/-- Another core stays as it is. -/
theorem State.modBk_core_ne (s : State) (g : Bank → Bank) (k : Nat) (h : k ≠ s.cf) : (s.modBk g).core k = s.core k :=
  State.core_modBank_ne _ _ _ _ _ h

/-! ### Registers -/

@[simp] theorem Regs.rs_zero (r : Regs) : r.rs 0 = 0 := rfl
@[simp] theorem Regs.rp_zero (r : Regs) : r.rp 0 = true := rfl
@[simp] theorem Regs.rq_zero (r : Regs) : r.rq 0 = BitVec.allOnes 1024 := rfl
@[simp] theorem Regs.ws_zero (r : Regs) (v : Word) : r.ws 0 v = r := rfl
@[simp] theorem Regs.wp_zero (r : Regs) (v : Bool) : r.wp 0 v = r := rfl
@[simp] theorem Regs.wq_zero (r : Regs) (v : QReg) : r.wq 0 v = r := rfl

theorem Regs.rs_ws (r : Regs) (i j : Nat) (v : Word) : (r.ws i v).rs j = if j = i ∧ i ≠ 0 then v else r.rs j := by
  unfold Regs.rs Regs.ws
  by_cases hi : i = 0
  · simp [hi]
  · by_cases hj : j = i
    · subst hj; simp [hi]
    · simp [hi, hj, Tab.get_set_ne]

theorem Regs.rp_wp (r : Regs) (i j : Nat) (v : Bool) : (r.wp i v).rp j = if j = i ∧ i ≠ 0 then v else r.rp j := by
  unfold Regs.rp Regs.wp
  by_cases hi : i = 0
  · simp [hi]
  · by_cases hj : j = i
    · subst hj; simp [hi]
    · simp [hi, hj, Tab.get_set_ne]

theorem Regs.rq_wq (r : Regs) (i j : Nat) (v : QReg) : (r.wq i v).rq j = if j = i ∧ i ≠ 0 then v else r.rq j := by
  unfold Regs.rq Regs.wq
  by_cases hi : i = 0
  · simp [hi]
  · by_cases hj : j = i
    · subst hj; simp [hi]
    · simp [hi, hj, Tab.get_set_ne]

theorem Regs.ra_wa (r : Regs) (i j : Nat) (v : Word) : (r.wa i v).ra j = if j = i then v else r.ra j := by
  unfold Regs.ra Regs.wa
  by_cases h : j = i
  · subst h; simp
  · simp [h, Tab.get_set_ne]

theorem Regs.rv_wv (r : Regs) (i j : Nat) (v : VReg) : (r.wv i v).rv j = if j = i then v else r.rv j := by
  unfold Regs.rv Regs.wv
  by_cases h : j = i
  · subst h; simp
  · simp [h, Tab.get_set_ne]

theorem Regs.rt_wt (r : Regs) (i j : Nat) (v : TRec) : (r.wt i v).rt j = if j = i then v else r.rt j := by
  unfold Regs.rt Regs.wt
  by_cases h : j = i
  · subst h; simp
  · simp [h, Tab.get_set_ne]

theorem Regs.rm_wm (r : Regs) (i j : Nat) (v : MDesc) : (r.wm i v).rm j = if j = i then v else r.rm j := by
  unfold Regs.rm Regs.wm
  by_cases h : j = i
  · subst h; simp
  · simp [h, Tab.get_set_ne]

theorem Regs.rsb_wsb (r : Regs) (i j : Nat) (v : Bool) : (r.wsb i v).rsb j = if j = i then v else r.rsb j := by
  unfold Regs.rsb Regs.wsb
  by_cases h : j = i
  · subst h; simp
  · simp [h, Tab.get_set_ne]

@[simp] theorem Regs.ws_a (r : Regs) (i : Nat) (v : Word) : (r.ws i v).a = r.a := by unfold Regs.ws; split <;> rfl
@[simp] theorem Regs.ws_p (r : Regs) (i : Nat) (v : Word) : (r.ws i v).p = r.p := by unfold Regs.ws; split <;> rfl
@[simp] theorem Regs.ws_v (r : Regs) (i : Nat) (v : Word) : (r.ws i v).v = r.v := by unfold Regs.ws; split <;> rfl
@[simp] theorem Regs.ws_q (r : Regs) (i : Nat) (v : Word) : (r.ws i v).q = r.q := by unfold Regs.ws; split <;> rfl
@[simp] theorem Regs.ws_t (r : Regs) (i : Nat) (v : Word) : (r.ws i v).t = r.t := by unfold Regs.ws; split <;> rfl
@[simp] theorem Regs.ws_m (r : Regs) (i : Nat) (v : Word) : (r.ws i v).m = r.m := by unfold Regs.ws; split <;> rfl
@[simp] theorem Regs.ws_sb (r : Regs) (i : Nat) (v : Word) : (r.ws i v).sb = r.sb := by unfold Regs.ws; split <;> rfl
@[simp] theorem Regs.wa_s (r : Regs) (i : Nat) (v : Word) : (r.wa i v).s = r.s := rfl
@[simp] theorem Regs.wa_p (r : Regs) (i : Nat) (v : Word) : (r.wa i v).p = r.p := rfl
@[simp] theorem Regs.wa_v (r : Regs) (i : Nat) (v : Word) : (r.wa i v).v = r.v := rfl
@[simp] theorem Regs.wa_q (r : Regs) (i : Nat) (v : Word) : (r.wa i v).q = r.q := rfl
@[simp] theorem Regs.wa_t (r : Regs) (i : Nat) (v : Word) : (r.wa i v).t = r.t := rfl
@[simp] theorem Regs.wa_m (r : Regs) (i : Nat) (v : Word) : (r.wa i v).m = r.m := rfl
@[simp] theorem Regs.wa_sb (r : Regs) (i : Nat) (v : Word) : (r.wa i v).sb = r.sb := rfl
@[simp] theorem Regs.wp_s (r : Regs) (i : Nat) (v : Bool) : (r.wp i v).s = r.s := by unfold Regs.wp; split <;> rfl
@[simp] theorem Regs.wp_a (r : Regs) (i : Nat) (v : Bool) : (r.wp i v).a = r.a := by unfold Regs.wp; split <;> rfl
@[simp] theorem Regs.wp_v (r : Regs) (i : Nat) (v : Bool) : (r.wp i v).v = r.v := by unfold Regs.wp; split <;> rfl
@[simp] theorem Regs.wp_q (r : Regs) (i : Nat) (v : Bool) : (r.wp i v).q = r.q := by unfold Regs.wp; split <;> rfl
@[simp] theorem Regs.wp_t (r : Regs) (i : Nat) (v : Bool) : (r.wp i v).t = r.t := by unfold Regs.wp; split <;> rfl
@[simp] theorem Regs.wp_m (r : Regs) (i : Nat) (v : Bool) : (r.wp i v).m = r.m := by unfold Regs.wp; split <;> rfl
@[simp] theorem Regs.wp_sb (r : Regs) (i : Nat) (v : Bool) : (r.wp i v).sb = r.sb := by unfold Regs.wp; split <;> rfl
@[simp] theorem Regs.wv_s (r : Regs) (i : Nat) (v : VReg) : (r.wv i v).s = r.s := rfl
@[simp] theorem Regs.wv_a (r : Regs) (i : Nat) (v : VReg) : (r.wv i v).a = r.a := rfl
@[simp] theorem Regs.wv_p (r : Regs) (i : Nat) (v : VReg) : (r.wv i v).p = r.p := rfl
@[simp] theorem Regs.wv_q (r : Regs) (i : Nat) (v : VReg) : (r.wv i v).q = r.q := rfl
@[simp] theorem Regs.wv_t (r : Regs) (i : Nat) (v : VReg) : (r.wv i v).t = r.t := rfl
@[simp] theorem Regs.wv_m (r : Regs) (i : Nat) (v : VReg) : (r.wv i v).m = r.m := rfl
@[simp] theorem Regs.wv_sb (r : Regs) (i : Nat) (v : VReg) : (r.wv i v).sb = r.sb := rfl
@[simp] theorem Regs.wq_s (r : Regs) (i : Nat) (v : QReg) : (r.wq i v).s = r.s := by unfold Regs.wq; split <;> rfl
@[simp] theorem Regs.wq_a (r : Regs) (i : Nat) (v : QReg) : (r.wq i v).a = r.a := by unfold Regs.wq; split <;> rfl
@[simp] theorem Regs.wq_p (r : Regs) (i : Nat) (v : QReg) : (r.wq i v).p = r.p := by unfold Regs.wq; split <;> rfl
@[simp] theorem Regs.wq_v (r : Regs) (i : Nat) (v : QReg) : (r.wq i v).v = r.v := by unfold Regs.wq; split <;> rfl
@[simp] theorem Regs.wq_t (r : Regs) (i : Nat) (v : QReg) : (r.wq i v).t = r.t := by unfold Regs.wq; split <;> rfl
@[simp] theorem Regs.wq_m (r : Regs) (i : Nat) (v : QReg) : (r.wq i v).m = r.m := by unfold Regs.wq; split <;> rfl
@[simp] theorem Regs.wq_sb (r : Regs) (i : Nat) (v : QReg) : (r.wq i v).sb = r.sb := by unfold Regs.wq; split <;> rfl
@[simp] theorem Regs.wt_s (r : Regs) (i : Nat) (v : TRec) : (r.wt i v).s = r.s := rfl
@[simp] theorem Regs.wt_a (r : Regs) (i : Nat) (v : TRec) : (r.wt i v).a = r.a := rfl
@[simp] theorem Regs.wt_p (r : Regs) (i : Nat) (v : TRec) : (r.wt i v).p = r.p := rfl
@[simp] theorem Regs.wt_v (r : Regs) (i : Nat) (v : TRec) : (r.wt i v).v = r.v := rfl
@[simp] theorem Regs.wt_q (r : Regs) (i : Nat) (v : TRec) : (r.wt i v).q = r.q := rfl
@[simp] theorem Regs.wt_m (r : Regs) (i : Nat) (v : TRec) : (r.wt i v).m = r.m := rfl
@[simp] theorem Regs.wt_sb (r : Regs) (i : Nat) (v : TRec) : (r.wt i v).sb = r.sb := rfl
@[simp] theorem Regs.wm_s (r : Regs) (i : Nat) (v : MDesc) : (r.wm i v).s = r.s := rfl
@[simp] theorem Regs.wm_a (r : Regs) (i : Nat) (v : MDesc) : (r.wm i v).a = r.a := rfl
@[simp] theorem Regs.wm_p (r : Regs) (i : Nat) (v : MDesc) : (r.wm i v).p = r.p := rfl
@[simp] theorem Regs.wm_v (r : Regs) (i : Nat) (v : MDesc) : (r.wm i v).v = r.v := rfl
@[simp] theorem Regs.wm_q (r : Regs) (i : Nat) (v : MDesc) : (r.wm i v).q = r.q := rfl
@[simp] theorem Regs.wm_t (r : Regs) (i : Nat) (v : MDesc) : (r.wm i v).t = r.t := rfl
@[simp] theorem Regs.wm_sb (r : Regs) (i : Nat) (v : MDesc) : (r.wm i v).sb = r.sb := rfl
@[simp] theorem Regs.wsb_s (r : Regs) (i : Nat) (v : Bool) : (r.wsb i v).s = r.s := rfl
@[simp] theorem Regs.wsb_a (r : Regs) (i : Nat) (v : Bool) : (r.wsb i v).a = r.a := rfl
@[simp] theorem Regs.wsb_p (r : Regs) (i : Nat) (v : Bool) : (r.wsb i v).p = r.p := rfl
@[simp] theorem Regs.wsb_v (r : Regs) (i : Nat) (v : Bool) : (r.wsb i v).v = r.v := rfl
@[simp] theorem Regs.wsb_q (r : Regs) (i : Nat) (v : Bool) : (r.wsb i v).q = r.q := rfl
@[simp] theorem Regs.wsb_t (r : Regs) (i : Nat) (v : Bool) : (r.wsb i v).t = r.t := rfl
@[simp] theorem Regs.wsb_m (r : Regs) (i : Nat) (v : Bool) : (r.wsb i v).m = r.m := rfl

end Sys2Proof.Machine
end

