-- ==== Sys2Proof/Laws/Issue.lean ====
section
/-!
SUPPORT. Laws of issue: what a syllable that is clear to issue answers, by the shape of its plan.
-/

namespace Sys2Proof.Machine

open Sys2Proof

/-- Two changes that agree on the issuing bank are one. -/
theorem State.modBk_congr (s : State) (f g : Bank → Bank) (h : f s.bk = g s.bk) : s.modBk f = s.modBk g := by
  have e : s.bk = (s.core s.cf).bank s.bf := rfl
  unfold State.modBk State.modBank
  simp only [← e, h]

theorem foldl_modBk {β : Type} (l : List β) (f : Bank → β → Bank) (s : State) (g : Bank → Bank) :
    l.foldl (fun s e => s.modBk fun y => f y e) (s.modBk g) = s.modBk fun y => l.foldl f (g y) := by
  induction l generalizing g with
  | nil => rfl
  | cons e l ih => simp only [List.foldl_cons, State.modBk_modBk]; exact ih _

/-- Two plans have one footprint: the checks at issue see them alike. -/
def Plan.same (p q : Plan) : Prop :=
  p.reads = q.reads ∧ p.writes = q.writes ∧ p.locR = q.locR ∧ p.locW = q.locW ∧ p.rowsAcc = q.rowsAcc ∧
  p.touches = q.touches ∧ p.unparks = q.unparks ∧ p.out = q.out

/-- A list that is not empty has a least member by any measure. -/
theorem exists_least {α : Type} (f : α → Nat) : ∀ l : List α, l ≠ [] → ∃ r ∈ l, ∀ q ∈ l, f r ≤ f q
  | [x], _ => ⟨x, by simp⟩
  | x :: y :: l, _ => by
    obtain ⟨r, hr, hl⟩ := exists_least f (y :: l) (by simp)
    by_cases h : f x ≤ f r
    · exact ⟨x, by simp, fun q hq => by
        rcases List.mem_cons.1 hq with rfl | hq
        · exact Nat.le_refl _
        · exact Nat.le_trans h (hl q hq)⟩
    · exact ⟨r, List.mem_cons_of_mem _ hr, fun q hq => by
        rcases List.mem_cons.1 hq with rfl | hq
        · omega
        · exact hl q hq⟩

/-- A plan names no parked register, or the check stops it. -/
theorem Bank.parkedTrap_none (y : Bank) (p : Plan) : y.parkedTrap p = none ↔
    (p.writes ++ p.reads).filter (fun r => r.fam == .v && Tab.get .none y.parked r.idx != .none) = [] := by
  unfold Bank.parkedTrap
  simp only [Option.map_eq_none_iff]
  generalize (p.writes ++ p.reads).filter _ = l
  constructor
  · intro h
    by_contra hl
    obtain ⟨r, hr, hm⟩ := exists_least p.fieldOf l hl
    have := List.find?_eq_none.1 h r hr
    simp only [List.all_eq_true, decide_eq_true_eq] at this
    exact this hm
  · rintro rfl; rfl

theorem lowestTrap_none (l : List (Option Trap)) : lowestTrap l = none ↔ ∀ o ∈ l, o = none := by
  induction l with
  | nil => simp [lowestTrap]
  | cons o l ih =>
    cases o with
    | none => simp [lowestTrap, ih]
    | some t =>
      simp only [lowestTrap, List.mem_cons, forall_eq_or_imp, reduceCtorEq, false_and, iff_false]
      split
      · simp
      · split <;> simp

/-- Plans of one footprint that go: no check stops the one or none the other. -/
theorem Bank.planTrap_same (y : Bank) (h : Hdr) {p q : Plan} (e : p.same q) (hq : q.out = .go) (hn : y.planTrap h q = none) :
    y.planTrap h p = none := by
  obtain ⟨a, b, c, d, f, g, k, o⟩ := e
  have hp : p.out = .go := o.trans hq
  have hd : p.dests = q.dests := by simp only [Plan.dests, b, k]
  simp only [Bank.planTrap, hp, hq, lowestTrap_none, List.mem_append] at hn ⊢
  intro t ht
  rcases ht with ht | ht
  · refine hn t (.inl ?_)
    rw [hd] at ht
    simpa only [Bank.idemTrap, Bank.readLocs, Bank.entryReads, Plan.wrote, a, b, c, d, f] using ht
  · simp only [Option.map_none, List.mem_cons, List.not_mem_nil, or_false] at ht
    rcases ht with rfl | rfl | rfl
    · rfl
    · have := hn ((y.parkedTrap q).map fun t => { t with slot := h.slot }) (.inr (by simp))
      rw [Option.map_eq_none_iff, Bank.parkedTrap_none] at this ⊢
      rw [a, b]; exact this
    · rw [g]; exact hn _ (.inr (by simp))

theorem State.badRead_same (s : State) (h : Hdr) {p q : Plan} (e : p.same q) : s.badRead h p = s.badRead h q := by
  obtain ⟨a, b, c, d, f, g, k, o⟩ := e
  simp only [State.badRead, a, c, f]

theorem State.meetsSoft_same (s : State) {p q : Plan} (e : p.same q) : s.meetsSoft p = s.meetsSoft q := by
  obtain ⟨a, b, c, d, f, g, k, o⟩ := e
  simp only [State.meetsSoft, State.readRanges, a, c, f, g]

/-- A syllable that is clear to issue commits its plan. -/
theorem runSyllable_go {h : Hdr} {lat : Nat} {plan : State → Plan} {s s1 : State} {p : Plan} (hc : s.clear h p) (hp : p.out = .go)
    (e : (plan s).same p) (hd : s.dirtied p = .ok s1) : runSyllable h lat plan s = .next (s1.commitPlan h (plan s)) := by
  obtain ⟨c1, c2, c3, c4, c6⟩ := hc
  have ho : (plan s).out = .go := e.2.2.2.2.2.2.2.trans hp
  have ht : (plan s).touches = p.touches := e.2.2.2.2.2.1
  have c5 : s.makeDirty s.cf s.bf (s.bk.touchDirty p.touches) = .ok s1 := hd
  have k : lowestTrap [s.bk.planTrap h (plan s), s.badRead h (plan s), trapOf h (s.startFills s.cf s.bf []), trapOf h (Except.ok s1)] = none := by
    rw [Bank.planTrap_same _ _ e hp c2, State.badRead_same _ _ e, c3]; rfl
  have c7 : s.meetsSoft (plan s) = false := (State.meetsSoft_same s e).trans c6
  simp only [runSyllable, c1, not_true_eq_false, if_false, ho, ht, c4, c5, k, ne_eq, Except.toOption, Option.getD_some, State.softReads, c7]
  rfl

/-- A plan that touches no scratchpad makes no sector DIRTY. -/
theorem dirtied_none (s : State) (p : Plan) (h : p.touches = []) : s.dirtied p = .ok s := by
  simp [State.dirtied, h, Bank.touchDirty, Bank.touched, State.makeDirty, State.eachSec]

/-- Without accesses no fill starts and nothing becomes DIRTY. -/
theorem startFills_nil (s : State) (c b : Nat) : s.startFills c b [] = .ok s := rfl
theorem makeDirty_nil (s : State) (c b : Nat) : s.makeDirty c b [] = .ok s := rfl
theorem touchWaits_nil (y : Bank) : y.touchWaits [] = [] := by simp [Bank.touchWaits, Bank.touched]
theorem touchDirty_nil (y : Bank) : y.touchDirty [] = [] := by simp [Bank.touchDirty, Bank.touched]

/-- A syllable without accesses that a check or its own plan stops takes that trap; its destinations are named (R368). -/
theorem runSyllable_trap {h : Hdr} {lat : Nat} {plan : State → Plan} {s : State} {t : Trap} (hp : s.bk.predTrue h = true)
    (ho : (plan s).out ≠ .stall) (ht : (plan s).touches = []) (hc : s.bk.planTrap h (plan s) = some t)
    (hb : s.badRead h (plan s) = none) : runSyllable h lat plan s = .next ((s.naming h (plan s).dests).takeTrap t) := by
  have k : lowestTrap [s.bk.planTrap h (plan s), s.badRead h (plan s), trapOf h (s.startFills s.cf s.bf (s.bk.touchWaits (plan s).touches)),
      trapOf h (s.makeDirty s.cf s.bf (s.bk.touchDirty (plan s).touches))] = some t := by
    rw [ht, touchWaits_nil, touchDirty_nil, hc, hb]; rfl
  simp only [runSyllable, hp, not_true_eq_false, if_false, k]

/-- Outside task mode, or with checking off, a plan's own trap is the one that the checks answer, with its operand's register. -/
theorem Bank.planTrap_own (y : Bank) (h : Hdr) (p : Plan) (t : Trap) (hc : y.checks = false) (ho : p.out = .trap t)
    (hp : y.parkedTrap p = none) (ht : p.touches = []) : y.planTrap h p = some { p.report t with slot := h.slot } := by
  simp [Bank.planTrap, hc, ho, hp, ht, lowestTrap, Bank.touchTrap, Bank.touched]

/-- A plan that traps has the footprint of one that no check stops: its own trap is the one answered. -/
theorem Bank.planTrap_trap (y : Bank) (h : Hdr) (p q : Plan) (t : Trap) (ho : p.out = .trap t) (hq : y.planTrap h q = none)
    (hg : q.out = .go) (hr : p.reads = q.reads) (hd : p.writes = q.writes) (hu : p.unparks = q.unparks)
    (ht : p.touches = q.touches) : y.planTrap h p = some { p.report t with slot := h.slot } := by
  have hde : p.dests = q.dests := by simp only [Plan.dests, hd, hu]
  have hpk : y.parkedTrap p = none := by
    rw [Bank.parkedTrap_none, hd, hr, ← Bank.parkedTrap_none]
    simp only [Bank.planTrap, hg, lowestTrap_none, List.mem_append] at hq
    exact Option.map_eq_none_iff.1 (hq ((y.parkedTrap q).map fun t => { t with slot := h.slot }) (.inr (by simp)))
  have htt : y.touchTrap p.touches = none := by
    rw [ht]
    simp only [Bank.planTrap, hg, lowestTrap_none, List.mem_append] at hq
    exact Option.map_eq_none_iff.1 (hq ((y.touchTrap q.touches).map fun t => { t with slot := h.slot }) (.inr (by simp)))
  by_cases hc : y.checks = true
  · simp only [Bank.planTrap, hg, hc, if_true, lowestTrap_none, List.mem_append, List.mem_cons] at hq
    have h1 := hq _ (.inl (.inl rfl))
    have h2 := hq _ (.inl (.inr (.inl rfl)))
    have h3 := hq _ (.inl (.inr (.inr (.inl rfl))))
    simp [Bank.planTrap, hc, ho, hpk, htt, hde, hr, h1, h2, h3, lowestTrap]
  · simp [Bank.planTrap, hc, ho, hpk, htt, lowestTrap]

/-- A syllable without accesses whose plan traps, where no check of R41 speaks, takes that trap. -/
theorem runSyllable_own {h : Hdr} {lat : Nat} {plan : State → Plan} {s : State} {t : Trap} (q : Plan) (hp : s.bk.predTrue h = true)
    (hc : s.bk.checks = false) (hn : s.noBad = true) (e : plan s = q) (ho : q.out = .trap t) (ht : q.touches = [])
    (hk : s.bk.parkedTrap q = none) :
    runSyllable h lat plan s = .next ((s.naming h q.dests).takeTrap { q.report t with slot := h.slot }) := by
  subst e
  exact runSyllable_trap hp (by rw [ho]; nofun) ht (Bank.planTrap_own _ _ _ _ hc ho hk ht) (by simp [State.badRead, hn])

/-- A plan that names no vector register names no parked one. -/
theorem parkedTrap_noV (y : Bank) (p : Plan) (h : ∀ r ∈ p.writes ++ p.reads, r.fam ≠ .v) : y.parkedTrap p = none := by
  rw [Bank.parkedTrap_none, List.filter_eq_nil_iff]
  intro r hr
  simp [h r hr]

theorem Bank.sent_congr (h : Hdr) (l : List (Nat × List Write)) (y z : Bank) (n : Nat) (h1 : z.pipe.clk = y.pipe.clk)
    (h2 : z.pipe.bundle = y.pipe.bundle) (h3 : z.pipe.segNo = y.pipe.segNo) : z.sent h n l = y.sent h n l := by
  induction l generalizing n with
  | nil => rfl
  | cons f l ih => simp only [Bank.sent, h1, h2, h3, ih]

/-- The results of a plan as the issuing bank takes them. -/
theorem foldl_launchResult (h : Hdr) (l : List (Nat × List Write)) (y : Bank) :
    l.foldl (fun y e => y.launchResult h.slot e.1 e.2) y =
      { y with pipe := { y.pipe with pend := y.pipe.pend ++ y.sent h y.pipe.seq l, seq := y.pipe.seq + l.length } } := by
  induction l generalizing y with
  | nil => simp [Bank.sent]
  | cons e l ih =>
    rw [List.foldl_cons, ih]
    rw [Bank.sent_congr h l y (y.launchResult h.slot e.1 e.2) _ rfl rfl rfl]
    simp [Bank.launchResult, Bank.modPipe, Bank.sent, Nat.add_comm, Nat.add_left_comm]

theorem Bank.sent_append (y : Bank) (h : Hdr) (l r : List (Nat × List Write)) (n : Nat) :
    y.sent h n (l ++ r) = y.sent h n l ++ y.sent h (n + l.length) r := by
  induction l generalizing n with
  | nil => simp [Bank.sent]
  | cons e l ih => simp [Bank.sent, ih, Nat.add_comm, Nat.add_left_comm]

/-- The SBSET entry and its clearing. -/
theorem Bank.setEntry_eq (y : Bank) (h : Hdr) (lat : Nat) : y.setEntry h lat =
    { y with
      regs := if h.sbset = 0 then y.regs else y.regs.wsb h.sbset true
      pipe := { y.pipe with
        seq := y.pipe.seq + (if h.sbset = 0 then 0 else 1)
        pend := y.pipe.pend ++ y.sent h y.pipe.seq (if h.sbset = 0 then [] else [(max lat 1, [.sbClear h.sbset])]) } } := by
  unfold Bank.setEntry
  split
  · simp [Bank.sent]
  · simp [Bank.sent, Bank.launchResult, Bank.modPipe]

/-- A plan without a variable-latency operation puts its results in flight, then has its effect. -/
theorem commitPlan_issues (s : State) (h : Hdr) (p : Plan) (hv : p.var = none) :
    ∃ u, Issues s u h p.results ∧ s.commitPlan h p = p.eff ((s.core s.cf).varNext + 1) u := by
  let g : Bank → Bank := fun y =>
    (p.results.foldl (fun y e => y.launchResult h.slot e.1 e.2) (y.record h p (s.core s.cf).acc)).setEntry h p.latency
  have e : s.commitPlan h p = p.eff ((s.core s.cf).varNext + 1) (s.modBk g) := by
    simp only [State.commitPlan, hv]
    rw [foldl_modBk p.results (fun y e => y.launchResult h.slot e.1 e.2), State.modBk_modBk]
  refine ⟨s.modBk g, ?_, e⟩
  have hg : g s.bk = { s.bk with
      regs := if h.sbset = 0 then s.bk.regs else s.bk.regs.wsb h.sbset true, pipe := (g s.bk).pipe } := by
    simp only [g, Bank.setEntry_eq, foldl_launchResult, Bank.record, Bank.modPipe, Bank.modCtx]
  refine ⟨(g s.bk).pipe, ?_, ?_, ?_, ?_⟩
  · exact State.modBk_congr _ _ _ hg
  · simp [g, Bank.setEntry_eq, foldl_launchResult, Bank.record, Bank.modPipe, Bank.modCtx, Pipe.carries]
  · simp [g, Bank.setEntry_eq, foldl_launchResult, Bank.record, Bank.modPipe, Bank.modCtx]
  · simp only [g, Bank.setEntry_eq, foldl_launchResult, Bank.record, Bank.modPipe, Bank.modCtx, List.append_assoc,
      Bank.sent_append, clearing, longest, Plan.latency]
    congr 1
    congr 1
    · exact Bank.sent_congr _ _ _ _ _ rfl rfl rfl
    · exact Bank.sent_congr _ _ _ _ _ rfl rfl rfl

/-- What a clear syllable without a variable-latency operation answers. -/
theorem runSyllable_issues {h : Hdr} {lat : Nat} {plan : State → Plan} {s s1 : State} {p : Plan} (hc : s.clear h p)
    (hp : p.out = .go) (e : (plan s).same p) (hd : s.dirtied p = .ok s1) (hv : (plan s).var = none) :
    ∃ u, Issues s1 u h (plan s).results ∧
      runSyllable h lat plan s = .next ((plan s).eff ((s1.core s1.cf).varNext + 1) u) := by
  obtain ⟨u, hu, he⟩ := commitPlan_issues s1 h (plan s) hv
  exact ⟨u, hu, by rw [runSyllable_go hc hp e hd, he]⟩

/-- A change of the issuing bank and one of its core that leaves the banks and the choice between them commute. -/
theorem State.modCore_modBk (s : State) (f : Core → Core) (g : Bank → Bank) (hc : ∀ x, (f x).cur = x.cur)
    (h0 : ∀ x, (f x).bank0 = x.bank0) (h1 : ∀ x, (f x).bank1 = x.bank1)
    (hs : ∀ x b y, f (x.setBank b y) = (f x).setBank b y) :
    (s.modBk g).modCore s.cf f = (s.modCore s.cf f).modBk g := by
  have hb : ∀ x b, (f x).bank b = x.bank b := fun x b => by simp [Core.bank, h0, h1]
  simp only [State.modBk, State.modCore, State.modBank, State.bf, State.cf, State.core_setCore, State.setCore_setCore, hs, hc, hb,
    State.setCore_focus]

/-- A plan with a variable-latency operation and no other result starts it, then has its effect. -/
theorem commitPlan_starts (s : State) (h : Hdr) (p : Plan) (v : VarPlan) (hv : p.var = some v) (hr : p.results = []) :
    ∃ u, Starts s u h v ∧ s.commitPlan h p = p.eff ((s.core s.cf).varNext + 1) u := by
  let x := s.core s.cf
  let r := s.bk.record h p x.acc
  let op : VarOp := {
    id := x.varNext + 1, kind := v.kind, pc := s.bk.pc + s.bk.pipe.ctx.place, slot := h.slot, bundle := s.bk.pipe.bundle
    segNo := s.bk.pipe.segNo, seq := s.bk.pipe.seq, sb := h.sbset, earliest := x.cycle + v.earliest, latest := v.latest.map (x.cycle + ·)
    reg := v.reg, writes := v.writes, late := v.late }
  let q : Pipe := { r.pipe with vars := s.bk.pipe.vars ++ [op], seq := s.bk.pipe.seq + 1 }
  let f : Core → Core := fun z => { z with varNext := x.varNext + 1 }
  have hcomm : ∀ g : Bank → Bank, (s.modBk g).modCore s.cf f = (s.modCore s.cf f).modBk g := fun g =>
    State.modCore_modBk s f g (fun _ => rfl) (fun _ => rfl) (fun _ => rfl)
      (fun x b y => by unfold Core.setBank; split <;> rfl)
  have hb : (s.modCore s.cf f).bk = s.bk := by
    simp only [State.bk, State.modCore_cf, State.bf, State.core_modCore, f, Core.bank]
    rfl
  refine ⟨(s.modCore s.cf f).withPipe h q, ⟨q, rfl, ?_, ?_, rfl⟩, ?_⟩
  · simp [q, r, Bank.record, Bank.modPipe, Bank.modCtx, Pipe.carries]
  · simp [q, r, Bank.record, Bank.modPipe, Bank.modCtx]
  · simp only [State.commitPlan, hv, hr, List.foldl_nil]
    congr 1
    have hcore : (s.modBk fun y => y.record h p (s.core s.cf).acc).core (s.modBk fun y => y.record h p (s.core s.cf).acc).cf =
        x.setBank s.bf r := by simp [State.modBk, x, r, State.bk]
    rw [hcore]
    simp only [State.modBk_cf, State.modBk_bk, Core.setBank_cycle]
    rw [hcomm, State.modBk_modBk]
    refine State.modBk_congr _ _ _ ?_
    rw [hb]
    simp [q, r, op, Bank.record, Bank.modPipe, Bank.modCtx, x]

/-- What a clear syllable that starts a variable-latency operation answers. -/
theorem runSyllable_starts {h : Hdr} {lat : Nat} {plan : State → Plan} {s s1 : State} {p : Plan} {v : VarPlan} (hc : s.clear h p)
    (hp : p.out = .go) (e : (plan s).same p) (hd : s.dirtied p = .ok s1) (hv : (plan s).var = some v) (hr : (plan s).results = []) :
    ∃ u, Starts s1 u h v ∧
      runSyllable h lat plan s = .next ((plan s).eff ((s1.core s1.cf).varNext + 1) u) := by
  obtain ⟨u, hu, he⟩ := commitPlan_starts s1 h (plan s) v hv hr
  exact ⟨u, hu, by rw [runSyllable_go hc hp e hd, he]⟩

/-! ### Plans that only read and write registers -/

/-- Registers of their families are no illegal operand. -/
theorem regBad_none (l : List RegOp) (h : ∀ e ∈ l, e.2.1 < e.1.count) : regBad l = none := by
  induction l with
  | nil => rfl
  | cons e l ih => simp [regBad, ih fun x hx => h x (by simp [hx]), h e (by simp)]

/-- A register plan whose operands are legal goes. -/
theorem regPlan_go (rd wr : List RegOp) (lat : Nat) (ws : List Write) (h : ∀ e ∈ wr ++ rd, e.2.1 < e.1.count) :
    (regPlan rd wr lat ws none).out = .go := by
  simp [regPlan, regBad_none _ h, regPlan.lowestOp]

/-- A syllable whose plan only reads and writes registers sends its result. -/
theorem run_regPlan {h : Hdr} {lat lat' : Nat} {plan : State → Plan} {s : State} {rd wr : List RegOp} {ws : List Write}
    {bad : Option Trap} (hc : s.clear h (foot rd wr)) (hr : ∀ e ∈ wr ++ rd, e.2.1 < e.1.count) (hb : bad = none)
    (e : plan s = regPlan rd wr lat' ws bad) : Sends (runSyllable h lat plan s) s h [(lat', ws)] := by
  subst hb
  have hg := regPlan_go rd wr lat' ws hr
  have hs : (plan s).same (foot rd wr) := by
    rw [e]; exact ⟨rfl, rfl, rfl, rfl, rfl, rfl, rfl, hg⟩
  obtain ⟨u, hu, he⟩ := runSyllable_issues (lat := lat) hc rfl hs (dirtied_none s _ rfl) (by rw [e]; rfl)
  rw [e] at hu he
  exact ⟨u, hu, he⟩

/-- Operands that are no vector registers name no parked one. -/
theorem refsOf_noV (l : List RegOp) (h : ∀ e ∈ l, e.1 ≠ .v) : ∀ r ∈ refsOf l, r.fam ≠ .v := by
  intro r hr
  obtain ⟨e, he, rfl⟩ := List.mem_map.1 hr
  exact h e (List.mem_of_mem_filter he)

/-- A syllable whose plan only reads and writes registers and whose fields are illegal takes 0x24 with INFO 6 (R368). -/
theorem run_regPlan_field {h : Hdr} {lat lat' : Nat} {plan : State → Plan} {s : State} {rd wr : List RegOp} {ws : List Write}
    (hp : s.bk.predTrue h = true) (hc : s.bk.checks = false) (hn : s.noBad = true) (hr : ∀ e ∈ wr ++ rd, e.2.1 < e.1.count)
    (hv : ∀ e ∈ wr ++ rd, e.1 ≠ .v) (e : plan s = regPlan rd wr lat' ws (some (illegalOp 6))) :
    runSyllable h lat plan s =
      .next ((s.naming h (refsOf wr)).takeTrap { cause := 0x24, slot := h.slot, info := 6 }) := by
  have ho : (regPlan rd wr lat' ws (some (illegalOp 6))).out = .trap (illegalOp 6) := by
    simp [regPlan, regBad_none _ hr, regPlan.lowestOp]
  refine (runSyllable_own _ hp hc hn e ho rfl (parkedTrap_noV _ _ fun r hr => ?_)).trans ?_
  · rcases List.mem_append.1 hr with hr | hr
    · exact refsOf_noV wr (fun e he => hv e (by simp [he])) r hr
    · exact refsOf_noV rd (fun e he => hv e (by simp [he])) r hr
  · have hd : (regPlan rd wr lat' ws (some (illegalOp 6))).dests = refsOf wr := by simp [Plan.dests, regPlan]
    have hq : (regPlan rd wr lat' ws (some (illegalOp 6))).report (illegalOp 6) = illegalOp 6 := by simp [Plan.report, illegalOp]
    rw [hd, hq]; rfl

/-- A syllable whose plan is only its illegal field. -/
theorem run_bad_field {h : Hdr} {lat : Nat} {plan : State → Plan} {s : State} (hp : s.bk.predTrue h = true)
    (hc : s.bk.checks = false) (hn : s.noBad = true) (e : plan s = Plan.bad (illegalOp 6)) :
    runSyllable h lat plan s = .next (s.takeTrap { cause := 0x24, slot := h.slot, info := 6 }) :=
  have hq : (Plan.bad (illegalOp 6)).report (illegalOp 6) = illegalOp 6 := by simp [Plan.report, illegalOp]
  (runSyllable_own _ hp hc hn e rfl rfl (parkedTrap_noV _ _ (by simp [Plan.bad]))).trans (by rw [hq]; rfl)

/-- A clear syllable that touches no scratchpad sends what its plan sends, then has its plan's effect. -/
theorem run_plan {h : Hdr} {lat : Nat} {plan : State → Plan} {s : State} {p : Plan} (hc : s.clear h p) (q : Plan) (hp : p.out = .go)
    (ht : p.touches = []) (e : plan s = q) (hs : q.same p) (hv : q.var = none) :
    Sends (runSyllable h lat plan s) s h q.results (q.eff ((s.core s.cf).varNext + 1)) := by
  subst e
  obtain ⟨u, hu, he⟩ := runSyllable_issues (lat := lat) hc hp hs (dirtied_none s _ ht) hv
  exact ⟨u, hu, he⟩

end Sys2Proof.Machine
end

