-- ==== Sys2Proof/Laws/Memory.lean ====
section
/-!
SUPPORT. Laws of memory: every operation that writes memory keeps its canonical form, and the shared operations of a trap and of
a landing result keep it too.
-/

namespace Sys2Proof.Machine

open Sys2Proof

/-! ### A list of cells -/

theorem tabOkFrom_filter {α : Type} [DecidableEq α] (d : Nat → α) (p : Nat × α → Bool) (t : Tab α) :
    ∀ lo, tabOkFrom d lo t = true → tabOkFrom d lo (t.filter p) = true := by
  induction t with
  | nil => intro lo h; exact h
  | cons e t ih =>
    obtain ⟨k, x⟩ := e
    intro lo h
    simp only [tabOkFrom, Bool.and_eq_true, decide_eq_true_eq] at h
    rw [List.filter_cons]
    split
    · simp only [tabOkFrom, Bool.and_eq_true, decide_eq_true_eq]
      exact ⟨h.1, ih _ h.2⟩
    · exact tabOkFrom_mono _ _ (ih _ h.2) (by omega)

/-- Cells taken out of memory: the others stay in their canonical form. -/
theorem memFilter_ok (m : List Host.Cell) (p : Host.Cell → Bool) (h : Memory.wf m = true) : Memory.wf (m.filter p) = true :=
  tabOkFrom_filter _ p m 0 h

theorem memOk_of_mem {s t : State} (h : s.memOk = true) (e : t.mem = s.mem) : t.memOk = true := by
  simpa [State.memOk, e] using h

/-- A fold of operations that each keep the canonical form keeps it. -/
theorem foldl_ok {β : Type} (f : State → β → State) (hf : ∀ s b, s.memOk = true → (f s b).memOk = true) (l : List β) :
    ∀ s : State, s.memOk = true → (l.foldl f s).memOk = true := by
  induction l with
  | nil => intro s h; exact h
  | cons b l ih => intro s h; exact ih _ (hf s b h)

@[simp] theorem memOk_modCore (s : State) (c : Nat) (f : Core → Core) : (s.modCore c f).memOk = s.memOk := rfl
@[simp] theorem memOk_modBank (s : State) (c b : Nat) (f : Bank → Bank) : (s.modBank c b f).memOk = s.memOk := rfl
@[simp] theorem memOk_modBk (s : State) (f : Bank → Bank) : (s.modBk f).memOk = s.memOk := rfl

/-! ### Raw storage -/

theorem putHomeByte_ok (s : State) (a : Nat) (b : Byte) (h : s.memOk = true) : (s.putHomeByte a b).memOk = true := by
  unfold State.putHomeByte
  split
  · split
    · exact h
    · exact memWrite_ok _ _ _ h
  · split
    · exact memWrite_ok _ _ _ h
    all_goals exact h

theorem putHomeEach_ok (l : List Byte) : ∀ (s : State) (a : Nat), s.memOk = true → (s.putHomeEach a l).memOk = true := by
  induction l with
  | nil => intro s a h; exact h
  | cons b l ih => intro s a h; exact ih _ _ (putHomeByte_ok s a b h)

/-- A state with some other errors recorded holds the same memory. -/
theorem withBad_ok (f : Tab Bool → Tab Bool) (s : State) (h : s.memOk = true) :
    (if s.bad = [] ∧ s.soft = [] then s else { s with bad := f s.bad, soft := f s.soft }).memOk = true := by
  split <;> exact h

theorem putHome_ok (s : State) (a : Nat) (l : List Byte) (h : s.memOk = true) : (s.putHome a l).memOk = true := by
  unfold State.putHome
  refine withBad_ok (fun e => (wordsOf a l.length).foldl (fun t w =>
    if a ≤ 8 * w ∧ 8 * w + 8 ≤ a + l.length then Tab.set false t w false else t) e) _ ?_
  split
  · exact memWrite_ok _ _ _ h
  · exact putHomeEach_ok _ _ _ h

theorem touchFrames_ok (s : State) (a n : Nat) (h : s.memOk = true) : (s.touchFrames a n).memOk = true := by
  unfold State.touchFrames
  split
  · exact h
  · exact foldl_ok (fun (s : State) (k : Nat) => { s with mem := memWrite s.mem (frameFlags (a / 2 ^ 16 + k)) [memByte s.mem (frameFlags (a / 2 ^ 16 + k)) ||| 2#8] })
      (fun s k h => memWrite_ok _ _ _ h) _ _ h

/-- Pieces that wait at ports leave memory. -/
theorem usePorts_ok (s : State) (cls g f a n : Nat) (h : s.memOk = true) : (s.usePorts cls g f a n).memOk = true := by
  unfold State.usePorts
  split
  · exact h
  · refine foldl_ok _ ?_ _ _ h
    intro u k hu
    exact hu

theorem access_ok (s : State) (a n : Nat) (h : s.memOk = true) : (s.access a n).memOk = true :=
  usePorts_ok _ _ _ _ _ _ (touchFrames_ok _ _ _ h)

theorem touchTables_ok (die : Nat) (l : List Nat) (s : State) (h : s.memOk = true) : (s.touchTables die l).memOk = true :=
  foldl_ok _ (fun _ _ k => usePorts_ok _ _ _ _ _ _ (touchFrames_ok _ _ _ k)) l s h

theorem orPte_ok (s : State) (p bits : Nat) (h : s.memOk = true) : (s.orPte p bits).memOk = true := memPut_ok _ _ _ _ h

theorem zeroHome_ok (s : State) (a n : Nat) (h : s.memOk = true) : (s.zeroHome a n).memOk = true := by
  unfold State.zeroHome
  split
  · exact memFilter_ok _ _ h
  · exact putHome_ok _ _ _ h

theorem setFrame_ok (s : State) (f on off : Nat) (h : s.memOk = true) : (s.setFrame f on off).memOk = true := memWrite_ok _ _ _ h

theorem putFrame_ok (s : State) (f on off : Nat) (h : s.memOk = true) : (s.putFrame f on off).memOk = true :=
  usePorts_ok _ _ _ _ _ _ (setFrame_ok _ _ _ _ h)

theorem migStatus_ok (s : State) (n st : Nat) (h : s.memOk = true) : (s.migStatus n st).memOk = true :=
  usePorts_ok _ _ _ _ _ _ (memWrite_ok _ _ _ h)

theorem sweepFrame_ok (s : State) (h : s.memOk = true) : s.sweepFrame.memOk = true := by
  have k := usePorts_ok s 3 8 0 (frameFlags s.hand) 1 h
  unfold State.sweepFrame
  simp only
  repeat' split
  · exact k
  · exact putFrame_ok _ _ _ _ k
  · exact k
  · exact usePorts_ok _ _ _ _ _ _ (putFrame_ok _ _ _ _ (memWrite_ok _ _ _ k))

/-! ### Records -/

theorem notify_mem (s : State) (l : List Byte) : (s.notify l).mem = s.mem := rfl

theorem interrupt_mem (s : State) (v : Nat) : (s.interrupt v).mem = s.mem := by
  unfold State.interrupt; split <;> rfl

theorem signal_mem (s : State) (e n : Nat) : (s.signal e n).mem = s.mem := rfl

theorem writeFlt_ok (s : State) (die : Nat) (r : FltRec) (q : Requester) (h : s.memOk = true) : (s.writeFlt die r q).memOk = true := by
  refine memOk_of_mem (s := if fltBase (s.ring die).base = 0 then s else State.access
    { s with mem := memWrite s.mem (fltBase (s.ring die).base + 32 * ((s.ring die).tail % 256)) (fltBytes r ((s.ring die).tail % 2 ^ 32)) }
      (fltBase (s.ring die).base + 32 * ((s.ring die).tail % 256)) 32) ?_
    (interrupt_mem _ _)
  split
  · exact h
  · exact access_ok _ _ _ (memWrite_ok _ _ _ h)

theorem quarantine_ok (s : State) (a : Nat) (h : s.memOk = true) : (s.quarantine a).memOk = true := by
  unfold State.quarantine
  split
  · exact h
  · exact memWrite_ok _ _ _ h

theorem noticed_ok (s : State) (l : List Byte) (v : Nat) (p : State → Bool) (e n : State → Nat) (h : s.memOk = true) :
    (if p ((s.notify l).interrupt v) then ((s.notify l).interrupt v).signal (e ((s.notify l).interrupt v)) (n ((s.notify l).interrupt v))
      else (s.notify l).interrupt v).memOk = true := by
  split <;> exact memOk_of_mem h (interrupt_mem _ _)

theorem postLev_ok (s : State) (l : List Byte) (h : s.memOk = true) : (s.postLev l).memOk = true := by
  refine noticed_ok _ l 1 (fun _ => s.links.levEvt.toNat.testBit 8) (fun _ => s.links.levEvt.toNat % 256) (fun _ => 1) ?_
  split
  · exact h
  · exact memWrite_ok _ _ _ h

/-! ### Results that land -/

theorem cleanUnder_mem (s : State) (a : Nat) (m : VReg) : (s.cleanUnder a m).mem = s.mem := by
  unfold State.cleanUnder; split <;> rfl

theorem applyWrite_ok (s : State) (c b : Nat) (w : Write) (h : s.memOk = true) : (s.applyWrite c b w).memOk = true := by
  have k (m : Nat) (v : VReg) (f : Core → Core) : ((s.modCore c f).cleanUnder m v).memOk = true :=
    memOk_of_mem h (cleanUnder_mem _ _ _)
  cases w with
  | mem a l => exact putHome_ok _ _ _ h
  | home a l => exact touchFrames_ok _ _ _ (putHome_ok _ _ _ h)
  | memBits a m v => exact memWrite_ok _ _ _ h
  | creg i v => unfold State.applyWrite; simp only; split <;> exact h
  | slab i v => exact k _ _ _
  | slabBits d i m v => exact k _ _ _
  | acc r m v => exact k _ _ _
  | v i m x => exact memOk_of_mem (s := s.modBank c b fun y => { y with regs := y.regs.apply (.v i m x) }) h (cleanUnder_mem _ _ _)
  | park i pl v => unfold State.applyWrite; simp only; split <;> exact h
  | accAdd r m t => unfold State.applyWrite; simp only; split <;> exact h
  | unpark i pl => unfold State.applyWrite; simp only; repeat' split
                   all_goals exact h
  | _ => exact h

theorem applyWrites_ok (s : State) (c b : Nat) (l : List Write) (h : s.memOk = true) : (s.applyWrites c b l).memOk = true :=
  foldl_ok _ (fun s w h => applyWrite_ok s c b w h) l s h

/-- A result that lands keeps memory in its canonical form. -/
theorem land_ok (s : State) (c b : Nat) (p : Pending) (h : s.memOk = true) : (s.land c b p).memOk = true :=
  applyWrites_ok _ c b _ h

theorem drain_ok (c b n : Nat) : ∀ s : State, s.memOk = true → (s.drain c b n).memOk = true := by
  induction n with
  | zero => intro s h; exact h
  | succ n ih =>
    intro s h
    unfold State.drain
    simp only
    split
    · exact h
    · exact ih _ (land_ok _ c b _ h)

/-! ### Traps -/

theorem logBad_mem (s : State) (a ctx : Nat) : (s.logBad a ctx).mem = s.mem := by
  unfold State.logBad
  split <;> rfl

theorem disarm_mem (s : State) (a : Nat) : (s.disarm a).mem = s.mem := by
  unfold State.disarm
  simp only
  split <;> rfl

theorem pushFlt_ok (s : State) (die : Nat) (r : FltRec) (q : Requester) (h : s.memOk = true) : (s.pushFlt die r q).memOk = true := by
  unfold State.pushFlt
  simp only
  split
  · exact h
  · exact writeFlt_ok _ _ _ _ h

theorem postFlt_ok (s : State) (die : Nat) (r : FltRec) (q : Requester) (h : s.memOk = true) : (s.postFlt die r q).memOk = true := by
  refine pushFlt_ok _ _ _ _ ?_
  split
  · exact memOk_of_mem (quarantine_ok s r.addr h) (by rw [logBad_mem, disarm_mem])
  · exact h

theorem setPart_mem (s : State) (c : Nat) : (s.setPart c).mem = s.mem := rfl

theorem emptyBank_mem (s : State) (c b : Nat) : (s.emptyBank c b).mem = s.mem := by
  unfold State.emptyBank
  simp only
  rw [setPart_mem]
  split <;> rfl

theorem modLaunch_mem (s : State) (l : Nat) (f : Launch → Launch) : (s.modLaunch l f).mem = s.mem := rfl

theorem taskEnded_mem (s : State) (l wid : Nat) : (s.taskEnded l wid).mem = s.mem := rfl

/-- A fold of operations that each leave memory leaves it. -/
theorem foldl_mem {β : Type} (f : State → β → State) (hf : ∀ s b, (f s b).mem = s.mem) (l : List β) :
    ∀ s : State, (l.foldl f s).mem = s.mem := by
  induction l with
  | nil => intro s; rfl
  | cons b l ih => intro s; exact (ih _).trans (hf s b)

theorem dropWork_mem (s : State) (l wid : Nat) : (s.dropWork l wid).mem = s.mem := by
  unfold State.dropWork
  simp only
  rw [modLaunch_mem]
  exact foldl_mem _ (fun u e => by split <;> rfl) _ _

theorem killTask_ok (s : State) (c b cause : Nat) (h : s.memOk = true) : (s.killTask c b cause).memOk = true := by
  unfold State.killTask
  simp only
  split
  · exact h
  · exact postFlt_ok _ _ _ _ (memOk_of_mem h (by
      rw [modLaunch_mem, dropWork_mem, taskEnded_mem, emptyBank_mem]))

theorem retryDirect_ok (s : State) (c b : Nat) (l : List Trap) (h : s.memOk = true) : (s.retryDirect c b l).memOk = true := by
  unfold State.retryDirect
  split
  · rw [memOk_modCore]; exact h
  · exact h

theorem bankFault_ok (s : State) (c b : Nat) (t : Trap) (h : s.memOk = true) : (s.bankFault c b t).memOk = true := by
  have k := drain_ok c b (s.bankAt c b).pipe.pend.length s h
  have k2 : ((s.drain c b (s.bankAt c b).pipe.pend.length).noSpec c).memOk = true := by
    rw [State.noSpec, memOk_modCore]; exact k
  unfold State.bankFault
  generalize (s.drain c b (s.bankAt c b).pipe.pend.length).noSpec c = u at k2
  simp only
  generalize hv : (if t.cause = 0x13 then _ else u) = v
  have k4 : v.memOk = true := by
    rw [← hv]
    split
    · exact touchTables_ok _ _ _ k2
    · exact k2
  generalize (if (v.bankAt c b).task.atMeeting then (v.bankAt c b).pipe.held else 0) = held
  repeat' split
  · rw [memOk_modBank]; exact k4
  · rw [memOk_modBank]; exact k4
  · refine postFlt_ok _ _ _ _ ?_
    rw [memOk_modBank]; exact k4

/-- Taking a trap keeps memory in its canonical form, whichever way it goes. -/
theorem takeTrapAt_ok (s : State) (c b : Nat) (t : Trap) (h : s.memOk = true) : (s.takeTrapAt c b t).memOk = true := by
  have k : (if t.cause = 0x15 then s.reportBad c b t else s).memOk = true := by
    split
    · exact postFlt_ok s _ _ _ h
    · exact h
  unfold State.takeTrapAt
  simp only
  split
  · rw [memOk_modBank]
    exact killTask_ok _ _ _ _ (postFlt_ok _ _ _ _ k)
  · split
    · exact bankFault_ok _ _ _ _ k
    · rw [memOk_modBank]
      refine retryDirect_ok _ _ _ _ ?_
      rw [State.noSpec, memOk_modCore]
      exact k

theorem takeTrap_ok (s : State) (t : Trap) (h : s.memOk = true) : (s.takeTrap t).memOk = true := takeTrapAt_ok s _ _ t h

theorem returnFrom_ok (s : State) (c b : Nat) (h : s.memOk = true) : (s.returnFrom c b).memOk = true := by
  unfold State.returnFrom
  simp only
  split
  · exact killTask_ok _ _ _ _ h
  · exact h

/-! ### A syllable that goes -/

/-- A plan that takes effect keeps memory in its canonical form when its own effect does. -/
theorem commitPlan_ok (s : State) (h : Hdr) (p : Plan) (he : ∀ n u, u.memOk = true → (p.eff n u).memOk = true)
    (hs : s.memOk = true) : (s.commitPlan h p).memOk = true := by
  have k := foldl_ok (fun (s : State) (e : Nat × List Write) => s.modBk fun y => y.launchResult h.slot e.1 e.2) (fun _ _ k => by rw [memOk_modBk]; exact k)
    p.results (s.modBk fun y => y.record h p (s.core s.cf).acc) (by rw [memOk_modBk]; exact hs)
  unfold State.commitPlan
  refine he _ _ ?_
  split
  · rw [memOk_modBk]; exact k
  · rw [memOk_modBk, memOk_modCore]; exact k

end Sys2Proof.Machine
end

