-- ==== Sys2Proof/Laws/PerInstr.lean ====
section
/-!
SUPPORT. Laws made per instruction. `Words`: the fields that a well-formed instruction puts into its words fit their widths, so
that the encoder cuts no operand short.
-/

namespace Sys2Proof.Laws.Words

open Sys2Proof


/-- The fields of the instruction's words fit their places; an event has no words. -/
def Statement (i : Instr) : Prop :=
  WellFormed i = true →
    match rawOf i with
    | some (.syllable op fmt h f) =>
      op < 256 ∧ fieldsFit fmt.widths f = true ∧ fieldsFit topWidths (topFields op h) = true
    | some (.lystil w f) => fieldsFit w f = true
    | none => True

theorem bit_lt (b : Bool) : bit b < 2 := by cases b <;> decide

/-- A field that fits, before fields that fit. -/
theorem fit_cons {x w : Nat} {ws fs : List Nat} (h : x < 2 ^ w) (t : fieldsFit ws fs = true) : fieldsFit (w :: ws) (x :: fs) = true := by
  show (decide (x < 2 ^ w) && fieldsFit ws fs) = true
  rw [t, decide_eq_true h]; rfl

/-- The header of a syllable in a slot of its class fits bits 94 to 127. -/
theorem top_fits {h : Hdr} {l : List Nat} {op : Nat} (hl : ∀ k, l.contains k = true → k < 8) (ho : op < 256)
    (hw : h.okIn l = true) : fieldsFit topWidths (topFields op h) = true := by
  have hw : (l.contains h.slot && decide (h.stall < 16) && decide (h.wait < 64) && decide (h.sbset < 7) &&
    decide (h.reuse < 16) && decide (h.pnum < 8)) = true := hw
  simp only [Bool.and_eq_true, decide_eq_true_eq] at hw
  have h0 : h.slot < 8 := hl _ hw.1.1.1.1.1
  have h1 := bit_lt h.pneg
  have h2 := bit_lt h.asMark
  have h3 := bit_lt h.e
  exact fit_cons (by omega) <| fit_cons (by omega) <| fit_cons (by omega) <| fit_cons (by omega) <| fit_cons (by omega) <| fit_cons (by omega) <| fit_cons (by omega) <| fit_cons (by omega) <| fit_cons (by omega) <| fit_cons (by omega) <| rfl

theorem slots01 (k : Nat) (h : [0, 1].contains k = true) : k < 8 := by simp at h; omega
theorem slots0 (k : Nat) (h : [0].contains k = true) : k < 8 := by simp at h; omega
theorem slots234 (k : Nat) (h : [2, 3, 4].contains k = true) : k < 8 := by simp at h; omega
theorem slots5 (k : Nat) (h : [5].contains k = true) : k < 8 := by simp at h; omega
theorem slots6 (k : Nat) (h : [6].contains k = true) : k < 8 := by simp at h; omega
theorem slots7 (k : Nat) (h : [7].contains k = true) : k < 8 := by simp at h; omega

/-- The fields of a vector syllable fit. -/
theorem vec_fits {o : VecOps} (hw : o.fits = true) : fieldsFit Fmt.vec.widths (vecFields o) = true := by
  have hw : (decide (o.dst < 64) && decide (o.opa < 64) && decide (o.opb < 64) && decide (o.opc < 64) && decide (o.qm < 8) &&
    decide (o.ew < 8) && decide (o.rm < 8) && decide (o.cl < 4) && decide (o.tr < 16) && decide (o.sh < 64) &&
    decide (o.part < 8) && decide (o.dfmt < 16) && decide (o.smode < 4) && decide (o.sub < 16)) = true := hw
  simp only [Bool.and_eq_true, decide_eq_true_eq] at hw
  have h1 := bit_lt o.w
  have h2 := bit_lt o.i
  have h3 := bit_lt o.rr
  have h4 := bit_lt o.zi
  have h5 := o.imm.isLt
  exact fit_cons (by omega) <| fit_cons (by omega) <| fit_cons (by omega) <| fit_cons (by omega) <| fit_cons (by omega) <| fit_cons (by omega) <| fit_cons (by omega) <| fit_cons (by omega) <| fit_cons (by omega) <| fit_cons (by omega) <| fit_cons (by omega) <| fit_cons (by omega) <| fit_cons (by omega) <| fit_cons (by omega) <| fit_cons (by omega) <| fit_cons (by omega) <| fit_cons (by omega) <| fit_cons (by omega) <| fit_cons (by omega) <| rfl

/-- The fields of a segment header fit. -/
theorem segh_fits {o : SegHdr} (hw : o.fits = true) : fieldsFit Fmt.segh.widths
    [0, bit o.ext, o.rdvg, o.live5, o.live4, o.live3, o.live2, o.live1, o.live0, o.brp.toNat, o.next.toNat, o.len] = true := by
  have hw : (decide (o.len < 256) && decide (o.live0 < 64) && decide (o.live1 < 64) && decide (o.live2 < 64) &&
    decide (o.live3 < 64) && decide (o.live4 < 64) && decide (o.live5 < 64) && decide (o.rdvg < 8)) = true := hw
  simp only [Bool.and_eq_true, decide_eq_true_eq] at hw
  have h1 := bit_lt o.ext
  have h2 := o.next.isLt
  have h3 := o.brp.isLt
  exact fit_cons (by omega) <| fit_cons (by omega) <| fit_cons (by omega) <| fit_cons (by omega) <| fit_cons (by omega) <| fit_cons (by omega) <| fit_cons (by omega) <| fit_cons (by omega) <| fit_cons (by omega) <| fit_cons (by omega) <| fit_cons (by omega) <| fit_cons (by omega) <| rfl

/-- A row of fields that fit packs into a number below the power of their width. -/
theorem packFields_lt (w f : List Nat) : packFields w f < 2 ^ w.sum := by
  induction w generalizing f with
  | nil => simp [packFields]
  | cons a w ih =>
    cases f with
    | nil => simp [packFields]
    | cons x f =>
      have h1 := ih f
      have h2 : x % 2 ^ a < 2 ^ a := Nat.mod_lt _ (Nat.two_pow_pos a)
      simp only [packFields, List.sum_cons, Nat.pow_add]
      calc x % 2 ^ a + 2 ^ a * packFields w f < 2 ^ a + 2 ^ a * packFields w f := by omega
        _ = 2 ^ a * (packFields w f + 1) := by rw [Nat.mul_add, Nat.mul_one, Nat.add_comm]
        _ ≤ 2 ^ a * 2 ^ w.sum := Nat.mul_le_mul_left _ h1

/-- Fields that fit come back from the number that holds them. -/
theorem unpack_pack (w f : List Nat) (h : fieldsFit w f = true) : unpackFields w (packFields w f) = f := by
  induction w generalizing f with
  | nil => cases f <;> simp_all [unpackFields, fieldsFit]
  | cons a w ih =>
    cases f with
    | nil => simp [fieldsFit] at h
    | cons x f =>
      simp only [fieldsFit, Bool.and_eq_true, decide_eq_true_eq] at h
      have hp := Nat.two_pow_pos a
      simp only [unpackFields, packFields, Nat.add_mul_mod_self_left, Nat.mod_eq_of_lt h.1]
      rw [Nat.add_mul_div_left _ _ hp, Nat.div_eq_of_lt h.1, Nat.zero_add, ih f h.2]

theorem add (h : Hdr) (d : Nat) (a : Nat) (b : Nat) : Statement (.add h d a b) := fun hw => by
  have hw : (h.okIn [0, 1] && decide (d < 64) && decide (a < 64) && decide (b < 64)) = true := hw
  simp only [Bool.and_eq_true, decide_eq_true_eq] at hw
  exact ⟨by decide, fit_cons (by omega) <| fit_cons (by omega) <| fit_cons (by omega) <| fit_cons (by omega) <| fit_cons (by omega) <| fit_cons (by omega) <| fit_cons (by omega) <| rfl, top_fits slots01 (by decide) hw.1.1.1⟩
theorem sub (h : Hdr) (d : Nat) (a : Nat) (b : Nat) : Statement (.sub h d a b) := fun hw => by
  have hw : (h.okIn [0, 1] && decide (d < 64) && decide (a < 64) && decide (b < 64)) = true := hw
  simp only [Bool.and_eq_true, decide_eq_true_eq] at hw
  exact ⟨by decide, fit_cons (by omega) <| fit_cons (by omega) <| fit_cons (by omega) <| fit_cons (by omega) <| fit_cons (by omega) <| fit_cons (by omega) <| fit_cons (by omega) <| rfl, top_fits slots01 (by decide) hw.1.1.1⟩
theorem addi (h : Hdr) (d : Nat) (a : Nat) (imm : BitVec 48) : Statement (.addi h d a imm) := fun hw => by
  have hw : (h.okIn [0, 1] && decide (d < 64) && decide (a < 64)) = true := hw
  simp only [Bool.and_eq_true, decide_eq_true_eq] at hw
  have _ := imm.isLt
  exact ⟨by decide, fit_cons (by omega) <| fit_cons (by omega) <| fit_cons (by omega) <| fit_cons (by omega) <| fit_cons (by omega) <| rfl, top_fits slots01 (by decide) hw.1.1⟩
theorem mul (h : Hdr) (d : Nat) (a : Nat) (b : Nat) : Statement (.mul h d a b) := fun hw => by
  have hw : (h.okIn [0, 1] && decide (d < 64) && decide (a < 64) && decide (b < 64)) = true := hw
  simp only [Bool.and_eq_true, decide_eq_true_eq] at hw
  exact ⟨by decide, fit_cons (by omega) <| fit_cons (by omega) <| fit_cons (by omega) <| fit_cons (by omega) <| fit_cons (by omega) <| fit_cons (by omega) <| fit_cons (by omega) <| rfl, top_fits slots01 (by decide) hw.1.1.1⟩
theorem mulh (h : Hdr) (d : Nat) (a : Nat) (b : Nat) : Statement (.mulh h d a b) := fun hw => by
  have hw : (h.okIn [0, 1] && decide (d < 64) && decide (a < 64) && decide (b < 64)) = true := hw
  simp only [Bool.and_eq_true, decide_eq_true_eq] at hw
  exact ⟨by decide, fit_cons (by omega) <| fit_cons (by omega) <| fit_cons (by omega) <| fit_cons (by omega) <| fit_cons (by omega) <| fit_cons (by omega) <| fit_cons (by omega) <| rfl, top_fits slots01 (by decide) hw.1.1.1⟩
theorem mulhu (h : Hdr) (d : Nat) (a : Nat) (b : Nat) : Statement (.mulhu h d a b) := fun hw => by
  have hw : (h.okIn [0, 1] && decide (d < 64) && decide (a < 64) && decide (b < 64)) = true := hw
  simp only [Bool.and_eq_true, decide_eq_true_eq] at hw
  exact ⟨by decide, fit_cons (by omega) <| fit_cons (by omega) <| fit_cons (by omega) <| fit_cons (by omega) <| fit_cons (by omega) <| fit_cons (by omega) <| fit_cons (by omega) <| rfl, top_fits slots01 (by decide) hw.1.1.1⟩
theorem div (h : Hdr) (d : Nat) (a : Nat) (b : Nat) : Statement (.div h d a b) := fun hw => by
  have hw : (h.okIn [0, 1] && decide (d < 64) && decide (a < 64) && decide (b < 64)) = true := hw
  simp only [Bool.and_eq_true, decide_eq_true_eq] at hw
  exact ⟨by decide, fit_cons (by omega) <| fit_cons (by omega) <| fit_cons (by omega) <| fit_cons (by omega) <| fit_cons (by omega) <| fit_cons (by omega) <| fit_cons (by omega) <| rfl, top_fits slots01 (by decide) hw.1.1.1⟩
theorem divu (h : Hdr) (d : Nat) (a : Nat) (b : Nat) : Statement (.divu h d a b) := fun hw => by
  have hw : (h.okIn [0, 1] && decide (d < 64) && decide (a < 64) && decide (b < 64)) = true := hw
  simp only [Bool.and_eq_true, decide_eq_true_eq] at hw
  exact ⟨by decide, fit_cons (by omega) <| fit_cons (by omega) <| fit_cons (by omega) <| fit_cons (by omega) <| fit_cons (by omega) <| fit_cons (by omega) <| fit_cons (by omega) <| rfl, top_fits slots01 (by decide) hw.1.1.1⟩
theorem rem (h : Hdr) (d : Nat) (a : Nat) (b : Nat) : Statement (.rem h d a b) := fun hw => by
  have hw : (h.okIn [0, 1] && decide (d < 64) && decide (a < 64) && decide (b < 64)) = true := hw
  simp only [Bool.and_eq_true, decide_eq_true_eq] at hw
  exact ⟨by decide, fit_cons (by omega) <| fit_cons (by omega) <| fit_cons (by omega) <| fit_cons (by omega) <| fit_cons (by omega) <| fit_cons (by omega) <| fit_cons (by omega) <| rfl, top_fits slots01 (by decide) hw.1.1.1⟩
theorem remu (h : Hdr) (d : Nat) (a : Nat) (b : Nat) : Statement (.remu h d a b) := fun hw => by
  have hw : (h.okIn [0, 1] && decide (d < 64) && decide (a < 64) && decide (b < 64)) = true := hw
  simp only [Bool.and_eq_true, decide_eq_true_eq] at hw
  exact ⟨by decide, fit_cons (by omega) <| fit_cons (by omega) <| fit_cons (by omega) <| fit_cons (by omega) <| fit_cons (by omega) <| fit_cons (by omega) <| fit_cons (by omega) <| rfl, top_fits slots01 (by decide) hw.1.1.1⟩
theorem and_ (h : Hdr) (d : Nat) (a : Nat) (b : Nat) : Statement (.and_ h d a b) := fun hw => by
  have hw : (h.okIn [0, 1] && decide (d < 64) && decide (a < 64) && decide (b < 64)) = true := hw
  simp only [Bool.and_eq_true, decide_eq_true_eq] at hw
  exact ⟨by decide, fit_cons (by omega) <| fit_cons (by omega) <| fit_cons (by omega) <| fit_cons (by omega) <| fit_cons (by omega) <| fit_cons (by omega) <| fit_cons (by omega) <| rfl, top_fits slots01 (by decide) hw.1.1.1⟩
theorem or_ (h : Hdr) (d : Nat) (a : Nat) (b : Nat) : Statement (.or_ h d a b) := fun hw => by
  have hw : (h.okIn [0, 1] && decide (d < 64) && decide (a < 64) && decide (b < 64)) = true := hw
  simp only [Bool.and_eq_true, decide_eq_true_eq] at hw
  exact ⟨by decide, fit_cons (by omega) <| fit_cons (by omega) <| fit_cons (by omega) <| fit_cons (by omega) <| fit_cons (by omega) <| fit_cons (by omega) <| fit_cons (by omega) <| rfl, top_fits slots01 (by decide) hw.1.1.1⟩
theorem xor_ (h : Hdr) (d : Nat) (a : Nat) (b : Nat) : Statement (.xor_ h d a b) := fun hw => by
  have hw : (h.okIn [0, 1] && decide (d < 64) && decide (a < 64) && decide (b < 64)) = true := hw
  simp only [Bool.and_eq_true, decide_eq_true_eq] at hw
  exact ⟨by decide, fit_cons (by omega) <| fit_cons (by omega) <| fit_cons (by omega) <| fit_cons (by omega) <| fit_cons (by omega) <| fit_cons (by omega) <| fit_cons (by omega) <| rfl, top_fits slots01 (by decide) hw.1.1.1⟩
theorem andn (h : Hdr) (d : Nat) (a : Nat) (b : Nat) : Statement (.andn h d a b) := fun hw => by
  have hw : (h.okIn [0, 1] && decide (d < 64) && decide (a < 64) && decide (b < 64)) = true := hw
  simp only [Bool.and_eq_true, decide_eq_true_eq] at hw
  exact ⟨by decide, fit_cons (by omega) <| fit_cons (by omega) <| fit_cons (by omega) <| fit_cons (by omega) <| fit_cons (by omega) <| fit_cons (by omega) <| fit_cons (by omega) <| rfl, top_fits slots01 (by decide) hw.1.1.1⟩
theorem shl (h : Hdr) (d : Nat) (a : Nat) (b : Nat) : Statement (.shl h d a b) := fun hw => by
  have hw : (h.okIn [0, 1] && decide (d < 64) && decide (a < 64) && decide (b < 64)) = true := hw
  simp only [Bool.and_eq_true, decide_eq_true_eq] at hw
  exact ⟨by decide, fit_cons (by omega) <| fit_cons (by omega) <| fit_cons (by omega) <| fit_cons (by omega) <| fit_cons (by omega) <| fit_cons (by omega) <| fit_cons (by omega) <| rfl, top_fits slots01 (by decide) hw.1.1.1⟩
theorem shr (h : Hdr) (d : Nat) (a : Nat) (b : Nat) : Statement (.shr h d a b) := fun hw => by
  have hw : (h.okIn [0, 1] && decide (d < 64) && decide (a < 64) && decide (b < 64)) = true := hw
  simp only [Bool.and_eq_true, decide_eq_true_eq] at hw
  exact ⟨by decide, fit_cons (by omega) <| fit_cons (by omega) <| fit_cons (by omega) <| fit_cons (by omega) <| fit_cons (by omega) <| fit_cons (by omega) <| fit_cons (by omega) <| rfl, top_fits slots01 (by decide) hw.1.1.1⟩
theorem sra (h : Hdr) (d : Nat) (a : Nat) (b : Nat) : Statement (.sra h d a b) := fun hw => by
  have hw : (h.okIn [0, 1] && decide (d < 64) && decide (a < 64) && decide (b < 64)) = true := hw
  simp only [Bool.and_eq_true, decide_eq_true_eq] at hw
  exact ⟨by decide, fit_cons (by omega) <| fit_cons (by omega) <| fit_cons (by omega) <| fit_cons (by omega) <| fit_cons (by omega) <| fit_cons (by omega) <| fit_cons (by omega) <| rfl, top_fits slots01 (by decide) hw.1.1.1⟩
theorem rotr (h : Hdr) (d : Nat) (a : Nat) (b : Nat) : Statement (.rotr h d a b) := fun hw => by
  have hw : (h.okIn [0, 1] && decide (d < 64) && decide (a < 64) && decide (b < 64)) = true := hw
  simp only [Bool.and_eq_true, decide_eq_true_eq] at hw
  exact ⟨by decide, fit_cons (by omega) <| fit_cons (by omega) <| fit_cons (by omega) <| fit_cons (by omega) <| fit_cons (by omega) <| fit_cons (by omega) <| fit_cons (by omega) <| rfl, top_fits slots01 (by decide) hw.1.1.1⟩
theorem clz (h : Hdr) (d : Nat) (a : Nat) (w : Bool) : Statement (.clz h d a w) := fun hw => by
  have hw : (h.okIn [0, 1] && decide (d < 64) && decide (a < 64)) = true := hw
  simp only [Bool.and_eq_true, decide_eq_true_eq] at hw
  have _ := bit_lt w
  exact ⟨by decide, fit_cons (by omega) <| fit_cons (by omega) <| fit_cons (by omega) <| fit_cons (by omega) <| fit_cons (by omega) <| fit_cons (by omega) <| fit_cons (by omega) <| rfl, top_fits slots01 (by decide) hw.1.1⟩
theorem cls (h : Hdr) (d : Nat) (a : Nat) (w : Bool) : Statement (.cls h d a w) := fun hw => by
  have hw : (h.okIn [0, 1] && decide (d < 64) && decide (a < 64)) = true := hw
  simp only [Bool.and_eq_true, decide_eq_true_eq] at hw
  have _ := bit_lt w
  exact ⟨by decide, fit_cons (by omega) <| fit_cons (by omega) <| fit_cons (by omega) <| fit_cons (by omega) <| fit_cons (by omega) <| fit_cons (by omega) <| fit_cons (by omega) <| rfl, top_fits slots01 (by decide) hw.1.1⟩
theorem ctz (h : Hdr) (d : Nat) (a : Nat) (w : Bool) : Statement (.ctz h d a w) := fun hw => by
  have hw : (h.okIn [0, 1] && decide (d < 64) && decide (a < 64)) = true := hw
  simp only [Bool.and_eq_true, decide_eq_true_eq] at hw
  have _ := bit_lt w
  exact ⟨by decide, fit_cons (by omega) <| fit_cons (by omega) <| fit_cons (by omega) <| fit_cons (by omega) <| fit_cons (by omega) <| fit_cons (by omega) <| fit_cons (by omega) <| rfl, top_fits slots01 (by decide) hw.1.1⟩
theorem popc (h : Hdr) (d : Nat) (a : Nat) (w : Bool) : Statement (.popc h d a w) := fun hw => by
  have hw : (h.okIn [0, 1] && decide (d < 64) && decide (a < 64)) = true := hw
  simp only [Bool.and_eq_true, decide_eq_true_eq] at hw
  have _ := bit_lt w
  exact ⟨by decide, fit_cons (by omega) <| fit_cons (by omega) <| fit_cons (by omega) <| fit_cons (by omega) <| fit_cons (by omega) <| fit_cons (by omega) <| fit_cons (by omega) <| rfl, top_fits slots01 (by decide) hw.1.1⟩
theorem min_ (h : Hdr) (d : Nat) (a : Nat) (b : Nat) : Statement (.min_ h d a b) := fun hw => by
  have hw : (h.okIn [0, 1] && decide (d < 64) && decide (a < 64) && decide (b < 64)) = true := hw
  simp only [Bool.and_eq_true, decide_eq_true_eq] at hw
  exact ⟨by decide, fit_cons (by omega) <| fit_cons (by omega) <| fit_cons (by omega) <| fit_cons (by omega) <| fit_cons (by omega) <| fit_cons (by omega) <| fit_cons (by omega) <| rfl, top_fits slots01 (by decide) hw.1.1.1⟩
theorem max_ (h : Hdr) (d : Nat) (a : Nat) (b : Nat) : Statement (.max_ h d a b) := fun hw => by
  have hw : (h.okIn [0, 1] && decide (d < 64) && decide (a < 64) && decide (b < 64)) = true := hw
  simp only [Bool.and_eq_true, decide_eq_true_eq] at hw
  exact ⟨by decide, fit_cons (by omega) <| fit_cons (by omega) <| fit_cons (by omega) <| fit_cons (by omega) <| fit_cons (by omega) <| fit_cons (by omega) <| fit_cons (by omega) <| rfl, top_fits slots01 (by decide) hw.1.1.1⟩
theorem minu (h : Hdr) (d : Nat) (a : Nat) (b : Nat) : Statement (.minu h d a b) := fun hw => by
  have hw : (h.okIn [0, 1] && decide (d < 64) && decide (a < 64) && decide (b < 64)) = true := hw
  simp only [Bool.and_eq_true, decide_eq_true_eq] at hw
  exact ⟨by decide, fit_cons (by omega) <| fit_cons (by omega) <| fit_cons (by omega) <| fit_cons (by omega) <| fit_cons (by omega) <| fit_cons (by omega) <| fit_cons (by omega) <| rfl, top_fits slots01 (by decide) hw.1.1.1⟩
theorem maxu (h : Hdr) (d : Nat) (a : Nat) (b : Nat) : Statement (.maxu h d a b) := fun hw => by
  have hw : (h.okIn [0, 1] && decide (d < 64) && decide (a < 64) && decide (b < 64)) = true := hw
  simp only [Bool.and_eq_true, decide_eq_true_eq] at hw
  exact ⟨by decide, fit_cons (by omega) <| fit_cons (by omega) <| fit_cons (by omega) <| fit_cons (by omega) <| fit_cons (by omega) <| fit_cons (by omega) <| fit_cons (by omega) <| rfl, top_fits slots01 (by decide) hw.1.1.1⟩
theorem sel (h : Hdr) (d : Nat) (a : Nat) (b : Nat) (c : Nat) : Statement (.sel h d a b c) := fun hw => by
  have hw : (h.okIn [0, 1] && decide (d < 64) && decide (a < 64) && decide (b < 64) && decide (c < 64)) = true := hw
  simp only [Bool.and_eq_true, decide_eq_true_eq] at hw
  exact ⟨by decide, fit_cons (by omega) <| fit_cons (by omega) <| fit_cons (by omega) <| fit_cons (by omega) <| fit_cons (by omega) <| fit_cons (by omega) <| fit_cons (by omega) <| rfl, top_fits slots01 (by decide) hw.1.1.1.1⟩
theorem cmp (h : Hdr) (d : Nat) (a : Nat) (b : Nat) (cc : Nat) : Statement (.cmp h d a b cc) := fun hw => by
  have hw : (h.okIn [0, 1] && decide (d < 64) && decide (a < 64) && decide (b < 64) && decide (cc < 16)) = true := hw
  simp only [Bool.and_eq_true, decide_eq_true_eq] at hw
  exact ⟨by decide, fit_cons (by omega) <| fit_cons (by omega) <| fit_cons (by omega) <| fit_cons (by omega) <| fit_cons (by omega) <| fit_cons (by omega) <| fit_cons (by omega) <| rfl, top_fits slots01 (by decide) hw.1.1.1.1⟩
theorem pand (h : Hdr) (d : Nat) (a : Nat) (b : Nat) : Statement (.pand h d a b) := fun hw => by
  have hw : (h.okIn [0, 1] && decide (d < 64) && decide (a < 64) && decide (b < 64)) = true := hw
  simp only [Bool.and_eq_true, decide_eq_true_eq] at hw
  exact ⟨by decide, fit_cons (by omega) <| fit_cons (by omega) <| fit_cons (by omega) <| fit_cons (by omega) <| fit_cons (by omega) <| fit_cons (by omega) <| fit_cons (by omega) <| rfl, top_fits slots01 (by decide) hw.1.1.1⟩
theorem por (h : Hdr) (d : Nat) (a : Nat) (b : Nat) : Statement (.por h d a b) := fun hw => by
  have hw : (h.okIn [0, 1] && decide (d < 64) && decide (a < 64) && decide (b < 64)) = true := hw
  simp only [Bool.and_eq_true, decide_eq_true_eq] at hw
  exact ⟨by decide, fit_cons (by omega) <| fit_cons (by omega) <| fit_cons (by omega) <| fit_cons (by omega) <| fit_cons (by omega) <| fit_cons (by omega) <| fit_cons (by omega) <| rfl, top_fits slots01 (by decide) hw.1.1.1⟩
theorem pxor (h : Hdr) (d : Nat) (a : Nat) (b : Nat) : Statement (.pxor h d a b) := fun hw => by
  have hw : (h.okIn [0, 1] && decide (d < 64) && decide (a < 64) && decide (b < 64)) = true := hw
  simp only [Bool.and_eq_true, decide_eq_true_eq] at hw
  exact ⟨by decide, fit_cons (by omega) <| fit_cons (by omega) <| fit_cons (by omega) <| fit_cons (by omega) <| fit_cons (by omega) <| fit_cons (by omega) <| fit_cons (by omega) <| rfl, top_fits slots01 (by decide) hw.1.1.1⟩
theorem pnot (h : Hdr) (d : Nat) (a : Nat) : Statement (.pnot h d a) := fun hw => by
  have hw : (h.okIn [0, 1] && decide (d < 64) && decide (a < 64)) = true := hw
  simp only [Bool.and_eq_true, decide_eq_true_eq] at hw
  exact ⟨by decide, fit_cons (by omega) <| fit_cons (by omega) <| fit_cons (by omega) <| fit_cons (by omega) <| fit_cons (by omega) <| fit_cons (by omega) <| fit_cons (by omega) <| rfl, top_fits slots01 (by decide) hw.1.1⟩
theorem movi (h : Hdr) (d : Nat) (imm : BitVec 64) : Statement (.movi h d imm) := fun hw => by
  have hw : (h.okIn [0, 1] && decide (d < 64)) = true := hw
  simp only [Bool.and_eq_true, decide_eq_true_eq] at hw
  have _ := imm.isLt
  exact ⟨by decide, fit_cons (by omega) <| fit_cons (by omega) <| fit_cons (by omega) <| fit_cons (by omega) <| rfl, top_fits slots01 (by decide) hw.1⟩
theorem bfx (h : Hdr) (d : Nat) (a : Nat) (pos : Nat) (lenm1 : Nat) (sx : Bool) : Statement (.bfx h d a pos lenm1 sx) := fun hw => by
  have hw : (h.okIn [0, 1] && decide (d < 64) && decide (a < 64) && decide (pos < 64) && decide (lenm1 < 64)) = true := hw
  simp only [Bool.and_eq_true, decide_eq_true_eq] at hw
  have _ := bit_lt sx
  have hp := packFields_lt posLenWidths [pos, 0, lenm1, 0]
  have hs : posLenWidths.sum = 48 := rfl
  rw [hs] at hp
  exact ⟨by decide, fit_cons (by omega) <| fit_cons (by omega) <| fit_cons (by omega) <| fit_cons (by omega) <| fit_cons (by omega) <| rfl, top_fits slots01 (by decide) hw.1.1.1.1⟩
theorem bfi (h : Hdr) (d : Nat) (a : Nat) (pos : Nat) (lenm1 : Nat) : Statement (.bfi h d a pos lenm1) := fun hw => by
  have hw : (h.okIn [0, 1] && decide (d < 64) && decide (a < 64) && decide (pos < 64) && decide (lenm1 < 64)) = true := hw
  simp only [Bool.and_eq_true, decide_eq_true_eq] at hw
  have hp := packFields_lt posLenWidths [pos, 0, lenm1, 0]
  have hs : posLenWidths.sum = 48 := rfl
  rw [hs] at hp
  exact ⟨by decide, fit_cons (by omega) <| fit_cons (by omega) <| fit_cons (by omega) <| fit_cons (by omega) <| fit_cons (by omega) <| rfl, top_fits slots01 (by decide) hw.1.1.1.1⟩
theorem sext (h : Hdr) (d : Nat) (a : Nat) (k : Nat) : Statement (.sext h d a k) := fun hw => by
  have hw : (h.okIn [0, 1] && decide (d < 64) && decide (a < 64) && decide (k < 64)) = true := hw
  simp only [Bool.and_eq_true, decide_eq_true_eq] at hw
  exact ⟨by decide, fit_cons (by omega) <| fit_cons (by omega) <| fit_cons (by omega) <| fit_cons (by omega) <| fit_cons (by omega) <| rfl, top_fits slots01 (by decide) hw.1.1.1⟩
theorem zext (h : Hdr) (d : Nat) (a : Nat) (k : Nat) : Statement (.zext h d a k) := fun hw => by
  have hw : (h.okIn [0, 1] && decide (d < 64) && decide (a < 64) && decide (k < 64)) = true := hw
  simp only [Bool.and_eq_true, decide_eq_true_eq] at hw
  exact ⟨by decide, fit_cons (by omega) <| fit_cons (by omega) <| fit_cons (by omega) <| fit_cons (by omega) <| fit_cons (by omega) <| rfl, top_fits slots01 (by decide) hw.1.1.1⟩
theorem amov (h : Hdr) (d : Nat) (a : Nat) (dir : Nat) : Statement (.amov h d a dir) := fun hw => by
  have hw : (h.okIn [0, 1] && decide (d < 64) && decide (a < 64) && decide (dir < 4)) = true := hw
  simp only [Bool.and_eq_true, decide_eq_true_eq] at hw
  exact ⟨by decide, fit_cons (by omega) <| fit_cons (by omega) <| fit_cons (by omega) <| fit_cons (by omega) <| fit_cons (by omega) <| fit_cons (by omega) <| fit_cons (by omega) <| rfl, top_fits slots01 (by decide) hw.1.1.1⟩
theorem aadd (h : Hdr) (d : Nat) (a : Nat) (b : Nat) : Statement (.aadd h d a b) := fun hw => by
  have hw : (h.okIn [0, 1] && decide (d < 64) && decide (a < 64) && decide (b < 64)) = true := hw
  simp only [Bool.and_eq_true, decide_eq_true_eq] at hw
  exact ⟨by decide, fit_cons (by omega) <| fit_cons (by omega) <| fit_cons (by omega) <| fit_cons (by omega) <| fit_cons (by omega) <| fit_cons (by omega) <| fit_cons (by omega) <| rfl, top_fits slots01 (by decide) hw.1.1.1⟩
theorem aaddi (h : Hdr) (d : Nat) (a : Nat) (imm : BitVec 48) : Statement (.aaddi h d a imm) := fun hw => by
  have hw : (h.okIn [0, 1] && decide (d < 64) && decide (a < 64)) = true := hw
  simp only [Bool.and_eq_true, decide_eq_true_eq] at hw
  have _ := imm.isLt
  exact ⟨by decide, fit_cons (by omega) <| fit_cons (by omega) <| fit_cons (by omega) <| fit_cons (by omega) <| fit_cons (by omega) <| rfl, top_fits slots01 (by decide) hw.1.1⟩
theorem awrap (h : Hdr) (d : Nat) (a : Nat) (step : Nat) (bound : Nat) : Statement (.awrap h d a step bound) := fun hw => by
  have hw : (h.okIn [0, 1] && decide (d < 64) && decide (a < 64) && decide (step < 16777216) && decide (bound < 16777216)) = true := hw
  simp only [Bool.and_eq_true, decide_eq_true_eq] at hw
  exact ⟨by decide, fit_cons (by omega) <| fit_cons (by omega) <| fit_cons (by omega) <| fit_cons (by omega) <| fit_cons (by omega) <| rfl, top_fits slots01 (by decide) hw.1.1.1.1⟩
theorem aidx (h : Hdr) (d : Nat) (a : Nat) (ents : BitVec 48) : Statement (.aidx h d a ents) := fun hw => by
  have hw : (h.okIn [0, 1] && decide (d < 64) && decide (a < 64)) = true := hw
  simp only [Bool.and_eq_true, decide_eq_true_eq] at hw
  have _ := ents.isLt
  exact ⟨by decide, fit_cons (by omega) <| fit_cons (by omega) <| fit_cons (by omega) <| fit_cons (by omega) <| fit_cons (by omega) <| rfl, top_fits slots01 (by decide) hw.1.1⟩
theorem widf (h : Hdr) (d : Nat) (k : Nat) : Statement (.widf h d k) := fun hw => by
  have hw : (h.okIn [0, 1] && decide (d < 64) && decide (k < 8)) = true := hw
  simp only [Bool.and_eq_true, decide_eq_true_eq] at hw
  exact ⟨by decide, fit_cons (by omega) <| fit_cons (by omega) <| fit_cons (by omega) <| fit_cons (by omega) <| fit_cons (by omega) <| rfl, top_fits slots01 (by decide) hw.1.1⟩
theorem segh (h : Hdr) (o : SegHdr) : Statement (.segh h o) := fun hw => by
  have hw : (h.okIn [0] && o.fits) = true := hw
  simp only [Bool.and_eq_true] at hw
  exact ⟨by decide, segh_fits hw.2, top_fits slots0 (by decide) hw.1⟩
theorem nop (h : Hdr) : Statement (.nop h) := fun hw => by
  have hw : (h.okIn [0]) = true := hw
  exact ⟨by decide, fit_cons (by omega) <| fit_cons (by omega) <| fit_cons (by omega) <| fit_cons (by omega) <| fit_cons (by omega) <| fit_cons (by omega) <| rfl, top_fits slots0 (by decide) hw⟩
theorem br (h : Hdr) (off : BitVec 48) : Statement (.br h off) := fun hw => by
  have hw : (h.okIn [0]) = true := hw
  have _ := off.isLt
  exact ⟨by decide, fit_cons (by omega) <| fit_cons (by omega) <| fit_cons (by omega) <| fit_cons (by omega) <| fit_cons (by omega) <| fit_cons (by omega) <| fit_cons (by omega) <| rfl, top_fits slots0 (by decide) hw⟩
theorem brc (h : Hdr) (a : Nat) (b : Nat) (cc : Nat) (off : BitVec 48) : Statement (.brc h a b cc off) := fun hw => by
  have hw : (h.okIn [0] && decide (a < 64) && decide (b < 64) && decide (cc < 16)) = true := hw
  simp only [Bool.and_eq_true, decide_eq_true_eq] at hw
  have _ := off.isLt
  exact ⟨by decide, fit_cons (by omega) <| fit_cons (by omega) <| fit_cons (by omega) <| fit_cons (by omega) <| fit_cons (by omega) <| fit_cons (by omega) <| fit_cons (by omega) <| rfl, top_fits slots0 (by decide) hw.1.1.1⟩
theorem call (h : Hdr) (d : Nat) (off : BitVec 48) : Statement (.call h d off) := fun hw => by
  have hw : (h.okIn [0] && decide (d < 64)) = true := hw
  simp only [Bool.and_eq_true, decide_eq_true_eq] at hw
  have _ := off.isLt
  exact ⟨by decide, fit_cons (by omega) <| fit_cons (by omega) <| fit_cons (by omega) <| fit_cons (by omega) <| fit_cons (by omega) <| fit_cons (by omega) <| fit_cons (by omega) <| rfl, top_fits slots0 (by decide) hw.1⟩
theorem ret (h : Hdr) (a : Nat) : Statement (.ret h a) := fun hw => by
  have hw : (h.okIn [0] && decide (a < 64)) = true := hw
  simp only [Bool.and_eq_true, decide_eq_true_eq] at hw
  exact ⟨by decide, fit_cons (by omega) <| fit_cons (by omega) <| fit_cons (by omega) <| fit_cons (by omega) <| fit_cons (by omega) <| fit_cons (by omega) <| fit_cons (by omega) <| rfl, top_fits slots0 (by decide) hw.1⟩
theorem loopn (h : Hdr) (d : Nat) (off : BitVec 48) : Statement (.loopn h d off) := fun hw => by
  have hw : (h.okIn [0] && decide (d < 64)) = true := hw
  simp only [Bool.and_eq_true, decide_eq_true_eq] at hw
  have _ := off.isLt
  exact ⟨by decide, fit_cons (by omega) <| fit_cons (by omega) <| fit_cons (by omega) <| fit_cons (by omega) <| fit_cons (by omega) <| fit_cons (by omega) <| fit_cons (by omega) <| rfl, top_fits slots0 (by decide) hw.1⟩
theorem yield (h : Hdr) : Statement (.yield h) := fun hw => by
  have hw : (h.okIn [0]) = true := hw
  exact ⟨by decide, fit_cons (by omega) <| fit_cons (by omega) <| fit_cons (by omega) <| fit_cons (by omega) <| fit_cons (by omega) <| fit_cons (by omega) <| rfl, top_fits slots0 (by decide) hw⟩
theorem end_ (h : Hdr) : Statement (.end_ h) := fun hw => by
  have hw : (h.okIn [0]) = true := hw
  exact ⟨by decide, fit_cons (by omega) <| fit_cons (by omega) <| fit_cons (by omega) <| fit_cons (by omega) <| fit_cons (by omega) <| fit_cons (by omega) <| rfl, top_fits slots0 (by decide) hw⟩
theorem trap (h : Hdr) (code : BitVec 32) : Statement (.trap h code) := fun hw => by
  have hw : (h.okIn [0]) = true := hw
  have _ := code.isLt
  exact ⟨by decide, fit_cons (by omega) <| fit_cons (by omega) <| fit_cons (by omega) <| fit_cons (by omega) <| fit_cons (by omega) <| fit_cons (by omega) <| rfl, top_fits slots0 (by decide) hw⟩
theorem eret (h : Hdr) : Statement (.eret h) := fun hw => by
  have hw : (h.okIn [0]) = true := hw
  exact ⟨by decide, fit_cons (by omega) <| fit_cons (by omega) <| fit_cons (by omega) <| fit_cons (by omega) <| fit_cons (by omega) <| fit_cons (by omega) <| rfl, top_fits slots0 (by decide) hw⟩
theorem rdv (h : Hdr) : Statement (.rdv h) := fun hw => by
  have hw : (h.okIn [0]) = true := hw
  exact ⟨by decide, fit_cons (by omega) <| fit_cons (by omega) <| fit_cons (by omega) <| fit_cons (by omega) <| fit_cons (by omega) <| fit_cons (by omega) <| rfl, top_fits slots0 (by decide) hw⟩
theorem phase (h : Hdr) (scope : Nat) (y : Bool) : Statement (.phase h scope y) := fun hw => by
  have hw : (h.okIn [0] && decide (scope < 16)) = true := hw
  simp only [Bool.and_eq_true, decide_eq_true_eq] at hw
  have _ := bit_lt y
  exact ⟨by decide, fit_cons (by omega) <| fit_cons (by omega) <| fit_cons (by omega) <| fit_cons (by omega) <| fit_cons (by omega) <| fit_cons (by omega) <| rfl, top_fits slots0 (by decide) hw.1⟩
theorem getc (h : Hdr) (d : Nat) (idx : Nat) : Statement (.getc h d idx) := fun hw => by
  have hw : (h.okIn [0] && decide (d < 64) && decide (idx < 4096)) = true := hw
  simp only [Bool.and_eq_true, decide_eq_true_eq] at hw
  exact ⟨by decide, fit_cons (by omega) <| fit_cons (by omega) <| fit_cons (by omega) <| fit_cons (by omega) <| fit_cons (by omega) <| fit_cons (by omega) <| rfl, top_fits slots0 (by decide) hw.1.1⟩
theorem setc (h : Hdr) (a : Nat) (idx : Nat) : Statement (.setc h a idx) := fun hw => by
  have hw : (h.okIn [0] && decide (a < 64) && decide (idx < 4096)) = true := hw
  simp only [Bool.and_eq_true, decide_eq_true_eq] at hw
  exact ⟨by decide, fit_cons (by omega) <| fit_cons (by omega) <| fit_cons (by omega) <| fit_cons (by omega) <| fit_cons (by omega) <| fit_cons (by omega) <| rfl, top_fits slots0 (by decide) hw.1.1⟩
theorem getcx (h : Hdr) (d : Nat) (a : Nat) : Statement (.getcx h d a) := fun hw => by
  have hw : (h.okIn [0] && decide (d < 64) && decide (a < 64)) = true := hw
  simp only [Bool.and_eq_true, decide_eq_true_eq] at hw
  exact ⟨by decide, fit_cons (by omega) <| fit_cons (by omega) <| fit_cons (by omega) <| fit_cons (by omega) <| fit_cons (by omega) <| fit_cons (by omega) <| rfl, top_fits slots0 (by decide) hw.1.1⟩
theorem slabq (h : Hdr) (d : Nat) (sel : Nat) : Statement (.slabq h d sel) := fun hw => by
  have hw : (h.okIn [0] && decide (d < 64) && decide (sel < 4)) = true := hw
  simp only [Bool.and_eq_true, decide_eq_true_eq] at hw
  exact ⟨by decide, fit_cons (by omega) <| fit_cons (by omega) <| fit_cons (by omega) <| fit_cons (by omega) <| fit_cons (by omega) <| fit_cons (by omega) <| rfl, top_fits slots0 (by decide) hw.1.1⟩
theorem muinv (h : Hdr) (a : Nat) (mode : Nat) : Statement (.muinv h a mode) := fun hw => by
  have hw : (h.okIn [0] && decide (a < 64) && decide (mode < 4)) = true := hw
  simp only [Bool.and_eq_true, decide_eq_true_eq] at hw
  exact ⟨by decide, fit_cons (by omega) <| fit_cons (by omega) <| fit_cons (by omega) <| fit_cons (by omega) <| fit_cons (by omega) <| fit_cons (by omega) <| rfl, top_fits slots0 (by decide) hw.1.1⟩
theorem seed (h : Hdr) (a : Nat) (imm : BitVec 32) : Statement (.seed h a imm) := fun hw => by
  have hw : (h.okIn [0] && decide (a < 64)) = true := hw
  simp only [Bool.and_eq_true, decide_eq_true_eq] at hw
  have _ := imm.isLt
  exact ⟨by decide, fit_cons (by omega) <| fit_cons (by omega) <| fit_cons (by omega) <| fit_cons (by omega) <| fit_cons (by omega) <| fit_cons (by omega) <| rfl, top_fits slots0 (by decide) hw.1⟩
theorem rampq (h : Hdr) (d : Nat) : Statement (.rampq h d) := fun hw => by
  have hw : (h.okIn [0] && decide (d < 64)) = true := hw
  simp only [Bool.and_eq_true, decide_eq_true_eq] at hw
  exact ⟨by decide, fit_cons (by omega) <| fit_cons (by omega) <| fit_cons (by omega) <| fit_cons (by omega) <| fit_cons (by omega) <| fit_cons (by omega) <| rfl, top_fits slots0 (by decide) hw.1⟩
theorem vadd (h : Hdr) (o : VecOps) : Statement (.vadd h o) := fun hw => by
  have hw : (h.okIn [2, 3, 4] && o.fits) = true := hw
  simp only [Bool.and_eq_true] at hw
  exact ⟨by decide, vec_fits hw.2, top_fits slots234 (by decide) hw.1⟩
theorem vsub (h : Hdr) (o : VecOps) : Statement (.vsub h o) := fun hw => by
  have hw : (h.okIn [2, 3, 4] && o.fits) = true := hw
  simp only [Bool.and_eq_true] at hw
  exact ⟨by decide, vec_fits hw.2, top_fits slots234 (by decide) hw.1⟩
theorem vadds (h : Hdr) (o : VecOps) : Statement (.vadds h o) := fun hw => by
  have hw : (h.okIn [2, 3, 4] && o.fits) = true := hw
  simp only [Bool.and_eq_true] at hw
  exact ⟨by decide, vec_fits hw.2, top_fits slots234 (by decide) hw.1⟩
theorem vsubs (h : Hdr) (o : VecOps) : Statement (.vsubs h o) := fun hw => by
  have hw : (h.okIn [2, 3, 4] && o.fits) = true := hw
  simp only [Bool.and_eq_true] at hw
  exact ⟨by decide, vec_fits hw.2, top_fits slots234 (by decide) hw.1⟩
theorem vmul (h : Hdr) (o : VecOps) : Statement (.vmul h o) := fun hw => by
  have hw : (h.okIn [2, 3, 4] && o.fits) = true := hw
  simp only [Bool.and_eq_true] at hw
  exact ⟨by decide, vec_fits hw.2, top_fits slots234 (by decide) hw.1⟩
theorem vmulh (h : Hdr) (o : VecOps) : Statement (.vmulh h o) := fun hw => by
  have hw : (h.okIn [2, 3, 4] && o.fits) = true := hw
  simp only [Bool.and_eq_true] at hw
  exact ⟨by decide, vec_fits hw.2, top_fits slots234 (by decide) hw.1⟩
theorem vmuls (h : Hdr) (o : VecOps) : Statement (.vmuls h o) := fun hw => by
  have hw : (h.okIn [2, 3, 4] && o.fits) = true := hw
  simp only [Bool.and_eq_true] at hw
  exact ⟨by decide, vec_fits hw.2, top_fits slots234 (by decide) hw.1⟩
theorem vmac (h : Hdr) (o : VecOps) : Statement (.vmac h o) := fun hw => by
  have hw : (h.okIn [2, 3, 4] && o.fits) = true := hw
  simp only [Bool.and_eq_true] at hw
  exact ⟨by decide, vec_fits hw.2, top_fits slots234 (by decide) hw.1⟩
theorem vdot4 (h : Hdr) (o : VecOps) : Statement (.vdot4 h o) := fun hw => by
  have hw : (h.okIn [2, 3, 4] && o.fits) = true := hw
  simp only [Bool.and_eq_true] at hw
  exact ⟨by decide, vec_fits hw.2, top_fits slots234 (by decide) hw.1⟩
theorem vand (h : Hdr) (o : VecOps) : Statement (.vand h o) := fun hw => by
  have hw : (h.okIn [2, 3, 4] && o.fits) = true := hw
  simp only [Bool.and_eq_true] at hw
  exact ⟨by decide, vec_fits hw.2, top_fits slots234 (by decide) hw.1⟩
theorem vor (h : Hdr) (o : VecOps) : Statement (.vor h o) := fun hw => by
  have hw : (h.okIn [2, 3, 4] && o.fits) = true := hw
  simp only [Bool.and_eq_true] at hw
  exact ⟨by decide, vec_fits hw.2, top_fits slots234 (by decide) hw.1⟩
theorem vxor (h : Hdr) (o : VecOps) : Statement (.vxor h o) := fun hw => by
  have hw : (h.okIn [2, 3, 4] && o.fits) = true := hw
  simp only [Bool.and_eq_true] at hw
  exact ⟨by decide, vec_fits hw.2, top_fits slots234 (by decide) hw.1⟩
theorem vandn (h : Hdr) (o : VecOps) : Statement (.vandn h o) := fun hw => by
  have hw : (h.okIn [2, 3, 4] && o.fits) = true := hw
  simp only [Bool.and_eq_true] at hw
  exact ⟨by decide, vec_fits hw.2, top_fits slots234 (by decide) hw.1⟩
theorem vshl (h : Hdr) (o : VecOps) : Statement (.vshl h o) := fun hw => by
  have hw : (h.okIn [2, 3, 4] && o.fits) = true := hw
  simp only [Bool.and_eq_true] at hw
  exact ⟨by decide, vec_fits hw.2, top_fits slots234 (by decide) hw.1⟩
theorem vshr (h : Hdr) (o : VecOps) : Statement (.vshr h o) := fun hw => by
  have hw : (h.okIn [2, 3, 4] && o.fits) = true := hw
  simp only [Bool.and_eq_true] at hw
  exact ⟨by decide, vec_fits hw.2, top_fits slots234 (by decide) hw.1⟩
theorem vsra (h : Hdr) (o : VecOps) : Statement (.vsra h o) := fun hw => by
  have hw : (h.okIn [2, 3, 4] && o.fits) = true := hw
  simp only [Bool.and_eq_true] at hw
  exact ⟨by decide, vec_fits hw.2, top_fits slots234 (by decide) hw.1⟩
theorem vshrd (h : Hdr) (o : VecOps) : Statement (.vshrd h o) := fun hw => by
  have hw : (h.okIn [2, 3, 4] && o.fits) = true := hw
  simp only [Bool.and_eq_true] at hw
  exact ⟨by decide, vec_fits hw.2, top_fits slots234 (by decide) hw.1⟩
theorem vshrdCensus (h : Hdr) (o : VecOps) : Statement (.vshrdCensus h o) := fun hw => by
  have hw : (h.okIn [2, 3, 4] && o.fits) = true := hw
  simp only [Bool.and_eq_true] at hw
  exact ⟨by decide, vec_fits hw.2, top_fits slots234 (by decide) hw.1⟩
theorem vmin (h : Hdr) (o : VecOps) : Statement (.vmin h o) := fun hw => by
  have hw : (h.okIn [2, 3, 4] && o.fits) = true := hw
  simp only [Bool.and_eq_true] at hw
  exact ⟨by decide, vec_fits hw.2, top_fits slots234 (by decide) hw.1⟩
theorem vmax (h : Hdr) (o : VecOps) : Statement (.vmax h o) := fun hw => by
  have hw : (h.okIn [2, 3, 4] && o.fits) = true := hw
  simp only [Bool.and_eq_true] at hw
  exact ⟨by decide, vec_fits hw.2, top_fits slots234 (by decide) hw.1⟩
theorem vabs (h : Hdr) (o : VecOps) : Statement (.vabs h o) := fun hw => by
  have hw : (h.okIn [2, 3, 4] && o.fits) = true := hw
  simp only [Bool.and_eq_true] at hw
  exact ⟨by decide, vec_fits hw.2, top_fits slots234 (by decide) hw.1⟩
theorem vneg (h : Hdr) (o : VecOps) : Statement (.vneg h o) := fun hw => by
  have hw : (h.okIn [2, 3, 4] && o.fits) = true := hw
  simp only [Bool.and_eq_true] at hw
  exact ⟨by decide, vec_fits hw.2, top_fits slots234 (by decide) hw.1⟩
theorem vcmp (h : Hdr) (o : VecOps) : Statement (.vcmp h o) := fun hw => by
  have hw : (h.okIn [2, 3, 4] && o.fits) = true := hw
  simp only [Bool.and_eq_true] at hw
  exact ⟨by decide, vec_fits hw.2, top_fits slots234 (by decide) hw.1⟩
theorem vsel (h : Hdr) (o : VecOps) : Statement (.vsel h o) := fun hw => by
  have hw : (h.okIn [2, 3, 4] && o.fits) = true := hw
  simp only [Bool.and_eq_true] at hw
  exact ⟨by decide, vec_fits hw.2, top_fits slots234 (by decide) hw.1⟩
theorem vclz (h : Hdr) (o : VecOps) : Statement (.vclz h o) := fun hw => by
  have hw : (h.okIn [2, 3, 4] && o.fits) = true := hw
  simp only [Bool.and_eq_true] at hw
  exact ⟨by decide, vec_fits hw.2, top_fits slots234 (by decide) hw.1⟩
theorem vcls (h : Hdr) (o : VecOps) : Statement (.vcls h o) := fun hw => by
  have hw : (h.okIn [2, 3, 4] && o.fits) = true := hw
  simp only [Bool.and_eq_true] at hw
  exact ⟨by decide, vec_fits hw.2, top_fits slots234 (by decide) hw.1⟩
theorem vpopc (h : Hdr) (o : VecOps) : Statement (.vpopc h o) := fun hw => by
  have hw : (h.okIn [2, 3, 4] && o.fits) = true := hw
  simp only [Bool.and_eq_true] at hw
  exact ⟨by decide, vec_fits hw.2, top_fits slots234 (by decide) hw.1⟩
theorem vcnv (h : Hdr) (o : VecOps) : Statement (.vcnv h o) := fun hw => by
  have hw : (h.okIn [2, 3, 4] && o.fits) = true := hw
  simp only [Bool.and_eq_true] at hw
  exact ⟨by decide, vec_fits hw.2, top_fits slots234 (by decide) hw.1⟩
theorem vpack (h : Hdr) (o : VecOps) : Statement (.vpack h o) := fun hw => by
  have hw : (h.okIn [2, 3, 4] && o.fits) = true := hw
  simp only [Bool.and_eq_true] at hw
  exact ⟨by decide, vec_fits hw.2, top_fits slots234 (by decide) hw.1⟩
theorem vunpk (h : Hdr) (o : VecOps) : Statement (.vunpk h o) := fun hw => by
  have hw : (h.okIn [2, 3, 4] && o.fits) = true := hw
  simp only [Bool.and_eq_true] at hw
  exact ⟨by decide, vec_fits hw.2, top_fits slots234 (by decide) hw.1⟩
theorem vperm (h : Hdr) (o : VecOps) : Statement (.vperm h o) := fun hw => by
  have hw : (h.okIn [2, 3, 4] && o.fits) = true := hw
  simp only [Bool.and_eq_true] at hw
  exact ⟨by decide, vec_fits hw.2, top_fits slots234 (by decide) hw.1⟩
theorem vbcst (h : Hdr) (o : VecOps) : Statement (.vbcst h o) := fun hw => by
  have hw : (h.okIn [2, 3, 4] && o.fits) = true := hw
  simp only [Bool.and_eq_true] at hw
  exact ⟨by decide, vec_fits hw.2, top_fits slots234 (by decide) hw.1⟩
theorem vslide (h : Hdr) (o : VecOps) : Statement (.vslide h o) := fun hw => by
  have hw : (h.okIn [2, 3, 4] && o.fits) = true := hw
  simp only [Bool.and_eq_true] at hw
  exact ⟨by decide, vec_fits hw.2, top_fits slots234 (by decide) hw.1⟩
theorem vredadd (h : Hdr) (o : VecOps) : Statement (.vredadd h o) := fun hw => by
  have hw : (h.okIn [2, 3, 4] && o.fits) = true := hw
  simp only [Bool.and_eq_true] at hw
  exact ⟨by decide, vec_fits hw.2, top_fits slots234 (by decide) hw.1⟩
theorem vredmax (h : Hdr) (o : VecOps) : Statement (.vredmax h o) := fun hw => by
  have hw : (h.okIn [2, 3, 4] && o.fits) = true := hw
  simp only [Bool.and_eq_true] at hw
  exact ⟨by decide, vec_fits hw.2, top_fits slots234 (by decide) hw.1⟩
theorem vredmin (h : Hdr) (o : VecOps) : Statement (.vredmin h o) := fun hw => by
  have hw : (h.okIn [2, 3, 4] && o.fits) = true := hw
  simp only [Bool.and_eq_true] at hw
  exact ⟨by decide, vec_fits hw.2, top_fits slots234 (by decide) hw.1⟩
theorem vscan (h : Hdr) (o : VecOps) : Statement (.vscan h o) := fun hw => by
  have hw : (h.okIn [2, 3, 4] && o.fits) = true := hw
  simp only [Bool.and_eq_true] at hw
  exact ⟨by decide, vec_fits hw.2, top_fits slots234 (by decide) hw.1⟩
theorem vmov (h : Hdr) (o : VecOps) : Statement (.vmov h o) := fun hw => by
  have hw : (h.okIn [2, 3, 4] && o.fits) = true := hw
  simp only [Bool.and_eq_true] at hw
  exact ⟨by decide, vec_fits hw.2, top_fits slots234 (by decide) hw.1⟩
theorem vins (h : Hdr) (o : VecOps) : Statement (.vins h o) := fun hw => by
  have hw : (h.okIn [2, 3, 4] && o.fits) = true := hw
  simp only [Bool.and_eq_true] at hw
  exact ⟨by decide, vec_fits hw.2, top_fits slots234 (by decide) hw.1⟩
theorem vext (h : Hdr) (o : VecOps) : Statement (.vext h o) := fun hw => by
  have hw : (h.okIn [2, 3, 4] && o.fits) = true := hw
  simp only [Bool.and_eq_true] at hw
  exact ⟨by decide, vec_fits hw.2, top_fits slots234 (by decide) hw.1⟩
theorem viota (h : Hdr) (o : VecOps) : Statement (.viota h o) := fun hw => by
  have hw : (h.okIn [2, 3, 4] && o.fits) = true := hw
  simp only [Bool.and_eq_true] at hw
  exact ⟨by decide, vec_fits hw.2, top_fits slots234 (by decide) hw.1⟩
theorem qand (h : Hdr) (o : VecOps) : Statement (.qand h o) := fun hw => by
  have hw : (h.okIn [2, 3, 4] && o.fits) = true := hw
  simp only [Bool.and_eq_true] at hw
  exact ⟨by decide, vec_fits hw.2, top_fits slots234 (by decide) hw.1⟩
theorem qor (h : Hdr) (o : VecOps) : Statement (.qor h o) := fun hw => by
  have hw : (h.okIn [2, 3, 4] && o.fits) = true := hw
  simp only [Bool.and_eq_true] at hw
  exact ⟨by decide, vec_fits hw.2, top_fits slots234 (by decide) hw.1⟩
theorem qxor (h : Hdr) (o : VecOps) : Statement (.qxor h o) := fun hw => by
  have hw : (h.okIn [2, 3, 4] && o.fits) = true := hw
  simp only [Bool.and_eq_true] at hw
  exact ⟨by decide, vec_fits hw.2, top_fits slots234 (by decide) hw.1⟩
theorem qnot (h : Hdr) (o : VecOps) : Statement (.qnot h o) := fun hw => by
  have hw : (h.okIn [2, 3, 4] && o.fits) = true := hw
  simp only [Bool.and_eq_true] at hw
  exact ⟨by decide, vec_fits hw.2, top_fits slots234 (by decide) hw.1⟩
theorem qpopc (h : Hdr) (o : VecOps) : Statement (.qpopc h o) := fun hw => by
  have hw : (h.okIn [2, 3, 4] && o.fits) = true := hw
  simp only [Bool.and_eq_true] at hw
  exact ⟨by decide, vec_fits hw.2, top_fits slots234 (by decide) hw.1⟩
theorem qset (h : Hdr) (o : VecOps) : Statement (.qset h o) := fun hw => by
  have hw : (h.okIn [2, 3, 4] && o.fits) = true := hw
  simp only [Bool.and_eq_true] at hw
  exact ⟨by decide, vec_fits hw.2, top_fits slots234 (by decide) hw.1⟩
theorem xexp2 (h : Hdr) (o : VecOps) : Statement (.xexp2 h o) := fun hw => by
  have hw : (h.okIn [5] && o.fits) = true := hw
  simp only [Bool.and_eq_true] at hw
  exact ⟨by decide, vec_fits hw.2, top_fits slots5 (by decide) hw.1⟩
theorem xrcp (h : Hdr) (o : VecOps) : Statement (.xrcp h o) := fun hw => by
  have hw : (h.okIn [5] && o.fits) = true := hw
  simp only [Bool.and_eq_true] at hw
  exact ⟨by decide, vec_fits hw.2, top_fits slots5 (by decide) hw.1⟩
theorem xrsq (h : Hdr) (o : VecOps) : Statement (.xrsq h o) := fun hw => by
  have hw : (h.okIn [5] && o.fits) = true := hw
  simp only [Bool.and_eq_true] at hw
  exact ⟨by decide, vec_fits hw.2, top_fits slots5 (by decide) hw.1⟩
theorem xlog2 (h : Hdr) (o : VecOps) : Statement (.xlog2 h o) := fun hw => by
  have hw : (h.okIn [5] && o.fits) = true := hw
  simp only [Bool.and_eq_true] at hw
  exact ⟨by decide, vec_fits hw.2, top_fits slots5 (by decide) hw.1⟩
theorem xsigm (h : Hdr) (o : VecOps) : Statement (.xsigm h o) := fun hw => by
  have hw : (h.okIn [5] && o.fits) = true := hw
  simp only [Bool.and_eq_true] at hw
  exact ⟨by decide, vec_fits hw.2, top_fits slots5 (by decide) hw.1⟩
theorem xtanh (h : Hdr) (o : VecOps) : Statement (.xtanh h o) := fun hw => by
  have hw : (h.okIn [5] && o.fits) = true := hw
  simp only [Bool.and_eq_true] at hw
  exact ⟨by decide, vec_fits hw.2, top_fits slots5 (by decide) hw.1⟩
theorem xlut (h : Hdr) (o : VecOps) : Statement (.xlut h o) := fun hw => by
  have hw : (h.okIn [5] && o.fits) = true := hw
  simp only [Bool.and_eq_true] at hw
  exact ⟨by decide, vec_fits hw.2, top_fits slots5 (by decide) hw.1⟩
theorem xlutld (h : Hdr) (base : Nat) (disp : BitVec 48) : Statement (.xlutld h base disp) := fun hw => by
  have hw : (h.okIn [5] && decide (base < 16)) = true := hw
  simp only [Bool.and_eq_true, decide_eq_true_eq] at hw
  have _ := disp.isLt
  exact ⟨by decide, fit_cons (by omega) <| fit_cons (by omega) <| fit_cons (by omega) <| fit_cons (by omega) <| fit_cons (by omega) <| fit_cons (by omega) <| fit_cons (by omega) <| rfl, top_fits slots5 (by decide) hw.1⟩
theorem xoptm (h : Hdr) (o : VecOps) : Statement (.xoptm h o) := fun hw => by
  have hw : (h.okIn [5] && o.fits) = true := hw
  simp only [Bool.and_eq_true] at hw
  exact ⟨by decide, vec_fits hw.2, top_fits slots5 (by decide) hw.1⟩
theorem xopta (h : Hdr) (o : VecOps) : Statement (.xopta h o) := fun hw => by
  have hw : (h.okIn [5] && o.fits) = true := hw
  simp only [Bool.and_eq_true] at hw
  exact ⟨by decide, vec_fits hw.2, top_fits slots5 (by decide) hw.1⟩
theorem lds (h : Hdr) (d : Nat) (base : Nat) (disp : BitVec 48) (size : Nat) (sx : Bool) : Statement (.lds h d base disp size sx) := fun hw => by
  have hw : (h.okIn [6] && decide (d < 64) && decide (base < 16) && decide (size < 4)) = true := hw
  simp only [Bool.and_eq_true, decide_eq_true_eq] at hw
  have _ := bit_lt sx
  have _ := disp.isLt
  have hp := packFields_lt [2, 1, 13] [size, bit sx, 0]
  have hs : [2, 1, 13].sum = 16 := rfl
  rw [hs] at hp
  exact ⟨by decide, fit_cons (by omega) <| fit_cons (by omega) <| fit_cons (by omega) <| fit_cons (by omega) <| fit_cons (by omega) <| fit_cons (by omega) <| fit_cons (by omega) <| rfl, top_fits slots6 (by decide) hw.1.1.1⟩
theorem sts (h : Hdr) (r : Nat) (base : Nat) (disp : BitVec 48) (size : Nat) : Statement (.sts h r base disp size) := fun hw => by
  have hw : (h.okIn [6] && decide (r < 64) && decide (base < 16) && decide (size < 4)) = true := hw
  simp only [Bool.and_eq_true, decide_eq_true_eq] at hw
  have _ := disp.isLt
  have hp := packFields_lt [2, 14] [size, 0]
  have hs : [2, 14].sum = 16 := rfl
  rw [hs] at hp
  exact ⟨by decide, fit_cons (by omega) <| fit_cons (by omega) <| fit_cons (by omega) <| fit_cons (by omega) <| fit_cons (by omega) <| fit_cons (by omega) <| fit_cons (by omega) <| rfl, top_fits slots6 (by decide) hw.1.1.1⟩
theorem ldv (h : Hdr) (d : Nat) (base : Nat) (disp : BitVec 48) (opb : Nat) (opc : Nat) (ew : Nat) (st : Bool) (m : Bool) (zi : Bool) : Statement (.ldv h d base disp opb opc ew st m zi) := fun hw => by
  have hw : (h.okIn [6] && decide (d < 64) && decide (base < 16) && decide (opb < 64) && decide (opc < 64) && decide (ew < 8)) = true := hw
  simp only [Bool.and_eq_true, decide_eq_true_eq] at hw
  have _ := bit_lt st
  have _ := bit_lt m
  have _ := bit_lt zi
  have _ := disp.isLt
  have hp := packFields_lt [3, 1, 1, 1, 10] [ew, bit st, bit m, bit zi, 0]
  have hs : [3, 1, 1, 1, 10].sum = 16 := rfl
  rw [hs] at hp
  exact ⟨by decide, fit_cons (by omega) <| fit_cons (by omega) <| fit_cons (by omega) <| fit_cons (by omega) <| fit_cons (by omega) <| fit_cons (by omega) <| fit_cons (by omega) <| rfl, top_fits slots6 (by decide) hw.1.1.1.1.1⟩
theorem stv (h : Hdr) (r : Nat) (base : Nat) (disp : BitVec 48) (opb : Nat) (opc : Nat) (ew : Nat) (st : Bool) (m : Bool) : Statement (.stv h r base disp opb opc ew st m) := fun hw => by
  have hw : (h.okIn [6] && decide (r < 64) && decide (base < 16) && decide (opb < 64) && decide (opc < 64) && decide (ew < 8)) = true := hw
  simp only [Bool.and_eq_true, decide_eq_true_eq] at hw
  have _ := bit_lt st
  have _ := bit_lt m
  have _ := disp.isLt
  have hp := packFields_lt [3, 1, 1, 11] [ew, bit st, bit m, 0]
  have hs : [3, 1, 1, 11].sum = 16 := rfl
  rw [hs] at hp
  exact ⟨by decide, fit_cons (by omega) <| fit_cons (by omega) <| fit_cons (by omega) <| fit_cons (by omega) <| fit_cons (by omega) <| fit_cons (by omega) <| fit_cons (by omega) <| rfl, top_fits slots6 (by decide) hw.1.1.1.1.1⟩
theorem ldvg (h : Hdr) (d : Nat) (base : Nat) (disp : BitVec 48) (opb : Nat) (opc : Nat) (ew : Nat) (m : Bool) (zi : Bool) (sc : Bool) : Statement (.ldvg h d base disp opb opc ew m zi sc) := fun hw => by
  have hw : (h.okIn [6] && decide (d < 64) && decide (base < 16) && decide (opb < 64) && decide (opc < 64) && decide (ew < 8)) = true := hw
  simp only [Bool.and_eq_true, decide_eq_true_eq] at hw
  have _ := bit_lt m
  have _ := bit_lt zi
  have _ := bit_lt sc
  have _ := disp.isLt
  have hp := packFields_lt [3, 1, 1, 1, 1, 9] [ew, 0, bit m, bit zi, bit sc, 0]
  have hs : [3, 1, 1, 1, 1, 9].sum = 16 := rfl
  rw [hs] at hp
  exact ⟨by decide, fit_cons (by omega) <| fit_cons (by omega) <| fit_cons (by omega) <| fit_cons (by omega) <| fit_cons (by omega) <| fit_cons (by omega) <| fit_cons (by omega) <| rfl, top_fits slots6 (by decide) hw.1.1.1.1.1⟩
theorem stvs (h : Hdr) (r : Nat) (base : Nat) (disp : BitVec 48) (opb : Nat) (opc : Nat) (ew : Nat) (m : Bool) (sc : Bool) : Statement (.stvs h r base disp opb opc ew m sc) := fun hw => by
  have hw : (h.okIn [6] && decide (r < 64) && decide (base < 16) && decide (opb < 64) && decide (opc < 64) && decide (ew < 8)) = true := hw
  simp only [Bool.and_eq_true, decide_eq_true_eq] at hw
  have _ := bit_lt m
  have _ := bit_lt sc
  have _ := disp.isLt
  have hp := packFields_lt [3, 1, 1, 1, 1, 9] [ew, 0, bit m, 0, bit sc, 0]
  have hs : [3, 1, 1, 1, 1, 9].sum = 16 := rfl
  rw [hs] at hp
  exact ⟨by decide, fit_cons (by omega) <| fit_cons (by omega) <| fit_cons (by omega) <| fit_cons (by omega) <| fit_cons (by omega) <| fit_cons (by omega) <| fit_cons (by omega) <| rfl, top_fits slots6 (by decide) hw.1.1.1.1.1⟩
theorem ldvp (h : Hdr) (d : Nat) (port : Nat) : Statement (.ldvp h d port) := fun hw => by
  have hw : (h.okIn [6] && decide (d < 64) && decide (port < 2)) = true := hw
  simp only [Bool.and_eq_true, decide_eq_true_eq] at hw
  exact ⟨by decide, fit_cons (by omega) <| fit_cons (by omega) <| fit_cons (by omega) <| fit_cons (by omega) <| fit_cons (by omega) <| fit_cons (by omega) <| fit_cons (by omega) <| rfl, top_fits slots6 (by decide) hw.1.1⟩
theorem ldg (h : Hdr) (d : Nat) (base : Nat) (disp : BitVec 48) (size : Nat) (sx : Bool) (v : Bool) : Statement (.ldg h d base disp size sx v) := fun hw => by
  have hw : (h.okIn [6] && decide (d < 64) && decide (base < 16) && decide (size < 4)) = true := hw
  simp only [Bool.and_eq_true, decide_eq_true_eq] at hw
  have _ := bit_lt sx
  have _ := bit_lt v
  have _ := disp.isLt
  have hp := packFields_lt [2, 1, 1, 12] [size, bit sx, bit v, 0]
  have hs : [2, 1, 1, 12].sum = 16 := rfl
  rw [hs] at hp
  exact ⟨by decide, fit_cons (by omega) <| fit_cons (by omega) <| fit_cons (by omega) <| fit_cons (by omega) <| fit_cons (by omega) <| fit_cons (by omega) <| fit_cons (by omega) <| rfl, top_fits slots6 (by decide) hw.1.1.1⟩
theorem stg (h : Hdr) (r : Nat) (base : Nat) (disp : BitVec 48) (size : Nat) (v : Bool) : Statement (.stg h r base disp size v) := fun hw => by
  have hw : (h.okIn [6] && decide (r < 64) && decide (base < 16) && decide (size < 4)) = true := hw
  simp only [Bool.and_eq_true, decide_eq_true_eq] at hw
  have _ := bit_lt v
  have _ := disp.isLt
  have hp := packFields_lt [2, 1, 1, 12] [size, 0, bit v, 0]
  have hs : [2, 1, 1, 12].sum = 16 := rfl
  rw [hs] at hp
  exact ⟨by decide, fit_cons (by omega) <| fit_cons (by omega) <| fit_cons (by omega) <| fit_cons (by omega) <| fit_cons (by omega) <| fit_cons (by omega) <| fit_cons (by omega) <| rfl, top_fits slots6 (by decide) hw.1.1.1⟩
theorem amo (h : Hdr) (d : Nat) (base : Nat) (disp : BitVec 48) (opb : Nat) (opc : Nat) (op : Nat) (u : Bool) (w8 : Bool) : Statement (.amo h d base disp opb opc op u w8) := fun hw => by
  have hw : (h.okIn [6] && decide (d < 64) && decide (base < 16) && decide (opb < 64) && decide (opc < 64) && decide (op < 16)) = true := hw
  simp only [Bool.and_eq_true, decide_eq_true_eq] at hw
  have _ := bit_lt u
  have _ := bit_lt w8
  have _ := disp.isLt
  have hp := packFields_lt [4, 1, 1, 10] [op, bit u, bit w8, 0]
  have hs : [4, 1, 1, 10].sum = 16 := rfl
  rw [hs] at hp
  exact ⟨by decide, fit_cons (by omega) <| fit_cons (by omega) <| fit_cons (by omega) <| fit_cons (by omega) <| fit_cons (by omega) <| fit_cons (by omega) <| fit_cons (by omega) <| rfl, top_fits slots6 (by decide) hw.1.1.1.1.1⟩
theorem tld (h : Hdr) (d : Nat) (base : Nat) (disp : BitVec 48) (g : Bool) : Statement (.tld h d base disp g) := fun hw => by
  have hw : (h.okIn [6] && decide (d < 64) && decide (base < 16)) = true := hw
  simp only [Bool.and_eq_true, decide_eq_true_eq] at hw
  have _ := bit_lt g
  have _ := disp.isLt
  have hp := packFields_lt [1, 15] [bit g, 0]
  have hs : [1, 15].sum = 16 := rfl
  rw [hs] at hp
  exact ⟨by decide, fit_cons (by omega) <| fit_cons (by omega) <| fit_cons (by omega) <| fit_cons (by omega) <| fit_cons (by omega) <| fit_cons (by omega) <| fit_cons (by omega) <| rfl, top_fits slots6 (by decide) hw.1.1⟩
theorem tst (h : Hdr) (r : Nat) (base : Nat) (disp : BitVec 48) : Statement (.tst h r base disp) := fun hw => by
  have hw : (h.okIn [6] && decide (r < 64) && decide (base < 16)) = true := hw
  simp only [Bool.and_eq_true, decide_eq_true_eq] at hw
  have _ := disp.isLt
  exact ⟨by decide, fit_cons (by omega) <| fit_cons (by omega) <| fit_cons (by omega) <| fit_cons (by omega) <| fit_cons (by omega) <| fit_cons (by omega) <| fit_cons (by omega) <| rfl, top_fits slots6 (by decide) hw.1.1⟩
theorem park (h : Hdr) (r : Nat) (acc : Bool) : Statement (.park h r acc) := fun hw => by
  have hw : (h.okIn [6] && decide (r < 64)) = true := hw
  simp only [Bool.and_eq_true, decide_eq_true_eq] at hw
  have _ := bit_lt acc
  exact ⟨by decide, fit_cons (by omega) <| fit_cons (by omega) <| fit_cons (by omega) <| fit_cons (by omega) <| fit_cons (by omega) <| fit_cons (by omega) <| fit_cons (by omega) <| rfl, top_fits slots6 (by decide) hw.1⟩
theorem unpark (h : Hdr) (r : Nat) : Statement (.unpark h r) := fun hw => by
  have hw : (h.okIn [6] && decide (r < 64)) = true := hw
  simp only [Bool.and_eq_true, decide_eq_true_eq] at hw
  exact ⟨by decide, fit_cons (by omega) <| fit_cons (by omega) <| fit_cons (by omega) <| fit_cons (by omega) <| fit_cons (by omega) <| fit_cons (by omega) <| fit_cons (by omega) <| rfl, top_fits slots6 (by decide) hw.1⟩
theorem rmap (h : Hdr) (n : Nat) (base : Nat) (disp : BitVec 48) (va : Nat) (len : Nat) (mode : Nat) : Statement (.rmap h n base disp va len mode) := fun hw => by
  have hw : (h.okIn [6] && decide (n < 64) && decide (base < 16) && decide (va < 64) && decide (len < 64) && decide (mode < 4)) = true := hw
  simp only [Bool.and_eq_true, decide_eq_true_eq] at hw
  have _ := disp.isLt
  have hp := packFields_lt [2, 14] [mode, 0]
  have hs : [2, 14].sum = 16 := rfl
  rw [hs] at hp
  exact ⟨by decide, fit_cons (by omega) <| fit_cons (by omega) <| fit_cons (by omega) <| fit_cons (by omega) <| fit_cons (by omega) <| fit_cons (by omega) <| fit_cons (by omega) <| rfl, top_fits slots6 (by decide) hw.1.1.1.1.1⟩
theorem runmap (h : Hdr) (n : Nat) : Statement (.runmap h n) := fun hw => by
  have hw : (h.okIn [6] && decide (n < 64)) = true := hw
  simp only [Bool.and_eq_true, decide_eq_true_eq] at hw
  exact ⟨by decide, fit_cons (by omega) <| fit_cons (by omega) <| fit_cons (by omega) <| fit_cons (by omega) <| fit_cons (by omega) <| fit_cons (by omega) <| fit_cons (by omega) <| rfl, top_fits slots6 (by decide) hw.1⟩
theorem rfill (h : Hdr) (n : Nat) (base : Nat) (disp : BitVec 48) (len : Nat) : Statement (.rfill h n base disp len) := fun hw => by
  have hw : (h.okIn [6] && decide (n < 64) && decide (base < 16) && decide (len < 64)) = true := hw
  simp only [Bool.and_eq_true, decide_eq_true_eq] at hw
  have _ := disp.isLt
  exact ⟨by decide, fit_cons (by omega) <| fit_cons (by omega) <| fit_cons (by omega) <| fit_cons (by omega) <| fit_cons (by omega) <| fit_cons (by omega) <| fit_cons (by omega) <| rfl, top_fits slots6 (by decide) hw.1.1.1⟩
theorem rflush (h : Hdr) (n : Nat) (base : Nat) (disp : BitVec 48) (len : Nat) : Statement (.rflush h n base disp len) := fun hw => by
  have hw : (h.okIn [6] && decide (n < 64) && decide (base < 16) && decide (len < 64)) = true := hw
  simp only [Bool.and_eq_true, decide_eq_true_eq] at hw
  have _ := disp.isLt
  exact ⟨by decide, fit_cons (by omega) <| fit_cons (by omega) <| fit_cons (by omega) <| fit_cons (by omega) <| fit_cons (by omega) <| fit_cons (by omega) <| fit_cons (by omega) <| rfl, top_fits slots6 (by decide) hw.1.1.1⟩
theorem rinv (h : Hdr) (n : Nat) (base : Nat) (disp : BitVec 48) (len : Nat) : Statement (.rinv h n base disp len) := fun hw => by
  have hw : (h.okIn [6] && decide (n < 64) && decide (base < 16) && decide (len < 64)) = true := hw
  simp only [Bool.and_eq_true, decide_eq_true_eq] at hw
  have _ := disp.isLt
  exact ⟨by decide, fit_cons (by omega) <| fit_cons (by omega) <| fit_cons (by omega) <| fit_cons (by omega) <| fit_cons (by omega) <| fit_cons (by omega) <| fit_cons (by omega) <| rfl, top_fits slots6 (by decide) hw.1.1.1⟩
theorem push (h : Hdr) (d : Nat) (a : Nat) (opd : Nat) (eng : Nat) : Statement (.push h d a opd eng) := fun hw => by
  have hw : (h.okIn [7] && decide (d < 64) && decide (a < 64) && decide (opd < 64) && decide (eng < 16)) = true := hw
  simp only [Bool.and_eq_true, decide_eq_true_eq] at hw
  exact ⟨by decide, fit_cons (by omega) <| fit_cons (by omega) <| fit_cons (by omega) <| fit_cons (by omega) <| fit_cons (by omega) <| fit_cons (by omega) <| fit_cons (by omega) <| rfl, top_fits slots7 (by decide) hw.1.1.1.1⟩
theorem pushq (h : Hdr) (d : Nat) (a : Nat) (opd : Nat) (eng : Nat) : Statement (.pushq h d a opd eng) := fun hw => by
  have hw : (h.okIn [7] && decide (d < 64) && decide (a < 64) && decide (opd < 64) && decide (eng < 16)) = true := hw
  simp only [Bool.and_eq_true, decide_eq_true_eq] at hw
  exact ⟨by decide, fit_cons (by omega) <| fit_cons (by omega) <| fit_cons (by omega) <| fit_cons (by omega) <| fit_cons (by omega) <| fit_cons (by omega) <| fit_cons (by omega) <| rfl, top_fits slots7 (by decide) hw.1.1.1.1⟩
theorem mldw (h : Hdr) (a : Nat) : Statement (.mldw h a) := fun hw => by
  have hw : (h.okIn [7] && decide (a < 64)) = true := hw
  simp only [Bool.and_eq_true, decide_eq_true_eq] at hw
  exact ⟨by decide, fit_cons (by omega) <| fit_cons (by omega) <| fit_cons (by omega) <| fit_cons (by omega) <| fit_cons (by omega) <| fit_cons (by omega) <| fit_cons (by omega) <| fit_cons (by omega) <| fit_cons (by omega) <| fit_cons (by omega) <| fit_cons (by omega) <| fit_cons (by omega) <| fit_cons (by omega) <| fit_cons (by omega) <| fit_cons (by omega) <| fit_cons (by omega) <| fit_cons (by omega) <| fit_cons (by omega) <| fit_cons (by omega) <| rfl, top_fits slots7 (by decide) hw.1⟩
theorem mswap (h : Hdr) : Statement (.mswap h) := fun hw => by
  have hw : (h.okIn [7]) = true := hw
  exact ⟨by decide, fit_cons (by omega) <| fit_cons (by omega) <| fit_cons (by omega) <| fit_cons (by omega) <| fit_cons (by omega) <| fit_cons (by omega) <| fit_cons (by omega) <| fit_cons (by omega) <| fit_cons (by omega) <| fit_cons (by omega) <| fit_cons (by omega) <| fit_cons (by omega) <| fit_cons (by omega) <| fit_cons (by omega) <| fit_cons (by omega) <| fit_cons (by omega) <| fit_cons (by omega) <| fit_cons (by omega) <| fit_cons (by omega) <| rfl, top_fits slots7 (by decide) hw⟩
theorem mma (h : Hdr) (d : Nat) (idx : Nat) (tr : Nat) (acc : Bool) (ch : Bool) (base : Nat) (disp : Nat) (cnt : Nat) : Statement (.mma h d idx tr acc ch base disp cnt) := fun hw => by
  have hw : (h.okIn [7] && decide (d < 64) && decide (idx < 128) && decide (tr < 16) && decide (base < 16) && decide (disp < 8388608) && decide (cnt < 256)) = true := hw
  simp only [Bool.and_eq_true, decide_eq_true_eq] at hw
  have _ := bit_lt acc
  have _ := bit_lt ch
  exact ⟨by decide, fit_cons (by omega) <| fit_cons (by omega) <| fit_cons (by omega) <| fit_cons (by omega) <| fit_cons (by omega) <| fit_cons (by omega) <| fit_cons (by omega) <| fit_cons (by omega) <| fit_cons (by omega) <| fit_cons (by omega) <| fit_cons (by omega) <| fit_cons (by omega) <| fit_cons (by omega) <| fit_cons (by omega) <| fit_cons (by omega) <| fit_cons (by omega) <| fit_cons (by omega) <| fit_cons (by omega) <| fit_cons (by omega) <| rfl, top_fits slots7 (by decide) hw.1.1.1.1.1.1⟩
theorem mmav (h : Hdr) (d : Nat) (a : Nat) (idx : Nat) (tr : Nat) (acc : Bool) (ch : Bool) (cnt : Nat) : Statement (.mmav h d a idx tr acc ch cnt) := fun hw => by
  have hw : (h.okIn [7] && decide (d < 64) && decide (a < 64) && decide (idx < 128) && decide (tr < 16) && decide (cnt < 256)) = true := hw
  simp only [Bool.and_eq_true, decide_eq_true_eq] at hw
  have _ := bit_lt acc
  have _ := bit_lt ch
  exact ⟨by decide, fit_cons (by omega) <| fit_cons (by omega) <| fit_cons (by omega) <| fit_cons (by omega) <| fit_cons (by omega) <| fit_cons (by omega) <| fit_cons (by omega) <| fit_cons (by omega) <| fit_cons (by omega) <| fit_cons (by omega) <| fit_cons (by omega) <| fit_cons (by omega) <| fit_cons (by omega) <| fit_cons (by omega) <| fit_cons (by omega) <| fit_cons (by omega) <| fit_cons (by omega) <| fit_cons (by omega) <| fit_cons (by omega) <| rfl, top_fits slots7 (by decide) hw.1.1.1.1.1⟩
theorem mzero (h : Hdr) (d : Nat) : Statement (.mzero h d) := fun hw => by
  have hw : (h.okIn [7] && decide (d < 64)) = true := hw
  simp only [Bool.and_eq_true, decide_eq_true_eq] at hw
  exact ⟨by decide, fit_cons (by omega) <| fit_cons (by omega) <| fit_cons (by omega) <| fit_cons (by omega) <| fit_cons (by omega) <| fit_cons (by omega) <| fit_cons (by omega) <| fit_cons (by omega) <| fit_cons (by omega) <| fit_cons (by omega) <| fit_cons (by omega) <| fit_cons (by omega) <| fit_cons (by omega) <| fit_cons (by omega) <| fit_cons (by omega) <| fit_cons (by omega) <| fit_cons (by omega) <| fit_cons (by omega) <| fit_cons (by omega) <| rfl, top_fits slots7 (by decide) hw.1⟩
theorem cshd (h : Hdr) (a : Nat) (b : Nat) (idx : Nat) (tr : Nat) (base : Nat) (disp : Nat) (cnt : Nat) : Statement (.cshd h a b idx tr base disp cnt) := fun hw => by
  have hw : (h.okIn [7] && decide (a < 64) && decide (b < 64) && decide (idx < 128) && decide (tr < 16) && decide (base < 16) && decide (disp < 8388608) && decide (cnt < 256)) = true := hw
  simp only [Bool.and_eq_true, decide_eq_true_eq] at hw
  exact ⟨by decide, fit_cons (by omega) <| fit_cons (by omega) <| fit_cons (by omega) <| fit_cons (by omega) <| fit_cons (by omega) <| fit_cons (by omega) <| fit_cons (by omega) <| fit_cons (by omega) <| fit_cons (by omega) <| fit_cons (by omega) <| fit_cons (by omega) <| fit_cons (by omega) <| fit_cons (by omega) <| fit_cons (by omega) <| fit_cons (by omega) <| fit_cons (by omega) <| fit_cons (by omega) <| fit_cons (by omega) <| fit_cons (by omega) <| rfl, top_fits slots7 (by decide) hw.1.1.1.1.1.1.1⟩
theorem cadd (h : Hdr) (d : Nat) (a : Nat) (b : Nat) : Statement (.cadd h d a b) := fun hw => by
  have hw : (h.okIn [7] && decide (d < 64) && decide (a < 64) && decide (b < 64)) = true := hw
  simp only [Bool.and_eq_true, decide_eq_true_eq] at hw
  exact ⟨by decide, fit_cons (by omega) <| fit_cons (by omega) <| fit_cons (by omega) <| fit_cons (by omega) <| fit_cons (by omega) <| fit_cons (by omega) <| fit_cons (by omega) <| fit_cons (by omega) <| fit_cons (by omega) <| fit_cons (by omega) <| fit_cons (by omega) <| fit_cons (by omega) <| fit_cons (by omega) <| fit_cons (by omega) <| fit_cons (by omega) <| fit_cons (by omega) <| fit_cons (by omega) <| fit_cons (by omega) <| fit_cons (by omega) <| rfl, top_fits slots7 (by decide) hw.1.1.1⟩
theorem crdv (h : Hdr) (d : Nat) (a : Nat) (dir : Nat) (idx : Nat) : Statement (.crdv h d a dir idx) := fun hw => by
  have hw : (h.okIn [7] && decide (d < 64) && decide (a < 64) && decide (dir < 4) && decide (idx < 128)) = true := hw
  simp only [Bool.and_eq_true, decide_eq_true_eq] at hw
  exact ⟨by decide, fit_cons (by omega) <| fit_cons (by omega) <| fit_cons (by omega) <| fit_cons (by omega) <| fit_cons (by omega) <| fit_cons (by omega) <| fit_cons (by omega) <| fit_cons (by omega) <| fit_cons (by omega) <| fit_cons (by omega) <| fit_cons (by omega) <| fit_cons (by omega) <| fit_cons (by omega) <| fit_cons (by omega) <| fit_cons (by omega) <| fit_cons (by omega) <| fit_cons (by omega) <| fit_cons (by omega) <| fit_cons (by omega) <| rfl, top_fits slots7 (by decide) hw.1.1.1.1⟩
theorem cwrv (h : Hdr) (d : Nat) (a : Nat) (dir : Nat) (idx : Nat) (add : Bool) : Statement (.cwrv h d a dir idx add) := fun hw => by
  have hw : (h.okIn [7] && decide (d < 64) && decide (a < 64) && decide (dir < 4) && decide (idx < 128)) = true := hw
  simp only [Bool.and_eq_true, decide_eq_true_eq] at hw
  have _ := bit_lt add
  exact ⟨by decide, fit_cons (by omega) <| fit_cons (by omega) <| fit_cons (by omega) <| fit_cons (by omega) <| fit_cons (by omega) <| fit_cons (by omega) <| fit_cons (by omega) <| fit_cons (by omega) <| fit_cons (by omega) <| fit_cons (by omega) <| fit_cons (by omega) <| fit_cons (by omega) <| fit_cons (by omega) <| fit_cons (by omega) <| fit_cons (by omega) <| fit_cons (by omega) <| fit_cons (by omega) <| fit_cons (by omega) <| fit_cons (by omega) <| rfl, top_fits slots7 (by decide) hw.1.1.1.1⟩
theorem mld (h : Hdr) (d : Nat) (b : Nat) (tr : Nat) (base : Nat) (disp : Nat) : Statement (.mld h d b tr base disp) := fun hw => by
  have hw : (h.okIn [7] && decide (d < 64) && decide (b < 64) && decide (tr < 16) && decide (base < 16) && decide (disp < 8388608)) = true := hw
  simp only [Bool.and_eq_true, decide_eq_true_eq] at hw
  exact ⟨by decide, fit_cons (by omega) <| fit_cons (by omega) <| fit_cons (by omega) <| fit_cons (by omega) <| fit_cons (by omega) <| fit_cons (by omega) <| fit_cons (by omega) <| fit_cons (by omega) <| fit_cons (by omega) <| fit_cons (by omega) <| fit_cons (by omega) <| fit_cons (by omega) <| fit_cons (by omega) <| fit_cons (by omega) <| fit_cons (by omega) <| fit_cons (by omega) <| fit_cons (by omega) <| fit_cons (by omega) <| fit_cons (by omega) <| rfl, top_fits slots7 (by decide) hw.1.1.1.1.1⟩
theorem mst (h : Hdr) (a : Nat) (b : Nat) (base : Nat) (disp : Nat) : Statement (.mst h a b base disp) := fun hw => by
  have hw : (h.okIn [7] && decide (a < 64) && decide (b < 64) && decide (base < 16) && decide (disp < 8388608)) = true := hw
  simp only [Bool.and_eq_true, decide_eq_true_eq] at hw
  exact ⟨by decide, fit_cons (by omega) <| fit_cons (by omega) <| fit_cons (by omega) <| fit_cons (by omega) <| fit_cons (by omega) <| fit_cons (by omega) <| fit_cons (by omega) <| fit_cons (by omega) <| fit_cons (by omega) <| fit_cons (by omega) <| fit_cons (by omega) <| fit_cons (by omega) <| fit_cons (by omega) <| fit_cons (by omega) <| fit_cons (by omega) <| fit_cons (by omega) <| fit_cons (by omega) <| fit_cons (by omega) <| fit_cons (by omega) <| rfl, top_fits slots7 (by decide) hw.1.1.1.1⟩
theorem mldf (h : Hdr) (d : Nat) (b : Nat) (tr : Nat) (dn : Bool) (base : Nat) (disp : Nat) (cnt : Nat) : Statement (.mldf h d b tr dn base disp cnt) := fun hw => by
  have hw : (h.okIn [7] && decide (d < 64) && decide (b < 64) && decide (tr < 16) && decide (base < 16) && decide (disp < 8388608) && decide (cnt < 256)) = true := hw
  simp only [Bool.and_eq_true, decide_eq_true_eq] at hw
  have _ := bit_lt dn
  exact ⟨by decide, fit_cons (by omega) <| fit_cons (by omega) <| fit_cons (by omega) <| fit_cons (by omega) <| fit_cons (by omega) <| fit_cons (by omega) <| fit_cons (by omega) <| fit_cons (by omega) <| fit_cons (by omega) <| fit_cons (by omega) <| fit_cons (by omega) <| fit_cons (by omega) <| fit_cons (by omega) <| fit_cons (by omega) <| fit_cons (by omega) <| fit_cons (by omega) <| fit_cons (by omega) <| fit_cons (by omega) <| fit_cons (by omega) <| rfl, top_fits slots7 (by decide) hw.1.1.1.1.1.1⟩
theorem mstf (h : Hdr) (a : Nat) (base : Nat) (disp : Nat) : Statement (.mstf h a base disp) := fun hw => by
  have hw : (h.okIn [7] && decide (a < 64) && decide (base < 16) && decide (disp < 8388608)) = true := hw
  simp only [Bool.and_eq_true, decide_eq_true_eq] at hw
  exact ⟨by decide, fit_cons (by omega) <| fit_cons (by omega) <| fit_cons (by omega) <| fit_cons (by omega) <| fit_cons (by omega) <| fit_cons (by omega) <| fit_cons (by omega) <| fit_cons (by omega) <| fit_cons (by omega) <| fit_cons (by omega) <| fit_cons (by omega) <| fit_cons (by omega) <| fit_cons (by omega) <| fit_cons (by omega) <| fit_cons (by omega) <| fit_cons (by omega) <| fit_cons (by omega) <| fit_cons (by omega) <| fit_cons (by omega) <| rfl, top_fits slots7 (by decide) hw.1.1.1⟩
theorem mlru (h : Hdr) (d : Nat) (a : Nat) (b : Nat) (dn : Bool) (cnt : Nat) (eg : Nat) (eh : Nat) : Statement (.mlru h d a b dn cnt eg eh) := fun hw => by
  have hw : (h.okIn [7] && decide (d < 64) && decide (a < 64) && decide (b < 64) && decide (cnt < 256) && decide (eg < 256) && decide (eh < 256)) = true := hw
  simp only [Bool.and_eq_true, decide_eq_true_eq] at hw
  have _ := bit_lt dn
  have hp := packFields_lt [8, 8, 7] [eg, eh, 0]
  have hs : [8, 8, 7].sum = 23 := rfl
  rw [hs] at hp
  exact ⟨by decide, fit_cons (by omega) <| fit_cons (by omega) <| fit_cons (by omega) <| fit_cons (by omega) <| fit_cons (by omega) <| fit_cons (by omega) <| fit_cons (by omega) <| fit_cons (by omega) <| fit_cons (by omega) <| fit_cons (by omega) <| fit_cons (by omega) <| fit_cons (by omega) <| fit_cons (by omega) <| fit_cons (by omega) <| fit_cons (by omega) <| fit_cons (by omega) <| fit_cons (by omega) <| fit_cons (by omega) <| fit_cons (by omega) <| rfl, top_fits slots7 (by decide) hw.1.1.1.1.1.1⟩
theorem mlradd (h : Hdr) (d : Nat) (a : Nat) (b : Nat) (dn : Bool) : Statement (.mlradd h d a b dn) := fun hw => by
  have hw : (h.okIn [7] && decide (d < 64) && decide (a < 64) && decide (b < 64)) = true := hw
  simp only [Bool.and_eq_true, decide_eq_true_eq] at hw
  have _ := bit_lt dn
  exact ⟨by decide, fit_cons (by omega) <| fit_cons (by omega) <| fit_cons (by omega) <| fit_cons (by omega) <| fit_cons (by omega) <| fit_cons (by omega) <| fit_cons (by omega) <| fit_cons (by omega) <| fit_cons (by omega) <| fit_cons (by omega) <| fit_cons (by omega) <| fit_cons (by omega) <| fit_cons (by omega) <| fit_cons (by omega) <| fit_cons (by omega) <| fit_cons (by omega) <| fit_cons (by omega) <| fit_cons (by omega) <| fit_cons (by omega) <| rfl, top_fits slots7 (by decide) hw.1.1.1⟩
theorem mlrmul (h : Hdr) (d : Nat) (a : Nat) (tr : Nat) (sh : Nat) (rm : Nat) (rr : Bool) : Statement (.mlrmul h d a tr sh rm rr) := fun hw => by
  have hw : (h.okIn [7] && decide (d < 64) && decide (a < 64) && decide (tr < 16) && decide (sh < 64) && decide (rm < 8)) = true := hw
  simp only [Bool.and_eq_true, decide_eq_true_eq] at hw
  have _ := bit_lt rr
  exact ⟨by decide, fit_cons (by omega) <| fit_cons (by omega) <| fit_cons (by omega) <| fit_cons (by omega) <| fit_cons (by omega) <| fit_cons (by omega) <| fit_cons (by omega) <| fit_cons (by omega) <| fit_cons (by omega) <| fit_cons (by omega) <| fit_cons (by omega) <| fit_cons (by omega) <| fit_cons (by omega) <| fit_cons (by omega) <| fit_cons (by omega) <| fit_cons (by omega) <| fit_cons (by omega) <| fit_cons (by omega) <| fit_cons (by omega) <| rfl, top_fits slots7 (by decide) hw.1.1.1.1.1⟩
theorem mrecomp (h : Hdr) (d : Nat) (a : Nat) : Statement (.mrecomp h d a) := fun hw => by
  have hw : (h.okIn [7] && decide (d < 64) && decide (a < 64)) = true := hw
  simp only [Bool.and_eq_true, decide_eq_true_eq] at hw
  exact ⟨by decide, fit_cons (by omega) <| fit_cons (by omega) <| fit_cons (by omega) <| fit_cons (by omega) <| fit_cons (by omega) <| fit_cons (by omega) <| fit_cons (by omega) <| fit_cons (by omega) <| fit_cons (by omega) <| fit_cons (by omega) <| fit_cons (by omega) <| fit_cons (by omega) <| fit_cons (by omega) <| fit_cons (by omega) <| fit_cons (by omega) <| fit_cons (by omega) <| fit_cons (by omega) <| fit_cons (by omega) <| fit_cons (by omega) <| rfl, top_fits slots7 (by decide) hw.1.1⟩
theorem mdense (h : Hdr) (d : Nat) (a : Nat) : Statement (.mdense h d a) := fun hw => by
  have hw : (h.okIn [7] && decide (d < 64) && decide (a < 64)) = true := hw
  simp only [Bool.and_eq_true, decide_eq_true_eq] at hw
  exact ⟨by decide, fit_cons (by omega) <| fit_cons (by omega) <| fit_cons (by omega) <| fit_cons (by omega) <| fit_cons (by omega) <| fit_cons (by omega) <| fit_cons (by omega) <| fit_cons (by omega) <| fit_cons (by omega) <| fit_cons (by omega) <| fit_cons (by omega) <| fit_cons (by omega) <| fit_cons (by omega) <| fit_cons (by omega) <| fit_cons (by omega) <| fit_cons (by omega) <| fit_cons (by omega) <| fit_cons (by omega) <| fit_cons (by omega) <| rfl, top_fits slots7 (by decide) hw.1.1⟩
theorem mqry (h : Hdr) (d : Nat) (a : Nat) (idx : Nat) (slab : Bool) : Statement (.mqry h d a idx slab) := fun hw => by
  have hw : (h.okIn [7] && decide (d < 64) && decide (a < 64) && decide (idx < 128)) = true := hw
  simp only [Bool.and_eq_true, decide_eq_true_eq] at hw
  have _ := bit_lt slab
  exact ⟨by decide, fit_cons (by omega) <| fit_cons (by omega) <| fit_cons (by omega) <| fit_cons (by omega) <| fit_cons (by omega) <| fit_cons (by omega) <| fit_cons (by omega) <| fit_cons (by omega) <| fit_cons (by omega) <| fit_cons (by omega) <| fit_cons (by omega) <| fit_cons (by omega) <| fit_cons (by omega) <| fit_cons (by omega) <| fit_cons (by omega) <| fit_cons (by omega) <| fit_cons (by omega) <| fit_cons (by omega) <| fit_cons (by omega) <| rfl, top_fits slots7 (by decide) hw.1.1.1⟩
theorem mfree (h : Hdr) (d : Nat) (tile : Bool) : Statement (.mfree h d tile) := fun hw => by
  have hw : (h.okIn [7] && decide (d < 64)) = true := hw
  simp only [Bool.and_eq_true, decide_eq_true_eq] at hw
  have _ := bit_lt tile
  exact ⟨by decide, fit_cons (by omega) <| fit_cons (by omega) <| fit_cons (by omega) <| fit_cons (by omega) <| fit_cons (by omega) <| fit_cons (by omega) <| fit_cons (by omega) <| fit_cons (by omega) <| fit_cons (by omega) <| fit_cons (by omega) <| fit_cons (by omega) <| fit_cons (by omega) <| fit_cons (by omega) <| fit_cons (by omega) <| fit_cons (by omega) <| fit_cons (by omega) <| fit_cons (by omega) <| fit_cons (by omega) <| fit_cons (by omega) <| rfl, top_fits slots7 (by decide) hw.1⟩
theorem mget (h : Hdr) (d : Nat) (a : Nat) (dir : Nat) (idx : Nat) (tr : Nat) (sh : Nat) (rm : Nat) (rr : Bool) : Statement (.mget h d a dir idx tr sh rm rr) := fun hw => by
  have hw : (h.okIn [7] && decide (d < 64) && decide (a < 64) && decide (dir < 4) && decide (idx < 128) && decide (tr < 16) && decide (sh < 64) && decide (rm < 8)) = true := hw
  simp only [Bool.and_eq_true, decide_eq_true_eq] at hw
  have _ := bit_lt rr
  exact ⟨by decide, fit_cons (by omega) <| fit_cons (by omega) <| fit_cons (by omega) <| fit_cons (by omega) <| fit_cons (by omega) <| fit_cons (by omega) <| fit_cons (by omega) <| fit_cons (by omega) <| fit_cons (by omega) <| fit_cons (by omega) <| fit_cons (by omega) <| fit_cons (by omega) <| fit_cons (by omega) <| fit_cons (by omega) <| fit_cons (by omega) <| fit_cons (by omega) <| fit_cons (by omega) <| fit_cons (by omega) <| fit_cons (by omega) <| rfl, top_fits slots7 (by decide) hw.1.1.1.1.1.1.1⟩
theorem mput (h : Hdr) (d : Nat) (a : Nat) (dir : Nat) (idx : Nat) : Statement (.mput h d a dir idx) := fun hw => by
  have hw : (h.okIn [7] && decide (d < 64) && decide (a < 64) && decide (dir < 4) && decide (idx < 128)) = true := hw
  simp only [Bool.and_eq_true, decide_eq_true_eq] at hw
  exact ⟨by decide, fit_cons (by omega) <| fit_cons (by omega) <| fit_cons (by omega) <| fit_cons (by omega) <| fit_cons (by omega) <| fit_cons (by omega) <| fit_cons (by omega) <| fit_cons (by omega) <| fit_cons (by omega) <| fit_cons (by omega) <| fit_cons (by omega) <| fit_cons (by omega) <| fit_cons (by omega) <| fit_cons (by omega) <| fit_cons (by omega) <| fit_cons (by omega) <| fit_cons (by omega) <| fit_cons (by omega) <| fit_cons (by omega) <| rfl, top_fits slots7 (by decide) hw.1.1.1.1⟩
theorem send (ka : Nat) (gs : Nat) (peer : Nat) (ctr : Nat) (cn : Bool) : Statement (.send ka gs peer ctr cn) := fun hw => by
  have hw : (decide (ka < 16) && decide (gs < 64) && decide (peer < 256) && decide (ctr < 256)) = true := hw
  simp only [Bool.and_eq_true, decide_eq_true_eq] at hw
  have _ := bit_lt cn
  exact fit_cons (by omega) <| fit_cons (by omega) <| fit_cons (by omega) <| fit_cons (by omega) <| fit_cons (by omega) <| fit_cons (by omega) <| fit_cons (by omega) <| fit_cons (by omega) <| fit_cons (by omega) <| fit_cons (by omega) <| fit_cons (by omega) <| fit_cons (by omega) <| rfl
theorem recv (ka : Nat) (gs : Nat) (peer : Nat) (ctr : Nat) (cn : Bool) : Statement (.recv ka gs peer ctr cn) := fun hw => by
  have hw : (decide (ka < 16) && decide (gs < 64) && decide (peer < 256) && decide (ctr < 256)) = true := hw
  simp only [Bool.and_eq_true, decide_eq_true_eq] at hw
  have _ := bit_lt cn
  exact fit_cons (by omega) <| fit_cons (by omega) <| fit_cons (by omega) <| fit_cons (by omega) <| fit_cons (by omega) <| fit_cons (by omega) <| fit_cons (by omega) <| fit_cons (by omega) <| fit_cons (by omega) <| fit_cons (by omega) <| fit_cons (by omega) <| fit_cons (by omega) <| rfl
theorem recvr (ka : Nat) (gs : Nat) (peer : Nat) (ctr : Nat) (cn : Bool) (rop : Nat) (rfmt : Nat) (cb : Bool) (clamp : Nat) : Statement (.recvr ka gs peer ctr cn rop rfmt cb clamp) := fun hw => by
  have hw : (decide (ka < 16) && decide (gs < 64) && decide (peer < 256) && decide (ctr < 256) && decide (rop < 3) && decide (rfmt < 3) && decide (clamp < 65536)) = true := hw
  simp only [Bool.and_eq_true, decide_eq_true_eq] at hw
  have _ := bit_lt cn
  have _ := bit_lt cb
  exact fit_cons (by omega) <| fit_cons (by omega) <| fit_cons (by omega) <| fit_cons (by omega) <| fit_cons (by omega) <| fit_cons (by omega) <| fit_cons (by omega) <| fit_cons (by omega) <| fit_cons (by omega) <| fit_cons (by omega) <| fit_cons (by omega) <| fit_cons (by omega) <| rfl
theorem lystilCopy (ka : Nat) (kb : Nat) (ctr : Nat) (cn : Bool) : Statement (.lystilCopy ka kb ctr cn) := fun hw => by
  have hw : (decide (ka < 16) && decide (kb < 16) && decide (ctr < 256)) = true := hw
  simp only [Bool.and_eq_true, decide_eq_true_eq] at hw
  have _ := bit_lt cn
  exact fit_cons (by omega) <| fit_cons (by omega) <| fit_cons (by omega) <| fit_cons (by omega) <| fit_cons (by omega) <| fit_cons (by omega) <| fit_cons (by omega) <| fit_cons (by omega) <| fit_cons (by omega) <| fit_cons (by omega) <| fit_cons (by omega) <| fit_cons (by omega) <| rfl
theorem red (ka : Nat) (kb : Nat) (ctr : Nat) (cn : Bool) (rop : Nat) (rfmt : Nat) (cb : Bool) (clamp : Nat) : Statement (.red ka kb ctr cn rop rfmt cb clamp) := fun hw => by
  have hw : (decide (ka < 16) && decide (kb < 16) && decide (ctr < 256) && decide (rop < 3) && decide (rfmt < 3) && decide (clamp < 65536)) = true := hw
  simp only [Bool.and_eq_true, decide_eq_true_eq] at hw
  have _ := bit_lt cn
  have _ := bit_lt cb
  exact fit_cons (by omega) <| fit_cons (by omega) <| fit_cons (by omega) <| fit_cons (by omega) <| fit_cons (by omega) <| fit_cons (by omega) <| fit_cons (by omega) <| fit_cons (by omega) <| fit_cons (by omega) <| fit_cons (by omega) <| fit_cons (by omega) <| fit_cons (by omega) <| rfl
theorem lystilWait (ctr : Nat) (thr : Nat) : Statement (.lystilWait ctr thr) := fun hw => by
  have hw : (decide (ctr < 256) && decide (thr < 4294967296)) = true := hw
  simp only [Bool.and_eq_true, decide_eq_true_eq] at hw
  exact fit_cons (by omega) <| fit_cons (by omega) <| fit_cons (by omega) <| fit_cons (by omega) <| rfl
theorem sigAdd (ctr : Nat) (val : Nat) : Statement (.sigAdd ctr val) := fun hw => by
  have hw : (decide (ctr < 256) && decide (val < 4294967296)) = true := hw
  simp only [Bool.and_eq_true, decide_eq_true_eq] at hw
  exact fit_cons (by omega) <| fit_cons (by omega) <| fit_cons (by omega) <| fit_cons (by omega) <| fit_cons (by omega) <| fit_cons (by omega) <| fit_cons (by omega) <| rfl
theorem sigRadd (gs : Nat) (peer : Nat) (ctr : Nat) (val : Nat) : Statement (.sigRadd gs peer ctr val) := fun hw => by
  have hw : (decide (gs < 64) && decide (peer < 256) && decide (ctr < 256) && decide (val < 4294967296)) = true := hw
  simp only [Bool.and_eq_true, decide_eq_true_eq] at hw
  exact fit_cons (by omega) <| fit_cons (by omega) <| fit_cons (by omega) <| fit_cons (by omega) <| fit_cons (by omega) <| fit_cons (by omega) <| fit_cons (by omega) <| rfl
theorem sigSrc : Statement (.sigSrc) := fun hw => by
  exact fit_cons (by omega) <| fit_cons (by omega) <| fit_cons (by omega) <| fit_cons (by omega) <| fit_cons (by omega) <| fit_cons (by omega) <| fit_cons (by omega) <| rfl
theorem sigLoc : Statement (.sigLoc) := fun hw => by
  exact fit_cons (by omega) <| fit_cons (by omega) <| fit_cons (by omega) <| fit_cons (by omega) <| fit_cons (by omega) <| fit_cons (by omega) <| fit_cons (by omega) <| rfl
theorem sigAll (gs : Nat) : Statement (.sigAll gs) := fun hw => by
  have hw : (decide (gs < 64)) = true := hw
  simp only [decide_eq_true_eq] at hw
  exact fit_cons (by omega) <| fit_cons (by omega) <| fit_cons (by omega) <| fit_cons (by omega) <| fit_cons (by omega) <| fit_cons (by omega) <| fit_cons (by omega) <| rfl
theorem sigSet (ctr : Nat) (val : Nat) : Statement (.sigSet ctr val) := fun hw => by
  have hw : (decide (ctr < 256) && decide (val < 4294967296)) = true := hw
  simp only [Bool.and_eq_true, decide_eq_true_eq] at hw
  exact fit_cons (by omega) <| fit_cons (by omega) <| fit_cons (by omega) <| fit_cons (by omega) <| fit_cons (by omega) <| fit_cons (by omega) <| fit_cons (by omega) <| rfl
theorem twait (tile : Nat) : Statement (.twait tile) := fun hw => by
  have hw : (decide (tile < 4096)) = true := hw
  simp only [decide_eq_true_eq] at hw
  exact fit_cons (by omega) <| fit_cons (by omega) <| fit_cons (by omega) <| rfl
theorem tfire (tile : Nat) : Statement (.tfire tile) := fun hw => by
  have hw : (decide (tile < 4096)) = true := hw
  simp only [decide_eq_true_eq] at hw
  exact fit_cons (by omega) <| fit_cons (by omega) <| fit_cons (by omega) <| rfl
theorem setkAddr (k : Nat) (imm : BitVec 48) : Statement (.setkAddr k imm) := fun hw => by
  have hw : (decide (k < 16)) = true := hw
  simp only [decide_eq_true_eq] at hw
  have _ := imm.isLt
  exact fit_cons (by omega) <| fit_cons (by omega) <| fit_cons (by omega) <| fit_cons (by omega) <| fit_cons (by omega) <| rfl
theorem setkAddrAdd (k : Nat) (imm : BitVec 48) : Statement (.setkAddrAdd k imm) := fun hw => by
  have hw : (decide (k < 16)) = true := hw
  simp only [decide_eq_true_eq] at hw
  have _ := imm.isLt
  exact fit_cons (by omega) <| fit_cons (by omega) <| fit_cons (by omega) <| fit_cons (by omega) <| fit_cons (by omega) <| rfl
theorem setkAddrArg (k : Nat) (imm : BitVec 48) : Statement (.setkAddrArg k imm) := fun hw => by
  have hw : (decide (k < 16)) = true := hw
  simp only [decide_eq_true_eq] at hw
  have _ := imm.isLt
  exact fit_cons (by omega) <| fit_cons (by omega) <| fit_cons (by omega) <| fit_cons (by omega) <| fit_cons (by omega) <| rfl
theorem setkRlen (k : Nat) (imm : BitVec 48) : Statement (.setkRlen k imm) := fun hw => by
  have hw : (decide (k < 16)) = true := hw
  simp only [decide_eq_true_eq] at hw
  have _ := imm.isLt
  exact fit_cons (by omega) <| fit_cons (by omega) <| fit_cons (by omega) <| fit_cons (by omega) <| fit_cons (by omega) <| rfl
theorem setkNrow (k : Nat) (imm : BitVec 48) : Statement (.setkNrow k imm) := fun hw => by
  have hw : (decide (k < 16)) = true := hw
  simp only [decide_eq_true_eq] at hw
  have _ := imm.isLt
  exact fit_cons (by omega) <| fit_cons (by omega) <| fit_cons (by omega) <| fit_cons (by omega) <| fit_cons (by omega) <| rfl
theorem setkRstr (k : Nat) (imm : BitVec 48) : Statement (.setkRstr k imm) := fun hw => by
  have hw : (decide (k < 16)) = true := hw
  simp only [decide_eq_true_eq] at hw
  have _ := imm.isLt
  exact fit_cons (by omega) <| fit_cons (by omega) <| fit_cons (by omega) <| fit_cons (by omega) <| fit_cons (by omega) <| rfl
theorem lystilLoop (ln : Nat) (count : Nat) : Statement (.lystilLoop ln count) := fun hw => by
  have hw : (decide (ln < 4) && decide (count < 4294967296)) = true := hw
  simp only [Bool.and_eq_true, decide_eq_true_eq] at hw
  exact fit_cons (by omega) <| fit_cons (by omega) <| fit_cons (by omega) <| fit_cons (by omega) <| rfl
theorem bnz (ln : Nat) (off : BitVec 24) : Statement (.bnz ln off) := fun hw => by
  have hw : (decide (ln < 4)) = true := hw
  simp only [decide_eq_true_eq] at hw
  have _ := off.isLt
  exact fit_cons (by omega) <| fit_cons (by omega) <| fit_cons (by omega) <| fit_cons (by omega) <| rfl
theorem gjoin (gs : Nat) (k : Nat) (inc : Nat) (gid : Nat) : Statement (.gjoin gs k inc gid) := fun hw => by
  have hw : (decide (gs < 64) && decide (k < 16) && decide (inc < 256) && decide (gid < 65536)) = true := hw
  simp only [Bool.and_eq_true, decide_eq_true_eq] at hw
  exact fit_cons (by omega) <| fit_cons (by omega) <| fit_cons (by omega) <| fit_cons (by omega) <| fit_cons (by omega) <| fit_cons (by omega) <| rfl
theorem gfree (gs : Nat) : Statement (.gfree gs) := fun hw => by
  have hw : (decide (gs < 64)) = true := hw
  simp only [decide_eq_true_eq] at hw
  exact fit_cons (by omega) <| fit_cons (by omega) <| fit_cons (by omega) <| rfl
theorem lystilEnd : Statement (.lystilEnd) := fun hw => by
  exact fit_cons (by omega) <| fit_cons (by omega) <| rfl
theorem lystilBadop (w : BitVec 64) : Statement (.lystilBadop w) := fun hw => by
  have _ := w.isLt
  exact fit_cons (by omega) <| rfl
theorem xlutComplete (c : Nat) (b : Nat) (id : Nat) : Statement (.xlutComplete c b id) := fun _ => trivial
theorem xlutTableActivate (c : Nat) (b : Nat) : Statement (.xlutTableActivate c b) := fun _ => trivial
theorem ldgComplete (c : Nat) (b : Nat) (id : Nat) : Statement (.ldgComplete c b id) := fun _ => trivial
theorem amoComplete (c : Nat) (b : Nat) (id : Nat) : Statement (.amoComplete c b id) := fun _ => trivial
theorem tldGlobalArrival (c : Nat) (b : Nat) (id : Nat) : Statement (.tldGlobalArrival c b id) := fun _ => trivial
theorem mrecompComplete (c : Nat) (b : Nat) (id : Nat) : Statement (.mrecompComplete c b id) := fun _ => trivial
theorem resultWrite (c : Nat) (b : Nat) : Statement (.resultWrite c b) := fun _ => trivial
theorem segmentCommit (c : Nat) (b : Nat) : Statement (.segmentCommit c b) := fun _ => trivial
theorem segmentFetch (c : Nat) (b : Nat) (addr : Nat) : Statement (.segmentFetch c b addr) := fun _ => trivial
theorem addressStreamRun (c : Nat) (b : Nat) : Statement (.addressStreamRun c b) := fun _ => trivial
theorem trapEntry (c : Nat) (b : Nat) : Statement (.trapEntry c b) := fun _ => trivial
theorem latchDelivery (c : Nat) (b : Nat) : Statement (.latchDelivery c b) := fun _ => trivial
theorem segmentRewind (c : Nat) (b : Nat) (unit : Nat) : Statement (.segmentRewind c b unit) := fun _ => trivial
theorem localReplay (c : Nat) (b : Nat) (unit : Nat) : Statement (.localReplay c b unit) := fun _ => trivial
theorem bankSwitch (c : Nat) (b : Nat) : Statement (.bankSwitch c b) := fun _ => trivial
theorem fltAnsRetry (die : Nat) (seq : Nat) : Statement (.fltAnsRetry die seq) := fun _ => trivial
theorem fltAnsEnd (die : Nat) (seq : Nat) : Statement (.fltAnsEnd die seq) := fun _ => trivial
theorem preemption (c : Nat) : Statement (.preemption c) := fun _ => trivial
theorem contextResume (c : Nat) (k : Nat) : Statement (.contextResume c k) := fun _ => trivial
theorem lazyWriteout (c : Nat) (k : Nat) (kind : Nat) (n : Nat) : Statement (.lazyWriteout c k kind n) := fun _ => trivial
theorem blockedBankSave (c : Nat) : Statement (.blockedBankSave c) := fun _ => trivial
theorem timeSliceEnd (c : Nat) : Statement (.timeSliceEnd c) := fun _ => trivial
theorem priorityAging (c : Nat) (n : Nat) : Statement (.priorityAging c n) := fun _ => trivial
theorem watchdog (c : Nat) (b : Nat) : Statement (.watchdog c b) := fun _ => trivial
theorem rendezvousTimeout (c : Nat) (b : Nat) : Statement (.rendezvousTimeout c b) := fun _ => trivial
theorem chainTimeout (c : Nat) (b : Nat) : Statement (.chainTimeout c b) := fun _ => trivial
theorem phaseComplete (lid : Nat) (scope : Nat) (wid : Nat) (k : Nat) : Statement (.phaseComplete lid scope wid k) := fun _ => trivial
theorem rampWindow : Statement (.rampWindow) := fun _ => trivial
theorem taskAdmit (c : Nat) : Statement (.taskAdmit c) := fun _ => trivial
theorem ramblerPlace (lid : Nat) : Statement (.ramblerPlace lid) := fun _ => trivial
theorem ramblerLaunchAccept (src : Nat) : Statement (.ramblerLaunchAccept src) := fun _ => trivial
theorem launchComplete (lid : Nat) : Statement (.launchComplete lid) := fun _ => trivial
theorem feLaunch (q : Nat) : Statement (.feLaunch q) := fun _ => trivial
theorem feSched (q : Nat) : Statement (.feSched q) := fun _ => trivial
theorem feWaitev (q : Nat) : Statement (.feWaitev q) := fun _ => trivial
theorem feSigev (q : Nat) : Statement (.feSigev q) := fun _ => trivial
theorem haltqDrain (q : Nat) : Statement (.haltqDrain q) := fun _ => trivial
theorem haltqKill (q : Nat) : Statement (.haltqKill q) := fun _ => trivial
theorem feBadEntry (q : Nat) : Statement (.feBadEntry q) := fun _ => trivial
theorem fillLands (c : Nat) (b : Nat) (r : Nat) (sec : Nat) : Statement (.fillLands c b r sec) := fun _ => trivial
theorem writebackAck (c : Nat) (b : Nat) (id : Nat) : Statement (.writebackAck c b id) := fun _ => trivial
theorem directAccessPerform (c : Nat) (b : Nat) : Statement (.directAccessPerform c b) := fun _ => trivial
theorem coreWindowAccess (c : Nat) (off : Nat) (len : Nat) (wr : Option Nat) : Statement (.coreWindowAccess c off len wr) := fun _ => trivial
theorem sweepStep : Statement (.sweepStep) := fun _ => trivial
theorem migTailWrite (v : BitVec 64) : Statement (.migTailWrite v) := fun _ => trivial
theorem migrationMoveStart : Statement (.migrationMoveStart) := fun _ => trivial
theorem migrationBadCommand : Statement (.migrationBadCommand) := fun _ => trivial
theorem migrationDrainDone (n : Nat) : Statement (.migrationDrainDone n) := fun _ => trivial
theorem migrationCommit (n : Nat) : Statement (.migrationCommit n) := fun _ => trivial
theorem migrationLost (n : Nat) : Statement (.migrationLost n) := fun _ => trivial
theorem migrationFail (n : Nat) : Statement (.migrationFail n) := fun _ => trivial
theorem scrubPass (frame : Nat) : Statement (.scrubPass frame) := fun _ => trivial
theorem copyJob (c : Nat) (e : Nat) (k : Nat) : Statement (.copyJob c e k) := fun _ => trivial
theorem convertJob (c : Nat) (e : Nat) (k : Nat) : Statement (.convertJob c e k) := fun _ => trivial
theorem gatherJob (c : Nat) (e : Nat) (k : Nat) : Statement (.gatherJob c e k) := fun _ => trivial
theorem scatterJob (c : Nat) (e : Nat) (k : Nat) : Statement (.scatterJob c e k) := fun _ => trivial
theorem fillJob (c : Nat) (e : Nat) (k : Nat) : Statement (.fillJob c e k) := fun _ => trivial
theorem decodeJob (c : Nat) (e : Nat) (k : Nat) : Statement (.decodeJob c e k) := fun _ => trivial
theorem decodeBlockDeliver (c : Nat) (e : Nat) : Statement (.decodeBlockDeliver c e) := fun _ => trivial
theorem xformJob (c : Nat) (e : Nat) (k : Nat) : Statement (.xformJob c e k) := fun _ => trivial
theorem xfIneedWrite (c : Nat) (e : Nat) (v : BitVec 64) : Statement (.xfIneedWrite c e v) := fun _ => trivial
theorem xfIfreeWrite (c : Nat) (e : Nat) (v : BitVec 64) : Statement (.xfIfreeWrite c e v) := fun _ => trivial
theorem xfOmarkWrite (c : Nat) (e : Nat) (v : BitVec 64) : Statement (.xfOmarkWrite c e v) := fun _ => trivial
theorem xfDoneWrite (c : Nat) (e : Nat) (v : BitVec 64) : Statement (.xfDoneWrite c e v) := fun _ => trivial
theorem xformTimeout (c : Nat) (e : Nat) : Statement (.xformTimeout c e) := fun _ => trivial
theorem chainJob (c : Nat) (e : Nat) (k : Nat) : Statement (.chainJob c e k) := fun _ => trivial
theorem chainCommandEntry (c : Nat) (e : Nat) (k : Nat) : Statement (.chainCommandEntry c e k) := fun _ => trivial
theorem chainLoop (c : Nat) (e : Nat) (k : Nat) : Statement (.chainLoop c e k) := fun _ => trivial
theorem chainCond (c : Nat) (e : Nat) (k : Nat) : Statement (.chainCond c e k) := fun _ => trivial
theorem chainEnd (c : Nat) (e : Nat) (k : Nat) : Statement (.chainEnd c e k) := fun _ => trivial
theorem followOnMldw (c : Nat) (e : Nat) (k : Nat) : Statement (.followOnMldw c e k) := fun _ => trivial
theorem followOnMma (c : Nat) (e : Nat) (k : Nat) : Statement (.followOnMma c e k) := fun _ => trivial
theorem jobComplete (c : Nat) (e : Nat) (k : Nat) : Statement (.jobComplete c e k) := fun _ => trivial
theorem jobPageFault (c : Nat) (e : Nat) (k : Nat) : Statement (.jobPageFault c e k) := fun _ => trivial
theorem routineLoadStart (c : Nat) (e : Nat) (v : BitVec 64) : Statement (.routineLoadStart c e v) := fun _ => trivial
theorem routineLoadComplete (c : Nat) (e : Nat) : Statement (.routineLoadComplete c e) := fun _ => trivial
theorem scheduleStart (die : Nat) (t : Nat) : Statement (.scheduleStart die t) := fun _ => trivial
theorem transferMatch (die : Nat) (op : Nat) : Statement (.transferMatch die op) := fun _ => trivial
theorem operationMilestone (die : Nat) (op : Nat) : Statement (.operationMilestone die op) := fun _ => trivial
theorem counterStep (die : Nat) (ctr : Nat) (val : Nat) : Statement (.counterStep die ctr val) := fun _ => trivial
theorem packetArrival (die : Nat) (p : Packet) : Statement (.packetArrival die p) := fun _ => trivial
theorem remoteAddArrival (die : Nat) : Statement (.remoteAddArrival die) := fun _ => trivial
theorem tileFireLanded (die : Nat) : Statement (.tileFireLanded die) := fun _ => trivial
theorem failureMarkerArrival (die : Nat) : Statement (.failureMarkerArrival die) := fun _ => trivial
theorem cleKill (die : Nat) (v : BitVec 64) : Statement (.cleKill die v) := fun _ => trivial
theorem flitReceive (port : Nat) (f : BitVec 320) : Statement (.flitReceive port f) := fun _ => trivial
theorem goBack (port : Nat) : Statement (.goBack port) := fun _ => trivial
theorem replayTimeout (port : Nat) : Statement (.replayTimeout port) := fun _ => trivial
theorem lossOfLight (unit : Nat) : Statement (.lossOfLight unit) := fun _ => trivial
theorem lossDetected (port : Nat) : Statement (.lossDetected port) := fun _ => trivial
theorem restripeAck (port : Nat) (ack : BitVec 16) : Statement (.restripeAck port ack) := fun _ => trivial
theorem retrainStart (port : Nat) : Statement (.retrainStart port) := fun _ => trivial
theorem retrainEnd (port : Nat) (lock : BitVec 16) : Statement (.retrainEnd port lock) := fun _ => trivial
theorem linkCtlRetrain (port : Nat) (v : BitVec 64) : Statement (.linkCtlRetrain port v) := fun _ => trivial
theorem slotBaseWrite (port : Nat) (v : BitVec 64) : Statement (.slotBaseWrite port v) := fun _ => trivial
theorem slotTableLoad (port : Nat) : Statement (.slotTableLoad port) := fun _ => trivial
theorem memorySlot (port : Nat) : Statement (.memorySlot port) := fun _ => trivial
theorem remoteWritePacket (port : Nat) : Statement (.remoteWritePacket port) := fun _ => trivial
theorem remoteWriteAck (c : Nat) (e : Nat) (k : Nat) (n : Nat) : Statement (.remoteWriteAck c e k n) := fun _ => trivial
theorem circuitConnect (port : Nat) (dest : Nat) (cap : Nat) : Statement (.circuitConnect port dest cap) := fun _ => trivial
theorem queueTailWrite (q : Nat) (v : BitVec 32) : Statement (.queueTailWrite q v) := fun _ => trivial
theorem hostWindowAccess (off : Nat) (len : Nat) (wr : Option Nat) : Statement (.hostWindowAccess off len wr) := fun _ => trivial
theorem setq (q : Nat) (base : Nat) (size : Nat) (prio : Nat) : Statement (.setq q base size prio) := fun _ => trivial
theorem startq (q : Nat) : Statement (.startq q) := fun _ => trivial
theorem stopq (q : Nat) : Statement (.stopq q) := fun _ => trivial
theorem status : Statement (.status) := fun _ => trivial
theorem attest (nonce : BitVec 512) : Statement (.attest nonce) := fun _ => trivial
theorem loadfw (image : BitVec 512) (valid : Bool) : Statement (.loadfw image valid) := fun _ => trivial
theorem resetWarm : Statement (.resetWarm) := fun _ => trivial
theorem resetCold : Statement (.resetCold) := fun _ => trivial
theorem mailboxBadCommand (code : Nat) : Statement (.mailboxBadCommand code) := fun _ => trivial
theorem coldStart (secs : Nat) (ok : Bool) : Statement (.coldStart secs ok) := fun _ => trivial
theorem warmStart (secs : Nat) (ok : Bool) (moved : Bool) : Statement (.warmStart secs ok moved) := fun _ => trivial
theorem startFailure (warm : Bool) : Statement (.startFailure warm) := fun _ => trivial
theorem telemetrySample (rails : List (Nat × Nat)) (temps : List Nat) : Statement (.telemetrySample rails temps) := fun _ => trivial
theorem powerCapExceeded (lower : BitVec 16) : Statement (.powerCapExceeded lower) := fun _ => trivial
theorem dieOvertemp (die : Nat) : Statement (.dieOvertemp die) := fun _ => trivial
theorem einjArm (c : Nat) (v : BitVec 64) : Statement (.einjArm c v) := fun _ => trivial
theorem elogCntClear (c : Nat) : Statement (.elogCntClear c) := fun _ => trivial
theorem rampStepWrite (v : BitVec 64) : Statement (.rampStepWrite v) := fun _ => trivial
theorem controlRegisterWrite (c : Nat) (idx : Nat) (v : BitVec 64) : Statement (.controlRegisterWrite c idx v) := fun _ => trivial
theorem heartbeat (answered : Bool) : Statement (.heartbeat answered) := fun _ => trivial
theorem microcoreException (c : Nat) (e : Nat) : Statement (.microcoreException c e) := fun _ => trivial

end Sys2Proof.Laws.Words
end

