-- ==== Sys2Proof/Tests/Slice0.lean ====
section
/-!
SUPPORT. The model's own tests: ill-formed terms that WellFormed refuses, words written out from the encodings of the spec, the
spec's worked examples, and states that meet the hypotheses of the statements. The expected values are those of the spec's text.
-/

namespace Sys2Proof.Tests

open Sys2Proof Sys2Proof.Machine

/-! ### Well-formedness: one ill-formed term per check -/

def h0 : Hdr := {}

/-- A header whose every field is one past its range, and slots outside the class. -/
theorem test_wf_header : ([.nop { slot := 1 }, .nop { stall := 16 }, .nop { wait := 64 }, .nop { sbset := 7 }, .nop { reuse := 16 },
    .nop { pnum := 8 }, .add { slot := 2 } 0 0 0, .vadd { slot := 1 } {}, .xrcp { slot := 2 } {}, .lds { slot := 5 } 0 0 0 0 false,
    .mzero { slot := 6 } 0, .push { slot := 6 } 1 0 0 0] : List Instr).all (fun i => !WellFormed i) = true := by decide

theorem test_wf_scalar : ([.add h0 64 0 0, .add h0 0 64 0, .add h0 0 0 64, .sel h0 0 0 0 64, .cmp h0 0 0 0 16, .bfx h0 0 0 64 0 false,
    .bfi h0 0 0 0 64, .sext h0 0 0 64, .amov h0 0 0 4, .awrap h0 0 0 (2 ^ 24) 0, .awrap h0 0 0 0 (2 ^ 24), .widf h0 0 8,
    .movi h0 64 0, .brc h0 0 0 16 0, .phase h0 16 false, .getc h0 0 4096, .muinv h0 0 4, .slabq h0 0 4] : List Instr).all
      (fun i => !WellFormed i) = true := by decide

theorem test_wf_segh : ([.segh h0 { len := 256 }, .segh h0 { live0 := 64 }, .segh h0 { live5 := 64 }, .segh h0 { rdvg := 8 }] :
    List Instr).all (fun i => !WellFormed i) = true := by decide

def v0 : Hdr := { slot := 2 }

theorem test_wf_vector : ([.vadd v0 { dst := 64 }, .vadd v0 { opa := 64 }, .vadd v0 { opb := 64 }, .vadd v0 { opc := 64 },
    .vadd v0 { qm := 8 }, .vadd v0 { ew := 8 }, .vadd v0 { rm := 8 }, .vadd v0 { cl := 4 }, .vadd v0 { tr := 16 },
    .vadd v0 { sh := 64 }, .vadd v0 { part := 8 }, .vadd v0 { dfmt := 16 }, .vadd v0 { smode := 4 }, .vadd v0 { sub := 16 }] :
    List Instr).all (fun i => !WellFormed i) = true := by decide

theorem test_wf_memory_and_matrix : ([.lds { slot := 6 } 64 0 0 0 false, .lds { slot := 6 } 0 16 0 0 false,
    .lds { slot := 6 } 0 0 0 4 false, .ldv { slot := 6 } 0 0 0 64 0 0 false false false, .ldv { slot := 6 } 0 0 0 0 64 0 false false false,
    .ldv { slot := 6 } 0 0 0 0 0 8 false false false, .ldvp { slot := 6 } 0 2, .amo { slot := 6 } 0 0 0 0 0 16 false false,
    .rmap { slot := 6 } 0 0 0 0 0 4, .mma { slot := 7 } 0 128 0 false false 0 0 1, .mma { slot := 7 } 0 0 16 false false 0 0 1,
    .mma { slot := 7 } 0 0 0 false false 16 0 1, .mma { slot := 7 } 0 0 0 false false 0 (2 ^ 23) 1,
    .mma { slot := 7 } 0 0 0 false false 0 0 256, .crdv { slot := 7 } 0 0 4 0, .mlru { slot := 7 } 0 0 0 false 1 256 0,
    .mlrmul { slot := 7 } 0 0 0 64 0 false, .mlrmul { slot := 7 } 0 0 0 0 8 false, .push { slot := 7 } 64 0 0 0] : List Instr).all
      (fun i => !WellFormed i) = true := by decide

theorem test_wf_words : ([.send 16 0 0 0 false, .send 0 64 0 0 false, .send 0 0 256 0 false, .send 0 0 0 256 false,
    .red 0 16 0 false 0 0 false 0, .red 0 0 0 false 3 0 false 0, .red 0 0 0 false 0 3 false 0, .red 0 0 0 false 0 0 false 65536,
    .lystilWait 0 (2 ^ 32), .sigAdd 0 (2 ^ 32), .twait 4096, .setkAddr 16 0, .lystilLoop 4 0, .lystilLoop 0 (2 ^ 32), .bnz 4 0,
    .gjoin 0 0 256 0, .gjoin 0 0 0 65536, .gfree 64] : List Instr).all (fun i => !WellFormed i) = true := by decide

theorem test_wf_events : ([.resultWrite 512 0, .resultWrite 0 2, .copyJob 0 2 0, .fltAnsRetry 8 0, .scheduleStart 0 8, .feLaunch 16,
    .goBack 32, .lossOfLight 16, .remoteWriteAck 0 3 0 0] : List Instr).all (fun i => !WellFormed i) = true := by decide

/-! ### Words written out from the encodings of R72, R74, R79, R89, R90, R147, R169, R316 to R318 -/

/-- A word with these fields: the position of each field's lowest bit and its value. -/
def word (l : List (Nat × Nat)) : Nat := (l.map fun e => e.2 * 2 ^ e.1).sum

/-- A syllable of slot, opcode and operand fields, with E = 1. -/
def syl (slot op : Nat) (l : List (Nat × Nat)) : Nat := word ([(125, slot), (124, 1), (94, op)] ++ l)

def e0 (k : Nat) : Hdr := { slot := k, e := true }

theorem test_decode_spec_words : Obligations.SpecWordsDecode := by unfold Obligations.SpecWordsDecode; decide

theorem test_decode_scalar :
    decodeSyllableNat (syl 1 0x1A [(88, 63), (82, 62), (76, 61), (70, 7)]) = .ok (.sel (e0 1) 63 62 61 7) ∧
    decodeSyllableNat (syl 0 0x1B [(88, 7), (82, 1), (76, 2), (48, 9)]) = .ok (.cmp (e0 0) 7 1 2 9) ∧
    decodeSyllableNat (syl 0 0x21 [(88, 6), (82, 4), (48, 1), (8, 11), (0, 8)]) = .ok (.bfx (e0 0) 6 4 8 11 true) ∧
    decodeSyllableNat (syl 0 0x20 [(88, 11), (0, 2 ^ 64 - 1)]) = .ok (.movi (e0 0) 11 (BitVec.allOnes 64)) ∧
    decodeSyllableNat (syl 0 0x2C [(88, 2), (82, 1), (0, 0x9089)]) = .ok (.aidx (e0 0) 2 1 0x9089) ∧
    decodeSyllableNat (syl 0 0x2B [(88, 3), (82, 3), (24, 0x200), (0, 0x4000)]) = .ok (.awrap (e0 0) 3 3 0x200 0x4000) := by
  decide

theorem test_decode_control :
    decodeSyllableNat (syl 0 0x42 [(0, 2 ^ 48 - 4)]) = .ok (.br (e0 0) (-4)) ∧
    decodeSyllableNat (syl 0 0x46 [(76, 11), (0, 2 ^ 48 - 1)]) = .ok (.loopn (e0 0) 11 (-1)) ∧
    decodeSyllableNat (syl 0 0x50 [(88, 5), (70, 0xC00)]) = .ok (.getc (e0 0) 5 0xC00) ∧
    decodeSyllableNat (syl 0 0x51 [(82, 5), (70, 0x001)]) = .ok (.setc (e0 0) 5 1) ∧
    decodeSyllableNat (syl 0 0x49 [(0, 7)]) = .ok (.trap (e0 0) 7) ∧
    decodeSyllableNat (syl 0 0x55 [(82, 1), (0, 9)]) = .ok (.seed (e0 0) 1 9) := by decide

theorem test_decode_vector :
    decodeSyllableNat (syl 3 0x66 [(88, 1), (82, 2), (76, 3), (67, 5), (64, 2), (61, 4), (59, 2), (55, 15), (49, 63), (48, 1)]) =
      .ok (.vmuls (e0 3) { dst := 1, opa := 2, opb := 3, qm := 5, ew := 2, rm := 4, cl := 2, tr := 15, sh := 63, zi := true }) ∧
    decodeSyllableNat (syl 4 0x8D [(88, 1), (64, 2), (37, 1), (0, 8)]) = .ok (.qset (e0 4) { dst := 1, ew := 2, i := true, imm := 8 }) ∧
    decodeSyllableNat (syl 5 0xA1 [(88, 12), (82, 6), (64, 3)]) = .ok (.xrcp (e0 5) { dst := 12, opa := 6, ew := 3 }) := by
  decide

theorem test_decode_memory :
    decodeSyllableNat (syl 6 0xB0 [(88, 5), (84, 3), (56, 6), (0, 2 ^ 48 - 16)]) = .ok (.lds (e0 6) 5 3 (-16) 2 true) ∧
    decodeSyllableNat (syl 6 0xB2 [(88, 8), (84, 3), (78, 5), (72, 2), (56, 0x3A), (0, 0x40)]) =
      .ok (.ldv (e0 6) 8 3 0x40 5 2 2 true true true) ∧
    decodeSyllableNat (syl 6 0xBA [(88, 9), (84, 2), (78, 10), (72, 11), (56, 0x28), (0, 8)]) =
      .ok (.amo (e0 6) 9 2 8 10 11 8 false true) ∧
    decodeSyllableNat (syl 6 0xC0 [(88, 31), (84, 1), (78, 2), (72, 3), (56, 2), (0, 0x1000)]) =
      .ok (.rmap (e0 6) 31 1 0x1000 2 3 2) := by decide

theorem test_decode_matrix_and_push :
    decodeSyllableNat (syl 7 0xD6 [(88, 31)]) = .ok (.mzero (e0 7) 31) ∧
    decodeSyllableNat (syl 7 0xD9 [(88, 4), (82, 31), (66, 3), (55, 127)]) = .ok (.crdv (e0 7) 4 31 3 127) ∧
    decodeSyllableNat (syl 7 0xD0 [(88, 40), (82, 24), (64, 3), (48, 1)]) = .ok (.push (e0 7) 40 24 3 1) := by decide

theorem test_decode_words :
    decodeLystil (BitVec.ofNat 64 (word [(59, 1), (55, 15), (45, 63), (37, 255), (29, 254), (28, 1)])) = .send 15 63 255 254 true ∧
    decodeLystil (BitVec.ofNat 64 (word [(59, 6), (51, 255), (0, 2 ^ 32 - 1)])) = .lystilWait 255 (2 ^ 32 - 1) ∧
    decodeLystil (BitVec.ofNat 64 (word [(59, 7), (56, 1), (50, 3), (42, 5), (34, 9), (0, 2)])) = .sigRadd 3 5 9 2 ∧
    decodeLystil (BitVec.ofNat 64 (word [(59, 10), (55, 4), (52, 3), (0, 512)])) = .setkRlen 4 512 ∧
    decodeLystil (BitVec.ofNat 64 (word [(59, 12), (57, 3), (0, 2 ^ 24 - 2)])) = .bnz 3 (-2) ∧
    decodeLystil (BitVec.ofNat 64 (word [(59, 15)])) = .lystilEnd ∧
    decodeLystil 0 = .lystilBadop 0 := by decide

/-- R90 and R89: an unassigned opcode, a slot outside the class, a reserved bit. -/
theorem test_decode_refuses :
    decodeSyllableNat (syl 0 0x2E []) = .error .illegalInstruction ∧ decodeSyllableNat (syl 1 0x40 []) = .error .slotMismatch ∧
    decodeSyllableNat (syl 0 0x00 [(0, 1)]) = .error .illegalInstruction := by decide

/-! ### One step on a small state -/

/-- A task about to issue a bundle at the end of an exit segment. -/
def st0 : State := State.reset.withSyllable (syl 0 0x48 [])

def withRegs (f : Regs → Regs) : State := st0.modBk fun y => { y with regs := f y.regs }

def withS (l : Tab Word) : State := withRegs fun r => { r with s := l }

/-- The state of an outcome that goes on. -/
def after : Host.Outcome State Fault Refusal → State
  | .next t => t
  | _ => State.reset

/-- The results in flight after an outcome. -/
def flight (o : Host.Outcome State Fault Refusal) : List (Nat × List Write) :=
  let q := (after o).bk.pipe
  q.pend.map fun p => (p.due + 1 - q.clk, p.writes)

def cause (o : Host.Outcome State Fault Refusal) : Nat := (after o).bk.cregs.trapCause.toNat % 256

def minus (n : Nat) : Word := BitVec.ofInt 64 (-(n : Int))

/-- R93: the sum wraps; R94: it takes 1 cycle. -/
theorem test_add_wraps : flight (exec (.add h0 3 1 2) (withS [(1, minus 1), (2, 2)])) = [(1, [.s 3 1])] := by decide

/-- R37: two syllables of one bundle exchange S4 and S5. -/
theorem test_add_exchanges :
    flight (exec (.add h0 5 4 0) (after (exec (.add h0 4 5 0) (withS [(4, 7), (5, 9)])))) = [(1, [.s 4 9]), (1, [.s 5 7])] := by
  decide

/-- R93: MULH and MULHU of 0x8000_0000_0000_0000 by 2. -/
theorem test_mulh : flight (exec (.mulh h0 3 1 2) (withS [(1, 0x8000000000000000), (2, 2)])) = [(3, [.s 3 (minus 1)])] := by
  decide
theorem test_mulhu : flight (exec (.mulhu h0 3 1 2) (withS [(1, 0x8000000000000000), (2, 2)])) = [(3, [.s 3 1])] := by
  decide

/-- R93: DIV of -7 by 2 gives -3, REM gives -1. -/
theorem test_div : flight (exec (.div h0 3 1 2) (withS [(1, minus 7), (2, 2)])) = [(18, [.s 3 (minus 3)])] := by decide
theorem test_rem : flight (exec (.rem h0 3 1 2) (withS [(1, minus 7), (2, 2)])) = [(18, [.s 3 (minus 1)])] := by decide

/-- R93: CLS.W of 100,000 gives 14. -/
theorem test_cls : flight (exec (.cls h0 3 1 true) (withS [(1, 100000)])) = [(1, [.s 3 14])] := by decide

/-- R96: BFI S4, S5, 8, 12 and BFX S6, S4, 8, 12, without and with sign. -/
theorem test_bfi : flight (exec (.bfi h0 4 5 8 11) (withS [(4, 0xFFFFFFFFFFFFFFFF), (5, 0xABC)])) =
    [(1, [.s 4 0xFFFFFFFFFFFABCFF])] := by decide
theorem test_bfx : flight (exec (.bfx h0 6 4 8 11 false) (withS [(4, 0xFFFFFFFFFFFABCFF)])) = [(1, [.s 6 0xABC])] := by
  decide
theorem test_bfx_signed : flight (exec (.bfx h0 6 4 8 11 true) (withS [(4, 0xFFFFFFFFFFFABCFF)])) =
    [(1, [.s 6 0xFFFFFFFFFFFFFABC])] := by decide

/-- R91, R96: a field past bit 63 is an illegal operand. -/
theorem test_bfx_past_the_end : cause (exec (.bfx h0 6 4 60 11 false) st0) = 0x24 := by decide

/-- R100: 0x3E00 + 0x200 reaches the bound 0x4000 and wraps to 0. -/
theorem test_awrap : flight (exec (.awrap h0 3 3 0x200 0x4000) (withRegs fun r => { r with a := [(3, 0x3E00)] })) =
    [(1, [.a 3 0])] := by decide +kernel

def withWork (id shape : Word) : State := st0.modBk fun y => { y with cregs := { y.cregs with workId := id, workShape := shape } }

/-- R98: field 1 of WORK.ID 0x23 with widths 4 and 3 is 2. -/
theorem test_widf : flight (exec (.widf h0 7 1) (withWork 0x23 (4 + 3 * 128))) = [(1, [.s 7 2])] := by decide

/-- R100: with A1 = 0, F_0 = 3 and F_1 = 2 the entries 0x89 and 0x90 give 0x0002_0600. -/
theorem test_aidx : flight (exec (.aidx h0 2 1 0x9089) (withWork 0x23 (4 + 3 * 128))) = [(1, [.a 2 0x20600])] := by decide

/-- R103: LOOPN that leaves 0 does not branch and writes its count. -/
theorem test_loopn_ends : flight (exec (.loopn h0 11 (-1)) (withS [(11, 1)])) = [(1, [.s 11 0])] ∧
    (after (exec (.loopn h0 11 (-1)) (withS [(11, 1)]))).bk.pipe.ctx.ctl = none := by decide

/-- R82: a branch whose target holds no header. -/
theorem test_br_without_header : cause (exec (.br h0 0) st0) = 0x04 := by decide

/-- R10: a false predicate: no result, no trap of the operands. -/
theorem test_false_predicate : flight (exec (.bfx { pneg := true } 6 4 60 11 false) st0) = [] ∧
    cause (exec (.bfx { pneg := true } 6 4 60 11 false) st0) = 0 := by decide

/-- R119: SEED writes SEED and DRAW. -/
theorem test_seed : flight (exec (.seed h0 1 9) (withS [(1, 5)])) = [(1, [.creg 3 5, .creg 4 9])] := by decide

/-- R116: a privileged index in task mode. -/
theorem test_getc_privileged : cause (exec (.getc h0 5 0xC10) st0) = 0x07 := by decide

/-! ### Formats and arithmetic of chapter 2 -/

/-- R51: INT4 elements 3, -2, 7, -8 are the bytes 0xE3 and 0x87. -/
theorem test_pack : packN 4 ([3, -2, 7, -8].map (wrapN 4)) = 0x87E3 ∧ packN 2 ([1, -2, 0, -1].map (wrapN 2)) = 0xC9 := by decide

/-- R52 to R56: DS8 0x5B is 12, DS4 0b1011 is -4, 11 converts to 0x42, AZ8 200 is 72, a quotient of -130 gives 0 and the flag. -/
theorem test_dropped_sum : decodeElem 8 0 0x5B = 12 ∧ decodeElem 9 0 0xB = -4 ∧ dsNarrow 8 128 11 0 = (0x42, false) := by
  decide
theorem test_affine : decodeElem 10 128 200 = 72 ∧ narrowTo 10 255 128 (-130) 0 0 0 = (0, true) := by decide

/-- R62, R67: 1000 shifted by 4 with the random bits 13 and 7. -/
theorem test_stochastic_rounding : rnd 1000 4 4 13 = 63 ∧ rnd 1000 4 4 7 = 62 ∧ rnd 1000 4 0 0 = 62 := by decide

/-- R65: the input of the first mix for seed 0x2A, counter 3, core 343, lane 5. -/
theorem test_prng_input : prng 0x2A 343 5 3 = prngMix (prngMix 0xDAA73A2C7DDF746C#64 + 0xD1B54A32D192ED03#64) := by
  decide

/-- R69: a census of 9, INT8, headroom 1. -/
theorem test_shift : shiftFor 9 1 2 = 16 := by decide

/-! ### Vector syllables -/

def withV (l : Tab VReg) : State := withRegs fun r => { r with v := l }

def lanesV (w : Nat) (l : List Int) : VReg := BitVec.ofNat 4096 (packN w (l.map (wrapN w)))

/-- The first lanes of a result for a vector register. -/
def outLanes (w n : Nat) (o : Host.Outcome State Fault Refusal) : List Nat :=
  (flight o).flatMap fun e => e.2.flatMap fun x => match x with
    | .v _ m y => (lanesN (m &&& y).toNat w n)
    | _ => []

/-- R130: 0x4000 times 0x6000 in Q1.15 is 0x3000. -/
theorem test_vmuls : outLanes 16 1 (exec (.vmuls v0 { dst := 1, opa := 2, opb := 3, ew := 2, sh := 15 })
    (withV [(2, lanesV 16 [0x4000]), (3, lanesV 16 [0x6000])])) = [0x3000] := by decide +kernel

/-- R130: VDOT4.I8 of (1, -2, 3, 4) and (5, 6, -7, 8) onto 100 is 104. -/
theorem test_vdot4 : outLanes 32 1 (exec (.vdot4 v0 { dst := 1, opa := 2, opb := 3, ew := 1 })
    (withV [(1, lanesV 32 [100]), (2, lanesV 8 [1, -2, 3, 4]), (3, lanesV 8 [5, 6, -7, 8])])) = [104] := by decide +kernel

/-- R137: QSET.I16 Q1, 8 sets bits 0 to 31. -/
theorem test_qset : flight (exec (.qset v0 { dst := 1, ew := 2, i := true, imm := 8 }) st0) =
    [(2, [.q 1 (BitVec.allOnes 1024) 0xFFFFFFFF])] := by decide +kernel

/-- R20: lane 3 of a 32-bit view is bytes 12 to 15. -/
theorem test_lane_bytes : ((vecBytes (lanesV 32 [0, 0, 0, 0x1234])).drop 12).take 2 = [0x34, 0x12] := by decide +kernel

/-- The record of the stale census: INT8, clamp 127, scale -20, census 20. -/
def staleRec : TRec := BitVec.ofNat 256 (word [(0, 2), (8, 127), (24, 0xEC), (32, 20)])

/-- R133: the census shift-down of 1,000, -2,000 and 100,000 into part 1, and its record. -/
theorem test_vshrd_census :
    let o := exec (.vshrdCensus { slot := 2 } { dst := 2, opa := 1, ew := 3, tr := 3, smode := 2, part := 1, imm := 0xEC })
      (withRegs fun r => { r with v := [(1, lanesV 32 [1000, -2000, 100000])], t := [(3, staleRec)] })
    (outLanes 8 132 o).drop 128 = [0x3E, 0x83, 0x7F, 0] ∧
    (flight o).flatMap (fun e => e.2.filterMap fun x => match x with
      | .t 3 m y => some (bitsN ((staleRec &&& ~~~m) ||| (y &&& m)).toNat 24 8, bitsN ((staleRec &&& ~~~m) ||| (y &&& m)).toNat 32 5)
      | _ => none) = [(0xF0, 14)] := by decide +kernel

/-! ### Factors -/

def comp (l : List Int) : List Int := l ++ List.replicate (128 - l.length) 0

/-- R189: the worked recompression: one component 18,432 by (7,282, 14,564), exponents -11 and -14. -/
theorem test_recompress :
    let r := recompress [(comp [4], comp [1]), (comp [8], comp [0, 1])] 0 0 0
    r.1 = [(comp [18432], comp [7282, 14564])] ∧ r.2.1 = -11 ∧ r.2.2.1 = -14 := by decide +kernel

/-! ### Engines, links -/

/-- R292: the worked CONVERT: 3E 83 7F 01 FF with the residues 08 00 7F 07 07. -/
theorem test_convert :
    let r := convertGroup (word [(0, 2), (11, 1), (16, 7), (20, 2), (24, 2), (32, 4), (48, 127)]) (fun _ => 0) 0
      [1000, -2000, 100000, 23, -9]
    r.codes = [0x3E, 0x83, 0x7F, 0x01, 0xFF] ∧ r.res = [8, 0, 127, 7, 7] ∧ r.sat = true := by decide

/-- R365: a result written two cycles after the trap's boundary is latched with 2. -/
theorem test_latch : (Pending.latchAt { due := 12, slot := 0, seq := 0, bundle := 0, segNo := 0, writes := [.s 4 42] } 11).due = 2 := by
  decide

/-! ### States that meet the hypotheses of the statements -/

/-- Nothing keeps a syllable of the issuing bank from going: no check, no error, no parked register, no region. -/
def plain (s : State) : Bool :=
  s.bk.predTrue h0 && !s.bk.checks && s.noBad && decide (s.bk.parked = []) && decide (s.bk.regions = []) && s.noSoft

theorem clear_of_plain {s : State} (e : plain s = true) (p : Plan) (ho : p.out = .go) : s.clear h0 p := by
  simp only [plain, Bool.and_eq_true, decide_eq_true_eq, Bool.not_eq_true'] at e
  obtain ⟨⟨⟨⟨⟨e1, e2⟩, e3⟩, e4⟩, e5⟩, e6⟩ := e
  have t : ∀ ts, s.bk.touched ts = [] := fun ts => by simp [Bank.touched, Bank.mapped, e5]
  have k : ∀ l, s.bk.parkedTrap l = none := fun l => by simp [Bank.parkedTrap, e4, Tab.get, lookAt]
  refine ⟨e1, ?_, ?_, ?_, ?_⟩
  · simp [Bank.planTrap, ho, e2, k, Bank.touchTrap, t, lowestTrap]
  · simp [State.badRead, e3]
  · simp [Bank.touchWaits, t]
  · simp [State.meetsSoft, e6]

theorem dirtied_of_plain {s : State} (e : plain s = true) (p : Plan) : s.dirtied p = .ok s := by
  simp only [plain, Bool.and_eq_true, decide_eq_true_eq, Bool.not_eq_true'] at e
  have t : ∀ ts, s.bk.touched ts = [] := fun ts => by simp [Bank.touched, Bank.mapped, e.1.2]
  simp [State.dirtied, Bank.touchDirty, t, State.makeDirty, State.eachSec]

theorem badTrap_of_plain {s : State} (e : plain s = true) (ts : List Touch) : s.badTrap ts = none := by
  simp only [plain, Bool.and_eq_true, decide_eq_true_eq, Bool.not_eq_true'] at e
  simp [State.badTrap, e.1.1.1.2]

theorem plain_st0 : plain st0 = true := by decide

theorem clear0 (p : Plan) (ho : p.out = .go) : st0.clear h0 p := clear_of_plain plain_st0 p ho

theorem wit_ScalarArithmeticResults : st0.clear h0 (foot [(.s, 63, 1), (.s, 63, 2)] [(.s, 63, 0)]) ∧ st0.bk.divReady = true :=
  ⟨clear0 _ rfl, by decide⟩

theorem wit_ScalarFieldAndPredicateResults :
    st0.clear h0 (foot [(.s, 63, 1), (.s, 63, 2), (.p, 7, 3)] [(.s, 63, 0)]) ∧
    st0.clear h0 (foot [(.s, 63, 1), (.s, 63, 0)] [(.s, 63, 0)]) ∧ 63 + 0 + 1 ≤ 64 ∧ 0 + 63 + 1 ≤ 64 ∧
    ccHolds 9 64 0 0 = some false ∧ st0.clear h0 (foot [(.s, 63, 1), (.s, 63, 2)] [(.p, 7, 0)]) ∧
    st0.clear h0 (foot [(.p, 7, 1), (.p, 0, 2)] [(.p, 7, 0)]) :=
  ⟨clear0 _ rfl, clear0 _ rfl, by decide, by decide, by decide, clear0 _ rfl, clear0 _ rfl⟩

theorem wit_AddressResults : st0.clear h0 (foot [(.a, 15, 1), (.s, 63, 2)] [(.a, 15, 0)]) ∧ 2 ^ 24 - 2 < 2 ^ 24 - 1 ∧
    st0.bk.predTrue h0 = true ∧ st0.bk.checks = false ∧ st0.noBad = true ∧ 0 ≤ 0 ∧
    st0.bk.predTrue { h0 with asMark := true } = true :=
  ⟨clear0 _ rfl, by decide, by decide, by decide, by decide, by decide, by decide⟩

theorem wit_TransferResults : st0.seghAt st0.cf st0.bf (wrapN 48 ((st0.bk.pc : Int) + (1 : BitVec 48).toInt)) = true ∧
    ccHolds 0 64 (st0.rg.rs 0).toNat (st0.rg.rs 0).toNat = some true ∧ ccHolds 1 64 0 0 = some false ∧
    st0.seghAt st0.cf st0.bf ((st0.rg.rs 0).toNat % 2 ^ 48) = true ∧ st0.rg.rs 63 - 1 ≠ 0 ∧ (withS [(63, 1)]).rg.rs 63 - 1 = 0 ∧
    plain (withS [(63, 1)]) = true := by decide

/-- A bank in monitor mode. -/
def monitor0 : State := st0.modBk fun y => { y with monitor := true }

def withA (a : Nat) : State := withRegs fun r => { r with a := [(15, BitVec.ofNat 64 a)] }

theorem wit_SyllableTraps :
    (st0.bk.predTrue h0 = true ∧ st0.bk.planTrap h0 {} = none ∧ st0.noBad = true ∧
      st0.seghAt st0.cf st0.bf (wrapN 48 ((st0.bk.pc : Int) + (0 : BitVec 48).toInt)) = false) ∧
    State.reset.bk.atExit = false ∧ (st0.bk.monitor = false ∧ st0.bk.checks = false ∧ 0xC10 ∈ cregIndices ∧ (0xC10).testBit 11 = true) ∧
    (scratchBytes < (withA 0x2FFFF9).effAddr 15 0 + 2 ^ 3 ∧ plain (withA 0x2FFFF9) = true) ∧
    ((withA 0x2FFFF7).effAddr 15 0 + 2 ^ 3 ≤ scratchBytes ∧ (withA 0x2FFFF7).effAddr 15 0 % 2 ^ 3 ≠ 0) := by decide

theorem wit_lOpen : st0.bk.pipe.lFree ≤ st0.bk.pipe.clk ∧ st0.bk.pipe.xFree ≤ st0.bk.pipe.clk := by decide

/-- A bank that expects a header, at syllable 0. -/
def atHeader : State := st0.modBk fun y => { y with seg := none, pc := 0 }

/-- An `Except` that holds a value. -/
def good {ε α : Type} : Except ε α → Bool
  | .ok _ => true
  | .error _ => false

theorem wit_SegmentControlResults :
    st0.seghAt st0.cf st0.bf st0.bk.fallNext = true ∧ good (st0.captureAll st0.cf st0.bf) = true ∧ st0.bk.atLast = true ∧
    monitor0.bk.monitor = true ∧ plain monitor0 = true ∧
    (st0.bk.group ≠ 0 ∧ st0.gangMet st0.bk.group (Tab.get 0 st0.bk.task.rdvs st0.bk.group + 1) = true) ∧
    (atHeader.bk.seg = none ∧ atHeader.seghAt atHeader.cf atHeader.bf (wrapN 48 ((atHeader.bk.pc : Int) + sext22 2)) = true) := by
  decide

theorem wit_SystemResults : (0x000 ∈ cregIndices ∧ (0x000).testBit 11 = false ∧ (0x000).testBit 10 = false ∧
      st0.cregRefused st0.cf 0 0x4004 = false) ∧ (0x885 ∈ cregIndices ∧ monitor0.bk.monitor = true) ∧
    ((withS [(63, 4)]).rg.rs 63).toNat < 4096 ∧ (4 ∈ cregIndices ∧ (4).testBit 11 = false) ∧ plain (withS [(63, 4)]) = true := by
  decide

theorem wit_VectorLaneResults : ({ ew := 4, dst := 63, opa := 63, opb := 63, qm := 7, tr := 15, cl := 2 } : VecOps).laneLegal ∧
    ({ ew := 3, w := true, part := 1 } : VecOps).laneLegal ∧ st0.clear h0 ({ ew := 4 } : VecOps).foot2 ∧
    st0.clear h0 ({ ew := 4 } : VecOps).foot1 := by
  refine ⟨by simp [VecOps.laneLegal, VecOps.named], by simp [VecOps.laneLegal, VecOps.named], clear0 _ rfl, clear0 _ rfl⟩

theorem wit_VectorAddLanes : ({ ew := 0, dst := 63 } : VecOps).laneLegal ∧ 1023 < 4096 / ({ ew := 0, dst := 63 } : VecOps).wd ∧
    st0.clear h0 ({ ew := 0, dst := 63 } : VecOps).foot2 :=
  ⟨by simp [VecOps.laneLegal, VecOps.named], by decide, clear0 _ rfl⟩

theorem wit_VectorProductResults : ({ ew := 4, rm := 5 } : VecOps).named ∧ st0.rmode { ew := 4, rm := 5 } ≤ 5 ∧
    st0.rmode { ew := 4, rm := 4, sh := 63 } = 4 ∧ st0.clear h0 ({ ew := 4 } : VecOps).foot2 ∧ ({ ew := 3, w := true } : VecOps).laneLegal :=
  ⟨by simp [VecOps.named], by decide, by decide, clear0 _ rfl, by simp [VecOps.laneLegal, VecOps.named]⟩

theorem wit_VectorMoveAndMaskResults : ({ ew := 4, opa := 7, opb := 7, opc := 7, dst := 7, sub := 9 } : VecOps).named ∧
    st0.laneIdx { ew := 4, i := true, imm := 63 } < 4096 / 64 ∧ st0.clear h0 (foot [(.q, 7, 1), (.q, 7, 2)] [(.q, 7, 0)]) :=
  ⟨by simp [VecOps.named], by decide, clear0 _ rfl⟩

theorem wit_VectorWidthResults : ({ ew := 4, dfmt := 4, part := 3 } : VecOps).named ∧ dfmtOk 4 = true ∧ fmtBits 4 ≤ 64 ∧
    3 < 64 / fmtBits 4 ∧ st0.rmode { ew := 4 } ≤ 5 ∧ dfmtOk 7 = true ∧ 8 < fmtBits 7 ∧ 3 < fmtBits 7 / 8 ∧
    st0.clear h0 (foot [] [(.v, 0, 0)]) :=
  ⟨by simp [VecOps.named], by decide, by decide, by decide, by decide, by decide, by decide, by decide, clear0 _ rfl⟩

def withT (t : TRec) : State := withRegs fun r => { r with t := [(3, t)] }

theorem wit_CensusShiftDownResults :
    let t := (withT staleRec).rg.rt 3
    trecFmt t ≠ 6 ∧ fmtKind (trecFmt t) ≠ .bx ∧ scaleOk (sextN 8 0xEC + (shiftFor (trecCensus t) (trecHead t) (trecFmt t) : Int)) = true ∧
    trecRnd t ≤ 5 ∧ 3 < 32 / fmtBits (trecFmt t) ∧ plain (withT staleRec) = true := by decide

theorem wit_VectorPermuteAndReduceResults : ({ ew := 4, i := true, imm := 64, cl := 2 } : VecOps).named ∧
    (64 : BitVec 32).toNat ≤ 4096 / 64 ∧ st0.clear h0 (foot [(.v, 63, 2), (.v, 63, 1)] [(.v, 63, 0)]) :=
  ⟨by simp [VecOps.named], by decide, clear0 _ rfl⟩

theorem wit_SpecialFunctionResults : ({ ew := 3 } : VecOps).named ∧ st0.bk.xOpen ∧ st0.clear h0 (foot [(.v, 0, 1)] [(.v, 0, 0)]) ∧
    ({ ew := 2, dst := 63 } : VecOps).named :=
  ⟨by simp [VecOps.named], wit_lOpen.2, clear0 _ rfl, by simp [VecOps.named]⟩

theorem wit_UserTableAndOptimiserResults :
    (st0.bk.pipe.vars.any fun v => v.kind == .xlutld) = false ∧
    ((withA 0x2FFE00).effAddr 15 0 % 2 = 0 ∧ (withA 0x2FFE00).effAddr 15 0 + 512 ≤ scratchBytes ∧ plain (withA 0x2FFE00) = true) ∧
    ({ ew := 2, dst := 62, sh := 40, cl := 2, rm := 5 } : VecOps).named ∧ st0.rmode { ew := 2, rm := 5 } ≤ 5 :=
  ⟨by decide, by decide, by simp [VecOps.named], by decide⟩

theorem inScratch_of_plain {s : State} (e : plain s = true) (ts : List Touch) (n : Nat)
    (hs : ∀ t ∈ ts, t.addr + t.len ≤ scratchBytes ∧ t.addr % n = 0) : s.inScratch ts n := ⟨hs, badTrap_of_plain e ts⟩

/-- A15 at the last 8 bytes of scratchpad, and at the last 32. -/
theorem wit_ScratchpadScalarResults :
    (withA 0x2FFFF8).inScratch [{ addr := 0x2FFFF8, len := 8, write := false }] 8 ∧ (withA 0x2FFFF8).effAddr 15 0 = 0x2FFFF8 ∧
    (withA 0x2FFFE0).inScratch [{ addr := 0x2FFFE0, len := 32, write := true }] 32 ∧ (withA 0x2FFFE0).effAddr 15 0 = 0x2FFFE0 ∧
    trecOk (trecClean (ofLeBytes (st0.scratch 0 32))) = true ∧
    (∀ p, p.out = .go → (withA 0x2FFFF8).clear h0 p ∧ (withA 0x2FFFF8).dirtied p = .ok (withA 0x2FFFF8)) := by
  have e : plain (withA 0x2FFFF8) = true := by decide
  have e2 : plain (withA 0x2FFFE0) = true := by decide
  exact ⟨inScratch_of_plain e _ _ (by decide), by decide, inScratch_of_plain e2 _ _ (by decide), by decide, by decide +kernel,
    fun p hp => ⟨clear_of_plain e p hp, dirtied_of_plain e p⟩⟩

/-- A15 at 512 bytes below the end, a stride of 8 bytes in S63; the queue of CPE1 with one block, and with none. -/
theorem wit_ScratchpadVectorResults :
    let s := withRegs fun r => { r with a := [(15, 0x2FFE00)], s := [(63, 8)] }
    plain s = true ∧ (s.vecAcc 15 0 0 0 0 false false).base.isSome = true ∧
    (let k := s.vecAcc 15 0 63 7 4 true true
     ∀ t ∈ k.touches true, t.addr + t.len ≤ scratchBytes ∧ t.addr % k.size = 0) ∧
    (∀ e ∈ idxOps 62 3, e.2.1 < 64) ∧
    (let k := (withA 0).idxAcc 15 0 62 7 4 true true
     ∀ t ∈ k.touches true, t.addr + t.len ≤ scratchBytes ∧ t.addr % k.size = 0) ∧
    ((st0.core 0).cpe 1).decq = [] ∧ ((st0.core 0).cpe 1).streams = 0 := by decide +kernel

/-- A15 at the last aligned 8 bytes, 32 bytes and 64 bytes of the virtual addresses. -/
theorem wit_DirectAccessResults : st0.directFull = false ∧ st0.bk.atExit = true ∧
    (let a := (withA 0x7FFFFFFFFFFFF8).effAddr 15 0
     a % 8 = 0 ∧ a < 2 ^ 55) ∧
    (let a := (withA 0x7FFFFFFFFFFFC0).effAddr 15 0
     a % 64 = 0 ∧ a % 32 = 0 ∧ a < 2 ^ 55) := by decide

/-- V63 parked in slab 9; region 31 mapped over the last sector of scratchpad. -/
def parked0 : State := st0.modBk fun y => { y with parked := [(63, .slab 9)] }
def mapped0 : State := st0.modBk fun y => { y with regions := [(31, some { start := 0x2FF000, len := 4096, va := 0, mode := 0 })] }

theorem clear_of_bool {s : State} {h : Hdr} {p : Plan} (e : (s.bk.predTrue h && (s.bk.planTrap h p).isNone && (s.badRead h p).isNone &&
    (s.bk.touchWaits p.touches).isEmpty && !s.meetsSoft p) = true) : s.clear h p := by
  simp only [Bool.and_eq_true, Option.isNone_iff_eq_none, List.isEmpty_iff, Bool.not_eq_true'] at e
  exact ⟨e.1.1.1.1, e.1.1.1.2, e.1.1.2, e.1.2, e.2⟩

theorem wit_ParkAndRegionResults :
    ((st0.core st0.cf).lowest 1).isSome = true ∧ (st0.modCore 0 fun x => { x with accFree := [(4095, true)] }).freeRow = some 4095 ∧
    (Tab.get .none parked0.bk.parked 63 = .slab 9 ∧ parked0.clear h0 { locR := [.slab 9], locW := [.v 63] }) ∧
    (let s := withRegs fun r => { r with a := [(15, 0x2FF000)], s := [(62, 0x7FFFFFFFFFF000), (63, 4096)] }
     plain s = true ∧ s.effAddr 15 0 + (s.rg.rs 63).toNat ≤ scratchBytes ∧ s.effAddr 15 0 % 4096 = 0 ∧ (s.rg.rs 62).toNat % 4096 = 0 ∧
     (s.rg.rs 62).toNat < 2 ^ 55 ∧ (s.rg.rs 63).toNat ≠ 0 ∧ s.bk.region 31 = none ∧ s.bk.mapped = []) ∧
    ((mapped0.bk.region 31).isSome = true ∧ mapped0.clear h0 {}) ∧
    (st0.bk.region 31 = none ∧ st0.bk.checks = false ∧ st0.noBad = true) := by
  refine ⟨by decide, by decide, ⟨by decide, clear_of_bool (by decide)⟩, by decide, ⟨by decide, clear_of_bool (by decide)⟩, by decide⟩

theorem wit_PushResults : st0.bk.atExit = true ∧ 56 + 7 < 64 ∧
    st0.clear h0 (foot ((List.range 8).map fun k => (.s, 56 + k, 1)) [(.s, 63, 0), (.p, 7, 4)]) :=
  ⟨by decide, by decide, clear0 _ rfl⟩

/-- Registers M1 dense INT8, M2 and M3 low-rank of one component, M4 empty. -/
def withM : State := withRegs fun r => { r with m := [(1, { kind := 1, fmt := 2, slabs := List.range 32 }),
  (2, { kind := 2, rank := 1, slabs := [40] }), (3, { kind := 2, rank := 1, slabs := [41] })] }

theorem wit_MatrixPlaneResults : plain withM = true ∧ (withM.rg.rm 1).kind = 1 ∧ (withM.rg.rm 2).kind = 2 ∧
    withM.bk.loading = false ∧ (withM.core 0).arrayBusy = 0 ∧ withM.rampSpent = false ∧ withM.bk.planePending = [] := by decide

theorem wit_plane_densify : scaleOk (densify ((withM.core 0).factors (withM.rg.rm 2)) 0 0).2.1 = true := by decide +kernel

theorem wit_ProductIsSumOfProducts : (List.replicate 128 (-128 : Int)).length = 128 := List.length_replicate

/-- C31 may be named; the record of T3 is INT8 and names no side bytes; A15 is at 128 lines below the end. -/
def mat0 : State := withRegs fun r => { r with a := [(15, 0x2FC000)], t := [(3, staleRec), (4, 4)], m := withM.rg.m, s := [(63, 0)] }

theorem plain_mat0 : plain mat0 = true := by decide

theorem wit_MatrixProductResults : mat0.bk.task.gang.length ≤ 1 ∧ mat0.tileOpen 31 ∧ 127 + 1 ≤ 128 ∧ 0 + 128 ≤ 128 ∧
    (mat0.core 0).arrayBusy = 0 ∧ mat0.rampSpent = false ∧ trecFmt (mat0.rg.rt 3) = 2 ∧
    mat0.accessTrap (lineTouches (mat0.matAddr 15 0) 128 128 128 false) 16 = none ∧
    mat0.accessTrap (sideTouch (mat0.rg.rt 3) (4 * 128) false) 1 = none := by
  refine ⟨by decide, ⟨by decide, by decide⟩, by decide, by decide, by decide, by decide, by decide, ?_, by decide⟩
  unfold State.accessTrap
  rw [show boundsTrap (lineTouches (mat0.matAddr 15 0) 128 128 128 false) 16 = none by decide +kernel]
  exact badTrap_of_plain plain_mat0 _

theorem wit_AccumulatorResults : mat0.tileOpen 31 ∧ (mat0.rg.rs 63).toInt = 0 ∧
    scaleOk ((shiftFor (trecCensus staleRec) (trecHead staleRec) (trecFmt staleRec) : Nat) : Int) = true ∧ trecRnd staleRec ≤ 5 ∧
    mat0.dirtied {} = .ok mat0 :=
  ⟨⟨by decide, by decide⟩, by decide, by decide, by decide, dirtied_of_plain plain_mat0 _⟩

theorem wit_TileTransferResults : ((mat0.core 0).lowest (denseSlabs 2)).isSome = true ∧ (mat0.rg.rm 1).kind = 1 ∧
    (mat0.rg.rm 2).kind ≠ 1 ∧ mat0.matAddr 15 0 % 16 = 0 ∧ mat0.pitch 0 2 = lineBytes 2 ∧ mat0.pitch 63 2 = 0 ∧
    mat0.accessTrap [{ addr := mat0.matAddr 15 0, len := 512, write := true }] 16 = none := by
  refine ⟨by decide, by decide, by decide, by decide, by decide, by decide, ?_⟩
  unfold State.accessTrap
  rw [show boundsTrap [{ addr := mat0.matAddr 15 0, len := 512, write := true }] 16 = none by decide]
  exact badTrap_of_plain plain_mat0 _

/-- RMAX is 64 at reset with room for 64 components; with RMAX = 1 two components are above it. -/
def rmax1 : State := mat0.modBk fun y => { y with cregs := { y.cregs with cctl := 0x104 } }

theorem wit_LowRankSums : (mat0.rg.rm 4).kind ≠ 1 ∧ trecFmt (mat0.rg.rt 4) = 4 ∧ (mat0.rg.rm 2).eg = (mat0.rg.rm 3).eg ∧
    (mat0.rg.rm 2).eh = (mat0.rg.rm 3).eh ∧ cctlRmax mat0.bk.cregs.cctl = 64 ∧ cctlRmax rmax1.bk.cregs.cctl = 1 ∧ plain rmax1 = true ∧ ((mat0.core 0).lowest 64).isSome = true ∧
    mat0.accessTrap [{ addr := mat0.matAddr 15 0, len := 512, write := false }] 16 = none := by
  refine ⟨by decide, by decide, by decide, by decide, by decide, by decide, by decide, by decide, ?_⟩
  unfold State.accessTrap
  rw [show boundsTrap [{ addr := mat0.matAddr 15 0, len := 512, write := false }] 16 = none by decide]
  exact badTrap_of_plain plain_mat0 _

theorem wit_LowRankProducts : (mat0.rg.rm 2).kind = 2 ∧ mat0.matMode 3 5 false ≤ 5 ∧ mat0.matMode 3 4 false = 4 ∧
    (mat0.core 0).lowest 0 = some [] ∧ ((mat0.core 0).lowest 32).isSome = true ∧ (mat0.rg.rm 1).slabs.length = 32 ∧
    (mat0.rg.rm 63).kind = 0 ∧ scaleOk ((mat0.rg.rm 2).eh + (mat0.core 0).plane.scale + 63) = true := by decide

theorem wit_TileUpkeepResults : (mat0.core 0).recomping = false ∧ (mat0.rg.rm 2).slabs[0]? = some 40 ∧ (mat0.rg.rm 2).slabs.length ≤ 1 ∧
    mat0.inPart 31 = true ∧ (mat0.core 0).lowest 1 = some [0] := by decide

/-- A gang of two cores: this one leads, the other has arrived at the chain with the same rows. -/
def chain0 : State :=
  let s := mat0.modBk fun y => { y with task := { y.task with gang := [0, 1] } }
  let y := s.bk
  s.setCore 1 { (s.core 1) with bank0 := { y with
    state := .blocked .chain, task := { y.task with chains := 1, chainAt := some { fmt := 2, cnt := 1 } } } }

theorem wit_ChainHeadResults : 1 < chain0.bk.task.gang.length ∧ chain0.leads = true ∧
    chain0.chainMet (chain0.bk.task.chains + 1) = true ∧ chain0.tileOpen 31 ∧ plain chain0 = true ∧ chain0.rampSpent = false :=
  ⟨by decide, by decide, by decide, ⟨by decide, by decide⟩, by decide, by decide⟩

/-! ### Schedule words -/

/-- Thread 0 of die 0 about to issue a word. -/
def th0 : State := State.reset.withWord 0

def withThread (f : LThread → LThread) : State := th0.modCle 0 fun x => x.modThread 0 f

def member0 : Group := { gid := 65535, inc := 0, ctx := 0, members := [(0, 0), (0, 1)], self := 0 }

/-- Slot 63 holds a group of two dies; chunk 15 is 64 bytes at 0, chunk 14 is 128 bytes at 0. -/
def joined : State := (withThread fun h => { h with chunks := [(14, { rlen := 128, nrow := 1 }), (15, { rlen := 64, nrow := 1 })] }).modCle 0
  fun x => { x with groups := [(63, some member0)], tiles := [(4095, BitVec.ofNat 256 (2 ^ 182 + 63 * 2 ^ 160 + 64 * 2 ^ 128))] }

theorem onThread_of {s : State} (h : s.focus = .thread 0 0) (h2 : (s.cle 0).mayIssue 0 = true) : s.onThread 0 0 := ⟨h, h2⟩

theorem wit_onThread : th0.onThread 0 0 ∧ joined.onThread 0 0 :=
  ⟨onThread_of (by decide) (by decide), onThread_of (by decide) (by decide)⟩

theorem wit_ScheduleWordResults :
    ((th0.cle 0).thread 0).start.isSome = true ∧
    good (th0.loadBytes ((th0.cle 0).threadMover 0 0) ((0 + 8 * 1) % 2 ^ 55) 8) = true ∧
    (let s := withThread fun h => { h with loops := [(3, 1)] }
     (Tab.get 0 ((s.cle 0).thread 0).loops 3 + 2 ^ 32 - 1) % 2 ^ 32 = 0) ∧
    (Tab.get 0 ((th0.cle 0).thread 0).loops 3 + 2 ^ 32 - 1) % 2 ^ 32 ≠ 0 ∧
    (0 : Int) ≤ (((th0.cle 0).thread 0).pos : Int) + (0 : BitVec 24).toInt ∧
    (((th0.cle 0).thread 0).pos : Int) + (-1 : BitVec 24).toInt < 0 ∧
    (0 ≤ (th0.cle 0).counter 255 ∧ (th0.cle 0).counter 255 < 1) ∧
    Tab.get 0 (th0.cle 0).flags 4095 = 0 ∧ Tab.get 0 ((th0.modCle 0 fun x => { x with flags := [(4095, 1)] }).cle 0).flags 4095 ≠ 0 ∧
    (th0.cle 0).opsOf 0 = [] ∧ ((th0.cle 0).thread 0).alls = [] ∧
    ((th0.modCle 0 fun x => x.addOp { id := 0, thread := some 0, kind := .copy, ctx := 0 }).cle 0).opsOf 0 ≠ [] := by decide +kernel

theorem wit_TransferWordResults :
    (joined.cle 0).opsFull 0 = false ∧ (joined.cle 0).group 63 = some member0 ∧ member0.failed = [] ∧
    ((joined.cle 0).chunk 0 15).bad false 1 = false ∧ ((joined.cle 0).chunk 0 15).bad false 4 = false ∧
    ((joined.cle 0).chunk 0 15).bad true 1 = false ∧ ((joined.cle 0).chunk 0 14).bad true 1 = false ∧
    ((joined.cle 0).chunk 0 15).shape.total ≠ ((joined.cle 0).chunk 0 14).shape.total ∧ ((joined.cle 0).chunk 0 0).bad true 1 = true ∧
    (joined.cle 0).group 0 = none ∧ member0.member 1 = 1 := by decide

theorem wit_GroupWordResults :
    ((joined.cle 0).opsOf 0 = [] ∧ ((joined.cle 0).thread 0).alls = []) ∧
    ((joined.cle 0).group (tileGs ((joined.cle 0).tile 4095)) = some member0 ∧ (joined.cle 0).entryBad 4095 = false ∧
      (joined.cle 0).fieldsUsable 4095 = true ∧ (joined.cle 0).opsFull 0 = false) ∧
    (let s := withThread fun h => { h with chunks := [(0, { addr := 0x100, rlen := 4, nrow := 1 })] }
     let x := s.cle 0
     x.group 63 = none ∧ x.nextInc 65535 = 0 ∧ (x.chunk 0 0).bad false 1 = false ∧ (x.chunk 0 0).shape.total = 4 ∧
     (match s.streamLoad (x.threadMover 0 0) (x.chunk 0 0).shape 5 0 4 with
      | .ok (l, _) => decide (membersOf l = [(0, 0)])
      | .error _ => false) = true ∧ s.modn = 0 ∧ x.early = []) ∧
    (let s := joined.modCle 0 fun x => x.modThread 0 fun h => { h with draining := true }
     ((s.cle 0).thread 0).draining = true ∧ member0.drained = false ∧ { member0 with drains := [0, 1] }.drained = true) := by decide +kernel

/-! ### Events of a bank -/

def withPipe (f : Pipe → Pipe) : State := st0.modBk fun y => y.modPipe f

/-- An operation whose result is known. -/
def done1 (k : VarKind) : VarOp :=
  { id := 1, kind := k, pc := 0, slot := 0, bundle := 0, segNo := 0, sb := 0, earliest := 0, latest := none, reg := none
    writes := some [], late := none }

theorem wit_CompletionEvents :
    let s (b : Nat) (ws : List Write) (k : VarKind) : State :=
      st0.modBank 0 b fun y => y.modPipe fun q => { q with vars := [{ done1 k with writes := some ws, late := some (0x23, 5) }] }
    let fits (b : Nat) (ws : List Write) (k : VarKind) : Bool :=
      let t := s b ws k
      let x := t.bankAt 0 b
      match x.varOp 1 with
      | some v => decide (v.writes = some ws ∧ v.kind = k ∧ v.earliest ≤ (t.core 0).cycle ∧ v.dropped = false ∧ v.late = some (0x23, 5) ∧
          x.pipe.pend = [] ∧ x.pipe.landed = [] ∧ (b = 1 → (t.bankAt 0 0).varOp 1 = none))
      | none => false
    ([VarKind.xlut, .ldg, .amo, .tldGlobal, .mrecomp].all fun k => fits 0 [.s 0 5] k && fits 1 [.s 63 5] k && fits 1 [] k) = true ∧
    fits 0 [.v 63 1 1] .xlut = true ∧ fits 0 [.t 15 1 1] .tldGlobal = true ∧ fits 0 [.activate] .xlutld = true ∧
    (let x := (s 0 [.activate] .xlutld).bankAt 0 0
     (x.pipe.vars.find? fun w => w.kind == .xlutld).isSome = true ∧ x.pipe.nextIssue ≤ x.pipe.clk) := by decide +kernel

/-- A result that is due. -/
def due1 (latch : Bool) : Pending := { due := 0, slot := 0, seq := 0, bundle := 0, segNo := 0, latch := latch, writes := [.s 1 5] }

def landing (l : Bool) : State := withPipe fun q => { q with clk := 5, nextIssue := 5, pend := [due1 l] }

def trapping (k : Nat) : State := withPipe fun q => { q with late := [{ cause := k }] }

theorem wit_results_and_traps :
    (landing false).bk.dueResult = some (due1 false) ∧ (landing true).bk.dueResult = some (due1 true) ∧
    (trapping 0x41).bk.trapDue = some { cause := 0x41 } ∧ ({ cause := 0x41 } : Trap).switches = false ∧
    (trapping 0x13).bk.trapDue = some { cause := 0x13 } ∧ ({ cause := 0x13 } : Trap).switches = true := by decide

/-- The other bank of core 0 is ready. -/
def twoBanks : State := st0.modBank 0 1 fun y => { y with state := .ready, pipe := {} }

theorem wit_bankSwitch :
    let s := twoBanks.modBank 0 0 fun y => { y with state := .blocked .phase }
    let x := s.core 0
    (s.bankAt 0 0).trapDue = none ∧ x.cur = 0 ∧ (x.bank 0).alive = false ∧ (x.bank 1).alive = true := by decide

theorem wit_timeSlice :
    let s := twoBanks.modBank 0 0 fun y => { y with task := { y.task with slice := 2048 } }
    let x := s.core 0
    x.cur = 0 ∧ (x.bank 0).alive = true ∧ 2048 ≤ (x.bank 0).task.slice ∧ (x.bank 1).state = .ready ∧
    (x.bank 1).level = (x.bank 0).level ∧ (x.bank 0).atBoundary = true := by decide

/-- A bank in a segment with a rewind point. -/
def rewindable : State := withPipe fun q => { q with
  entry := some { regs := st0.rg, cctl := 0, cstat := 0, tol := 0, seed := 0, draw := 0, parked := [], regions := [], gen := false, activePlane := false, accFree := []
                  pc := 0, seg := none, clk := 0, latches := [] } }

def committed1 : State := withPipe fun q => { q with segNo := 1, pend := [{ due1 false with seq := 9, due := 90 }] }

theorem wit_rewind_and_replay :
    let s := rewindable
    s.bk.state ≠ .empty ∧ s.bk.pipe.entry ≠ none ∧ (s.core 0).injectsTwo 4 = false ∧ s.bk.pipe.rewinds < 2 ∧
    ((s.logCheck 0 0 4 false).rewind 0 0).isSome = true ∧ committed1.bk.oldResult = some { due1 false with seq := 9, due := 90 } ∧
    (committed1.core 0).injectsTwo 0 = false ∧ committed1.bk.pipe.replayed.1 ≠ 9 := by decide

theorem wit_watchdog_and_timeouts :
    let s := st0.modCore 0 fun x => { x.setBank 0 { x.bank0 with task := { x.bank0.task with wdog := 2048 } } with
      cregs := { x.cregs with wdog := 2 } }
    let n := bitsN (s.core 0).cregs.wdog.toNat 0 32
    let r := st0.modBk fun y => { y with
      state := .blocked .rendezvous, task := { y.task with rdvAt := some 7 }, pipe := { y.pipe with held := 2 ^ 24 + 1 } }
    let k := st0.modBk fun y => { y with
      state := .blocked .chain, task := { y.task with chainAt := some {} }, pipe := { y.pipe with held := 2 ^ 24 + 1 } }
    (s.bk.state ≠ .empty ∧ s.bk.monitor = false ∧ n ≠ 0 ∧ 1024 * n ≤ s.bk.task.wdog ∧ s.bk.task.barked = false) ∧
    (r.bk.task.rdvAt = some 7 ∧ r.bk.state = .blocked .rendezvous ∧ 2 ^ 24 < r.bk.pipe.held) ∧
    (k.bk.task.chainAt.isSome = true ∧ k.bk.state = .blocked .chain ∧ 2 ^ 24 < k.bk.pipe.held) := by decide

theorem wit_commit_and_fetch :
    (let y := (withPipe fun q => { q with commit := some (3, []) }).bk
     y.pipe.commit = some (3, []) ∧ (y.pipe.mismatch.any fun e => e.2.2.isNone) = false) ∧
    (let s := st0.modCore 0 fun x => { x with loop0 := none, loop1 := none }
     s.bk.state ≠ .empty ∧ (s.core 0).whole s.bk.task.launch 0 = none ∧ good (s.fetchSegment 0 0 0) = true) := by decide +kernel

/-- AADDI A3, A0, 8 with AS set is the bundle ahead. -/
def stream0 : State := State.reset.withSyllable (encodeNat (.aaddi { asMark := true, e := true } 3 0 8)).2

theorem wit_AddressStreamEvent :
    let y := stream0.bankAt 0 0
    let s1 := stream0.modCore 0 fun x => { x with spec := [], specPc := some y.pc }
    let t := stream0.modCore 0 fun x => { x with specPc := some (y.pc + 1) }
    let past (s : State) (p : Nat) : List (List Instr) := s.bundlesTo 0 0 p 33 y.pc
    (stream0.core 0).cur = 0 ∧ cctlAse y.cregs.cctl = true ∧ y.state ≠ .empty ∧ (stream0.core 0).specPc = none ∧
    (match y.seg, s1.bundleAt 0 0 8 y.pc with
     | some g, some l => decide ((past s1 y.pc).length < 32 ∧ g.idx + (past s1 y.pc).length ≤ g.hdr.len) &&
         s1.streamReady 0 0 ((past s1 y.pc).map (outsideDests s1)).flatten l &&
         decide (g.hdr.len < g.idx + (past t (y.pc + 1)).length)
     | _, _ => false) = true := by decide

/-! ### Tasks, launches and phases -/

def nest1 : Nest := (st0.launch 1).nest

theorem wit_admission :
    let q : QEntry := .fresh 1 0 [0] 0 3 0
    let r : QEntry := .record 1 0 0 3 0 []
    let s (q : QEntry) := (State.reset.setLaunch 1 { nest := nest1 }).modCore 0 fun x => { x with runQ := [q] }
    (headEntry ((s q).requeue 0 |>.core 0).runQ = some q ∧ ((s q).requeue 0 |>.core 0).emptyBank?.isSome = true ∧
      ((s q).requeue 0).gangBank 0 1 0 = some (0, q)) ∧
    (headEntry ((s r).requeue 0 |>.core 0).runQ = some r ∧ ((s r).requeue 0 |>.core 0).emptyBank? = some 0 ∧
      ((s r).requeue 0).fits 0 0 (((s r).requeue 0).launch 1).nest = true) := by decide

theorem wit_preemption :
    let s := twoBanks.modCore 0 fun x => { x with runQ := [.fresh 1 0 [0] 0 9 0] }
    let r := s.requeue 0
    let x := r.core 0
    x.victim = some 1 ∧ x.freeArea = some 0 ∧ x.preempts = true ∧ r.savable 0 1 = true := by decide

/-- A context of bank 0 saved in area 0. -/
def saved0 : State := State.reset.modCore 0 fun x => { x with
  saved := [{ area := 0, addr := 0x100000, seq := 0, bankNo := 0, bank := { cregs := { taskPrio := 3 }, task := { launch := 1 } }, tiles := [5] }] }

theorem wit_resume :
    let r := saved0.requeue 0
    let x := r.core 0
    (match x.saved with
     | [v] => decide (headEntry x.runQ = some (.saved 0 3 0) ∧ v.area = 0 ∧ v.slabsOut = [] ∧ v.planes = none ∧
        (x.bank v.bankNo).state = .empty ∧ r.fits 0 v.bankNo (r.launch v.bank.task.launch).nest = true ∧ v.settled = true ∧
        r.linkUp v.addr saveSize 0 = true ∧ (v.parts.findSome? fun e => r.badIn (v.addr + e.1) e.2) = none ∧
        v.tiles.contains 5 = true ∧ v.tilesOut.contains 5 = false)
     | _ => false) = true := by decide

theorem wit_lazy_writeout :
    let s := saved0.modCore 0 fun x => { x with saved := x.saved.map fun v => { v with
      bank := { v.bank with regs := { m := [(1, { kind := 1, slabs := [7] })] } } } }
    (match (s.core 0).saved with
     | [v] => v.inPool.contains 7
     | _ => false) = true := by decide

theorem wit_blocked_save :
    let f (n : Nat) (y : Bank) : Bank := { y with state := .blocked .phase, task := { y.task with blocked := n, gang := [0] } }
    let s := twoBanks.modCore 0 fun x => { x with
      bank0 := f 9 x.bank0, bank1 := f 5 x.bank1, bothBlocked := 4096, runQ := [.fresh 1 0 [0] 0 0 0] }
    let z := s.core 0
    z.bank0.waitsOthers = true ∧ z.bank1.waitsOthers = true ∧ 4096 ≤ z.bothBlocked ∧ z.runQ ≠ [] ∧
    (z.bank 0).task.gang.length ≤ 1 ∧ z.freeArea = some 0 ∧ s.savable 0 0 = true := by decide

theorem wit_aging :
    let s := twoBanks.modBank 0 1 fun y => { y with task := { y.task with waited := 2 ^ 20 } }
    (s.bankAt 0 1).state = .ready ∧ 2 ^ 20 ≤ (s.bankAt 0 1).task.waited := by decide

/-- A launch of one task on core 0, not yet placed. -/
def placing : State := State.reset.setLaunch 1 { nest := nest1 }

theorem wit_place_fresh :
    placing.placeTurn 1 = true ∧ placing.runnable 1 = none ∧ placing.freshPlace (placing.launch 1) = some 0 := by decide +kernel

def rec1 : Record := { slot := 0, order := 0, launch := 1, wid := 0, prio := 0, wait := none }

theorem wit_place_record :
    let s := placing.setStore 0 [rec1]
    s.placeTurn 1 = true ∧ s.runnable 1 = some (0, rec1) ∧ s.pickHead (s.launch 1).nest (fun _ => true) = some 0 := by decide +kernel

/-- A LAUNCH entry of queue 3 has started; its nest lies at 0x50000 of context 0. -/
def asking : State := st0.modFe 3 fun x => { x with
  entries := [{ n := 0, typ := 1, dsig := false, dev := 0, opnd := 0, addr := 0, argo := 0, ctx := 0, ref := 0 }] }

theorem wit_accept :
    (asking.ask 3).isSome = true ∧ asking.enumerating < 64 ∧ asking.nestWaits 3 = false ∧
    (match asking.translateFresh 0 0 0 .read true false with
     | .ok (p, u) => u.linkUp p 128 0 && (u.badIn p 128).isNone
     | .error _ => false) = true ∧ 0 % 128 = 0 := by decide +kernel

theorem wit_launchComplete :
    let s := State.reset.setLaunch 1 { nest := nest1, next := 1, source := .queue 3 0 }
    s.hasLaunch 1 = true ∧ (s.launch 1).finished = true ∧ (s.launch 1).killed = 0 ∧ (s.launch 1).source = .queue 3 0 := by decide

theorem wit_PhaseReleases :
    let y : Bank := { state := .blocked .phase, task := { launch := 1, waitPhase := some (6, 1) } }
    let s := (State.reset.setLaunch 1 { nest := nest1, next := 1, arrivals := [(6, 1)] }).setCore 0 { bank0 := y }
    s.hasLaunch 1 = true ∧ 6 ≤ 7 ∧ ((s.phaseLaunches 1 6).all fun e => e.2.partyThere 6 0 1) = true ∧
    s.phaseSettled 1 6 0 1 = true ∧ s.records = [] ∧ (s.cores.map (·.1)).Nodup ∧
    tabOk (fun _ => ({} : Core)) s.cores = true ∧ (s.cores.any fun e => e.1 == 0) = true ∧
    s.waitsPhase 1 6 0 1 (s.core 0).bank0 = true := by decide

/-! ### The front end -/

/-- Queue 3 with an entry of this type at its head. -/
def fe (typ opnd : Nat) : State :=
  { State.reset with mem := memWrite [] 0x8000 (leBytes 8 (typ + opnd * 2 ^ 32)) }.modFe 3 fun x =>
    { x with base := 0x8000, size := 64, running := true, tail := 1 }

theorem wit_FrontEndEvents :
    ([1, 2, 3, 4, 5, 9].all fun k => ((fe k 1).feTurn 3).any fun n => feType n == k && feOpnd n == 1) = true ∧
    (((fe 5 0).feTurn 3).any fun n => !(feOpnd n).testBit 0) = true ∧
    (fe 1 0).badIn ((fe 1 0).feQueue 3).at 32 = none ∧ ((fe 3 0).feQueue 3).running = true ∧
    (State.reset.feQueue 15).running = false ∧ ringSizeOk 65536 = true ∧ ((fe 3 0).feQueue 3).size ≠ 0 ∧
    (((fe 3 0).feTurn 3).any fun n => (((fe 3 0).feStart 3 n).badIn (bitsN n 64 64 % 2 ^ 52) 64).isNone) = true := by decide
/-! ### Memory -/

theorem wit_fill_and_writeback :
    let f : Fill := { sec := 1, home := 0x20000 }
    let g : Region := ({ start := 0, len := 8192, va := 0, mode := 0, fills := [f] } : Region).setSec 1 .fill
    let s := st0.modBk fun y => y.setRegion 3 (some g)
    let o : VarOp := { done1 .writeback with writes := some [.home 0x30000 [1#8]] }
    let t := withPipe fun q => { q with vars := [o] }
    ((s.bankAt 0 0).region 3 = some g ∧ g.fills.find? (fun f => f.sec == 1) = some f ∧ s.pace = none ∧ s.linkUp 0x20000 4096 1 = true ∧
      (s.bankAt 0 0).backBefore f.after f.home = false ∧ g.secState f.sec = .fill ∧ s.noBad = true) ∧
    (t.writebackOf 0 1 = some o ∧ t.pace = none) := by decide +kernel

def load1 : Direct := { bank := 0, ctx := 0, task := true, kind := .ldg, va := 0, len := 8, bytes := [], op := 0, uns := false, operand := 0
                        expected := 0, sx := false, reg := ⟨.s, 1⟩, varId := 1 }

theorem wit_direct :
    let s := st0.modCore 0 fun x => { x with direct := [load1] }
    (s.core 0).firstDirect 0 = some load1 ∧ s.pace = none ∧
    (match s.directHomes 0 0 AccKind.read true 0 (pageParts 0 8) with
     | .ok (l, u) => (u.modCore 0 fun x => x.putDirect 0 { load1 with homes := l }).noBad
     | .error _ => false) = true := by decide +kernel

/-- With no error anywhere no range is bad. -/
theorem noBad_ranges {s : State} (e : s.noBad = true) (a n : Nat) : s.badIn a n = none ∧ s.badPart a n = none := by
  simp [State.badIn, State.badPart, e]

theorem wit_windows :
    0xFFFFF8 + 8 ≤ 0x1000000 ∧ State.reset.badIn (coreWindow 511 + 0xFFFFF8) 8 = none ∧ State.reset.badPart (coreWindow 511 + 0xFFFFF8) 8 = none ∧
    State.reset.linkUp (bitsN State.reset.mgmt.winBase.toNat 36 5 * 2 ^ 36 + 64) 8 0 = true := by decide

theorem wit_sweep : (0x0000_0000_2000_0201 : Word).toNat.testBit 0 = true ∧ 0 < bitsN (0x2000_0201 : Word).toNat 8 20 ∧
    0 < bitsN (0x2000_0201 : Word).toNat 28 20 := by decide

/-- A MOVE of page 0x10000 to a host frame waits at MIG.HEAD = 0. -/
def migrating (cmd : Nat) : State :=
  { State.reset with mem := memPut [] 0x40000 32 cmd, mod := { State.reset.mod with migTail := 1, migQbase := 0x40000 } }

def move1 : Nat := 1 + 0x10000 * 2 ^ 64 + (3 + 0x5 * 2 ^ 16 + 2 ^ 52) * 2 ^ 128

def claimed : State := { State.reset with migs := [{ n := 2, ctx := 0, va := 0x10000, npte := 0x50003, pte := 0x8000, old := 0x60003, copying := true }] }

theorem wit_migration :
    ((migrating 0).migReady = true ∧ (migrating 0).badIn ((migrating 0).migAddr 0) 32 = none ∧ migOk (migrating 0).migCmd = false) ∧
    (claimed.migs.find? (fun m => m.n == 2)).isSome = true ∧ (claimed.migOf 2).isSome = true ∧
    (claimed.cores.any fun e => e.2.bank0.usesFrame 0x60000) = false ∧ claimed.badIn 0x60000 65536 = none := by decide

theorem wit_scrub : let s := { State.reset with bad := [(0x60000 / 8, true)], mem := memWrite [] (frameFlags 6) [1#8] }
    s.badIn (6 * 65536) 65536 = some 0x60000 ∧ (s.frame 6).testBit 0 = true := by decide +kernel

theorem wit_answers : let s := State.reset.setRing 7 { pending := [(5, .thread 7 1)] }
    (s.ring 7).pending.find? (fun e => e.1 == 5) = some (5, .thread 7 1) := by decide

/-! ### Copy engines -/

/-- A command of a type with these fields beside it: their lowest bits and values. -/
def command (typ : Nat) (l : List (Nat × Nat)) : List Byte := leBytes 64 (word ((0, typ) :: l))

def withCard (d : Card) : State := st0.modEngine 0 1 fun g => { g with cards := [d] }

theorem wit_jobs :
    ([1, 2, 3, 4, 5, 7].all fun t => let d : Card := { k := 4, cmd := command t [], cur := command t [], started := true, moving := true }
      (withCard d).card 0 1 4 == some d && d.type == t && cmdType (ofLeBytes d.cur) == t && d.status == none && d.fault == none) = true ∧
    ([6, 8].all fun t => let d : Card := { k := 4, cmd := command t [], cur := command t [] }
      (withCard d).card 0 1 4 == some d && d.type == t && (withCard d).mayStart 0 1 d) = true := by decide

theorem wit_decode : let d : Card := { k := 4, cmd := command 6 [], cur := command 6 [], started := true, moving := true, stream := true }
    ((withCard d).engine 0 1).decoding = some d ∧ d.fault = none ∧ d.type = 6 := by decide

theorem wit_micro : let d : Card := { k := 4, cmd := command 7 [], cur := command 7 [], started := true, moving := true }
    let s := (withCard d).modEngine 0 1 fun g => g.modMicro fun m => { m with job := some 4, live := true, ifree := 3, cycle := 2 ^ 32 }
    let m := (s.engine 0 1).micro
    s.card 0 1 4 = some d ∧ m.job = some 4 ∧ m.live = true ∧ m.exit = none ∧ m.needHold = none ∧ m.markHold = none ∧ m.ifree ≤ 3 ∧
    2 ^ 32 ≤ m.cycle := by decide

theorem wit_jobComplete : let d : Card := { k := 4, cmd := command 1 [], cur := command 1 [], started := true, status := some 0 }
    (withCard d).card 0 1 4 = some d ∧ (withCard d).followDone 0 1 d = true ∧ (withCard d).owes ⟨0, 1, 4⟩ = false := by decide +kernel

theorem wit_jobFault : let d : Card := { k := 4, cmd := command 1 [], cur := command 1 [], started := true, fault := some (0x10000, 1, 0) }
    (withCard d).card 0 1 4 = some d ∧ d.fault = some (0x10000, 1, 0) ∧ d.posted = false := by decide

theorem wit_routineLoad : (State.reset.engine 0 1).loading = false ∧ (State.reset.engine 0 1).copyBusy = false ∧
    (1 : Word).toNat.testBit 0 = true ∧
    (let s := st0.modEngine 0 1 fun g => { g with loading := true, loadFrom := 0x70000 }
     (s.engine 0 1).loading = true ∧ s.badIn (s.engine 0 1).loadFrom 65536 = none) := by decide

/-- A chain of two entries at scratchpad 0 whose second region and write region are scratchpad 0x1000 to 0x3000; `e` stands at
entry 1. -/
def chainOf (e : List Byte) : State × Card :=
  let d : Card := { k := 4, cmd := command 8 [(127, 1), (255, 1), (192, 0x1000), (256, 2), (288, 0x1000), (191, 1), (128, 0x2000), (320, 0x1000)]
                    started := true, entry := 1 }
  ({ withCard d with mem := memWrite [] (scratchAddr 0 64) e }, d)

theorem wit_chain :
    let loop := chainOf (command 9 [(32, 3)])
    let cond := chainOf (command 10 [(127, 1), (64, 0x1000)])
    let fill := chainOf (command 5 [(191, 1), (128, 0x2000), (256, 64), (288, 1), (304, 1), (320, 1)])
    (loop.1.chainCard 0 1 4 = some loop.2 ∧ loop.2.moving = false ∧ loop.2.entry < cmdLen0 loop.2.num ∧
      (match loop.1.chainEntry 0 loop.2 with
       | .ok n => cmdType n == 9 && decide (bitsN n 16 16 < loop.2.entry) && bitsN n 32 32 != 0
       | .error _ => false) = true) ∧
    (match cond.1.chainEntry 0 cond.2 with
     | .ok n => cmdType n == 10 && ccHolds (bitsN n 8 4) 32 0 (bitsN n 32 32) == some true && (rangeAt (bitsN n 64 64) 4).ok &&
        (rangeAt (bitsN n 64 64) 4).within (rangeAt (cmdAux cond.2.num) (cmdLen1 cond.2.num)) &&
        good (cond.1.loadBytes (cond.2.mover 0 1) (bitsN n 64 64) 4) && decide (cond.2.entry + 1 ≤ cmdLen0 cond.2.num)
     | .error _ => false) = true ∧
    (match fill.1.chainEntry 0 fill.2 with
     | .ok n => cmdType n == 5 && cmdFo n == 0 && cmdOk (fill.2.advance n) && chainFits fill.2.num (fill.2.advance n) &&
        (fill.1.engine 0 1).typeFree { fill.2 with cmd := leBytes 64 (fill.2.advance n) }
     | .error _ => false) = true ∧
    cmdLen0 ({ fill.2 with entry := 2 } : Card).num ≤ 2 := by decide +kernel

/-- A COPY to scratchpad 0x1000 that ended DONE and asks for this follow-on of one row to accumulator row 0. -/
def followed (op reg : Nat) : Card :=
  { k := 4, cmd := command 1 [(191, 1), (128, 0x1000), (480, op + 4 * reg + 256 * 3 + 4096)], cur := [], started := true, status := some 0
    launch := 1 }

def followSt (op reg : Nat) : State := mat0.modEngine 0 1 fun g => { g with cards := [followed op reg] }

theorem wit_followOn_mldw :
    let s := followSt 1 1
    let d := followed 1 1
    let t := s.facing 0 0
    s.card 0 1 4 = some d ∧ d.status = some 0 ∧ d.followed = false ∧ d.type ≠ 6 ∧ s.owes ⟨0, 1, 4⟩ = false ∧ s.pusherBank 0 d = some 0 ∧
    foOp (cmdFo d.num) = 1 ∧ (t.rg.rm (foReg (cmdFo d.num))).kind = 1 ∧ (t.core 0).arrayBusy = 0 ∧ t.rampSpent = false ∧
    t.bk.loading = false ∧ plain t = true := by
  decide +kernel

/-- `tileOpen` and the rest of what an MMA follow-on needs. -/
theorem wit_followOn_mma :
    let s := followSt 2 31
    let d := followed 2 31
    let fo := cmdFo d.num
    let t := s.facing 0 0
    let ad := cmdDst d.num % 2 ^ 22
    let w := t.modBk fun y => { y with regs := y.regs.wa 0 (BitVec.ofNat 64 ad) }
    let r := t.rg.rt (foTr fo)
    let f := trecFmt r
    t.tileOpen 31 ∧ s.card 0 1 4 = some d ∧ s.owes ⟨0, 1, 4⟩ = false ∧ s.pusherBank 0 d = some 0 ∧ foOp fo = 2 ∧ foReg fo = 31 ∧
    foCnt fo ≠ 0 ∧ foIdx fo + foCnt fo ≤ 128 ∧ f ≠ 7 ∧ (t.core 0).arrayBusy = 0 ∧ t.rampSpent = false ∧ plain t = true ∧
    w.accessTrap (lineTouches ad (lineBytes f) (lineBytes f) (foCnt fo) false) 16 = none ∧
    w.accessTrap (sideTouch r (4 * foCnt fo) false) 1 = none :=
  ⟨⟨by decide, by decide⟩, by decide +kernel⟩

theorem wit_followOn_dropped :
    let s := { (withCard (followed 2 31)).modBk (fun y => { y with state := .empty }) with launches := [] }
    s.pusherBank 0 (followed 2 31) = none ∧ s.pusherGone (followed 2 31) = true ∧ s.owes ⟨0, 1, 4⟩ = false := by decide +kernel

/-- A routine at offset 0 of the routine store, on engine 1 of core 0 with PARAM 0x51. -/
def routine (w : Nat) : RvEnv := { store := entriesFrom (fun _ => 0) 0 (leBytes 4 w), ilen := 0, omax := 64, param := 0x51, who := 1 }

def micro0 : Micro := { job := some 4, live := true, odrain := 3 }

/-- R303: ADDI x5, x0, -1 (word 0xFFF00293); SB of x5 to the first byte of the output buffer (0x00530023 with x6 = 0x10028000);
a store to the routine store is an exception. -/
theorem test_routine_instructions :
    ((routine 0xFFF00293).step micro0).rx 5 = minus 1 ∧ ((routine 0xFFF00293).step micro0).pc = 4 ∧
    (let m := (routine 0x00530023).step ((micro0.wx 5 0x1AB).wx 6 0x10028000)
     Tab.get 0 m.obuf 0 = 0xAB#8 ∧ m.exit = none) ∧
    ((routine 0x00530023).step (micro0.wx 5 1)).exit = some 0xFFFF := by decide +kernel

/-- R303: VSETVLI x5, x6, e32, m1 (0x010372D7 with x6 = 100) gives 16 elements of a 512-bit register; VADD.VV v3, v1, v2
(0x021101D7) adds them. -/
theorem test_routine_vector :
    let m := (routine 0x010372D7).step (micro0.wx 6 100)
    m.rx 5 = 16 ∧ m.vl = 16 ∧
    (let a := { m with pc := 0, v := [(1, BitVec.ofNat 512 (packN 32 [5, 2 ^ 32 - 1])), (2, BitVec.ofNat 512 (packN 32 [7, 3]))] }
     Tab.get 0 ((routine 0x021101D7).step a).v 3 = BitVec.ofNat 512 (packN 32 [12, 2])) := by decide +kernel

theorem wit_RoutineSteps :
    (micro0.pc < 0x10000 ∧ micro0.pc % 4 = 0 ∧ (routine 0xFFF00293).load micro0 micro0.pc 4 = some 0xFFF00293 ∧
      0xFFF00293 % 128 = 0x13 ∧ ((routine 0xFFF00293).scalar micro0 0xFFF00293).isSome = true) ∧
    (routine 0x73).load micro0 micro0.pc 4 = some 0x73 ∧
    (let w := 0xCC2 * 2 ^ 20 + 2 * 2 ^ 12 + 7 * 2 ^ 7 + 0x73
     (routine w).load micro0 micro0.pc 4 = some w ∧ (routine w).readCsr micro0 0xCC2 = some 0x51) := by decide +kernel
/-! ### Collective engines -/

/-- Slot 63 of die 0 has joined a group of dies 0 and 1. -/
def cle0 (f : Cle → Cle) : State := State.reset.modCle 0 fun x => f { x with groups := [(63, some member0)] }

def mail (kind : PacketKind) (gid len : Nat) : Packet :=
  { kind := kind, gid := gid, inc := 0, srcMod := 0, srcDie := 1, seq := 0, len := len, val := 0, bytes := [] }

def send1 : LOp := { id := 2, thread := some 5, kind := .send, ctx := 0, gs := 63, peer := 1, src := { rlen := 4, nrow := 1 } }

theorem wit_start_and_counters :
    let q : LStart := { thread := 5, ctx := 0, block := [], src := .sched 0 0 }
    let a := cle0 fun x => { x with startQ := [q] }
    let b := cle0 fun x => { x with adds := [(255, 9)] }
    let p := mail .radd 65535 0
    let r := { (cle0 id) with net := [(0, 0, 2, p)] }
    ((a.cle 0).startQ.find? (fun q => q.thread == 5) = some q ∧ ((a.cle 0).thread 5).st = .idle) ∧
    (b.cle 0).adds = [(255, 9)] ∧
    (r.net.find? (fun e => e.1 == r.modn && e.2.1 == 0 && e.2.2.2.kind == .radd && r.headClass 0 e.2.2.2 == some e.2.2.1) =
      some (r.modn, 0, 2, p) ∧ (r.handlePacket 0 p).isSome = true ∧ ((r.cle 0).slotOf p).any (fun e => (e.2.sender p).isSome) = true) := by
  decide +kernel

theorem wit_packets :
    let p := mail .done 65535 0
    let s := { (cle0 id) with net := [(0, 0, 1, p)] }
    let f := cle0 fun x => { x with inbox := [mail .failure 3 0] }
    (p.srcMod = s.modn ∧ s.headClass 0 p = some 1 ∧ (s.handlePacket 0 p).isSome = true ∧
      (s.handlePacket 0 { p with srcMod := 7 }).isSome = true) ∧
    ((f.cle 0).inbox.find? (fun p => p.kind == .failure && !(f.cle 0).ackBefore p) = some (mail .failure 3 0) ∧ (f.cle 0).slotOf (mail .failure 3 0) = none) := by
  decide +kernel

theorem wit_operation :
    let o : LOp := { send1 with kind := .recv, moved := true, data := some [] }
    let s := cle0 fun x => { x with ops := [o] }
    (s.cle 0).op 2 = some o ∧ o.fault = none ∧ s.owes ⟨0 * 64, 2, 2⟩ = false ∧ o.moved = true ∧ o.data = some [] := by decide +kernel

/-- A COPY of four bytes of the context onto themselves. -/
theorem wit_copyOperation :
    let o : LOp := { send1 with kind := .copy, dst := { rlen := 4, nrow := 1 } }
    let s := joined.modCle 0 fun x => { x with ops := [o] }
    let r := s.moveChunk ((s.cle 0).opMover 0 o) o
    let u := (r.st.flush ⟨0 * 64, 2, o.id⟩ true).modCle 0 fun y => (y.markSat o.thread r.sat).modOp o.id fun _ => { o with pos := r.pos, ahead := r.rd }
    (s.cle 0).op 2 = some o ∧ o.fault = none ∧ r.err.isNone = true ∧ o.dst.shape.total ≤ r.pos ∧ u.owes ⟨0 * 64, 2, o.id⟩ = false := by
  decide +kernel

/-- Contexts and pages as for a schedule; the SEND's four bytes are read there. -/
def matched (len : Nat) : State := joined.modCle 0 fun x => { x with ops := [send1], inbox := [mail .recvPosted 65535 len] }

theorem wit_match : ([4, 8].all fun n =>
    let x := (matched n).cle 0
    decide (x.op 2 = some send1 ∧ x.group send1.gs = some member0 ∧
      x.mail member0 send1.peer .recvPosted send1.seq 0 = some (mail .recvPosted 65535 n))) = true ∧ send1.src.shape.total = 4 ∧
    (let s := matched 4
     let r := s.readLoop ((s.cle 0).opMover 0 send1) send1.src.shape [] (s.pieces send1.src.shape.total) 0
     r.2.err.isNone = true ∧ send1.src.shape.total ≤ r.2.pos) := by decide +kernel

theorem wit_landing :
    let o : LOp := { send1 with kind := .land, thread := none, dst := { rlen := 4, nrow := 1 }, data := some [1#8, 2#8, 3#8, 4#8] }
    let s := joined.modCle 0 fun x => { x with ops := [o] }
    let y := s.cle 0
    y.landing = some (o, y) ∧ y.group o.gs = some member0 ∧
    (let r := s.landLoop (y.opMover 0 o) o.dst.shape o.red [1#8, 2#8, 3#8, 4#8] false (s.pieces 4) o.pos
     let u := (r.st.flush ⟨0 * 64, 2, o.id⟩ true).modCle 0 fun x => (x.markSat o.thread r.sat).modOp o.id fun _ => { o with pos := r.pos }
     r.err.isNone = true ∧ 4 ≤ r.pos ∧ u.owes ⟨0 * 64, 2, o.id⟩ = false) := by decide +kernel

/-! ### Links and management -/

def withPort (f : Port → Port) : State := State.reset.modPort 31 f

def data1 : Flit := mkFlit 0 0xFFFF 1 0 (leBytes 32 7)

theorem wit_flits : flitGood data1 = true ∧ flitType data1 = 1 ∧ flitGood (data1 ^^^ 1) = false ∧
    flitGood (mkFlit 0 0xFFFF 3 0 (leBytes 32 0)) = true ∧ flitType (mkFlit 0 0xFFFF 3 0 (leBytes 32 0)) = 3 ∧
    (State.reset.port 31).st = .up := by decide +kernel

theorem wit_port_states :
    let kept := withPort fun p => { p with replay := [data1], nakIn := true }
    let some4 := withPort fun p => { p with dark := 0xF }
    let most := withPort fun p => { p with dark := 0xFFF }
    ((kept.port 31).nakIn = true ∧ (kept.port 31).replay ≠ [] ∧ (kept.port 31).st = .up ∧
      (kept.port 31).ackNs + 1000 ≤ { kept with ns := 1000 }.ns) ∧
    ((some4.port 31).mask &&& (some4.port 31).dark ≠ 0 ∧ 8 ≤ popMask (maskOff (some4.port 31).mask (some4.port 31).dark)) ∧
    popMask (maskOff (most.port 31).mask (most.port 31).dark) < 8 ∧
    (withPort fun p => { p with st := .restripe }).port 31 = { (State.reset.port 31) with st := .restripe } ∧
    8 ≤ popMask (0x00FF &&& (State.reset.port 31).permit) ∧ popMask (0x007F &&& (State.reset.port 31).permit) < 8 := by decide +kernel

theorem wit_slot_table :
    let s := withPort fun p => { p with staged := true, slotBase := 0x9000 }
    let r := withPort fun p => { p with packets := [{ addr := 0x100, count := 8, src := 3, cls := 0, ctx := 0 }] }
    ((s.port 31).staged = true ∧ (s.port 31).slot = 0 ∧ s.badIn (s.port 31).slotBase.toNat 256 = none) ∧ (r.port 31).packets ≠ [] ∧
    (State.reset.port 15).st = .up ∧ (State.reset.port 28).st = .up := by decide

theorem wit_ManagementEvents :
    State.reset.mgmt.start ≠ .held ∧ State.reset.mgmt.start ≠ .recovery ∧ State.reset.mgmt.staged = none ∧
    (0xFFFF : BitVec 16).toNat < 0x20000 % 2 ^ 16 + 2 ^ 16 ∧
    (5 : BitVec 16).toNat < ((State.reset.mod.rampNext.map (·.1)).getD State.reset.mod.rampStep).toNat % 2 ^ 16 := by decide

theorem wit_AbsentAgents : coreCount ≤ 512 ∧ 32 ≤ 32 ∧ 16 ≤ 16 ∧ 8 ≤ 8 := by decide

/-! ### Whole-machine statements -/

/-- ADD S3, S1, S2 with predicate P7, which is 0, and SBSET 2. -/
def hFalse : Hdr := { pnum := 7, sbset := 2, e := true }

theorem wit_FalsePredicateHasNoEffect :
    let i : Instr := .add hFalse 3 1 2
    let s := State.reset.withSyllable (encodeNat i).2
    ((rawOf i).any fun r => match r with
      | .syllable _ fmt h _ => fmt != .segh && h == hFalse
      | _ => false) = true ∧ s.bk.predTrue hFalse = false := by decide +kernel

theorem wit_placed : (st0.modBk fun y => { y with regs := { y.regs with p := [] } }).placed (.add hFalse 3 1 2) := by
  unfold State.placed; decide

theorem wit_IssueLeavesTheRest : st0.bf < 2 ∧ (flight (exec (.add h0 3 1 2) st0)).length = 1 := by decide

theorem wit_ResultsLand : ({ due1 false with writes := [.s 0 5] } : Pending).writes = [.s 0 5] ∧
    ({ due1 false with writes := [.v 63 1 1] } : Pending).writes = [.v 63 1 1] ∧
    (let s := withPipe fun q => { q with pend := [{ due1 false with writes := [.v 63 1 1] }, { due1 false with seq := 1, writes := [.v 63 2 2] }] }
     (s.bankAt 0 0).pipe.pend.any (fun q => q.seq != 0 && q.due == 0) = true ∧
     ((landing false).bankAt 0 0).pipe.pend.all (fun q => q.seq == 0) = true) := by
  refine ⟨rfl, rfl, by decide +kernel⟩

theorem wit_StoredBytes : isPlain 0x1FFFFFFFFF8 8 = true ∧ isPlain 0xF000000000000 0x300000 = true := by decide +kernel

theorem wit_TakingATrap : st0.bk.monitor = false ∧ monitor0.bk.monitor = true ∧ ({ cause := 0x24 } : Trap).cause ≠ 0x13 := by decide

theorem wit_ReturnFromTrap :
    monitor0.bk.cregs.trapAct.toNat.testBit 0 = false ∧
    ((monitor0.modBk fun y => { y with cregs := { y.cregs with trapAct := 1 } }).bk.cregs.trapAct.toNat.testBit 0 = true) ∧
    (monitor0.bk.cregs.trapPc.toNat % 2 ^ 48 = monitor0.bk.trapAt) ∧
    (let s := monitor0.modBk fun y => { y with trapAt := 5 }
     s.bk.cregs.trapPc.toNat % 2 ^ 48 ≠ s.bk.trapAt ∧ (s.modBank 0 0 fun w => { w with monitor := false }).seghAt 0 0 0 = true) ∧
    (let s := monitor0.modBk fun y => { y with cregs := { y.cregs with trapPc := 1 } }
     s.bk.cregs.trapPc.toNat % 2 ^ 48 ≠ s.bk.trapAt ∧ (s.modBank 0 0 fun w => { w with monitor := false }).seghAt 0 0 1 = false) := by
  decide

theorem wit_StepKeepsMemoryCanonical : st0.memOk = true ∧ (match step st0 with
    | .next _ => true
    | _ => false) = true := by decide +kernel

theorem wit_DecodeOfEncode : let i : Instr := .brc h0 4 5 2 (-16)
    WellFormed i = true ∧ reservedOk i = true ∧ (rawOf i).isSome = true := by decide

/-- ADD S3, S1, S2 with E set, about to issue. -/
def add0 : State := State.reset.withSyllable (encodeNat (.add { e := true } 3 1 2)).2

theorem wit_StepRunsTheDecodedInstruction :
    let s := add0
    let y := s.bankAt 0 0
    let v := (s.switchTo 0 0).modCore 0 fun z => z.useHalf y.task.launch y.segAddr
    s.moves = [] ∧ s.focus = .core 0 ∧ s.mgmt.start = .running ∧ s.ctlQ = [] ∧ s.kills = [] ∧ s.tend 0 0 = none ∧
    s.tend 0 1 = none ∧ (s.core 0).whole y.task.launch y.segAddr = some 0 ∧ 0 ≤ (s.core 0).cycle ∧ (s.core 0).varDue = none ∧ (s.core 0).order = [0] ∧ (s.core 0).cur = 0 ∧
    y.pipe.nextIssue ≤ y.pipe.clk ∧ y.seg.isSome = true ∧
    (match v.fetch 0 0 (y.pc % 2 ^ 48) with
     | .ok w => !isSegh w && wordEnds w && (v.earlyTarget 0 0 { words := [w] }).isNone && (y.wordTrap 0 w).isNone && ((List.range 7).all fun k => !y.regs.rsb k) &&
        (match decodeSyllableNat w with
         | .ok i => i == .add { e := true } 3 1 2 &&
            (match exec i ((v.prepared 0 0).atPlace 0 0 0) with
             | .next u => (u.bankAt 0 0).state != .empty && (u.bankAt 0 0).pipe.ctx.res == .went && (u.fallTrap 0 0).isNone
             | _ => false)
         | .error _ => false)
     | .error _ => false) = true := by decide +kernel

theorem wit_trapped_bundle :
    let s := State.reset.withSyllable (encodeNat (.bfx { e := true } 3 1 60 11 false)).2
    (match s.fetch 0 0 1 with
     | .ok w => (match decodeSyllableNat w with
         | .ok i => (match exec i ((s.prepared 0 0).atPlace 0 0 0) with
             | .next u => (match (u.bankAt 0 0).pipe.ctx.res with
                 | .trapped t => t.cause == 0x24
                 | _ => false) && ((s.prepared 0 0).fallTrap 0 0).isNone
             | _ => false)
         | .error _ => false)
     | .error _ => false) = true := by decide +kernel

theorem wit_thread_word :
    let s := th0
    s.moves = [] ∧ s.focus = .thread 0 0 ∧ (s.cle 0).adds = [] ∧ ((s.cle 0).thread 0).st ≠ .idle ∧ (s.cle 0).mayIssue 0 = true ∧
    good (s.threadWord 0 0) = true := by decide +kernel

theorem wit_event : ({ st0 with moves := [.event .status] } : State).moves = .event .status :: [] := by decide

theorem wit_EndOfBundle :
    st0.bk.seg.isSome = true ∧ st0.bk.pipe.ctx.ctl = none ∧ (st0.bk.seg.any fun g => decide (g.idx = g.hdr.len)) = true ∧
    (withPipe fun q => { q with ctx := { q.ctx with ctl := some .finish } }).bk.pipe.ctx.ctl = some .finish := by decide
/-! ### More states that meet hypotheses -/

/-- Region 31 over the last sector of scratchpad, which is dirty; its page is frame 5. -/
def dirty0 : State := st0.modBk fun y => y.setRegion 31 (some
  (({ start := 0x2FF000, len := 4096, va := 0, mode := 0 } : Region).setSec 0 .dirty))

theorem wit_dirtySector :
    let y := dirty0.bk
    ((y.region 31).any fun r => r.secState 0 == .dirty && r.count == 1 && r.secsOf 0x2FF000 4096 == [0] &&
      (dirty0.badIn (secAddr 0 r 0) 4096).isNone &&
      (match dirty0.translate 0 y.cregs.ctxid.toNat r.va .write (!y.monitor) with
       | .ok (b, u) => u.linkUp b 4096 2 && (u.softIn (secAddr 0 r 0) 4096).isEmpty
       | .error _ => false)) = true ∧
    good (dirty0.captureSecs 0 0 [(31, 0)]) = true ∧ dirty0.clear h0 {} :=
  ⟨by decide +kernel, by decide +kernel, clear_of_bool (by decide +kernel)⟩

theorem wit_planePending :
    let s := withPipe fun q => { q with bundle := 1, pend := [{ due1 false with due := 128, writes := [.plane {}] }] }
    let t := s.modBk fun y => { y with cregs := { y.cregs with cctl := 0x4005 } }
    (s.bk.predTrue h0 = true ∧ s.bk.loading = true) ∧
    ((t.core 0).arrayBusy = 0 ∧ t.bk.checks = true ∧ t.bk.planePending ≠ [] ∧ t.clear h0 {} ∧ t.noBad = true) :=
  ⟨by decide, by decide, by decide, by decide, clear_of_bool (by decide), by decide⟩

/-- A segment whose commit is due with these effects. -/
def committing (l : List Release) : State := withPipe fun q => { q with commit := some (3, l) }

def offer1 (eng : Nat) (q : Bool) : Offer :=
  { slot := 7, tok := 0, eng := eng, cmd := [1#8], full := 7, q := q, varId := 1, seed := 0 }

theorem wit_releases :
    let full (s : State) : State := s.modEngine 0 0 fun g => { g with cards := (List.range 32).map fun k => { k := k, cmd := [] } }
    let o := offer1 0 false
    let told (s : State) : State := s.modBank 0 0 fun z => z.launchResult o.slot 1 [.p o.full false]
    ((committing [.direct load1]).bk.pipe.commit = some (3, [.direct load1]) ∧ ((committing [.direct load1]).core 0).direct.length < 64 ∧
      64 ≤ ((st0.modCore 0 fun x => { x with direct := List.replicate 64 load1 }).core 0).direct.length) ∧
    (committing [.push o]).bk.pipe.mismatch = [] ∧ ((told (committing [.push o])).offer 0 0 o).isSome = true ∧
    ((told (full (committing [.push o]))).offer 0 0 o).isNone = true ∧
    ((told (full (committing [.push o]))).offer 0 0 (offer1 0 true)).isNone = true ∧
    ([0, 1, 2, 3].all fun e => (st0.offer 0 0 (offer1 e false)).isSome) = true := by decide +kernel

/-- A started transfer of a type with these fields beside it. -/
def transfer (typ : Nat) (l : List (Nat × Nat)) : Card :=
  { k := 4, cmd := command typ l, cur := command typ l, started := true, moving := true }

def moved (r : Except MoveErr (List Byte × State)) : List Byte × State :=
  match r with
  | .ok x => x
  | .error _ => ([], State.reset)

/-- From scratchpad 0 to scratchpad 0x1000; the index of a row is the word at 0x2000. -/
theorem wit_EngineTransfers :
    let shape : List (Nat × Nat) := [(127, 1), (191, 1), (128, 0x1000), (255, 1), (192, 0x2000), (256, 64), (288, 1), (304, 1), (320, 1)]
    let n := ofLeBytes (transfer 1 shape).cur
    let m := (transfer 1 shape).mover 0 1
    let s := withCard (transfer 1 shape)
    let a := s.engLoad m (cmdSrc n) 64
    let i := s.engLoad m (cmdAux n) 4
    (s.pace = none ∧ cmdN0 n = 64 ∧ cmdN1 n = 1 ∧ cmdN2 n = 1 ∧ cmdN3 n = 1 ∧ cmdSrc n % 64 + 64 ≤ 64 ∧ cmdDst n % 64 + 64 ≤ 64 ∧
      (moved a).1.length = 64 ∧ good ((moved a).2.engStore m (cmdDst n) (moved a).1) = true) ∧
    (cmdAux n % 64 + 4 ≤ 64 ∧ (moved i).1.length = 4 ∧ ofLeBytes (moved i).1 < cmdN2 n ∧ good ((moved i).2.engLoad m (cmdSrc n) 64) = true) ∧
    (match s.place m (cmdDst n) 64 .write with
     | .ok (.home h, _) => (tileWin h).isNone && isPlain h 64 && decide (h + 64 ≤ remoteBase ∧ frameTableEnd ≤ h) && m.lap.outs.isEmpty
     | _ => false) = true := by decide +kernel

/-- CONVERT of 16 INT32 elements to INT8, with residues of 8 bits, and of 32 INT16 elements to BX8. -/
theorem wit_convertTransfer :
    let n : Nat := word [(0, 2), (11, 1), (16, 7), (20, 2), (24, 2), (32, 4), (48, 127), (127, 1), (191, 1), (255, 1), (256, 16)]
    let b : Nat := word [(0, 2), (16, 4), (20, 12), (127, 1), (191, 1), (255, 1), (256, 32)]
    (cmdEf n = true ∧ cmdBx n = false ∧ cmdN0 n * fmtBits (cmdSfmt n) / 8 = 64 ∧ cmdN0 n * fmtBits (cmdDfmt n) / 8 = 16 ∧
      cmdN0 n * fmtBits (cmdRfmt n) % 8 = 0) ∧
    (cmdBx b = true ∧ cmdN0 b * fmtBits (cmdSfmt b) / 8 = 64 ∧ cmdN0 b * fmtBits (cmdDfmt b) / 8 = 32) := by decide

theorem wit_ports :
    let asked := withPort fun p => { p with st := .restripe, asked := 0xFFF0, asks := 2, dark := 0xFF }
    let part := withPort fun p => { p with part := some { addr := 0x100, count := 8, src := 3, cls := 0, ctx := 0, got := List.replicate 70 0 } }
    let out : OutPacket := { c := 0, e := 1, k := 4, dst := 3, addr := 0x100, cls := 0, ctx := 0, bytes := [1#8] }
    let ack := { (withPort fun p => { p with acks := [{ addr := 0x100, count := 0, src := 3, cls := 0, ctx := 0 }] }) with awaiting := [out] }
    ((asked.port 31).asks = 2 ∧ (asked.port 31).asked &&& (asked.port 31).dark ≠ 0 ∧
      8 ≤ popMask (maskOff (asked.port 31).asked (asked.port 31).dark) ∧ popMask (maskOff 0x0FF0 0xFF) < 8) ∧
    ((withPort fun p => { p with unlocked := true }).port 31).unlocked = true ∧
    ((withPort fun p => { p with rx := .retrain }).port 31).rx = .retrain ∧
    ((part.port 31).packets = [] ∧ (part.port 31).part.isSome = true) ∧
    ((ack.ackOf ⟨0, 1, 4⟩).isSome = true ∧ (1 ≠ 2) ∧ (State.reset.ackOf ⟨0, 1, 4⟩).isNone = true) ∧
    (0 < popMask 0xFF00 ∧ 0xFF00 < 2 ^ 16) := by decide +kernel

/-- R387: on the active wavelengths 0, 1, 2 and 4, stream byte 7 goes on wavelength 4, stream byte 8 on wavelength 0. -/
theorem test_lanes : laneOf 0x17 7 = 4 ∧ laneOf 0x17 8 = 0 := by decide

theorem wit_mailbox :
    let s := { State.reset with
      moves := [.mailbox], mgmt := { State.reset.mgmt with door := true, reply := leBytes 8 5 ++ leBytes 8 0x8000 ++ leBytes 8 64 } }
    (s.mgmt.reply.headD 0).toNat = 5 ∧ 0x8000 + 64 ≤ 0x20000000000 ∧ 7 ∉ [1, 2, 3, 4, 5, 6] ∧
    (let m : Mgmt := { State.reset.mgmt with cap := some 9, powers := List.replicate 10 10 }
     m.cap = some 9 ∧ m.powers.length = 10 ∧ m.overCap = true ∧ State.reset.mgmt.overCap = false) := by decide

/-- What a store to plain memory reaches: the last bytes of the drawer, scratchpad, ring SRAM. -/
theorem wit_StoredBytes_regions : isPlain 0x1FFE000000B 1 = true ∧ isPlain (coreWindow 511) 0x300000 = true ∧
    isPlain (dieWindow 7 + 0x47FFFFF8) 8 = true := by decide

theorem wit_stepReads :
    add0.mgmt.monitorRuns = true ∧ add0.scheduled 0 = none ∧ decide ((add0.switchTo 0 0).readHalf 0 0 = add0.switchTo 0 0) = true := by
  decide +kernel
end Sys2Proof.Tests
end

