-- ==== Sys2Proof/Proofs/MemoryCanonical.lean ====
section
/-!
Every step keeps memory in its canonical form (O56). `State.MemOk` says so of a state; each operation of the model has one law,
named after it, that it keeps the form. `State.MemOk.f` is the law of `State.f`, so that the proof for a chain of operations is
the chain of their laws; `f_ok` is the law of any other function. `exec_ok` and `step_ok` collect them. The laws follow the files
of the model in their order.
-/

-- One proof at a time: a proof that runs beside many others holds a stack of its own.
set_option Elab.async false

namespace Sys2Proof.Machine

open Sys2Proof

/-- Memory is in its canonical form. A law `State.MemOk.f` says that the operation `f` keeps it, so that a chain of operations has
the chain of their laws as its proof. -/
def State.MemOk (s : State) : Prop := s.memOk = true

/-- An outcome whose next state, if there is one, has its memory in canonical form. -/
def OutOk : Host.Outcome State Fault Refusal → Prop
  | .next t => t.MemOk
  | _ => True

/-- What an option holds, if anything, satisfies `P`. -/
def OptOk {α : Type} (P : α → Prop) : Option α → Prop
  | some x => P x
  | none => True

/-- What a computation answers, if it does not fail, satisfies `P`. -/
def ExOk {ε α : Type} (P : α → Prop) : Except ε α → Prop
  | .ok x => P x
  | .error _ => True

/-- The effects of a plan, at issue and of a hold, keep the canonical form. -/
structure Plan.MemOk (p : Plan) : Prop where
  eff : ∀ {n : Nat} {u : State}, u.MemOk → (p.eff n u).MemOk
  heldEff : ∀ {u : State}, u.MemOk → (p.heldEff u).MemOk

theorem OptOk.of_eq {α : Type} {P : α → Prop} {o : Option α} {x : α} (h : OptOk P o) (e : o = some x) : P x := by
  subst e; exact h

theorem OutOk.of_eq {o : Host.Outcome State Fault Refusal} {t : State} (h : OutOk o) (e : o = .next t) : t.MemOk := by
  subst e; exact h

theorem OutOk.ite {p : Prop} [Decidable p] {a b : Host.Outcome State Fault Refusal} (ha : OutOk a) (hb : OutOk b) :
    OutOk (if p then a else b) := by
  split
  · exact ha
  · exact hb

theorem ExOk.of_eq {ε α : Type} {P : α → Prop} {r : Except ε α} {x : α} (h : ExOk P r) (e : r = .ok x) : P x := by
  subst e; exact h

theorem OptOk.or {α : Type} {P : α → Prop} {a b : Option α} (ha : OptOk P a) (hb : OptOk P b) : OptOk P (a.or b) := by
  cases a
  · exact hb
  · exact ha

theorem OptOk.getD {α : Type} {P : α → Prop} {o : Option α} {x : α} (ho : OptOk P o) (hx : P x) : P (o.getD x) := by
  cases o
  · exact hx
  · exact ho

theorem OptOk.map {α β : Type} {P : β → Prop} {f : α → β} {o : Option α} (hf : ∀ x, P (f x)) : OptOk P (o.map f) := by
  cases o
  · trivial
  · exact hf _

theorem OptOk.bind {α β : Type} {P : β → Prop} {f : α → Option β} {o : Option α} (hf : ∀ x, OptOk P (f x)) :
    OptOk P (o.bind f) := by
  cases o
  · trivial
  · exact hf _

theorem ExOk.toOption {ε α : Type} {P : α → Prop} {r : Except ε α} (h : ExOk P r) : OptOk P r.toOption := by
  cases r
  · trivial
  · exact h

theorem ExOk.map {ε α β : Type} {P : β → Prop} {f : α → β} {r : Except ε α} (h : ExOk (fun x => P (f x)) r) :
    ExOk P (r.map f) := by
  cases r
  · trivial
  · exact h

/-- A plan with the effects of another. -/
theorem Plan.MemOk.same {p q : Plan} (h : p.MemOk) (e : q.eff = p.eff) (e' : q.heldEff = p.heldEff) : q.MemOk := by
  constructor
  · intro n u k
    rw [e]
    exact h.eff k
  · intro u k
    rw [e']
    exact h.heldEff k

theorem Plan.MemOk.ite {p : Prop} [Decidable p] {a b : Plan} (ha : a.MemOk) (hb : b.MemOk) : (if p then a else b).MemOk := by
  split
  · exact ha
  · exact hb

section
variable {s t u : State} {α : Type}

theorem State.MemOk.of_fst {r : State × α} {a : α} (h : r.1.MemOk) (e : r = (t, a)) : t.MemOk := by subst e; exact h

theorem State.MemOk.same (h : s.MemOk) (e : t.mem = s.mem) : t.MemOk := memOk_of_mem h e

theorem State.MemOk.ite {p : Prop} [Decidable p] (hs : s.MemOk) (ht : t.MemOk) : (if p then s else t).MemOk := by
  split
  · exact hs
  · exact ht

theorem State.MemOk.foldl {f : State → α → State} {l : List α} (h : s.MemOk) (hf : ∀ u a, u.MemOk → (f u a).MemOk) :
    (l.foldl f s).MemOk := foldl_ok f hf l s h
end

/-! ### Memory, and fields that are not memory -/


theorem State.MemOk.setMem {s : State} {m : List Host.Cell} (hm : Memory.wf m = true) : ({ s with mem := m } : State).MemOk := hm

theorem State.MemOk.putMem {s : State} {a n x : ℕ} (h : s.MemOk) : ({ s with mem := memPut s.mem a n x } : State).MemOk :=
  memPut_ok _ _ _ _ h

theorem State.MemOk.setMoves {s : State} {l : List Move} (h : s.MemOk) : ({ s with moves := l } : State).MemOk := h.same rfl

theorem State.MemOk.setFocus {s : State} {f : Focus} (h : s.MemOk) : ({ s with focus := f } : State).MemOk := h.same rfl

theorem State.MemOk.setKills {s : State} {l : List ℕ} (h : s.MemOk) : ({ s with kills := l } : State).MemOk := h.same rfl

theorem State.MemOk.setMgmt {s : State} {m : Mgmt} (h : s.MemOk) : ({ s with mgmt := m } : State).MemOk := h.same rfl

theorem State.MemOk.setTraining {s : State} {p : Word} (h : s.MemOk) : ({ s with training := p } : State).MemOk := h.same rfl

theorem State.MemOk.addMig {s : State} {m : MigCmd} (h : s.MemOk) : ({ s with migs := s.migs ++ [m] } : State).MemOk := h.same rfl

theorem State.MemOk.countRecord {s : State} (h : s.MemOk) : ({ s with recordNext := s.recordNext + 1 } : State).MemOk :=
  h.same rfl

theorem State.MemOk.countLaunch {s : State} {n : ℕ} (h : s.MemOk) : ({ s with launchNext := n } : State).MemOk := h.same rfl

theorem State.MemOk.launchesDrop {s : State} {p : ℕ × Launch → Bool} (h : s.MemOk) :
    ({ s with launches := s.launches.filter p } : State).MemOk := h.same rfl

theorem Moved.ite_ok {p : Prop} [Decidable p] {a b : Moved} (ha : a.st.MemOk) (hb : b.st.MemOk) :
    (if p then a else b).st.MemOk := by
  split
  · exact ha
  · exact hb

/-- What issuing a bundle answers: every state in it has its memory in canonical form. -/
def IssuedOk : Issued → Prop
  | .done u | .stall u | .held u _ => u.MemOk
  | .stop o => OutOk o

/-- What the syllables of a bundle have come to so far has its memory in canonical form. -/
structure FoldOk (f : Fold) : Prop where
  st : f.st.MemOk
  stop : OptOk OutOk f.stop

/-! ### Machine/Tables.lean -/

section
variable {s : State} {c b : ℕ} {x : Card}

theorem State.MemOk.setCore {x : Core} (h : s.MemOk) : (s.setCore c x).MemOk := h.same rfl

theorem State.MemOk.modBank {f : Bank → Bank} (h : s.MemOk) : (s.modBank c b f).MemOk := h.setCore

theorem State.MemOk.modCore {f : Core → Core} (h : s.MemOk) : (s.modCore c f).MemOk := h.setCore

theorem State.MemOk.modBk {f : Bank → Bank} (h : s.MemOk) : (s.modBk f).MemOk := h.modBank

end

/-! ### Machine/Mmu.lean -/

section
variable {s : State} {c a n cls pte bits die ctx va : ℕ} {x : Card} {l : List Byte} {acc task : Bool} {j : JobKey}

theorem State.MemOk.touchFrames (h : s.MemOk) : (s.touchFrames a n).MemOk := touchFrames_ok _ _ _ h

theorem State.MemOk.putHome (h : s.MemOk) : (s.putHome a l).MemOk := putHome_ok _ _ _ h

theorem State.MemOk.usePorts {group family : ℕ} (h : s.MemOk) : (s.usePorts cls group family a n).MemOk :=
  usePorts_ok _ _ _ _ _ _ h

theorem State.MemOk.access (h : s.MemOk) : (s.access a n).MemOk := access_ok _ _ _ h

theorem State.MemOk.orPte (h : s.MemOk) : (s.orPte pte bits).MemOk := orPte_ok _ _ _ h

theorem State.MemOk.touchTables {l : List ℕ} (h : s.MemOk) : (s.touchTables die l).MemOk := touchTables_ok _ _ _ h

theorem State.MemOk.setPte (h : s.MemOk) : (s.setPte die pte bits).MemOk := h.orPte.touchTables

theorem State.MemOk.touchWalk (h : s.MemOk) : (s.touchWalk die ctx va).MemOk := h.touchTables

theorem State.MemOk.translate {acc : AccKind} (h : s.MemOk) : ExOk (fun x => x.2.MemOk) (s.translate c ctx va acc task) := by
  unfold State.translate
  dsimp only
  split
  · split
    · trivial
    · split
      · exact h.setPte.modCore
      · exact h
  · split
    · trivial
    · split
      · trivial
      · exact (h.touchTables.ite h.touchTables.setPte).modCore

theorem State.MemOk.translateFresh {acc : AccKind} {grant : Bool} (h : s.MemOk) :
    ExOk (fun x => x.2.MemOk) (s.translateFresh die ctx va acc task grant) := by
  unfold State.translateFresh
  dsimp only
  split
  · trivial
  · split
    · trivial
    · exact h.touchTables.ite h.touchTables.setPte

theorem State.MemOk.sendOut (h : s.MemOk) : (s.sendOut j a cls ctx l).MemOk := by
  unfold State.sendOut
  dsimp only
  split
  · split <;> exact h.same rfl
  · exact h.same rfl

end

/-! ### Machine/Tasks.lean -/

section
variable {s : State} {c b a n die ctx r q off lo wid cause lid core unit : ℕ} {x : Card} {l : List Byte} {two : Bool}
  {v : BitVec 64} {m : Mover}

theorem State.MemOk.setRing {r : FltRing} (h : s.MemOk) : (s.setRing die r).MemOk := h.same rfl

theorem State.MemOk.interrupt {v : ℕ} (h : s.MemOk) : (s.interrupt v).MemOk := by
  unfold State.interrupt
  dsimp only
  split
  · exact h
  · exact h.same rfl

theorem State.MemOk.notify (h : s.MemOk) : (s.notify l).MemOk := h.same rfl

theorem State.MemOk.writeFlt {r : FltRec} {q : Requester} (h : s.MemOk) : (s.writeFlt die r q).MemOk := writeFlt_ok _ _ _ _ h

theorem State.MemOk.logArray {syn : ℕ} (h : s.MemOk) : (s.logArray c n off ctx two syn).MemOk := h.modCore

theorem State.MemOk.correct (h : s.MemOk) : (s.correct ctx a n).MemOk := by
  unfold State.correct
  dsimp only
  refine .foldl h fun u _ k => ?_
  split <;> split <;> exact k.same rfl

theorem State.MemOk.readArray {m : ℕ} (h : s.MemOk) : (s.readArray c m lo n ctx).1.MemOk := by
  unfold State.readArray
  split
  · exact h
  · exact h.modCore.logArray

theorem State.MemOk.pushFlt {r : FltRec} {q : Requester} (h : s.MemOk) : (s.pushFlt die r q).MemOk := pushFlt_ok _ _ _ _ h

theorem State.MemOk.postFlt {r : FltRec} {q : Requester} (h : s.MemOk) : (s.postFlt die r q).MemOk := postFlt_ok _ _ _ _ h

theorem State.MemOk.drainFlt (h : s.MemOk) : (s.drainFlt die n).MemOk := by
  induction n generalizing s with
  | zero => exact h
  | succ n ih =>
    unfold State.drainFlt
    dsimp only
    split
    · exact h
    · exact h.ite (ih h.setRing.writeFlt)

theorem State.MemOk.setLaunch {l : ℕ} {x : Launch} (h : s.MemOk) : (s.setLaunch l x).MemOk := h.same rfl

theorem State.MemOk.modLaunch {l : ℕ} {f : Launch → Launch} (h : s.MemOk) : (s.modLaunch l f).MemOk := h.setLaunch

theorem State.MemOk.setPart (h : s.MemOk) : (s.setPart c).MemOk := h.setCore

theorem State.MemOk.noSpec (h : s.MemOk) : (s.noSpec c).MemOk := h.modCore

theorem State.MemOk.emptyBank (h : s.MemOk) : (s.emptyBank c b).MemOk := (h.noSpec.ite h).modCore.setPart

theorem State.MemOk.taskEnded {l : ℕ} (h : s.MemOk) : (s.taskEnded l wid).MemOk := h.modLaunch

theorem State.MemOk.dropWork {l : ℕ} (h : s.MemOk) : (s.dropWork l wid).MemOk := by
  unfold State.dropWork
  refine State.MemOk.modLaunch ?_
  refine State.MemOk.same (s := s.cores.foldl _ s) ?_ rfl
  exact h.foldl fun _ _ k => k.modCore.ite k

theorem State.MemOk.killTask (h : s.MemOk) : (s.killTask c b cause).MemOk := killTask_ok _ _ _ _ h

theorem State.MemOk.killedAway (h : s.MemOk) : (s.killedAway lid wid cause ctx die core unit).MemOk :=
  h.taskEnded.dropWork.modLaunch.postFlt

theorem State.MemOk.dropSaved {v : Saved} (h : s.MemOk) : (s.dropSaved c v).MemOk := h.modCore

theorem State.MemOk.killSaved {v : Saved} (h : s.MemOk) : (s.killSaved c v cause).MemOk := h.dropSaved.killedAway

end

/-! ### Machine/Regions.lean -/

section
variable {s : State} {c b a n : ℕ} {l : List Byte} {m : Mover}

theorem State.MemOk.startFill {m : ℕ} (h : s.MemOk) : ExOk State.MemOk (s.startFill c b n m) := by
  unfold State.startFill
  dsimp only
  split
  · exact h
  · split
    · exact h
    · split
      · trivial
      · next e =>
          split
          · trivial
          · exact (h.translate.of_eq e).modBank

theorem State.MemOk.eachSec {f : State → ℕ × ℕ → Except Trap State} {l : List (ℕ × ℕ)}
    (h : s.MemOk) (hf : ∀ a u, u.MemOk → ExOk State.MemOk (f u a)) :
    ExOk State.MemOk (State.eachSec f s l) := by
  induction l generalizing s with
  | nil => exact h
  | cons a l ih =>
    unfold State.eachSec
    split
    · next e => exact ih ((hf _ _ h).of_eq e)
    · split <;> trivial

theorem State.MemOk.startFills {l : List (ℕ × ℕ)} (h : s.MemOk) : ExOk State.MemOk (s.startFills c b l) :=
  h.eachSec fun _ _ k => k.startFill

theorem State.MemOk.dirtySec {m : ℕ} (h : s.MemOk) : ExOk State.MemOk (s.dirtySec c b n m) := by
  unfold State.dirtySec
  dsimp only
  split
  · exact h
  · split
    · split
      · trivial
      · next e => exact (h.translate.of_eq e).modBank
    · exact h.modBank

theorem State.MemOk.makeDirty {l : List (ℕ × ℕ)} (h : s.MemOk) : ExOk State.MemOk (s.makeDirty c b l) :=
  h.eachSec fun _ _ k => k.dirtySec

theorem State.MemOk.captureSec {m : ℕ} (h : s.MemOk) : ExOk State.MemOk (s.captureSec c b n m) := by
  unfold State.captureSec
  dsimp only
  split
  · exact h
  · split
    · exact h
    · split
      · trivial
      · split
        · trivial
        · next e =>
            split
            · trivial
            · exact (h.translate.of_eq e).correct.modCore.modBank

theorem State.MemOk.captureSecs {l : List (ℕ × ℕ)} (h : s.MemOk) : ExOk State.MemOk (s.captureSecs c b l) :=
  h.eachSec fun _ _ k => k.captureSec

theorem State.MemOk.captureAll (h : s.MemOk) : ExOk State.MemOk (s.captureAll c b) := h.captureSecs

end

/-! ### Machine/SaveArea.lean -/

section
variable {s : State} {c b a n off lo t : ℕ} {l : List Byte} {w : Bool} {v : BitVec 64}

theorem State.MemOk.zeroHome (h : s.MemOk) : (s.zeroHome a n).MemOk := zeroHome_ok _ _ _ h

theorem State.MemOk.saveWrite {v : Saved} (h : s.MemOk) : (s.saveWrite v off l).MemOk := h.putHome.access

theorem State.MemOk.storeImage {v : Saved} (h : s.MemOk) : (s.storeImage v).MemOk := h.foldl fun _ _ k => k.saveWrite

theorem State.MemOk.storeArea {v : Saved} (h : s.MemOk) : (s.storeArea c v).MemOk :=
  ((h.foldl (fun _ _ k => k.zeroHome)).foldl (fun _ _ k => k.saveWrite)).storeImage.foldl fun _ _ k => k.saveWrite

theorem State.MemOk.modSaved {area : ℕ} {f : Saved → Saved} (h : s.MemOk) : (s.modSaved c area f).MemOk := h.modCore

theorem State.MemOk.spillBad {v : Saved} {w : ℕ} (h : s.MemOk) : (s.spillBad c v w).MemOk := h.postFlt.killSaved.ite h

theorem State.MemOk.holdCycles (h : s.MemOk) : (s.holdCycles c n).MemOk := h.modCore

theorem State.MemOk.spillSlab {v : Saved} (h : s.MemOk) : (s.spillSlab c v n).MemOk := by
  unfold State.spillSlab
  split
  · exact h.spillBad
  · exact h.correct.saveWrite.modSaved.holdCycles

theorem State.MemOk.spillSlabs {l : List ℕ} (h : s.MemOk) : (s.spillSlabs c l).MemOk :=
  h.foldl fun _ _ k => k.foldl fun _ _ k2 => k2.spillSlab

theorem State.MemOk.spillTile {v : Saved} (h : s.MemOk) : (s.spillTile c v t).MemOk := by
  unfold State.spillTile
  split
  · exact h.spillBad
  · exact h.correct.saveWrite.modSaved

theorem State.MemOk.spillTiles (h : s.MemOk) : (s.spillTiles c lo n).MemOk :=
  h.foldl fun _ _ k => k.foldl fun _ _ k2 => k2.spillTile

theorem State.MemOk.spillPlane {v : Saved} (h : s.MemOk) : (s.spillPlane c v).MemOk := h.saveWrite.saveWrite.saveWrite.modSaved

theorem State.MemOk.spillPlanes (h : s.MemOk) : (s.spillPlanes c b).MemOk := h.foldl fun _ _ k => k.spillPlane

theorem State.MemOk.asResident {v : Saved} {f : State → State} (h : s.MemOk) (hf : ∀ u, u.MemOk → (f u).MemOk) :
    (s.asResident c v f).MemOk := ((hf _ h.modCore).modCore.foldl (fun _ _ k => k.saveWrite)).modSaved.storeImage

end

/-! ### Machine/Ops.lean -/

section
variable {s : State} {c b a n r t lat : ℕ} {x : Card} {l : List Byte} {w : Bool} {v : BitVec 64} {p : Plan}
  {rd : List RegOp} {bad : Option Trap} {hd : Hdr}

theorem State.MemOk.applyWrite {w : Write} (h : s.MemOk) : (s.applyWrite c b w).MemOk := applyWrite_ok _ _ _ _ h

theorem State.MemOk.applyWrites {l : List Write} (h : s.MemOk) : (s.applyWrites c b l).MemOk := applyWrites_ok _ _ _ _ h

theorem State.MemOk.land {p : Pending} (h : s.MemOk) : (s.land c b p).MemOk := land_ok _ _ _ _ h

theorem State.MemOk.landAll (h : s.MemOk) : (s.landAll c b n).MemOk := by
  induction n generalizing s with
  | zero => exact h
  | succ n ih =>
    unfold State.landAll
    split
    · exact h
    · exact ih h.land

theorem State.MemOk.landWin (h : s.MemOk) : (s.landWin a).MemOk := by
  unfold State.landWin
  split
  · exact h
  · exact h.foldl fun _ _ k => k.landAll

theorem State.MemOk.passCycles (h : s.MemOk) : (s.passCycles c b n).MemOk := h.modCore

theorem State.MemOk.drain (h : s.MemOk) : (s.drain c b n).MemOk := drain_ok _ _ _ _ h

theorem State.MemOk.captureEntry (h : s.MemOk) : (s.captureEntry c b).MemOk := h.modBank

theorem State.MemOk.reportBad {t : Trap} (h : s.MemOk) : (s.reportBad c b t).MemOk := h.postFlt.setKills

theorem State.MemOk.dropAhead {t : Trap} (h : s.MemOk) : (s.dropAhead c b t).MemOk := h.reportBad.ite (h.touchWalk.ite h)

theorem State.MemOk.takeTrapAt {t : Trap} (h : s.MemOk) : (s.takeTrapAt c b t).MemOk := takeTrapAt_ok _ _ _ _ h

theorem State.MemOk.takeTrap {t : Trap} (h : s.MemOk) : (s.takeTrap t).MemOk := takeTrap_ok _ _ h

theorem State.MemOk.returnFrom (h : s.MemOk) : (s.returnFrom c b).MemOk := returnFrom_ok _ _ _ h

theorem regPlan_ok {wr : List RegOp} {ws : List Write} : (regPlan rd wr lat ws bad).MemOk := ⟨id, id⟩

theorem State.MemOk.softReads {x : State} (h : s.MemOk) : (s.softReads x p).MemOk := by
  unfold State.softReads
  dsimp only
  split
  · split
    · exact h.foldl fun _ _ k => k.correct
    · exact (h.foldl (fun _ _ k => k.correct)).modBk
  · exact h

theorem State.MemOk.mark {r : SylRes} (h : s.MemOk) : (s.mark r).MemOk := h.modBk

theorem State.MemOk.skip (h : s.MemOk) : (s.skip hd lat).MemOk := h.modBk.mark

theorem State.MemOk.naming {l : List RegRef} (h : s.MemOk) : (s.naming hd l).MemOk := h.ite h.modBk

theorem State.MemOk.commitPlan (h : s.MemOk) (hp : p.MemOk) : (s.commitPlan hd p).MemOk := by
  unfold State.commitPlan
  dsimp only
  split
  · exact hp.eff (h.modBk.foldl (fun _ _ k => k.modBk)).modBk
  · exact hp.eff (h.modBk.foldl (fun _ _ k => k.modBk)).modCore.modBk

theorem runSyllable_ok {plan : State → Plan} (h : s.MemOk) (hplan : ∀ u, (plan u).MemOk) :
    OutOk (runSyllable hd lat plan s) := by
  unfold runSyllable
  dsimp only
  split
  · exact h.skip
  · split
    · exact h.mark
    · split
      · exact h.naming.takeTrap
      · split
        · exact ((hplan s).heldEff ((ExOk.toOption h.startFills).getD h)).naming.mark
        · split
          · exact ((ExOk.toOption h.startFills).getD h).naming.mark
          · exact (((ExOk.toOption h.makeDirty).getD h).commitPlan (hplan s)).softReads

theorem State.MemOk.completeVar {v : VarOp} (h : s.MemOk) : (s.completeVar c b v).MemOk := by
  unfold State.completeVar
  dsimp only
  split
  · exact h.landAll.modBank
  · exact h.landAll.modBank.modBank.applyWrites.modBank

theorem State.MemOk.rewind (h : s.MemOk) : OptOk State.MemOk (s.rewind c b) := by
  unfold State.rewind
  dsimp only
  split
  · trivial
  · split
    · trivial
    · exact h.spillSlabs.modCore.modBank

theorem State.MemOk.scheduleCycle (h : s.MemOk) : (s.scheduleCycle c b).MemOk := h.passCycles

theorem State.MemOk.endBundle {stall : ℕ} (h : s.MemOk) : (s.endBundle c b n stall).MemOk := by
  unfold State.endBundle
  dsimp only
  split
  · exact h.modBank.scheduleCycle.modCore.drain.returnFrom
  · exact h.modBank.scheduleCycle.modCore

theorem State.MemOk.enterSegment {hd : SegHdr} (h : s.MemOk) : (s.enterSegment c b hd).MemOk :=
  h.modBank.captureEntry.modCore.modBank

end

/-! ### Machine/Scalar.lean -/

section
variable {s : State} {c b a n lat d cc pos lenm1 dir : ℕ} {w sx : Bool} {hd : Hdr} {imm : BitVec 48}

theorem runScalar2_ok {f : Word → Word → Word} (h : s.MemOk) : OutOk (runScalar2 hd lat f d a b s) :=
  runSyllable_ok h fun _ => ⟨id, id⟩

theorem divPlan_ok {f : Word → Word → Word} : (divPlan f d a b s).MemOk := by
  unfold divPlan
  dsimp only
  split
  · exact ⟨fun k => k.modBk, id⟩
  · exact ⟨id, id⟩

theorem execAdd_ok (h : s.MemOk) : OutOk (execAdd hd d a b s) := runScalar2_ok h

theorem execSub_ok (h : s.MemOk) : OutOk (execSub hd d a b s) := runScalar2_ok h

theorem execAnd_ok (h : s.MemOk) : OutOk (execAnd hd d a b s) := runScalar2_ok h

theorem execOr_ok (h : s.MemOk) : OutOk (execOr hd d a b s) := runScalar2_ok h

theorem execXor_ok (h : s.MemOk) : OutOk (execXor hd d a b s) := runScalar2_ok h

theorem execAndn_ok (h : s.MemOk) : OutOk (execAndn hd d a b s) := runScalar2_ok h

theorem execShl_ok (h : s.MemOk) : OutOk (execShl hd d a b s) := runScalar2_ok h

theorem execShr_ok (h : s.MemOk) : OutOk (execShr hd d a b s) := runScalar2_ok h

theorem execSra_ok (h : s.MemOk) : OutOk (execSra hd d a b s) := runScalar2_ok h

theorem execRotr_ok (h : s.MemOk) : OutOk (execRotr hd d a b s) := runScalar2_ok h

theorem execMul_ok (h : s.MemOk) : OutOk (execMul hd d a b s) := runScalar2_ok h

theorem execMulh_ok (h : s.MemOk) : OutOk (execMulh hd d a b s) := runScalar2_ok h

theorem execMulhu_ok (h : s.MemOk) : OutOk (execMulhu hd d a b s) := runScalar2_ok h

theorem execDiv_ok (h : s.MemOk) : OutOk (execDiv hd d a b s) := runSyllable_ok h fun _ => divPlan_ok

theorem execDivu_ok (h : s.MemOk) : OutOk (execDivu hd d a b s) := runSyllable_ok h fun _ => divPlan_ok

theorem execRem_ok (h : s.MemOk) : OutOk (execRem hd d a b s) := runSyllable_ok h fun _ => divPlan_ok

theorem execRemu_ok (h : s.MemOk) : OutOk (execRemu hd d a b s) := runSyllable_ok h fun _ => divPlan_ok

theorem execMin_ok (h : s.MemOk) : OutOk (execMin hd d a b s) := runScalar2_ok h

theorem execMax_ok (h : s.MemOk) : OutOk (execMax hd d a b s) := runScalar2_ok h

theorem execMinu_ok (h : s.MemOk) : OutOk (execMinu hd d a b s) := runScalar2_ok h

theorem execMaxu_ok (h : s.MemOk) : OutOk (execMaxu hd d a b s) := runScalar2_ok h

theorem execClz_ok (h : s.MemOk) : OutOk (execClz hd d a w s) := runSyllable_ok h fun _ => ⟨id, id⟩

theorem execCls_ok (h : s.MemOk) : OutOk (execCls hd d a w s) := runSyllable_ok h fun _ => ⟨id, id⟩

theorem execCtz_ok (h : s.MemOk) : OutOk (execCtz hd d a w s) := runSyllable_ok h fun _ => ⟨id, id⟩

theorem execPopc_ok (h : s.MemOk) : OutOk (execPopc hd d a w s) := runSyllable_ok h fun _ => ⟨id, id⟩

theorem execSel_ok (h : s.MemOk) : OutOk (execSel hd d a b c s) := runSyllable_ok h fun _ => ⟨id, id⟩

theorem execCmp_ok (h : s.MemOk) : OutOk (execCmp hd d a b cc s) := runSyllable_ok h fun _ => ⟨id, id⟩

theorem execPand_ok (h : s.MemOk) : OutOk (execPand hd d a b s) := runSyllable_ok h fun _ => ⟨id, id⟩

theorem execPor_ok (h : s.MemOk) : OutOk (execPor hd d a b s) := runSyllable_ok h fun _ => ⟨id, id⟩

theorem execPxor_ok (h : s.MemOk) : OutOk (execPxor hd d a b s) := runSyllable_ok h fun _ => ⟨id, id⟩

theorem execPnot_ok (h : s.MemOk) : OutOk (execPnot hd d a s) := runSyllable_ok h fun _ => ⟨id, id⟩

theorem execMovi_ok {imm : BitVec 64} (h : s.MemOk) : OutOk (execMovi hd d imm s) := runSyllable_ok h fun _ => ⟨id, id⟩

theorem execAddi_ok (h : s.MemOk) : OutOk (execAddi hd d a imm s) := runSyllable_ok h fun _ => ⟨id, id⟩

theorem execBfx_ok (h : s.MemOk) : OutOk (execBfx hd d a pos lenm1 sx s) := runSyllable_ok h fun _ => ⟨id, id⟩

theorem execBfi_ok (h : s.MemOk) : OutOk (execBfi hd d a pos lenm1 s) := runSyllable_ok h fun _ => ⟨id, id⟩

theorem execSext_ok (h : s.MemOk) : OutOk (execSext hd d a n s) := runSyllable_ok h fun _ => ⟨id, id⟩

theorem execZext_ok (h : s.MemOk) : OutOk (execZext hd d a n s) := runSyllable_ok h fun _ => ⟨id, id⟩

theorem planAmov_ok : (planAmov d a dir s).MemOk := by
  unfold planAmov
  split <;> exact ⟨id, id⟩

theorem execAmov_ok (h : s.MemOk) : OutOk (execAmov hd d a dir s) := runSyllable_ok h fun _ => planAmov_ok

theorem execAadd_ok (h : s.MemOk) : OutOk (execAadd hd d a b s) := runSyllable_ok h fun _ => ⟨id, id⟩

theorem execAaddi_ok (h : s.MemOk) : OutOk (execAaddi hd d a imm s) := runSyllable_ok h fun _ => ⟨id, id⟩

theorem execAwrap_ok {step bound : ℕ} (h : s.MemOk) : OutOk (execAwrap hd d a step bound s) :=
  runSyllable_ok h fun _ => ⟨id, id⟩

theorem execAidx_ok {ents : BitVec 48} (h : s.MemOk) : OutOk (execAidx hd d a ents s) := runSyllable_ok h fun _ => ⟨id, id⟩

theorem execWidf_ok (h : s.MemOk) : OutOk (execWidf hd d n s) := runSyllable_ok h fun _ => ⟨id, id⟩

end

/-! ### Machine/Control.lean -/

section
variable {s : State} {c b a r off cause t lat d cc scope : ℕ} {ok : Bool} {p : Plan} {hd : Hdr} {o : VecOps}

theorem runPlaced_ok {plan : State → Plan} (h : s.MemOk) (hplan : ∀ u, (plan u).MemOk) :
    OutOk (runPlaced ok cause hd lat plan s) := by
  unfold runPlaced
  split
  · exact runSyllable_ok h fun _ => hplan _
  · exact h.takeTrap

theorem execSegh_ok {o : SegHdr} (h : s.MemOk) : OutOk (execSegh hd o s) := by
  unfold execSegh
  dsimp only
  split
  · exact h.takeTrap
  · split
    · exact h.takeTrap
    · exact h.enterSegment.mark

theorem execNop_ok (h : s.MemOk) : OutOk (execNop hd s) := runSyllable_ok h fun _ => ⟨id, id⟩

theorem State.MemOk.setCtl {c : Ctl} (h : s.MemOk) : (s.setCtl c).MemOk := h.modBk

theorem jumpPlan_ok {taken : Bool} (hp : p.MemOk) : (jumpPlan taken t p s).MemOk := by
  unfold jumpPlan
  split
  · exact hp
  · split
    · split
      · exact ⟨fun k => k.setCtl, hp.heldEff⟩
      · exact hp
    · exact hp.same rfl rfl

theorem planBr_ok {off : BitVec 48} : (planBr off s).MemOk := jumpPlan_ok ⟨id, id⟩

theorem execBr_ok {off : BitVec 48} (h : s.MemOk) : OutOk (execBr hd off s) := runSyllable_ok h fun _ => planBr_ok

theorem planBrc_ok {off : BitVec 48} : (planBrc a b cc off s).MemOk := jumpPlan_ok ⟨id, id⟩

theorem execBrc_ok {off : BitVec 48} (h : s.MemOk) : OutOk (execBrc hd a b cc off s) := runSyllable_ok h fun _ => planBrc_ok

theorem planCall_ok {off : BitVec 48} : (planCall d off s).MemOk := jumpPlan_ok ⟨id, id⟩

theorem execCall_ok {off : BitVec 48} (h : s.MemOk) : OutOk (execCall hd d off s) := runSyllable_ok h fun _ => planCall_ok

theorem planRet_ok : (planRet a s).MemOk := jumpPlan_ok ⟨id, id⟩

theorem execRet_ok (h : s.MemOk) : OutOk (execRet hd a s) := runSyllable_ok h fun _ => planRet_ok

theorem planLoopn_ok {off : BitVec 48} : (planLoopn d off s).MemOk := jumpPlan_ok ⟨id, id⟩

theorem execLoopn_ok {off : BitVec 48} (h : s.MemOk) : OutOk (execLoopn hd d off s) := runSyllable_ok h fun _ => planLoopn_ok

theorem State.MemOk.release {r : Release} (h : s.MemOk) : (s.release r).MemOk := h.modBk

theorem planYield_ok : (planYield s).MemOk := by
  unfold planYield
  dsimp only
  split
  · exact ⟨fun k => k.setCtl.release, id⟩
  · exact ⟨id, id⟩

theorem execYield_ok (h : s.MemOk) : OutOk (execYield hd s) := runSyllable_ok h fun _ => planYield_ok

theorem capturePlan_ok {f : State → State} (hf : ∀ u, u.MemOk → (f u).MemOk) : (capturePlan f s).MemOk := by
  unfold capturePlan
  split
  · exact ⟨id, id⟩
  · refine ⟨fun k => ?_, id⟩
    dsimp only
    split
    · next e => exact hf _ (k.captureAll.of_eq e).modBk
    · exact hf _ k

theorem planEnd_ok : (planEnd s).MemOk := capturePlan_ok fun _ k => k.setCtl

theorem execEnd_ok (h : s.MemOk) : OutOk (execEnd hd s) := runSyllable_ok h fun _ => planEnd_ok

theorem planPhase_ok {y : Bool} : (planPhase scope y s).MemOk := by
  unfold planPhase
  dsimp only
  split
  · exact ⟨id, id⟩
  · exact capturePlan_ok fun _ k => k.release

theorem execPhase_ok {y : Bool} (h : s.MemOk) : OutOk (execPhase hd scope y s) := runPlaced_ok h fun _ => planPhase_ok

theorem planRdv_ok : (planRdv s).MemOk := by
  unfold planRdv
  dsimp only
  split
  · exact ⟨fun k => k.modBk, id⟩
  · exact ⟨id, fun k => k.modBk⟩

theorem execRdv_ok (h : s.MemOk) : OutOk (execRdv hd s) := runPlaced_ok h fun _ => planRdv_ok

theorem planTrapInstr_ok {slot : ℕ} {code : BitVec 32} : (planTrapInstr slot code s).MemOk := ⟨fun k => k.modBk, id⟩

theorem execTrap_ok {code : BitVec 32} (h : s.MemOk) : OutOk (execTrap hd code s) := runSyllable_ok h fun _ => planTrapInstr_ok

theorem planEret_ok : (planEret s).MemOk := by
  unfold planEret
  split
  · exact ⟨fun k => k.setCtl, id⟩
  · exact ⟨id, id⟩

theorem execEret_ok (h : s.MemOk) : OutOk (execEret hd s) := runSyllable_ok h fun _ => planEret_ok

end

/-! ### Machine/Vector.lean -/

section
variable {s : State} {lat : ℕ} {x : Card} {hd : Hdr} {o : VecOps}

theorem runVec_ok {x : LaneFn} (h : s.MemOk) : OutOk (runVec hd lat x o s) := runSyllable_ok h fun _ => ⟨id, id⟩

theorem execVadd_ok (h : s.MemOk) : OutOk (execVadd hd o s) := runVec_ok h

theorem execVsub_ok (h : s.MemOk) : OutOk (execVsub hd o s) := runVec_ok h

theorem execVadds_ok (h : s.MemOk) : OutOk (execVadds hd o s) := runVec_ok h

theorem execVsubs_ok (h : s.MemOk) : OutOk (execVsubs hd o s) := runVec_ok h

theorem execVmul_ok (h : s.MemOk) : OutOk (execVmul hd o s) := runVec_ok h

theorem execVmulh_ok (h : s.MemOk) : OutOk (execVmulh hd o s) := runVec_ok h

theorem execVand_ok (h : s.MemOk) : OutOk (execVand hd o s) := runVec_ok h

theorem execVor_ok (h : s.MemOk) : OutOk (execVor hd o s) := runVec_ok h

theorem execVxor_ok (h : s.MemOk) : OutOk (execVxor hd o s) := runVec_ok h

theorem execVandn_ok (h : s.MemOk) : OutOk (execVandn hd o s) := runVec_ok h

theorem execVshl_ok (h : s.MemOk) : OutOk (execVshl hd o s) := runVec_ok h

theorem execVshr_ok (h : s.MemOk) : OutOk (execVshr hd o s) := runVec_ok h

theorem execVsra_ok (h : s.MemOk) : OutOk (execVsra hd o s) := runVec_ok h

theorem execVmin_ok (h : s.MemOk) : OutOk (execVmin hd o s) := runVec_ok h

theorem execVmax_ok (h : s.MemOk) : OutOk (execVmax hd o s) := runVec_ok h

theorem execVabs_ok (h : s.MemOk) : OutOk (execVabs hd o s) := runVec_ok h

theorem execVneg_ok (h : s.MemOk) : OutOk (execVneg hd o s) := runVec_ok h

theorem execVclz_ok (h : s.MemOk) : OutOk (execVclz hd o s) := runVec_ok h

theorem execVcls_ok (h : s.MemOk) : OutOk (execVcls hd o s) := runVec_ok h

theorem execVpopc_ok (h : s.MemOk) : OutOk (execVpopc hd o s) := runVec_ok h

theorem execVmuls_ok (h : s.MemOk) : OutOk (execVmuls hd o s) := runSyllable_ok h fun _ => ⟨id, id⟩

theorem execVmac_ok (h : s.MemOk) : OutOk (execVmac hd o s) := runSyllable_ok h fun _ => ⟨id, id⟩

theorem execVdot4_ok (h : s.MemOk) : OutOk (execVdot4 hd o s) := runSyllable_ok h fun _ => ⟨id, id⟩

theorem execVcmp_ok (h : s.MemOk) : OutOk (execVcmp hd o s) := runSyllable_ok h fun _ => ⟨id, id⟩

theorem execVsel_ok (h : s.MemOk) : OutOk (execVsel hd o s) := runSyllable_ok h fun _ => ⟨id, id⟩

theorem execVmov_ok (h : s.MemOk) : OutOk (execVmov hd o s) := runSyllable_ok h fun _ => ⟨id, id⟩

theorem execVbcst_ok (h : s.MemOk) : OutOk (execVbcst hd o s) := runSyllable_ok h fun _ => ⟨id, id⟩

theorem execViota_ok (h : s.MemOk) : OutOk (execViota hd o s) := runSyllable_ok h fun _ => ⟨id, id⟩

theorem execVins_ok (h : s.MemOk) : OutOk (execVins hd o s) := runSyllable_ok h fun _ => ⟨id, id⟩

theorem execVext_ok (h : s.MemOk) : OutOk (execVext hd o s) := runSyllable_ok h fun _ => ⟨id, id⟩

theorem execVshrd_ok (h : s.MemOk) : OutOk (execVshrd hd o s) := runSyllable_ok h fun _ => ⟨id, id⟩

theorem planVcnv_ok : (planVcnv o s).MemOk := .ite ⟨id, id⟩ ⟨id, id⟩

theorem execVcnv_ok (h : s.MemOk) : OutOk (execVcnv hd o s) := runSyllable_ok h fun _ => planVcnv_ok

theorem execVunpk_ok (h : s.MemOk) : OutOk (execVunpk hd o s) := runSyllable_ok h fun _ => ⟨id, id⟩

theorem execVpack_ok (h : s.MemOk) : OutOk (execVpack hd o s) := runSyllable_ok h fun _ => ⟨id, id⟩

theorem execVshrdCensus_ok (h : s.MemOk) : OutOk (execVshrdCensus hd o s) := runSyllable_ok h fun _ => ⟨id, id⟩

theorem execVperm_ok (h : s.MemOk) : OutOk (execVperm hd o s) := runSyllable_ok h fun _ => ⟨id, id⟩

theorem execVslide_ok (h : s.MemOk) : OutOk (execVslide hd o s) := runSyllable_ok h fun _ => ⟨id, id⟩

theorem execVredadd_ok (h : s.MemOk) : OutOk (execVredadd hd o s) := runSyllable_ok h fun _ => ⟨id, id⟩

theorem execVredmax_ok (h : s.MemOk) : OutOk (execVredmax hd o s) := runSyllable_ok h fun _ => ⟨id, id⟩

theorem execVredmin_ok (h : s.MemOk) : OutOk (execVredmin hd o s) := runSyllable_ok h fun _ => ⟨id, id⟩

theorem execVscan_ok (h : s.MemOk) : OutOk (execVscan hd o s) := runSyllable_ok h fun _ => ⟨id, id⟩

theorem execQand_ok (h : s.MemOk) : OutOk (execQand hd o s) := runSyllable_ok h fun _ => ⟨id, id⟩

theorem execQor_ok (h : s.MemOk) : OutOk (execQor hd o s) := runSyllable_ok h fun _ => ⟨id, id⟩

theorem execQxor_ok (h : s.MemOk) : OutOk (execQxor hd o s) := runSyllable_ok h fun _ => ⟨id, id⟩

theorem execQnot_ok (h : s.MemOk) : OutOk (execQnot hd o s) := runSyllable_ok h fun _ => ⟨id, id⟩

theorem execQpopc_ok (h : s.MemOk) : OutOk (execQpopc hd o s) := runSyllable_ok h fun _ => ⟨id, id⟩

theorem execQset_ok (h : s.MemOk) : OutOk (execQset hd o s) := runSyllable_ok h fun _ => ⟨id, id⟩

end

/-! ### Machine/Access.lean -/

section
variable {s : State} {n align : ℕ} {p : Plan}

theorem Plan.MemOk.access {ts : List Touch} (hp : p.MemOk) : (p.access ts align s).MemOk := hp.same rfl rfl

theorem Plan.MemOk.lReady (hp : p.MemOk) : (s.lReady p).MemOk := by
  unfold State.lReady
  split
  · exact hp
  · exact hp.same rfl rfl

theorem State.MemOk.holdL (h : s.MemOk) : (s.holdL n).MemOk := h.modBk

end

/-! ### Machine/Special.lean -/

section
variable {s : State} {ew base : ℕ} {l : List Byte} {st : Bool} {m : Mover} {p : Plan} {rd : List RegOp} {bad : Option Trap}
  {hd : Hdr} {disp : BitVec 48} {o : VecOps}

theorem xPlan_ok (hp : p.MemOk) : (xPlan p s).MemOk := by
  unfold xPlan
  split
  · exact ⟨fun k => (hp.eff k).modBk, hp.heldEff⟩
  · exact hp.same rfl rfl

theorem specialPlan_ok {l : List (ℕ × Bool)} : (specialPlan o ew rd l s).MemOk := xPlan_ok ⟨id, id⟩

theorem planXexp2_ok : (planXexp2 o s).MemOk := specialPlan_ok

theorem execXexp2_ok (h : s.MemOk) : OutOk (execXexp2 hd o s) := runSyllable_ok h fun _ => planXexp2_ok

theorem planXrcp_ok : (planXrcp o s).MemOk := specialPlan_ok

theorem execXrcp_ok (h : s.MemOk) : OutOk (execXrcp hd o s) := runSyllable_ok h fun _ => planXrcp_ok

theorem planXrsq_ok : (planXrsq o s).MemOk := specialPlan_ok

theorem execXrsq_ok (h : s.MemOk) : OutOk (execXrsq hd o s) := runSyllable_ok h fun _ => planXrsq_ok

theorem planXlog2_ok : (planXlog2 o s).MemOk := specialPlan_ok

theorem execXlog2_ok (h : s.MemOk) : OutOk (execXlog2 hd o s) := runSyllable_ok h fun _ => planXlog2_ok

theorem actPlan_ok {f : ℤ → ℕ → ℤ} : (actPlan f o s).MemOk := specialPlan_ok

theorem execXsigm_ok (h : s.MemOk) : OutOk (execXsigm hd o s) := runSyllable_ok h fun _ => actPlan_ok

theorem execXtanh_ok (h : s.MemOk) : OutOk (execXtanh hd o s) := runSyllable_ok h fun _ => actPlan_ok

theorem planXlut_ok : (planXlut o s).MemOk := xPlan_ok ⟨id, id⟩

theorem execXlut_ok (h : s.MemOk) : OutOk (execXlut hd o s) := runSyllable_ok h fun _ => planXlut_ok

theorem planXlutld_ok : (planXlutld base disp s).MemOk := by
  unfold planXlutld
  dsimp only
  split
  · exact ⟨id, id⟩
  · exact xPlan_ok (.access ⟨fun k => k.modBk, id⟩)

theorem execXlutld_ok (h : s.MemOk) : OutOk (execXlutld hd base disp s) := runSyllable_ok h fun _ => planXlutld_ok

theorem optPlan_ok {m : ℕ} {bad : List (Bool × Trap)} {l : List ((ℕ × Bool) × ℕ × Bool)} {act : List Bool} :
    (optPlan o m st bad l act s).MemOk := xPlan_ok ⟨id, id⟩

theorem planXoptm_ok : (planXoptm o s).MemOk := optPlan_ok

theorem execXoptm_ok (h : s.MemOk) : OutOk (execXoptm hd o s) := runSyllable_ok h fun _ => planXoptm_ok

theorem planXopta_ok : (planXopta o s).MemOk := optPlan_ok

theorem execXopta_ok (h : s.MemOk) : OutOk (execXopta hd o s) := runSyllable_ok h fun _ => planXopta_ok

end

/-! ### Machine/Tiles.lean -/

section
variable {s : State} {c n : ℕ} {l : List Byte} {p : Plan}

theorem State.MemOk.takeSlabs {l : List ℕ} (h : s.MemOk) : (s.takeSlabs c l).MemOk := h.ite h.spillSlabs.modCore

theorem State.MemOk.claimTile (h : s.MemOk) : (s.claimTile c).MemOk := h.modCore

theorem rampPlan_ok (hp : p.MemOk) : (rampPlan p s).MemOk := by
  unfold rampPlan
  split
  · exact hp.same rfl rfl
  · exact ⟨fun k => (hp.eff k).modBk, hp.heldEff⟩

theorem arrayPlan_ok (hp : p.MemOk) : (arrayPlan n p s).MemOk := by
  unfold arrayPlan
  split
  · exact hp.same rfl rfl
  · exact ⟨fun k => (hp.eff k).spillPlanes.modCore, hp.heldEff⟩

end

/-! ### Machine/Matrix.lean -/

section
variable {s : State} {c b a n q lat d dir base need idx tr cnt sh rm opd eng : ℕ} {x : Card} {l : List Byte}
  {acc ch add dn rr : Bool} {m : Mover} {p : Plan} {rd : List RegOp} {bad : Option Trap} {hd : Hdr} {disp : BitVec 48}

theorem Plan.MemOk.mtrap {l : List (Bool × Trap)} (hp : p.MemOk) : (Plan.mtrap p l).MemOk := by
  unfold Plan.mtrap
  split
  · exact hp.same rfl rfl
  · exact hp

theorem mPlan_ok {mk : List ℕ → List Write} (hp : p.MemOk) : (mPlan p lat need mk s).MemOk := by
  unfold mPlan
  split
  · exact .mtrap hp
  · split
    · exact hp
    · exact ⟨fun k => (hp.eff k).takeSlabs, hp.heldEff⟩

theorem densePlan_ok {fs : List (List ℤ × List ℤ)} {eg eh : ℤ} {f : List (List ℕ) → List (List ℕ)} (hp : p.MemOk) :
    (densePlan p lat d fs eg eh f s).MemOk := mPlan_ok (.mtrap hp)

theorem planMldw_ok : (planMldw a s).MemOk := by
  unfold planMldw
  refine rampPlan_ok ?_
  split
  · exact ⟨fun k => k.spillPlanes, (Plan.MemOk.mtrap regPlan_ok).heldEff⟩
  · exact ⟨fun k => k.spillPlanes, (Plan.MemOk.mtrap regPlan_ok).heldEff⟩

theorem execMldw_ok (h : s.MemOk) : OutOk (execMldw hd a s) := runSyllable_ok h fun _ => planMldw_ok

theorem planMswap_ok : (planMswap s).MemOk := by
  unfold planMswap
  split
  · exact ⟨id, id⟩
  · split
    · exact ⟨id, id⟩
    · exact ⟨fun k => k.spillPlanes, id⟩

theorem execMswap_ok (h : s.MemOk) : OutOk (execMswap hd s) := runSyllable_ok h fun _ => planMswap_ok

theorem State.MemOk.setChain {x gave : Option ChainInfo} (h : s.MemOk) : (s.setChain x gave n).MemOk := h.modBk

theorem streamPlan_ok {bad : Bool} {own : Plan} {info : ChainInfo} (hown : own.MemOk) :
    (streamPlan c idx tr cnt acc ch bad own info s).MemOk := by
  have finish {p q : Plan} {cyc : ℕ} {chained : Bool} {inf : ChainInfo} {n : ℕ}
      (e : q.eff = fun id u => if chained then ((p.eff id u).claimTile c).setChain none
        (if ((p.eff id u).claimTile c).leads then some inf else none) n else (p.eff id u).claimTile c)
      (e' : q.heldEff = p.heldEff) (hp : p.MemOk) : (rampPlan (arrayPlan cyc q s) s).MemOk := by
    refine rampPlan_ok (arrayPlan_ok ⟨fun k => ?_, fun k => ?_⟩)
    · rw [e]
      exact (hp.eff k).claimTile.setChain.ite (hp.eff k).claimTile
    · rw [e']
      exact hp.heldEff k
  have hold {p : Plan} {inf : ChainInfo} {n : ℕ} (hp : p.MemOk) :
      (if p.out = .go then { p with out := .hold .chain, heldEff := fun u => u.setChain (some inf) none n } else p).MemOk :=
    .ite ⟨hp.eff, fun k => k.setChain⟩ hp
  unfold streamPlan
  dsimp only
  refine .ite (finish rfl rfl (.mtrap (hown.same rfl rfl)))
    (.ite (.ite (finish rfl rfl (.mtrap (hown.same rfl rfl))) (hold (.mtrap (hown.same rfl rfl)))) ?_)
  cases s.chainHead (s.bk.task.chains + 1) with
  | none => exact hold (.mtrap ⟨id, id⟩)
  | some inf => exact finish rfl rfl (.mtrap (.mtrap ⟨id, id⟩))

theorem mmaPlan_ok : (mmaPlan c idx tr acc ch rd a cnt s).MemOk := streamPlan_ok ⟨id, id⟩

theorem planMma_ok {disp : ℕ} : (planMma c idx tr acc ch base disp cnt s).MemOk := mmaPlan_ok

theorem execMma_ok {disp : ℕ} (h : s.MemOk) : OutOk (execMma hd c idx tr acc ch base disp cnt s) :=
  runSyllable_ok h fun _ => planMma_ok

theorem planMmav_ok : (planMmav c a idx tr acc ch cnt s).MemOk := streamPlan_ok (.mtrap ⟨id, id⟩)

theorem execMmav_ok (h : s.MemOk) : OutOk (execMmav hd c a idx tr acc ch cnt s) := runSyllable_ok h fun _ => planMmav_ok

theorem planMzero_ok : (planMzero c s).MemOk := ⟨fun k => k.claimTile, (Plan.MemOk.mtrap regPlan_ok).heldEff⟩

theorem execMzero_ok (h : s.MemOk) : OutOk (execMzero hd c s) := runSyllable_ok h fun _ => planMzero_ok

theorem planCadd_ok : (planCadd d a b s).MemOk := ⟨fun k => k.claimTile, (Plan.MemOk.mtrap regPlan_ok).heldEff⟩

theorem execCadd_ok (h : s.MemOk) : OutOk (execCadd hd d a b s) := runSyllable_ok h fun _ => planCadd_ok

theorem planCrdv_ok : (planCrdv d a dir idx s).MemOk := .same (.mtrap regPlan_ok) rfl rfl

theorem execCrdv_ok (h : s.MemOk) : OutOk (execCrdv hd d a dir idx s) := runSyllable_ok h fun _ => planCrdv_ok

theorem planCwrv_ok : (planCwrv c a dir idx add s).MemOk := ⟨fun k => k.claimTile, (Plan.MemOk.mtrap regPlan_ok).heldEff⟩

theorem execCwrv_ok (h : s.MemOk) : OutOk (execCwrv hd c a dir idx add s) := runSyllable_ok h fun _ => planCwrv_ok

theorem planCshd_ok {disp : ℕ} : (planCshd c b idx tr base disp cnt s).MemOk := .same (.mtrap regPlan_ok) rfl rfl

theorem execCshd_ok {disp : ℕ} (h : s.MemOk) : OutOk (execCshd hd c b idx tr base disp cnt s) :=
  runSyllable_ok h fun _ => planCshd_ok

theorem planMld_ok {disp : ℕ} : (planMld d b tr base disp s).MemOk := mPlan_ok (.access (.access (.mtrap regPlan_ok)))

theorem execMld_ok {disp : ℕ} (h : s.MemOk) : OutOk (execMld hd d b tr base disp s) := runSyllable_ok h fun _ => planMld_ok

theorem planMst_ok {m disp : ℕ} : (planMst m b base disp s).MemOk := .same (.mtrap regPlan_ok) rfl rfl

theorem execMst_ok {m disp : ℕ} (h : s.MemOk) : OutOk (execMst hd m b base disp s) := runSyllable_ok h fun _ => planMst_ok

theorem lowPlan_ok {keep : MDesc} {old new : List (List ℤ × List ℤ)} {eg eh : ℤ} (hp : p.MemOk) :
    (lowPlan p lat d keep old new eg eh dn s).MemOk := by
  unfold lowPlan
  split
  · exact hp
  · split
    · exact .mtrap hp
    · exact densePlan_ok (hp.same rfl rfl)
    · exact mPlan_ok hp

theorem planMldf_ok {disp : ℕ} : (planMldf d b tr dn base disp cnt s).MemOk := lowPlan_ok (.access (.mtrap regPlan_ok))

theorem execMldf_ok {disp : ℕ} (h : s.MemOk) : OutOk (execMldf hd d b tr dn base disp cnt s) :=
  runSyllable_ok h fun _ => planMldf_ok

theorem planMstf_ok {m disp : ℕ} : (planMstf m base disp s).MemOk := .same (.mtrap regPlan_ok) rfl rfl

theorem execMstf_ok {m disp : ℕ} (h : s.MemOk) : OutOk (execMstf hd m base disp s) := runSyllable_ok h fun _ => planMstf_ok

theorem planMlru_ok {eg eh : ℕ} : (planMlru d a b dn cnt eg eh s).MemOk := lowPlan_ok (.mtrap ⟨id, id⟩)

theorem execMlru_ok {eg eh : ℕ} (h : s.MemOk) : OutOk (execMlru hd d a b dn cnt eg eh s) :=
  runSyllable_ok h fun _ => planMlru_ok

theorem planMlradd_ok : (planMlradd d a b dn s).MemOk := by
  unfold planMlradd
  dsimp only
  split
  · exact lowPlan_ok (.same (.mtrap regPlan_ok) rfl rfl)
  · exact lowPlan_ok (.same (.mtrap regPlan_ok) rfl rfl)

theorem execMlradd_ok (h : s.MemOk) : OutOk (execMlradd hd d a b dn s) := runSyllable_ok h fun _ => planMlradd_ok

theorem planMlrmul_ok : (planMlrmul d a tr sh rm rr s).MemOk := by
  unfold planMlrmul
  refine rampPlan_ok (arrayPlan_ok ?_)
  dsimp only
  split
  · exact mPlan_ok (.same (.mtrap regPlan_ok) rfl rfl)
  · exact mPlan_ok (.same (.mtrap regPlan_ok) rfl rfl)

theorem execMlrmul_ok (h : s.MemOk) : OutOk (execMlrmul hd d a tr sh rm rr s) := runSyllable_ok h fun _ => planMlrmul_ok

theorem planMdense_ok : (planMdense d a s).MemOk := by
  unfold planMdense
  dsimp only
  split
  · exact densePlan_ok ⟨id, id⟩
  · exact .ite ⟨id, id⟩ (mPlan_ok ⟨id, id⟩)
  · exact mPlan_ok ⟨id, id⟩

theorem execMdense_ok (h : s.MemOk) : OutOk (execMdense hd d a s) := runSyllable_ok h fun _ => planMdense_ok

theorem planMrecomp_ok : (planMrecomp d a s).MemOk := by
  unfold planMrecomp
  dsimp only
  split
  · exact .same (.mtrap regPlan_ok) rfl rfl
  · split
    · exact .mtrap (.same (.mtrap regPlan_ok) rfl rfl)
    · split
      · exact .same (.mtrap regPlan_ok) rfl rfl
      · exact ⟨fun k => k.takeSlabs, (Plan.MemOk.mtrap regPlan_ok).heldEff⟩

theorem execMrecomp_ok (h : s.MemOk) : OutOk (execMrecomp hd d a s) := runSyllable_ok h fun _ => planMrecomp_ok

theorem execMqry_ok {slab : Bool} (h : s.MemOk) : OutOk (execMqry hd d a idx slab s) := runSyllable_ok h fun _ => ⟨id, id⟩

theorem planMfree_ok {tile : Bool} : (planMfree d tile s).MemOk := .ite (.mtrap ⟨id, id⟩) ⟨id, id⟩

theorem execMfree_ok {tile : Bool} (h : s.MemOk) : OutOk (execMfree hd d tile s) := runSyllable_ok h fun _ => planMfree_ok

theorem planMget_ok : (planMget d a dir idx tr sh rm rr s).MemOk := .same (.mtrap regPlan_ok) rfl rfl

theorem execMget_ok (h : s.MemOk) : OutOk (execMget hd d a dir idx tr sh rm rr s) := runSyllable_ok h fun _ => planMget_ok

theorem planMput_ok : (planMput d a dir idx s).MemOk := by
  unfold planMput
  dsimp only
  split
  · exact densePlan_ok (.same (.mtrap regPlan_ok) rfl rfl)
  · exact .same (.mtrap regPlan_ok) rfl rfl
  · exact .mtrap regPlan_ok

theorem execMput_ok (h : s.MemOk) : OutOk (execMput hd d a dir idx s) := runSyllable_ok h fun _ => planMput_ok

theorem pushPlan_ok {q : Bool} : (pushPlan hd q d a opd eng s).MemOk :=
  ⟨fun k => k.release, (Plan.MemOk.mtrap regPlan_ok).heldEff⟩

theorem execPush_ok (h : s.MemOk) : OutOk (execPush hd d a opd eng s) := runPlaced_ok h fun _ => pushPlan_ok

theorem execPushq_ok (h : s.MemOk) : OutOk (execPushq hd d a opd eng s) := runPlaced_ok h fun _ => pushPlan_ok

end

/-! ### Machine/Memory.lean -/

section
variable {s : State} {a n va r d align ew base size opb opc port e op len mode : ℕ} {x : Card} {l : List Byte}
  {acc sx st zi sc : Bool} {v : BitVec 64} {m : Mover} {p : Plan} {rd : List RegOp} {bad : Option Trap} {hd : Hdr}
  {disp : BitVec 48} {g : Group}

theorem planLds_ok : (planLds d base disp size sx s).MemOk := .lReady ⟨id, id⟩

theorem execLds_ok (h : s.MemOk) : OutOk (execLds hd d base disp size sx s) := runSyllable_ok h fun _ => planLds_ok

theorem storePlan_ok : (storePlan rd a l align s).MemOk := .lReady ⟨id, id⟩

theorem planSts_ok : (planSts r base disp size s).MemOk := storePlan_ok

theorem execSts_ok (h : s.MemOk) : OutOk (execSts hd r base disp size s) := runSyllable_ok h fun _ => planSts_ok

theorem Plan.MemOk.hold {x : LaneAcc} (hp : p.MemOk) : (LaneAcc.hold x p).MemOk := by
  unfold LaneAcc.hold
  split
  · exact hp
  · exact ⟨fun k => (hp.eff k).holdL, hp.heldEff⟩

theorem loadPlan_ok {x : LaneAcc} : (loadPlan x d zi rd bad s).MemOk := .lReady (.hold ⟨id, id⟩)

theorem lanesPlan_ok {x : LaneAcc} : (lanesPlan x r rd bad s).MemOk := .lReady (.hold ⟨id, id⟩)

theorem planLdv_ok {m : Bool} : (planLdv d base disp opb opc ew st m zi s).MemOk := loadPlan_ok

theorem execLdv_ok {m : Bool} (h : s.MemOk) : OutOk (execLdv hd d base disp opb opc ew st m zi s) :=
  runSyllable_ok h fun _ => planLdv_ok

theorem planStv_ok {m : Bool} : (planStv r base disp opb opc ew st m s).MemOk := lanesPlan_ok

theorem execStv_ok {m : Bool} (h : s.MemOk) : OutOk (execStv hd r base disp opb opc ew st m s) :=
  runSyllable_ok h fun _ => planStv_ok

theorem planLdvg_ok {m : Bool} : (planLdvg d base disp opb opc ew m zi sc s).MemOk := loadPlan_ok

theorem execLdvg_ok {m : Bool} (h : s.MemOk) : OutOk (execLdvg hd d base disp opb opc ew m zi sc s) :=
  runSyllable_ok h fun _ => planLdvg_ok

theorem planStvs_ok {m : Bool} : (planStvs r base disp opb opc ew m sc s).MemOk := lanesPlan_ok

theorem execStvs_ok {m : Bool} (h : s.MemOk) : OutOk (execStvs hd r base disp opb opc ew m sc s) :=
  runSyllable_ok h fun _ => planStvs_ok

theorem planLdvp_ok : (planLdvp d port s).MemOk := by
  unfold planLdvp
  dsimp only
  refine .lReady ?_
  split
  · exact .ite ⟨id, id⟩ ⟨id, id⟩
  · exact ⟨fun k => k.modCore, id⟩

theorem execLdvp_ok (h : s.MemOk) : OutOk (execLdvp hd d port s) := runSyllable_ok h fun _ => planLdvp_ok

theorem directPlan_ok {kind : VarKind} {e : Direct} (hp : p.MemOk) : (directPlan p kind e s).MemOk := by
  unfold directPlan
  refine .lReady ?_
  split
  · exact hp.same rfl rfl
  · exact ⟨fun k => k.modCore, hp.heldEff⟩

theorem planLdg_ok {v : Bool} : (planLdg d base disp size sx v s).MemOk := directPlan_ok ⟨id, id⟩

theorem execLdg_ok {v : Bool} (h : s.MemOk) : OutOk (execLdg hd d base disp size sx v s) := runSyllable_ok h fun _ => planLdg_ok

theorem planStg_ok {v : Bool} : (planStg r base disp size v s).MemOk := .lReady ⟨fun k => k.release, id⟩

theorem execStg_ok {v : Bool} (h : s.MemOk) : OutOk (execStg hd r base disp size v s) := runPlaced_ok h fun _ => planStg_ok

theorem planAmo_ok {u w8 : Bool} : (planAmo d base disp opb opc op u w8 s).MemOk := .lReady ⟨fun k => k.release, id⟩

theorem execAmo_ok {u w8 : Bool} (h : s.MemOk) : OutOk (execAmo hd d base disp opb opc op u w8 s) :=
  runPlaced_ok h fun _ => planAmo_ok

theorem planTld_ok {g : Bool} : (planTld d base disp g s).MemOk := by
  unfold planTld
  dsimp only
  split
  · exact directPlan_ok ⟨id, id⟩
  · exact .lReady (.ite (.mtrap ⟨id, id⟩) ⟨id, id⟩)

theorem execTld_ok {g : Bool} (h : s.MemOk) : OutOk (execTld hd d base disp g s) := runSyllable_ok h fun _ => planTld_ok

theorem planTst_ok : (planTst r base disp s).MemOk := storePlan_ok

theorem execTst_ok (h : s.MemOk) : OutOk (execTst hd r base disp s) := runSyllable_ok h fun _ => planTst_ok

theorem planPark_ok : (planPark r acc s).MemOk := by
  unfold planPark
  dsimp only
  refine .lReady ?_
  split
  · exact .mtrap ⟨id, id⟩
  · split
    · exact ⟨fun k => k.takeSlabs, id⟩
    · exact ⟨id, id⟩

theorem execPark_ok (h : s.MemOk) : OutOk (execPark hd r acc s) := runSyllable_ok h fun _ => planPark_ok

theorem planUnpark_ok : (planUnpark r s).MemOk := .lReady (.ite ⟨id, id⟩ ⟨id, id⟩)

theorem execUnpark_ok (h : s.MemOk) : OutOk (execUnpark hd r s) := runSyllable_ok h fun _ => planUnpark_ok

theorem planRmap_ok : (planRmap n base disp va len mode s).MemOk := .lReady ⟨id, id⟩

theorem execRmap_ok (h : s.MemOk) : OutOk (execRmap hd n base disp va len mode s) := runSyllable_ok h fun _ => planRmap_ok

theorem flushPlan_ok {l : List (ℕ × ℕ)} (hp : p.MemOk) : (flushPlan l p s).MemOk := by
  unfold flushPlan
  split
  · exact hp.mtrap
  · refine ⟨fun k => ?_, hp.heldEff⟩
    dsimp only
    split
    · next e => exact (k.captureSecs.of_eq e).ite (k.captureSecs.of_eq e).holdL
    · exact k

theorem planRunmap_ok : (planRunmap n s).MemOk := by
  unfold planRunmap
  refine .lReady ?_
  split
  · exact ⟨id, id⟩
  · exact flushPlan_ok ⟨id, id⟩

theorem execRunmap_ok (h : s.MemOk) : OutOk (execRunmap hd n s) := runSyllable_ok h fun _ => planRunmap_ok

theorem subPlan_ok {f : Plan → Region → List ℕ → Plan} (hf : ∀ p r l, p.MemOk → (f p r l).MemOk) :
    (subPlan n base disp len f s).MemOk := by
  unfold subPlan
  refine .lReady ?_
  split
  · exact .mtrap regPlan_ok
  · exact hf _ _ _ regPlan_ok

theorem planRfill_ok : (planRfill n base disp len s).MemOk := by
  refine subPlan_ok fun p r l hp => ?_
  split
  · exact hp.mtrap
  · refine ⟨fun k => k.foldl fun _ _ k => ?_, hp.heldEff⟩
    split
    · next e => exact k.startFill.of_eq e
    · exact k.dropAhead

theorem execRfill_ok (h : s.MemOk) : OutOk (execRfill hd n base disp len s) := runSyllable_ok h fun _ => planRfill_ok

theorem planRflush_ok : (planRflush n base disp len s).MemOk := subPlan_ok fun _ _ _ hp => flushPlan_ok hp

theorem execRflush_ok (h : s.MemOk) : OutOk (execRflush hd n base disp len s) := runSyllable_ok h fun _ => planRflush_ok

theorem planRinv_ok : (planRinv n base disp len s).MemOk := subPlan_ok fun _ _ _ hp => ⟨fun k => k.modBk, hp.heldEff⟩

theorem execRinv_ok (h : s.MemOk) : OutOk (execRinv hd n base disp len s) := runSyllable_ok h fun _ => planRinv_ok

end

/-! ### Machine/System.lean -/

section
variable {s : State} {a die d idx mode : ℕ} {x : Card} {p : Plan} {hd : Hdr} {imm : BitVec 48}

theorem State.MemOk.setCle {x : Cle} (h : s.MemOk) : (s.setCle die x).MemOk := h.same rfl

theorem State.MemOk.modCle {f : Cle → Cle} (h : s.MemOk) : (s.modCle die f).MemOk := h.setCle

theorem State.MemOk.modPort {p : ℕ} {f : Port → Port} (h : s.MemOk) : (s.modPort p f).MemOk := h.same rfl

theorem execGetc_ok (h : s.MemOk) : OutOk (execGetc hd d idx s) := runSyllable_ok h fun _ => ⟨id, id⟩

theorem execGetcx_ok (h : s.MemOk) : OutOk (execGetcx hd d a s) := runSyllable_ok h fun _ => ⟨id, id⟩

theorem planSetc_ok : (planSetc a idx s).MemOk := ⟨fun k => k.modCore.ite k, id⟩

theorem execSetc_ok (h : s.MemOk) : OutOk (execSetc hd a idx s) := runSyllable_ok h fun _ => planSetc_ok

theorem execSlabq_ok {sel : ℕ} (h : s.MemOk) : OutOk (execSlabq hd d sel s) := runSyllable_ok h fun _ => ⟨id, id⟩

theorem execMuinv_ok (h : s.MemOk) : OutOk (execMuinv hd a mode s) := runSyllable_ok h fun _ => ⟨id, id⟩

theorem execSeed_ok {imm : BitVec 32} (h : s.MemOk) : OutOk (execSeed hd a imm s) := runSyllable_ok h fun _ => ⟨id, id⟩

theorem execRampq_ok (h : s.MemOk) : OutOk (execRampq hd d s) := runSyllable_ok h fun _ => ⟨id, id⟩

end

/-! ### Machine/Homes.lean -/

section
variable {s : State} {c a n cls die ctx va q core unit d pos size id status i addr src total : ℕ} {x : Card}
  {l bytes : List Byte} {acc st : Bool} {j : JobKey} {m : Mover} {p : Plan} {hd : Hdr}

theorem State.MemOk.varDone {f : VarOp → VarOp} (h : s.MemOk) : (s.varDone c id f).MemOk := by
  unfold State.varDone
  dsimp only
  split
  · split
    · exact h.completeVar
    · exact h
  · split
    · split
      · exact h.completeVar
      · exact h
    · split
      · refine .asResident h fun u k => ?_
        split
        · exact k.completeVar
        · exact k
      · exact h

theorem State.MemOk.token {reg : ℕ} {status : Word} (h : s.MemOk) : (s.token c id reg status).MemOk := h.varDone

theorem State.MemOk.signal {ev : ℕ} (h : s.MemOk) : (s.signal ev n).MemOk := h.same rfl

theorem State.MemOk.modFe {f : FeQueue → FeQueue} (h : s.MemOk) : (s.modFe q f).MemOk := h.same rfl

theorem State.MemOk.feEnd (h : s.MemOk) : (s.feEnd q n).MemOk := by
  unfold State.feEnd
  dsimp only
  split
  · exact h
  · exact h.modFe.signal.interrupt.ite h.modFe

theorem State.MemOk.feHalt (h : s.MemOk) : (s.feHalt q).MemOk := by
  unfold State.feHalt
  split
  · exact h.feEnd.ite h
  · exact h

theorem State.MemOk.feDone (h : s.MemOk) : (s.feDone q n).MemOk := h.feEnd.feHalt

theorem State.MemOk.tileError (h : s.MemOk) : (s.tileError die).MemOk := h.notify

theorem State.MemOk.tileLost (h : s.MemOk) : (s.tileLost die).MemOk := h.pushFlt

theorem State.MemOk.dropsSince {old : Cle} {lost : List ℕ} (h : s.MemOk) : (s.dropsSince die old lost).MemOk :=
  (h.foldl (fun _ _ k => k.tileError)).foldl fun _ _ k => k.tileLost

theorem State.MemOk.tileRead (h : s.MemOk) : (s.tileRead die i ctx).MemOk := by
  unfold State.tileRead
  split
  · next e => exact (h.readArray.of_fst e).modCle
  · next e => exact h.readArray.of_fst e

theorem State.MemOk.homeStore {by_ : Option Since} (h : s.MemOk) : (s.homeStore a l by_).MemOk := by
  unfold State.homeStore
  dsimp only
  split
  · exact (h.foldl (fun _ _ k => k.ite k.tileRead)).modCle.dropsSince
  · exact h.putHome.touchFrames

theorem State.MemOk.sent {l : List OutPacket} (h : s.MemOk) : (s.sent l).MemOk := h.same rfl

theorem State.MemOk.circuitGo {p : ℕ} (h : s.MemOk) : (s.circuitGo p n).MemOk := by
  induction n generalizing s with
  | zero => exact h
  | succ n ih =>
    unfold State.circuitGo
    dsimp only
    split
    · exact h
    · split
      · exact h
      · exact h.ite (ih h.modPort.modPort.sent)

theorem State.MemOk.pump {p : ℕ} (h : s.MemOk) : (s.pump p).MemOk := by
  unfold State.pump
  dsimp only
  split
  · exact h.modPort.sent
  · exact h.modPort.foldl fun _ _ k => k.circuitGo

theorem State.MemOk.post {q : OutPacket} (h : s.MemOk) : (s.post q).MemOk := h.modPort.pump

theorem State.MemOk.flush {all : Bool} (h : s.MemOk) : (s.flush j all).MemOk := by
  unfold State.flush
  dsimp only
  split
  · split
    · exact h
    · refine .foldl ?_ (fun _ _ k => k.post)
      exact h.same rfl
  · split
    · split
      · split
        · exact h
        · refine .foldl ?_ (fun _ _ k => k.post)
          exact h.same rfl
      · split
        · exact h
        · refine .foldl ?_ (fun _ _ k => k.post)
          exact h.same rfl
    · split
      · exact h
      · refine .foldl ?_ (fun _ _ k => k.post)
        exact h.same rfl

theorem State.MemOk.postPacket {mod : ℕ} {p : Packet} (h : s.MemOk) : (s.postPacket die mod d cls p).MemOk := by
  unfold State.postPacket
  dsimp only
  split
  · exact h.same rfl
  · exact (h.foldl (fun _ _ k => k.post)).post

theorem State.MemOk.lapRead {l : Lap} {hd : ℕ} (h : s.MemOk) : (s.lapRead l addr hd bytes).2.MemOk := by
  unfold State.lapRead
  dsimp only
  split
  · exact h
  · exact h.same rfl

theorem State.MemOk.lapWrite {l : Lap} {hd : ℕ} {before : Unit → List Byte} (h : s.MemOk) :
    (s.lapWrite l hd n before).MemOk := by
  unfold State.lapWrite
  dsimp only
  split
  · exact h
  · exact h.same rfl

theorem State.MemOk.engineAddr {acc : AccKind} (h : s.MemOk) : ExOk (fun x => x.2.MemOk) (s.engineAddr m va acc) := by
  unfold State.engineAddr
  split
  · next e => exact h.translateFresh.of_eq e
  · split
    · next a s1 e =>
      have k : s1.MemOk := h.translateFresh.of_eq e
      split
      · split
        · exact k
        · trivial
      · trivial
    · trivial
  · trivial

theorem State.MemOk.place {acc : AccKind} (h : s.MemOk) : ExOk (fun x => x.2.MemOk) (s.place m addr n acc) := by
  unfold State.place
  split
  · split <;> exact h
  · split
    · trivial
    · next e =>
        split
        · exact h.engineAddr.of_eq e
        · trivial

theorem State.MemOk.engLoad (h : s.MemOk) : ExOk (fun x => x.2.MemOk) (s.engLoad m addr n) := by
  unfold State.engLoad
  dsimp only
  split
  · trivial
  · next e =>
      split
      · trivial
      · split
        · trivial
        · exact ((h.place.of_eq e).foldl (fun _ _ k => k.tileRead)).lapRead
  · next e =>
      split
      · trivial
      · split
        · trivial
        · exact (h.place.of_eq e).landWin.correct.touchFrames.usePorts.lapRead

theorem State.MemOk.engStore (h : s.MemOk) : ExOk State.MemOk (s.engStore m addr l) := by
  unfold State.engStore
  dsimp only
  split
  · trivial
  · next e =>
      split
      · trivial
      · exact (h.place.of_eq e).lapWrite.modCle
  · next e =>
      split
      · trivial
      · split
        · trivial
        · split
          · exact (h.place.of_eq e).landWin.lapWrite.homeStore.usePorts
          · exact (h.place.of_eq e).landWin.lapWrite.homeStore.usePorts.sendOut

theorem State.MemOk.postBad (h : s.MemOk) : (s.postBad die ctx a core unit).MemOk := h.pushFlt.ite h.postFlt

theorem State.MemOk.postTable (h : s.MemOk) : (s.postTable die ctx a core unit).MemOk := h.postBad.setKills

theorem State.MemOk.loadAll (h : s.MemOk) : ExOk (fun x => x.2.MemOk) (s.loadAll m addr n i) := by
  induction n generalizing s addr i with
  | zero => exact h
  | succ n ih =>
    unfold State.loadAll
    dsimp only
    split
    · exact h
    · split
      · trivial
      · next s1 e =>
        have k : s1.MemOk := h.engLoad.of_eq e
        split
        · trivial
        · next s2 e' =>
          have k2 : s2.MemOk := (ih k).of_eq e'
          exact k2

theorem State.MemOk.loadBytes (h : s.MemOk) : ExOk (fun x => x.2.MemOk) (s.loadBytes m addr n) := h.loadAll

theorem State.MemOk.streamLoad {p : Shape} {j : ℕ} (h : s.MemOk) : ExOk (fun x => x.2.MemOk) (s.streamLoad m p n i j) := by
  induction n generalizing s i j with
  | zero => exact h
  | succ n ih =>
    unfold State.streamLoad
    dsimp only
    split
    · exact h
    · split
      · trivial
      · next s1 e =>
        have k : s1.MemOk := h.engLoad.of_eq e
        split
        · trivial
        · next s2 e' =>
          have k2 : s2.MemOk := (ih k).of_eq e'
          exact k2

theorem State.MemOk.streamStore {p : Shape} (h : s.MemOk) : ExOk State.MemOk (s.streamStore m p n i l) := by
  induction n generalizing s i l with
  | zero => exact h
  | succ n ih =>
    unfold State.streamStore
    dsimp only
    split
    · exact h
    · split
      · trivial
      · next e => exact ih (h.engStore.of_eq e)

theorem State.MemOk.moveBytes {src : Shape} {size : ℕ → ℕ}
    {put : State → ℕ → List Byte → Except MoveErr (State × Bool)} {sat : Bool}
    (h : s.MemOk) (hput : ∀ u n l, u.MemOk → ExOk (fun x => x.1.MemOk) (put u n l)) :
    (s.moveBytes m src size put total n i l sat).st.MemOk := by
  induction n generalizing s i l sat with
  | zero => exact h
  | succ n ih =>
    unfold State.moveBytes
    dsimp only
    split
    · exact h
    · split
      · split
        · exact h
        · next s1 b e =>
          have k : s1.MemOk := (hput _ _ _ h).of_eq e
          exact ih k
      · split
        · exact h
        · next s1 e =>
          have k : s1.MemOk := h.engLoad.of_eq e
          exact ih k

theorem State.MemOk.putAt {p : Shape} (h : s.MemOk) : ExOk (fun x => x.1.MemOk) (s.putAt m p pos l) := .map h.engStore

end

/-! ### Machine/Engines.lean -/

section
variable {s : State} {c b d e status varId tok : ℕ} {x : Card}

theorem State.MemOk.modEngine {f : Engine → Engine} (h : s.MemOk) : (s.modEngine c e f).MemOk := h.modCore

theorem State.MemOk.setCard {d : Card} (h : s.MemOk) : (s.setCard c e d).MemOk := h.modEngine

theorem State.MemOk.acceptCard {bundle : ℕ} {seed : Word} {cmd : List Byte} (h : s.MemOk) :
    (s.acceptCard c b e varId tok bundle seed cmd).MemOk := h.modEngine.modLaunch

theorem State.MemOk.beginCmd (h : s.MemOk) : (s.beginCmd c e x).1.MemOk := h.same rfl

theorem State.MemOk.endCard (h : s.MemOk) : (s.endCard c e x status).MemOk := h.flush.setCard.modEngine

theorem State.MemOk.cardStop {y : MoveErr} (h : s.MemOk) : (s.cardStop c e x y).1.MemOk := by
  unfold State.cardStop
  cases y with
  | fault va acc kind =>
    dsimp only
    exact h.touchWalk
  | wait => exact h
  | range => exact h
  | abort a =>
    dsimp only
    exact h.postBad
  | table a =>
    dsimp only
    exact h.postTable

end

/-! ### Machine/Jobs.lean -/

section
variable {s : State} {c b n ctx r off t d need e op i total count typ : ℕ} {x : Card} {l : List Byte} {st : Bool}
  {j : JobKey} {v : BitVec 64} {m : Mover} {p : Plan} {o : VecOps}

theorem State.MemOk.afterMove {ends : Bool} {r : Moved} (hr : r.st.MemOk) : (State.afterMove c e x count ends r).st.MemOk := by
  unfold State.afterMove
  dsimp only
  split
  · exact hr.cardStop
  · exact hr

theorem State.MemOk.runCopy (h : s.MemOk) : (s.runCopy c e x).st.MemOk := (h.moveBytes (fun _ _ _ k => k.putAt)).afterMove

theorem State.MemOk.fillLoop {dst : Shape} {pat : List Byte} (h : s.MemOk) : (s.fillLoop m dst pat total n i).st.MemOk := by
  induction n generalizing s pat total i with
  | zero =>
    unfold State.fillLoop
    dsimp only
    exact h
  | succ n ih =>
    unfold State.fillLoop
    dsimp only
    split
    · exact h
    · split
      · exact h
      · next e => exact ih (h.engStore.of_eq e)

theorem State.MemOk.runFill (h : s.MemOk) : (s.runFill c e x).st.MemOk := h.fillLoop.afterMove

theorem State.MemOk.rowLoop {scatter : Bool} {x : Moved} (hx : x.st.MemOk) : (State.rowLoop m n scatter i x).st.MemOk := by
  induction i generalizing x with
  | zero => exact hx
  | succ i ih =>
    have write {a : ℕ} {l : List Byte} {v : MoveErr → Moved} {g : State → Moved}
        (hv : ∀ r, (v r).st.MemOk) (hg : ∀ u, (g u).st = u) :
        (match x.st.engStore m a l with
          | .error r => v r
          | .ok u => State.rowLoop m n scatter i (g u)).st.MemOk := by
      split
      · exact hv _
      · next u e => exact ih ((hg u).symm ▸ hx.engStore.of_eq e)
    have read {a q : ℕ} {v : MoveErr → Moved} {g : List Byte → State → Moved}
        (hv : ∀ r, (v r).st.MemOk) (hg : ∀ l u, (g l u).st = u) :
        (match x.st.engLoad m a q with
          | .error r => v r
          | .ok (l, u) => State.rowLoop m n scatter i (g l u)).st.MemOk := by
      split
      · exact hv _
      · next l u e =>
        have k : u.MemOk := hx.engLoad.of_eq e
        exact ih ((hg l u).symm ▸ k)
    unfold State.rowLoop
    refine Moved.ite_ok hx (Moved.ite_ok ?flat (Moved.ite_ok ?index (Moved.ite_ok (Moved.ite_ok ?rest hx)
      (Moved.ite_ok ?gather (Moved.ite_ok ?scatter ?source)))))
    case flat | rest | scatter => exact write (fun _ => hx) fun _ => rfl
    case index | gather | source => exact read (fun _ => hx) fun _ _ => rfl

theorem State.MemOk.runRows {scatter : Bool} (h : s.MemOk) : (s.runRows c e x scatter).st.MemOk := h.rowLoop.afterMove

theorem State.MemOk.putAux {o : ℕ} (h : s.MemOk) : ExOk State.MemOk (s.putAux m n o l) := by
  unfold State.putAux
  dsimp only
  split
  · exact h.engStore
  · split
    · trivial
    · next e => exact (h.engLoad.of_eq e).engStore

theorem State.MemOk.convertLoop {y : Moved} (hy : y.st.MemOk) : (State.convertLoop m x c e n i y).st.MemOk := by
  induction i generalizing y with
  | zero => exact hy
  | succ i ih =>
    unfold State.convertLoop
    dsimp only
    split
    · split
      · exact hy
      · next e' => exact ih (hy.engStore.of_eq e')
    · split
      · split
        · exact hy
        · next e' => exact ih (hy.putAux.of_eq e')
      · split
        · exact hy
        · split
          · exact ih hy
          · split
            · exact hy
            · next u e' =>
              have k : u.MemOk := hy.engLoad.of_eq e'
              exact ih k

theorem State.MemOk.runConvert (h : s.MemOk) : (s.runConvert c e x).st.MemOk := h.convertLoop.afterMove

theorem State.MemOk.readAhead {o : ℕ} (h : s.MemOk) : ExOk (fun x => x.2.MemOk) (s.readAhead m n o need i l) := by
  induction i generalizing s n o need l with
  | zero => exact h
  | succ i ih =>
    unfold State.readAhead
    dsimp only
    split
    · exact h
    · split
      · trivial
      · next e => exact ih (h.engLoad.of_eq e)

theorem State.MemOk.decodeGroups {dict : Option (List Byte)} {j : ℕ} (h : s.MemOk) :
    ExOk (fun x => x.2.2.2.MemOk) (s.decodeGroups m n dict i j l) := by
  induction i generalizing s j l with
  | zero => exact h
  | succ i ih =>
    unfold State.decodeGroups
    split
    · trivial
    · split
      · trivial
      · next s1 e =>
        have k1 : s1.MemOk := h.readAhead.of_eq e
        dsimp only
        generalize (if dict.isSome then _ else _ : ℕ) = q
        split
        · trivial
        · split
          · trivial
          · next s2 e' =>
            have k2 : s2.MemOk := k1.readAhead.of_eq e'
            split
            · trivial
            · next s3 e3 =>
              have k3 : s3.MemOk := (ih k2).of_eq e3
              exact k3

theorem State.MemOk.decodeBlock (h : s.MemOk) : ExOk (fun x => x.2.2.2.MemOk) (s.decodeBlock c e x) := by
  unfold State.decodeBlock
  dsimp only
  split
  · trivial
  · next s1 e1 =>
    have k : s1.MemOk := h.decodeGroups.of_eq e1
    split
    · trivial
    · exact k

theorem State.MemOk.deliverBlock (h : s.MemOk) : (s.deliverBlock c e x).st.MemOk := by
  unfold State.deliverBlock
  dsimp only
  split
  · exact h.cardStop
  · exact h
  · exact h
  · next e =>
      split
      · exact h
      · exact (h.decodeBlock.of_eq e).modEngine

theorem State.MemOk.startDecode (h : s.MemOk) : (s.startDecode c e x).st.MemOk := by
  unfold State.startDecode
  dsimp only
  split
  · exact h
  · split
    · exact h.cardStop
    · next e1 => exact (h.loadBytes.of_eq e1).modEngine

theorem State.MemOk.storeRead {copy : Bool} (h : s.MemOk) : (s.storeRead c e copy off ctx).1.MemOk := by
  unfold State.storeRead
  split
  · next e => exact (h.readArray.of_fst e).modEngine
  · next e => exact h.readArray.of_fst e

theorem State.MemOk.startXform (h : s.MemOk) : (s.startXform c e x).st.MemOk := by
  unfold State.startXform
  dsimp only
  split
  · split
    · exact h.storeRead
    · split
      · exact h.storeRead
      · exact h.storeRead.modEngine
  · split
    · exact h.storeRead
    · split
      · exact h.storeRead
      · exact h.storeRead.modEngine

theorem State.MemOk.landInput (h : s.MemOk) : ExOk State.MemOk (s.landInput c e x n) := by
  unfold State.landInput
  dsimp only
  split
  · trivial
  · next e => exact (h.engLoad.of_eq e).modEngine

theorem State.MemOk.drainOutput (h : s.MemOk) : ExOk State.MemOk (s.drainOutput c e x n) := by
  unfold State.drainOutput
  dsimp only
  split
  · trivial
  · next e => exact (h.engStore.of_eq e).modEngine

theorem State.MemOk.xformLoop {m : ℕ} (h : s.MemOk) : (s.xformLoop c e x n m).1.MemOk := by
  induction m generalizing s with
  | zero =>
    unfold State.xformLoop
    dsimp only
    exact h
  | succ m ih =>
    unfold State.xformLoop
    dsimp only
    split
    · split
      · exact h
      · next e1 => exact ih (h.drainOutput.of_eq e1)
    · split
      · split
        · exact h
        · next e2 => exact ih (h.landInput.of_eq e2)
      · exact h

theorem State.MemOk.xformGo {m : ℕ} (h : s.MemOk) : (s.xformGo c e x n m).1.MemOk := by
  induction m generalizing s with
  | zero =>
    unfold State.xformGo
    dsimp only
    exact h
  | succ m ih =>
    unfold State.xformGo
    dsimp only
    split
    · exact h.xformLoop
    · split
      · exact ih h.xformLoop.modEngine
      · split
        · exact h.xformLoop.modEngine.storeRead
        · exact ih h.xformLoop.modEngine.storeRead

theorem State.MemOk.runXform (h : s.MemOk) : (s.runXform c e x).st.MemOk := by
  unfold State.runXform
  dsimp only
  split
  · split
    · exact h.cardStop
    · next e1 => exact (h.loadBytes.of_eq e1).modEngine
  · split
    · exact h.xformGo.cardStop
    · split
      · exact h.xformGo
      · split
        · exact h.xformGo
        · exact h.xformGo.modEngine

theorem State.MemOk.startCmd (h : s.MemOk) : (s.startCmd c e x).st.MemOk := by
  unfold State.startCmd
  dsimp only
  split
  · exact h.beginCmd.startDecode
  · exact h.beginCmd.startXform
  · exact h.beginCmd

theorem State.MemOk.runCmd (h : s.MemOk) : (s.runCmd c e x).st.MemOk := by
  unfold State.runCmd
  split
  · exact h.runCopy
  · exact h.runConvert
  · exact h.runRows
  · exact h.runRows
  · exact h.runFill
  · exact h.runXform
  · exact h

theorem State.MemOk.startAndRun (h : s.MemOk) : (s.startAndRun c e x).st.MemOk := by
  unfold State.startAndRun
  dsimp only
  split
  · exact h.startCmd
  · exact h.startCmd.runCmd

theorem JobRes.close_ok {r : JobRes} (hr : r.st.MemOk) : (JobRes.close r c e).MemOk := by
  unfold JobRes.close
  dsimp only
  split
  · exact hr.flush.endCard
  · exact hr.flush.setCard

theorem State.MemOk.jobEvent (h : s.MemOk) : (s.jobEvent typ c e n).MemOk := by
  unfold State.jobEvent
  split
  · exact h
  · split
    · exact h
    · split
      · exact (JobRes.close_ok h.startAndRun).ite h
      · exact JobRes.close_ok h.runCmd

theorem execCopyJob_ok (h : s.MemOk) : OutOk (execCopyJob c e n s) := h.jobEvent

theorem execConvertJob_ok (h : s.MemOk) : OutOk (execConvertJob c e n s) := h.jobEvent

theorem execGatherJob_ok (h : s.MemOk) : OutOk (execGatherJob c e n s) := h.jobEvent

theorem execScatterJob_ok (h : s.MemOk) : OutOk (execScatterJob c e n s) := h.jobEvent

theorem execFillJob_ok (h : s.MemOk) : OutOk (execFillJob c e n s) := h.jobEvent

theorem execDecodeJob_ok (h : s.MemOk) : OutOk (execDecodeJob c e n s) := h.jobEvent

theorem execXformJob_ok (h : s.MemOk) : OutOk (execXformJob c e n s) := h.jobEvent

theorem State.MemOk.microWrite {f : RvEnv → Micro → Micro} (h : s.MemOk) : (s.microWrite c e f).MemOk := by
  unfold State.microWrite
  dsimp only
  split
  · exact h
  · exact h.modEngine.ite h

theorem execXfIneedWrite_ok (h : s.MemOk) : OutOk (execXfIneedWrite c e v s) := h.microWrite

theorem execXfIfreeWrite_ok (h : s.MemOk) : OutOk (execXfIfreeWrite c e v s) := h.microWrite

theorem execXfOmarkWrite_ok (h : s.MemOk) : OutOk (execXfOmarkWrite c e v s) := h.microWrite

theorem execXfDoneWrite_ok (h : s.MemOk) : OutOk (execXfDoneWrite c e v s) := h.microWrite

theorem State.MemOk.microEnd {code : ℕ} (h : s.MemOk) : (s.microEnd c e code).MemOk := h.modEngine

theorem execXformTimeout_ok (h : s.MemOk) : OutOk (execXformTimeout c e s) := h.microEnd.ite h

theorem execMicrocoreException_ok (h : s.MemOk) : OutOk (execMicrocoreException c e s) := h.microEnd

theorem execChainJob_ok (h : s.MemOk) : OutOk (execChainJob c e n s) := by
  unfold execChainJob
  split
  · exact h
  · exact h.setCard.ite h

theorem JobRes.chain_ok {r : JobRes} (hr : r.st.MemOk) : (JobRes.chain r c e).MemOk := by
  unfold JobRes.chain
  dsimp only
  split
  · exact hr.flush.setCard
  · exact hr.flush.setCard
  · exact hr.flush.endCard

theorem execChainCommandEntry_ok (h : s.MemOk) : OutOk (execChainCommandEntry c e n s) := by
  unfold execChainCommandEntry
  dsimp only
  split
  · exact h
  · split
    · exact h.ite (JobRes.chain_ok h.runCmd)
    · split
      · exact h
      · split
        · exact h.postBad.endCard
        · split
          · exact h
          · split
            · exact h.endCard
            · exact h.endCard.ite (h.ite (JobRes.chain_ok h.startAndRun))

theorem execChainLoop_ok (h : s.MemOk) : OutOk (execChainLoop c e n s) := by
  unfold execChainLoop
  dsimp only
  split
  · exact h
  · split
    · exact h
    · split
      · exact h
      · exact h.ite (h.endCard.ite (h.setCard.ite h.setCard))

theorem execChainCond_ok (h : s.MemOk) : OutOk (execChainCond c e n s) := by
  unfold execChainCond
  dsimp only
  split
  · exact h
  · split
    · exact h
    · split
      · exact h
      · split
        · exact h
        · split
          · exact h.endCard
          · split
            · exact h.endCard
            · split
              · exact h.endCard
              · split
                · split
                  · exact h.cardStop.endCard
                  · exact h.cardStop.setCard
                · next e7 =>
                    split
                    · split
                      · exact (h.loadBytes.of_eq e7).endCard
                      · exact (h.loadBytes.of_eq e7).setCard
                    · split
                      · exact (h.loadBytes.of_eq e7).endCard
                      · exact (h.loadBytes.of_eq e7).setCard

theorem execChainEnd_ok (h : s.MemOk) : OutOk (execChainEnd c e n s) := by
  unfold execChainEnd
  split
  · exact h
  · split
    · exact h
    · split
      · exact h.endCard
      · split
        · exact h
        · exact h.endCard.ite h

theorem execDecodeBlockDeliver_ok (h : s.MemOk) : OutOk (execDecodeBlockDeliver c e s) := by
  unfold execDecodeBlockDeliver
  dsimp only
  split
  · exact h
  · split
    · exact h
    · split
      · exact JobRes.chain_ok h.deliverBlock
      · exact JobRes.close_ok h.deliverBlock

theorem State.MemOk.facing (h : s.MemOk) : (s.facing c b).MemOk := h.same rfl

theorem State.MemOk.followOps {l : List (ℕ × List Write)} (h : s.MemOk) : (s.followOps c b e n l).MemOk :=
  h.foldl fun _ _ k => k.modCore.modBank

theorem State.MemOk.followGo {t : State} {d : Card} (h : t.MemOk) (hp : p.MemOk) : (s.followGo t c b e d p).MemOk :=
  (hp.eff h).modCore.setFocus.modBank.followOps.setCard

theorem State.MemOk.followDrop {d : Card} {x : Trap} (h : s.MemOk) : (s.followDrop c e d x).MemOk :=
  h.postBad.setCard.ite h.setCard

theorem State.MemOk.followEvent {plan : ℕ → State → Plan} (h : s.MemOk) (hplan : ∀ n u, (plan n u).MemOk) :
    (s.followEvent c e n op plan).MemOk := by
  unfold State.followEvent
  dsimp only
  split
  · exact h
  · split
    · exact h
    · split
      · exact h.setCard.ite h
      · split
        · exact h
        · exact h
        · split
          · exact h
          · split
            · exact h.followDrop
            · split
              · exact h.facing.followGo (hplan _ _)
              · split
                · exact h.followDrop
                · next e7 => exact h.startFills.of_eq e7

theorem execFollowOnMldw_ok (h : s.MemOk) : OutOk (execFollowOnMldw c e n s) := h.followEvent fun _ _ => planMldw_ok

theorem execFollowOnMma_ok (h : s.MemOk) : OutOk (execFollowOnMma c e n s) := h.followEvent fun _ _ => mmaPlan_ok

theorem execJobComplete_ok (h : s.MemOk) : OutOk (execJobComplete c e n s) := by
  unfold execJobComplete
  dsimp only
  split
  · exact h
  · split
    · exact h
    · exact h.ite h.modEngine.token.modLaunch

theorem execJobPageFault_ok (h : s.MemOk) : OutOk (execJobPageFault c e n s) := by
  unfold execJobPageFault
  split
  · exact h
  · split
    · exact h
    · exact h.ite h.setCard.postFlt

theorem State.MemOk.writeRload {v : Word} (h : s.MemOk) : (s.writeRload c e v).MemOk :=
  h.ite (h.modCore.modEngine.ite h.modCore)

theorem execRoutineLoadStart_ok (h : s.MemOk) : OutOk (execRoutineLoadStart c e v s) := h.writeRload

theorem execRoutineLoadComplete_ok (h : s.MemOk) : OutOk (execRoutineLoadComplete c e s) := by
  unfold execRoutineLoadComplete
  dsimp only
  split
  · exact h
  · refine State.MemOk.modEngine (.access (.modCore ?_))
    split
    · exact h.setMgmt.postBad
    · exact h.setMgmt

end

/-! ### Machine/Collective.lean -/

section
variable {s : State} {n cls die r t pos idx op len id status i src seq val gs ctr : ℕ} {x : Card} {l bytes : List Byte}
  {acc w st add : Bool} {v : BitVec 64} {m : Mover} {p : Plan} {o : VecOps} {g : Group}

theorem State.MemOk.schedDone {src : LSource} {w : Word} (h : s.MemOk) : (s.schedDone src w).MemOk := by
  unfold State.schedDone
  split
  · exact h.token.modLaunch
  · exact h.feDone

theorem State.MemOk.acceptStart {x : LStart} (h : s.MemOk) : (s.acceptStart die x).MemOk := by
  unfold State.acceptStart
  dsimp only
  split
  · refine .modCle ?_
    split
    · exact h.modLaunch
    · exact h
  · refine .schedDone ?_
    split
    · exact h.modLaunch
    · exact h

theorem State.MemOk.sendTo {m : ℕ} {kind : PacketKind} (h : s.MemOk) : (s.sendTo die cls g m kind seq len val bytes).MemOk :=
  h.postPacket

theorem State.MemOk.sendAll {kind : PacketKind} (h : s.MemOk) : (s.sendAll die cls g kind seq).MemOk :=
  h.foldl fun _ _ k => k.sendTo

theorem State.MemOk.finishThread (h : s.MemOk) : (s.finishThread die t status).MemOk := by
  unfold State.finishThread
  dsimp only
  split
  · refine .schedDone (.modCle ?_)
    split
    · exact h
    · refine .foldl h fun u _ k => ?_
      split
      · exact k.sendAll
      · exact k
  · refine .modCle ?_
    split
    · exact h
    · refine .foldl h fun u _ k => ?_
      split
      · exact k.sendAll
      · exact k

theorem State.MemOk.settle (h : s.MemOk) : (s.settle die).MemOk := by
  unfold State.settle
  refine .foldl h fun u _ k => ?_
  split
  · exact k.finishThread.ite k
  · exact k

theorem State.MemOk.leaveOp {o : LOp} (h : s.MemOk) : (s.leaveOp die o).MemOk := h.flush.modCle

theorem State.MemOk.startAgain (h : s.MemOk) : (s.startAgain die).MemOk :=
  h.foldl fun _ _ k => (k.ite k.tileRead).setCle.dropsSince

theorem State.MemOk.stopThread (h : s.MemOk) : (s.stopThread die t idx status).MemOk :=
  (h.foldl (fun _ _ k => k.leaveOp)).modCle.startAgain.settle

theorem State.MemOk.loseOp {o : LOp} (h : s.MemOk) : (s.loseOp die o status).MemOk := by
  unfold State.loseOp
  split
  · exact h.leaveOp.stopThread
  · exact h.leaveOp.startAgain

theorem State.MemOk.killThread (h : s.MemOk) : (s.killThread die t).MemOk := h.stopThread

theorem execCleKill_ok (h : s.MemOk) : OutOk (execCleKill die v s) := h.foldl fun _ _ k => k.killThread.ite k

theorem execScheduleStart_ok (h : s.MemOk) : OutOk (execScheduleStart die t s) := by
  unfold execScheduleStart
  dsimp only
  split
  · exact h
  · split
    · exact h.setCle
    · exact h

theorem State.MemOk.raise (h : s.MemOk) : (s.raise die t n).MemOk := by
  unfold State.raise
  dsimp only
  split
  · exact h
  · exact (h.modCle.ite h).signal.ite (h.modCle.ite h)

theorem State.MemOk.opStop {o : LOp} {x : MoveErr} (h : s.MemOk) : (s.opStop die o x).MemOk := by
  unfold State.opStop
  dsimp only
  split
  · exact h.modCle.touchWalk.postFlt
  · exact h.modCle
  · exact h.modCle
  · exact h.modCle.postTable
  · exact h.postBad.loseOp

theorem State.MemOk.putPiece {p : Shape} {r : RedOp} (h : s.MemOk) : ExOk (fun x => x.1.MemOk) (s.putPiece m p pos r l) := by
  unfold State.putPiece
  dsimp only
  split
  · exact .map h.streamStore
  · split
    · trivial
    · next e => exact .map (h.streamLoad.of_eq e).streamStore

theorem State.MemOk.landLoop {p : Shape} {r : RedOp} {sat : Bool} (h : s.MemOk) :
    (s.landLoop m p r bytes sat n i).st.MemOk := by
  induction n generalizing s sat i with
  | zero => exact h
  | succ n ih =>
    unfold State.landLoop
    dsimp only
    split
    · exact h
    · split
      · exact h
      · next s1 b e =>
        have k : s1.MemOk := h.putPiece.of_eq e
        exact ih k

theorem State.MemOk.moveChunk {o : LOp} (h : s.MemOk) : (s.moveChunk m o).st.MemOk := h.moveBytes fun _ _ _ k => k.putPiece

theorem State.MemOk.readLoop {src : Shape} {acc : List Byte} (h : s.MemOk) : (s.readLoop m src acc n i).2.st.MemOk := by
  induction n generalizing s acc i with
  | zero => exact h
  | succ n ih =>
    unfold State.readLoop
    dsimp only
    split
    · exact h
    · split
      · exact h
      · next s1 e =>
        have k : s1.MemOk := h.engLoad.of_eq e
        exact ih k

theorem Moved.into_ok {r : Moved} {o : LOp} {done : LOp → State → State}
    (hr : r.st.MemOk) (hdone : ∀ a0 u, u.MemOk → (done a0 u).MemOk) :
    (Moved.into r die o done).MemOk := by
  unfold Moved.into
  dsimp only
  split
  · exact hr.flush.modCle.opStop
  · exact hdone _ _ hr.flush.modCle

theorem State.MemOk.allDone (h : s.MemOk) : (s.allDone die gs).MemOk := by
  unfold State.allDone
  dsimp only
  split
  · exact h
  · exact h.foldl fun _ _ k => k.modCle.foldl fun _ _ k2 => k2.raise

theorem State.MemOk.acceptPacket {m : ℕ} {p : Packet} (h : s.MemOk) : (s.acceptPacket die gs g m p).MemOk := by
  unfold State.acceptPacket
  dsimp only
  split
  · exact h.modCle.allDone
  · exact h.modCle
  · exact h.modCle
  · exact h.modCle

theorem State.MemOk.handlePacket {p : Packet} (h : s.MemOk) : OptOk State.MemOk (s.handlePacket die p) := by
  unfold State.handlePacket
  dsimp only
  split
  · split
    · exact h.modCle
    · split
      · exact h.modCle
      · exact h.acceptPacket
  · split
    · split
      · trivial
      · exact h.setCle
    · exact h.modCle

theorem State.MemOk.arrivePacket {p : Packet} (h : s.MemOk) : (s.arrivePacket die cls p).MemOk := by
  unfold State.arrivePacket
  split
  · exact h
  · next e => exact (h.handlePacket.of_eq e).same rfl

theorem execPacketArrival_ok {p : Packet} (h : s.MemOk) : OutOk (execPacketArrival die p s) := by
  unfold execPacketArrival
  split
  · trivial
  · split
    · split
      · exact h.arrivePacket
      · exact h
    · exact h.handlePacket.getD h

theorem execRemoteAddArrival_ok (h : s.MemOk) : OutOk (execRemoteAddArrival die s) := by
  unfold execRemoteAddArrival
  split
  · exact h
  · exact h.arrivePacket

theorem execFailureMarkerArrival_ok (h : s.MemOk) : OutOk (execFailureMarkerArrival die s) := by
  unfold execFailureMarkerArrival
  dsimp only
  split
  · exact h
  · split
    · exact h.modCle
    · exact h.modCle.modCle.foldl fun _ _ k => k.stopThread.ite k

theorem State.MemOk.endOp {o : LOp} (h : s.MemOk) : (s.endOp die o status).MemOk := by
  unfold State.endOp
  split
  · exact h.stopThread
  · exact h

theorem State.MemOk.sendData {o : LOp} (h : s.MemOk) : (s.sendData die o g).MemOk := by
  unfold State.sendData
  refine Moved.into_ok h.readLoop fun o u k => ?_
  exact k.modCle.sendTo.ite k

theorem State.MemOk.matchOp (h : s.MemOk) : (s.matchOp die id).MemOk := by
  unfold State.matchOp
  dsimp only
  split
  · exact h
  · split
    · exact h
    · split
      · exact h
      · split
        · split
          · exact h.modCle.sendTo.endOp.ite h.sendData
          · exact h.sendData.ite h
        · split
          · exact h
          · split
            · exact h.modCle.endOp
            · split
              · exact h
              · split
                · exact h.setCle.modCle.sendTo.endOp
                · exact Moved.into_ok h.setCle.landLoop fun _ _ k => k.modCle.sendTo.ite k

theorem execTransferMatch_ok (h : s.MemOk) : OutOk (execTransferMatch die op s) := h.matchOp

theorem State.MemOk.completeOp {o : LOp} (h : s.MemOk) : (s.completeOp die o add).MemOk := h.modCle.startAgain.settle

theorem State.MemOk.moveOp {o : LOp} (h : s.MemOk) : (s.moveOp die o).MemOk :=
  Moved.into_ok h.moveChunk fun _ _ k => k.ite (k.modCle.ite k.completeOp)

theorem State.MemOk.milestone (h : s.MemOk) : (s.milestone die id).MemOk := by
  unfold State.milestone
  dsimp only
  split
  · exact h
  · split
    · exact h
    · split
      · split
        · exact h.modCle
        · split
          · exact h
          · split
            · exact h.modCle.completeOp.ite h
            · exact h.modCle.endOp
            · exact h
      · exact h.completeOp.ite h
      · exact h.completeOp.ite h
      · exact h.moveOp
      · exact h.moveOp
      · split
        · exact h
        · split
          · exact Moved.into_ok h.readLoop fun o u k => k.modCle.startAgain.sendTo.ite k
          · split
            · exact h.modCle.completeOp
            · exact h
      · exact h

theorem execOperationMilestone_ok (h : s.MemOk) : OutOk (execOperationMilestone die op s) := h.milestone

theorem execCounterStep_ok (h : s.MemOk) : OutOk (execCounterStep die ctr val s) := by
  unfold execCounterStep
  split
  · split
    · exact h.modCle
    · exact h
  · exact h

theorem execTileFireLanded_ok (h : s.MemOk) : OutOk (execTileFireLanded die s) := by
  unfold execTileFireLanded
  split
  · exact h
  · refine Moved.into_ok h.setCle.landLoop fun o u k => ?_
    dsimp only
    split
    · split
      · exact k.modCle.sendTo
      · exact k.modCle
    · exact k

end

/-! ### Machine/Lystil.lean -/

section
variable {s : State} {n r off t d status count val gs ctr ka peer rop rfmt clamp kb ln gid : ℕ} {x : Card} {cn : Bool}
  {imm : BitVec 48} {o : VecOps}

theorem runWord_ok {f : ℕ → ℕ → State → State} (h : s.MemOk) (hf : ∀ a0 a1 u, u.MemOk → (f a0 a1 u).MemOk) :
    OutOk (runWord f s) := by
  unfold runWord
  split
  · exact h
  · split
    · exact hf _ _ _ h
    · exact h

theorem State.MemOk.goOn (h : s.MemOk) : (s.goOn d t).MemOk := h.modCle

theorem State.MemOk.holdWord (h : s.MemOk) : (s.holdWord d t).MemOk := h.modCle

theorem State.MemOk.stopWord (h : s.MemOk) : (s.stopWord d t status).MemOk := h.modCle.stopThread

theorem State.MemOk.threadStop {x : MoveErr} (h : s.MemOk) : (s.threadStop d t x).MemOk := by
  unfold State.threadStop
  dsimp only
  split
  · exact h.touchWalk.modCle.postFlt
  · exact h.postBad.stopWord
  · exact h.postTable.stopWord
  · exact h.holdWord

theorem State.MemOk.startOp {o : LOp} (h : s.MemOk) : (s.startOp d t o).MemOk := h.modCle

theorem execSend_ok (h : s.MemOk) : OutOk (execSend ka gs peer ctr cn s) := by
  unfold execSend
  dsimp only
  refine runWord_ok h fun _ _ u k => ?_
  split
  · exact k.stopWord
  · exact k.stopWord.ite (k.holdWord.ite k.modCle.startOp)

theorem State.MemOk.receive {kind : LKind} {r : RedOp} (h : s.MemOk) : (s.receive d t ka gs peer ctr cn kind r).MemOk := by
  unfold State.receive
  dsimp only
  split
  · exact h.stopWord
  · exact h.stopWord.ite (h.holdWord.ite h.modCle.startOp.sendTo)

theorem execRecv_ok (h : s.MemOk) : OutOk (execRecv ka gs peer ctr cn s) := runWord_ok h fun _ _ _ k => k.receive

theorem execRecvr_ok {cb : Bool} (h : s.MemOk) : OutOk (execRecvr ka gs peer ctr cn rop rfmt cb clamp s) :=
  runWord_ok h fun _ _ _ k => k.receive

theorem State.MemOk.chunkOp {kind : LKind} {r : RedOp} (h : s.MemOk) : (s.chunkOp d t ka kb ctr cn kind r).MemOk :=
  h.stopWord.ite (h.stopWord.ite (h.holdWord.ite h.startOp))

theorem execLystilCopy_ok (h : s.MemOk) : OutOk (execLystilCopy ka kb ctr cn s) := runWord_ok h fun _ _ _ k => k.chunkOp

theorem execRed_ok {cb : Bool} (h : s.MemOk) : OutOk (execRed ka kb ctr cn rop rfmt cb clamp s) :=
  runWord_ok h fun _ _ _ k => k.chunkOp

theorem execLystilWait_ok {thr : ℕ} (h : s.MemOk) : OutOk (execLystilWait ctr thr s) :=
  runWord_ok h fun _ _ _ k => k.goOn.ite k.goOn.modCle

theorem execTwait_ok {tile : ℕ} (h : s.MemOk) : OutOk (execTwait tile s) :=
  runWord_ok h fun _ _ _ k => k.goOn.modCle.ite k.goOn.modCle

theorem sigWord_ok {ready : Cle → ℕ → Bool} {act : ℕ → ℕ → State → State}
    (h : s.MemOk) (hact : ∀ a0 a1 u, u.MemOk → (act a0 a1 u).MemOk) :
    OutOk (sigWord ready act s) := runWord_ok h fun _ _ _ k => (hact _ _ _ k).ite k.holdWord

theorem execSigAdd_ok (h : s.MemOk) : OutOk (execSigAdd ctr val s) := sigWord_ok h fun _ _ _ k => k.goOn.modCle

theorem execSigSet_ok (h : s.MemOk) : OutOk (execSigSet ctr val s) := sigWord_ok h fun _ _ _ k => k.goOn.modCle

theorem execSigRadd_ok (h : s.MemOk) : OutOk (execSigRadd gs peer ctr val s) := by
  unfold execSigRadd
  refine sigWord_ok h fun _ _ u k => ?_
  split
  · exact k.stopWord
  · exact k.goOn.modCle.sendTo

theorem execSigSrc_ok (h : s.MemOk) : OutOk (execSigSrc s) := sigWord_ok h fun _ _ _ k => k.goOn.raise

theorem execSigLoc_ok (h : s.MemOk) : OutOk (execSigLoc s) := sigWord_ok h fun _ _ _ k => k.goOn.raise

theorem execSigAll_ok (h : s.MemOk) : OutOk (execSigAll gs s) := by
  unfold execSigAll
  dsimp only
  refine sigWord_ok h fun _ _ u k => ?_
  split
  · exact k.stopWord
  · exact k.goOn.modCle.sendAll.allDone

theorem execTfire_ok {tile : ℕ} (h : s.MemOk) : OutOk (execTfire tile s) := by
  unfold execTfire
  dsimp only
  refine runWord_ok h fun _ _ u k => ?_
  split
  · exact k.tileRead.postBad.stopWord
  · split
    · exact k.tileRead.stopWord
    · split
      · exact k.tileRead.stopWord
      · exact k.tileRead.holdWord.ite k.tileRead.modCle.goOn

theorem chunkWord_ok {f : Chunk → Chunk} (h : s.MemOk) : OutOk (chunkWord n f s) := runWord_ok h fun _ _ _ k => k.goOn.modCle

theorem execSetkAddr_ok (h : s.MemOk) : OutOk (execSetkAddr n imm s) := chunkWord_ok h

theorem execSetkAddrAdd_ok (h : s.MemOk) : OutOk (execSetkAddrAdd n imm s) := chunkWord_ok h

theorem execSetkAddrArg_ok (h : s.MemOk) : OutOk (execSetkAddrArg n imm s) := by
  unfold execSetkAddrArg
  dsimp only
  refine runWord_ok h fun _ _ u k => ?_
  split
  · exact k.threadStop
  · next e => exact (k.loadBytes.of_eq e).goOn.modCle

theorem execSetkRlen_ok (h : s.MemOk) : OutOk (execSetkRlen n imm s) := chunkWord_ok h

theorem execSetkNrow_ok (h : s.MemOk) : OutOk (execSetkNrow n imm s) := chunkWord_ok h

theorem execSetkRstr_ok (h : s.MemOk) : OutOk (execSetkRstr n imm s) := chunkWord_ok h

theorem execLystilLoop_ok (h : s.MemOk) : OutOk (execLystilLoop ln count s) := runWord_ok h fun _ _ _ k => k.goOn.modCle

theorem execBnz_ok {off : BitVec 24} (h : s.MemOk) : OutOk (execBnz ln off s) :=
  runWord_ok h fun _ _ _ k => k.modCle.goOn.ite (k.modCle.stopWord.ite k.modCle.modCle)

theorem execGjoin_ok {inc : ℕ} (h : s.MemOk) : OutOk (execGjoin gs n inc gid s) := by
  unfold execGjoin
  refine runWord_ok h fun _ _ u k => ?_
  dsimp only
  split
  · exact k.stopWord
  · split
    · exact k.threadStop
    · next s1 e =>
      have k : s1.MemOk := k.streamLoad.of_eq e
      split
      · exact k.stopWord
      · split
        · exact k.stopWord
        · exact k.goOn.modCle.foldl fun _ _ k => k.handlePacket.getD k

theorem execGfree_ok (h : s.MemOk) : OutOk (execGfree gs s) := by
  unfold execGfree
  dsimp only
  refine runWord_ok h fun _ _ u k => ?_
  split
  · exact k.stopWord
  · split
    · exact k.goOn.modCle.ite k.holdWord
    · exact k.holdWord.ite k.modCle.sendAll.holdWord

theorem execLystilEnd_ok (h : s.MemOk) : OutOk (execLystilEnd s) := sigWord_ok h fun _ _ _ k => k.stopWord

theorem execLystilBadop_ok {x : BitVec 64} (h : s.MemOk) : OutOk (execLystilBadop x s) := runWord_ok h fun _ _ _ k => k.stopWord

end

/-! ### Machine/Rambler.lean -/

section
variable {s : State} {c b a n die ctx r q wid cause lid scope e src varId tok typ : ℕ} {l : List Byte} {w kill : Bool}

theorem State.MemOk.setStore {l : List Record} (h : s.MemOk) : (s.setStore die l).MemOk := h.same rfl

theorem State.MemOk.placeRecord {r : Record} (h : s.MemOk) : (s.placeRecord die r c).MemOk := by
  unfold State.placeRecord
  dsimp only
  split
  · exact h.setStore.postBad.killedAway
  · exact h.setStore.modCore

theorem State.MemOk.placeFresh {head : ℕ} (h : s.MemOk) : (s.placeFresh lid head).MemOk :=
  (h.foldl (fun _ _ k => k.modCore)).setLaunch

theorem execRamblerPlace_ok (h : s.MemOk) : OutOk (execRamblerPlace lid s) := by
  unfold execRamblerPlace
  dsimp only
  split
  · exact h
  · split
    · exact h.placeRecord
    · split
      · exact h.placeFresh
      · exact h

theorem State.MemOk.discardQueued (h : s.MemOk) : (s.discardQueued lid).MemOk :=
  h.foldl fun _ _ k => k.modCore.foldl fun _ _ k2 => k2.taskEnded

theorem State.MemOk.discardSaved (h : s.MemOk) : (s.discardSaved lid).MemOk :=
  h.foldl fun _ _ k => k.foldl fun _ _ k2 => k2.dropSaved.taskEnded.modLaunch

theorem State.MemOk.discardRecords (h : s.MemOk) : (s.discardRecords lid).MemOk :=
  h.foldl fun _ _ k => k.setStore.foldl fun _ _ k2 => k2.taskEnded

theorem State.MemOk.discardFresh (h : s.MemOk) : (s.discardFresh lid).MemOk :=
  h.foldl fun _ _ k => k.foldl fun _ _ k2 => k2.emptyBank.taskEnded.modLaunch.ite k2

theorem State.MemOk.killTasks {f : Bank → Bool} (h : s.MemOk) : (s.killTasks f cause).MemOk :=
  h.foldl fun _ _ k => (k.foldl (fun _ _ k2 => k2.modBank.ite k2)).foldl fun _ _ k2 => k2.killSaved

theorem State.MemOk.cancelQueued (h : s.MemOk) : (s.cancelQueued lid).MemOk := h.modLaunch.discardQueued.discardRecords

theorem State.MemOk.cancelLaunch (h : s.MemOk) : (s.cancelLaunch lid kill cause).MemOk := by
  unfold State.cancelLaunch
  dsimp only
  split
  · exact h.cancelQueued.discardFresh.discardSaved.killTasks
  · exact h.cancelQueued.discardFresh.discardSaved

theorem State.MemOk.killContext (h : s.MemOk) : (s.killContext ctx).MemOk := by
  unfold State.killContext
  dsimp only
  refine .foldl ((h.foldl (fun _ _ k => k.cancelQueued)).killTasks.foldl (fun _ _ k => k.modCore)) fun u _ k => ?_
  refine .foldl (k.modCle.foldl (fun _ _ k2 => k2.schedDone)) fun u _ k2 => ?_
  split
  · exact k2.killThread.ite k2
  · exact k2

theorem State.MemOk.dropAsk (h : s.MemOk) : (s.dropAsk src lid).MemOk := by
  unfold State.dropAsk
  split
  · exact h.modFe
  · exact h.same rfl

theorem State.MemOk.spawnDone {parent : Option ℕ} {w : Word} (h : s.MemOk) : (s.spawnDone c varId tok parent w).MemOk := by
  unfold State.spawnDone
  dsimp only
  split
  · exact h.token.modLaunch
  · exact h.token

theorem State.MemOk.reject {a : Ask} (h : s.MemOk) : (s.reject src a).MemOk := by
  unfold State.reject
  split
  · exact h.dropAsk.feDone.notify
  · exact h.dropAsk.spawnDone

theorem State.MemOk.startLaunch {a : Ask} {n : Nest} (h : s.MemOk) : (s.startLaunch src a n).MemOk :=
  h.dropAsk.setLaunch.countLaunch

theorem execRamblerLaunchAccept_ok (h : s.MemOk) : OutOk (execRamblerLaunchAccept src s) := by
  unfold execRamblerLaunchAccept
  dsimp only
  split
  · exact h
  · split
    · exact h
    · split
      · exact h.reject
      · split
        · exact h
        · exact h.touchWalk.postFlt
        · exact h.touchWalk.postBad.reject
        · exact h.touchWalk.postTable.reject
        · next e =>
            split
            · exact h
            · split
              · exact (h.translateFresh.of_eq e).postBad.reject
              · split
                · exact (h.translateFresh.of_eq e).access.startLaunch
                · exact (h.translateFresh.of_eq e).access.reject

theorem State.MemOk.acceptSpawn {cmd : List Byte} (h : s.MemOk) : (s.acceptSpawn c b varId tok cmd).MemOk := by
  unfold State.acceptSpawn
  dsimp only
  split
  · exact h.modLaunch.spawnDone
  · exact h.same rfl

theorem execLaunchComplete_ok (h : s.MemOk) : OutOk (execLaunchComplete lid s) := by
  unfold execLaunchComplete
  dsimp only
  split
  · exact h
  · refine State.MemOk.ite (.notify ?_) (.notify (.notify ?_))
    · split
      · exact h.launchesDrop.feDone
      · exact h.launchesDrop.spawnDone
    · split
      · exact h.launchesDrop.feDone
      · exact h.launchesDrop.spawnDone

theorem execPhaseComplete_ok (h : s.MemOk) : OutOk (execPhaseComplete lid scope wid n s) := by
  unfold execPhaseComplete
  dsimp only
  split
  · exact h
  · split
    · exact h
    · exact (h.foldl (fun _ _ k => k.modCore)).foldl fun _ _ k => k.setStore

theorem State.MemOk.feStart (h : s.MemOk) : (s.feStart q n).MemOk := h.access.modFe

theorem State.MemOk.feRun {f : ℕ → State → State} (h : s.MemOk) (hf : ∀ a0 u, u.MemOk → (f a0 u).MemOk) :
    (s.feRun q typ f).MemOk := by
  unfold State.feRun
  split
  · exact h
  · exact (hf _ _ h.feStart).ite h

theorem execFeLaunch_ok (h : s.MemOk) : OutOk (execFeLaunch q s) := h.feRun fun _ _ k => k

theorem execFeSched_ok (h : s.MemOk) : OutOk (execFeSched q s) := by
  unfold execFeSched
  refine State.MemOk.feRun h fun _ u k => ?_
  dsimp only
  split
  · exact k.postBad.feDone.notify
  · exact k.access.acceptStart

theorem State.MemOk.feWaited (h : s.MemOk) : (s.feWaited q).MemOk := by
  unfold State.feWaited
  split
  · exact h
  · exact h.feDone.ite h

theorem execFeWaitev_ok (h : s.MemOk) : OutOk (execFeWaitev q s) := by
  unfold execFeWaitev
  split
  · exact h.feWaited
  · exact h.feRun fun _ _ k => k.feWaited

theorem execFeSigev_ok (h : s.MemOk) : OutOk (execFeSigev q s) := h.feRun fun _ _ k => k.signal.feDone

theorem State.MemOk.cancelEntry {e : FeEntry} (h : s.MemOk) : (s.cancelEntry q kill e).MemOk := by
  unfold State.cancelEntry
  dsimp only
  split
  · exact h.cancelLaunch
  · refine .foldl h fun u _ k => ?_
    split
    · exact k.modCle.schedDone
    · split
      · refine .foldl k fun u _ k2 => ?_
        split
        · exact k2.killThread.ite k2
        · exact k2
      · exact k
  · exact h.feDone
  · exact h

theorem State.MemOk.cancelQueue (h : s.MemOk) : (s.cancelQueue q kill).MemOk := (h.foldl (fun _ _ k => k.cancelEntry)).modFe

theorem State.MemOk.haltq (h : s.MemOk) : (s.haltq q kill).MemOk := by
  unfold State.haltq
  split
  · exact h
  · split
    · exact h.feRun fun _ _ k => k.cancelQueue.feHalt
    · exact h

theorem execHaltqDrain_ok (h : s.MemOk) : OutOk (execHaltqDrain q s) := h.haltq

theorem execHaltqKill_ok (h : s.MemOk) : OutOk (execHaltqKill q s) := h.haltq

theorem execFeBadEntry_ok (h : s.MemOk) : OutOk (execFeBadEntry q s) := by
  unfold execFeBadEntry
  dsimp only
  split
  · exact h
  · split
    · exact h.postBad.modFe.notify
    · split
      · exact h
      · exact h.modFe.notify

theorem execRampWindow_ok (h : s.MemOk) : OutOk (execRampWindow s) := by
  unfold execRampWindow
  dsimp only
  split
  · exact h.foldl fun _ _ k => k.modCore
  · split
    · exact (h.foldl (fun _ _ k => k.modCore)).same rfl
    · exact h.foldl fun _ _ k => k.modCore

end

/-! ### Machine/Links.lean -/

section
variable {s : State} {c n cls q unit port e : ℕ} {l : List Byte} {j : JobKey} {v : BitVec 64} {m : Mover}

theorem State.MemOk.postLev (h : s.MemOk) : (s.postLev l).MemOk := postLev_ok _ _ h

theorem State.MemOk.linkAnswer (h : s.MemOk) : s.linkAnswer.MemOk := h.foldl fun _ _ k => k.modCore

theorem State.MemOk.moveAway {other : ℕ} (h : s.MemOk) : (s.moveAway port other).MemOk := h.modPort.modPort.pump

theorem State.MemOk.comeUp {kind mask : ℕ} (h : s.MemOk) : (s.comeUp port kind mask unit).MemOk := by
  unfold State.comeUp
  dsimp only
  refine .linkAnswer ?_
  split
  · exact h.modPort.postLev.pump.moveAway
  · exact h.modPort.postLev.pump

theorem State.MemOk.goDown (h : s.MemOk) : (s.goDown port unit).MemOk := by
  unfold State.goDown
  dsimp only
  split
  · exact h.modPort.postLev.moveAway
  · exact h.modPort.postLev

theorem State.MemOk.restripeAck {ack : ℕ} (h : s.MemOk) : (s.restripeAck port ack).MemOk :=
  h.ite (h.modPort.ite h.modPort.comeUp)

theorem State.MemOk.restripeAcks {l : List (ℕ × ℕ)} (h : s.MemOk) : (s.restripeAcks l).MemOk := by
  unfold State.restripeAcks
  refine .foldl h fun u _ k => ?_
  split
  · exact k.restripeAck
  · exact k

theorem State.MemOk.startRetrain (h : s.MemOk) : (s.startRetrain port).MemOk := h.ite h.modPort

theorem State.MemOk.joinPart {f : Flit} (h : s.MemOk) : (s.joinPart port f).MemOk := h.modPort.modPort.ite h

theorem execFlitReceive_ok {f : BitVec 320} (h : s.MemOk) : OutOk (execFlitReceive port f s) := by
  unfold execFlitReceive
  dsimp only
  split
  · trivial
  · split
    · exact h
    · split
      · exact h.modPort.pump.linkAnswer.ite h.modPort.pump
      · split
        · exact h.modPort.pump.linkAnswer.ite h.modPort.pump
        · split
          · exact h.joinPart.modPort.pump.linkAnswer
          · exact h.joinPart.modPort.pump
        · exact h.modPort.pump.linkAnswer.ite h.modPort.pump
        · exact h.modPort.pump.linkAnswer.ite h.modPort.pump
        · exact h.modPort.pump.linkAnswer.ite h.modPort.pump
        · exact (h.modPort.pump.linkAnswer.ite h.modPort.pump).restripeAck
        · exact h.modPort.pump.linkAnswer.ite h.modPort.pump

theorem execGoBack_ok (h : s.MemOk) : OutOk (execGoBack port s) := by
  unfold execGoBack
  dsimp only
  split
  · exact h.modPort
  · exact h

theorem execReplayTimeout_ok (h : s.MemOk) : OutOk (execReplayTimeout port s) := by
  unfold execReplayTimeout
  dsimp only
  split
  · exact h.modPort
  · exact h

theorem execLossOfLight_ok (h : s.MemOk) : OutOk (execLossOfLight unit s) := by
  unfold execLossOfLight
  split
  · trivial
  · exact h.foldl fun _ _ k => k.modPort

theorem execLossDetected_ok (h : s.MemOk) : OutOk (execLossDetected port s) := by
  unfold execLossDetected
  dsimp only
  split
  · exact h
  · split
    · exact h.goDown
    · exact h.modPort

theorem execRestripeAck_ok {ack : BitVec 16} (h : s.MemOk) : OutOk (execRestripeAck port ack s) := h.restripeAck

theorem execRetrainStart_ok (h : s.MemOk) : OutOk (execRetrainStart port s) := by
  unfold execRetrainStart
  dsimp only
  split
  · trivial
  · split
    · exact h
    · exact h.startRetrain

theorem execRetrainEnd_ok {lock : BitVec 16} (h : s.MemOk) : OutOk (execRetrainEnd port lock s) := by
  unfold execRetrainEnd
  dsimp only
  split
  · exact h
  · split
    · exact h.modPort.goDown
    · exact h.modPort.comeUp

theorem State.MemOk.writeLinkCtl {v : Word} (h : s.MemOk) : (s.writeLinkCtl port v).MemOk :=
  h.modPort.startRetrain.ite h.modPort

theorem execLinkCtlRetrain_ok (h : s.MemOk) : OutOk (execLinkCtlRetrain port v s) := by
  unfold execLinkCtlRetrain
  split
  · trivial
  · exact h.writeLinkCtl

theorem State.MemOk.writeSlotBase {v : Word} (h : s.MemOk) : (s.writeSlotBase port v).MemOk := h.ite h.modPort

theorem execSlotBaseWrite_ok (h : s.MemOk) : OutOk (execSlotBaseWrite port v s) := h.writeSlotBase

theorem execSlotTableLoad_ok (h : s.MemOk) : OutOk (execSlotTableLoad port s) := by
  unfold execSlotTableLoad
  dsimp only
  split
  · exact h
  · exact h.access.modPort

theorem execMemorySlot_ok (h : s.MemOk) : OutOk (execMemorySlot port s) := by
  unfold execMemorySlot
  dsimp only
  split
  · trivial
  · split
    · exact h
    · exact h.modPort

theorem State.MemOk.performUnits {m : ℕ} (h : s.MemOk) : (s.performUnits n m l).MemOk := by
  induction n generalizing s m l with
  | zero => exact h
  | succ n ih =>
    unfold State.performUnits
    dsimp only
    exact h.ite (ih (h.ite h.homeStore))

theorem State.MemOk.postBack {q : OutPacket} (h : s.MemOk) : (s.postBack port q).MemOk := h.post.ite h.modPort.pump

theorem execRemoteWritePacket_ok (h : s.MemOk) : OutOk (execRemoteWritePacket port s) := by
  unfold execRemoteWritePacket
  dsimp only
  split
  · exact h.modPort.performUnits.postBack
  · exact h.modPort.performUnits
  · exact h

theorem State.MemOk.takeAck (h : s.MemOk) : (s.takeAck j).MemOk := by
  unfold State.takeAck
  dsimp only
  split
  · exact h
  · exact h.same rfl

theorem execRemoteWriteAck_ok {m : ℕ} (h : s.MemOk) : OutOk (execRemoteWriteAck c e m n s) := by
  unfold execRemoteWriteAck
  dsimp only
  split
  · exact (h.foldl (fun _ _ k => k.takeAck)).settle
  · exact h.foldl fun _ _ k => k.takeAck

theorem execCircuitConnect_ok {dest cap : ℕ} (h : s.MemOk) : OutOk (execCircuitConnect port dest cap s) := by
  unfold execCircuitConnect
  split
  · trivial
  · split
    · exact h
    · exact h.modPort.pump

theorem State.MemOk.credit {vc : ℕ} {gives : Bool} (h : s.MemOk) : (s.credit port cls vc gives).MemOk := h.modPort.pump

end

/-! ### Machine/Host.lean -/

section
variable {s : State} {c b n die q off base idx size port len seq prio secs : ℕ} {x : Card} {l : List Byte} {two w ok : Bool}
  {v : BitVec 64} {m : Mover} {o : VecOps}

theorem State.MemOk.unblock {w : Why} (h : s.MemOk) : (s.unblock c b w).MemOk := h.ite h.modCore

theorem State.MemOk.retry {x : Requester} (h : s.MemOk) : (s.retry x).MemOk := by
  unfold State.retry
  split
  · exact h
  · exact h.unblock.ite h.modCore
  · split
    · exact h.setCard
    · exact h
  · exact h.modCle
  · exact h.modCle
  · exact h

theorem State.MemOk.endFault {x : Requester} (h : s.MemOk) : (s.endFault x).MemOk := by
  unfold State.endFault
  split
  · exact h
  · split
    · exact h.killTask
    · split
      · exact h.killSaved
      · exact h
  · split
    · exact h.ite h.endCard
    · exact h
  · exact h.stopThread
  · split
    · exact h
    · exact h.loseOp
  · split
    · exact h.reject
    · exact h

theorem State.MemOk.answerFlt {stop : Bool} (h : s.MemOk) : (s.answerFlt die seq stop).MemOk := by
  unfold State.answerFlt
  dsimp only
  split
  · exact h
  · exact h.setRing.endFault.ite h.setRing.retry

theorem execFltAnsRetry_ok (h : s.MemOk) : OutOk (execFltAnsRetry die seq s) := h.answerFlt

theorem execFltAnsEnd_ok (h : s.MemOk) : OutOk (execFltAnsEnd die seq s) := h.answerFlt

theorem State.MemOk.armEinj {v : Word} (h : s.MemOk) : (s.armEinj c v).MemOk := by
  unfold State.armEinj
  dsimp only
  split
  · exact h
  · split
    · exact h.same rfl
    · split
      · exact h.same rfl
      · split <;> exact h.same rfl

theorem State.MemOk.upset (h : s.MemOk) : (s.upset c n off two).MemOk := by
  unfold State.upset
  split
  · split <;> exact h.same rfl
  · exact h.modCore.ite h

theorem State.MemOk.collectiveError (h : s.MemOk) : (s.collectiveError die).MemOk := h.pushFlt.setKills

theorem execEinjArm_ok (h : s.MemOk) : OutOk (execEinjArm c v s) := by
  unfold execEinjArm
  split
  · trivial
  · exact h.armEinj

theorem State.MemOk.clearElog (h : s.MemOk) : (s.clearElog c).MemOk := h.modCore

theorem execElogCntClear_ok (h : s.MemOk) : OutOk (execElogCntClear c s) := by
  unfold execElogCntClear
  split
  · trivial
  · exact h.clearElog

theorem State.MemOk.writeRamp {v : Word} (h : s.MemOk) : (s.writeRamp v).MemOk := h.same rfl

theorem execRampStepWrite_ok (h : s.MemOk) : OutOk (execRampStepWrite v s) := h.writeRamp

theorem State.MemOk.writeMigTail {v : Word} (h : s.MemOk) : (s.writeMigTail v).MemOk := h.same rfl

theorem execMigTailWrite_ok (h : s.MemOk) : OutOk (execMigTailWrite v s) := h.writeMigTail

theorem State.MemOk.killThreads {v : Word} (h : s.MemOk) : (s.killThreads die v).MemOk :=
  h.foldl fun _ _ k => k.killThread.ite k

theorem State.MemOk.writeCreg {v : Word} (h : s.MemOk) : (s.writeCreg c idx v).MemOk := by
  unfold State.writeCreg
  dsimp only
  split
  · exact h
  · split
    · exact h.modCore
    · split
      · exact h.same rfl
      · split
        · exact h.same rfl
        · split
          · exact h.writeRamp
          · exact h.writeMigTail
          · exact h.writeRload
          · exact h.writeRload
          · exact h.modCle
          · exact h.killThreads
          · exact h.armEinj
          · exact h.clearElog
          · exact h.setRing
          · exact h.setRing.drainFlt
          · exact h.answerFlt
          · exact h.writeLinkCtl
          · exact h.writeSlotBase
          · exact h

theorem execControlRegisterWrite_ok (h : s.MemOk) : OutOk (execControlRegisterWrite c idx v s) := by
  unfold execControlRegisterWrite
  split
  · trivial
  · exact h.writeCreg

theorem State.MemOk.writeTail (h : s.MemOk) : (s.writeTail q n).MemOk := h.modFe

theorem execQueueTailWrite_ok {v : BitVec 32} (h : s.MemOk) : OutOk (execQueueTailWrite q v s) := by
  unfold execQueueTailWrite
  split
  · trivial
  · exact h.writeTail

theorem State.MemOk.writeBar0 {o v : ℕ} (h : s.MemOk) : (s.writeBar0 o len v).MemOk := by
  unfold State.writeBar0
  dsimp only
  split
  · exact h.same rfl
  · split
    · exact h.same rfl
    · split
      · exact h
      · split
        · exact h.writeTail
        · split
          · exact h.same rfl
          · split
            · exact h.same rfl
            · exact h

theorem execHostWindowAccess_ok {wr : Option ℕ} (h : s.MemOk) : OutOk (execHostWindowAccess off len wr s) := by
  unfold execHostWindowAccess
  dsimp only
  split
  · split
    · exact h
    · split
      · split
        · exact h.touchFrames.usePorts.postBad
        · exact h.touchFrames.usePorts.homeStore
      · split
        · exact h.touchFrames.usePorts.postBad.same rfl
        · exact h.touchFrames.usePorts.same rfl
  · split
    · exact h.same rfl
    · exact h.writeBar0

theorem State.MemOk.replyWith (h : s.MemOk) : (s.replyWith l).MemOk := by
  unfold State.replyWith
  dsimp only
  refine .interrupt ?_
  exact h.same rfl

theorem State.MemOk.refuseMail (h : s.MemOk) : s.refuseMail.MemOk := h.replyWith

theorem execMailboxBadCommand_ok {code : ℕ} (h : s.MemOk) : OutOk (execMailboxBadCommand code s) := h.ite h.refuseMail

theorem State.MemOk.setq (h : s.MemOk) : (s.setq q base size prio).MemOk := h.refuseMail.ite h.modFe.replyWith

theorem State.MemOk.startq (h : s.MemOk) : (s.startq q).MemOk := h.refuseMail.ite h.modFe.replyWith

theorem State.MemOk.stopq (h : s.MemOk) : (s.stopq q).MemOk := h.refuseMail.ite h.cancelQueue.replyWith

theorem State.MemOk.statusMail (h : s.MemOk) : s.statusMail.MemOk := h.replyWith

theorem State.MemOk.attest {nonce : ℕ} (h : s.MemOk) : (s.attest nonce).MemOk := h.replyWith

theorem State.MemOk.loadfw {image : BitVec 512} {valid : Bool} (h : s.MemOk) : (s.loadfw image valid).MemOk := by
  unfold State.loadfw
  dsimp only
  refine .replyWith ?_
  exact h.same rfl

theorem State.MemOk.resetWarm (h : s.MemOk) : s.resetWarm.MemOk := by
  unfold State.resetWarm
  dsimp only
  split
  · exact h.refuseMail
  · refine .replyWith ?_
    exact h.same rfl

theorem State.MemOk.resetCold (h : s.MemOk) : s.resetCold.MemOk := by
  unfold State.resetCold
  dsimp only
  refine .replyWith ?_
  exact h.same rfl

theorem execSetq_ok (h : s.MemOk) : OutOk (execSetq q base size prio s) := h.setq

theorem execStartq_ok (h : s.MemOk) : OutOk (execStartq q s) := h.startq

theorem execStopq_ok (h : s.MemOk) : OutOk (execStopq q s) := h.stopq

theorem execStatus_ok (h : s.MemOk) : OutOk (execStatus s) := h.statusMail

theorem execAttest_ok {nonce : BitVec 512} (h : s.MemOk) : OutOk (execAttest nonce s) := h.attest

theorem execLoadfw_ok {image : BitVec 512} {valid : Bool} (h : s.MemOk) : OutOk (execLoadfw image valid s) := h.loadfw

theorem execResetWarm_ok (h : s.MemOk) : OutOk (execResetWarm s) := h.resetWarm

theorem execResetCold_ok (h : s.MemOk) : OutOk (execResetCold s) := h.resetCold

theorem State.MemOk.takeMail (h : s.MemOk) : s.takeMail.MemOk := by
  unfold State.takeMail
  dsimp only
  split
  · exact h
  · split
    · exact h.setq
    · exact h.startq.ite (h.stopq.ite h.refuseMail)
    · exact h.statusMail
    · exact h.attest
    · exact h.refuseMail.ite h.loadfw
    · exact h.resetWarm.ite (h.resetCold.ite h.refuseMail)
    · exact h.refuseMail

theorem State.MemOk.afterReset {keep : ℕ → Bool} {port : Port → Port} {m : Mgmt} (h : s.MemOk) :
    (s.afterReset keep port m).MemOk := memFilter_ok _ _ h

theorem State.MemOk.recover (h : s.MemOk) : s.recover.MemOk := h.afterReset

theorem State.MemOk.failStart {warm : Bool} (h : s.MemOk) : (s.failStart warm).MemOk := by
  unfold State.failStart
  dsimp only
  split
  · exact h.same rfl
  · split
    · refine .recover ?_
      exact h.same rfl
    · exact h.same rfl

theorem execColdStart_ok (h : s.MemOk) : OutOk (execColdStart secs ok s) := by
  unfold execColdStart
  dsimp only
  split
  · exact h
  · split
    · exact h.setTraining.afterReset
    · exact h.failStart

theorem execWarmStart_ok {moved : Bool} (h : s.MemOk) : OutOk (execWarmStart secs ok moved s) := by
  unfold execWarmStart
  split
  · exact h
  · split
    · exact h.afterReset
    · exact h.failStart

theorem execStartFailure_ok {warm : Bool} (h : s.MemOk) : OutOk (execStartFailure warm s) := by
  unfold execStartFailure
  split
  · split
    · exact h.failStart
    · exact h
  · split
    · exact h.failStart
    · exact h

theorem execTelemetrySample_ok {rails : List (ℕ × ℕ)} {temps : List ℕ} (h : s.MemOk) :
    OutOk (execTelemetrySample rails temps s) := h.same rfl

theorem execPowerCapExceeded_ok {lower : BitVec 16} (h : s.MemOk) : OutOk (execPowerCapExceeded lower s) := by
  unfold execPowerCapExceeded
  dsimp only
  split
  · exact h.writeRamp
  · exact h

theorem execDieOvertemp_ok (h : s.MemOk) : OutOk (execDieOvertemp die s) := by
  unfold execDieOvertemp
  split
  · trivial
  · exact h.setMgmt.postFlt

theorem execHeartbeat_ok {answered : Bool} (h : s.MemOk) : OutOk (execHeartbeat answered s) := h.same rfl

theorem State.MemOk.attach (h : s.MemOk) : s.attach.MemOk := by
  unfold State.attach
  dsimp only
  split
  · exact h.same rfl
  · exact h

theorem State.MemOk.remap {cells : List Host.Cell} {training : Word} (h : s.MemOk) : (s.remap cells training).MemOk := by
  unfold State.remap
  dsimp only
  split
  · exact h
  · exact List.foldlRecOn _ _ (motive := fun m => Memory.wf m = true) (memFilter_ok _ _ h)
      fun m k e _ => memWrite_ok m _ _ k

end

/-! ### Machine/Direct.lean -/

section
variable {s : State} {c b a n cls ctx va r off t d len id : ℕ} {x : Card} {l : List Byte} {acc task w st : Bool} {m : Mover}
  {g : Group}

theorem State.MemOk.ctlWrite (h : s.MemOk) : (s.ctlWrite c off l).MemOk := h.foldl fun _ _ k => k.ite k.writeCreg

theorem State.MemOk.writeHome {by_ : Option Since} (h : s.MemOk) : (s.writeHome a l by_).MemOk := by
  unfold State.writeHome
  split
  · exact h.ctlWrite
  · exact h.homeStore

theorem execCoreWindowAccess_ok {wr : Option ℕ} (h : s.MemOk) : OutOk (execCoreWindowAccess c off len wr s) := by
  unfold execCoreWindowAccess
  dsimp only
  split
  · trivial
  · split
    · split
      · exact h.landWin.postBad.same rfl
      · exact h.landWin.correct.same rfl
    · split
      · exact h.landWin.postBad
      · exact h.landWin.writeHome

theorem State.MemOk.directHomes {acc : AccKind} {l : List (ℕ × ℕ)} (h : s.MemOk) :
    ExOk (fun x => x.2.MemOk) (s.directHomes c ctx acc task cls l) := by
  induction l generalizing s with
  | nil => exact h
  | cons a l ih =>
    unfold State.directHomes
    split
    · trivial
    · next s1 e =>
      have k : s1.MemOk := h.translate.of_eq e
      split
      · trivial
      · split
        · trivial
        · next s2 e' =>
          have k2 : s2.MemOk := (ih k).of_eq e'
          exact k2

theorem State.MemOk.modVar {f : VarOp → VarOp} (h : s.MemOk) : (s.modVar c id f).MemOk := h.modCore

theorem State.MemOk.performed {ws : List Write} {late : ℕ → Option (ℕ × Word)} (h : s.MemOk) :
    (s.performed c id ws late).MemOk := h.modVar

theorem State.MemOk.directFault {t : Trap} (h : s.MemOk) : (s.directFault c b t).MemOk :=
  h.modCore.touchWalk.ite h.modCore.modBank

theorem State.MemOk.directAbort {d : Direct} {t : Trap} (h : s.MemOk) : (s.directAbort c b d t).MemOk :=
  h.modCore.varDone.postBad.ite h.modCore.varDone.modBank

theorem State.MemOk.performAmo {d : Direct} (h : s.MemOk) : (s.performAmo c d a n).1.MemOk := by
  unfold State.performAmo
  dsimp only
  split
  · exact h.modCle.modCle
  · exact h.writeHome

theorem State.MemOk.performUnit {d : Direct} {u : ℕ × ℕ} (h : s.MemOk) : (s.performUnit c d u).1.MemOk := by
  unfold State.performUnit
  dsimp only
  split
  · exact h.landWin.correct.touchFrames.usePorts.writeHome
  · exact h.landWin.correct.touchFrames.usePorts.performAmo
  · exact h.landWin.correct.touchFrames.usePorts

theorem State.MemOk.performUnits64 {d : Direct} {l : List (ℕ × ℕ)} (h : s.MemOk) : (s.performUnits64 c d l).1.MemOk := by
  unfold State.performUnits64
  refine List.foldlRecOn l _ (motive := fun x : State × Direct × Bool => x.1.MemOk) h fun _ k _ _ => ?_
  exact k.performUnit

theorem State.MemOk.directDone {d : Direct} {limited : Bool} (h : s.MemOk) : (s.directDone c d limited).MemOk := by
  unfold State.directDone
  dsimp only
  split
  · exact h.performed
  · exact h.performed.ite h.performed
  · exact h
  · exact h.performed

theorem State.MemOk.runDirect {d : Direct} (h : s.MemOk) : (s.runDirect c b d).MemOk := by
  unfold State.runDirect
  dsimp only
  split
  · exact h.directAbort
  · split
    · exact h.performUnits64.modCore
    · exact h.modCore.performUnits64.directDone

theorem execDirectAccessPerform_ok (h : s.MemOk) : OutOk (execDirectAccessPerform c b s) := by
  unfold execDirectAccessPerform
  dsimp only
  split
  · exact h
  · split
    · exact h
    · split
      · exact h.runDirect.ite h
      · split
        · split
          · exact h
          · exact h.directFault
        · split
          · split
            · exact h
            · exact h.touchWalk.modCore
          · exact h.directFault
        · exact h.directAbort
        · next e => exact (h.directHomes.of_eq e).modCore.runDirect

theorem State.MemOk.fillUnits {g : Region} {f : Fill} (h : s.MemOk) : (s.fillUnits c b r g f).MemOk := by
  unfold State.fillUnits
  dsimp only
  split
  · exact h.modBank.modBank.ite h.modBank.postBad
  · split
    · exact (h.foldl (fun _ _ k => k.landWin.correct.touchFrames.usePorts)).modBank
    · split
      · exact (h.foldl (fun _ _ k => k.landWin.correct.touchFrames.usePorts)).modBank
      · exact (h.foldl (fun _ _ k => k.landWin.correct.touchFrames.usePorts)).putHome.modBank

theorem execFillLands_ok {sec : ℕ} (h : s.MemOk) : OutOk (execFillLands c b r sec s) := by
  unfold execFillLands
  dsimp only
  split
  · exact h
  · split
    · exact h
    · exact h.fillUnits.ite h

theorem execWritebackAck_ok (h : s.MemOk) : OutOk (execWritebackAck c n id s) := by
  unfold execWritebackAck
  dsimp only
  split
  · exact h
  · split
    · split
      · exact h.writeHome.usePorts.modVar
      · exact h.writeHome.usePorts.modCore.varDone
    · exact h

theorem State.MemOk.putFrame {f on : ℕ} (h : s.MemOk) : (s.putFrame f on off).MemOk := putFrame_ok _ _ _ _ h

theorem State.MemOk.sweepFrame (h : s.MemOk) : s.sweepFrame.MemOk := sweepFrame_ok _ h

theorem execSweepStep_ok (h : s.MemOk) : OutOk (execSweepStep s) := by
  have k (run : Bool) : ({ s with sweeping := run } : State).MemOk := h.same rfl
  exact (k _).sweepFrame.ite (k _)

theorem State.MemOk.migStatus {st : ℕ} (h : s.MemOk) : (s.migStatus n st).MemOk := migStatus_ok _ _ _ h

theorem State.MemOk.migNext (h : s.MemOk) : s.migNext.MemOk := h.usePorts.same rfl

theorem State.MemOk.dropPage (h : s.MemOk) : (s.dropPage ctx va).MemOk := h.foldl fun _ _ k => k.modCore

theorem State.MemOk.moveStart {cmd : ℕ} (h : s.MemOk) : (s.moveStart cmd).MemOk := by
  unfold State.moveStart
  have k : ((s.ctxReads (bitsN cmd 16 16) (bitsN cmd 64 64)).foldl (fun u a => u.usePorts 0 8 0 a 8) s.migNext).MemOk :=
    h.migNext.foldl fun _ _ k => k.usePorts
  dsimp only
  split
  · exact k.postTable.migStatus
  · split
    · exact k.migStatus
    · refine k.migStatus.ite (k.migStatus.ite (k.migStatus.ite (.addMig ?_)))
      split
      · exact k.orPte.usePorts.dropPage.putFrame
      · exact k.orPte.usePorts.dropPage

theorem execMigrationMoveStart_ok (h : s.MemOk) : OutOk (execMigrationMoveStart s) := by
  unfold execMigrationMoveStart
  split
  · exact h.moveStart
  · exact h

theorem execMigrationBadCommand_ok (h : s.MemOk) : OutOk (execMigrationBadCommand s) := by
  unfold execMigrationBadCommand
  dsimp only
  split
  · exact h
  · split
    · exact h.migNext.postBad.migStatus
    · split
      · exact h
      · exact h.migNext.migStatus

theorem execMigrationDrainDone_ok (h : s.MemOk) : OutOk (execMigrationDrainDone n s) := by
  unfold execMigrationDrainDone
  dsimp only
  split
  · exact h
  · split
    · exact h
    · exact h.same rfl

theorem State.MemOk.migLateAnswer (h : s.MemOk) : (s.migLateAnswer c b ctx va).MemOk := h.ite h.modCore

theorem State.MemOk.migAnswer (h : s.MemOk) : (s.migAnswer ctx va).MemOk :=
  h.foldl fun _ _ k => (k.foldl (fun _ _ k2 => k2.migLateAnswer.unblock.ite k2.migLateAnswer)).modCore

theorem State.MemOk.migEnd {m : MigCmd} {leaf st : ℕ} (h : s.MemOk) : (s.migEnd m leaf st).MemOk := by
  have k : ({ s with mem := memPut s.mem m.pte 8 leaf, migs := s.migs.filter fun k => k.n != m.n } : State).MemOk :=
    memPut_ok _ _ _ _ h
  exact k.usePorts.migAnswer.migStatus

theorem State.MemOk.migFrames {m : MigCmd} (h : s.MemOk) : (s.migFrames m).MemOk := by
  unfold State.migFrames
  have k : (match s.localFrame m.old with
      | some f => s.putFrame f 0 25
      | none => s).MemOk := by
    split
    · exact h.putFrame
    · exact h
  dsimp only
  cases s.localFrame m.npte with
  | none => exact k
  | some f => exact (State.MemOk.setMem (memPut_ok _ _ _ _ (memPut_ok _ _ _ _ k))).usePorts.putFrame

theorem execMigrationCommit_ok (h : s.MemOk) : OutOk (execMigrationCommit n s) := by
  unfold execMigrationCommit
  dsimp only
  split
  · exact h
  · split
    · exact h
    · exact h.putHome.usePorts.usePorts.migFrames.migEnd

theorem execMigrationLost_ok (h : s.MemOk) : OutOk (execMigrationLost n s) := by
  unfold execMigrationLost
  split
  · exact h
  · split
    · exact h
    · refine State.MemOk.migEnd ?_
      split
      · exact h.postBad.putFrame
      · exact h.postBad

theorem execMigrationFail_ok (h : s.MemOk) : OutOk (execMigrationFail n s) := by
  unfold execMigrationFail
  split
  · exact h
  · refine State.MemOk.postFlt (.migEnd ?_)
    split
    · exact h.putFrame
    · exact h

/-- What SCRUB_PASS goes on to do when it has read the frame. -/
theorem scrubRead_ok {frame : ℕ} (h : s.MemOk) :
    OutOk (match s.badIn (frame * n) n with
    | none => .next s
    | some w =>
      let a := frameTable + 16 * frame
      let s := s.usePorts 3 8 0 a 16
      let ctx := memNat s.mem (a + 8) 2
      let s1 := s.postBad 0 ctx w reportCore 0
      if ¬ (s.frame frame).testBit 0 then .next s1
      else
        let pte := memNat s.mem a 8 / 8 * 8 % 2 ^ 52
        .next ({ s1 with mem := memPut s1.mem pte 8 (setBitsN (memNat s1.mem pte 8) 7 2 1) }.usePorts 3 8 0 pte 8)) := by
  split
  · exact h
  · exact .ite h.usePorts.postBad h.usePorts.postBad.putMem.usePorts

theorem execScrubPass_ok {frame : ℕ} (h : s.MemOk) : OutOk (execScrubPass frame s) :=
  OutOk.ite trivial (scrubRead_ok h.correct.usePorts)

end

/-! ### Machine/Save.lean -/

section
variable {s : State} {c b n q wid gid prio launch waited pc : ℕ} {x : Card} {l : List Byte} {v : BitVec 64} {m : Mover}
  {p : Plan}

theorem State.MemOk.requeue (h : s.MemOk) : (s.requeue c).MemOk := h.modCore

theorem State.MemOk.repart (h : s.MemOk) : (s.repart c).MemOk := h.setPart.foldl fun _ _ k => k.ite k.spillTiles

theorem State.MemOk.startTask {gang : List ℕ} (h : s.MemOk) : (s.startTask c b launch wid prio gang gid waited).MemOk := by
  unfold State.startTask
  dsimp only
  exact h.modBank.repart

theorem State.MemOk.startRecord {live : List Word} (h : s.MemOk) : (s.startRecord c b launch wid pc prio waited live).MemOk :=
  h.startTask.modBank.modBank

theorem State.MemOk.admitFresh {q : QEntry} (h : s.MemOk) : (s.admitFresh c b q).MemOk := by
  unfold State.admitFresh
  split
  · exact h.modCore.startTask.modLaunch
  · exact h

theorem execTaskAdmit_ok (h : s.MemOk) : OutOk (execTaskAdmit c s) := by
  unfold execTaskAdmit
  dsimp only
  split
  · trivial
  · split
    · split
      · refine State.MemOk.foldl h.requeue fun u e k => ?_
        split
        · exact k.admitFresh
        · exact k
      · exact h.requeue
    · split
      · exact h.requeue.modCore.startRecord
      · exact h.requeue
    · exact h.requeue

theorem State.MemOk.saveOne (h : s.MemOk) : ExOk State.MemOk (s.saveOne c b) := by
  unfold State.saveOne
  dsimp only
  split
  · exact h
  · trivial
  · next e =>
      split
      · trivial
      · exact (h.captureAll.of_eq e).correct.modCore.emptyBank.storeArea.repart

theorem State.MemOk.markSaving {l : List (ℕ × ℕ)} {on : Bool} (h : s.MemOk) : (s.markSaving l on).MemOk :=
  h.foldl fun _ _ k => k.modBank

theorem State.MemOk.saveEach {x : State} {l : List (ℕ × ℕ)} (hx : x.MemOk) (h : s.MemOk) : (State.saveEach x s l).MemOk := by
  induction l generalizing s with
  | nil => exact h
  | cons e l ih =>
    unfold State.saveEach
    split
    · next v => exact ih (h.saveOne.of_eq v)
    · exact hx.ite hx.takeTrapAt

theorem State.MemOk.saveBanks {l : List (ℕ × ℕ)} (h : s.MemOk) : (s.saveBanks l).MemOk := h.markSaving.saveEach h

theorem State.MemOk.trySave (h : s.MemOk) : (s.trySave c b).MemOk := h.saveBanks.ite h.markSaving

theorem execPreemption_ok (h : s.MemOk) : OutOk (execPreemption c s) := by
  unfold execPreemption
  dsimp only
  split
  · trivial
  · split
    · exact h.requeue.trySave
    · exact h.requeue.trySave.ite h.requeue
    · exact h.requeue

theorem execBlockedBankSave_ok (h : s.MemOk) : OutOk (execBlockedBankSave c s) := by
  unfold execBlockedBankSave
  dsimp only
  split
  · trivial
  · split
    · exact h.requeue.trySave
    · split
      · exact h.requeue
      · exact h.requeue.trySave

theorem execLazyWriteout_ok {m kind : ℕ} (h : s.MemOk) : OutOk (execLazyWriteout c m kind n s) := by
  unfold execLazyWriteout
  split
  · exact h
  · split
    · exact h.spillSlab
    · split
      · exact h.spillTile
      · split
        · exact h.spillPlane
        · exact h

theorem State.MemOk.resume {v : Saved} {new : List ℕ} (h : s.MemOk) : (s.resume c v waited new).MemOk := by
  unfold State.resume
  dsimp only
  exact (h.foldl (fun _ _ k => k.access)).spillSlabs.modCore.repart.modCore

theorem execContextResume_ok (h : s.MemOk) : OutOk (execContextResume c n s) := by
  unfold execContextResume
  dsimp only
  split
  · trivial
  · split
    · split
      · exact h.requeue
      · split
        · exact h.requeue.spillBad
        · exact h.requeue.resume
    · exact h.requeue

theorem State.MemOk.raiseSaved {p : ℕ} (h : s.MemOk) : (s.raiseSaved c n p).MemOk := by
  unfold State.raiseSaved
  dsimp only
  split
  · exact h
  · exact h.modSaved.storeImage

theorem execPriorityAging_ok (h : s.MemOk) : OutOk (execPriorityAging c n s) := by
  unfold execPriorityAging
  dsimp only
  split
  · trivial
  · split
    · split
      · exact h
      · exact h.modBank
    · split
      · exact h
      · split
        · exact h
        · split
          · exact h.modCore.raiseSaved
          · exact h.modCore

end

/-! ### Machine/Banks.lean -/

section
variable {s : State} {c b n ctx unit t scope e id i addr seq pc : ℕ} {x : Card} {l : List Byte} {two : Bool} {v : BitVec 64}
  {m : Mover} {o : VecOps}

theorem State.MemOk.landDue {latch : Bool} (h : s.MemOk) : (s.landDue c b latch).MemOk := by
  unfold State.landDue
  split
  · exact h
  · exact h.land.ite h

theorem execResultWrite_ok (h : s.MemOk) : OutOk (execResultWrite c b s) := h.landDue

theorem execLatchDelivery_ok (h : s.MemOk) : OutOk (execLatchDelivery c b s) := h.landDue

theorem State.MemOk.completeDue {f : VarKind → Bool} (h : s.MemOk) : (s.completeDue c id f).MemOk := by
  unfold State.completeDue
  split
  · exact h
  · exact h.varDone.ite h

theorem execXlutComplete_ok (h : s.MemOk) : OutOk (execXlutComplete c n id s) := h.completeDue

theorem execLdgComplete_ok (h : s.MemOk) : OutOk (execLdgComplete c n id s) := h.completeDue

theorem execAmoComplete_ok (h : s.MemOk) : OutOk (execAmoComplete c n id s) := h.completeDue

theorem execTldGlobalArrival_ok (h : s.MemOk) : OutOk (execTldGlobalArrival c n id s) := h.completeDue

theorem execMrecompComplete_ok (h : s.MemOk) : OutOk (execMrecompComplete c n id s) := h.completeDue

theorem execXlutTableActivate_ok (h : s.MemOk) : OutOk (execXlutTableActivate c b s) := by
  unfold execXlutTableActivate
  dsimp only
  split
  · exact h
  · split
    · exact h.completeDue
    · exact h

theorem State.MemOk.offer {o : Offer} (h : s.MemOk) : OptOk State.MemOk (s.offer c b o) := by
  unfold State.offer
  dsimp only
  split
  · split
    · trivial
    · exact h.acceptCard
  · split
    · trivial
    · exact h.acceptCard
  · split
    · trivial
    · exact h.acceptStart
  · split
    · trivial
    · exact h.acceptSpawn

theorem State.MemOk.setFull {o : Offer} {v : Bool} (h : s.MemOk) : (s.setFull c b o v).MemOk := h.applyWrite.ite h.modBank

theorem State.MemOk.releasePush {o : Offer} (h : s.MemOk) : (s.releasePush c b o).1.MemOk := by
  unfold State.releasePush
  split
  · next e => exact h.setFull.offer.of_eq e
  · split
    · exact h
    · exact h.setFull.varDone

theorem State.MemOk.releaseOut {x : Release} (h : s.MemOk) : (s.releaseOut c b x).1.MemOk := by
  unfold State.releaseOut
  split
  · split
    · exact h
    · exact h.modCore
  · exact h.releasePush
  · exact h

theorem State.MemOk.releaseAll {l : List Release} (h : s.MemOk) : (s.releaseAll c b l).1.MemOk := by
  induction l generalizing s with
  | nil =>
    unfold State.releaseAll
    dsimp only
    exact h
  | cons x l ih =>
    unfold State.releaseAll
    dsimp only
    exact ih h.releaseOut

theorem State.MemOk.arrive (h : s.MemOk) : (s.arrive c b scope).MemOk := h.modLaunch.modBank

theorem State.MemOk.releaseOwn {x : Release} (h : s.MemOk) : (s.releaseOwn c b x).MemOk := by
  unfold State.releaseOwn
  dsimp only
  split
  · exact h.arrive.modBank
  · exact h.modBank
  · exact h

theorem State.MemOk.commitSegment (h : s.MemOk) : (s.commitSegment c b).MemOk := by
  unfold State.commitSegment
  dsimp only
  split
  · exact h
  · split
    · exact h
    · split
      · exact h.releaseAll.modBank
      · exact h.releaseAll.modBank.foldl fun _ _ k => k.releaseOwn

theorem execSegmentCommit_ok (h : s.MemOk) : OutOk (execSegmentCommit c b s) := h.commitSegment

theorem State.MemOk.writeRecord (h : s.MemOk) : (s.writeRecord c b).MemOk := by
  unfold State.writeRecord
  dsimp only
  split
  · exact h.modBank
  · exact h.putHome.countRecord.setStore.emptyBank.repart

theorem State.MemOk.suspendStep (h : s.MemOk) : (s.suspendStep c b).MemOk := by
  unfold State.suspendStep
  dsimp only
  split
  · exact h.modBank.touchWalk.ite h.modBank.takeTrapAt
  · next e =>
      split
      · exact (h.captureAll.of_eq e).drain.writeRecord
      · exact h.captureAll.of_eq e

theorem State.MemOk.finishTask (h : s.MemOk) : (s.finishTask c b).MemOk := h.drain.ite (h.emptyBank.repart.taskEnded.ite h)

theorem State.MemOk.takeLate {t : Trap} (h : s.MemOk) : (s.takeLate c b t).MemOk := h.modBank.takeTrapAt

theorem execTrapEntry_ok (h : s.MemOk) : OutOk (execTrapEntry c b s) := by
  unfold execTrapEntry
  split
  · exact h.ite h.takeLate
  · exact h

theorem State.MemOk.switchTo (h : s.MemOk) : (s.switchTo c b).MemOk := h.modCore

theorem execBankSwitch_ok (h : s.MemOk) : OutOk (execBankSwitch c b s) := by
  unfold execBankSwitch
  dsimp only
  split
  · exact h.takeLate.ite h
  · split
    · exact h.switchTo
    · exact h

theorem State.MemOk.bark (h : s.MemOk) : OptOk State.MemOk (s.bark c b) := by
  unfold State.bark
  dsimp only
  split
  · trivial
  · exact h.modBank

theorem execWatchdog_ok (h : s.MemOk) : OutOk (execWatchdog c b s) := h.bark.getD h

theorem State.MemOk.rdvTimeout (h : s.MemOk) : OptOk State.MemOk (s.rdvTimeout c b) := by
  unfold State.rdvTimeout
  dsimp only
  split
  · split
    · exact h.modBank.takeTrapAt
    · trivial
  · trivial

theorem execRendezvousTimeout_ok (h : s.MemOk) : OutOk (execRendezvousTimeout c b s) := h.rdvTimeout.getD h

theorem State.MemOk.chainTimeout (h : s.MemOk) : OptOk State.MemOk (s.chainTimeout c b) := by
  unfold State.chainTimeout
  dsimp only
  split
  · exact h.modBank.takeTrapAt
  · trivial

theorem execChainTimeout_ok (h : s.MemOk) : OutOk (execChainTimeout c b s) := h.chainTimeout.getD h

theorem execTimeSliceEnd_ok (h : s.MemOk) : OutOk (execTimeSliceEnd c s) := by
  unfold execTimeSliceEnd
  dsimp only
  split
  · exact h.switchTo
  · exact h

theorem State.MemOk.logMismatch {uncorrectable : Bool} (h : s.MemOk) : (s.logMismatch c ctx unit uncorrectable).MemOk :=
  h.logArray

theorem State.MemOk.logCheck {uncorrectable : Bool} (h : s.MemOk) : (s.logCheck c b unit uncorrectable).MemOk := h.logMismatch

theorem State.MemOk.escalate (h : s.MemOk) : (s.escalate c b unit).MemOk := h.logCheck.pushFlt.takeTrapAt

theorem State.MemOk.rewindFor (h : s.MemOk) : (s.rewindFor c b unit two).MemOk := by
  unfold State.rewindFor
  dsimp only
  split
  · exact h.logCheck.escalate
  · split
    · exact h.logCheck.escalate
    · next e => exact (h.logCheck.rewind.of_eq e).holdCycles.noSpec

theorem execSegmentRewind_ok (h : s.MemOk) : OutOk (execSegmentRewind c b unit s) := by
  unfold execSegmentRewind
  dsimp only
  split
  · exact h
  · exact h.modCore.rewindFor

theorem State.MemOk.replayFor (h : s.MemOk) : (s.replayFor c b unit two seq).MemOk := by
  unfold State.replayFor
  dsimp only
  split
  · split
    · exact h.logCheck.modBank.escalate
    · exact h.logCheck.modBank.holdCycles
  · split
    · exact h.logCheck.modBank.escalate
    · exact h.logCheck.modBank.holdCycles

theorem execLocalReplay_ok (h : s.MemOk) : OutOk (execLocalReplay c b unit s) := by
  unfold execLocalReplay
  split
  · exact h
  · split
    · exact h
    · exact h.modCore.replayFor

theorem State.MemOk.answerMismatch (h : s.MemOk) : OptOk State.MemOk (s.answerMismatch c b) := by
  unfold State.answerMismatch
  dsimp only
  split
  · trivial
  · split
    · exact h.modBank.rewindFor
    · exact h.modBank.replayFor

theorem State.MemOk.engineMismatch (h : s.MemOk) : (s.engineMismatch c e n).MemOk := by
  unfold State.engineMismatch
  dsimp only
  split
  · split
    · exact h
    · split
      · exact h
      · exact h.logMismatch.endCard.pushFlt.ite h.logMismatch.setCard
  · split
    · exact h
    · exact h.logMismatch.modCle.ite h.logMismatch.pushFlt.loseOp

theorem State.MemOk.fetchCode (h : s.MemOk) : ExOk (fun x => x.2.MemOk) (s.fetchCode c b pc) := by
  unfold State.fetchCode
  dsimp only
  split
  · trivial
  · split
    · trivial
    · split
      · trivial
      · split
        · trivial
        · exact (h.setPte.ite h).touchFrames.usePorts

theorem State.MemOk.expand {m : ℕ} (h : s.MemOk) : ExOk State.MemOk (s.expand c b n m i) := by
  induction n generalizing s c b m i with
  | zero => exact h
  | succ n ih =>
    unfold State.expand
    split
    · exact h
    · split
      · trivial
      · next e => exact ih (h.fetchCode.of_eq e)

theorem State.MemOk.fetchSegment (h : s.MemOk) : ExOk State.MemOk (s.fetchSegment c b addr) := by
  unfold State.fetchSegment
  dsimp only
  split
  · exact h
  · split
    · trivial
    · next e1 =>
        split
        · trivial
        · next e2 => exact ((h.touchWalk.fetchCode.of_eq e1).expand.of_eq e2).modCore

theorem State.MemOk.fetchAhead (h : s.MemOk) : (s.fetchAhead c b addr).MemOk := by
  unfold State.fetchAhead
  split
  · next e => exact h.fetchSegment.of_eq e
  · exact h.dropAhead

theorem State.MemOk.prefetchNext (h : s.MemOk) : (s.prefetchNext c b).MemOk := by
  unfold State.prefetchNext
  split
  · exact h
  · exact h.fetchAhead

theorem execSegmentFetch_ok (h : s.MemOk) : OutOk (execSegmentFetch c b addr s) := by
  unfold execSegmentFetch
  split
  · exact h
  · exact h.fetchAhead

end

/-! ### Machine/Events.lean -/

section
variable {s : State} {c b i : ℕ} {l : List Byte} {v : BitVec 64} {p : Plan}

theorem State.MemOk.prefetch (h : s.MemOk) : (s.prefetch c b p).MemOk := by
  unfold State.prefetch
  refine .foldl h fun u _ k => ?_
  split
  · next e => exact k.startFill.of_eq e
  · exact k.dropAhead

theorem State.MemOk.streamAccess {v : State} {i : Instr} (h : s.MemOk) : (s.streamAccess c b v i).MemOk := by
  unfold State.streamAccess
  dsimp only
  split
  · exact h
  · split
    · exact h
    · split
      · exact h
      · exact h.prefetch

theorem State.MemOk.streamBundle {l : List Instr} (h : s.MemOk) : (s.streamBundle c b l).MemOk :=
  (h.foldl (fun _ _ k => k.streamAccess)).modCore

theorem execAddressStreamRun_ok (h : s.MemOk) : OutOk (execAddressStreamRun c b s) := by
  unfold execAddressStreamRun
  dsimp only
  split
  · exact h
  · split
    · exact h
    · split
      · split
        · exact h.modCore
        · split
          · exact h.modCore
          · split
            · exact h.modCore
            · exact h.modCore.streamBundle.modCore
      · split
        · exact h.modCore
        · split
          · exact h.modCore
          · split
            · exact h.modCore
            · exact h.modCore.streamBundle.modCore

end

/-! ### Machine/Dispatch.lean -/

section
variable {s : State} {i : ℕ}

theorem exec_ok {i : Instr} (h : s.MemOk) : OutOk (exec i s) := by
  cases i with
  | add => exact execAdd_ok h
  | sub => exact execSub_ok h
  | addi => exact execAddi_ok h
  | mul => exact execMul_ok h
  | mulh => exact execMulh_ok h
  | mulhu => exact execMulhu_ok h
  | div => exact execDiv_ok h
  | divu => exact execDivu_ok h
  | rem => exact execRem_ok h
  | remu => exact execRemu_ok h
  | and_ => exact execAnd_ok h
  | or_ => exact execOr_ok h
  | xor_ => exact execXor_ok h
  | andn => exact execAndn_ok h
  | shl => exact execShl_ok h
  | shr => exact execShr_ok h
  | sra => exact execSra_ok h
  | rotr => exact execRotr_ok h
  | clz => exact execClz_ok h
  | cls => exact execCls_ok h
  | ctz => exact execCtz_ok h
  | popc => exact execPopc_ok h
  | min_ => exact execMin_ok h
  | max_ => exact execMax_ok h
  | minu => exact execMinu_ok h
  | maxu => exact execMaxu_ok h
  | sel => exact execSel_ok h
  | cmp => exact execCmp_ok h
  | pand => exact execPand_ok h
  | por => exact execPor_ok h
  | pxor => exact execPxor_ok h
  | pnot => exact execPnot_ok h
  | movi => exact execMovi_ok h
  | bfx => exact execBfx_ok h
  | bfi => exact execBfi_ok h
  | sext => exact execSext_ok h
  | zext => exact execZext_ok h
  | amov => exact execAmov_ok h
  | aadd => exact execAadd_ok h
  | aaddi => exact execAaddi_ok h
  | awrap => exact execAwrap_ok h
  | aidx => exact execAidx_ok h
  | widf => exact execWidf_ok h
  | segh => exact execSegh_ok h
  | nop => exact execNop_ok h
  | br => exact execBr_ok h
  | brc => exact execBrc_ok h
  | call => exact execCall_ok h
  | ret => exact execRet_ok h
  | loopn => exact execLoopn_ok h
  | yield => exact execYield_ok h
  | end_ => exact execEnd_ok h
  | trap => exact execTrap_ok h
  | eret => exact execEret_ok h
  | rdv => exact execRdv_ok h
  | phase => exact execPhase_ok h
  | getc => exact execGetc_ok h
  | setc => exact execSetc_ok h
  | getcx => exact execGetcx_ok h
  | slabq => exact execSlabq_ok h
  | muinv => exact execMuinv_ok h
  | seed => exact execSeed_ok h
  | rampq => exact execRampq_ok h
  | vadd => exact execVadd_ok h
  | vsub => exact execVsub_ok h
  | vadds => exact execVadds_ok h
  | vsubs => exact execVsubs_ok h
  | vmul => exact execVmul_ok h
  | vmulh => exact execVmulh_ok h
  | vmuls => exact execVmuls_ok h
  | vmac => exact execVmac_ok h
  | vdot4 => exact execVdot4_ok h
  | vand => exact execVand_ok h
  | vor => exact execVor_ok h
  | vxor => exact execVxor_ok h
  | vandn => exact execVandn_ok h
  | vshl => exact execVshl_ok h
  | vshr => exact execVshr_ok h
  | vsra => exact execVsra_ok h
  | vshrd => exact execVshrd_ok h
  | vshrdCensus => exact execVshrdCensus_ok h
  | vmin => exact execVmin_ok h
  | vmax => exact execVmax_ok h
  | vabs => exact execVabs_ok h
  | vneg => exact execVneg_ok h
  | vcmp => exact execVcmp_ok h
  | vsel => exact execVsel_ok h
  | vclz => exact execVclz_ok h
  | vcls => exact execVcls_ok h
  | vpopc => exact execVpopc_ok h
  | vcnv => exact execVcnv_ok h
  | vpack => exact execVpack_ok h
  | vunpk => exact execVunpk_ok h
  | vperm => exact execVperm_ok h
  | vbcst => exact execVbcst_ok h
  | vslide => exact execVslide_ok h
  | vredadd => exact execVredadd_ok h
  | vredmax => exact execVredmax_ok h
  | vredmin => exact execVredmin_ok h
  | vscan => exact execVscan_ok h
  | vmov => exact execVmov_ok h
  | vins => exact execVins_ok h
  | vext => exact execVext_ok h
  | viota => exact execViota_ok h
  | qand => exact execQand_ok h
  | qor => exact execQor_ok h
  | qxor => exact execQxor_ok h
  | qnot => exact execQnot_ok h
  | qpopc => exact execQpopc_ok h
  | qset => exact execQset_ok h
  | xexp2 => exact execXexp2_ok h
  | xrcp => exact execXrcp_ok h
  | xrsq => exact execXrsq_ok h
  | xlog2 => exact execXlog2_ok h
  | xsigm => exact execXsigm_ok h
  | xtanh => exact execXtanh_ok h
  | xlut => exact execXlut_ok h
  | xlutld => exact execXlutld_ok h
  | xoptm => exact execXoptm_ok h
  | xopta => exact execXopta_ok h
  | lds => exact execLds_ok h
  | sts => exact execSts_ok h
  | ldv => exact execLdv_ok h
  | stv => exact execStv_ok h
  | ldvg => exact execLdvg_ok h
  | stvs => exact execStvs_ok h
  | ldvp => exact execLdvp_ok h
  | ldg => exact execLdg_ok h
  | stg => exact execStg_ok h
  | amo => exact execAmo_ok h
  | tld => exact execTld_ok h
  | tst => exact execTst_ok h
  | park => exact execPark_ok h
  | unpark => exact execUnpark_ok h
  | rmap => exact execRmap_ok h
  | runmap => exact execRunmap_ok h
  | rfill => exact execRfill_ok h
  | rflush => exact execRflush_ok h
  | rinv => exact execRinv_ok h
  | push => exact execPush_ok h
  | pushq => exact execPushq_ok h
  | mldw => exact execMldw_ok h
  | mswap => exact execMswap_ok h
  | mma => exact execMma_ok h
  | mmav => exact execMmav_ok h
  | mzero => exact execMzero_ok h
  | cshd => exact execCshd_ok h
  | cadd => exact execCadd_ok h
  | crdv => exact execCrdv_ok h
  | cwrv => exact execCwrv_ok h
  | mld => exact execMld_ok h
  | mst => exact execMst_ok h
  | mldf => exact execMldf_ok h
  | mstf => exact execMstf_ok h
  | mlru => exact execMlru_ok h
  | mlradd => exact execMlradd_ok h
  | mlrmul => exact execMlrmul_ok h
  | mrecomp => exact execMrecomp_ok h
  | mdense => exact execMdense_ok h
  | mqry => exact execMqry_ok h
  | mfree => exact execMfree_ok h
  | mget => exact execMget_ok h
  | mput => exact execMput_ok h
  | send => exact execSend_ok h
  | recv => exact execRecv_ok h
  | recvr => exact execRecvr_ok h
  | lystilCopy => exact execLystilCopy_ok h
  | red => exact execRed_ok h
  | lystilWait => exact execLystilWait_ok h
  | sigAdd => exact execSigAdd_ok h
  | sigRadd => exact execSigRadd_ok h
  | sigSrc => exact execSigSrc_ok h
  | sigLoc => exact execSigLoc_ok h
  | sigAll => exact execSigAll_ok h
  | sigSet => exact execSigSet_ok h
  | twait => exact execTwait_ok h
  | tfire => exact execTfire_ok h
  | setkAddr => exact execSetkAddr_ok h
  | setkAddrAdd => exact execSetkAddrAdd_ok h
  | setkAddrArg => exact execSetkAddrArg_ok h
  | setkRlen => exact execSetkRlen_ok h
  | setkNrow => exact execSetkNrow_ok h
  | setkRstr => exact execSetkRstr_ok h
  | lystilLoop => exact execLystilLoop_ok h
  | bnz => exact execBnz_ok h
  | gjoin => exact execGjoin_ok h
  | gfree => exact execGfree_ok h
  | lystilEnd => exact execLystilEnd_ok h
  | lystilBadop w => exact execLystilBadop_ok (x := w) h
  | xlutComplete _ b _ => exact execXlutComplete_ok (n := b) h
  | xlutTableActivate => exact execXlutTableActivate_ok h
  | ldgComplete _ b _ => exact execLdgComplete_ok (n := b) h
  | amoComplete _ b _ => exact execAmoComplete_ok (n := b) h
  | tldGlobalArrival _ b _ => exact execTldGlobalArrival_ok (n := b) h
  | mrecompComplete _ b _ => exact execMrecompComplete_ok (n := b) h
  | resultWrite => exact execResultWrite_ok h
  | segmentCommit => exact execSegmentCommit_ok h
  | segmentFetch => exact execSegmentFetch_ok h
  | addressStreamRun => exact execAddressStreamRun_ok h
  | trapEntry => exact execTrapEntry_ok h
  | latchDelivery => exact execLatchDelivery_ok h
  | segmentRewind => exact execSegmentRewind_ok h
  | localReplay => exact execLocalReplay_ok h
  | bankSwitch => exact execBankSwitch_ok h
  | fltAnsRetry => exact execFltAnsRetry_ok h
  | fltAnsEnd => exact execFltAnsEnd_ok h
  | preemption => exact execPreemption_ok h
  | contextResume => exact execContextResume_ok h
  | lazyWriteout => exact execLazyWriteout_ok h
  | blockedBankSave => exact execBlockedBankSave_ok h
  | timeSliceEnd => exact execTimeSliceEnd_ok h
  | priorityAging => exact execPriorityAging_ok h
  | watchdog => exact execWatchdog_ok h
  | rendezvousTimeout => exact execRendezvousTimeout_ok h
  | chainTimeout => exact execChainTimeout_ok h
  | phaseComplete => exact execPhaseComplete_ok h
  | rampWindow => exact execRampWindow_ok h
  | taskAdmit => exact execTaskAdmit_ok h
  | ramblerPlace => exact execRamblerPlace_ok h
  | ramblerLaunchAccept => exact execRamblerLaunchAccept_ok h
  | launchComplete => exact execLaunchComplete_ok h
  | feLaunch => exact execFeLaunch_ok h
  | feSched => exact execFeSched_ok h
  | feWaitev => exact execFeWaitev_ok h
  | feSigev => exact execFeSigev_ok h
  | haltqDrain => exact execHaltqDrain_ok h
  | haltqKill => exact execHaltqKill_ok h
  | feBadEntry => exact execFeBadEntry_ok h
  | fillLands => exact execFillLands_ok h
  | writebackAck _ b _ => exact execWritebackAck_ok (n := b) h
  | directAccessPerform => exact execDirectAccessPerform_ok h
  | coreWindowAccess => exact execCoreWindowAccess_ok h
  | sweepStep => exact execSweepStep_ok h
  | migTailWrite => exact execMigTailWrite_ok h
  | migrationMoveStart => exact execMigrationMoveStart_ok h
  | migrationBadCommand => exact execMigrationBadCommand_ok h
  | migrationDrainDone => exact execMigrationDrainDone_ok h
  | migrationCommit => exact execMigrationCommit_ok h
  | migrationLost => exact execMigrationLost_ok h
  | migrationFail => exact execMigrationFail_ok h
  | scrubPass => exact execScrubPass_ok h
  | copyJob => exact execCopyJob_ok h
  | convertJob => exact execConvertJob_ok h
  | gatherJob => exact execGatherJob_ok h
  | scatterJob => exact execScatterJob_ok h
  | fillJob => exact execFillJob_ok h
  | decodeJob => exact execDecodeJob_ok h
  | decodeBlockDeliver => exact execDecodeBlockDeliver_ok h
  | xformJob => exact execXformJob_ok h
  | xfIneedWrite => exact execXfIneedWrite_ok h
  | xfIfreeWrite => exact execXfIfreeWrite_ok h
  | xfOmarkWrite => exact execXfOmarkWrite_ok h
  | xfDoneWrite => exact execXfDoneWrite_ok h
  | xformTimeout => exact execXformTimeout_ok h
  | chainJob => exact execChainJob_ok h
  | chainCommandEntry => exact execChainCommandEntry_ok h
  | chainLoop => exact execChainLoop_ok h
  | chainCond => exact execChainCond_ok h
  | chainEnd => exact execChainEnd_ok h
  | followOnMldw => exact execFollowOnMldw_ok h
  | followOnMma => exact execFollowOnMma_ok h
  | jobComplete => exact execJobComplete_ok h
  | jobPageFault => exact execJobPageFault_ok h
  | routineLoadStart => exact execRoutineLoadStart_ok h
  | routineLoadComplete => exact execRoutineLoadComplete_ok h
  | scheduleStart => exact execScheduleStart_ok h
  | transferMatch => exact execTransferMatch_ok h
  | operationMilestone => exact execOperationMilestone_ok h
  | counterStep => exact execCounterStep_ok h
  | packetArrival => exact execPacketArrival_ok h
  | remoteAddArrival => exact execRemoteAddArrival_ok h
  | tileFireLanded => exact execTileFireLanded_ok h
  | failureMarkerArrival => exact execFailureMarkerArrival_ok h
  | cleKill => exact execCleKill_ok h
  | flitReceive => exact execFlitReceive_ok h
  | goBack => exact execGoBack_ok h
  | replayTimeout => exact execReplayTimeout_ok h
  | lossOfLight => exact execLossOfLight_ok h
  | lossDetected => exact execLossDetected_ok h
  | restripeAck => exact execRestripeAck_ok h
  | retrainStart => exact execRetrainStart_ok h
  | retrainEnd => exact execRetrainEnd_ok h
  | linkCtlRetrain => exact execLinkCtlRetrain_ok h
  | slotBaseWrite => exact execSlotBaseWrite_ok h
  | slotTableLoad => exact execSlotTableLoad_ok h
  | memorySlot => exact execMemorySlot_ok h
  | remoteWritePacket => exact execRemoteWritePacket_ok h
  | remoteWriteAck => exact execRemoteWriteAck_ok h
  | circuitConnect => exact execCircuitConnect_ok h
  | queueTailWrite => exact execQueueTailWrite_ok h
  | hostWindowAccess => exact execHostWindowAccess_ok h
  | setq => exact execSetq_ok h
  | startq => exact execStartq_ok h
  | stopq => exact execStopq_ok h
  | status => exact execStatus_ok h
  | attest => exact execAttest_ok h
  | loadfw => exact execLoadfw_ok h
  | resetWarm => exact execResetWarm_ok h
  | resetCold => exact execResetCold_ok h
  | mailboxBadCommand => exact execMailboxBadCommand_ok h
  | coldStart => exact execColdStart_ok h
  | warmStart => exact execWarmStart_ok h
  | startFailure => exact execStartFailure_ok h
  | telemetrySample => exact execTelemetrySample_ok h
  | powerCapExceeded => exact execPowerCapExceeded_ok h
  | dieOvertemp => exact execDieOvertemp_ok h
  | einjArm => exact execEinjArm_ok h
  | elogCntClear => exact execElogCntClear_ok h
  | rampStepWrite => exact execRampStepWrite_ok h
  | controlRegisterWrite => exact execControlRegisterWrite_ok h
  | heartbeat => exact execHeartbeat_ok h
  | microcoreException => exact execMicrocoreException_ok h

end

/-! ### Machine/Issue.lean -/

section
variable {s : State} {c b n die r t i : ℕ} {x : Card} {l : List Byte} {m : Mover} {o : VecOps}

theorem State.MemOk.atPlace (h : s.MemOk) : (s.atPlace c b n).MemOk := h.modBank

theorem State.MemOk.named {l : List (ℕ × RegRef)} (h : s.MemOk) : (s.named c b l).MemOk := h.modBank

theorem Fold.next_ok {f : Fold} {k : ℕ} {i : Instr} (hf : FoldOk f) : FoldOk (f.next c b k i) := by
  unfold Fold.next
  split
  · exact hf
  · have hx := exec_ok (i := i) (hf.st.atPlace (c := c) (b := b) (n := k))
    split
    · next u e =>
      have hu : u.MemOk := hx.of_eq e
      dsimp only
      split
      · exact ⟨hu, hf.stop⟩
      · exact ⟨hf.st.named, hf.stop⟩
      · exact ⟨hf.st, hf.stop⟩
      · exact ⟨hf.st.named, hf.stop⟩
    · exact ⟨hf.st, hx⟩

theorem Fold.run_ok {f : Fold} {l : List (ℕ × Instr)} (hf : FoldOk f) : FoldOk (Fold.run c b f l) := by
  induction l generalizing f with
  | nil => exact hf
  | cons e l ih => exact ih (Fold.next_ok hf)

theorem State.MemOk.prepared (h : s.MemOk) : (s.prepared c b).MemOk := h.modBank.captureEntry.ite h.modBank

theorem State.MemOk.checkUnits {r : Run} (h : s.MemOk) : (s.checkUnits c b n r).MemOk := by
  unfold State.checkUnits
  dsimp only
  split
  · exact h
  · split
    · exact h.modCore.modBank
    · exact h.modCore.modBank.ite h

theorem State.MemOk.keepDivide {divs : ℕ} (h : s.MemOk) : (s.keepDivide c b divs).MemOk := h.modBank

theorem State.MemOk.issued {r : Run} {head : Bool} (h : s.MemOk) : (s.issued c b r n head).MemOk :=
  (h.prefetchNext.ite h).endBundle.checkUnits

theorem State.MemOk.holdAll {l : List (ℕ × Instr × Why)} (h : s.MemOk) : OutOk (s.holdAll c b l) := by
  induction l generalizing s with
  | nil => exact h
  | cons e l ih =>
    have hx := exec_ok (i := e.2.1) (h.atPlace (c := c) (b := b) (n := e.1))
    unfold State.holdAll
    split
    · next u e => exact ih (hx.of_eq e).modBank
    · exact hx

theorem State.MemOk.issueRun {r : Run} {early : Option Trap} (h : s.MemOk) : IssuedOk (s.issueRun c b r early) := by
  have hf : FoldOk (Fold.run c b { st := s.prepared c b } r.placed) := Fold.run_ok ⟨h.prepared, trivial⟩
  unfold State.issueRun
  dsimp only
  split
  · next o e => exact hf.stop.of_eq e
  · split
    · split
      · exact h.modBank.keepDivide
      · exact h.keepDivide
    · split
      · exact h.takeTrapAt
      · split
        · split
          · next e =>
            have hu := h.holdAll (c := c) (b := b) (l := (Fold.run c b { st := s.prepared c b } r.placed).holds)
            rw [e] at hu
            split
            · exact State.MemOk.modBank hu
            · exact State.MemOk.modBank hu
          · exact h.holdAll
        · exact hf.st.issued

theorem State.MemOk.issueBundle (h : s.MemOk) : IssuedOk (s.issueBundle c b) := by
  unfold State.issueBundle
  dsimp only
  split
  · split
    · exact h.issueRun
    · exact h.takeTrapAt
  · split
    · exact h.issueRun
    · split
      · exact h.modBank
      · split
        · exact h
        · exact h.modBank

theorem State.MemOk.readHalf (h : s.MemOk) : (s.readHalf c b).MemOk := by
  unfold State.readHalf
  dsimp only
  split
  · exact h
  · split
    · next e => exact (h.readArray.of_fst e).modCore
    · next e => exact h.readArray.of_fst e

theorem State.MemOk.tryIssue (h : s.MemOk) : IssuedOk (s.tryIssue c b) := by
  unfold State.tryIssue
  dsimp only
  split
  · exact h
  · split
    · exact h.readHalf.takeTrapAt
    · next s1 e =>
      have k : s1.MemOk := h.readHalf.fetchSegment.of_eq e
      split
      · exact k.modCore.issueBundle
      · exact k.modBank

theorem State.MemOk.wake (h : s.MemOk) : OptOk State.MemOk (s.wake c b) := by
  unfold State.wake
  dsimp only
  split
  · split
    · exact h.modBank
    · trivial
  · split
    · exact h.modBank
    · trivial
  · split
    · exact h.modBank
    · trivial
  · split
    · exact h.modBank
    · trivial

theorem State.MemOk.tendTask (h : s.MemOk) : OptOk State.MemOk (s.tendTask c b) := by
  unfold State.tendTask
  dsimp only
  split
  · split
    · exact h.finishTask
    · trivial
  · split
    · split
      · trivial
      · split
        · exact h.suspendStep
        · trivial
    · split
      · exact h.modBank
      · exact .or h.bark (.or h.rdvTimeout (.or h.chainTimeout h.wake))

theorem State.MemOk.tend (h : s.MemOk) : OptOk State.MemOk (s.tend c b) := by
  unfold State.tend
  dsimp only
  split
  · trivial
  · split
    · exact h.landDue
    · next e => exact h.answerMismatch.of_eq e
    · split
      · exact h.commitSegment
      · split
        · split
          · exact h.killTask
          · trivial
        · exact h.takeLate
        · exact h.tendTask

theorem State.MemOk.tryBanks {l : List ℕ} (h : s.MemOk) : OptOk OutOk (s.tryBanks c l).1 ∧ (s.tryBanks c l).2.MemOk := by
  induction l generalizing s with
  | nil => exact ⟨trivial, h⟩
  | cons b l ih =>
    have hi := (h.facing (c := c) (b := b)).tryIssue (c := c) (b := b)
    have hs := (h.switchTo (c := c) (b := b)).tryIssue (c := c) (b := b)
    unfold State.tryBanks
    dsimp only
    split
    · next u w e =>
      have hu : u.MemOk := by
        rw [e] at hi
        exact hi
      split
      · exact ⟨hu.modCore.setFocus.holdCycles, h⟩
      · exact ih hu.modCore.setFocus
    · next o e =>
      rw [e] at hi
      exact ⟨hi, h⟩
    · split
      · next u e =>
        rw [e] at hs
        exact ⟨hs, h⟩
      · next u e =>
        rw [e] at hs
        exact ⟨State.MemOk.passCycles hs, h⟩
      · next o e =>
        rw [e] at hs
        exact ⟨hs, h⟩
      · next u w e =>
        rw [e] at hs
        exact ⟨hs, h⟩

theorem State.MemOk.after {o : Host.Outcome State Fault Refusal} (h : s.MemOk) (ho : OutOk o) : (s.after o).MemOk := by
  cases o with
  | next u => exact ho
  | fault _ => exact h
  | refused _ => exact h

theorem State.MemOk.admitNext (h : s.MemOk) : OptOk State.MemOk (s.admitNext c) := by
  unfold State.admitNext
  dsimp only
  split
  · trivial
  · split
    · split
      · exact h.requeue.after (execContextResume_ok h.requeue)
      · trivial
    · split
      · exact h.requeue.after (execTaskAdmit_ok h.requeue)
      · trivial
    · trivial

theorem State.MemOk.saveNext (h : s.MemOk) : OptOk State.MemOk (s.saveNext c) := by
  unfold State.saveNext
  dsimp only
  split
  · split
    · exact h.after (execPreemption_ok h)
    · trivial
  · split
    · trivial
    · split
      · refine .or (h.after (execPreemption_ok h)) ?_
        split
        · exact h.after (execBlockedBankSave_ok h)
        · trivial
      · refine .or trivial ?_
        split
        · exact h.after (execBlockedBankSave_ok h)
        · trivial

theorem State.MemOk.directNext (h : s.MemOk) : OptOk State.MemOk (s.directNext c b) := by
  unfold State.directNext
  dsimp only
  split
  · split
    · trivial
    · split
      · trivial
      · exact h.after (execDirectAccessPerform_ok h)
  · trivial

theorem State.MemOk.varNext (h : s.MemOk) : OptOk State.MemOk (s.varNext c) :=
  .map fun _ => (h.after (execWritebackAck_ok h)).ite h.varDone

theorem State.MemOk.fillNext (h : s.MemOk) : OptOk State.MemOk (s.fillNext c b) := .map fun _ => h.after (execFillLands_ok h)

theorem State.MemOk.phaseNext (h : s.MemOk) : OptOk State.MemOk (s.phaseNext c b) := by
  unfold State.phaseNext
  dsimp only
  split
  · split
    · exact h.after (execPhaseComplete_ok h)
    · trivial
  · trivial

theorem State.MemOk.idleStep (h : s.MemOk) : OptOk State.MemOk (s.idleStep c) := by
  unfold State.idleStep
  dsimp only
  refine .or h.admitNext ?_
  refine .or ?_ (.or (.or h.phaseNext h.phaseNext) h.saveNext)
  split
  · trivial
  · exact .or (.or h.directNext h.directNext) (.or h.varNext (.or h.fillNext h.fillNext))

theorem State.MemOk.scheduled (h : s.MemOk) : OptOk State.MemOk (s.scheduled c) := by
  unfold State.scheduled
  dsimp only
  split
  · trivial
  · refine .or h.admitNext ?_
    refine .or h.saveNext ?_
    refine .bind fun _ => ?_
    split
    · trivial
    · exact h.directNext

theorem State.MemOk.account {old : Core} (h : s.MemOk) : (s.account c old).MemOk := by
  unfold State.account
  dsimp only
  split
  · exact h
  · exact h.modCore.foldl fun _ _ k => k.after (execPriorityAging_ok k)

theorem State.MemOk.coreMove (h : s.MemOk) : OutOk (s.coreMove c) := by
  unfold State.coreMove
  split
  · next e => exact h.tend.of_eq e
  · next e => exact h.tend.of_eq e
  · exact h.varDone
  · split
    · next e => exact h.scheduled.of_eq e
    · have hb := h.tryBanks (c := c) (l := (s.core c).order)
      split
      · next e =>
        rw [e] at hb
        exact hb.1
      · next e =>
        rw [e] at hb
        exact hb.2.idleStep.getD hb.2.holdCycles

theorem State.MemOk.coreStep (h : s.MemOk) : OutOk (s.coreStep c) := by
  unfold State.coreStep
  split
  · exact h
  · split
    · exact State.MemOk.writeCreg (h.same rfl)
    · exact State.MemOk.killContext (h.same rfl)
    · have hm := h.coreMove (c := c)
      split
      · next e =>
        rw [e] at hm
        exact State.MemOk.account hm
      · exact hm

theorem State.MemOk.threadWord (h : s.MemOk) : ExOk (fun x => x.2.MemOk) (s.threadWord die t) := by
  unfold State.threadWord
  dsimp only
  split
  · exact h
  · trivial
  · split
    · trivial
    · next e => exact (h.engLoad.of_eq e).modCle

theorem State.MemOk.threadStep (h : s.MemOk) : OutOk (s.threadStep die t) := by
  unfold State.threadStep
  dsimp only
  split
  · exact h
  · split
    · exact h.modCle
    · split
      · exact execScheduleStart_ok h
      · split
        · exact h
        · split
          · exact h.threadStop
          · next e => exact exec_ok (h.threadWord.of_eq e)

theorem State.MemOk.passTime (h : s.MemOk) : (s.passTime n).MemOk := by
  unfold State.passTime
  dsimp only
  refine .foldl ?_ (fun _ _ k => k.ite k.pump)
  refine .foldl ?_ (fun _ _ k => k.modCore.account)
  exact h.same rfl

theorem State.MemOk.focusStep (h : s.MemOk) : OutOk s.focusStep := by
  unfold State.focusStep
  split
  · exact h.coreStep
  · exact h.threadStep

theorem State.MemOk.act {x : Move} (h : s.MemOk) : OutOk (s.act x) := by
  cases x with
  | event e => exact exec_ok h
  | core c => exact OutOk.ite trivial h.setFocus.focusStep
  | thread d t => exact OutOk.ite trivial h.setFocus.focusStep
  | time n => exact h.passTime
  | pace n => exact State.MemOk.same h rfl
  | mismatch c e k => exact h.engineMismatch
  | upset c k off two => exact OutOk.ite trivial h.upset
  | upsetDrawer a => exact OutOk.ite (State.MemOk.same h rfl) trivial
  | collectiveError d => exact OutOk.ite trivial h.collectiveError
  | lockLost p => exact OutOk.ite trivial h.modPort
  | credit p cls vc gives => exact OutOk.ite trivial h.credit
  | returns l => exact h.restripeAcks
  | mailbox => exact h.takeMail
  | monitorImage d ok => exact h.setMgmt
  | powerCap n => exact h.setMgmt
  | attach => exact h.attach
  | remap cells p => exact h.remap

theorem State.MemOk.move {m : Move} (h : s.MemOk) : OutOk (s.move m) := by
  unfold State.move
  split
  · exact h
  · exact h.act

end

/-! ### Machine/Step.lean -/

section
variable {s : State}

theorem step_ok (h : s.MemOk) : OutOk (step s) := by
  unfold step
  split
  · exact h.focusStep
  · exact h.setMoves.move

end

/-- Settles O56: each operation that a step can come to keeps the form (`step_ok`). -/
theorem stepKeepsMemoryCanonical : Obligations.StepKeepsMemoryCanonical := by
  unfold Obligations.StepKeepsMemoryCanonical
  intro s t hs e
  exact (step_ok hs).of_eq e

end Sys2Proof.Machine
end

