-- ==== Sys2Proof/Proofs/AbsentAgents.lean ====
section
/-!
An event that names an agent that the module does not have (O46, log 84). Each meaning begins with the test of its agent's number.
-/

-- As in MemoryCanonical.
set_option Elab.async false

namespace Sys2Proof.Machine

open Sys2Proof

variable {n : ℕ} {s : State} {v : BitVec 64} {f : BitVec 320} {w : BitVec 32} {p : Packet}

theorem core_absent (h : coreCount ≤ n) :
    exec (.taskAdmit n) s = .fault .noSuchAgent ∧ exec (.preemption n) s = .fault .noSuchAgent ∧
      exec (.contextResume n 0) s = .fault .noSuchAgent ∧ exec (.einjArm n v) s = .fault .noSuchAgent ∧
      exec (.controlRegisterWrite n 0 v) s = .fault .noSuchAgent :=
  ⟨if_pos h, if_pos h, if_pos h, if_pos h, if_pos h⟩

theorem port_absent (h : 32 ≤ n) :
    exec (.flitReceive n f) s = .fault .noSuchAgent ∧ exec (.linkCtlRetrain n v) s = .fault .noSuchAgent :=
  ⟨if_pos h, if_pos h⟩

theorem queue_or_unit_absent (h : 16 ≤ n) :
    exec (.queueTailWrite n w) s = .fault .noSuchAgent ∧ exec (.lossOfLight n) s = .fault .noSuchAgent :=
  ⟨if_pos h, if_pos h⟩

theorem die_absent (h : 8 ≤ n) : exec (.packetArrival n p) s = .fault .noSuchAgent := if_pos h

theorem thermal_die_absent (h : 9 ≤ n) : exec (.dieOvertemp n) s = .fault .noSuchAgent := if_pos h

/-- Settles O46, by kind of agent. -/
theorem absentAgents : Obligations.AbsentAgents := by
  unfold Obligations.AbsentAgents
  intro n p f v w s
  exact ⟨core_absent, port_absent, queue_or_unit_absent, die_absent, thermal_die_absent⟩

end Sys2Proof.Machine
end

