-- ==== Sys2Proof/Proofs/FalsePredicate.lean ====
section
/-!
A syllable whose predicate is false (O47). Every syllable but SEGH runs by `runSyllable` under its own header, at once or after
the check of its place, and `runSyllable` looks at the predicate before all else.
-/

-- As in MemoryCanonical.
set_option Elab.async false

namespace Sys2Proof.Machine

open Sys2Proof

variable {s : State} {h : Hdr} {lat op : ℕ} {fmt : Fmt} {f : List ℕ} {o : Host.Outcome State Fault Refusal}

/-- The state that `skip` leaves, in the terms of O47. -/
theorem State.skip_eq : s.skip h lat = s.withPipe h { s.bk.pipe with
    seq := s.bk.pipe.seq + (if h.sbset = 0 then 0 else 1)
    pend := s.bk.pipe.pend ++
      (if h.sbset = 0 then [] else s.bk.sent h s.bk.pipe.seq [(max lat 1, [.sbClear h.sbset])])
    ctx := { s.bk.pipe.ctx with res := .went } } := by
  have hsent : s.bk.sent h s.bk.pipe.seq (if h.sbset = 0 then [] else [(max lat 1, [.sbClear h.sbset])]) =
      if h.sbset = 0 then [] else s.bk.sent h s.bk.pipe.seq [(max lat 1, [.sbClear h.sbset])] := by
    split <;> rfl
  rw [State.skip, State.mark, State.modBk_modBk, State.withPipe, ← hsent]
  exact State.modBk_congr _ _ _ (by rw [Bank.setEntry_eq]; rfl)

/-- Under a false predicate, `o` is what a syllable of the fields `r` skips to; SEGH, Lystil words and events are left out. -/
def Skips (s : State) (r : Option Raw) (o : Host.Outcome State Fault Refusal) : Prop :=
  ∀ op fmt h f, r = some (.syllable op fmt h f) → fmt ≠ .segh → s.bk.predTrue h = false → ∃ lat, o = .next (s.skip h lat)

namespace Skips

theorem run {plan : State → Plan} : Skips s (some (.syllable op fmt h f)) (runSyllable h lat plan s) := by
  rintro _ _ _ _ ⟨⟩ - hf
  exact ⟨lat, if_pos (by simp [hf])⟩

theorem placed {plan : State → Plan} {ok : Bool} {cause : ℕ} (hok : ok = true) :
    Skips s (some (.syllable op fmt h f)) (runPlaced ok cause h lat plan s) := by
  rw [runPlaced, if_pos hok]
  exact .run

theorem segh : Skips s (some (.syllable op .segh h f)) o := by
  rintro _ _ _ _ ⟨⟩ hseg
  exact absurd rfl hseg

theorem lystil {w : List ℕ} : Skips s (some (.lystil w f)) o := nofun

theorem event : Skips s none o := nofun

end Skips

theorem exec_skips {i : Instr} (hp : s.placed i) : Skips s (rawOf i) (exec i s) := by
  cases i with
  | add | sub | addi | mul | mulh | mulhu | div | divu | rem | remu | and_ | or_ | xor_ | andn | shl | shr | sra
  | rotr | clz | cls | ctz | popc | min_ | max_ | minu | maxu | sel | cmp | pand | por | pxor | pnot | movi | bfx
  | bfi | sext | zext | amov | aadd | aaddi | awrap | aidx | widf | br | brc | call | ret | loopn | yield | end_
  | eret | getc | setc | getcx | slabq | muinv | seed | rampq | vadd | vsub | vadds | vsubs | vmul | vmulh | vmuls
  | vmac | vdot4 | vand | vor | vxor | vandn | vshl | vshr | vsra | vshrd | vshrdCensus | vmin | vmax | vabs | vneg
  | vcmp | vsel | vclz | vcls | vpopc | vcnv | vpack | vunpk | vperm | vbcst | vslide | vredadd | vredmax | vredmin
  | vscan | vmov | vins | vext | viota | qand | qor | qxor | qnot | qpopc | qset | xexp2 | xrcp | xrsq | xlog2 | xsigm
  | xtanh | xlut | xlutld | xoptm | xopta | lds | sts | ldv | stv | ldvg | stvs | ldvp | ldg | tld | tst | park
  | unpark | rmap | runmap | rfill | rflush | rinv | mldw | mswap | mma | mmav | mzero | cshd | cadd | crdv | cwrv
  | mld | mst | mldf | mstf | mlru | mlradd | mlrmul | mrecomp | mdense | mqry | mfree | mget | mput => exact .run
  | nop => exact .run (plan := fun _ => {})
  | trap h code => exact .run (plan := planTrapInstr h.slot code)
  | rdv => exact .placed (bne_iff_ne.mpr hp)
  | phase | stg | amo | push | pushq => exact .placed hp
  | segh => exact .segh
  | send | recv | recvr | lystilCopy | red | lystilWait | sigAdd | sigRadd | sigSrc | sigLoc | sigAll | sigSet | twait
  | tfire | setkAddr | setkAddrAdd | setkAddrArg | setkRlen | setkNrow | setkRstr | lystilLoop | bnz | gjoin | gfree
  | lystilEnd | lystilBadop => exact .lystil
  | _ => exact .event

/-- Settles O47: by `exec_skips` the syllable skips, and `State.skip_eq` says what that leaves. -/
theorem falsePredicateHasNoEffect : Obligations.FalsePredicateHasNoEffect := by
  unfold Obligations.FalsePredicateHasNoEffect
  intro i op fmt h f s hraw hseg hp hfalse
  obtain ⟨lat, hexec⟩ := exec_skips hp op fmt h f hraw hseg hfalse
  exact ⟨max lat 1, le_max_right lat 1, by rw [hexec, State.skip_eq]⟩

end Sys2Proof.Machine
end

