-- ==== Sys2Proof/Proofs/StoredBytes.lean ====
section
/-!
What a store leaves (O51). Where a home address is a memory cell its byte is a byte of the memory (`homeByte_cell`); elsewhere it
depends on arrays that a store to cells leaves as they are (`homeByte_congr`). The rest is about the memory alone: the bytes
as the home stores them, then the accessed flags.
-/

-- As in MemoryCanonical.
set_option Elab.async false

namespace Sys2Proof.Machine

open Sys2Proof

variable {s t : State} {a c b i j k n : ℕ} {l : List Byte}

/-! ### Home addresses that are memory cells -/

/-- The memory of a drawer, or in a die window the ring SRAM or the scratchpad of a core. -/
def MemCell (j : ℕ) : Prop :=
  j < 0xF000000000000 ∨ 0xF000800000000 ≤ j ∨ (0x40000000 ≤ j % 0x100000000 ∧ j % 0x100000000 < 0x48000000) ∨
    (j % 0x100000000 < 0x40000000 ∧ j % 0x1000000 < 0x300000)

theorem memCell_of_isPlain (h : isPlain a n = true) (ha : a ≤ j) (hj : j < a + n) : MemCell j := by
  simp only [isPlain, Bool.or_eq_true, Bool.and_eq_true, decide_eq_true_eq] at h
  unfold MemCell
  omega

theorem homeByte_cell (h : MemCell j) : s.homeByte j = memByte s.mem j := by
  unfold MemCell at h
  unfold State.homeByte winCore
  split
  case h_1 hw =>
    refine if_neg ?_
    simp only [ite_eq_right_iff, reduceCtorEq, imp_false] at hw
    simp only [homeDead, decide_eq_true_eq]
    omega
  case h_2 c w hw =>
    have hscratch : w < 0x300000 := by
      split at hw
      · obtain ⟨-, rfl⟩ := Prod.mk.inj (Option.some.inj hw)
        omega
      · cases hw
    rw [winPart, if_pos hscratch]

/-- The arrays and registers that core windows show are the same in both states. -/
def SameArrays (s t : State) : Prop :=
  ∀ c, (t.core c).acc = (s.core c).acc ∧ (t.core c).slabs = (s.core c).slabs ∧
    ∀ b, (t.bankAt c b).regs = (s.bankAt c b).regs

theorem sameArrays_of_cores (h : t.cores = s.cores) : SameArrays s t := by
  have hcore (c : ℕ) : t.core c = s.core c := by simp only [State.core, h]
  exact fun c => ⟨by rw [hcore], by rw [hcore], fun b => by simp only [State.bankAt, hcore]⟩

theorem SameArrays.trans {u : State} (h : SameArrays s u) (k : SameArrays u t) : SameArrays s t := by
  intro c
  obtain ⟨hacc, hslabs, hregs⟩ := h c
  obtain ⟨kacc, kslabs, kregs⟩ := k c
  exact ⟨kacc.trans hacc, kslabs.trans hslabs, fun b => (kregs b).trans (hregs b)⟩

theorem homeByte_congr (h : SameArrays s t) (hmem : memByte t.mem j = memByte s.mem j) : t.homeByte j = s.homeByte j := by
  simp only [State.homeByte, fun c => (h c).1, fun c => (h c).2.1, fun c => (h c).2.2, hmem]

/-! ### Bytes as a home stores them -/

/-- The byte that a home stores at `j` for `x`. -/
def keptByte (j : ℕ) (x : Byte) : Byte := if frameTable ≤ j ∧ j < frameTableEnd then x &&& frameKeep j else x

theorem keptByte_above {x : Byte} (h : frameTableEnd ≤ j) : keptByte j x = x := if_neg (by omega)

theorem mapFrom_length {α β : Type} (f : ℕ → α → β) (l : List α) : (mapFrom f i l).length = l.length := by
  induction l generalizing i with
  | nil => rfl
  | cons x l ih => simp [mapFrom, ih]

theorem getElem?_mapFrom {α β : Type} (f : ℕ → α → β) (l : List α) : (mapFrom f i l)[k]? = l[k]?.map (f (i + k)) := by
  induction l generalizing i k with
  | nil => rfl
  | cons x l ih =>
    cases k with
    | zero => rfl
    | succ k => simp [mapFrom, ih, Nat.add_comm, Nat.add_left_comm]

theorem stored_length : (stored a l).length = l.length := by
  unfold stored
  split
  · rfl
  · exact mapFrom_length _ l

theorem stored_getD (d : Byte) (hk : k < l.length) : (stored a l).getD k d = keptByte (a + k) (l.getD k 0) := by
  unfold stored
  split
  · rw [keptByte, if_neg (by omega)]
    simp [hk]
  · simp [getElem?_mapFrom, hk, keptByte]

theorem frameKeep_entry (f : ℕ) : frameKeep (frameTable + 16 * f + k) = frameKeep k := by
  have hmod : (frameTable + 16 * f + k) % 16 = k % 16 := by unfold frameTable; omega
  simp only [frameKeep, hmod]

/-! ### Bytes put at a home -/

/-- A store to cells changes the memory, and of the rest of the state only which words hold errors. -/
theorem putHome_plain (h : isPlain a l.length = true) :
    ∃ bad soft, s.putHome a l = { s with mem := memWrite s.mem a (stored a l), bad := bad, soft := soft } := by
  unfold State.putHome
  rw [if_pos h]
  by_cases hbad : s.bad = [] ∧ s.soft = []
  · exact ⟨s.bad, s.soft, if_pos hbad⟩
  · exact ⟨_, _, if_neg hbad⟩

theorem memByte_stored {m : List Host.Cell} : memByte (memWrite m a (stored a l)) j =
    if a ≤ j ∧ j < a + l.length then keptByte j (l.getD (j - a) 0) else memByte m j := by
  rw [memByte_memWrite, stored_length]
  split
  · rw [stored_getD _ (by omega), show a + (j - a) = j by omega]
  · rfl

/-! ### The accessed flags -/

/-- Memory with the accessed flag of each of these frames set. -/
def setFlags (m : List Host.Cell) (fs : List ℕ) : List Host.Cell :=
  fs.foldl (fun m f => memWrite m (frameFlags f) [memByte m (frameFlags f) ||| 2#8]) m

/-- The frames of the drawer that a range reaches. -/
def reached (a n : ℕ) : List ℕ :=
  if n = 0 ∨ 0x20000000000 ≤ a then [] else (List.range ((a + n - 1) / 2 ^ 16 - a / 2 ^ 16 + 1)).map (a / 2 ^ 16 + ·)

theorem mem_reached {f : ℕ} :
    f ∈ reached a n ↔ n ≠ 0 ∧ a < 0x20000000000 ∧ a / 2 ^ 16 ≤ f ∧ f ≤ (a + n - 1) / 2 ^ 16 := by
  unfold reached
  split
  · simp only [List.not_mem_nil, false_iff]
    omega
  · simp only [List.mem_map, List.mem_range]
    constructor
    · rintro ⟨k, hk, rfl⟩
      omega
    · rintro ⟨-, -, hlo, hhi⟩
      exact ⟨f - a / 2 ^ 16, by omega, by omega⟩

theorem foldl_setFlags (fs : List ℕ) : fs.foldl (fun (s : State) f =>
    { s with mem := memWrite s.mem (frameFlags f) [memByte s.mem (frameFlags f) ||| 2#8] }) s =
      { s with mem := setFlags s.mem fs } := by
  induction fs generalizing s with
  | nil => rfl
  | cons f fs ih => rw [List.foldl_cons, ih]; rfl

theorem touchFrames_eq : s.touchFrames a n = { s with mem := setFlags s.mem (reached a n) } := by
  unfold State.touchFrames reached
  split
  · rfl
  · rw [← foldl_setFlags, List.foldl_map]

theorem memByte_setFlags {m : List Host.Cell} {fs : List ℕ} :
    memByte (setFlags m fs) j = if ∃ f ∈ fs, j = frameFlags f then memByte m j ||| 2#8 else memByte m j := by
  induction fs generalizing m with
  | nil => simp [setFlags]
  | cons f fs ih =>
    have hone : memByte (memWrite m (frameFlags f) [memByte m (frameFlags f) ||| 2#8]) j =
        if j = frameFlags f then memByte m j ||| 2#8 else memByte m j := by
      rw [memByte_memWrite]
      by_cases hj : j = frameFlags f
      · simp [hj]
      · rw [if_neg (by simp only [List.length_singleton]; omega), if_neg hj]
    rw [setFlags, List.foldl_cons, ← setFlags, ih, hone]
    by_cases hj : j = frameFlags f <;> by_cases hfs : ∃ f ∈ fs, j = frameFlags f <;>
      simp [hj, hfs, BitVec.or_assoc]

/-- A flag that a write to cells sets is itself a cell of the drawer. -/
theorem memCell_flag {f : ℕ} (h : isPlain a n = true) (hf : f ∈ reached a n) : MemCell (frameFlags f) := by
  obtain ⟨hn, ha, -, hhi⟩ := mem_reached.mp hf
  simp only [isPlain, Bool.or_eq_true, Bool.and_eq_true, decide_eq_true_eq] at h
  refine Or.inl ?_
  unfold frameFlags frameTable
  omega

/-! ### Home bytes after a store whose flags are those of `fs` -/

section
variable {fs : List ℕ} (hmem : t.mem = setFlags (memWrite s.mem a (stored a l)) fs)
include hmem

theorem homeByte_written (h : isPlain a l.length = true) (hk : k < l.length) (hfs : ∀ f ∈ fs, a + k ≠ frameFlags f) :
    t.homeByte (a + k) = keptByte (a + k) (l.getD k 0) := by
  rw [homeByte_cell (memCell_of_isPlain h (by omega) (by omega)), hmem, memByte_setFlags, if_neg (by simpa using hfs),
    memByte_stored, if_pos (by omega), Nat.add_sub_cancel_left]

theorem homeByte_unwritten (hsame : SameArrays s t) (hj : j < a ∨ a + l.length ≤ j) (hfs : ∀ f ∈ fs, j ≠ frameFlags f) :
    t.homeByte j = s.homeByte j :=
  homeByte_congr hsame (by rw [hmem, memByte_setFlags, if_neg (by simpa using hfs), memByte_stored, if_neg (by omega)])

theorem homeByte_flag (hcell : MemCell j) (hfs : ∃ f ∈ fs, j = frameFlags f) : (t.homeByte j).toNat.testBit 1 = true := by
  rw [homeByte_cell hcell, hmem, memByte_setFlags, if_pos hfs, BitVec.toNat_or, Nat.testBit_or]
  exact Bool.or_true _

end

/-! ### A store to scratchpad or ring SRAM -/

theorem Core.setBank_bank (x : Core) : x.setBank b (x.bank b) = x := by
  unfold Core.setBank Core.bank
  split <;> rfl

theorem Core.regs_setBank {x : Core} {y : Bank} (hy : y.regs = (x.bank b).regs) :
    ((x.setBank b y).bank k).regs = (x.bank k).regs := by
  by_cases hk : (k = 0) = (b = 0)
  · have hbank (z : Core) : z.bank k = z.bank b := by simp only [Core.bank, hk]
    rw [hbank, hbank, Core.bank_setBank, hy]
  · rw [Core.bank_setBank_ne _ _ _ _ hk]

theorem Bank.redirty_regs (y : Bank) : (y.redirty a n).regs = y.regs := by
  unfold Bank.redirty
  split
  · rfl
  · refine List.foldlRecOn (motive := fun z : Bank => z.regs = y.regs) _ _ rfl fun z hz e _ => ?_
    split
    · exact hz
    · exact hz

theorem Bank.redirty_unmapped {y : Bank} (h : y.mapped = []) : y.redirty a n = y := if_pos h

/-- A store that lands changes the memory, which sectors are dirty, and which words hold errors. -/
theorem applyWrite_mem (h : isPlain a l.length = true) : ∃ u : State, u.cores = s.cores ∧ u.mod = s.mod ∧ u.cles = s.cles ∧
    u.mem = memWrite s.mem a (stored a l) ∧
    s.applyWrite c b (.mem a l) = u.modBank c b fun y => y.redirty (a - coreWindow c) l.length := by
  obtain ⟨bad, soft, hput⟩ := putHome_plain (s := s) h
  exact ⟨s.putHome a l, by rw [hput], by rw [hput], by rw [hput], by rw [hput], rfl⟩

/-- A write to a home address changes the memory, and which words hold errors. -/
theorem applyWrite_home (h : isPlain a l.length = true) :
    ∃ bad soft, s.applyWrite c b (.home a l) = { s with
      mem := setFlags (memWrite s.mem a (stored a l)) (reached a l.length), bad := bad, soft := soft } := by
  obtain ⟨bad, soft, hput⟩ := putHome_plain (s := s) h
  refine ⟨bad, soft, ?_⟩
  change (s.putHome a l).touchFrames a l.length = _
  rw [hput, touchFrames_eq]

theorem sameArrays_modBank {g : Bank → Bank} (hg : ∀ y, (g y).regs = y.regs) : SameArrays s (s.modBank c b g) := by
  intro d
  by_cases hd : d = c
  · subst hd
    simp only [State.core_modBank, Core.setBank_acc, Core.setBank_slabs, State.bankAt, true_and]
    exact fun k => Core.regs_setBank (hg _)
  · simp only [State.bankAt, State.core_modBank_ne _ _ _ _ _ hd, implies_true, and_self]

/-- Settles O51: a store to cells is a write of `stored` bytes, then of the flags of `reached` frames. -/
theorem storedBytes : Obligations.StoredBytes := by
  unfold Obligations.StoredBytes
  intro c b a l s h
  refine ⟨?mem, ?home, ?table⟩
  case table =>
    intro f
    simp only [frameKeep_entry]
    decide
  case mem =>
    intro t ha
    obtain ⟨u, hcores, hmod, hcles, hmem, ht⟩ := applyWrite_mem (s := s) (c := c) (b := b) h
    change t = _ at ht
    have hcore (k : ℕ) : u.core k = s.core k := by simp only [State.core, hcores]
    have hsame : SameArrays s t := by
      rw [ht]
      exact (sameArrays_of_cores hcores).trans (sameArrays_modBank Bank.redirty_regs)
    have hflags : t.mem = setFlags (memWrite s.mem a (stored a l)) [] := by
      rw [ht]
      exact hmem
    obtain ⟨hacc, hslabs, hregs⟩ := hsame c
    refine ⟨fun k hk => ?_, fun j hj => homeByte_unwritten hflags hsame hj nofun, fun k hk => ?_, hregs, hacc, hslabs,
      fun hy => ?_, ?_, ?_⟩
    · rw [homeByte_written hflags h hk nofun]
      exact keptByte_above (by unfold frameTableEnd; omega)
    · rw [ht, State.core_modBank_ne _ _ _ _ _ hk, hcore]
    · rw [ht, State.core_modBank, hcore, ← State.bankAt, Bank.redirty_unmapped hy, State.bankAt, Core.setBank_bank]
    · rw [ht, State.modBank_mod, hmod]
    · rw [ht, State.modBank_cles, hcles]
  case home =>
    intro t flag byte
    obtain ⟨bad, soft, ht⟩ := applyWrite_home (s := s) (c := c) (b := b) h
    change t = _ at ht
    have hflags : t.mem = setFlags (memWrite s.mem a (stored a l)) (reached a l.length) := by rw [ht]
    have hsame : SameArrays s t := sameArrays_of_cores (by rw [ht])
    have hreach {j : ℕ} (hj : ¬ flag j) : ∀ f ∈ reached a l.length, j ≠ frameFlags f := by
      rintro f hf rfl
      obtain ⟨-, ha, hlo, hhi⟩ := mem_reached.mp hf
      exact hj ⟨ha, f, hlo, hhi, rfl⟩
    refine ⟨fun k hk hj => homeByte_written hflags h hk (hreach hj),
      fun j hj hf => homeByte_unwritten hflags hsame hj (hreach hf), fun j hl hf => ?_, by rw [ht], by rw [ht], by rw [ht]⟩
    obtain ⟨ha, f, hlo, hhi, rfl⟩ := hf
    have hmem : f ∈ reached a l.length := mem_reached.mpr ⟨by simpa using hl, ha, hlo, hhi⟩
    exact homeByte_flag hflags (memCell_flag h hmem) ⟨f, hmem, rfl⟩

end Sys2Proof.Machine
end

