-- ==== Sys2Proof/Proofs/StepRuns.lean ====
section
/-!
A step runs what the decoder reads (O58). The lemmas go from the inside out: the run of syllables at the counter, what the
syllables of a run come to, the bundle, the bank's attempt to issue, the core's turn.
-/

-- As in MemoryCanonical.
set_option Elab.async false

namespace Sys2Proof.Machine

open Sys2Proof

variable {s u u2 : State} {c b k m w w2 pc slot fuel : ℕ} {i j : Instr} {l : List ℕ} {tr : Trap}

/-! ### The syllables at the counter -/

theorem readRun_end {prev : Option ℕ} (hfetch : s.fetch c b (pc % 2 ^ 48) = .ok w) (hsegh : isSegh w = false)
    (hprev : prev.any (fun p => decide (wordSlot w ≤ p)) = false) (hend : wordEnds w = true) :
    s.readRun c b false (fuel + 1) pc prev = { words := [w] } := by
  rw [State.readRun, hfetch]
  simp [hsegh, hprev, hend]

theorem readRun_more {r : Run} (hfetch : s.fetch c b (pc % 2 ^ 48) = .ok w) (hsegh : isSegh w = false) (hend : wordEnds w = false)
    (hrest : s.readRun c b false fuel (pc + 1) (some (wordSlot w)) = r) :
    s.readRun c b false (fuel + 1) pc none = { r with words := w :: r.words } := by
  rw [State.readRun, hfetch]
  simp [hsegh, hend, hrest]

/-- A framed run whose syllables decode in their places meets no decode trap inside its segment. -/
theorem decodeTraps_none {y : Bank} (hseg : y.seg.isSome = true) (hw : ∀ t ∈ mapFrom y.wordTrap 0 l, t = none) :
    y.decodeTraps { words := l } = none := by
  obtain ⟨g, hg⟩ := Option.isSome_iff_exists.mp hseg
  have hnone (l : List (Option Trap)) (h : ∀ t ∈ l, t = none) : lowestTrap l = none := by
    induction l with
    | nil => rfl
    | cons t l ih =>
      rw [h t (by simp)]
      exact ih fun t ht => h t (by simp [ht])
  refine hnone _ fun t ht => ?_
  simp only [hg, Option.map_none, List.mem_append, List.mem_cons, List.not_mem_nil, or_false] at ht
  rcases ht with ht | rfl | rfl | rfl
  · exact hw t ht
  · rfl
  · rfl
  · rfl

/-- The entries that WAIT masks name and that are set. -/
theorem waits_clear {y : Bank} (h : ∀ w ∈ l, ∀ k, 1 ≤ k → k ≤ 6 → (wordWait w).testBit (k - 1) = true → y.regs.rsb k = false) :
    (Run.waits { words := l }).filter (fun k => y.regs.rsb k) = [] := by
  simp only [Run.waits, List.filter_filter, List.filter_eq_nil_iff, List.mem_range, Bool.and_eq_true, bne_iff_ne,
    List.any_eq_true, not_and]
  rintro k hk hset hne ⟨w, hw, hbit⟩
  exact absurd hset (by simp [h w hw k (by omega) (by omega) hbit])

/-! ### The syllables of a run -/

theorem Fold.next_went (hexec : exec i (s.atPlace c b k) = .next u) (hres : (u.bankAt c b).pipe.ctx.res = .went) :
    ({ st := s } : Fold).next c b k i = { st := u } := by
  simp [Fold.next, hexec, hres]

theorem Fold.next_trapped (hexec : exec i (s.atPlace c b k) = .next u) (hres : (u.bankAt c b).pipe.ctx.res = .trapped tr) :
    ({ st := s } : Fold).next c b k i = { st := s.named c b (u.bankAt c b).pipe.ctx.dests, trap := some tr } := by
  simp [Fold.next, hexec, hres, lowestTrap]

theorem placed_one (hi : decodeSyllableNat w = .ok i) : Run.placed { words := [w] } = [(0, i)] := by
  simp [Run.placed, Run.instrs, hi, Except.toOption, mapFrom]

theorem placed_two (hi : decodeSyllableNat w = .ok i) (hj : decodeSyllableNat w2 = .ok j) :
    Run.placed { words := [w, w2] } = [(0, i), (1, j)] := by
  simp [Run.placed, Run.instrs, hi, hj, Except.toOption, mapFrom]

/-! ### The bundle -/

/-- All syllables of a bundle inside its segment went: it ends. -/
theorem issueRun_went (hseg : (s.bankAt c b).seg.isSome = true)
    (hrun : Fold.run c b { st := s.prepared c b } (Run.placed { words := l }) = { st := u }) (hfall : u.fallTrap c b = none) :
    s.issueRun c b { words := l } none = .done ((u.endBundle c b l.length ((l.map wordStall).foldl max 0)).checkUnits c b
      (s.bankAt c b).pipe.bundle { words := l }) := by
  simp [State.issueRun, hrun, hfall, lowestTrap, State.issued, Run.stall, Option.isSome_iff_ne_none.mp hseg]

/-- A syllable traps: nothing of the bundle takes effect. -/
theorem issueRun_trapped {r : Run} (hrun : Fold.run c b { st := s.prepared c b } r.placed = { st := u, trap := some tr })
    (hfall : u.fallTrap c b = none) : s.issueRun c b r none = .done (s.takeTrapAt c b tr) := by
  simp [State.issueRun, hrun, hfall, lowestTrap]

/-- Without a decode trap, a wait or a target that is known to trap, the syllables run. -/
theorem issueBundle_runs (hseg : (s.bankAt c b).seg.isSome = true)
    (hread : s.readRun c b false 9 (s.bankAt c b).pc none = { words := l })
    (htrap : ∀ t ∈ mapFrom (s.bankAt c b).wordTrap 0 l, t = none)
    (hwait : ∀ w ∈ l, ∀ k, 1 ≤ k → k ≤ 6 → (wordWait w).testBit (k - 1) = true → (s.bankAt c b).regs.rsb k = false)
    (hearly : s.earlyTarget c b { words := l } = none) : s.issueBundle c b = s.issueRun c b { words := l } none := by
  have hnone : (s.bankAt c b).seg.isNone = false := by simpa using hseg
  simp [State.issueBundle, hnone, hread, decodeTraps_none hseg htrap, waits_clear hwait, hearly, lowestTrap]

/-- The segment stands whole in the loop buffer, and the stall cycles have passed. -/
theorem tryIssue_whole (hclk : (s.bankAt c b).pipe.nextIssue ≤ (s.bankAt c b).pipe.clk) (hread : s.readHalf c b = s)
    (hwhole : (s.core c).whole (s.bankAt c b).task.launch (s.bankAt c b).segAddr = some m) (hm : m ≤ (s.core c).cycle) :
    s.tryIssue c b =
      (s.modCore c fun z => z.useHalf (s.bankAt c b).task.launch (s.bankAt c b).segAddr).issueBundle c b := by
  have hfetch : s.fetchSegment c b (s.bankAt c b).segAddr = .ok s := if_pos (by rw [hwhole]; rfl)
  simp [State.tryIssue, hread, hfetch, hwhole, hm, Nat.not_lt.mpr hclk]

/-! ### The core's turn -/

theorem switchTo_current (hcur : (s.core c).cur = b) : s.switchTo c b = s.modCore c id := by
  simp [State.switchTo, State.modCore, hcur]

theorem core_switchTo (hcur : (s.core c).cur = b) : (s.switchTo c b).core c = s.core c := by
  rw [switchTo_current hcur, State.core_modCore, id]

theorem bankAt_switchTo (hcur : (s.core c).cur = b) : (s.switchTo c b).bankAt c b = s.bankAt c b := by
  rw [State.bankAt, core_switchTo hcur, State.bankAt]

theorem bankAt_useHalf {launch addr : ℕ} : (s.modCore c fun z => z.useHalf launch addr).bankAt c b = s.bankAt c b := by
  rw [State.bankAt, State.core_modCore]
  rfl

theorem facing_current (hfocus : s.focus = .core c) (hcur : (s.core c).cur = b) : s.facing c b = s.switchTo c b := by
  have hcore : ({ s.core c with cur := b } : Core) = s.core c := by rw [← hcur]
  have hsame : s.modCore c (fun x => { x with cur := b }) = s.modCore c id := by
    simp only [State.modCore, hcore, id]
  rw [State.facing, hsame, ← hfocus, switchTo_current hcur]
  rfl

theorem tryBanks_done (hfocus : s.focus = .core c) (hcur : (s.core c).cur = b) (hu : (s.switchTo c b).tryIssue c b = .done u) :
    s.tryBanks c [b] = (some (.next u), s) := by
  simp [State.tryBanks, facing_current hfocus hcur, hu]

section
variable (hmoves : s.moves = []) (hfocus : s.focus = .core c) (hstart : s.mgmt.start = .running)
  (hmonitor : s.mgmt.monitorRuns = true) (hctl : s.ctlQ = []) (hkills : s.kills = []) (htend0 : s.tend c 0 = none)
  (htend1 : s.tend c 1 = none) (hvar : (s.core c).varDue = none) (hsched : s.scheduled c = none)
  (horder : (s.core c).order = [b]) (hcur : (s.core c).cur = b)
include hmoves hfocus hstart hmonitor hctl hkills htend0 htend1 hvar hsched horder hcur

/-- A core with nothing due issues the bundle of its one bank, and the cycles that it took are counted. -/
theorem step_issues (hu : (s.switchTo c b).tryIssue c b = .done u) : step s = .next (u.account c (s.core c)) := by
  have hmove : s.coreMove c = .next u := by
    simp [State.coreMove, htend0, htend1, hvar, hsched, horder, tryBanks_done hfocus hcur hu]
  simp [step, hmoves, State.focusStep, hfocus, State.coreStep, hstart, hmonitor, hctl, hkills, hmove]

/-- The same, of a bank whose segment stands whole in the loop buffer. -/
theorem step_issues_whole (hread : (s.switchTo c b).readHalf c b = s.switchTo c b)
    (hwhole : (s.core c).whole (s.bankAt c b).task.launch (s.bankAt c b).segAddr = some m) (hm : m ≤ (s.core c).cycle)
    (hclk : (s.bankAt c b).pipe.nextIssue ≤ (s.bankAt c b).pipe.clk)
    (hu : ((s.switchTo c b).modCore c fun z => z.useHalf (s.bankAt c b).task.launch (s.bankAt c b).segAddr).issueBundle c b =
      .done u) : step s = .next (u.account c (s.core c)) := by
  refine step_issues hmoves hfocus hstart hmonitor hctl hkills htend0 htend1 hvar hsched horder hcur ?_
  have hbank := bankAt_switchTo hcur
  have hcore := core_switchTo hcur
  rw [tryIssue_whole (by rwa [hbank]) hread (by rwa [hbank, hcore]) (by rwa [hcore]), hbank, hu]

end

/-! ### A schedule thread, an event -/

theorem step_thread {d t : ℕ} (hmoves : s.moves = []) (hfocus : s.focus = .thread d t) (hstart : s.mgmt.start = .running)
    (hadds : (s.cle d).adds = []) (hst : ((s.cle d).thread t).st ≠ .idle) (hmay : (s.cle d).mayIssue t = true)
    (hword : s.threadWord d t = .ok (w, u)) : step s = exec (decodeLystil (BitVec.ofNat 64 w)) u := by
  simp [step, hmoves, State.focusStep, hfocus, State.threadStep, hstart, hadds, hst, hmay, hword]

theorem step_event {ms : List Move} (hmoves : s.moves = .event i :: ms)
    (h : s.mgmt.start ≠ .recovery ∨ (Move.event i).management = true) : step s = exec i { s with moves := ms } := by
  rw [step, hmoves]
  exact if_neg fun ⟨hrec, hman⟩ => h.elim (· hrec) hman

theorem step_event_recovery {ms : List Move} (hmoves : s.moves = .event i :: ms) (hrec : s.mgmt.start = .recovery)
    (hman : (Move.event i).management = false) : step s = .next { s with moves := ms } := by
  rw [step, hmoves]
  exact if_pos ⟨hrec, by simp [hman]⟩

/-- Settles O58: by `step_issues_whole` for a core, `step_thread` for a thread, `step_event` for an event. -/
theorem stepRunsTheDecodedInstruction : Obligations.StepRunsTheDecodedInstruction := by
  unfold Obligations.StepRunsTheDecodedInstruction
  refine ⟨?core, ?thread, ?event⟩
  case thread =>
    intro s u d t w hmoves hfocus hstart hadds hst hmay hword
    exact step_thread hmoves hfocus hstart hadds hst hmay hword
  case event =>
    intro s e l hmoves
    exact ⟨step_event hmoves, step_event_recovery hmoves⟩
  case core =>
    intro s c b w m i hmoves hfocus hstart hmonitor hctl hkills htend0 htend1 hvar hsched horder hcur hread y n hwhole hm v went
      hclk hseg hfetch hsegh hwait hi hw
    have hv : v.bankAt c b = y := bankAt_useHalf.trans (bankAt_switchTo hcur)
    have hstep {u : State} (hu : v.issueBundle c b = .done u) : step s = .next (u.account c n) :=
      step_issues_whole hmoves hfocus hstart hmonitor hctl hkills htend0 htend1 hvar hsched horder hcur hread hwhole hm hclk hu
    rw [← hv] at hseg
    refine ⟨fun u hend hearly hexec => ?one, ?two⟩
    case one =>
      have hbundle := issueBundle_runs (l := [w]) hseg (readRun_end (by rwa [hv]) hsegh rfl hend)
        (by simpa [mapFrom, hv] using hw) (by simpa [hv] using hwait) hearly
      refine ⟨fun hres hfall => hstep ?_, fun tr hres hfall => hstep ?_⟩
      · have hrun := Fold.next_went hexec hres
        rw [hbundle, issueRun_went hseg (by rwa [placed_one hi]) hfall, hv]
      · have hrun := Fold.next_trapped hexec hres
        rw [hbundle, issueRun_trapped (by rwa [placed_one hi]) hfall]
    case two =>
      intro w2 j u u2 hend hfetch2 hsegh2 hend2 hslot hwait2 hj hw2 hearly hexec hres hexec2 hres2 hfall
      have hrest := readRun_end (prev := some (wordSlot w)) (fuel := 7) hfetch2 hsegh2 (by simpa using hslot) hend2
      have hbundle := issueBundle_runs (l := [w, w2]) hseg (by rw [hv]; exact readRun_more hfetch hsegh hend hrest)
        (by simpa [mapFrom, hv] using ⟨hw, hw2⟩) (by simpa [hv] using ⟨hwait, hwait2⟩) hearly
      have hrun : Fold.run c b { st := v.prepared c b } [(0, i), (1, j)] = { st := u2 } := by
        rw [Fold.run, Fold.next_went hexec hres]
        exact Fold.next_went hexec2 hres2
      refine hstep ?_
      rw [hbundle, issueRun_went hseg (by rwa [placed_two hi hj]) hfall, hv]

end Sys2Proof.Machine
end

