-- ==== Sys2Proof/Proofs/ScalarResults.lean ====
section
/-!
The two-source scalar instructions (O1). `scalar2_sends` is what each of them answers, `divPlan_sends` what a divide answers; the rest
says that the model's operation on words is the arithmetic of R93.
-/

-- As in MemoryCanonical.
set_option Elab.async false

namespace Sys2Proof.Machine

open Sys2Proof

variable {s : State} {h : Hdr} {lat d a b k : ℕ} {f : Word → Word → Word} {v x y : Word}

/-! ### Words as numbers -/

theorem ofNat_shiftLeft : x <<< k = BitVec.ofNat 64 (x.toNat * 2 ^ k) :=
  BitVec.eq_of_toNat_eq (by simp [Nat.shiftLeft_eq])

theorem ofNat_shiftRight : x >>> k = BitVec.ofNat 64 (x.toNat / 2 ^ k) := by
  rw [← Nat.shiftRight_eq_div_pow, ← BitVec.toNat_ushiftRight, BitVec.ofNat_toNat, BitVec.setWidth_eq]

theorem ofInt_sshiftRight : x.sshiftRight k = BitVec.ofInt 64 (x.toInt / ((2 ^ k : ℕ) : ℤ)) := by
  rw [← Int.shiftRight_eq_div_pow, ← BitVec.toInt_sshiftRight, BitVec.ofInt_toInt]

theorem ofNat_rotateRight (hk : k < 64) :
    x.rotateRight k = BitVec.ofNat 64 (x.toNat / 2 ^ k + x.toNat * 2 ^ (64 - k)) := by
  have hlow : x.toNat / 2 ^ k < 2 ^ (64 - k) := by
    rw [Nat.div_lt_iff_lt_mul (Nat.two_pow_pos k), ← Nat.pow_add, Nat.sub_add_cancel hk.le]
    exact x.isLt
  rw [BitVec.rotateRight_def, Nat.mod_eq_of_lt hk, ofNat_shiftRight, ofNat_shiftLeft, ← BitVec.ofNat_or, Nat.or_comm,
    Nat.mul_comm, ← Nat.two_pow_add_eq_or_of_lt hlow, Nat.add_comm]

theorem ofInt_min : (if x.toInt ≤ y.toInt then x else y) = BitVec.ofInt 64 (min x.toInt y.toInt) := by
  rw [min_def, apply_ite (BitVec.ofInt 64), BitVec.ofInt_toInt, BitVec.ofInt_toInt]

theorem ofInt_max : (if x.toInt ≤ y.toInt then y else x) = BitVec.ofInt 64 (max x.toInt y.toInt) := by
  rw [max_def, apply_ite (BitVec.ofInt 64), BitVec.ofInt_toInt, BitVec.ofInt_toInt]

theorem ofNat_min : (if x.toNat ≤ y.toNat then x else y) = BitVec.ofNat 64 (min x.toNat y.toNat) := by
  rw [min_def, apply_ite (BitVec.ofNat 64), BitVec.ofNat_toNat, BitVec.ofNat_toNat, BitVec.setWidth_eq, BitVec.setWidth_eq]

theorem ofNat_max : (if x.toNat ≤ y.toNat then y else x) = BitVec.ofNat 64 (max x.toNat y.toNat) := by
  rw [max_def, apply_ite (BitVec.ofNat 64), BitVec.ofNat_toNat, BitVec.ofNat_toNat, BitVec.setWidth_eq, BitVec.setWidth_eq]

/-! ### Two sources and a destination -/

section
variable (hd : d < 64) (ha : a < 64) (hb : b < 64) (hc : s.clear h (foot [(.s, a, 1), (.s, b, 2)] [(.s, d, 0)]))
include hd ha hb

theorem scalarOps_legal : ∀ e ∈ ([(.s, d, 0)] ++ [(.s, a, 1), (.s, b, 2)] : List RegOp), e.2.1 < e.1.count := by
  simp [Fam.count, hd, ha, hb]

include hc

theorem scalar2_sends (hv : f (s.rg.rs a) (s.rg.rs b) = v) : Sends (runScalar2 h lat f d a b s) s h [(lat, [.s d v])] :=
  hv ▸ run_regPlan hc (scalarOps_legal hd ha hb) rfl rfl

/-- A divide that the divider takes counts among those of its bundle. -/
theorem divPlan_sends (hready : s.bk.divReady = true) (hv : f (s.rg.rs a) (s.rg.rs b) = v) :
    Sends (runSyllable h 18 (divPlan f d a b) s) s h [(18, [.s d v])]
      fun t => t.modBk fun z => z.modCtx fun k => { k with divs := k.divs + 1 } := by
  subst hv
  have hgo := regPlan_go _ _ 18 [.s d (f (s.rg.rs a) (s.rg.rs b))] (scalarOps_legal hd ha hb)
  have hplan : divPlan f d a b s = { scalar2 18 f d a b s with
      eff := fun _ t => t.modBk fun z => z.modCtx fun k => { k with divs := k.divs + 1 } } := if_pos hready
  exact run_plan hc _ rfl rfl hplan ⟨rfl, rfl, rfl, rfl, rfl, rfl, rfl, hgo⟩ rfl

end

/-- Settles O1, by `scalar2_sends` and `divPlan_sends`. -/
theorem scalarArithmeticResults : Obligations.ScalarArithmeticResults := by
  unfold Obligations.ScalarArithmeticResults
  constructor
  · intro h d a b s hd ha hb hc x y k
    have hk : k < 64 := Nat.mod_lt _ (by decide)
    have sends {lat : ℕ} {f : Word → Word → Word} {v : Word} (hv : f x y = v) :
        Sends (runScalar2 h lat f d a b s) s h [(lat, [.s d v])] := scalar2_sends hd ha hb hc hv
    exact ⟨sends rfl, sends rfl, sends rfl, sends rfl, sends rfl, sends rfl, sends ofNat_shiftLeft, sends ofNat_shiftRight,
      sends ofInt_sshiftRight, sends (ofNat_rotateRight hk), sends rfl, sends rfl, sends rfl, sends ofInt_min, sends ofInt_max,
      sends ofNat_min, sends ofNat_max⟩
  · intro h d a b s hd ha hb hready hc x y f
    have sends {g : Word → Word → Word} {v : Word} (hv : g x y = v) : Sends (runSyllable h 18 (divPlan g d a b) s) s h
        [(18, [.s d v])] f := divPlan_sends hd ha hb hc hready hv
    exact ⟨sends rfl, sends rfl, sends rfl, sends rfl⟩

end Sys2Proof.Machine
end

