-- ==== Sys2Proof/Proofs/AddressResults.lean ====
section
/-!
The address instructions (O3): each is a register plan, so that `run_regPlan` says what it answers, and `specWrite_regPlan` what the
address stream makes of it on the state that it sees.
-/

-- As in MemoryCanonical.
set_option Elab.async false

namespace Sys2Proof.Machine

open Sys2Proof

variable {s v : State} {h : Hdr} {d a b k n step bound : ℕ} {ents : BitVec 48} {rd wr : List RegOp}
  {t : Tab (Option Word)} {i : Instr} {x : Word} {y : Bank}

/-! ### The fields of the work identifier -/

theorem fieldOf_eq (l : List ℕ) (hk : k < l.length) : fieldOf l k n = n / 2 ^ (l.take k).sum % 2 ^ l[k] := by
  induction l generalizing k n with
  | nil => exact absurd hk (Nat.not_lt_zero k)
  | cons w l ih =>
    cases k with
    | zero => simp [fieldOf]
    | succ k => simp [fieldOf, ih (Nat.lt_of_succ_lt_succ hk), Nat.div_div_eq_div_mul, Nat.pow_add]

/-- The field of number `k` stands above the fields of lower numbers (R98). -/
theorem State.workField_eq (hk : k < 6) : s.workField k = s.bk.cregs.workId.toNat /
    2 ^ ((List.range k).map fun j => s.bk.cregs.workShape.toNat / 2 ^ (7 * j) % 2 ^ 7).sum %
      2 ^ (s.bk.cregs.workShape.toNat / 2 ^ (7 * k) % 2 ^ 7) := by
  have hlen : k < (shapeWidths s.bk.cregs.workShape).length := by simpa [shapeWidths] using hk
  rw [State.workField, fieldOf_eq _ hlen]
  simp [shapeWidths, bitsN, ← List.map_take, List.take_range, Nat.min_eq_left hk.le]

theorem idxSum_eq : idxSum ents s = ((List.range 6).map fun k =>
    if ents.getLsbD (8 * k + 7) then s.workField k * 2 ^ (ents.toNat / 2 ^ (8 * k) % 64) else 0).sum := by
  rw [idxSum, ← List.sum_eq_foldl]
  refine congrArg List.sum (List.map_congr_left fun k _ => ?_)
  have henable : (bitsN ents.toNat (8 * k) 8).testBit 7 = ents.getLsbD (8 * k + 7) := by
    rw [bitsN, Nat.testBit_mod_two_pow, Nat.testBit_div_two_pow, BitVec.getLsbD, Nat.add_comm, decide_eq_true (by decide),
      Bool.true_and]
  have hshift : bitsN ents.toNat (8 * k) 8 % 64 = ents.toNat / 2 ^ (8 * k) % 64 := by
    rw [bitsN]
    omega
  simp only [henable, hshift]

/-! ### Plans -/

theorem planAwrap_eq (hs : step < bound) : planAwrap d a step bound s = regPlan [(.a, a, 1)] [(.a, d, 0)] 1
    [.a d (BitVec.ofNat 64 (if bound ≤ (s.rg.ra a).toNat + step then (s.rg.ra a).toNat + step - bound
      else (s.rg.ra a).toNat + step))] := by
  have hok : ¬ (bound = 0 ∨ bound ≤ step) := by omega
  rw [planAwrap, if_neg hok]
  rfl

theorem planAwrap_bad (hs : bound ≤ step) : planAwrap d a step bound s = regPlan [(.a, a, 1)] [(.a, d, 0)] 1
    [.a d (wrapAddr step bound (s.rg.ra a))] (some (illegalOp 6)) := by
  rw [planAwrap, if_pos (Or.inr hs)]
  rfl

theorem planWidf_bad (hk : 5 < k) : planWidf d k s = regPlan [] [(.s, d, 0)] 1
    [.s d (BitVec.ofNat 64 (s.workField k))] (some (illegalOp 6)) := by
  rw [planWidf, if_pos hk]

theorem planAidx_eq : planAidx d a ents s = regPlan [(.a, a, 1)] [(.a, d, 0)] 1
    [.a d (s.rg.ra a + BitVec.ofNat 64 (((List.range 6).map fun k =>
      if ents.getLsbD (8 * k + 7) then s.workField k * 2 ^ (ents.toNat / 2 ^ (8 * k) % 64) else 0).sum))] := by
  rw [← idxSum_eq]
  rfl

/-! ### The address stream -/

theorem specWrite_regPlan (hi : addressPlan i v = some (h, regPlan rd wr 1 [.a d x])) (hmark : h.asMark = true)
    (hp : y.predTrue h = true) (hr : ∀ e ∈ wr ++ rd, e.2.1 < e.1.count) : specWrite v y t i = Tab.set none t d (some x) := by
  have hgo := regPlan_go rd wr 1 [.a d x] hr
  simp only [specWrite, hi, Option.filter_some, hmark, if_true, hp, hgo, not_true_eq_false, ne_eq, or_self, if_false]
  rfl

/-- The stream does not execute a syllable that is no address instruction; one with no A destination leaves the copy. -/
theorem specWrite_none (hi : addressPlan i v = none) (hd : (addressDests i).filter (fun r => r.fam == Fam.a) = []) :
    specWrite v y t i = t := by
  simp only [specWrite, hi, Option.filter_none, hd, List.foldl_nil]

theorem refsOf_s_filter_a : (refsOf [(.s, b, n)]).filter (fun r => r.fam == Fam.a) = [] := by
  rw [List.filter_eq_nil_iff]
  intro r hr
  obtain ⟨e, he, rfl⟩ := List.mem_map.mp hr
  obtain rfl := List.mem_singleton.mp (List.mem_of_mem_filter he)
  exact Bool.false_ne_true

/-- The stream sees the issuing bank with the copy in place of its A registers. -/
theorem State.bk_streamView : (s.streamView s.cf s.bf).bk =
    { s.bk with regs := { s.rg with a := specRegs s.rg.a (s.core s.cf).spec } } := by
  have hbk (g : Bank → Bank) : ({ s.modBank s.cf s.bf g with focus := .core s.cf } : State).bk = g s.bk := by
    change ((s.modBank s.cf s.bf g).core s.cf).bank ((s.modBank s.cf s.bf g).core s.cf).cur = _
    rw [State.core_modBank, Core.setBank_cur]
    exact Core.bank_setBank _ _ _
  exact hbk _

theorem State.rs_streamView : (s.streamView s.cf s.bf).rg.rs b = s.rg.rs b := by
  rw [State.rg, State.bk_streamView]
  rfl

theorem State.workField_streamView : (s.streamView s.cf s.bf).workField k = s.workField k := by
  rw [State.workField, State.bk_streamView]
  rfl

/-- Settles O3: the plans by `run_regPlan`, their illegal fields by `run_regPlan_field`, the stream by `specWrite_regPlan`. -/
theorem addressResults : Obligations.AddressResults := by
  unfold Obligations.AddressResults
  intro h d a b s hd ha hb x
  have addr1_legal : ∀ e ∈ ([(.a, d, 0)] ++ [(.a, a, 1)] : List RegOp), e.2.1 < e.1.count := by simp [Fam.count, hd, ha]
  have fromS_legal : ∀ e ∈ ([(.a, d, 0)] ++ [(.s, b, 1)] : List RegOp), e.2.1 < e.1.count := by simp [Fam.count, hd, hb]
  have add_legal : ∀ e ∈ ([(.a, d, 0)] ++ [(.a, a, 1), (.s, b, 2)] : List RegOp), e.2.1 < e.1.count := by
    simp [Fam.count, hd, ha, hb]
  have toS_legal : ∀ e ∈ ([(.s, b, 0)] ++ [(.a, a, 1)] : List RegOp), e.2.1 < e.1.count := by simp [Fam.count, hb, ha]
  have dst_legal : ∀ e ∈ ([(.s, b, 0)] ++ [] : List RegOp), e.2.1 < e.1.count := by simp [Fam.count, hb]
  refine ⟨fun hc => run_regPlan hc fromS_legal rfl rfl, fun hc => run_regPlan hc toS_legal rfl rfl,
    fun hc => run_regPlan hc add_legal rfl rfl,
    fun hc => ⟨run_regPlan hc addr1_legal rfl rfl, fun imm => run_regPlan hc addr1_legal rfl rfl,
      fun step bound hs => run_regPlan hc addr1_legal rfl (planAwrap_eq hs),
      fun ents => run_regPlan hc addr1_legal rfl planAidx_eq⟩,
    fun hp hck hn => ⟨fun step bound hs => ?wrap, run_bad_field (plan := planAmov d b 3) hp hck hn rfl,
      fun k hk => run_regPlan_field hp hck hn dst_legal (by simp) (planWidf_bad hk)⟩,
    fun hc k hk => run_regPlan hc dst_legal (if_neg (by omega)) rfl, fun k => State.workField_eq, fun t => ?stream⟩
  case wrap =>
    have hdst : [⟨.a, d⟩] = refsOf [(.a, d, 0)] := by simp [refsOf, hardWired, Fam.count, hd]
    rw [hdst]
    exact run_regPlan_field hp hck hn addr1_legal (by simp) (planAwrap_bad hs)
  case stream =>
    intro v x put
    have hb : s.rg.rs b = v.rg.rs b := State.rs_streamView.symm
    refine ⟨fun hmark hp => ⟨?_, ?_, ?_, fun imm => ?_, fun step bound hs => ?_, fun ents => ?_⟩,
      specWrite_none rfl refsOf_s_filter_a, fun k => specWrite_none rfl refsOf_s_filter_a⟩
    · rw [hb]
      exact specWrite_regPlan rfl hmark hp fromS_legal
    · exact specWrite_regPlan rfl hmark hp addr1_legal
    · rw [hb]
      exact specWrite_regPlan rfl hmark hp add_legal
    · exact specWrite_regPlan rfl hmark hp addr1_legal
    · exact specWrite_regPlan (by rw [addressPlan, planAwrap_eq hs]) hmark hp addr1_legal
    · have hsum := planAidx_eq (d := d) (a := a) (ents := ents) (s := v)
      simp only [State.workField_streamView, v] at hsum
      exact specWrite_regPlan (by rw [addressPlan, hsum]) hmark hp addr1_legal

end Sys2Proof.Machine
end

