-- ==== Sys2Proof/Proofs/SyllableTraps.lean ====
section
/-!
Traps at issue (O5). A plan that traps by itself is the trap that the syllable takes where no check speaks (`run_traps`). An access
outside scratchpad or out of alignment traps before whatever its sectors meet, whose causes are higher (`run_access_traps`).
-/

-- As in MemoryCanonical.
set_option Elab.async false

namespace Sys2Proof.Machine

open Sys2Proof

variable {s : State} {h : Hdr} {lat k n a r base size idx mode : ℕ} {plan : State → Plan} {p q : Plan} {t : Trap}
  {rd wr : List RegOp} {ts : List Touch} {disp : BitVec 48} {l : List (Option Trap)}

/-! ### The trap that is taken -/

theorem lowestTrap_mem (h : lowestTrap l = some t) : some t ∈ l := by
  induction l with
  | nil => cases h
  | cons o l ih =>
    cases o with
    | none => exact List.mem_cons_of_mem _ (ih h)
    | some u =>
      rw [lowestTrap] at h
      split at h
      · simp [Option.some.inj h]
      · next v hv =>
        split at h
        · simp [Option.some.inj h]
        · exact List.mem_cons_of_mem _ (ih (hv.trans h))

/-- The first trap of a list is taken when no later one has a lower cause. -/
theorem lowestTrap_head (h : ∀ u, some u ∈ l → t.cause ≤ u.cause) : lowestTrap (some t :: l) = some t := by
  rw [lowestTrap]
  split
  · rfl
  · next u hu => exact if_pos (h u (lowestTrap_mem hu))

/-- Only causes 0x22 to 0x24 name the register of their field (R368). -/
theorem Plan.report_low (ht : t.cause < 0x22) : p.report t = t := if_neg fun ⟨_, hcause, _⟩ => by omega

/-- A plan without accesses whose own trap names no operand takes that trap where no check speaks. -/
theorem run_traps {l : List RegRef} (hp : s.bk.predTrue h = true) (hc : s.bk.checks = false) (hn : s.noBad = true)
    (hplan : plan s = q) (hout : q.out = .trap t) (htouch : q.touches = []) (hdests : q.dests = l)
    (hv : ∀ r ∈ q.writes ++ q.reads, r.fam ≠ .v) (ht : t.cause < 0x22) :
    runSyllable h lat plan s = .next ((s.naming h l).takeTrap { t with slot := h.slot }) := by
  rw [runSyllable_own q hp hc hn hplan hout htouch (parkedTrap_noV _ _ hv), Plan.report_low ht, hdests]

theorem naming_nil : s.naming h [] = s := rfl

theorem regPlan_bad {ws : List Write} (h : ∀ e ∈ wr ++ rd, e.2.1 < e.1.count) :
    (regPlan rd wr lat ws (some t)).out = .trap t := by
  simp [regPlan, regBad_none _ h, regPlan.lowestOp]

theorem regPlan_noV (hv : ∀ e ∈ wr ++ rd, e.1 ≠ .v) : ∀ r ∈ refsOf wr ++ refsOf rd, r.fam ≠ .v := by
  intro r hr
  rcases List.mem_append.mp hr with hr | hr
  · exact refsOf_noV wr (fun e he => hv e (List.mem_append_left _ he)) r hr
  · exact refsOf_noV rd (fun e he => hv e (List.mem_append_right _ he)) r hr

/-- A register plan with a trap of its own, apart from its effect. -/
theorem run_regPlan_traps {lat' : ℕ} {ws : List Write} {eff : ℕ → State → State} (hp : s.bk.predTrue h = true)
    (hc : s.bk.checks = false) (hn : s.noBad = true) (hr : ∀ e ∈ wr ++ rd, e.2.1 < e.1.count)
    (hv : ∀ e ∈ wr ++ rd, e.1 ≠ .v) (ht : t.cause < 0x22)
    (hplan : plan s = { regPlan rd wr lat ws (some t) with eff := eff }) :
    runSyllable h lat' plan s = .next ((s.naming h (refsOf wr)).takeTrap { t with slot := h.slot }) :=
  run_traps hp hc hn hplan (regPlan_bad (lat := lat) (ws := ws) hr) rfl (List.append_nil _) (regPlan_noV hv) ht

/-! ### A taken branch -/

theorem run_jump_traps {target : ℕ} (hp : s.bk.predTrue h = true) (hclear : s.bk.planTrap h {} = none) (hn : s.noBad = true)
    (hsegh : s.seghAt s.cf s.bf target = false) (hplan : plan s = jumpPlan true target {} s) :
    runSyllable h lat plan s = .next (s.takeTrap { cause := 0x04, slot := h.slot, info := BitVec.ofNat 64 target }) := by
  let t : Trap := { cause := 0x04, info := BitVec.ofNat 64 target }
  let q : Plan := { out := .trap t }
  have hq : plan s = q := by simp [hplan, jumpPlan, hsegh, q, t]
  have htrap : s.bk.planTrap h q = some { q.report t with slot := h.slot } :=
    Bank.planTrap_trap s.bk h q {} t rfl hclear rfl rfl rfl rfl rfl
  rw [Plan.report_low (show 0x04 < 0x22 by decide)] at htrap
  have hdests : q.dests = [] := rfl
  rw [runSyllable_trap hp (by rw [hq]; nofun) (by rw [hq]) (by rw [hq]; exact htrap) (by simp [State.badRead, hn]), hq, hdests,
    naming_nil]

/-! ### A place and a mode -/

theorem runPlaced_outside {ok : Bool} {cause : ℕ} (hok : ok = false) :
    runPlaced ok cause h lat plan s = .next (s.takeTrap (s.bk.decodeTrap h.slot cause)) := if_neg (by simp [hok])

theorem cregCheck_privileged {write : Bool} (hi : idx ∈ cregIndices) (hpriv : idx.testBit 11 = true) :
    cregCheck idx write true = some (privTrap idx) := by
  rw [cregCheck, if_neg (by simpa using hi), if_pos ⟨hpriv, rfl⟩]

theorem privTrap_cause : (privTrap n).cause < 0x22 := show 0x07 < 0x22 by decide

theorem refsOf_nil : refsOf [] = [] := rfl

section
variable (hp : s.bk.predTrue h = true) (hm : s.bk.monitor = false) (hc : s.bk.checks = false) (hn : s.noBad = true)
include hp hm hc hn

theorem eret_traps : exec (.eret h) s = .next (s.takeTrap { privTrap 0xFFF with slot := h.slot }) := by
  have hplan : planEret s = .bad (privTrap 0xFFF) := if_neg (by simp [hm])
  have hrun := run_traps (lat := 1) (l := []) hp hc hn hplan rfl rfl rfl (by simp [Plan.bad]) privTrap_cause
  rwa [naming_nil] at hrun

theorem muinv_traps (ha : a < 64) : exec (.muinv h a mode) s = .next (s.takeTrap { privTrap 0xFFF with slot := h.slot }) := by
  have hops : ∀ e ∈ ([] ++ [(.s, a, 1)] : List RegOp), e.2.1 < e.1.count := by simp [Fam.count, ha]
  obtain ⟨ws, hplan⟩ : ∃ ws, planMuinv a mode s = regPlan [(.s, a, 1)] [] 1 ws (some (privTrap 0xFFF)) :=
    ⟨_, by rw [planMuinv, hm]; rfl⟩
  have hrun := run_regPlan_traps (lat' := 1) hp hc hn hops (by simp) privTrap_cause hplan
  rwa [refsOf_nil, naming_nil] at hrun

section
variable (hi : idx ∈ cregIndices) (hpriv : idx.testBit 11 = true)
include hi hpriv

theorem getc_traps (ha : a < 64) : exec (.getc h a idx) s =
    .next ((s.naming h (refsOf [(.s, a, 0)])).takeTrap { privTrap idx with slot := h.slot }) := by
  have hops : ∀ e ∈ ([(.s, a, 0)] ++ [] : List RegOp), e.2.1 < e.1.count := by simp [Fam.count, ha]
  obtain ⟨ws, hplan⟩ : ∃ ws, planGetc a idx s = regPlan [] [(.s, a, 0)] 1 ws (some (privTrap idx)) :=
    ⟨_, by rw [planGetc, hm]; exact congrArg _ (cregCheck_privileged hi hpriv)⟩
  exact run_regPlan_traps (lat' := 1) hp hc hn hops (by simp) privTrap_cause hplan

theorem setc_traps (ha : a < 64) : exec (.setc h a idx) s = .next (s.takeTrap { privTrap idx with slot := h.slot }) := by
  have hops : ∀ e ∈ ([] ++ [(.s, a, 1)] : List RegOp), e.2.1 < e.1.count := by simp [Fam.count, ha]
  obtain ⟨ws, eff, hplan⟩ : ∃ ws eff, planSetc a idx s =
      { regPlan [(.s, a, 1)] [] 1 ws (some (privTrap idx)) with eff := eff } :=
    ⟨_, _, by rw [planSetc, hm, Bool.not_false, cregCheck_privileged hi hpriv]⟩
  have hrun := run_regPlan_traps (lat' := 1) hp hc hn hops (by simp) privTrap_cause hplan
  rwa [refsOf_nil, naming_nil] at hrun

end
end

/-! ### Scratchpad -/

theorem eachSec_error {f : State → ℕ × ℕ → Except Trap State} {l : List (ℕ × ℕ)}
    (hf : ∀ s k t, f s k = .error t → 0x12 ≤ t.cause) (h : State.eachSec f s l = .error t) : 0x12 ≤ t.cause := by
  induction l generalizing s t with
  | nil => cases h
  | cons k l ih =>
    rw [State.eachSec] at h
    split at h
    · exact ih h
    · next u hu =>
      split at h
      · cases h
        exact hf _ _ _ hu
      · next v hv =>
        cases h
        split
        · exact ih hv
        · exact hf _ _ _ hu

theorem trTrap_cause {e : TrErr} {va acc : ℕ} : 0x12 ≤ (trTrap e va acc).cause := by
  cases e <;> simp [trTrap]

theorem startFill_error {c b : ℕ} (h : s.startFill c b n k = .error t) : 0x12 ≤ t.cause := by
  unfold State.startFill at h
  simp only at h
  split at h
  · cases h
  · split at h
    · cases h
    · split at h
      · cases h
        exact trTrap_cause
      · split at h
        · cases h
          exact show 0x12 ≤ 0x14 by decide
        · cases h

theorem dirtySec_error {c b : ℕ} (h : s.dirtySec c b n k = .error t) : 0x12 ≤ t.cause := by
  unfold State.dirtySec at h
  simp only at h
  split at h
  · cases h
  · split at h
    · split at h
      · cases h
        exact trTrap_cause
      · cases h
    · cases h

theorem trapOf_eq_some {e : Except Trap State} {u : Trap} (he : ∀ t, e = .error t → 0x12 ≤ t.cause)
    (hu : trapOf h e = some u) :
    0x12 ≤ u.cause := by
  unfold trapOf at hu
  split at hu
  · next t => cases hu; exact he t rfl
  · cases hu

theorem touchTrap_cause {y : Bank} (h : y.touchTrap ts = some t) : t.cause = 0x12 := by
  obtain ⟨e, -, rfl⟩ := Option.map_eq_some_iff.mp h
  rfl

/-- A plan that traps with a cause up to 0x11 where no check speaks takes that trap, whatever the sectors of its accesses meet. -/
theorem run_access_traps {l : List RegRef} (hp : s.bk.predTrue h = true) (hc : s.bk.checks = false) (hn : s.noBad = true)
    (hplan : plan s = q) (hout : q.out = .trap t) (hdests : q.dests = l)
    (hv : ∀ r ∈ q.writes ++ q.reads, r.fam ≠ .v) (ht : t.cause ≤ 0x11) :
    runSyllable h lat plan s = .next ((s.naming h l).takeTrap { t with slot := h.slot }) := by
  subst hplan hdests
  have hown : s.bk.planTrap h (plan s) = some { t with slot := h.slot } := by
    simp only [Bank.planTrap, hout, hc, Bool.false_eq_true, if_false, List.nil_append, Option.map_some, Plan.report_low
      (show t.cause < 0x22 by omega), parkedTrap_noV _ _ hv, Option.map_none]
    refine lowestTrap_head fun u hu => ?_
    obtain ⟨v, hv, rfl⟩ : ∃ v, s.bk.touchTrap (plan s).touches = some v ∧ { v with slot := h.slot } = u := by simpa using hu
    have := touchTrap_cause hv
    exact show t.cause ≤ v.cause by omega
  have hlow : lowestTrap [s.bk.planTrap h (plan s), s.badRead h (plan s),
      trapOf h (s.startFills s.cf s.bf (s.bk.touchWaits (plan s).touches)),
      trapOf h (s.makeDirty s.cf s.bf (s.bk.touchDirty (plan s).touches))] = some { t with slot := h.slot } := by
    have hbad : s.badRead h (plan s) = none := by simp [State.badRead, hn]
    rw [hown, hbad]
    refine lowestTrap_head fun u hu => show t.cause ≤ u.cause from ?_
    simp only [List.mem_cons, reduceCtorEq, List.not_mem_nil, or_false, false_or] at hu
    rcases hu with hu | hu
    · exact le_trans (by omega) (trapOf_eq_some (fun _ => eachSec_error fun _ _ _ => startFill_error) hu.symm)
    · exact le_trans (by omega) (trapOf_eq_some (fun _ => eachSec_error fun _ _ _ => dirtySec_error) hu.symm)
  simp only [runSyllable, hp, not_true_eq_false, if_false, hout, hlow]

/-- A plan that goes, with an access that traps. -/
theorem access_trap {align : ℕ} (hgo : p.out = .go) (ht : boundsTrap ts align = some t) :
    (p.access ts align s).out = .trap t := by
  simp [Plan.access, State.accessTrap, ht, hgo, regPlan.lowestOp]

theorem leBytes_length : (leBytes k n).length = k := by
  induction k generalizing n with
  | zero => rfl
  | succ k ih => rw [leBytes, List.length_cons, ih]

theorem State.lReady_open (hl : s.bk.lOpen) : s.lReady p = p := if_pos hl

theorem boundsTrap_past {write : Bool} {align : ℕ} (h : scratchBytes < a + n) :
    boundsTrap [{ addr := a, len := n, write := write }] align = some { cause := 0x10, info := BitVec.ofNat 64 a } := by
  simp [boundsTrap, h]

theorem boundsTrap_unaligned {write : Bool} {align : ℕ} (h : a + n ≤ scratchBytes) (ha : a % align ≠ 0) :
    boundsTrap [{ addr := a, len := n, write := write }] align = some { cause := 0x11, info := BitVec.ofNat 64 a } := by
  simp [boundsTrap, Nat.not_lt.mpr h, ha]

section
variable (hr : r < 64) (hb : base < 16) (hl : s.bk.lOpen) (hp : s.bk.predTrue h = true) (hc : s.bk.checks = false)
  (hn : s.noBad = true)
include hr hb hl hp hc hn

theorem lds_traps {sx : Bool}
    (hbounds : boundsTrap [{ addr := s.effAddr base disp, len := 2 ^ size, write := false }] (2 ^ size) = some t)
    (ht : t.cause ≤ 0x11) :
    exec (.lds h r base disp size sx) s = .next ((s.naming h (refsOf [(.s, r, 0)])).takeTrap { t with slot := h.slot }) := by
  have hops : ∀ e ∈ ([(.s, r, 0)] ++ [(.a, base, 6)] : List RegOp), e.2.1 < e.1.count := by simp [Fam.count, hr, hb]
  exact run_access_traps hp hc hn (State.lReady_open hl) (access_trap (regPlan_go _ _ _ _ hops) hbounds) (List.append_nil _)
    (regPlan_noV (by simp)) ht

theorem sts_traps
    (hbounds : boundsTrap [{ addr := s.effAddr base disp, len := 2 ^ size, write := true }] (2 ^ size) = some t)
    (ht : t.cause ≤ 0x11) :
    exec (.sts h r base disp size) s = .next (s.takeTrap { t with slot := h.slot }) := by
  have hops : ∀ e ∈ ([] ++ [(.s, r, 0), (.a, base, 6)] : List RegOp), e.2.1 < e.1.count := by simp [Fam.count, hr, hb]
  have hlen : boundsTrap [{ addr := s.effAddr base disp, len := (leBytes (2 ^ size) (s.rg.rs r).toNat).length, write := true }]
      (2 ^ size) = some t := by rwa [leBytes_length]
  exact run_access_traps hp hc hn (State.lReady_open hl) (access_trap (regPlan_go _ _ _ _ hops) hlen) (List.append_nil _)
    (regPlan_noV (by simp)) ht

end

/-- Settles O5: `run_jump_traps`, `runPlaced_outside`, the privileged plans by `run_regPlan_traps`, `lds_traps` and `sts_traps`. -/
theorem syllableTraps : Obligations.SyllableTraps := by
  unfold Obligations.SyllableTraps
  refine ⟨⟨fun h off s hp hclear hn hsegh => run_jump_traps (plan := planBr off) hp hclear hn hsegh rfl,
    fun h r base size opb opc op disp b1 b2 s hexit => ⟨runPlaced_outside hexit, runPlaced_outside hexit,
      runPlaced_outside hexit, runPlaced_outside hexit⟩⟩, ?privileged, ?scratchpad⟩
  case privileged =>
    intro h d a idx mode s hd ha hp hm hc hn t
    exact ⟨eret_traps hp hm hc hn, muinv_traps hp hm hc hn ha, fun hi hpriv => ⟨getc_traps hp hm hc hn hi hpriv hd,
      setc_traps hp hm hc hn hi hpriv ha⟩⟩
  case scratchpad =>
    intro h r base size disp sx s hr hb _ hl hp hc hn n a t
    refine ⟨fun hpast => ?_, fun hfits ha => ?_⟩
    · have hld := lds_traps (h := h) (sx := sx) hr hb hl hp hc hn (boundsTrap_past hpast) (show 0x10 ≤ 0x11 by decide)
      have hst := sts_traps (h := h) hr hb hl hp hc hn (boundsTrap_past hpast) (show 0x10 ≤ 0x11 by decide)
      exact ⟨hld, hst⟩
    · have hld := lds_traps (h := h) (sx := sx) hr hb hl hp hc hn (boundsTrap_unaligned hfits ha) le_rfl
      have hst := sts_traps (h := h) hr hb hl hp hc hn (boundsTrap_unaligned hfits ha) le_rfl
      exact ⟨hld, hst⟩

end Sys2Proof.Machine
end

