-- ==== Sys2Proof/Proofs/ScratchpadScalar.lean ====
section
/-!
Scalar and record accesses to scratchpad (O17). An access that lies in scratchpad has the footprint of its registers with its
touches (`access_same`); a load makes no sector DIRTY (`dirtied_loads`).
-/

-- As in MemoryCanonical.
set_option Elab.async false

namespace Sys2Proof.Machine

open Sys2Proof

variable {s s1 : State} {h : Hdr} {lat lat' r base align : ℕ} {plan : State → Plan} {p q : Plan} {rd wr : List RegOp}
  {ws : List Write} {ts : List Touch} {disp : BitVec 48}

/-! ### Accesses that lie in scratchpad -/

theorem accessTrap_none (hin : s.inScratch ts align) : s.accessTrap ts align = none := by
  obtain ⟨hlie, hbad⟩ := hin
  have hpast : ts.find? (fun t => decide (scratchBytes < t.addr + t.len)) = none :=
    List.find?_eq_none.mpr fun t ht => by simpa using (hlie t ht).1
  have haligned : ts.find? (fun t => t.addr % align != 0) = none :=
    List.find?_eq_none.mpr fun t ht => by simpa using (hlie t ht).2
  simp [State.accessTrap, boundsTrap, hpast, haligned, hbad]

/-- A plan that goes keeps going with such an access: the footprint is that of the registers and the touches. -/
theorem access_same (hsame : p.same q) (hgo : q.out = .go) (hin : s.inScratch ts align) :
    (p.access ts align s).same (q.touching ts) := by
  obtain ⟨hrd, hwr, hlr, hlw, hrows, htouch, hun, hout⟩ := hsame
  have hp : (p.access ts align s).out = .go := by
    simp [Plan.access, accessTrap_none hin, hout, hgo, regPlan.lowestOp]
  exact ⟨hrd, hwr, by rw [Plan.access, Plan.touching, hlr], by rw [Plan.access, Plan.touching, hlw], hrows,
    by rw [Plan.access, Plan.touching, htouch], hun, hp.trans hgo.symm⟩

theorem regPlan_same (hops : ∀ e ∈ wr ++ rd, e.2.1 < e.1.count) : (regPlan rd wr lat ws).same (foot rd wr) :=
  ⟨rfl, rfl, rfl, rfl, rfl, rfl, rfl, regPlan_go rd wr lat ws hops⟩

/-- Loads make no sector DIRTY. -/
theorem dirtied_loads (ht : ∀ t ∈ p.touches, t.write = false) : s.dirtied p = .ok s := by
  have hnone : s.bk.touchDirty p.touches = [] := by
    rw [Bank.touchDirty, List.filterMap_eq_nil_iff]
    intro e he
    have hwrite : e.2.2.2 = false := by
      rw [Bank.touched] at he
      split at he
      · cases he
      · obtain ⟨_, hl, he⟩ := List.mem_flatten.mp he
        obtain ⟨t, htm, rfl⟩ := List.mem_map.mp hl
        obtain ⟨_, hg, he⟩ := List.mem_flatten.mp he
        obtain ⟨g, -, rfl⟩ := List.mem_map.mp hg
        obtain ⟨k, -, rfl⟩ := List.mem_map.mp he
        exact ht t htm
    simp [hwrite]
  rw [State.dirtied, hnone]
  exact makeDirty_nil _ _ _

/-- An access that lies in scratchpad sends what its register plan sends. -/
theorem run_access (hl : s.bk.lOpen) (hops : ∀ e ∈ wr ++ rd, e.2.1 < e.1.count) (hin : s.inScratch ts align)
    (hc : s.clear h ((foot rd wr).touching ts)) (hd : s.dirtied ((foot rd wr).touching ts) = .ok s1)
    (hplan : plan s = s.lReady ((regPlan rd wr lat' ws).access ts align s)) :
    Sends (runSyllable h lat plan s) s1 h [(lat', ws)] := by
  rw [State.lReady_open hl] at hplan
  obtain ⟨u, hu, he⟩ := runSyllable_issues (lat := lat) (plan := plan) hc rfl
    (by rw [hplan]; exact access_same (regPlan_same hops) rfl hin) hd (by rw [hplan]; rfl)
  rw [hplan] at hu he
  exact ⟨u, hu, he⟩

/-! ### Records -/

theorem mtrap_none {l : List (Bool × Trap)} (hgo : p.out = .go) (hl : firstTrap l = none) : p.mtrap l = p := by
  rw [Plan.mtrap, hgo, hl]
  rfl

/-- TLD of a legal record. -/
theorem tld_begins (hr : r < 16) (hb : base < 16) (hl : s.bk.lOpen)
    (hok : trecOk (trecClean (ofLeBytes (s.scratch (s.effAddr base disp) 32))) = true)
    (hin : s.inScratch [{ addr := s.effAddr base disp, len := 32, write := false }] 32)
    (hc : s.clear h ((foot [(.a, base, 6)] [(.t, r, 0)]).touching [{ addr := s.effAddr base disp, len := 32, write := false }])) :
    Begins (exec (.tld h r base disp false) s) s h {
      kind := .tldScratch, earliest := 6, latest := some 6, reg := some ⟨.t, r⟩
      writes := some [.t r (BitVec.allOnes 256) (trecClean (ofLeBytes (s.scratch (s.effAddr base disp) 32)))] } := by
  have hops : ∀ e ∈ ([(.t, r, 0)] ++ [(.a, base, 6)] : List RegOp), e.2.1 < e.1.count := by simp [Fam.count, hr, hb]
  have hsame := access_same (regPlan_same (lat := 1) (ws := []) hops) rfl hin
  have ⟨_, _, _, _, _, _, _, hgo⟩ := hsame
  have ⟨_, _, _, hwait, _⟩ := hc
  have hplan : planTld r base disp false s = { (regPlan [(.a, base, 6)] [(.t, r, 0)] 1 []).access
      [{ addr := s.effAddr base disp, len := 32, write := false }] 32 s with
      results := []
      var := some {
        kind := .tldScratch, earliest := 6, latest := some 6, reg := some ⟨.t, r⟩
        writes := some [.t r (BitVec.allOnes 256) (trecClean (ofLeBytes (s.scratch (s.effAddr base disp) 32)))] } } := by
    refine (State.lReady_open hl).trans ((if_pos hwait).trans (mtrap_none ?_ ?_))
    · exact hgo
    · simp [firstTrap, hok]
  obtain ⟨u, hu, he⟩ := runSyllable_starts (lat := 0) (plan := planTld r base disp false) hc rfl (by rw [hplan]; exact hsame)
    (dirtied_loads (by simp [Plan.touching, foot])) (by rw [hplan]) (by rw [hplan])
  rw [hplan] at he
  exact ⟨u, hu, he⟩

/-- Settles O17: the loads and stores by `run_access`, TLD by `tld_begins`. -/
theorem scratchpadScalarResults : Obligations.ScratchpadScalarResults := by
  unfold Obligations.ScratchpadScalarResults
  refine ⟨fun h r base size disp sx s s1 hr hb _ hl => ?scalar, fun h r base disp s s1 hr hb hl => ?record⟩
  case scalar =>
    intro n a rd wr x
    have hload : ∀ e ∈ ([(.s, r, 0)] ++ [(.a, base, 6)] : List RegOp), e.2.1 < e.1.count := by simp [Fam.count, hr, hb]
    have hstore : ∀ e ∈ ([] ++ [(.s, r, 0), (.a, base, 6)] : List RegOp), e.2.1 < e.1.count := by simp [Fam.count, hr, hb]
    refine ⟨fun hin hc => run_access hl hload hin hc (dirtied_loads (by simp [Plan.touching, foot, rd])) rfl,
      fun hin hc hd => run_access hl hstore hin hc hd ?_⟩
    rw [planSts, storePlan, leBytes_length]
    rfl
  case record =>
    intro a rd wr t
    have hstore : ∀ e ∈ ([] ++ [(.t, r, 0), (.a, base, 6)] : List RegOp), e.2.1 < e.1.count := by simp [Fam.count, hr, hb]
    refine ⟨fun hok hin hc => tld_begins hr hb hl hok hin hc, fun hin hc hd => run_access hl hstore hin hc hd ?_⟩
    rw [planTst, storePlan, leBytes_length]
    rfl

end Sys2Proof.Machine
end

