-- ==== Sys2Proof/Proofs/Frames.lean ====
section
/-!
What the issue of a syllable (O48), the end of a bundle (O59) and a write to S0 (O50) leave unchanged, and what reset leaves (O54,
O55).
-/

-- As in MemoryCanonical.
set_option Elab.async false

namespace Sys2Proof.Machine

open Sys2Proof

variable {s : State} {h : Hdr} {c b k n stall : ℕ} {q : Pipe} {p : Pending} {y : Bank} {r : RegRef}

/-! ### Issue (O48) -/

theorem State.withPipe_bk : (s.withPipe h q).bk =
    { s.bk with regs := if h.sbset = 0 then s.rg else s.rg.wsb h.sbset true, pipe := q } := State.modBk_bk _ _

theorem State.withPipe_core : (s.withPipe h q).core s.cf = (s.core s.cf).setBank s.bf
    { s.bk with regs := if h.sbset = 0 then s.rg else s.rg.wsb h.sbset true, pipe := q } := State.core_modBank _ _ _ _

/-- Settles O48: what issues is `withPipe`, which replaces the registers' scoreboard and the pipe of the issuing bank alone. -/
theorem issueLeavesTheRest : Obligations.IssueLeavesTheRest := by
  unfold Obligations.IssueLeavesTheRest
  rintro h l s _ hbf ⟨q, rfl, -⟩ x y
  have hy : y = x.setBank s.bf _ := State.withPipe_core
  have hother : (1 - s.bf = 0) ≠ (s.bf = 0) := by
    rw [ne_eq, eq_iff_iff]
    omega
  rw [State.rg, State.withPipe_bk, hy]
  exact ⟨rfl, rfl, rfl, rfl, rfl, rfl, rfl, Core.bank_setBank_ne _ _ _ _ hother, Core.setBank_acc _ _ _,
    Core.setBank_slabs _ _ _, Core.setBank_slabUse _ _ _, Core.setBank_plane0 _ _ _, Core.setBank_plane1 _ _ _,
    Core.setBank_cregs _ _ _, fun c hc => State.modBk_core_ne _ _ _ hc, rfl, rfl, rfl, rfl, rfl⟩

/-! ### The end of a bundle (O59) -/

theorem State.bankAt_modCore {f : Core → Core} (hf : ∀ x, (f x).bank b = x.bank b) :
    (s.modCore c f).bankAt c b = s.bankAt c b := by
  rw [State.bankAt, State.core_modCore, hf, State.bankAt]

theorem State.passCycles_bank : (s.passCycles c b k).bankAt c b = { s.bankAt c b with
    pipe := { (s.bankAt c b).pipe with clk := (s.bankAt c b).pipe.clk + k, tick := (s.core c).cycle + k } } := by
  rw [State.passCycles, State.bankAt, State.core_modCore, Core.bank_setBank]
  rfl

theorem State.passCycles_cycle : ((s.passCycles c b k).core c).cycle = (s.core c).cycle + k := by
  rw [State.passCycles, State.core_modCore, Core.setBank_cycle]

/-- The bank of a bundle that ends without ERET: its bundle closes, control goes to its successor, a cycle passes. -/
def Bank.ended (y : Bank) (n stall cycle : ℕ) : Bank :=
  { y.closeBundle with
    pc := (y.successor n).1
    seg := if (y.successor n).2 then none else y.seg.map fun g => { g with idx := g.idx + 1 }
    task := { y.task with
      issued := true, waited := 0, ending := y.task.ending || y.pipe.ctx.ctl == some .finish
      slice := if (y.successor n).2 then 0 else y.task.slice }
    state := .running
    pipe := { y.closeBundle.pipe with
      clk := y.pipe.clk + 1, tick := cycle + 1, nextIssue := y.pipe.clk + 1 + stall
      commit := if (y.successor n).2 then some (y.pipe.segNo, y.pipe.ctx.releases) else y.pipe.commit
      late := y.pipe.late ++ y.pipe.ctx.trapAfter.toList } }

section
variable (hctl : (s.bankAt c b).pipe.ctx.ctl ≠ some .eret)
include hctl

theorem State.endBundle_bank : (s.endBundle c b n stall).bankAt c b = (s.bankAt c b).ended n stall (s.core c).cycle := by
  rw [State.endBundle, if_neg hctl, State.bankAt_modCore (by exact fun _ => rfl), State.scheduleCycle, State.passCycles_bank,
    State.bankAt_modBank, State.core_modBank, Core.setBank_cycle]
  rfl

theorem State.endBundle_cycle : ((s.endBundle c b n stall).core c).cycle = (s.core c).cycle + 1 := by
  rw [State.endBundle, if_neg hctl, State.core_modCore]
  change ((State.scheduleCycle _ c b).core c).cycle = _
  rw [State.scheduleCycle, State.passCycles_cycle, State.core_modBank, Core.setBank_cycle]

theorem State.endBundle_mem : (s.endBundle c b n stall).mem = s.mem := by
  rw [State.endBundle, if_neg hctl]
  rfl

end

/-- Settles O59: `endBundle_bank` gives the bank, whose successor each way to end a bundle decides. -/
theorem endOfBundle : Obligations.EndOfBundle := by
  unfold Obligations.EndOfBundle
  intro c b n stall g s y t z hseg hctl
  have hz : z = y.ended n stall (s.core c).cycle := State.endBundle_bank hctl
  rw [hz]
  refine ⟨rfl, State.endBundle_mem hctl, rfl, rfl, State.endBundle_cycle hctl, rfl, rfl, rfl, fun hnone hidx => ?inside,
    fun hnone hidx => ?last, fun a hjump => ?jump, fun hfin => ?finish⟩
  case inside =>
    have hsucc : y.successor n = (y.after n, false) := by simp [Bank.successor, hseg, hnone, hidx]
    simp [Bank.ended, hsucc, hseg, Bank.after]
  case last =>
    have hsucc : y.successor n = (g.next, true) := by simp [Bank.successor, hseg, hnone, hidx]
    simp [Bank.ended, hsucc, Seg.next]
  case jump =>
    have hsucc : y.successor n = (a, true) := by simp [Bank.successor, hseg, hjump]
    simp [Bank.ended, hsucc]
  case finish =>
    have hsucc : y.successor n = (y.after n, true) := by simp [Bank.successor, hseg, hfin]
    simp [Bank.ended, hsucc, hfin]

/-! ### S0 (O50) -/

theorem applyWrite_s0 {v : Word} : ((s.applyWrite c b (.s 0 v)).bankAt c b).regs = (s.bankAt c b).regs := by
  change ((s.modBank c b fun y => { y with regs := y.regs.ws 0 v }).bankAt c b).regs = _
  rw [State.bankAt_modBank, Regs.ws_zero]

theorem Bank.keepEarly_regs {acc : Tab VReg} : (y.keepEarly p acc).regs = y.regs := by
  unfold Bank.keepEarly
  split <;> rfl

theorem Bank.dropPend_regs : (y.dropPend p).regs = y.regs := by
  unfold Bank.dropPend
  simp only
  split <;> rfl

theorem Bank.surviving_subset : y.surviving p ⊆ p.writes := by
  unfold Bank.surviving
  split
  · exact List.nil_subset _
  · exact List.filter_sublist.subset

/-- A result whose writes are all to S0 leaves the registers. -/
theorem land_s0_regs {v : Word} (hw : p.writes = [.s 0 v]) : ((s.land c b p).bankAt c b).regs = (s.bankAt c b).regs := by
  have hfold (l : List Write) (hl : ∀ w ∈ l, w = .s 0 v) (u : State) :
      ((u.applyWrites c b l).bankAt c b).regs = (u.bankAt c b).regs := by
    induction l generalizing u with
    | nil => rfl
    | cons w l ih =>
      obtain rfl := hl w (by simp)
      exact (ih (fun w hw => hl w (by simp [hw])) _).trans applyWrite_s0
  rw [State.land, hfold, State.bankAt_modBank, Bank.dropPend_regs, Bank.keepEarly_regs]
  intro w hmem
  simpa [hw] using Bank.surviving_subset hmem

/-- No write in flight names the register: it is not stale. -/
theorem Bank.stale_noPend (hv : ∀ q ∈ y.pipe.pend, ∀ w ∈ q.writes, w.ref ≠ some r) :
    y.stale r = ({ y with pipe := { y.pipe with pend := [] } } : Bank).stale r := by
  have hnone : (y.pipe.pend.filter fun p => decide (p.bundle < y.pipe.bundle) && p.writes.any fun w => w.ref == some r) = [] := by
    rw [List.filter_eq_nil_iff]
    intro q hq
    have hany : (q.writes.any fun w => w.ref == some r) = false := by simpa using hv q hq
    simp [hany]
  simp only [Bank.stale, hnone, List.filter_nil]

theorem refsOf_s0 : refsOf [(.s, 0, n)] = [] := rfl

/-- Settles O50: S0 has no entry in the registers, and no reference that a check or a collision could meet. -/
theorem zeroRegister : Obligations.ZeroRegister := by
  unfold Obligations.ZeroRegister
  intro c b n k v p s hw
  refine ⟨Regs.rs_zero _, land_s0_regs hw, rfl, refsOf_s0, Bank.stale_noPend ?_, by rw [refsOf_s0]; rfl⟩
  simp [hw, Write.ref]

/-! ### Reset (O54, O55) -/

/-- Settles O54: no core is listed at reset, so that each is the default core. -/
theorem resetValues : Obligations.ResetValues := by
  unfold Obligations.ResetValues
  refine ⟨fun c b => ?_, rfl, rfl⟩
  have hcore : State.reset.core c = {} := rfl
  have hbank : State.reset.bankAt c b = {} := by
    rw [State.bankAt, hcore, Core.bank]
    split <;> rfl
  rw [hcore, hbank]
  decide

/-- Settles O55: memory lists no byte at reset. -/
theorem resetMemoryIsCanonical : Obligations.ResetMemoryIsCanonical := by
  unfold Obligations.ResetMemoryIsCanonical
  decide

end Sys2Proof.Machine
end

