-- ==== Sys2Proof/Proofs/Completion.lean ====
section
/-!
Results that land (O49) and variable-latency operations that complete (O35). A write to a register or of the user tables is
`Bank.put` to its bank (`bankAt_applyWrites`); so `completeVar_bank` gives the bank that a completion leaves.
-/

-- As in MemoryCanonical.
set_option Elab.async false

namespace Sys2Proof.Machine

open Sys2Proof

variable {s : State} {c b id : ℕ} {w : Write} {ws : List Write} {y : Bank} {v : VarOp} {q : Pipe}

/-! ### Results that land (O49) -/

/-- A result for S1, of a bank numbered 2. -/
def landsInBank2 : Pending := { due := 0, slot := 0, seq := 0, bundle := 0, segNo := 0, writes := [.s 1 1] }

/-- Refutes O49: the statement leaves the bank number free, and bank 2 is kept where bank 1 is, so that a result of bank 2 writes
the register of bank 1, a bank that `Landed` says is unchanged. -/
theorem not_resultsLand : ¬ Obligations.ResultsLand := by
  unfold Obligations.ResultsLand
  intro hall
  obtain ⟨hs, -⟩ := hall 0 2 1 landsInBank2 State.reset rfl
  obtain ⟨⟨-, -, -, -, -, -, hother, -⟩, -⟩ := hs 1 rfl
  have hone : (1 : Word) = 0 := congrArg (fun y : Bank => y.regs.rs 1) (hother 1 (by decide) (by decide))
  exact absurd hone (by decide)

/-! ### Writes to a bank -/

/-- The write is to a register of the bank, or exchanges its user tables. -/
def Write.inBank : Write → Bool
  | .s .. | .a .. | .p .. | .v .. | .q .. | .t .. | .sbClear _ | .activate => true
  | _ => false

/-- The bank after such a write. -/
def Bank.put (y : Bank) : Write → Bank
  | .activate => { y with user := { y.user with gen := !y.user.gen } }
  | w => { y with regs := y.regs.apply w }

theorem Bank.put_withPipe : ({ y with pipe := q } : Bank).put w = { y.put w with pipe := q } := by cases w <;> rfl

theorem Bank.foldl_put_withPipe : ws.foldl Bank.put { y with pipe := q } = { ws.foldl Bank.put y with pipe := q } := by
  induction ws generalizing y with
  | nil => rfl
  | cons w ws ih => rw [List.foldl_cons, Bank.put_withPipe, ih, List.foldl_cons]

theorem State.cleanUnder_bankAt {a : ℕ} {m : VReg} : (s.cleanUnder a m).bankAt c b = s.bankAt c b := by
  unfold State.cleanUnder
  split <;> rfl

theorem bankAt_applyWrite (hw : w.inBank = true) : (s.applyWrite c b w).bankAt c b = (s.bankAt c b).put w := by
  cases w with
  | s | a | p | q | t | sbClear | activate => exact State.bankAt_modBank _ _ _ _
  | v i m x => exact State.cleanUnder_bankAt.trans (State.bankAt_modBank _ _ _ _)
  | _ => cases hw

theorem bankAt_applyWrites (hws : ∀ w ∈ ws, w.inBank = true) :
    (s.applyWrites c b ws).bankAt c b = ws.foldl Bank.put (s.bankAt c b) := by
  induction ws generalizing s with
  | nil => rfl
  | cons w ws ih =>
    rw [State.applyWrites, List.foldl_cons, List.foldl_cons, ← bankAt_applyWrite (hws w (by simp))]
    exact ih fun w hw => hws w (by simp [hw])

/-! ### Completion (O35) -/

/-- The writes of an operation that completes: its results, then the clearing of its entry when it has one. -/
def VarOp.puts (v : VarOp) (ws : List Write) : List Write := ws ++ if v.sb = 0 then [] else [.sbClear v.sb]

theorem VarOp.puts_inBank (hws : ∀ w ∈ ws, w.inBank = true) : ∀ w ∈ v.puts ws, w.inBank = true := by
  intro w hw
  rcases List.mem_append.mp hw with hw | hw
  · exact hws w hw
  · split at hw
    · cases hw
    · obtain rfl := List.mem_singleton.mp hw
      rfl

/-- With no write of its cycle landed, every write of an operation stands. -/
theorem Bank.varWrites_all {now : ℕ} (h : y.pipe.landed = []) : y.varWrites now v ws = ws := by
  have hnone : y.pipe.landedIn now = [] := by
    unfold Pipe.landedIn
    split
    · exact h
    · rfl
  simp only [Bank.varWrites, hnone, List.any_nil, List.find?_nil, Bool.false_eq_true, if_false]
  conv_rhs => rw [← List.filterMap_some (l := ws)]
  refine List.filterMap_congr fun w _ => ?_
  split <;> rfl

/-- The bank once an operation has completed, when no result is in flight and none has landed. -/
theorem completeVar_bank (hpend : (s.bankAt c b).pipe.pend = []) (hlanded : (s.bankAt c b).pipe.landed = [])
    (hdropped : v.dropped = false) (hwrites : v.writes = some ws) (hws : ∀ w ∈ ws, w.inBank = true) :
    ∃ q : Pipe, (s.completeVar c b v).bankAt c b = { (v.puts ws).foldl Bank.put (s.bankAt c b) with pipe := q } ∧
      q.vars = (s.bankAt c b).pipe.vars.filter (fun o => o.id != v.id) ∧
      q.late = (s.bankAt c b).pipe.late ++ (v.late.map fun e => { cause := e.1, info := e.2, slot := v.slot }).toList := by
  let y := s.bankAt c b
  obtain ⟨q, hq⟩ : ∃ q : Pipe, (y.dropVar v.id).noteLanded (s.core c).cycle v.slot v.seq ws = { y with pipe := q } ∧
      q.vars = y.pipe.vars.filter (fun o => o.id != v.id) ∧ q.late = y.pipe.late := ⟨_, rfl, rfl, rfl⟩
  obtain ⟨hnote, hvars, hlate⟩ := hq
  have hown : y.varWrites (s.core c).cycle v ws = ws := Bank.varWrites_all hlanded
  have hputs : (ws ++ if v.sb = 0 then [] else [.sbClear v.sb]) = v.puts ws := rfl
  rw [State.completeVar, hpend, List.length_nil, State.landAll, if_neg (by simp [hdropped]), hwrites, Option.getD_some, hown,
    State.bankAt_modBank, hputs, bankAt_applyWrites (VarOp.puts_inBank hws), State.bankAt_modBank, State.bankAt_modBank, hnote,
    Bank.foldl_put_withPipe]
  refine ⟨_, rfl, hvars, ?_⟩
  cases hv : v.late with
  | none => simp [hlate, y]
  | some e => simp [hlate, y]

theorem Bank.foldl_puts : (v.puts ws).foldl Bank.put y =
    if v.sb = 0 then ws.foldl Bank.put y else (ws.foldl Bank.put y).put (.sbClear v.sb) := by
  unfold VarOp.puts
  split
  · rw [List.append_nil]
  · rw [List.foldl_append, List.foldl_cons, List.foldl_nil]

/-- What a completion leaves in its bank beside the entries of the scoreboard. -/
theorem completeVar_frame (hpend : (s.bankAt c b).pipe.pend = []) (hlanded : (s.bankAt c b).pipe.landed = [])
    (hdropped : v.dropped = false) (hid : v.id = id) (hwrites : v.writes = some ws) (hws : ∀ w ∈ ws, w.inBank = true) :
    let y := (s.completeVar c b v).bankAt c b
    let z := ws.foldl Bank.put (s.bankAt c b)
    y.varOp id = none ∧ (v.sb ≠ 0 → y.regs.rsb v.sb = false) ∧ (∀ i, y.regs.rs i = z.regs.rs i) ∧
      (∀ i, y.regs.rv i = z.regs.rv i) ∧ (∀ i, y.regs.rt i = z.regs.rt i) ∧ y.user = z.user ∧
      y.pipe.late = (s.bankAt c b).pipe.late ++ (v.late.map fun e => { cause := e.1, info := e.2, slot := v.slot }).toList := by
  intro y z
  obtain ⟨q, hy, hvars, hlate⟩ := completeVar_bank hpend hlanded hdropped hwrites hws
  have hgone : y.varOp id = none := by
    change y = _ at hy
    rw [Bank.varOp, hy, hvars, List.find?_eq_none]
    intro o ho
    simpa [hid] using List.of_mem_filter ho
  change y = _ at hy
  rw [Bank.foldl_puts] at hy
  refine ⟨hgone, fun hsb => ?_, ?_⟩
  · rw [hy, if_neg hsb]
    exact (Regs.rsb_wsb _ _ _ _).trans (if_pos rfl)
  · rw [hy]
    split <;> exact ⟨fun _ => rfl, fun _ => rfl, fun _ => rfl, rfl, hlate⟩

section
variable (hb : b < 2) (hv : (s.bankAt c b).varOp id = some v) (hfirst : b = 1 → (s.bankAt c 0).varOp id = none)
include hb hv hfirst

theorem Core.varOp_bank : (s.core c).varOp id = some v := by
  rw [Core.varOp]
  obtain rfl | rfl : b = 0 ∨ b = 1 := by omega
  · rw [show (s.core c).bank0.varOp id = some v from hv]
  · rw [show (s.core c).bank0.varOp id = none from hfirst rfl, show (s.core c).bank1.varOp id = some v from hv]

theorem State.varDone_bank : s.varDone c id (fun o => o) = s.completeVar c b v := by
  rw [State.varDone]
  obtain rfl | rfl : b = 0 ∨ b = 1 := by omega
  · simp [hv]
  · simp [hv, hfirst rfl]

theorem State.completeDue_bank {f : VarKind → Bool} (hf : f v.kind = true) (hwrites : v.writes.isSome = true)
    (hdue : v.earliest ≤ (s.core c).cycle) : s.completeDue c id f = s.completeVar c b v := by
  rw [State.completeDue, Core.varOp_bank hb hv hfirst]
  exact (if_pos ⟨hf, hwrites, hdue⟩).trans (State.varDone_bank hb hv hfirst)

end

theorem Bank.varOp_id (hv : y.varOp id = some v) : v.id = id := by simpa using List.find?_some hv

/-- Settles O35: `completeDue_bank` for the events, `completeVar_frame` for what each kind of result leaves. -/
theorem completionEvents : Obligations.CompletionEvents := by
  unfold Obligations.CompletionEvents
  intro c b id d v s hb hv hfirst hwrites hdue x t y
  have hid : v.id = id := Bank.varOp_id hv
  have hevent {f : VarKind → Bool} (hf : f v.kind = true) :
      (.next (s.completeDue c id f) : Host.Outcome State Fault Refusal) = .next t :=
    congrArg _ (State.completeDue_bank hb hv hfirst hf hwrites hdue)
  refine ⟨fun hk => hevent (by simp [hk]), fun hk => hevent (by simp [hk]), fun hk => hevent (by simp [hk]),
    fun hk => hevent (by simp [hk]), fun hk => hevent (by simp [hk]), fun hfind hready => ?activate,
    fun hpend hlanded hdropped => ?results⟩
  case activate =>
    have hkind : (v.kind == .xlutld) = true := List.find?_some (p := fun w : VarOp => w.kind == .xlutld) hfind
    change execXlutTableActivate c b s = _
    simp only [execXlutTableActivate]
    rw [show (s.bankAt c b).pipe.vars.find? (fun w => w.kind == .xlutld) = some v from hfind]
    refine (if_pos hready).trans ?_
    rw [hid]
    exact hevent hkind
  case results =>
    have hframe {ws : List Write} (hw : v.writes = some ws) (hws : ∀ w ∈ ws, w.inBank = true) :=
      completeVar_frame hpend hlanded hdropped hid hw hws
    refine ⟨fun n hw => ?_, fun m n hw => ?_, fun m n hw => ?_, fun hw => ?_, fun e hw hlate => ?_⟩
    · obtain ⟨hgone, hclear, hs, -⟩ := hframe hw (by simp [Write.inBank])
      exact ⟨hgone, hclear, fun i => (hs i).trans (Regs.rs_ws _ _ _ _)⟩
    · obtain ⟨hgone, hclear, -, hvec, -⟩ := hframe hw (by simp [Write.inBank])
      exact ⟨hgone, hclear, fun i => (hvec i).trans (Regs.rv_wv _ _ _ _)⟩
    · obtain ⟨hgone, hclear, -, -, htrec, -⟩ := hframe hw (by simp [Write.inBank])
      exact ⟨hgone, hclear, fun i => (htrec i).trans (Regs.rt_wt _ _ _ _)⟩
    · obtain ⟨hgone, hclear, -, -, -, huser, -⟩ := hframe hw (by simp [Write.inBank])
      exact ⟨hgone, hclear, congrArg (·.gen) huser⟩
    · obtain ⟨hgone, -, -, -, -, -, hl⟩ := hframe hw (by simp)
      exact ⟨hgone, by rw [hl, hlate]; rfl⟩

end Sys2Proof.Machine
end

