-- ==== Sys2Proof/Proofs/BankEvents.lean ====
section
/-!
What happens to a bank between its bundles (O36): one lemma for each event that is due.
-/

-- As in MemoryCanonical.
set_option Elab.async false

namespace Sys2Proof.Machine

open Sys2Proof

variable {s u : State} {c b unit addr n k : ℕ} {p : Pending} {t : Trap} {o : Offer} {d : Direct} {rs left : List Release}

/-! ### Results -/

theorem landDue_due {latch : Bool} (hdue : (s.bankAt c b).dueResult = some p) (hlatch : p.latch = latch) :
    s.landDue c b latch = s.land c b p := by
  rw [State.landDue, hdue]
  exact if_pos hlatch

/-! ### Commit -/

/-- The segment of a bank is permanent; `k` is what its commit still waits to release. -/
def State.permanent (s : State) (c b : ℕ) (k : Option (ℕ × List Release)) : State :=
  s.modBank c b fun z => let y := z.freeBacks; { y with
    task := { y.task with wdog := 0, barked := false }
    pipe := { y.pipe with commit := k, entry := none, journal := [], early := [], unrewindable := false, rewinds := 0 } }

section
variable (hcommit : (s.bankAt c b).pipe.commit = some (n, rs))
  (hmatch : ((s.bankAt c b).pipe.mismatch.any fun e => e.2.2.isNone) = false)
include hcommit hmatch

/-- All its releases have left. -/
theorem commitSegment_done (hrel : s.releaseAll c b rs = (u, [])) :
    exec (.segmentCommit c b) s = .next (u.permanent c b none) := by
  change Host.Outcome.next (s.commitSegment c b) = _
  simp only [State.commitSegment, hcommit, hmatch, hrel]
  rfl

/-- A release waits for room where it goes. -/
theorem commitSegment_waits (hrel : s.releaseAll c b rs = (u, left)) (hleft : left.any Release.external = true) :
    exec (.segmentCommit c b) s = .next (u.permanent c b (some (n, left))) := by
  change Host.Outcome.next (s.commitSegment c b) = _
  simp only [State.commitSegment, hcommit, hmatch, hrel, hleft]
  rfl

end

theorem releaseAll_one {r : Release} (h : s.releaseOut c b r = (u, left)) : s.releaseAll c b [r] = (u, left) := by
  simp [State.releaseAll, h]

theorem releaseOut_direct (hroom : (s.core c).direct.length < 64) : s.releaseOut c b (.direct d) =
    (s.modCore c fun x => { x with direct := x.direct ++ [d] }, []) := if_neg (by omega)

theorem releaseOut_direct_full (hfull : 64 ≤ (s.core c).direct.length) : s.releaseOut c b (.direct d) = (s, [.direct d]) :=
  if_pos hfull

theorem releaseOut_push_taken (hoffer : (s.setFull c b o o.waited).offer c b o = some u) :
    s.releaseOut c b (.push o) = (u, []) := by
  rw [State.releaseOut, State.releasePush, hoffer]

theorem releaseOut_push_refused (hoffer : (s.setFull c b o o.waited).offer c b o = none) (hq : o.q = false) :
    s.releaseOut c b (.push o) =
      ((s.setFull c b o true).varDone c o.varId fun v => { v with writes := some [], late := none }, []) := by
  simp [State.releaseOut, State.releasePush, hoffer, hq]

theorem releaseOut_push_waits (hoffer : (s.setFull c b o o.waited).offer c b o = none) (hq : o.q = true) :
    s.releaseOut c b (.push o) = (s, [.push { o with waited := true }]) := by
  simp [State.releaseOut, State.releasePush, hoffer, hq]

/-! ### Offers -/

theorem ite_some_eq_none {α : Type} {P : Prop} [Decidable P] {x : α} : (if P then none else some x) = none ↔ P := by
  split <;> simp [*]

theorem Core.engine_setEngine {x : Core} {e : ℕ} {g : Engine} : (x.setEngine e g).engine e = g := by
  unfold Core.engine Core.setEngine
  split <;> rfl

theorem acceptCard_cmds {e varId tok bundle : ℕ} {seed : Word} {cmd : List Byte} :
    (((s.acceptCard c b e varId tok bundle seed cmd).core c).engine e).cards.map (·.cmd) =
      ((s.core c).engine e).cards.map (·.cmd) ++ [cmd] := by
  have hengine (f : Engine → Engine) (l : ℕ) (g : Launch → Launch) :
      (((s.modEngine c e f).modLaunch l g).core c).engine e = f ((s.core c).engine e) := by
    change ((s.modEngine c e f).core c).engine e = _
    rw [State.modEngine, State.core_modCore, Core.engine_setEngine]
  rw [State.acceptCard, hengine, List.map_append]
  rfl

theorem offer_cpe0 (he : o.eng = 0) : (s.offer c b o = none ↔ 32 ≤ (s.core c).cpe0.cards.length) ∧
    ∀ u, s.offer c b o = some u → (u.core c).cpe0.cards.map (·.cmd) = (s.core c).cpe0.cards.map (·.cmd) ++ [o.cmd] := by
  simp only [State.offer, he]
  refine ⟨ite_some_eq_none.trans decide_eq_true_iff, fun u hu => ?_⟩
  split at hu
  · cases hu
  · obtain rfl := Option.some.inj hu
    exact acceptCard_cmds (e := 0)

theorem offer_cpe1 (he : o.eng = 1) : (s.offer c b o = none ↔ 32 ≤ (s.core c).cpe1.cards.length) ∧
    ∀ u, s.offer c b o = some u → (u.core c).cpe1.cards.map (·.cmd) = (s.core c).cpe1.cards.map (·.cmd) ++ [o.cmd] := by
  simp only [State.offer, he]
  refine ⟨ite_some_eq_none.trans decide_eq_true_iff, fun u hu => ?_⟩
  split at hu
  · cases hu
  · obtain rfl := Option.some.inj hu
    exact acceptCard_cmds (e := 1)

theorem offer_cle (he : o.eng = 2) : s.offer c b o = none ↔ 32 ≤ (s.cle (c / 64)).startQ.length := by
  simp only [State.offer, he]
  exact ite_some_eq_none.trans decide_eq_true_iff

theorem offer_spawn (he : o.eng = 3) : s.offer c b o = none ↔ 64 ≤ (Tab.get [] s.spawns (c / 64)).length := by
  simp only [State.offer, he]
  exact ite_some_eq_none.trans decide_eq_true_iff

/-! ### Fetch -/

theorem whole_loadSegment {x : Core} {launch : ℕ} : ((x.loadSegment launch addr k).whole launch addr).isSome = true := by
  unfold Core.loadSegment
  split <;> simp [Core.whole, halfWhole]

/-- A fetch of a segment that is not in the loop buffer leaves it there whole. -/
theorem fetchSegment_whole (hwhole : (s.core c).whole (s.bankAt c b).task.launch addr = none)
    (hfetch : s.fetchSegment c b addr = .ok u) : ((u.core c).whole (s.bankAt c b).task.launch addr).isSome = true := by
  simp only [State.fetchSegment, hwhole] at hfetch
  split at hfetch
  · contradiction
  · split at hfetch
    · cases hfetch
    · split at hfetch
      · cases hfetch
      · obtain rfl := Except.ok.inj hfetch
        rw [State.core_modCore]
        exact whole_loadSegment

theorem segmentFetch_ok (hstate : (s.bankAt c b).state ≠ .empty) (hfetch : s.fetchSegment c b addr = .ok u) :
    exec (.segmentFetch c b addr) s = .next u := by
  change execSegmentFetch c b addr s = _
  rw [execSegmentFetch, if_neg hstate, State.fetchAhead, hfetch]

/-! ### Traps and switches -/

theorem trapEntry_due (hdue : (s.bankAt c b).trapDue = some t) (hswitch : t.switches = false) :
    exec (.trapEntry c b) s = .next (s.takeLate c b t) := by
  change execTrapEntry c b s = _
  simp [execTrapEntry, hdue, hswitch]

theorem bankSwitch_fault (hdue : (s.bankAt c b).trapDue = some t) (hswitch : t.switches = true) :
    exec (.bankSwitch c b) s = .next (s.takeLate c b t) := by
  change execBankSwitch c b s = _
  simp [execBankSwitch, hdue, hswitch]

theorem bankSwitch_turn (hdue : (s.bankAt c b).trapDue = none) (hcur : (s.core c).cur = b) (hb : b < 2)
    (hself : ((s.core c).bank b).alive = false) (hother : ((s.core c).bank (1 - b)).alive = true) :
    exec (.bankSwitch c b) s = .next (s.switchTo c (1 - b)) := by
  change execBankSwitch c b s = _
  simp [execBankSwitch, hdue, hcur, hb, hself, hother]

theorem timeSliceEnd_turn (hcur : (s.core c).cur = b) (hb : b < 2) (halive : ((s.core c).bank b).alive = true)
    (hslice : 2048 ≤ ((s.core c).bank b).task.slice) (hready : ((s.core c).bank (1 - b)).state = .ready)
    (hlevel : ((s.core c).bank (1 - b)).level = ((s.core c).bank b).level) (hat : ((s.core c).bank b).atBoundary = true) :
    exec (.timeSliceEnd c) s = .next (s.switchTo c (1 - b)) := by
  change execTimeSliceEnd c s = _
  subst hcur
  exact if_pos ⟨hb, halive, hslice, hready, hlevel, hat⟩

/-! ### Rewind and replay -/

theorem segmentRewind_made {s1 : State} (hs1 : s1 = (s.modCore c fun x => x.disarmed unit).logCheck c b unit false)
    (hunit : unit ≤ 4) (hone : (s.core c).injectsTwo unit = false) (hstate : (s.bankAt c b).state ≠ .empty)
    (hentry : (s.bankAt c b).pipe.entry ≠ none) (hcount : (s1.bankAt c b).pipe.rewoundHere < 2)
    (hrewind : s1.rewind c b = some u) : exec (.segmentRewind c b unit) s =
      .next ((u.holdCycles c (4 + 8 * (s1.bankAt c b).pipe.journal.length)).modCore c
        fun z => { z with spec := [], specPc := none }) := by
  subst hs1
  have hgo : ¬ ((s.bankAt c b).state = .empty ∨ (s.bankAt c b).pipe.entry = none ∨ 4 < unit) := by
    simp [hstate, hentry, hunit]
  change execSegmentRewind c b unit s = _
  rw [execSegmentRewind, if_neg hgo, State.rewindFor, if_neg (by simp [hone, hcount]), hrewind]
  rfl

theorem localReplay_first {s1 : State} {q : Pending} (hs1 : s1 = (s.modCore c fun x => x.disarmed unit).logCheck c b unit false)
    (hunit : unit ≤ 4) (hone : (s.core c).injectsTwo unit = false) (hold : (s.bankAt c b).oldResult = some q)
    (hnew : ((s.modCore c fun x => x.disarmed unit).bankAt c b).pipe.replayed.1 ≠ q.seq) :
    exec (.localReplay c b unit) s =
      .next ((s1.modBank c b fun z => z.modPipe fun r => { r with replayed := (q.seq, 1) }).holdCycles c 1) := by
  subst hs1
  change execLocalReplay c b unit s = _
  simp [execLocalReplay, hold, Nat.not_lt.mpr hunit, State.replayFor, hone, hnew]

/-! ### Timeouts -/

theorem watchdog_barks (hstate : (s.bankAt c b).state ≠ .empty) (hmonitor : (s.bankAt c b).monitor = false)
    (hn : bitsN (s.core c).cregs.wdog.toNat 0 32 ≠ 0)
    (hlimit : 1024 * bitsN (s.core c).cregs.wdog.toNat 0 32 ≤ (s.bankAt c b).task.wdog)
    (hbarked : (s.bankAt c b).task.barked = false) : exec (.watchdog c b) s = .next (s.modBank c b fun z => { z with
      task := { z.task with barked := true }
      pipe := { z.pipe with late := z.pipe.late ++
        [{ cause := 0x41, info := BitVec.ofNat 64 ((s.bankAt c b).task.wdog / 1024) }] } }) := by
  change Host.Outcome.next ((s.bark c b).getD s) = _
  simp [State.bark, hstate, hmonitor, hn, hbarked, Nat.not_lt.mpr hlimit]

theorem rendezvousTimeout_due (hat : (s.bankAt c b).task.rdvAt = some n) (hstate : (s.bankAt c b).state = .blocked .rendezvous)
    (hheld : 2 ^ 24 < (s.bankAt c b).pipe.held) : exec (.rendezvousTimeout c b) s =
      .next ((s.modBank c b fun z => { z with task := { z.task with rdvAt := none } }).takeTrapAt c b
        { cause := 0x32, info := BitVec.ofNat 64 n }) := by
  refine congrArg (Host.Outcome.next (σ := State)) (show (s.rdvTimeout c b).getD s = _ from ?_)
  rw [State.rdvTimeout, hat]
  exact congrArg (Option.getD · s) (if_pos ⟨Or.inl hstate, hheld⟩)

theorem chainTimeout_due (hat : (s.bankAt c b).task.chainAt.isSome = true) (hstate : (s.bankAt c b).state = .blocked .chain)
    (hheld : 2 ^ 24 < (s.bankAt c b).pipe.held) : exec (.chainTimeout c b) s =
      .next ((s.modBank c b fun z => { z with task := { z.task with chainAt := none } }).takeTrapAt c b
        { cause := 0x32, slot := 7, info := 8 }) := by
  change Host.Outcome.next ((s.chainTimeout c b).getD s) = _
  rw [State.chainTimeout, if_pos ⟨hat, Or.inl hstate, hheld⟩]
  rfl

/-! ### The address stream -/

/-- The stream of a bank whose segment is `g` goes on at `pc` in `s1`, where its copy stands: it executes the bundle `l`, or none
once it is 32 bundles ahead or past the end of the segment. -/
def StreamGoes (s s1 : State) (c b : ℕ) (g : Seg) (l : List Instr) (pc : ℕ) : Prop :=
  let past := s1.bundlesTo c b pc 33 (s.bankAt c b).pc
  (past.length < 32 → g.idx + past.length ≤ g.hdr.len → s1.bundleAt c b 8 pc = some l →
    s1.streamReady c b (past.map (outsideDests s1)).flatten l = true →
    exec (.addressStreamRun c b) s =
      .next ((s1.streamBundle c b l).modCore c fun x => { x with specPc := some (pc + l.length) })) ∧
  (32 ≤ past.length ∨ g.hdr.len < g.idx + past.length → exec (.addressStreamRun c b) s = .next s1)

section
variable {g : Seg} {pc : ℕ} {s1 : State} {l : List Instr} (hseg : (s.bankAt c b).seg = some g) (hcur : (s.core c).cur = b)
  (hase : cctlAse (s.bankAt c b).cregs.cctl = true) (hstate : (s.bankAt c b).state ≠ .empty)
include hseg hcur hase hstate

theorem addressStreamRun_goes
    (hpc : ((s.core c).specPc.filter fun p => decide ((s.bankAt c b).pc ≤ p)).getD (s.bankAt c b).pc = pc)
    (hs1 : (s.modCore c fun x => if ((s.core c).specPc.filter fun p => decide ((s.bankAt c b).pc ≤ p)).isSome then x
      else { x with spec := [], specPc := some pc }) = s1) : StreamGoes s s1 c b g l pc := by
  subst hpc hs1
  have hruns : ¬ ((s.core c).cur ≠ b ∨ ¬ cctlAse (s.bankAt c b).cregs.cctl = true ∨ (s.bankAt c b).state = .empty) := by
    simp [hcur, hase, hstate]
  change (_ → _ → _ → _ → execAddressStreamRun c b s = _) ∧ (_ → execAddressStreamRun c b s = _)
  simp only [execAddressStreamRun, hseg]
  rw [if_neg hruns]
  refine ⟨fun hlen hin hbundle hready => ?_, fun hstop => if_pos hstop⟩
  rw [if_neg (not_or.mpr ⟨Nat.not_le.mpr hlen, Nat.not_lt.mpr hin⟩), hbundle]
  exact if_neg (not_not.mpr hready)

theorem addressStreamRun_fresh (hnone : (s.core c).specPc = none) :
    StreamGoes s (s.modCore c fun x => { x with spec := [], specPc := some (s.bankAt c b).pc }) c b g l (s.bankAt c b).pc :=
  addressStreamRun_goes hseg hcur hase hstate (by rw [hnone]; rfl) (by rw [hnone]; rfl)

theorem addressStreamRun_ahead (hsome : (s.core c).specPc = some pc) (hle : (s.bankAt c b).pc ≤ pc) :
    StreamGoes s (s.modCore c fun x => x) c b g l pc := by
  have hahead : (s.core c).specPc.filter (fun p => decide ((s.bankAt c b).pc ≤ p)) = some pc := by
    rw [hsome, Option.filter_some, decide_eq_true hle, if_pos rfl]
  exact addressStreamRun_goes hseg hcur hase hstate (by rw [hahead]; rfl) (by rw [hahead]; rfl)

end

/-- Settles O36: the commit by `commitSegment_done` and `commitSegment_waits`, each other event by its lemma. -/
theorem bankEvents : Obligations.BankEvents := by
  unfold Obligations.BankEvents
  refine ⟨fun c b unit addr s => ?bank, fun c b p g l s => ?stream⟩
  case stream =>
    intro x y hseg hcur hase hstate go
    exact ⟨fun hnone => addressStreamRun_fresh hseg hcur hase hstate hnone,
      fun hsome hle => addressStreamRun_ahead hseg hcur hase hstate hsome hle⟩
  case bank =>
    intro x y
    refine ⟨fun p hdue => ⟨fun hlatch => ?_, fun hlatch => ?_⟩, ?commit,
      fun o => ⟨offer_cpe0, offer_cpe1, offer_cle, offer_spawn⟩,
      fun u hstate hwhole hfetch => ⟨segmentFetch_ok hstate hfetch, fetchSegment_whole hwhole hfetch⟩,
      fun t hdue => ⟨trapEntry_due hdue, bankSwitch_fault hdue⟩, bankSwitch_turn, timeSliceEnd_turn, ?rewind,
      watchdog_barks, fun g hat hstate hheld => rendezvousTimeout_due hat hstate hheld, chainTimeout_due⟩
    · exact congrArg _ (landDue_due hdue hlatch)
    · exact congrArg _ (landDue_due hdue hlatch)
    case rewind =>
      intro s1 p hunit hone
      exact ⟨fun u hstate hentry hcount hrewind => segmentRewind_made rfl hunit hone hstate hentry hcount hrewind,
        fun q hold hnew => localReplay_first rfl hunit hone hold hnew⟩
    case commit =>
      intro over_ n l hcommit hmatch
      refine ⟨?_, ?_, ?_⟩
      · rintro rfl
        exact commitSegment_done hcommit hmatch rfl
      · rintro d rfl
        exact ⟨fun hroom => commitSegment_done hcommit hmatch (releaseAll_one (releaseOut_direct hroom)),
          fun hfull => commitSegment_waits hcommit hmatch (releaseAll_one (releaseOut_direct_full hfull)) rfl⟩
      · rintro o rfl told
        exact ⟨fun u hoffer => commitSegment_done hcommit hmatch (releaseAll_one (releaseOut_push_taken hoffer)),
          fun hoffer => ⟨fun hq => commitSegment_done hcommit hmatch (releaseAll_one (releaseOut_push_refused hoffer hq)),
            fun hq => commitSegment_waits hcommit hmatch (releaseAll_one (releaseOut_push_waits hoffer hq)) rfl⟩⟩

end Sys2Proof.Machine
end

