-- ==== Sys2Proof/Proofs/PlanShapes.lean ====
section
/-!
Plans that go: what `Plan.mtrap`, `Plan.access` and `mPlan` make of a plan whose own checks speak of nothing, each as an equation,
and what a clear syllable with such a plan sends (`run_dirtied`). The proofs about matrix and vector instructions put these together.
-/

-- As in MemoryCanonical.
set_option Elab.async false

namespace Sys2Proof.Machine

open Sys2Proof

variable {s s1 : State} {h : Hdr} {lat need align n c field : ℕ} {plan : State → Plan} {p q : Plan} {rd wr : List RegOp}
  {ws : List Write} {ts : List Touch} {bad : Option Trap} {l : List ℕ} {mk : List ℕ → List Write}

/-! ### Checks that speak of nothing -/

theorem firstTrap_none {l : List (Bool × Trap)} (hl : ∀ e ∈ l, e.1 = false) : firstTrap l = none := by
  induction l with
  | nil => rfl
  | cons e l ih => rw [firstTrap, hl e List.mem_cons_self, if_neg Bool.false_ne_true, ih fun x hx => hl x (List.mem_cons_of_mem _ hx)]

theorem tileTrap_open (hopen : s.tileOpen c) : (s.tileTrap c field).1 = false := by
  obtain ⟨hpart, hparked⟩ := hopen
  simp [State.tileTrap, hpart, hparked]

theorem modeTrap_legal {rr : Bool} (hn : n ≤ 5) : (modeTrap rr n).1 = false := by
  simpa [modeTrap] using hn

/-! ### Legal operands -/

/-- The operands of a list are in their families. -/
def LegalOps (l : List RegOp) : Prop := ∀ e ∈ l, e.2.1 < e.1.count

@[simp] theorem legalOps_nil : LegalOps [] := nofun

@[simp] theorem legalOps_cons {e : RegOp} {l : List RegOp} : LegalOps (e :: l) ↔ e.2.1 < e.1.count ∧ LegalOps l := List.forall_mem_cons

@[simp] theorem legalOps_append {l m : List RegOp} : LegalOps (l ++ m) ↔ LegalOps l ∧ LegalOps m := List.forall_mem_append

/-- The operands that a register plan writes and reads are in their families. -/
def LegalPlan (wr rd : List RegOp) : Prop := LegalOps (wr ++ rd)

@[simp] theorem legalPlan_iff : LegalPlan wr rd ↔ LegalOps wr ∧ LegalOps rd := legalOps_append

/-! ### Shapes -/

/-- Whether a register plan goes does not depend on its results. -/
theorem regPlan_goes (hops : LegalPlan wr rd) (hbad : bad = none) : (regPlan rd wr 0 [] bad).out = .go := by
  subst hbad
  exact regPlan_go rd wr 0 [] hops

theorem regPlan_mtrap {l : List (Bool × Trap)} (hops : LegalPlan wr rd) (hl : ∀ e ∈ l, e.1 = false) :
    (regPlan rd wr lat ws).mtrap l = regPlan rd wr lat ws :=
  mtrap_none (regPlan_go rd wr lat ws hops) (firstTrap_none hl)

theorem access_goes (hgo : p.out = .go) (hts : s.accessTrap ts align = none) : p.access ts align s = p.touching ts := by
  simp [Plan.access, Plan.touching, hts, hgo, regPlan.lowestOp]

theorem mPlan_goes {lat' need' : ℕ} (hp : p = q) (hlat : lat = lat') (hneed : need = need') (hgo : q.out = .go)
    (hl : (s.core s.cf).lowest need' = some l) : mPlan p lat need mk s = { q with
      results := [(lat', (if l = [] then [] else [.slabsHeld l]) ++ mk l)]
      locW := q.locW ++ slabLocs l, eff := fun id u => (q.eff id u).takeSlabs u.cf l } := by
  subst hp hlat hneed
  rw [mPlan, hl]
  exact if_neg (not_not.mpr hgo)

/-! ### Accesses of one kind -/

theorem unitLocs_nil : unitLocs [] = [] := rfl

theorem access_loads (ht : ∀ t ∈ ts, t.write = false) (hgo : p.out = .go) (hts : s.accessTrap ts align = none) :
    p.access ts align s = { p with touches := p.touches ++ ts, locR := p.locR ++ unitLocs ts } := by
  have hloads : ts.filter (fun t => !t.write) = ts := List.filter_eq_self.mpr fun t h => by simp [ht t h]
  have hstores : ts.filter (fun t => t.write) = [] := List.filter_eq_nil_iff.mpr fun t h => by simp [ht t h]
  rw [access_goes hgo hts, Plan.touching, hloads, hstores, unitLocs_nil, List.append_nil]

theorem access_stores (ht : ∀ t ∈ ts, t.write = true) (hgo : p.out = .go) (hts : s.accessTrap ts align = none) :
    p.access ts align s = { p with touches := p.touches ++ ts, locW := p.locW ++ unitLocs ts } := by
  have hloads : ts.filter (fun t => !t.write) = [] := List.filter_eq_nil_iff.mpr fun t h => by simp [ht t h]
  have hstores : ts.filter (fun t => t.write) = ts := List.filter_eq_self.mpr fun t h => by simp [ht t h]
  rw [access_goes hgo hts, Plan.touching, hloads, hstores, unitLocs_nil, List.append_nil]

theorem lineTouches_write {a pitch len : ℕ} {wr : Bool} : ∀ t ∈ lineTouches a pitch len n wr, t.write = wr := by
  unfold lineTouches
  split
  · simp
  · rintro t ht
    obtain ⟨j, -, rfl⟩ := List.mem_map.mp ht
    rfl

theorem sideTouch_write {t : TRec} {wr : Bool} : ∀ e ∈ sideTouch t n wr, e.write = wr := by
  unfold sideTouch
  split <;> simp

/-- The lines of a tile and their side bytes, loaded. -/
theorem access_lines_loads {a pitch len m : ℕ} {t : TRec} (hgo : p.out = .go)
    (hts : s.accessTrap (lineTouches a pitch len n false) 16 = none) (hside : s.accessTrap (sideTouch t m false) 1 = none) :
    (p.access (lineTouches a pitch len n false) 16 s).access (sideTouch t m false) 1 s = { p with
      touches := p.touches ++ lineTouches a pitch len n false ++ sideTouch t m false
      locR := p.locR ++ unitLocs (lineTouches a pitch len n false) ++ unitLocs (sideTouch t m false) } := by
  rw [access_loads lineTouches_write hgo hts]
  exact access_loads sideTouch_write hgo hside

/-- The lines of a tile and their side bytes, stored. -/
theorem access_lines_stores {a pitch len m : ℕ} {t : TRec} (hgo : p.out = .go)
    (hts : s.accessTrap (lineTouches a pitch len n true) 16 = none) (hside : s.accessTrap (sideTouch t m true) 1 = none) :
    (p.access (lineTouches a pitch len n true) 16 s).access (sideTouch t m true) 1 s = { p with
      touches := p.touches ++ lineTouches a pitch len n true ++ sideTouch t m true
      locW := p.locW ++ unitLocs (lineTouches a pitch len n true) ++ unitLocs (sideTouch t m true) } := by
  rw [access_stores lineTouches_write hgo hts]
  exact access_stores sideTouch_write hgo hside

/-! ### What a clear syllable sends -/

section
variable {l : List (ℕ × List Write)} {f : State → State} (hplan : plan s = q) (hc : s.clear h p) (hp : p.out = .go)
  (hsame : q.same p) (hv : q.var = none) (hl : q.results = l) (hf : ∀ id u, q.eff id u = f u)
include hplan hc hp hsame hv hl hf

/-- A clear syllable whose stores make their sectors DIRTY sends what its plan sends, then has its plan's effect. -/
theorem run_dirtied (hd : s.dirtied p = .ok s1) : Sends (runSyllable h lat plan s) s1 h l f := by
  subst hplan hl
  obtain ⟨u, hu, he⟩ := runSyllable_issues (lat := lat) hc hp hsame hd hv
  exact ⟨u, hu, he.trans (by rw [hf])⟩

theorem run_loads (ht : ∀ t ∈ p.touches, t.write = false) : Sends (runSyllable h lat plan s) s h l f :=
  run_dirtied hplan hc hp hsame hv hl hf (dirtied_loads ht)

end

/-- A register plan that stores: its checks and its accesses speak of nothing. -/
theorem run_stores {l : List (Bool × Trap)} {lat' : ℕ} {locR : List Loc} (hops : LegalPlan wr rd)
    (hl : ∀ e ∈ l, e.1 = false) (ht : ∀ t ∈ ts, t.write = true) (hts : s.accessTrap ts align = none)
    (hplan : plan s = { ((regPlan rd wr lat' ws).mtrap l).access ts align s with locR := locR })
    (hc : s.clear h { foot rd wr with touches := ts, locR := locR, locW := unitLocs ts })
    (hd : s.dirtied { foot rd wr with touches := ts, locR := locR, locW := unitLocs ts } = .ok s1) :
    Sends (runSyllable h lat plan s) s1 h [(lat', ws)] := by
  rw [regPlan_mtrap hops hl, access_stores ht (regPlan_go _ _ _ _ hops) hts] at hplan
  exact run_dirtied hplan hc rfl ⟨rfl, rfl, rfl, rfl, rfl, rfl, rfl, regPlan_goes hops rfl⟩ rfl rfl (fun _ _ => rfl) hd

end Sys2Proof.Machine
end

