-- ==== Sys2Proof/Proofs/VectorProducts.lean ====
section
/-!
The vector products (O10) and the census shift-down of lanes (O13): register plans whose operand codes are legal. A VMULS in mode 4
counts among the stochastic values of its bundle (`commitPlan_draws`).
-/

-- As in MemoryCanonical.
set_option Elab.async false

namespace Sys2Proof.Machine

open Sys2Proof

variable {s s1 : State} {h : Hdr} {lat lo hi : ℕ} {plan : State → Plan} {p q : Plan} {o : VecOps}

/-! ### Legal operands -/

section
variable (ho : o.named)
include ho

theorem srcA_legal : LegalOps o.srcA := by
  obtain ⟨-, ha, -⟩ := ho
  simpa [VecOps.srcA, Fam.count] using ha

theorem srcB_legal : LegalOps o.srcB := by
  obtain ⟨-, -, hb, -⟩ := ho
  unfold VecOps.srcB
  split <;> simp [Fam.count, hb]

theorem srcQ_legal : LegalOps o.srcQ := by
  obtain ⟨-, -, -, -, hq, -⟩ := ho
  simpa [VecOps.srcQ, Fam.count] using hq

theorem srcT_legal : LegalOps o.srcT := by
  obtain ⟨-, -, -, -, -, ht⟩ := ho
  unfold VecOps.srcT
  split <;> simp [Fam.count, ht]

theorem dstT_legal : LegalOps o.dstT := by
  obtain ⟨-, -, -, -, -, ht⟩ := ho
  unfold VecOps.dstT
  split <;> simp [Fam.count, ht]

theorem dst_legal : LegalOps ((.v, o.dst, 0) :: o.dstT) :=
  List.forall_mem_cons.mpr ⟨ho.1, dstT_legal ho⟩

theorem mulOps_legal :
    LegalPlan ((.v, o.dst, 0) :: o.dstT) (o.srcA ++ o.srcB ++ o.srcQ ++ o.srcT) := by
  simp only [legalPlan_iff, legalOps_append]
  exact ⟨dst_legal ho, ⟨⟨srcA_legal ho, srcB_legal ho⟩, srcQ_legal ho⟩, srcT_legal ho⟩

theorem macOps_legal :
    LegalPlan ((.v, o.dst, 0) :: o.dstT) ((.v, o.dst, 0) :: (o.srcA ++ o.srcB ++ o.srcQ ++ o.srcT)) := by
  simp only [legalPlan_iff, legalOps_append, legalOps_cons]
  exact ⟨⟨ho.1, dstT_legal ho⟩, ho.1, ⟨⟨srcA_legal ho, srcB_legal ho⟩, srcQ_legal ho⟩, srcT_legal ho⟩

theorem dotOps_legal :
    LegalPlan ((.v, o.dst, 0) :: o.dstT) ((.v, o.dst, 0) :: (.v, o.opb, 2) :: (o.srcA ++ o.srcQ ++ o.srcT)) := by
  simp only [legalPlan_iff, legalOps_append, legalOps_cons]
  exact ⟨⟨ho.1, dstT_legal ho⟩, ho.1, ho.2.2.1, ⟨srcA_legal ho, srcQ_legal ho⟩, srcT_legal ho⟩

theorem censusOps_legal :
    LegalPlan [(.v, o.dst, 0), (.t, o.tr, 5)] (o.srcA ++ o.srcQ ++ [((.t, o.tr, 5) : RegOp)]) := by
  obtain ⟨hd, -, -, -, -, ht⟩ := id ho
  have htr : LegalOps [(.t, o.tr, 5)] := by simpa [Fam.count] using ht
  simp only [legalPlan_iff, legalOps_append, legalOps_cons]
  exact ⟨⟨hd, ht, nofun⟩, ⟨srcA_legal ho, srcQ_legal ho⟩, ht, nofun⟩

end

theorem ewTrap_legal (hlo : lo ≤ o.ew) (hhi : o.ew ≤ hi) (h4 : o.ew ≤ 4) : (ewTrap o lo hi).1 = false := by
  simp [ewTrap]
  omega

theorem clTrap_legal {cl : ℕ} (hcl : cl ≤ 2) : (clTrap cl).1 = false := by
  simp [clTrap]
  omega

/-! ### The stochastic values that a bundle takes -/

/-- A plan that takes a stochastic counter is one more of its bundle. -/
theorem commitPlan_draws (hv : p.var = none) (heff : ∀ id u, p.eff id u = u) :
    (s.commitPlan h p).bk.pipe.ctx.draws = s.bk.pipe.ctx.draws + if p.draw then 1 else 0 := by
  simp only [State.commitPlan, hv, heff]
  rw [foldl_modBk p.results (fun y e => y.launchResult h.slot e.1 e.2), State.modBk_modBk, State.modBk_bk, Bank.setEntry_eq,
    foldl_launchResult]
  rfl

theorem run_draws (hc : s.clear h p) (hp : p.out = .go) (ht : p.touches = []) (hplan : plan s = q) (hsame : q.same p)
    (hv : q.var = none) (heff : ∀ id u, q.eff id u = u) : Gives (runSyllable h lat plan s) fun t =>
      t.bk.pipe.ctx.draws = s.bk.pipe.ctx.draws + if q.draw then 1 else 0 := by
  subst hplan
  exact ⟨_, runSyllable_go hc hp hsame (dirtied_none s p ht), commitPlan_draws hv heff⟩

/-! ### The instructions -/

theorem planVmuls_same (ho : o.named) (hcl : o.cl ≤ 2) (hew : o.ew ≤ 4) (hm : s.rmode o ≤ 5) :
    (planVmuls o s).same o.foot2 :=
  ⟨rfl, rfl, rfl, rfl, rfl, rfl, rfl, regPlan_goes (mulOps_legal ho) (firstTrap_none (by
    simp [modeTrap_legal hm, ewTrap_legal (Nat.zero_le _) hew hew, clTrap_legal hcl]))⟩

/-- Settles O10: the plans are register plans; `run_draws` counts the value that VMULS takes. -/
theorem vectorProductResults : Obligations.VectorProductResults := by
  unfold Obligations.VectorProductResults
  intro h o s ho hcl w cb
  refine ⟨fun hew hm hc => ?vmuls, fun hlegal hc => ?vmac, fun hew hc => ?vdot4⟩
  case vmuls =>
    have hsame := planVmuls_same ho hcl hew hm
    exact ⟨run_plan hc _ rfl rfl rfl hsame rfl, run_draws hc rfl rfl rfl hsame rfl fun _ _ => rfl, fun _ _ => rfl⟩
  case vmac =>
    obtain ⟨-, hew, -, hwide⟩ := hlegal
    have hhalf : (o.w && (o.ew == 4 || decide (1 < o.part))) = false := by
      cases hw : o.w with
      | false => rfl
      | true => simpa using ⟨(hwide hw).1.ne, (hwide hw).2⟩
    exact run_regPlan hc (macOps_legal ho) (firstTrap_none (by
      simp [ewTrap_legal (Nat.zero_le _) hew hew, clTrap_legal hcl, hhalf])) rfl
  case vdot4 =>
    have hw : (if 2 < o.ew then 16 else o.wd) = w := if_neg (by omega)
    refine run_regPlan hc (dotOps_legal ho) (firstTrap_none (l := [ewTrap o 0 2, clTrap o.cl]) (by
      simp [ewTrap_legal (Nat.zero_le _) hew (show o.ew ≤ 4 by omega), clTrap_legal hcl])) ?_
    rw [planVdot4, hw]

/-- Settles O13. -/
theorem censusShiftDownResults : Obligations.CensusShiftDownResults := by
  unfold Obligations.CensusShiftDownResults
  intro h o s ho t fm wd sh scale act x st l cl hfm hbx hscale hrnd hew hpart hc tw
  have hgo : (planVshrdCensus o s).out = .go := regPlan_goes (censusOps_legal ho) (firstTrap_none (by
    simp [hew]
    exact ⟨⟨⟨hfm, hbx⟩, hscale⟩, hrnd, hpart⟩))
  exact run_plan hc _ rfl rfl rfl ⟨rfl, rfl, rfl, rfl, rfl, rfl, rfl, hgo⟩ rfl

end Sys2Proof.Machine
end

