-- ==== Sys2Proof/Proofs/Accumulator.lean ====
section
/-!
The accumulator instructions (O25). A tile that may be named passes the checks of MZERO, CADD, CRDV and CWRV, which are then register
plans with rows of tiles in their footprint. CSHD narrows its rows with their numbers and shifts at hand (`narrowRows_eq`).
-/

-- As in MemoryCanonical.
set_option Elab.async false

namespace Sys2Proof.Machine

open Sys2Proof

variable {s s1 : State} {h : Hdr} {c a b r dir idx cnt n : ℕ} {add : Bool} {ws : List Write} {rows : List ℕ} {α β : Type}

/-! ### Checks -/

theorem dirTrap_legal (hlo : 1 ≤ dir) (hhi : dir ≤ 3) : (dirTrap dir).1 = false := by
  simp [dirTrap]
  omega

theorem cntTrap_legal (hlo : cnt ≠ 0) (hhi : cnt ≤ 128) : (cntTrap cnt).1 = false := by
  simp [cntTrap]
  omega

/-! ### MZERO, CADD, CRDV and CWRV -/

/-- A row, column or diagonal holds the codes of its cells. -/
theorem accLine_eq (x : Core) (hlo : 1 ≤ dir) (hhi : dir ≤ 3) :
    x.accLine c dir idx = (lineCells dir idx).map fun e => laneN (Tab.get 0 x.acc (c * 128 + e.1)).toNat 32 e.2 := by
  obtain rfl | rfl | rfl : dir = 1 ∨ dir = 2 ∨ dir = 3 := by omega
  all_goals simp [Core.accLine, Core.accRow, lanesN, lineCells]

theorem mzero_sends (hc : c < 32) (hopen : s.tileOpen c) (hclear : s.clear h { foot [] [(.c, c, 0)] with locW := tileLocs c }) :
    Sends (exec (.mzero h c) s) s h [(2, (List.range 128).map fun i => .acc (c * 128 + i) fullRow 0)] (·.claimTile c) := by
  have hops : LegalPlan [(.c, c, 0)] [] := by simp [Fam.count, hc]
  have hplan : planMzero c s = _ := congrArg (fun q : Plan => { q with locW := tileLocs c, eff := fun _ u => u.claimTile c })
    (regPlan_mtrap hops (by simp [tileTrap_open hopen]))
  exact run_loads hplan hclear rfl ⟨rfl, rfl, rfl, rfl, rfl, rfl, rfl, regPlan_goes hops rfl⟩ rfl rfl (fun _ _ => rfl) nofun

theorem crdv_sends (hc : c < 32) (hr : r < 64) (hopen : s.tileOpen c) (hlo : 1 ≤ dir) (hhi : dir ≤ 3)
    (hclear : s.clear h { foot [(.c, c, 1)] [(.v, r, 0)] with locR := (lineRows c dir idx).map .accRow }) :
    Sends (exec (.crdv h r c dir idx) s) s h
      [(8, [.v r fullRow (BitVec.ofNat 4096 (packN 32 ((s.core s.cf).accLine c dir idx)))])] := by
  have hops : LegalPlan [(.v, r, 0)] [(.c, c, 1)] := by simp [Fam.count, hc, hr]
  have hplan : planCrdv r c dir idx s = _ := congrArg (fun q : Plan => { q with locR := (lineRows c dir idx).map .accRow })
    (regPlan_mtrap hops (by simp [tileTrap_open hopen, dirTrap_legal hlo hhi]))
  exact run_loads hplan hclear rfl ⟨rfl, rfl, rfl, rfl, rfl, rfl, rfl, regPlan_goes hops rfl⟩ rfl rfl (fun _ _ => rfl) nofun

/-- CWRV writes the rows of its row, column or diagonal, or adds to them. -/
theorem cwrv_sends (hc : c < 32) (hr : r < 64) (hopen : s.tileOpen c) (hlo : 1 ≤ dir) (hhi : dir ≤ 3)
    (hclear : s.clear h { foot [(.v, r, 1)] [(.c, c, 0)] with
      locW := if add then [] else rows.map .accRow, rowsAcc := if add then rows else [] })
    (hplan : planCwrv c r dir idx add s =
      { (regPlan [(.v, r, 1)] [(.c, c, 0)] 2 ws).mtrap [s.tileTrap c 0, dirTrap dir] with
        locW := if add then [] else rows.map .accRow, rowsAcc := if add then rows else [], eff := fun _ u => u.claimTile c }) :
    Sends (exec (.cwrv h c r dir idx add) s) s h [(2, ws)] (·.claimTile c) := by
  have hops : LegalPlan [(.c, c, 0)] [(.v, r, 1)] := by simp [Fam.count, hc, hr]
  rw [regPlan_mtrap hops (by simp [tileTrap_open hopen, dirTrap_legal hlo hhi])] at hplan
  exact run_loads hplan hclear rfl ⟨rfl, rfl, rfl, rfl, rfl, rfl, rfl, regPlan_goes hops rfl⟩ rfl rfl (fun _ _ => rfl) nofun

/-! ### CSHD -/

/-- Rows of elements narrowed with their numbers and shifts: `N r j v k` is element `j` of row `r`, of value `v` and shift `k`. -/
def narrowRows (N : ℕ → ℕ → ℕ → ℕ → ℕ × Bool) (src shs : List (List ℕ)) : List (List (ℕ × Bool)) :=
  List.zipWith (fun (e : ℕ × List ℕ) gs => mapFrom (fun j v => N e.1 j v (gs.getD (j / 32) 0)) 0 e.2)
    (mapFrom (fun r row => (r, row)) 0 src) shs

theorem mapFrom_range {f : ℕ → α → β} {g : ℕ → α} : mapFrom f 0 ((List.range n).map g) = (List.range n).map fun i => f i (g i) := by
  refine List.ext_getElem? fun k => ?_
  rw [getElem?_mapFrom]
  by_cases hk : k < n <;> simp [hk]

theorem narrowRows_eq {N : ℕ → ℕ → ℕ → ℕ → ℕ × Bool} {src shs : List (List ℕ)} {x : Core} {grp : List ℕ → List ℕ}
    (hsrc : src = (List.range cnt).map fun r => x.accRow c (idx + r)) (hshs : shs = src.map grp) :
    narrowRows N src shs = (List.range cnt).map fun r => (List.range 128).map fun j =>
      N r j ((src.getD r []).getD j 0) ((shs.getD r []).getD (j / 32) 0) := by
  subst hshs hsrc
  rw [narrowRows, mapFrom_range, List.map_map, List.zipWith_map, List.zipWith_self]
  refine List.map_congr_left fun r hr => ?_
  simp only [Core.accRow, lanesN, mapFrom_range, List.getD_eq_getElem?_getD]
  refine List.map_congr_left fun j hj => ?_
  simp [List.mem_range.mp hr, List.mem_range.mp hj]

/-- Settles O25. -/
theorem accumulatorResults : Obligations.AccumulatorResults := by
  unfold Obligations.AccumulatorResults
  refine ⟨fun h c a b r dir idx s hc ha hb hr hidx => ?tile, fun h c b idx tr base disp cnt s s1 hc hb htr hbase hcnt hfit => ?cshd⟩
  case tile =>
    intro x claim
    refine ⟨mzero_sends hc, fun hopen hopena hopenb => ?cadd, fun hopen hlo hhi hclear => ?crdv,
      fun hopen => ⟨fun hclear => cwrv_sends (add := false) (rows := [c * 128 + idx]) hc hr hopen le_rfl (by omega) hclear rfl,
        fun hclear => cwrv_sends (add := true) (rows := [c * 128 + idx]) hc hr hopen le_rfl (by omega) hclear rfl, fun hlo hhi => ?column⟩⟩
    case cadd =>
      intro own hclear l
      have hops : LegalPlan [(.c, c, 0)] [(.c, a, 1), (.c, b, 2)] := by
        simp [Fam.count, hc, ha, hb]
      have hplan : planCadd c a b s = _ := congrArg (fun q : Plan => { q with
          locR := (if a = c then [] else tileLocs a) ++ (if b = c then [] else tileLocs b)
          locW := if own then [] else tileLocs c
          rowsAcc := if own then (List.range 128).map fun i => c * 128 + i else [], eff := fun _ u => u.claimTile c })
        (regPlan_mtrap hops (by simp [tileTrap_open hopen, tileTrap_open hopena, tileTrap_open hopenb]))
      exact run_loads hplan hclear rfl ⟨rfl, rfl, rfl, rfl, rfl, rfl, rfl, regPlan_goes hops rfl⟩ rfl rfl (fun _ _ => rfl) nofun
    case crdv =>
      rw [← accLine_eq x hlo hhi]
      exact crdv_sends hc hr hopen hlo hhi hclear
    case column =>
      intro rows cell
      have hcolumn : dir ≠ 1 := by omega
      refine ⟨fun hclear => cwrv_sends (add := false) (rows := rows) hc hr hopen (by omega) hhi hclear ?_,
        fun hclear => cwrv_sends (add := true) (rows := rows) hc hr hopen (by omega) hhi hclear ?_⟩
      all_goals
        rw [planCwrv, lineRows, if_neg hcolumn, if_neg hcolumn]
        rfl
  case cshd =>
    intro t f bx a line es sh scale src shs st
    have hops : LegalPlan [(.t, tr, 5)] [(.c, c, 1), (.s, b, 2), (.t, tr, 5), (.a, base, 6)] := by simp [Fam.count, hc, hb, htr, hbase]
    rw [← narrowRows_eq (N := fun r j v k => narrowTo f (trecClamp t) (trecZp t) (sextN 32 v) k (trecRnd t)
      (if st then s.rword true t ((idx + r) * 128 + j) else 0)) (src := src) (shs := shs) rfl rfl]
    intro out lim tw ts side p hopen hes hscale hrnd hts hside hclear hdirty
    have hchecks : ∀ e ∈ [(decide (-128 ≤ es ∧ es ≤ 127) && !scaleOk scale, recTrap 5), s.tileTrap c 1,
        (!scaleOk es, illegalOp 2), (decide (5 < trecRnd t), illegalOp 5), cntTrap cnt,
        (decide (128 < idx + cnt), illegalOp 6)], e.1 = false := by
      simp [tileTrap_open hopen, hes, hscale, hrnd, hfit, cntTrap_legal hcnt (by omega)]
    have hplan : planCshd c b idx tr base disp cnt s = _ := congrArg (fun q : Plan => { q with
        locR := (List.range cnt).map (fun r => .accRow (c * 128 + idx + r)), draw := st })
      ((congrArg (fun q : Plan => (q.access ts 16 s).access side 1 s) (regPlan_mtrap hops hchecks)).trans
        (access_lines_stores (regPlan_go _ _ _ _ hops) hts hside))
    exact run_dirtied hplan hclear rfl ⟨rfl, rfl, rfl, rfl, rfl, rfl, rfl, regPlan_goes hops rfl⟩ rfl rfl (fun _ _ => rfl) hdirty

end Sys2Proof.Machine
end

