-- ==== Sys2Proof/Proofs/TileTransfers.lean ====
section
/-!
Tiles loaded and stored (O26). A tile's lines are loads or stores of one kind, so that MLD, MST and MSTF are register plans with their
touches; an access that traps nowhere has an aligned address and pitch (`lines_aligned`), which MST checks by hand.
-/

-- As in MemoryCanonical.
set_option Elab.async false

namespace Sys2Proof.Machine

open Sys2Proof

variable {s s1 : State} {h : Hdr} {d b tr base disp a pitch fmt align n : ℕ} {ts : List Touch} {l : List ℕ} {x : Core}

/-! ### Alignment -/

theorem accessTrap_aligned (hts : s.accessTrap ts align = none) : ∀ t ∈ ts, t.addr % align = 0 := by
  cases hbounds : boundsTrap ts align with
  | some u => simp [State.accessTrap, hbounds] at hts
  | none =>
    unfold boundsTrap at hbounds
    split at hbounds
    · cases hbounds
    · simpa using hbounds

theorem lineBytes_aligned : lineBytes fmt % 16 = 0 := Nat.mul_mod_right 16 _

/-- The lines of a tile that trap nowhere are aligned, and so is their pitch. -/
theorem lines_aligned {wr : Bool} (hts : s.accessTrap (lineTouches a pitch (lineBytes fmt) 128 wr) 16 = none) :
    a % 16 = 0 ∧ pitch % 16 = 0 := by
  have haligned := accessTrap_aligned hts
  unfold lineTouches at haligned
  split at haligned
  · next hpitch => exact ⟨haligned _ List.mem_cons_self, hpitch ▸ lineBytes_aligned⟩
  · have hline (j : ℕ) (hj : j < 128) : (a + j * pitch) % 2 ^ 64 % 16 = 0 :=
      haligned _ (List.mem_map_of_mem (List.mem_range.mpr hj))
    have h0 := hline 0 (by decide)
    have h1 := hline 1 (by decide)
    omega

/-! ### Slabs of a dense tile -/

theorem storedBits_pos : 0 < storedBits fmt := by
  unfold storedBits fmtBits
  split
  · decide
  · split <;> decide

theorem lowest_length (hl : x.lowest n = some l) : l.length = n := by
  unfold Core.lowest at hl
  simp only at hl
  split at hl
  · next h0 => cases hl; exact h0.symm
  · split at hl
    · next hn => cases hl; exact hn
    · cases hl

theorem lowest_ne_nil (hn : n ≠ 0) (hl : x.lowest n = some l) : l ≠ [] := by
  rintro rfl
  exact hn (lowest_length hl).symm

/-- Settles O26. -/
theorem tileTransferResults : Obligations.TileTransferResults := by
  unfold Obligations.TileTransferResults
  intro h d b tr base disp s s1 hd hb htr hbase x t f a k
  refine ⟨fun l hf hl => ?mld, fun hk => ?mst, fun hk ha => ?mstf⟩
  case mld =>
    intro at_ ts side p hts hside hclear
    have hops : LegalPlan [(.m, d, 0)] [(.s, b, 2), (.t, tr, 5), (.a, base, 6)] := by
      simp [Fam.count, hd, hb, htr, hbase]
    have hslabs : l ≠ [] := lowest_ne_nil (n := denseSlabs f) (by have := storedBits_pos (fmt := f); unfold denseSlabs; omega) hl
    have haccess := (congrArg (fun q : Plan => (q.access ts 16 s).access side 1 s)
      (regPlan_mtrap (lat := 1) (ws := []) (l := [(f == 7, recTrap 5)]) hops (by simpa using hf))).trans
        (access_lines_loads (regPlan_goes hops rfl) hts hside)
    have hplan : planMld d b tr base disp s = _ :=
      mPlan_goes haccess (congrArg (6 + ·) (if_neg hf)) (if_neg hf) (regPlan_goes hops rfl) hl
    rw [if_neg hslabs] at hplan
    exact run_loads hplan hclear rfl ⟨rfl, rfl, rfl, rfl, rfl, rfl, rfl, regPlan_goes hops rfl⟩ rfl rfl (fun _ _ => rfl)
      (List.forall_mem_append.mpr ⟨lineTouches_write, sideTouch_write⟩)
  case mst =>
    intro line pitch col ts p hts hclear hdirty
    have hops : LegalPlan [] [(.m, d, 1), (.s, b, 2), (.a, base, 6)] := by
      simp [Fam.count, hd, hb, hbase]
    have hkind : (s.rg.rm d).kind = 1 := hk
    obtain ⟨ha, hpitch⟩ : a % 16 = 0 ∧ pitch % 16 = 0 := lines_aligned hts
    have hchecks : ∀ e ∈ [(a % 16 != 0, ({ cause := 0x11, info := BitVec.ofNat 64 a } : Trap)),
        (b != 0 && pitch % 16 != 0, { cause := 0x11, info := BitVec.ofNat 64 ((a + pitch) % 2 ^ 64) }),
        (k.kind == 2, lowTrap 1), (k.kind == 0, illegalOp 1)], e.1 = false := by simp [ha, hpitch, hk]
    exact run_stores hops hchecks lineTouches_write hts (by simp only [planMst, if_pos hkind]; rfl) hclear hdirty
  case mstf =>
    intro n ts p hts hclear hdirty
    have hops : LegalPlan [] [(.m, d, 1), (.a, base, 6)] := by simp [Fam.count, hd, hbase]
    have hstores : ∀ t ∈ ts, t.write = true := by
      unfold ts
      split <;> simp
    have hchecks : ∀ e ∈ [(a % 16 != 0, ({ cause := 0x11, info := BitVec.ofNat 64 a } : Trap)), (k.kind == 1, lowTrap 1)],
        e.1 = false := by simp [ha, hk]
    exact run_stores hops hchecks hstores hts rfl hclear hdirty

end Sys2Proof.Machine
end

