-- ==== Sys2Proof/Proofs/IssuingBank.lean ====
section
/-!
Which bank issues (`State.issuer`), and the chain of operations by which the slabs of saved contexts are written out before they are
taken: none changes it, up to `takeSlabs_issuer`. A lemma `f_issuer` says so of `State.f`.
-/

-- As in MemoryCanonical.
set_option Elab.async false

namespace Sys2Proof.Machine

open Sys2Proof

variable {s t : State} {c b a n off k ctx die wid lid cause core unit area cls group family : ℕ} {l : List Byte} {v : Saved}
  {r : FltRec} {q : Requester} {α : Type}

/-- The agent in focus, and the bank of each core that issues. -/
def State.issuer (s : State) : Focus × (ℕ → ℕ) := (s.focus, fun c => (s.core c).cur)

theorem issuer_congr (hfocus : t.focus = s.focus) (hcores : t.cores = s.cores) : t.issuer = s.issuer := by
  simp only [State.issuer, State.core, hfocus, hcores]

theorem cf_of_issuer (h : t.issuer = s.issuer) : t.cf = s.cf := by
  have hfocus : t.focus = s.focus := congrArg Prod.fst h
  rw [State.cf, hfocus, State.cf]

theorem bf_of_issuer (h : t.issuer = s.issuer) : t.bf = s.bf := by
  rw [State.bf, cf_of_issuer h]
  exact congrFun (congrArg Prod.snd h) s.cf

theorem modCore_issuer {f : Core → Core} (hf : ∀ x, (f x).cur = x.cur) : (s.modCore c f).issuer = s.issuer := by
  refine Prod.ext rfl (funext fun d => ?_)
  by_cases hd : d = c
  · subst hd
    exact (congrArg Core.cur (State.core_modCore s d f)).trans (hf _)
  · exact congrArg Core.cur (State.core_modCore_ne s c d f hd)

theorem modBank_issuer {f : Bank → Bank} : (s.modBank c b f).issuer = s.issuer :=
  modCore_issuer (f := fun x => x.setBank b (f (x.bank b))) fun _ => Core.setBank_cur _ _ _

theorem ite_issuer {p : Prop} [Decidable p] {u w : State} (hu : u.issuer = s.issuer) (hw : w.issuer = s.issuer) :
    (if p then u else w).issuer = s.issuer := by
  split
  · exact hu
  · exact hw

theorem foldl_issuer {f : State → α → State} {l : List α} (hf : ∀ u a, (f u a).issuer = u.issuer) :
    (l.foldl f s).issuer = s.issuer :=
  List.foldlRecOn (motive := fun u : State => u.issuer = s.issuer) l f rfl fun u hu e _ => (hf u e).trans hu

/-! ### Bytes written at a home -/

theorem putHomeByte_issuer {x : Byte} : (s.putHomeByte a x).issuer = s.issuer := by
  unfold State.putHomeByte
  split
  · exact ite_issuer rfl rfl
  · split
    · rfl
    · exact modCore_issuer fun _ => rfl
    · exact modCore_issuer fun _ => rfl
    · exact modBank_issuer
    · rfl
    · rfl

theorem putHomeEach_issuer : (s.putHomeEach a l).issuer = s.issuer := by
  induction l generalizing s a with
  | nil => rfl
  | cons x l ih => exact ih.trans putHomeByte_issuer

theorem putHome_issuer : (s.putHome a l).issuer = s.issuer := by
  have hbytes : (if isPlain a l.length then { s with mem := memWrite s.mem a (stored a l) } else s.putHomeEach a l).issuer =
      s.issuer := ite_issuer rfl putHomeEach_issuer
  exact ite_issuer hbytes hbytes

theorem usePorts_issuer : (s.usePorts cls group family a n).issuer = s.issuer := ite_issuer rfl (foldl_issuer fun _ _ => rfl)

theorem access_issuer : (s.access a n).issuer = s.issuer := by
  rw [State.access, usePorts_issuer, touchFrames_eq]
  rfl

theorem saveWrite_issuer : (s.saveWrite v off l).issuer = s.issuer := access_issuer.trans putHome_issuer

/-! ### Logs and fault records -/

theorem logArray_issuer {two : Bool} {syn : ℕ} : (s.logArray c k off ctx two syn).issuer = s.issuer := modCore_issuer fun _ => rfl

theorem setRing_issuer {g : FltRing} : (s.setRing die g).issuer = s.issuer := rfl

theorem notify_issuer : (s.notify l).issuer = s.issuer := rfl

theorem interrupt_issuer : (s.interrupt n).issuer = s.issuer := ite_issuer rfl rfl

theorem modLaunch_issuer {f : Launch → Launch} : (s.modLaunch lid f).issuer = s.issuer := rfl

/-- The core once the injection that waited has acted (R384). -/
def Core.unarmed (x : Core) : Core := { x with cregs := { x.cregs with einjCtl := x.cregs.einjCtl &&& 0xFFE } }

theorem unarmed_issuer : (s.modCore k Core.unarmed).issuer = s.issuer := modCore_issuer fun _ => rfl

/-- A word corrected, in its array's log. -/
def State.logSoft (s : State) (ctx w : ℕ) : State :=
  match arrayOf (8 * w) with
  | none => s
  | some (c, k, o) => s.logArray c k o ctx false (syndrome (8 * w))

theorem logSoft_issuer : (s.logSoft ctx a).issuer = s.issuer := by
  unfold State.logSoft
  split
  · rfl
  · exact logArray_issuer

/-- The injection of a core, if there is one (`k` is its number and 1), has acted. -/
def State.acted (s : State) (k : ℕ) : State := if k = 0 then s else s.modCore (k - 1) Core.unarmed

theorem acted_issuer : (s.acted k).issuer = s.issuer := ite_issuer rfl unarmed_issuer

/-- A word corrected, as `State.correct` corrects each. -/
def State.correctWord (s : State) (ctx w : ℕ) : State :=
  let v := (s.logSoft ctx w).acted (Tab.get 0 s.injectOne w)
  { v with injectOne := Tab.set 0 v.injectOne w 0, soft := Tab.set false v.soft w false }

theorem correctWord_issuer : (s.correctWord ctx a).issuer = s.issuer :=
  (issuer_congr (s := (s.logSoft ctx a).acted (Tab.get 0 s.injectOne a)) rfl rfl).trans (acted_issuer.trans logSoft_issuer)

theorem correct_eq : s.correct ctx a n = (s.softIn a n).foldl (fun u w => u.correctWord ctx w) s := rfl

theorem correct_issuer : (s.correct ctx a n).issuer = s.issuer := by
  rw [correct_eq]
  exact foldl_issuer fun _ _ => correctWord_issuer

theorem logBad_issuer : (s.logBad a ctx).issuer = s.issuer := by
  unfold State.logBad
  split
  · rfl
  · exact logArray_issuer

theorem disarm_issuer : (s.disarm a).issuer = s.issuer := by
  unfold State.disarm
  dsimp only
  split
  · rfl
  · exact (issuer_congr (s := s.modCore (Tab.get 0 s.inject (a / 8) - 1) Core.unarmed) rfl rfl).trans unarmed_issuer

theorem quarantine_issuer : (s.quarantine a).issuer = s.issuer := ite_issuer rfl rfl

theorem writeFlt_issuer : (s.writeFlt die r q).issuer = s.issuer := by
  unfold State.writeFlt
  dsimp only
  refine interrupt_issuer.trans (notify_issuer.trans (setRing_issuer.trans (ite_issuer rfl (access_issuer.trans ?_))))
  exact issuer_congr rfl rfl

theorem pushFlt_issuer : (s.pushFlt die r q).issuer = s.issuer := ite_issuer rfl writeFlt_issuer

theorem postFlt_issuer : (s.postFlt die r q).issuer = s.issuer :=
  pushFlt_issuer.trans (ite_issuer (logBad_issuer.trans (disarm_issuer.trans quarantine_issuer)) rfl)

/-! ### A saved context killed -/

theorem dropWork_issuer : (s.dropWork lid wid).issuer = s.issuer := by
  unfold State.dropWork
  dsimp only
  refine modLaunch_issuer.trans ((issuer_congr (s := s.cores.foldl _ s) rfl rfl).trans (foldl_issuer fun u e => ?_))
  split
  · exact modCore_issuer fun _ => rfl
  · rfl

theorem killedAway_issuer : (s.killedAway lid wid cause ctx die core unit).issuer = s.issuer :=
  postFlt_issuer.trans (modLaunch_issuer.trans (dropWork_issuer.trans modLaunch_issuer))

theorem dropSaved_issuer : (s.dropSaved c v).issuer = s.issuer := modCore_issuer fun _ => rfl

theorem killSaved_issuer : (s.killSaved c v cause).issuer = s.issuer := killedAway_issuer.trans dropSaved_issuer

/-! ### Slabs taken -/

theorem spillBad_issuer : (s.spillBad c v n).issuer = s.issuer := ite_issuer (killSaved_issuer.trans postFlt_issuer) rfl

theorem modSaved_issuer {f : Saved → Saved} : (s.modSaved c area f).issuer = s.issuer := modCore_issuer fun _ => rfl

theorem holdCycles_issuer : (s.holdCycles c n).issuer = s.issuer := modCore_issuer fun _ => rfl

theorem spillSlab_issuer : (s.spillSlab c v k).issuer = s.issuer := by
  unfold State.spillSlab
  split
  · exact spillBad_issuer
  · exact holdCycles_issuer.trans (modSaved_issuer.trans (saveWrite_issuer.trans correct_issuer))

theorem spillSlabs_issuer {l : List ℕ} : (s.spillSlabs c l).issuer = s.issuer :=
  foldl_issuer fun _ _ => foldl_issuer fun _ _ => spillSlab_issuer

theorem takeSlabs_issuer {l : List ℕ} : (s.takeSlabs c l).issuer = s.issuer := by
  unfold State.takeSlabs
  refine ite_issuer rfl ((modCore_issuer ?_).trans spillSlabs_issuer)
  exact fun _ => rfl

end Sys2Proof.Machine
end

