-- ==== Sys2Proof/Proofs/LowRankProducts.lean ====
section
/-!
MLRMUL and MDENSE (O28). Each takes slabs through `mPlan`; MLRMUL in place takes none (`mlrmulTaking_goes`), then passes the checks of
the array and of the ramp limiter, which a free array and an unspent allowance let go.
-/

-- As in MemoryCanonical.
set_option Elab.async false

namespace Sys2Proof.Machine

open Sys2Proof

variable {s : State} {h : Hdr} {d a tr sh rm n : ℕ} {rr : Bool} {l : List ℕ} {p : Plan}

/-! ### MLRMUL's plan -/

theorem arrayPlan_goes (hidle : (s.core s.cf).arrayBusy = 0) : arrayPlan n p s = { p with
    eff := fun id u => ((p.eff id u).spillPlanes u.cf u.bf).modCore u.cf fun x => { x with arrayBusy := n, arrayBank := u.bf } } :=
  if_neg (not_not.mpr hidle)

theorem rampPlan_goes (hspent : s.rampSpent = false) : rampPlan p s = { p with eff := fun id u => (p.eff id u).counted } :=
  if_neg fun hp => Bool.false_ne_true (hspent.symm.trans hp.2)

/-- The slabs taken leave the bank that issues, so that the array is kept busy for it. -/
theorem keepArray_takeSlabs {u : State} : State.keepArray n (u.takeSlabs u.cf l) =
    (((u.takeSlabs u.cf l).spillPlanes u.cf u.bf).modCore u.cf fun x => { x with arrayBusy := n, arrayBank := u.bf }).counted := by
  rw [State.keepArray, cf_of_issuer takeSlabs_issuer, bf_of_issuer takeSlabs_issuer]

theorem rrOp_legal (htr : tr < 16) : LegalOps (rrOp tr rr) := by
  cases rr
  · exact nofun
  · simpa [rrOp, Fam.count] using htr

/-- Whether MLRMUL draws a random word for each of its sums. -/
def mlrmulDraws (a tr sh rm : ℕ) (rr : Bool) (s : State) : Bool :=
  s.matMode tr rm rr == 4 && decide (0 < sh) && (s.core s.cf).factors (s.rg.rm a) != []

/-- The components that MLRMUL makes, each of its sums with the flag of its limit. -/
def mlrmulProducts (a tr sh rm : ℕ) (rr : Bool) (s : State) : List (List ℤ × List (ℤ × Bool)) :=
  mapFrom (fun c (f : List ℤ × List ℤ) => (f.1, mapFrom (fun j v => satW false 16 (rnd v sh (s.matMode tr rm rr)
    (if mlrmulDraws a tr sh rm rr s then s.rword rr (s.rg.rt tr) (j * 128 + c) else 0))) 0
      (rowTerms (s.core s.cf).plane.cols f.2 [0, 0, 0, 0]))) 0 ((s.core s.cf).factors (s.rg.rm a))

/-- The scale of MLRMUL's result. -/
def mlrmulScale (a sh : ℕ) (s : State) : ℤ := (s.rg.rm a).eh + (s.core s.cf).plane.scale + (sh : ℤ)

/-- What MLRMUL writes of the products `r`, into the slabs `l`. -/
def mlrmulWrites (d a sh : ℕ) (r : List (List ℤ × List (ℤ × Bool))) (s : State) (l : List ℕ) : List Write :=
  let out := r.map fun f => (f.1, f.2.map (·.1))
  slabWrites l (out.map packComp) ++ .m d (lowDesc out (s.rg.rm a).eg (mlrmulScale a sh s) l) :: satIf (r.any fun f => f.2.any (·.2))

/-- MLRMUL's plan `p` with the slabs it takes for the products `r`. -/
def mlrmulTaking (d a sh : ℕ) (p : Plan) (r : List (List ℤ × List (ℤ × Bool))) (s : State) : Plan :=
  let k := s.rg.rm a
  if d = a then mPlan { p with locW := k.locs } (8 + 4 * k.rank) 0 (fun _ => mlrmulWrites d a sh r s k.slabs) s
  else mPlan p (8 + 4 * k.rank) ((s.core s.cf).factors k).length (mlrmulWrites d a sh r s) s

/-- MLRMUL's plan, of its register plan `p` and its products `r`. -/
def mlrmulOf (d a sh : ℕ) (p : Plan) (r : List (List ℤ × List (ℤ × Bool))) (s : State) : Plan :=
  rampPlan (arrayPlan (4 * (s.rg.rm a).rank) (mlrmulTaking d a sh p r s) s) s

/-- A register plan with the locations that MLRMUL reads and the word it draws. -/
def Plan.multiplying (p : Plan) (a tr sh rm : ℕ) (rr : Bool) (s : State) : Plan :=
  { p with locR := (s.rg.rm a).locs ++ [.plane (if (s.core s.cf).active then 1 else 0)], draw := mlrmulDraws a tr sh rm rr s }

theorem planMlrmul_goes (hops : LegalPlan [(.m, d, 0)] ((.m, a, 1) :: rrOp tr rr))
    (hk : (s.rg.rm a).kind ≠ 1) (hm : s.matMode tr rm rr ≤ 5)
    (hscale : (s.rg.rm a).kind = 2 → scaleOk (mlrmulScale a sh s) = true) : planMlrmul d a tr sh rm rr s =
    mlrmulOf d a sh ((regPlan ((.m, a, 1) :: rrOp tr rr) [(.m, d, 0)] (8 + 4 * (s.rg.rm a).rank) []).multiplying a tr sh rm rr s)
      (mlrmulProducts a tr sh rm rr s) s := by
  have hmode : (modeTrap rr (s.matMode tr rm rr)).1 = false := modeTrap_legal hm
  have hchecks : ∀ e ∈ [((s.rg.rm a).kind == 1, lowTrap 1),
      ((s.rg.rm a).kind == 2 && !scaleOk (mlrmulScale a sh s), recTrap 0), modeTrap rr (s.matMode tr rm rr)], e.1 = false := by
    simpa [hk, hmode] using hscale
  calc planMlrmul d a tr sh rm rr s
    _ = mlrmulOf _ _ _ _ _ _ := congrArg (fun p : Plan => mlrmulOf d a sh (p.multiplying a tr sh rm rr s)
        (if p.out ≠ .go then [] else mlrmulProducts a tr sh rm rr s) s) (regPlan_mtrap hops hchecks)
    _ = _ := congrArg (mlrmulOf d a sh _ · s) (if_neg (not_not.mpr (regPlan_goes hops rfl)))

/-- In place, MLRMUL takes no slabs. -/
theorem mlrmulTaking_goes {r : List (List ℤ × List (ℤ × Bool))} (hgo : p.out = .go)
    (hl : (s.core s.cf).lowest (if d = a then 0 else ((s.core s.cf).factors (s.rg.rm a)).length) = some l) :
    mlrmulTaking d a sh p r s = { p with
      results := [(8 + 4 * (s.rg.rm a).rank, (if l = [] then [] else [.slabsHeld l]) ++
        mlrmulWrites d a sh r s (if d = a then (s.rg.rm a).slabs else l))]
      locW := (if d = a then (s.rg.rm a).locs else p.locW) ++ slabLocs l, eff := fun id u => (p.eff id u).takeSlabs u.cf l } := by
  unfold mlrmulTaking
  by_cases hda : d = a
  · simp only [if_pos hda] at hl ⊢
    exact mPlan_goes rfl rfl rfl hgo hl
  · simp only [if_neg hda] at hl ⊢
    exact mPlan_goes rfl rfl rfl hgo hl

theorem mlrmulOf_goes {r : List (List ℤ × List (ℤ × Bool))} (hidle : (s.core s.cf).arrayBusy = 0) (hspent : s.rampSpent = false)
    (hgo : p.out = .go) (hl : (s.core s.cf).lowest (if d = a then 0 else ((s.core s.cf).factors (s.rg.rm a)).length) = some l) :
    mlrmulOf d a sh p r s = { p with
      results := [(8 + 4 * (s.rg.rm a).rank, (if l = [] then [] else [.slabsHeld l]) ++
        mlrmulWrites d a sh r s (if d = a then (s.rg.rm a).slabs else l))]
      locW := (if d = a then (s.rg.rm a).locs else p.locW) ++ slabLocs l
      eff := fun id u => ((((p.eff id u).takeSlabs u.cf l).spillPlanes u.cf u.bf).modCore u.cf fun x =>
        { x with arrayBusy := 4 * (s.rg.rm a).rank, arrayBank := u.bf }).counted } := by
  rw [mlrmulOf, arrayPlan_goes hidle, rampPlan_goes hspent, mlrmulTaking_goes hgo hl]

/-! ### MDENSE's plan, by the kind of the name it reads -/

/-- The registers and slabs that MDENSE names. -/
def densing (d a : ℕ) (s : State) : Plan := { regPlan [(.m, a, 1)] [(.m, d, 0)] 132 [] with locR := (s.rg.rm a).locs }

theorem planMdense_empty (hk : (s.rg.rm a).kind = 0) : planMdense d a s = mPlan (densing d a s) 132 0 (fun _ => [.m d {}]) s := by
  rw [planMdense, hk]
  rfl

theorem planMdense_dense (hk : (s.rg.rm a).kind = 1) : planMdense d a s =
    if d = a then { densing d a s with locR := [] }
    else mPlan (densing d a s) 132 (s.rg.rm a).slabs.length (fun l =>
      slabWrites l ((List.range l.length).map ((s.core s.cf).pos (s.rg.rm a))) ++ [.m d { s.rg.rm a with slabs := l }]) s := by
  unfold planMdense
  dsimp only
  split
  · next h2 => cases hk.symm.trans h2
  · rfl
  · next h1 => exact absurd hk h1

theorem planMdense_lowRank (hk : (s.rg.rm a).kind = 2) : planMdense d a s =
    densePlan (densing d a s) 132 d ((s.core s.cf).factors (s.rg.rm a)) (s.rg.rm a).eg (s.rg.rm a).eh id s := by
  rw [planMdense, hk]
  rfl

/-- Settles O28. -/
theorem lowRankProducts : Obligations.LowRankProducts := by
  unfold Obligations.LowRankProducts
  intro h d a tr sh rm rr l s hd ha htr x u take hold fs
  have hops (c : ℕ) (hc : c < 64) : LegalPlan [(.m, c, 0)] [(.m, a, 1)] := by
    simp [Fam.count, ha, hc]
  have hgo : (densing d a s).out = .go := regPlan_goes (hops d hd) rfl
  refine ⟨fun hk hm hspent hidle => ?mul, fun hk hscale hl hclear => ?lowRank, fun hk hda hl hclear => ?dense,
    fun hk hclear => ?inPlace, fun hk hclear => ?empty⟩
  case mul =>
    intro m scale st r out sl hscale hl hclear
    have hrops : LegalPlan [(.m, d, 0)] ((.m, a, 1) :: rrOp tr rr) := by
      simpa [Fam.count, hd, ha] using rrOp_legal htr
    have hplan := (planMlrmul_goes hrops hk hm hscale).trans (mlrmulOf_goes hidle hspent (regPlan_goes hrops rfl) hl)
    exact run_loads hplan hclear rfl ⟨rfl, rfl, rfl, rfl, rfl, rfl, rfl, regPlan_goes hrops rfl⟩ rfl rfl
      (fun _ _ => keepArray_takeSlabs.symm) nofun
  case lowRank =>
    have hplan := (planMdense_lowRank hk).trans (mPlan_goes (mtrap_none hgo (firstTrap_none (by simpa using hscale))) rfl rfl hgo hl)
    exact run_loads hplan hclear rfl ⟨rfl, rfl, rfl, rfl, rfl, rfl, rfl, hgo⟩ rfl rfl (fun _ _ => rfl) nofun
  case dense =>
    have hplan := (planMdense_dense hk).trans ((if_neg hda).trans (mPlan_goes rfl rfl rfl hgo hl))
    exact run_loads hplan hclear rfl ⟨rfl, rfl, rfl, rfl, rfl, rfl, rfl, hgo⟩ rfl rfl (fun _ _ => rfl) nofun
  case inPlace =>
    have hplan := (planMdense_dense (d := a) hk).trans (if_pos rfl)
    exact run_loads hplan hclear rfl ⟨rfl, rfl, rfl, rfl, rfl, rfl, rfl, regPlan_goes (hops a ha) rfl⟩ rfl rfl (fun _ _ => rfl) nofun
  case empty =>
    have hplan := (planMdense_empty hk).trans (mPlan_goes rfl rfl rfl hgo (if_pos rfl))
    exact run_loads hplan hclear rfl ⟨rfl, rfl, rfl, rfl, rfl, rfl, rfl, hgo⟩ rfl rfl (fun _ _ => rfl) nofun

end Sys2Proof.Machine
end

