-- ==== Sys2Proof/Proofs/SegmentControl.lean ====
section
/-!
The control syllables (O6). Each names no operand, so that one that is clear has its plan's effect alone (`run_effect`); a header
enters its segment, whose bank is `State.enterSegment_bankAt`.
-/

-- As in MemoryCanonical.
set_option Elab.async false

namespace Sys2Proof.Machine

open Sys2Proof

variable {s : State} {h : Hdr} {o : SegHdr} {lat : ℕ} {plan : State → Plan} {f : State → State}
  {c b : ℕ}

/-- A clear syllable that names no operand has its plan's effect alone. -/
theorem run_effect (hc : s.clear h (foot [] [])) (hplan : plan s = { eff := fun _ => f }) :
    Sends (runSyllable h lat plan s) s h [] f :=
  run_plan hc _ rfl rfl hplan ⟨rfl, rfl, rfl, rfl, rfl, rfl, rfl, rfl⟩ rfl

theorem runPlaced_inside {ok : Bool} {cause : ℕ} (hok : ok = true) :
    runPlaced ok cause h lat plan s = runSyllable h lat plan s := if_pos hok

/-- Where the captures meet no fault, the effect comes after them. -/
theorem capturePlan_noFault {v : State} (hcap : s.captureAll s.cf s.bf = .ok v) :
    capturePlan f s = { eff := fun _ u => f u.captured } := by
  simp only [capturePlan, hcap, State.captured]
  congr
  funext _ u
  cases u.captureAll u.cf u.bf <;> rfl

theorem planPhase_legal {scope : ℕ} {y : Bool} (hs : scope < 8) :
    planPhase scope y s = capturePlan (·.release (.phase scope y)) s :=
  if_neg fun h => absurd h.1 (by omega)

theorem planRdv_met (hmet : s.gangMet s.bk.group (Tab.get 0 s.bk.task.rdvs s.bk.group + 1) = true) :
    planRdv s = { eff := fun _ u => u.modBk fun z => { z with task := { z.task with
      rdvs := Tab.set 0 z.task.rdvs s.bk.group (Tab.get 0 s.bk.task.rdvs s.bk.group + 1), rdvAt := none } } } := if_pos hmet

/-- A header where one is expected, whose segment has a body or a successor that begins with a header, enters its segment. -/
theorem execSegh_enters (hseg : s.bk.seg = none)
    (hnext : o.len ≠ 0 ∨ s.seghAt s.cf s.bf (wrapN 48 ((s.bk.pc : Int) + sext22 o.next)) = true) :
    execSegh h o s = .next ((s.enterSegment s.cf s.bf o).mark .went) := by
  have hok : ¬(o.len = 0 ∧ ¬s.seghAt s.cf s.bf (wrapN 48 ((s.bk.pc : Int) + sext22 o.next)) = true) := by tauto
  rw [execSegh, if_neg (by simp [hseg])]
  exact if_neg hok

theorem State.captureEntry_bankAt : ∃ e : Entry, e.pc = (s.bankAt c b).pc ∧ e.regs = (s.bankAt c b).regs ∧
    e.clk = (s.bankAt c b).pipe.clk ∧ (s.captureEntry c b).bankAt c b = { s.bankAt c b with pipe := { (s.bankAt c b).pipe with
      locR := [], locW := [], journal := [], early := [], unrewindable := false, entry := some e } } :=
  ⟨_, rfl, rfl, rfl, State.bankAt_modBank ..⟩

/-- The bank of a header that has issued: in its segment, with the rewind point that the bank was at. -/
theorem State.enterSegment_bankAt : ∃ e : Entry, e.pc = (s.bankAt c b).pc ∧ e.regs = (s.bankAt c b).regs ∧
    e.clk = (s.bankAt c b).pipe.clk ∧ (s.enterSegment c b o).bankAt c b = { s.bankAt c b with
      seg := some { addr := (s.bankAt c b).pc, hdr := o, idx := 0 },
      pipe := { (s.bankAt c b).pipe with
        segNo := (s.bankAt c b).pipe.segNo + 1, locR := [], locW := [], journal := [], early := [], unrewindable := false
        entry := some e } } := by
  let s1 := s.modBank c b fun y =>
    { y with seg := some { addr := y.pc, hdr := o, idx := 0 }, pipe := { y.pipe with segNo := y.pipe.segNo + 1 } }
  have hs1 : s1.bankAt c b = _ := State.bankAt_modBank ..
  obtain ⟨e, hpc, hregs, hclk, he⟩ := State.captureEntry_bankAt (s := s1) (c := c) (b := b)
  rw [hs1] at hpc hregs hclk he
  refine ⟨{ e with seg := none }, hpc, hregs, hclk, ?_⟩
  rw [State.enterSegment, State.bankAt_modBank, State.bankAt_modCore (by exact fun _ => rfl), he]
  rfl

theorem State.enterSegment_issuer : (s.enterSegment c b o).issuer = s.issuer := by
  rw [State.enterSegment, modBank_issuer, modCore_issuer (by exact fun _ => rfl), State.captureEntry, modBank_issuer, modBank_issuer]

theorem State.enterSegment_bk : (s.enterSegment s.cf s.bf o).bk = (s.enterSegment s.cf s.bf o).bankAt s.cf s.bf := by
  rw [State.bk, cf_of_issuer State.enterSegment_issuer, bf_of_issuer State.enterSegment_issuer, State.bankAt]

theorem State.enterSegment_mem : (s.enterSegment c b o).mem = s.mem := by
  rw [State.enterSegment, State.modBank_mem, State.modCore_mem, State.captureEntry, State.modBank_mem, State.modBank_mem]

/-- Settles O6: a control syllable that is clear has its plan's effect alone, and a header enters its segment. -/
theorem segmentControlResults : Obligations.SegmentControlResults := by
  unfold Obligations.SegmentControlResults
  refine ⟨fun h scope y code s hclear => ⟨fun hsegh => ?yield, fun ⟨v, hcap⟩ => ⟨?finish, fun hlast hscope => ?phase⟩, ?trap,
    fun hmonitor => ?eret, fun hgroup hmet => ?rdv⟩, fun h o s hseg hnext => ?header⟩
  case yield => exact run_effect hclear (if_pos hsegh)
  case finish => exact run_effect hclear (capturePlan_noFault hcap)
  case phase =>
    rw [show exec (.phase h scope y) s = _ from runPlaced_inside hlast]
    exact run_effect hclear ((planPhase_legal hscope).trans (capturePlan_noFault hcap))
  case trap => exact run_effect (plan := planTrapInstr h.slot code) hclear rfl
  case eret => exact run_effect hclear (if_pos hmonitor)
  case rdv =>
    rw [show exec (.rdv h) s = _ from runPlaced_inside (by simpa using hgroup)]
    exact run_effect hclear (planRdv_met hmet)
  case header =>
    obtain ⟨e, hpc, hregs, hclk, he⟩ := State.enterSegment_bankAt (s := s) (c := s.cf) (b := s.bf) (o := o)
    refine ⟨_, execSegh_enters hseg hnext, ?_⟩
    beta_reduce
    rw [State.mark, State.modBk_bk, State.modBk_mem, State.enterSegment_bk, State.enterSegment_mem, he]
    refine ⟨rfl, rfl, rfl, rfl, rfl, rfl, ?_, rfl⟩
    simp [Bank.modCtx, Bank.modPipe, hpc, hregs, hclk, State.bankAt, State.bk]

end Sys2Proof.Machine
end

