-- ==== Sys2Proof/Proofs/RoundTrip.lean ====
section
/-!
Decoding the encoding of an instruction gives it back (O57). A number that holds fields which fit gives them back
(`Laws.Words.unpack_pack`); so the decoder meets the header and the operand fields that the encoder packed
(`readsBack_syllable`, `readsBack_lystil`), and what is left of each instruction is that its entry of the opcode tables reads its
fields.
-/

-- As in MemoryCanonical.
set_option Elab.async false

namespace Sys2Proof

open Laws
open Laws.Words (Statement fit_cons bit_lt packFields_lt unpack_pack)
open Bool (and_elim_left)

variable {i j : Instr} {op m n d a r pos lenm1 step bound scope eg eh base size opb opc : ℕ} {fmt : Fmt} {h : Hdr}
  {f w mw ms : List ℕ} {build : Build} {p x y z q b c e : Bool} {o : VecOps} {uses : List VecField} {disp : BitVec 48}

/-! ### Fields -/

@[simp] theorem bit_beq_one : (bit x == 1) = x := by cases x <;> rfl

/-- `bit_lt` in the form that `simp` gives a field's bound. -/
@[simp] theorem bit_le_one : bit x ≤ 1 := Nat.le_of_lt_succ (bit_lt x)

@[simp] theorem bit_eq_one : bit x = 1 ↔ x = true := by cases x <;> decide

@[simp] theorem bit_eq_zero : bit x = 0 ↔ x = false := by cases x <;> decide

theorem topHdr_topFields : topHdr (topFields op h) = h := by
  show Hdr.mk .. = h
  simp

theorem vecOps_vecFields : vecOps (vecFields o) = o := by
  show VecOps.mk .. = o
  simp

theorem widths_sum : fmt.widths.sum = 94 := by cases fmt <;> rfl

theorem operands_lt : packFields fmt.widths f < 2 ^ 94 := widths_sum (fmt := fmt) ▸ packFields_lt _ _

/-- The operand fields of a syllable are its bits 0 to 93, its header the bits above (R72). -/
theorem syllable_low : (packFields fmt.widths f + 2 ^ 94 * n) % 2 ^ 94 = packFields fmt.widths f := by
  rw [Nat.add_mul_mod_self_left, Nat.mod_eq_of_lt operands_lt]

theorem syllable_high : (packFields fmt.widths f + 2 ^ 94 * n) / 2 ^ 94 = n := by
  rw [Nat.add_mul_div_left _ _ (Nat.two_pow_pos 94), Nat.div_eq_of_lt operands_lt, Nat.zero_add]

theorem unpackFields_append : unpackFields (w ++ mw) n = unpackFields w n ++ unpackFields mw (n / 2 ^ w.sum) := by
  induction w generalizing n with
  | nil => simp [unpackFields]
  | cons k w ih => simp [unpackFields, ih, Nat.div_div_eq_div_mul, Nat.pow_add]

/-- The opcode of a schedule word is its last field, bits 59 to 63 (R316). -/
theorem lystilWidths_opcode : (lystilWidths op).dropLast ++ [5] = lystilWidths op ∧ (lystilWidths op).dropLast.sum = 59 := by
  unfold lystilWidths
  split <;> exact ⟨rfl, rfl⟩

theorem lystilWidths_sum : (lystilWidths op).sum = 64 := by
  unfold lystilWidths
  split <;> rfl

theorem unpackFields_opcode : (unpackFields (lystilWidths op) n).getLastD 0 = n / 2 ^ 59 % 32 := by
  obtain ⟨hlast, hsum⟩ := lystilWidths_opcode (op := op)
  rw [← hlast, unpackFields_append, hsum]
  simp [unpackFields]

/-! ### What a well-formed instruction keeps to -/

/-- The operands of every well-formed instruction fit the fields of its words: the laws of `Laws.Words`, one per constructor. -/
theorem words_fit (i : Instr) : Statement i :=
  i.casesOn
    Words.add Words.sub Words.addi Words.mul Words.mulh Words.mulhu Words.div Words.divu Words.rem Words.remu Words.and_
    Words.or_ Words.xor_ Words.andn Words.shl Words.shr Words.sra Words.rotr Words.clz Words.cls Words.ctz Words.popc
    Words.min_ Words.max_ Words.minu Words.maxu Words.sel Words.cmp Words.pand Words.por Words.pxor Words.pnot Words.movi
    Words.bfx Words.bfi Words.sext Words.zext Words.amov Words.aadd Words.aaddi Words.awrap Words.aidx Words.widf Words.segh
    Words.nop Words.br Words.brc Words.call Words.ret Words.loopn Words.yield Words.end_ Words.trap Words.eret Words.rdv
    Words.phase Words.getc Words.setc Words.getcx Words.slabq Words.muinv Words.seed Words.rampq Words.vadd Words.vsub
    Words.vadds Words.vsubs Words.vmul Words.vmulh Words.vmuls Words.vmac Words.vdot4 Words.vand Words.vor Words.vxor
    Words.vandn Words.vshl Words.vshr Words.vsra Words.vshrd Words.vshrdCensus Words.vmin Words.vmax Words.vabs Words.vneg
    Words.vcmp Words.vsel Words.vclz Words.vcls Words.vpopc Words.vcnv Words.vpack Words.vunpk Words.vperm Words.vbcst
    Words.vslide Words.vredadd Words.vredmax Words.vredmin Words.vscan Words.vmov Words.vins Words.vext Words.viota Words.qand
    Words.qor Words.qxor Words.qnot Words.qpopc Words.qset Words.xexp2 Words.xrcp Words.xrsq Words.xlog2 Words.xsigm
    Words.xtanh Words.xlut Words.xlutld Words.xoptm Words.xopta Words.lds Words.sts Words.ldv Words.stv Words.ldvg Words.stvs
    Words.ldvp Words.ldg Words.stg Words.amo Words.tld Words.tst Words.park Words.unpark Words.rmap Words.runmap Words.rfill
    Words.rflush Words.rinv Words.push Words.pushq Words.mldw Words.mswap Words.mma Words.mmav Words.mzero Words.cshd
    Words.cadd Words.crdv Words.cwrv Words.mld Words.mst Words.mldf Words.mstf Words.mlru Words.mlradd Words.mlrmul
    Words.mrecomp Words.mdense Words.mqry Words.mfree Words.mget Words.mput Words.send Words.recv Words.recvr Words.lystilCopy
    Words.red Words.lystilWait Words.sigAdd Words.sigRadd Words.sigSrc Words.sigLoc Words.sigAll Words.sigSet Words.twait
    Words.tfire Words.setkAddr Words.setkAddrAdd Words.setkAddrArg Words.setkRlen Words.setkNrow Words.setkRstr
    Words.lystilLoop Words.bnz Words.gjoin Words.gfree Words.lystilEnd Words.lystilBadop Words.xlutComplete
    Words.xlutTableActivate Words.ldgComplete Words.amoComplete Words.tldGlobalArrival Words.mrecompComplete Words.resultWrite
    Words.segmentCommit Words.segmentFetch Words.addressStreamRun Words.trapEntry Words.latchDelivery Words.segmentRewind
    Words.localReplay Words.bankSwitch Words.fltAnsRetry Words.fltAnsEnd Words.preemption Words.contextResume
    Words.lazyWriteout Words.blockedBankSave Words.timeSliceEnd Words.priorityAging Words.watchdog Words.rendezvousTimeout
    Words.chainTimeout Words.phaseComplete Words.rampWindow Words.taskAdmit Words.ramblerPlace Words.ramblerLaunchAccept
    Words.launchComplete Words.feLaunch Words.feSched Words.feWaitev Words.feSigev Words.haltqDrain Words.haltqKill
    Words.feBadEntry Words.fillLands Words.writebackAck Words.directAccessPerform Words.coreWindowAccess Words.sweepStep
    Words.migTailWrite Words.migrationMoveStart Words.migrationBadCommand Words.migrationDrainDone Words.migrationCommit
    Words.migrationLost Words.migrationFail Words.scrubPass Words.copyJob Words.convertJob Words.gatherJob Words.scatterJob
    Words.fillJob Words.decodeJob Words.decodeBlockDeliver Words.xformJob Words.xfIneedWrite Words.xfIfreeWrite
    Words.xfOmarkWrite Words.xfDoneWrite Words.xformTimeout Words.chainJob Words.chainCommandEntry Words.chainLoop
    Words.chainCond Words.chainEnd Words.followOnMldw Words.followOnMma Words.jobComplete Words.jobPageFault
    Words.routineLoadStart Words.routineLoadComplete Words.scheduleStart Words.transferMatch Words.operationMilestone
    Words.counterStep Words.packetArrival Words.remoteAddArrival Words.tileFireLanded Words.failureMarkerArrival Words.cleKill
    Words.flitReceive Words.goBack Words.replayTimeout Words.lossOfLight Words.lossDetected Words.restripeAck
    Words.retrainStart Words.retrainEnd Words.linkCtlRetrain Words.slotBaseWrite Words.slotTableLoad Words.memorySlot
    Words.remoteWritePacket Words.remoteWriteAck Words.circuitConnect Words.queueTailWrite Words.hostWindowAccess Words.setq
    Words.startq Words.stopq Words.status Words.attest Words.loadfw Words.resetWarm Words.resetCold Words.mailboxBadCommand
    Words.coldStart Words.warmStart Words.startFailure Words.telemetrySample Words.powerCapExceeded Words.dieOvertemp
    Words.einjArm Words.elogCntClear Words.rampStepWrite Words.controlRegisterWrite Words.heartbeat Words.microcoreException

theorem lt_of_and (hw : (p && decide (m < n)) = true) : m < n := of_decide_eq_true (Bool.and_elim_right hw)

/-! `and_leftₙ` is the first of `n + 1` conditions: a well-formed syllable's is that its header stands in a slot of its class. -/

theorem and_left₂ (hw : (p && x && y) = true) : p = true := and_elim_left (and_elim_left hw)

theorem and_left₃ (hw : (p && x && y && z) = true) : p = true := and_left₂ (and_elim_left hw)

theorem and_left₄ (hw : (p && x && y && z && q) = true) : p = true := and_left₃ (and_elim_left hw)

theorem and_left₅ (hw : (p && x && y && z && q && b) = true) : p = true := and_left₄ (and_elim_left hw)

theorem and_left₆ (hw : (p && x && y && z && q && b && c) = true) : p = true := and_left₅ (and_elim_left hw)

theorem and_left₇ (hw : (p && x && y && z && q && b && c && e) = true) : p = true := and_left₆ (and_elim_left hw)

theorem okIn_slot {l : List ℕ} (hok : h.okIn l = true) : l.contains h.slot = true :=
  and_left₅ hok

theorem okIn_sbset {l : List ℕ} (hok : h.okIn l = true) : h.sbset < 7 := lt_of_and (and_left₂ hok)

/-! ### From the table entry to the words -/

/-- The decoder reads the instruction from the words of its encoding. -/
def ReadsBack (i : Instr) : Prop :=
  WellFormed i = true → reservedOk i = true →
    (∀ op fmt h f, rawOf i = some (.syllable op fmt h f) →
      (encodeNat i).1 = 128 ∧ (encodeNat i).2 < 2 ^ 128 ∧ decodeSyllableNat (encodeNat i).2 = .ok i) ∧
    (∀ w f, rawOf i = some (.lystil w f) →
      (encodeNat i).1 = 64 ∧ (encodeNat i).2 < 2 ^ 64 ∧ decodeLystil (BitVec.ofNat 64 (encodeNat i).2) = i)

theorem readsBack_event (hraw : rawOf i = none) : ReadsBack i := by
  rw [ReadsBack, hraw]
  refine fun _ _ => ⟨fun _ _ _ _ hsyllable => ?_, fun _ _ hword => ?_⟩
  · cases hsyllable
  · cases hword

/-- A syllable in a slot of its class is what its opcode's entry reads from its fields. -/
theorem decodeSyllableNat_pack (hfields : fieldsFit fmt.widths f = true)
    (htop : fieldsFit topWidths (topFields op h) = true) (hok : h.okIn (slotsOf op) = true)
    (hinfo : opInfo op = some (fmt, build)) (hbuild : build h f = some i) :
    decodeSyllableNat (packFields fmt.widths f + 2 ^ 94 * packFields topWidths (topFields op h)) = .ok i := by
  have hopcode : (topFields op h).headD 0 = op := rfl
  have hsbset : ¬h.sbset = 7 := (okIn_sbset hok).ne
  simp only [decodeSyllableNat, syllable_high, syllable_low, unpack_pack _ _ hfields, unpack_pack _ _ htop, topHdr_topFields,
    hopcode, hinfo, hbuild, if_neg hsbset, if_pos (okIn_slot hok)]

theorem readsBack_syllable (hraw : rawOf i = some (.syllable op fmt h f))
    (hinfo : opInfo op = some (fmt, build)) (hslot : WellFormed i = true → h.okIn (slotsOf op) = true)
    (hbuild : WellFormed i = true → reservedOk i = true → build h f = some i) : ReadsBack i := by
  intro hw hres
  have hfits := words_fit i hw
  rw [hraw] at hfits
  obtain ⟨-, hfields, htop⟩ := hfits
  have hlt : packFields fmt.widths f + 2 ^ 94 * packFields topWidths (topFields op h) < 2 ^ 128 := by
    have hoperands := operands_lt (fmt := fmt) (f := f)
    have hheader : packFields topWidths (topFields op h) < 2 ^ 34 := packFields_lt topWidths _
    omega
  rw [encodeNat, hraw]
  refine ⟨fun _ _ _ _ _ => ⟨rfl, hlt, ?_⟩, fun _ _ hword => ?_⟩
  · exact decodeSyllableNat_pack hfields htop (hslot hw) hinfo (hbuild hw hres)
  · cases hword

/-- A schedule word, whose last field is its opcode, is what the decoder's line for its opcode and fields reads. -/
theorem readsBack_lystil (hraw : rawOf i = some (.lystil w f)) (hwidths : lystilWidths (f.getLastD 0) = w)
    (hread : WellFormed i = true → reservedOk i = true → ∀ n, n / 2 ^ 59 % 32 = f.getLastD 0 →
      unpackFields (lystilWidths (f.getLastD 0)) n = f → decodeLystilLegal n = some i) : ReadsBack i := by
  subst hwidths
  intro hw hres
  have hfits := words_fit i hw
  rw [hraw] at hfits
  have hunpack := unpack_pack _ _ hfits
  have hlt : packFields (lystilWidths (f.getLastD 0)) f < 2 ^ 64 := lystilWidths_sum (op := f.getLastD 0) ▸ packFields_lt _ _
  have hopcode := unpackFields_opcode (op := f.getLastD 0) (n := packFields (lystilWidths (f.getLastD 0)) f)
  rw [hunpack] at hopcode
  have hlegal := hread hw hres _ hopcode.symm hunpack
  rw [encodeNat, hraw]
  refine ⟨fun _ _ _ _ hsyllable => ?_, fun _ _ _ => ⟨rfl, hlt, ?_⟩⟩
  · cases hsyllable
  · rw [decodeLystil, BitVec.toNat_ofNat, Nat.mod_eq_of_lt hlt, hlegal, Option.getD_some]

/-- A word that no line reads stays the word it is. -/
theorem readsBack_badop {v : BitVec 64} : ReadsBack (.lystilBadop v) := by
  intro _ hres
  have hillegal : decodeLystilLegal v.toNat = none := eq_of_beq hres
  have hword : (encodeNat (.lystilBadop v)).2 = v.toNat := Nat.mod_eq_of_lt v.isLt
  refine ⟨fun _ _ _ _ hsyllable => ?_, fun _ _ _ => ⟨rfl, hword ▸ v.isLt, ?_⟩⟩
  · cases hsyllable
  · rw [hword, BitVec.ofNat_toNat, BitVec.setWidth_eq, decodeLystil, hillegal, Option.getD_none]

/-! ### What the entries read -/

theorem read_of_eq {read : Option Instr} (hread : read = some j) (hj : j = i) : read = some i := hj ▸ hread

theorem ofNat_read (mk : BitVec n → Instr) (v : BitVec n) : some (mk (BitVec.ofNat n v.toNat)) = some (mk v) := by
  rw [BitVec.ofNat_toNat, BitVec.setWidth_eq]

theorem bit_read (mk : Bool → Instr) (x : Bool) : some (mk (bit x == 1)) = some (mk x) := by rw [bit_beq_one]

theorem rrrW_read {mk : Hdr → ℕ → ℕ → Bool → Instr} : rrrW mk h [0, bit x, 0, 0, 0, a, d] = some (mk h d a x) := by
  cases x <;> rfl

theorem memRegion_read {mk : Hdr → ℕ → ℕ → BitVec 48 → ℕ → Instr} :
    memRegion mk h [disp.toNat, 0, 0, opc, 0, base, r] = some (mk h r base disp opc) :=
  ofNat_read (mk h r base · opc) disp

/-- MOD of a memory syllable holds fields of its own. -/
theorem readsBack_memA {mk : Hdr → ℕ → ℕ → BitVec 48 → List ℕ → Option Instr}
    (hraw : rawOf i = rawMem op h r base disp.toNat 0 0 (packFields mw ms)) (hinfo : opInfo op = some (.mem, memA mw mk))
    (hslot : WellFormed i = true → h.okIn (slotsOf op) = true)
    (hmod : WellFormed i = true → fieldsFit mw ms = true) (hread : reservedOk i = true → mk h r base disp ms = some i) :
    ReadsBack i :=
  readsBack_syllable hraw hinfo hslot fun hw hres => by
    show mk h r base (BitVec.ofNat 48 disp.toNat) (unpackFields mw (packFields mw ms)) = some i
    rw [BitVec.ofNat_toNat, BitVec.setWidth_eq, unpack_pack _ _ (hmod hw), hread hres]

theorem readsBack_memBC {mk : Hdr → ℕ → ℕ → BitVec 48 → ℕ → ℕ → List ℕ → Option Instr}
    (hraw : rawOf i = rawMem op h r base disp.toNat opb opc (packFields mw ms)) (hinfo : opInfo op = some (.mem, memBC mw mk))
    (hslot : WellFormed i = true → h.okIn (slotsOf op) = true)
    (hmod : WellFormed i = true → fieldsFit mw ms = true)
    (hread : reservedOk i = true → mk h r base disp opb opc ms = some i) : ReadsBack i :=
  readsBack_syllable hraw hinfo hslot fun hw hres => by
    show mk h r base (BitVec.ofNat 48 disp.toNat) opb opc (unpackFields mw (packFields mw ms)) = some i
    rw [BitVec.ofNat_toNat, BitVec.setWidth_eq, unpack_pack _ _ (hmod hw), hread hres]

/-! #### Vector syllables -/

theorem opInfo_vec {e : (Hdr → VecOps → Instr) × List VecField} (hentry : vecTable.lookup op = some e) :
    opInfo op = some (.vec, buildVec op) := by
  have hsegh : op ≠ 0x40 := by rintro rfl; cases hentry
  rw [opInfo, if_neg hsegh, if_pos (.inl (by rw [hentry]; rfl))]

theorem buildVec_entry {mk : Hdr → VecOps → Instr} (hentry : vecTable.lookup op = some (mk, uses))
    (hres : vecReservedOk uses o = true) : buildVec op h (vecFields o) = some (mk h o) := by
  have hshift : op ≠ 0x70 := by rintro rfl; cases hentry
  simp only [buildVec, vecOps_vecFields, if_neg hshift, hentry, if_pos hres]

/-- A vector opcode's row of the table has its instruction and the fields that it uses. -/
theorem readsBack_vec {mk : Hdr → VecOps → Instr} (hraw : rawOf (mk h o) = rawVec op h o)
    (hentry : vecTable.lookup op = some (mk, uses))
    (hslot : WellFormed (mk h o) = true → h.okIn (slotsOf op) = true)
    (hused : reservedOk (mk h o) = vecReservedOk uses (vecOps (vecFields o))) : ReadsBack (mk h o) := by
  rw [vecOps_vecFields] at hused
  exact readsBack_syllable hraw (opInfo_vec hentry) hslot fun _ hres => buildVec_entry hentry (hused ▸ hres)

theorem vshrd_read (hres : (o.smode != 2 && vshrdReservedOk o) = true) :
    buildVec 0x70 h (vecFields o) = some (.vshrd h o) := by
  obtain ⟨hmode, hok⟩ := Bool.and_eq_true_iff.mp hres
  have hne : ¬o.smode = 2 := by simpa using hmode
  simp only [buildVec, vecOps_vecFields, if_pos, if_neg hne, hok]

theorem vshrdCensus_read (hres : (o.smode == 2 && vshrdCensusReservedOk o) = true) :
    buildVec 0x70 h (vecFields o) = some (.vshrdCensus h o) := by
  obtain ⟨hmode, hok⟩ := Bool.and_eq_true_iff.mp hres
  simp only [buildVec, vecOps_vecFields, if_pos, eq_of_beq hmode, hok]

/-! #### Entries with a condition, or with fields of their own in a field -/

theorem posLen_unpack (hpos : pos < 64) (hlen : lenm1 < 64) :
    unpackFields posLenWidths (packFields posLenWidths [pos, 0, lenm1, 0]) = [pos, 0, lenm1, 0] :=
  unpack_pack _ _ (fit_cons hpos (fit_cons (by decide) (fit_cons hlen rfl)))

theorem awrap_read (hbound : bound < 2 ^ 24) :
    some (Instr.awrap h d a ((bound + 2 ^ 24 * step) / 2 ^ 24) ((bound + 2 ^ 24 * step) % 2 ^ 24)) =
      some (.awrap h d a step bound) := by
  rw [Nat.add_mul_div_left _ _ (Nat.two_pow_pos 24), Nat.add_mul_mod_self_left, Nat.div_eq_of_lt hbound, Nat.mod_eq_of_lt hbound,
    Nat.zero_add]

theorem phase_read (hscope : scope < 16) : (if scope + 16 * bit y < 32 then
    some (Instr.phase h ((scope + 16 * bit y) % 16) ((scope + 16 * bit y) / 16 == 1)) else none) = some (.phase h scope y) := by
  rw [if_pos (Nat.add_lt_add_of_lt_of_le hscope (Nat.mul_le_mul_left 16 bit_le_one)), Nat.add_mul_mod_self_left,
    Nat.mod_eq_of_lt hscope, Nat.add_mul_div_left _ _ (by decide), Nat.div_eq_of_lt hscope, Nat.zero_add, bit_beq_one]

theorem strideMask_ok (hres : ((x || opb == 0) && (y || opc == 0)) = true) :
    (bit x = 1 ∨ opb = 0) ∧ (bit y = 1 ∨ opc = 0) := by
  simpa using hres

theorem mask_ok (hres : (y || opc == 0) = true) : bit y = 1 ∨ opc = 0 := by simpa using hres

theorem ldg_ok (hres : (!x || (size == 0 && !y)) = true) : ¬(bit x = 1 ∧ (size ≠ 0 ∨ bit y ≠ 0)) := by
  cases x <;> simp_all

theorem stg_ok (hres : (!x || size == 0) = true) : ¬(bit x = 1 ∧ size ≠ 0) := by
  cases x <;> simp_all

theorem amo_ok (hres : (!x || op == 2 || op == 3) = true) : ¬(bit x = 1 ∧ op ≠ 2 ∧ op ≠ 3) := by
  cases x <;> simp_all; omega

theorem mlru_unpack (heg : eg < 256) (heh : eh < 256) :
    unpackFields [8, 8, 7] (packFields [8, 8, 7] [eg, eh, 0]) = [eg, eh, 0] :=
  unpack_pack _ _ (fit_cons heg (fit_cons heh rfl))

/-- A header of its own fields alone, whose LIVE fields differ (R80). -/
theorem segh_read {o : SegHdr} (hres : reservedOk (.segh h o) = true) : buildSegh h
    [0, bit o.ext, o.rdvg, o.live5, o.live4, o.live3, o.live2, o.live1, o.live0, o.brp.toNat, o.next.toNat, o.len] =
      some (.segh h o) := by
  have hok : (!h.asMark && h.stall == 0 && h.wait == 0 && h.sbset == 0 && h.reuse == 0 && !h.pneg && h.pnum == 0 &&
    liveDistinct [o.live0, o.live1, o.live2, o.live3, o.live4, o.live5]) = true := hres
  have hzero : h.asMark = false ∧ h.stall = 0 ∧ h.wait = 0 ∧ h.sbset = 0 ∧ h.reuse = 0 ∧ h.pneg = false ∧ h.pnum = 0 ∧
      liveDistinct [o.live0, o.live1, o.live2, o.live3, o.live4, o.live5] = true := by
    simpa [and_assoc] using hok
  exact (if_pos hzero).trans (read_of_eq rfl (by simp))

/-- Every instruction, by what its entry does beyond naming its fields: nothing, read an immediate or a flag, bound a field, take a
field apart, check that reserved fields are 0. Each case is a lemma of its own to the kernel, which then holds what it unfolds of
the tables for one instruction at a time. -/
theorem readsBack (i : Instr) : ReadsBack i := by
  induction i with
  | nop | yield | end_ | eret | rdv | mswap => as_aux_lemma =>
    exact readsBack_syllable rfl rfl id fun _ _ => rfl
  | ret | rampq | unpark | runmap | mldw | mzero => as_aux_lemma =>
    exact readsBack_syllable rfl rfl and_elim_left fun _ _ => rfl
  | pnot | getc | setc | getcx | mrecomp | mdense => as_aux_lemma =>
    exact readsBack_syllable rfl rfl and_left₂ fun _ _ => rfl
  | add | sub | mul | mulh | mulhu | div | divu | rem | remu | and_ | or_ | xor_ | andn | shl | shr | sra | rotr | min_ |
    max_ | minu | maxu | pand | por | pxor | aadd | cadd | mstf => as_aux_lemma =>
    exact readsBack_syllable rfl rfl and_left₃ fun _ _ => rfl
  | sel | crdv | mst | mput => as_aux_lemma =>
    exact readsBack_syllable rfl rfl and_left₄ fun _ _ => rfl
  | mld => as_aux_lemma =>
    exact readsBack_syllable rfl rfl and_left₅ fun _ _ => rfl
  | cshd => as_aux_lemma =>
    exact readsBack_syllable rfl rfl and_left₇ fun _ _ => rfl
  | clz | cls | ctz | popc => as_aux_lemma =>
    exact readsBack_syllable rfl rfl and_left₂ fun _ _ => rrrW_read
  | br | trap => as_aux_lemma =>
    exact readsBack_syllable rfl rfl id fun _ _ => ofNat_read _ _
  | movi | call | loopn | seed | xlutld => as_aux_lemma =>
    exact readsBack_syllable rfl rfl and_elim_left fun _ _ => ofNat_read _ _
  | addi | aaddi => as_aux_lemma =>
    exact readsBack_syllable rfl rfl and_left₂ fun _ _ => ofNat_read _ _
  | brc => as_aux_lemma =>
    exact readsBack_syllable rfl rfl and_left₃ fun _ _ => ofNat_read _ _
  | rfill | rflush | rinv => as_aux_lemma =>
    exact readsBack_syllable rfl rfl and_left₃ fun _ _ => memRegion_read
  | slabq | muinv | ldvp | widf => as_aux_lemma =>
    exact readsBack_syllable rfl rfl and_left₂ fun hw _ => if_pos (lt_of_and hw)
  | amov | sext | zext => as_aux_lemma =>
    exact readsBack_syllable rfl rfl and_left₃ fun hw _ => if_pos (lt_of_and hw)
  | cmp | push | pushq => as_aux_lemma =>
    exact readsBack_syllable rfl rfl and_left₄ fun hw _ => if_pos (lt_of_and hw)
  | mlradd => as_aux_lemma =>
    exact readsBack_syllable rfl rfl and_left₃ fun _ _ => read_of_eq rfl (by simp)
  | mldf => as_aux_lemma =>
    exact readsBack_syllable rfl rfl and_left₆ fun _ _ => read_of_eq rfl (by simp)
  | park | mfree => as_aux_lemma =>
    exact readsBack_syllable rfl rfl and_elim_left fun _ _ => (if_pos (bit_lt _)).trans (read_of_eq rfl (by simp))
  | mqry => as_aux_lemma =>
    exact readsBack_syllable rfl rfl and_left₃ fun _ _ => (if_pos (bit_lt _)).trans (read_of_eq rfl (by simp))
  | cwrv => as_aux_lemma =>
    exact readsBack_syllable rfl rfl and_left₄ fun _ _ => (if_pos (bit_lt _)).trans (read_of_eq rfl (by simp))
  | mmav => as_aux_lemma =>
    exact readsBack_syllable rfl rfl and_left₅ fun _ _ => (if_pos (bit_lt _)).trans (read_of_eq rfl (by simp))
  | mma => as_aux_lemma =>
    exact readsBack_syllable rfl rfl and_left₆ fun _ _ => (if_pos (bit_lt _)).trans (read_of_eq rfl (by simp))
  | bfx => as_aux_lemma =>
    exact readsBack_syllable rfl rfl and_left₄ fun hw _ => by
      conv_lhs => whnf
      rw [posLen_unpack (lt_of_and (and_elim_left hw)) (lt_of_and hw)]
      exact (if_pos (bit_lt _)).trans (read_of_eq rfl (by simp))
  | bfi => as_aux_lemma =>
    exact readsBack_syllable rfl rfl and_left₄ fun hw _ => by
      conv_lhs => whnf
      rw [posLen_unpack (lt_of_and (and_elim_left hw)) (lt_of_and hw)]
      rfl
  | awrap => as_aux_lemma =>
    exact readsBack_syllable rfl rfl and_left₄ fun hw _ => awrap_read (lt_of_and hw)
  | aidx => as_aux_lemma =>
    exact readsBack_syllable rfl rfl and_left₂ fun _ hres => (if_pos (eq_of_beq hres)).trans (ofNat_read _ _)
  | segh => as_aux_lemma =>
    exact readsBack_syllable rfl rfl and_elim_left fun _ hres => segh_read hres
  | phase => as_aux_lemma =>
    exact readsBack_syllable rfl rfl and_elim_left fun hw _ => phase_read (lt_of_and hw)
  | vadd | vsub | vadds | vsubs | vmul | vmulh | vmuls | vmac | vdot4 | vand | vor | vxor | vandn | vshl | vshr | vsra |
    vmin | vmax | vabs | vneg | vcmp | vsel | vclz | vcls | vpopc | vcnv | vpack | vunpk | vperm | vbcst | vslide | vredadd
    | vredmax | vredmin | vscan | vmov | vins | vext | viota | qand | qor | qxor | qnot | qpopc | qset | xexp2 | xrcp | xrsq
    | xlog2 | xsigm | xtanh | xlut | xoptm | xopta => as_aux_lemma =>
    exact readsBack_vec rfl rfl and_elim_left rfl
  | vshrd => as_aux_lemma =>
    exact readsBack_syllable rfl rfl and_elim_left fun _ hres => vshrd_read hres
  | vshrdCensus => as_aux_lemma =>
    exact readsBack_syllable rfl rfl and_elim_left fun _ hres => vshrdCensus_read hres
  | lds | sts => as_aux_lemma =>
    exact readsBack_memA rfl rfl and_left₃ (fun hw => by simp [fieldsFit, lt_of_and hw]) fun _ => read_of_eq rfl (by simp)
  | tld => as_aux_lemma =>
    exact readsBack_memA rfl rfl and_left₂ (fun _ => by simp [fieldsFit]) fun _ => read_of_eq rfl (by simp)
  | tst => as_aux_lemma =>
    exact readsBack_memA (mw := [16]) (ms := [0]) rfl rfl and_left₂ (fun _ => rfl) fun _ => rfl
  | ldg => as_aux_lemma =>
    exact readsBack_memA rfl rfl and_left₃ (fun hw => by simp [fieldsFit, lt_of_and hw]) fun hres =>
      (if_neg (ldg_ok hres)).trans (read_of_eq rfl (by simp))
  | stg => as_aux_lemma =>
    exact readsBack_memA rfl rfl and_left₃ (fun hw => by simp [fieldsFit, lt_of_and hw]) fun hres =>
      (if_neg (stg_ok hres)).trans (read_of_eq rfl (by simp))
  | ldv | stv => as_aux_lemma =>
    exact readsBack_memBC rfl rfl and_left₅ (fun hw => by simp [fieldsFit, lt_of_and hw]) fun hres =>
      (if_pos (strideMask_ok hres)).trans (read_of_eq rfl (by simp))
  | ldvg | stvs => as_aux_lemma =>
    exact readsBack_memBC rfl rfl and_left₅ (fun hw => by simp [fieldsFit, lt_of_and hw]) fun hres =>
      (if_pos (mask_ok hres)).trans (read_of_eq rfl (by simp))
  | amo => as_aux_lemma =>
    exact readsBack_memBC rfl rfl and_left₅ (fun hw => by simp [fieldsFit, lt_of_and hw]) fun hres =>
      (if_neg (amo_ok hres)).trans (read_of_eq rfl (by simp))
  | rmap => as_aux_lemma =>
    exact readsBack_memBC rfl rfl and_left₅ (fun hw => by simp [fieldsFit, lt_of_and hw]) fun _ => rfl
  | mlru => as_aux_lemma =>
    exact readsBack_syllable rfl rfl and_left₆ fun hw _ => by
      conv_lhs => whnf
      rw [mlru_unpack (lt_of_and (and_elim_left hw)) (lt_of_and hw)]
      exact read_of_eq rfl (by simp)
  | mlrmul => as_aux_lemma =>
    exact readsBack_syllable rfl rfl and_left₅ fun _ hres => (if_pos hres).trans (read_of_eq rfl (by simp))
  | mget => as_aux_lemma =>
    exact readsBack_syllable rfl rfl and_left₇ fun _ hres => (if_pos hres).trans (read_of_eq rfl (by simp))
  | lystilWait | sigAdd | sigSrc | sigLoc | sigSet | twait | tfire | lystilLoop | gjoin | gfree | lystilEnd => as_aux_lemma =>
    exact readsBack_lystil rfl rfl fun _ _ _ hop hf => by
      rw [decodeLystilLegal, hop, hf]
      rfl
  | send | recv | lystilCopy => as_aux_lemma =>
    exact readsBack_lystil rfl rfl fun _ _ _ hop hf => by
      rw [decodeLystilLegal, hop, hf]
      exact bit_read _ _
  | setkAddr | setkAddrAdd | setkAddrArg | setkRlen | setkNrow | setkRstr | bnz => as_aux_lemma =>
    exact readsBack_lystil rfl rfl fun _ _ _ hop hf => by
      rw [decodeLystilLegal, hop, hf]
      exact ofNat_read _ _
  | recvr | red => as_aux_lemma =>
    exact readsBack_lystil rfl rfl fun hw hres _ hop hf => by
      rw [decodeLystilLegal, hop, hf]
      exact (if_pos ⟨lt_of_and (and_left₂ hw), lt_of_and (and_elim_left hw), hres⟩).trans (read_of_eq rfl (by simp))
  | sigRadd gs peer => as_aux_lemma =>
    -- The match looks at PEER and GS before SUB.
    exact readsBack_lystil rfl rfl fun _ _ _ hop hf => by
      rw [decodeLystilLegal, hop, hf]
      cases peer <;> cases gs <;> rfl
  | sigAll gs => as_aux_lemma =>
    exact readsBack_lystil rfl rfl fun _ _ _ hop hf => by
      rw [decodeLystilLegal, hop, hf]
      cases gs <;> rfl
  | lystilBadop => exact readsBack_badop
  | _ => exact readsBack_event rfl

/-- Settles O57: each instruction reads back (`readsBack`). -/
theorem decodeOfEncode : Obligations.DecodeOfEncode := by
  unfold Obligations.DecodeOfEncode
  exact readsBack

/-- Settles O60: the decoder computes each of them. -/
theorem specWordsDecode : Obligations.SpecWordsDecode := by
  unfold Obligations.SpecWordsDecode
  refine ⟨?_, ?_, ?_, ?_, ?_, ?_, ?_, ?_, ?_, ?_, ?_⟩ <;> as_aux_lemma => decide

end Sys2Proof
end

