-- ==== Sys2Proof/Proofs/ScalarFields.lean ====
section
/-!
The other scalar instructions (O2). `scalar1_sends` is what an instruction of one source answers, `pred2_sends` what predicate logic
does; a field that fits its register and a condition code that is assigned leave each plan without a trap of its own.
-/

-- As in MemoryCanonical.
set_option Elab.async false

namespace Sys2Proof.Machine

open Sys2Proof

variable {s : State} {h : Hdr} {d a b n w x cc pos len : ℕ} {f : Word → Word} {g : Bool → Bool → Bool} {v : Word} {r : Bool}

/-! ### Fields -/

theorem sextN_mod : sextN w (x % 2 ^ w) = sextN w x := by
  rw [sextN, sextN, Nat.mod_mod]

theorem bitsN_low : bitsN x 0 n = x % 2 ^ n := by
  rw [bitsN, Nat.pow_zero, Nat.div_one]

theorem fieldTrap_fits (hfits : pos + len + 1 ≤ 64) : fieldTrap pos len = none := if_neg (Nat.not_lt.mpr hfits)

theorem planBfx_signed : planBfx d a pos len true s = regPlan [(.s, a, 1)] [(.s, d, 0)] 1
    [.s d (BitVec.ofInt 64 (sextN (len + 1) ((s.rg.rs a).toNat / 2 ^ pos)))] (fieldTrap pos len) := by
  rw [planBfx, bitsN, sextN_mod]
  rfl

/-! ### A condition -/

theorem planCmp_assigned (hcc : ccHolds cc 64 (s.rg.rs a).toNat (s.rg.rs b).toNat = some r) :
    planCmp d a b cc s = regPlan [(.s, a, 1), (.s, b, 2)] [(.p, d, 0)] 1 [.p d r] := by
  rw [planCmp, hcc]
  rfl

/-! ### One source, and predicates -/

theorem scalar1_sends (hd : d < 64) (ha : a < 64) (hc : s.clear h (foot [(.s, a, 1)] [(.s, d, 0)])) (hv : f (s.rg.rs a) = v) :
    Sends (runSyllable h 1 (scalar1 f d a) s) s h [(1, [.s d v])] := by
  have hops : LegalPlan [(.s, d, 0)] [(.s, a, 1)] := by simp [Fam.count, hd, ha]
  exact hv ▸ run_regPlan hc hops rfl rfl

theorem pred2_sends (hd : d < 8) (ha : a < 8) (hb : b < 8) (hc : s.clear h (foot [(.p, a, 1), (.p, b, 2)] [(.p, d, 0)])) :
    Sends (runSyllable h 1 (pred2 g d a b) s) s h [(1, [.p d (g (s.rg.rp a) (s.rg.rp b))])] := by
  have hops : LegalPlan [(.p, d, 0)] [(.p, a, 1), (.p, b, 2)] := by simp [Fam.count, hd, ha, hb]
  exact run_regPlan hc hops rfl rfl

/-- Settles O2: one source by `scalar1_sends`, predicate logic by `pred2_sends`, each other plan by `run_regPlan`. -/
theorem scalarFieldAndPredicateResults : Obligations.ScalarFieldAndPredicateResults := by
  unfold Obligations.ScalarFieldAndPredicateResults
  constructor
  · intro h d a b c s hd ha hb hcp x n
    refine ⟨fun hc imm => ?movi, fun hc => ?source, fun hc pos len hfits => ?bfi, fun hc => ?sel, fun p cc r hp hcc hc => ?cmp⟩
    case movi =>
      have hops : LegalPlan [(.s, d, 0)] [] := by simp [Fam.count, hd]
      exact run_regPlan hc hops rfl rfl
    case source =>
      have sends {f : Word → Word} {v : Word} (hv : f x = v) : Sends (runSyllable h 1 (scalar1 f d a) s) s h [(1, [.s d v])] :=
        scalar1_sends hd ha hc hv
      have hops : LegalPlan [(.s, d, 0)] [(.s, a, 1)] := by simp [Fam.count, hd, ha]
      exact ⟨fun imm => sends rfl, fun w => ⟨sends rfl, sends rfl, sends rfl, sends rfl⟩,
        fun k _ => ⟨sends rfl, sends (congrArg _ bitsN_low)⟩,
        fun pos len hfits => ⟨run_regPlan hc hops (fieldTrap_fits hfits) planBfx_signed,
          run_regPlan hc hops (fieldTrap_fits hfits) rfl⟩⟩
    case bfi =>
      have hops : LegalPlan [(.s, d, 0)] [(.s, a, 1), (.s, d, 0)] := by simp [Fam.count, hd, ha]
      exact run_regPlan hc hops (fieldTrap_fits hfits) rfl
    case sel =>
      have hops : LegalPlan [(.s, d, 0)] [(.s, a, 1), (.s, b, 2), (.p, c, 3)] := by simp [Fam.count, hd, ha, hb, hcp]
      exact run_regPlan hc hops rfl rfl
    case cmp =>
      have hops : LegalPlan [(.p, p, 0)] [(.s, a, 1), (.s, b, 2)] := by simp [Fam.count, hp, ha, hb]
      exact run_regPlan hc hops rfl (planCmp_assigned hcc)
  · intro h d a b s hd ha hb x y
    have hops : LegalPlan [(.p, d, 0)] [(.p, a, 1)] := by simp [Fam.count, hd, ha]
    exact ⟨fun hc => ⟨pred2_sends hd ha hb hc, pred2_sends hd ha hb hc, pred2_sends hd ha hb hc⟩,
      fun hc => run_regPlan hc hops rfl rfl⟩

end Sys2Proof.Machine
end

