-- ==== Sys2Proof/Proofs/Transfers.lean ====
section
/-!
NOP and the transfers (O4). A taken transfer is a register plan whose effect names its target (`jumpPlan_taken`), so that
`run_jump` says what it answers; an untaken one is the register plan alone (`jumpPlan_untaken`).
-/

-- As in MemoryCanonical.
set_option Elab.async false

namespace Sys2Proof.Machine

open Sys2Proof

variable {s : State} {h : Hdr} {lat lat' t a b d cc : ℕ} {off : BitVec 48} {plan : State → Plan} {p : Plan}
  {rd wr : List RegOp} {ws : List Write} {r taken : Bool}

/-! ### Plans -/

theorem jumpPlan_untaken : jumpPlan false t p s = p := if_pos Bool.false_ne_true

/-- A taken transfer whose target holds a header names it. -/
theorem jumpPlan_taken (hsegh : s.seghAt s.cf s.bf t = true) (hgo : p.out = .go) :
    jumpPlan true t p s = { p with eff := fun _ u => u.setCtl (.jump t) } := by
  rw [jumpPlan, if_neg (not_not.mpr rfl), if_pos hsegh, if_pos hgo]

theorem planBrc_assigned (hcc : ccHolds cc 64 (s.rg.rs a).toNat (s.rg.rs b).toNat = some r) :
    planBrc a b cc off s = jumpPlan r (s.bk.target off) (regPlan [(.s, a, 1), (.s, b, 2)] [] 1 []) s := by
  rw [planBrc, hcc]
  rfl

theorem planLoopn_legal (hd : d ≠ 0) (htaken : (s.rg.rs d - 1 != 0) = taken) : planLoopn d off s =
    jumpPlan taken (s.bk.target off) (regPlan [(.s, d, 0)] [(.s, d, 0)] 1 [.s d (s.rg.rs d - 1)]) s := by
  rw [planLoopn, if_neg hd, htaken]

/-! ### What a clear transfer sends -/

section
variable (hc : s.clear h (foot rd wr)) (hops : LegalPlan wr rd)
include hc hops

theorem run_jump (hsegh : s.seghAt s.cf s.bf t = true) (hplan : plan s = jumpPlan true t (regPlan rd wr lat' ws) s) :
    Sends (runSyllable h lat plan s) s h [(lat', ws)] (·.setCtl (.jump t)) := by
  have hgo := regPlan_go rd wr lat' ws hops
  exact run_plan hc _ rfl rfl (hplan.trans (jumpPlan_taken hsegh hgo)) ⟨rfl, rfl, rfl, rfl, rfl, rfl, rfl, hgo⟩ rfl

theorem run_untaken (hplan : plan s = jumpPlan false t (regPlan rd wr lat' ws) s) :
    Sends (runSyllable h lat plan s) s h [(lat', ws)] :=
  run_regPlan hc hops rfl (hplan.trans jumpPlan_untaken)

end

/-- Settles O4: the taken transfers by `run_jump`, the untaken by `run_untaken`, NOP and BR by `run_effect`. -/
theorem transferResults : Obligations.TransferResults := by
  unfold Obligations.TransferResults
  intro h a b d cc off s ha hb hd t n
  refine ⟨fun hc => run_effect (plan := fun _ => {}) hc rfl, fun hc hsegh => run_effect hc (jumpPlan_taken hsegh rfl),
    fun hc r hcc => ?brc, fun hc hsegh => ?call, fun hc hsegh => ?ret, fun hc hd0 => ?loopn⟩
  case brc =>
    have hops : LegalPlan [] [(.s, a, 1), (.s, b, 2)] := by simp [Fam.count, ha, hb]
    constructor
    · rintro rfl hsegh
      exact run_jump hc hops hsegh (planBrc_assigned hcc)
    · rintro rfl
      exact run_untaken hc hops (planBrc_assigned hcc)
  case call =>
    have hops : LegalPlan [(.s, d, 0)] [] := by simp [Fam.count, hd]
    exact run_jump hc hops hsegh rfl
  case ret =>
    have hops : LegalPlan [] [(.s, a, 1)] := by simp [Fam.count, ha]
    exact run_jump hc hops hsegh rfl
  case loopn =>
    have hops : LegalPlan [(.s, d, 0)] [(.s, d, 0)] := by simp [Fam.count, hd]
    exact ⟨fun hn hsegh => run_jump hc hops hsegh (planLoopn_legal hd0 (bne_iff_ne.mpr hn)),
      fun hn => run_untaken hc hops (planLoopn_legal hd0 (by simpa [n] using hn))⟩

end Sys2Proof.Machine
end

