-- ==== Sys2Proof/Proofs/SystemResults.lean ====
section
/-!
Control registers, SLABQ, MUINV, SEED and RAMPQ (O7): each is a register plan; what is left is that the checks of R25, R118 and the
register's own entry speak of nothing.
-/

-- As in MemoryCanonical.
set_option Elab.async false

namespace Sys2Proof.Machine

open Sys2Proof

variable {s : State} {d a idx mode : ℕ} {write : Bool}

/-! ### Checks that speak of nothing -/

/-- A register that the mode may access passes the checks of R25. -/
theorem cregCheck_open (hopen : s.cregOpen idx write) : cregCheck idx write (!s.bk.monitor) = none := by
  obtain ⟨hassigned, hmode, hwritable⟩ := hopen
  have hpriv : ¬(idx.testBit 11 ∧ (!s.bk.monitor) = true) := fun ⟨hbit, htask⟩ => by simp [hmode hbit] at htask
  have hro : ¬(write ∧ idx.testBit 10) := fun ⟨hwrite, hbit⟩ => by simp [hwritable hwrite] at hbit
  rw [cregCheck, if_neg (by simpa using hassigned), if_neg hpriv, if_neg hro]

/-- The effect of a SETC at issue: one of CCTL restarts the address stream (R47). -/
def restartStream (idx : ℕ) (u : State) : State :=
  if idx = 0 then u.modCore u.cf fun z => { z with spec := [], specPc := none } else u

theorem planSetc_open (hopen : s.cregOpen idx true) (hok : s.cregRefused s.cf idx (s.rg.rs a) = false) :
    planSetc a idx s = { regPlan [(.s, a, 1)] [] 1 [.creg idx (s.rg.rs a)] with eff := fun _ => restartStream idx } := by
  rw [planSetc, cregCheck_open hopen, hok]
  rfl

theorem planGetcx_open (hlow : (s.rg.rs a).toNat < 4096) (hopen : s.cregOpen (s.rg.rs a).toNat false) :
    planGetcx d a s = sysRead [(.s, a, 1)] d (s.getCreg s.cf s.bf (s.rg.rs a).toNat) none := by
  rw [planGetcx, Nat.mod_eq_of_lt hlow, if_neg (Nat.not_le.mpr hlow), cregCheck_open hopen]

/-- In monitor mode, MUINV of an assigned mode whose context number fits goes (R118). -/
theorem planMuinv_monitor (hmonitor : s.bk.monitor = true) (hfits : mode = 1 → (s.rg.rs a).toNat < 2 ^ 16) (hmode : mode ≤ 2) :
    planMuinv a mode s = regPlan [(.s, a, 1)] [] 1 [.muinv mode
      (if mode = 1 then (s.rg.rs a).toNat else s.bk.cregs.ctxid.toNat) ((s.rg.rs a).toNat % 2 ^ 55)] := by
  have hnone : firstTrap [(!s.bk.monitor, privTrap 0xFFF), (mode == 1 && decide (2 ^ 16 ≤ (s.rg.rs a).toNat), illegalOp 1),
      (decide (2 < mode), illegalOp 6)] = none := firstTrap_none (by simpa [hmonitor, hmode] using hfits)
  rw [planMuinv, hnone]

/-- Settles O7: every plan by `run_regPlan`, SETC with its effect by `run_plan`. -/
theorem systemResults : Obligations.SystemResults := by
  unfold Obligations.SystemResults
  intro h d a idx s hd ha x
  have dst_legal : LegalPlan [(.s, d, 0)] [] := by simp [Fam.count, hd]
  have both_legal : LegalPlan [(.s, d, 0)] [(.s, a, 1)] := by simp [Fam.count, hd, ha]
  have src_legal : LegalPlan [] [(.s, a, 1)] := by simp [Fam.count, ha]
  refine ⟨fun hc => ⟨fun hopen => run_regPlan hc dst_legal (cregCheck_open hopen) rfl, run_regPlan hc dst_legal rfl rfl,
      run_regPlan hc dst_legal rfl rfl, run_regPlan hc dst_legal rfl rfl, run_regPlan hc dst_legal rfl rfl⟩,
    fun hc hlow hopen => run_regPlan hc both_legal rfl (planGetcx_open hlow hopen),
    fun hc => ⟨fun hopen hok => ?setc, fun imm => run_regPlan hc src_legal rfl rfl, fun hmonitor => ?muinv⟩⟩
  case setc =>
    exact run_plan hc _ rfl rfl (planSetc_open hopen hok)
      ⟨rfl, rfl, rfl, rfl, rfl, rfl, rfl, regPlan_go _ _ 1 [.creg idx x] src_legal⟩ rfl
  case muinv =>
    exact ⟨run_regPlan hc src_legal rfl (planMuinv_monitor hmonitor nofun (by decide)),
      fun hfits => run_regPlan hc src_legal rfl (planMuinv_monitor hmonitor (fun _ => hfits) (by decide)),
      run_regPlan hc src_legal rfl (planMuinv_monitor hmonitor nofun le_rfl)⟩

end Sys2Proof.Machine
end
